-- ==== Sys2Proof/Word.lean ====
section
/-! DEFINITION. The word types of the model and the sparse map that State is built from. -/
namespace Sys2Proof

/-- One byte. -/
abbrev Byte := BitVec 8

/-- A 32-bit word: an FP32 bit pattern or a U32 field. -/
abbrev W32 := BitVec 32

/-- A 64-bit word: a scalar register, a command word, a header word. -/
abbrev W64 := BitVec 64

/-- A sparse map with natural keys, its keys strictly rising; a key that is not listed has the map's
default, which the reader of the map names. Plain data, so that states can be compared. -/
abbrev KMap (β : Type) := List (Nat × β)

end Sys2Proof
end

