-- ==== Sys2Proof/Syntax.lean ====
section
/-! DEFINITION. The commands of the block: one constructor for each row of spec/opcode_table.json, with
the operands the step takes from outside. -/
namespace Sys2Proof

/-- A strand context: a core (00 "Names") and one of its 16 contexts (R51). -/
structure CtxId where
  core : Fin 512
  ctx : Fin 16
deriving DecidableEq, Repr

/-- What the sluice takes from outside: its length in ns (R26), the mean input power of the ended tick in
W and the 29 sensors in m°C at the boundary (R403), and the PTP time of the boundary (R28). -/
structure SluiceEnv where
  lengthNs : Nat
  powerW : Nat
  sensors : List Int
  ptpSec : Nat
  ptpNs : Nat
deriving DecidableEq, Repr

/-- The cause of a trip (R404): a sensor at 115 °C, or the input out of range for 1 ms. -/
inductive TripCause where
  | thermal (sensor : Fin 29)
  | under
  | over
deriving DecidableEq, Repr

/-- Where an uncorrectable memory error is (R409, R410). -/
inductive SramSite where
  | coreStore (core : Fin 512)
  | accumulator (core : Fin 512)
  | brine (core : Fin 512)
  | dieCopy (t : Fin 4) (vpage : Nat) (die : Fin 4)
  | homeFrame (t : Fin 4) (q : Fin 64) (address : Nat)
  | panCell (t : Fin 4) (q : Fin 64) (address : Nat)
  | transient (t : Fin 4) (q : Fin 64)
deriving DecidableEq, Repr

/-- Which corrected error occurred (R408). -/
inductive CorrectedSite where
  | hbm
  | sram
deriving DecidableEq, Repr

/-- The double-buffered tables (R48). -/
inductive TableId where
  | group
  | directory (t : Fin 4) (desc : Nat)
  | quota
  | augmentation (stream : Fin 16)
  | quantiser (t : Fin 4)
  | skip (t : Fin 4)
deriving DecidableEq, Repr

/-- What a staging copy was made for (R175): a model page, or page p of a bound KV sequence. -/
inductive StagedRef where
  | model (page : Nat)
  | kv (frame : Nat)
deriving DecidableEq, Repr

/-- The two kinds of codec unit (R226). -/
inductive UnitKind where
  | decode
  | encode
deriving DecidableEq, Repr

/-- An IP address as a number, its first byte most significant. -/
inductive IpAddr where
  | v4 (a : Nat)
  | v6 (a : Nat)
deriving DecidableEq, Repr

/-- The addresses of a UDP datagram (R299): the address of the module that it was sent to, and the source address and port
that it came from. -/
structure UdpAddrs where
  dest : IpAddr
  addr : IpAddr
  udp : Nat
deriving DecidableEq, Repr

/-- The two ends of a UDP datagram: its addresses, and the Ethernet port (0 E0, 1 E1, 2 M0) that it came to. -/
structure Endpoint extends UdpAddrs where
  port : Fin 3
deriving DecidableEq, Repr

/-- Where a frame of the Jeril Dictionary Protocol came from (R299): a datagram, or the mailbox of a host port. -/
inductive Transport where
  | ethernet (e : Endpoint)
  | mailbox (t : Fin 4)
deriving DecidableEq, Repr

/-- A collective message (R358): the header's fields after KIND, which the row gives, and the body. -/
structure CollMsg where
  epoch : Nat
  seq : Nat
  step : Nat
  attempt : Nat
  origin : Nat
  piece : Nat
  body : List Byte
deriving DecidableEq, Repr

/-- HELLO (R329). -/
structure HelloMsg where
  moduleId : Nat
  serial : Nat
  port : Nat
  outer : Bool
  version : Nat
  tickCount : Nat
  tickN : Nat
deriving DecidableEq, Repr

/-- One entry of NEIGHBOURS (R329). -/
structure NeighbourEntry where
  moduleId : Nat
  outer : Bool
  ports : Nat
deriving DecidableEq, Repr

/-- The TICK message (R334). -/
structure TickMsg where
  boundary : Nat
  sendNs : Nat
  tickN : Nat
  nextN : Nat
  changeAt : Nat
  jumpAt : Nat
  jumpTo : Nat
  anchorTick : Nat
  anchorS : Nat
  anchorNs : Nat
  masterState : Nat
  masterId : Nat
  distance : Nat
  pondAt : Nat
deriving DecidableEq, Repr

/-- One command of the block. The constructor's docstring-free name follows the row's mnemonic; LAWS.json
maps each to the row. -/
inductive Instr where
  -- the tick
  | sluice (env : SluiceEnv)
  -- strand instructions: the context whose next instruction is issued
  | nop (c : CtxId)
  | endStrand (c : CtxId)
  | br (c : CtxId)
  | loop (c : CtxId)
  | mark (c : CtxId)
  | twait (c : CtxId)
  | rdsys (c : CtxId)
  | rdlen (c : CtxId)
  | li (c : CtxId)
  | lih (c : CtxId)
  | add (c : CtxId)
  | sub (c : CtxId)
  | mul (c : CtxId)
  | muli (c : CtxId)
  | and (c : CtxId)
  | or (c : CtxId)
  | xor (c : CtxId)
  | shl (c : CtxId)
  | shr (c : CtxId)
  | sra (c : CtxId)
  | min (c : CtxId)
  | max (c : CtxId)
  | divui (c : CtxId)
  | remui (c : CtxId)
  | tdld (c : CtxId)
  | tdst (c : CtxId)
  | tdoff (c : CtxId)
  | tdsz (c : CtxId)
  | tload (c : CtxId)
  | tloadDone (c : CtxId) (which : Nat)
  | tstore (c : CtxId)
  | tacc (c : CtxId)
  | kld (c : CtxId)
  | kst (c : CtxId)
  | mma (c : CtxId)
  | aclr (c : CtxId)
  | aswap (c : CtxId)
  | drain (c : CtxId)
  | vld (c : CtxId)
  | vst (c : CtxId)
  | vbc (c : CtxId)
  | vidx (c : CtxId)
  | vext (c : CtxId)
  | vadd (c : CtxId)
  | vsub (c : CtxId)
  | vmul (c : CtxId)
  | vfma (c : CtxId)
  | vmax (c : CtxId)
  | vmin (c : CtxId)
  | vun (c : CtxId)
  | vcmp (c : CtxId)
  | vsel (c : CtxId)
  | vred (c : CtxId)
  | vexp2 (c : CtxId)
  | vlog2 (c : CtxId)
  | vcvt (c : CtxId)
  | smx (c : CtxId)
  | xadd (c : CtxId)
  | xbind (c : CtxId)
  | kvapp (c : CtxId)
  | kvwalk (c : CtxId)
  | kvskip (c : CtxId)
  | lsend (c : CtxId)
  | lrecv (c : CtxId)
  -- strands and slices
  | strandTake (c : CtxId)
  | slicePrepare (t : Fin 4) (q : Fin 64) (idx : Nat)
  | breakIn (j : Nat)
  -- power and health
  | emergencyThrottle (tauNs : Nat)
  | trip (cause : TripCause)
  | selftestRound
  | selftestResult (core : Fin 512) (pass : Bool)
  | hbmRecalibrationRequest (stack : Fin 24)
  | quietWaitExpiry (stack : Fin 24)
  | hbmRecalibrationDone (stack : Fin 24)
  | riskUpdate
  | sramUncorrectableError (site : SramSite)
  | hardwareFault (cls unit : Nat)
  -- completions of background work
  | pinMigrationCopyDone (t : Fin 4) (vpage : Nat)
  | stagedAccumulationDone (t : Fin 4) (vpage : Nat)
  | stagingCopyDone (die : Fin 4) (ref : StagedRef)
  | panWorkDone (t : Fin 4) (q : Fin 64)
  | tableSyncDone (table : TableId)
  -- queue commands: the head command of queue q of Tt
  | commandNop (t : Fin 4) (q : Fin 64)
  | compute (t : Fin 4) (q : Fin 64)
  | collective (t : Fin 4) (q : Fin 64)
  | memMap (t : Fin 4) (q : Fin 64)
  | memUnmap (t : Fin 4) (q : Fin 64)
  | memPin (t : Fin 4) (q : Fin 64)
  | memQuery (t : Fin 4) (q : Fin 64)
  | kvShare (t : Fin 4) (q : Fin 64)
  | kvRelease (t : Fin 4) (q : Fin 64)
  | kvCommitDir (t : Fin 4) (q : Fin 64)
  | panFill (t : Fin 4) (q : Fin 64)
  | panCopy (t : Fin 4) (q : Fin 64)
  | panConvert (t : Fin 4) (q : Fin 64)
  | panGather (t : Fin 4) (q : Fin 64)
  | panDigest (t : Fin 4) (q : Fin 64)
  | imgConv (t : Fin 4) (q : Fin 64)
  | imgResize (t : Fin 4) (q : Fin 64)
  | imgPyramid (t : Fin 4) (q : Fin 64)
  | imgDetect (t : Fin 4) (q : Fin 64)
  | codecOpen (t : Fin 4) (q : Fin 64)
  | codecDecode (t : Fin 4) (q : Fin 64)
  | codecEncode (t : Fin 4) (q : Fin 64)
  | codecClose (t : Fin 4) (q : Fin 64)
  | codecFrameDone (unit : UnitKind) (engine : Fin 4)
  | ingestOpen (t : Fin 4) (q : Fin 64)
  -- the sample descriptors that the module reads from the host's list (R245)
  | ingestBatch (t : Fin 4) (q : Fin 64) (hostList : List (List W64))
  | ingestClose (t : Fin 4) (q : Fin 64)
  | recordOpen (t : Fin 4) (q : Fin 64)
  | recordClose (t : Fin 4) (q : Fin 64)
  | stateSecure (t : Fin 4) (q : Fin 64)
  | stateRestore (t : Fin 4) (q : Fin 64)
  -- securing and storage
  | secureTransfer (t : Fin 4)
  | storageAck (t : Fin 4) (datagram : List Byte)
  | storageResendTimeout (t : Fin 4)
  | storageFailTimeout (t : Fin 4)
  -- collective messages
  | ready (g : Fin 256) (m : CollMsg)
  | start (g : Fin 256) (m : CollMsg)
  | piece (g : Fin 256) (m : CollMsg)
  | counts (g : Fin 256) (m : CollMsg)
  | verdict (g : Fin 256) (m : CollMsg)
  | decide (g : Fin 256) (m : CollMsg)
  | verdictWaveTimeout (g : Fin 256)
  | collWaitExpiry (t : Fin 4) (q : Fin 64)
  | inDoubtExpiry (g : Fin 256)
  -- Laniak ports
  | laneLockLoss (p : Fin 18) (lane : Fin 8)
  | errorCountRetrain (p : Fin 18)
  -- the lanes that passed training at both ends, and the NEXT_SEQ that the other end reported
  | linkTrained (p : Fin 18) (lanes : BitVec 8) (nextSeq : Nat)
  | signalLoss (p : Fin 18)
  | retrainTimer (p : Fin 18)
  | laneTestPass (p : Fin 18) (lanes : BitVec 8)
  | data (p : Fin 18) (flit : List Byte)
  | control (p : Fin 18) (flit : List Byte)
  | retry (p : Fin 18) (flit : List Byte)
  | idle (p : Fin 18) (flit : List Byte)
  | retryRepeatTimer (p : Fin 18)
  | idleTimer (p : Fin 18)
  | ackTimeout (p : Fin 18)
  | hello (p : Fin 18) (m : HelloMsg)
  | helloTimer
  | neighbours (p : Fin 18) (entries : List NeighbourEntry)
  | neighboursTimer
  | view (p : Fin 18) (viewSeq : Nat) (members : List Nat)
  | pondFormation
  | tick (p : Fin 18) (m : TickMsg)
  | tickLoss
  | offer (p : Fin 18) (masterId distance port : Nat)
  | delayReq (p : Fin 18) (t1 nowNs : Nat)
  | delayReqTimer (nowNs : Nat)
  | delayResp (p : Fin 18) (t1 t2 t3 t4 : Nat)
  | credit (p : Fin 18) (group count : Nat)
  | countUp (p : Fin 18) (tickCount : Nat)
  | tickPeriodChange
  | tickJump
  -- host ports
  | cmdTail (t : Fin 4) (q : Fin 64) (tail : Nat) (atNs : Nat) (entries : List (List W64))
  | cplHead (t : Fin 4) (q : Fin 64) (head : Nat)
  | create (t : Fin 4) (q : Fin 64)
  | delete (t : Fin 4) (q : Fin 64)
  | resume (t : Fin 4) (q : Fin 64)
  | eventCause (t : Fin 4) (value : W32)
  | mbxCtrl (t : Fin 4) (value : W32)
  | mbxStatus (t : Fin 4) (value : W32)
  | registerWrite (t : Fin 4) (offset : Nat) (width : Nat) (value : W64)
  | bar2Read (t : Fin 4) (offset : Nat) (count : Nat) (atNs : Nat)
  | bar2Write (t : Fin 4) (offset : Nat) (bytes : List Byte) (atNs : Nat)
  | bar2HoldRelease (t : Fin 4)
  | perstAssert (t : Fin 4)
  | hotReset (t : Fin 4)
  | linkDisable (t : Fin 4)
  | dataLinkLoss (t : Fin 4)
  | functionLevelReset (t : Fin 4)
  | d3hotToD0 (t : Fin 4)
  -- the dictionary
  | request (src : Transport) (frame : List Byte) (atNs : Nat)
  | storeDone (ok : Bool)
  | jdpOpen (src : Transport) (frame : List Byte) (atNs : Nat)
  | close (src : Transport) (frame : List Byte) (atNs : Nat)
  | poll (src : Transport) (frame : List Byte) (atNs : Nat)
  | sessionIdleExpiry (session : Nat)
  | frameDeferredApply
  | notify
  -- installation and attestation
  | installOpen (port : Fin 3) (addr : UdpAddrs) (datagram : List Byte)
  | installData (port : Fin 3) (addr : UdpAddrs) (datagram : List Byte)
  | installAckTimer
  | installDigestDone
  | installSignatureDone
  | installStatus (port : Fin 3) (addr : UdpAddrs) (datagram : List Byte)
  | abort (port : Fin 3) (addr : UdpAddrs) (datagram : List Byte)
  | remove (port : Fin 3) (addr : UdpAddrs) (datagram : List Byte)
  | attest (port : Fin 3) (addr : UdpAddrs) (datagram : List Byte)
  | fwOpen (port : Fin 3) (addr : UdpAddrs) (datagram : List Byte)
  -- ingest
  | ingestDatagram (port : Fin 3) (datagram : List Byte)
  | hostSampleReadDone (stream : Fin 16) (slot : Nat) (bytes : Option (List Byte))
  | decodeBudgetExpiry (stream : Fin 16)
  | arrivalWaitExpiry (stream : Fin 16)
  -- reset, input, sidebands
  | modResetN
  | pwrGoodLoss
  | inputApply
  | inputRemove
  | resetRelease
  -- the rising edge's distance from the nearest PTP second, in ns
  | ppsIn (offsetNs : Int)
  | flashSelN
  | smbStatus
  | smbStepping
  | smbSerial
  | smbModuleId
  | smbHottest
  | smbHwFault
  | smbSensors
  | perstDeassert (t : Fin 4)
  | bar0Read (t : Fin 4) (offset : Nat) (width : Nat)
  -- which of E0, E1, M0 now receive a PTP source (bit 0 to bit 2)
  | ptpSourceChange (sources : BitVec 3)
  | ppsEdgeMissing
  | scrubDone
  | diePinCopyDone (t : Fin 4) (vpage : Nat)
  | correctedError (site : CorrectedSite)
  | inputExcursion
  | thermalAlert (sensor : Fin 29) (milliC : Int)
  | flashSelNRelease
deriving DecidableEq, Repr

end Sys2Proof
end

