-- ==== Sys2Proof/Decode.lean ====
section
/-! DEFINITION. The words that spell commands. The opcode table gives none of its rows bits (every row of it has
an empty list of fields), so no word spells a command. -/
namespace Sys2Proof

/-- The command that a word spells by the table's bits: none, since the table gives no row bits. -/
def decodeTableWord (_nbits _w : Nat) : Option Instr := none

end Sys2Proof
end

