-- ==== Sys2Proof/Machine/Bytes.lean ====
section
/-! DEFINITION. Sparse maps, byte order (R4), and the canonical memory that physical memory is kept in:
addresses strictly rising, no entry equal to what an unlisted address reads as. -/
namespace Sys2Proof.Machine

open Sys2Proof

/-- The value of a key, if the map lists it. -/
def kget {β : Type} : KMap β → Nat → Option β
  | [], _ => none
  | (a, b) :: r, k => if a = k then some b else kget r k

/-- Sets a key, keeping the keys rising. -/
def kset {β : Type} : KMap β → Nat → β → KMap β
  | [], k, v => [(k, v)]
  | (a, b) :: r, k, v =>
    if k < a then (k, v) :: (a, b) :: r else if k = a then (k, v) :: r else (a, b) :: kset r k v

/-- Removes a key. -/
def kdel {β : Type} (m : KMap β) (k : Nat) : KMap β := m.filter (fun p => p.1 != k)

/-- Applies a function to the value of a key that is listed. -/
def kmod {β : Type} (m : KMap β) (k : Nat) (f : β → β) : KMap β :=
  m.map (fun p => if p.1 = k then (p.1, f p.2) else p)

/-- Adds n to the count under a key, modulo 2^64 (the counters are U64). -/
def kbump (m : KMap Nat) (k n : Nat) : KMap Nat :=
  if n = 0 then m else kset m k (((kget m k).getD 0 + n) % 2 ^ 64)

/-- The n low bytes of v, least significant first (R4). -/
def leBytes : Nat → Nat → List Byte
  | 0, _ => []
  | n + 1, v => BitVec.ofNat 8 v :: leBytes n (v / 256)

/-- The number that bytes spell, least significant first (R4). -/
def ofLe : List Byte → Nat
  | [] => 0
  | b :: r => b.toNat + 256 * ofLe r

/-- n bytes of a list from an offset, zero beyond its end. -/
def slice (bs : List Byte) (off n : Nat) : List Byte :=
  let r := (bs.drop off).take n
  r ++ List.replicate (n - r.length) 0

/-- The little-endian number of n bytes at an offset. -/
def leAt (bs : List Byte) (off n : Nat) : Nat := ofLe (slice bs off n)

/-- Replaces bytes from an offset, the list extended with zeros as far as needed. -/
def splice (bs : List Byte) (off : Nat) (new : List Byte) : List Byte :=
  let p := bs.take off
  p ++ List.replicate (off - p.length) 0 ++ new ++ bs.drop (off + new.length)

/-- Bits lo to lo + n − 1 of a number (R4). -/
def bits (v lo n : Nat) : Nat := v / 2 ^ lo % 2 ^ n

/-- ceil(a / b). -/
def ceilDiv (a b : Nat) : Nat := (a + b - 1) / b

/-- floor(log2 n), 0 for 0. -/
def flog2 (n : Nat) : Nat := Nat.log2 n

/-- One element of a list, a default beyond its end. -/
def nth {α : Type} (l : List α) (i : Nat) (d : α) : α := l.getD i d

/-- Applies a function to one element of a list. -/
def modNth {α : Type} (l : List α) (i : Nat) (f : α → α) : List α :=
  l.mapIdx (fun j x => if j = i then f x else x)

/-- The order of bytes as text would give it; used where a rule asks for ascending keys. -/
def insertBy {α : Type} (lt : α → α → Bool) (x : α) : List α → List α
  | [] => [x]
  | y :: r => if lt x y then x :: y :: r else y :: insertBy lt x r

/-- A stable ascending sort. -/
def sortBy {α : Type} (lt : α → α → Bool) (l : List α) : List α :=
  l.foldl (fun acc x => insertBy lt x acc) []

/-! ### Canonical memory -/

/-- The byte at an address; an unlisted address reads 0 (frames are zero-filled when they are given out,
R34, R165, R297). -/
def memRead (m : List Host.Cell) (a : Nat) : Byte := (kget m a).getD 0

/-- Writes one byte; writing 0 removes the entry. -/
def memWrite (m : List Host.Cell) (a : Nat) (b : Byte) : List Host.Cell :=
  if b = 0 then kdel m a else kset m a b

/-- Reads n bytes. -/
def memReadN (m : List Host.Cell) (a : Nat) : Nat → List Byte
  | 0 => []
  | n + 1 => memRead m a :: memReadN m (a + 1) n

/-- Writes a list of bytes. -/
def memWriteN (m : List Host.Cell) (a : Nat) : List Byte → List Host.Cell
  | [] => m
  | b :: r => memWriteN (memWrite m a b) (a + 1) r

/-- Zeroes the bytes from lo up to hi. -/
def memZero (m : List Host.Cell) (lo hi : Nat) : List Host.Cell :=
  m.filter (fun p => p.1 < lo || hi ≤ p.1)

/-- Copies n bytes from src to dst, as they stand before the copy. -/
def memCopy (m : List Host.Cell) (src dst n : Nat) : List Host.Cell :=
  (m.filter (fun p => src ≤ p.1 && p.1 < src + n)).foldl
    (fun acc p => memWrite acc (p.1 - src + dst) p.2) (memZero m dst (dst + n))

/-- The canonical form: addresses strictly rising, no entry 0. -/
def memWf : List Host.Cell → Bool
  | [] => true
  | (_, b) :: [] => b != 0
  | (a, b) :: (a', b') :: r => b != 0 && a < a' && memWf ((a', b') :: r)

end Sys2Proof.Machine
end

