-- ==== Sys2Proof/Machine/Float.lean ====
section
/-! DEFINITION. Number formats and conversions (R82 to R89, R98, R100, R116): values are exact, and every
rounding is one integer rounding of an exact quotient. -/
namespace Sys2Proof.Machine

open Sys2Proof

/-- An exact value: NaN, an infinity, or (−1)^neg × n / d × 2^e with d at least 1. Zero keeps its sign. -/
inductive FVal where
  | nan
  | inf (neg : Bool)
  | fin (neg : Bool) (n d : Nat) (e : Int)
deriving DecidableEq, Repr

/-- A binary floating-point layout of R83: exponent bits, mantissa bits, bias, and whether the codes with an
all-ones exponent are infinity and NaN (2), only S.1…1.1…1 is NaN (1), or all are finite (0). -/
structure FpLayout where
  ebits : Nat
  mbits : Nat
  bias : Nat
  special : Nat
deriving DecidableEq, Repr

/-- The layouts of *Floating-point element formats* by format code (R64, R83). -/
def fpLayout : Nat → FpLayout
  | 0 => ⟨8, 23, 127, 2⟩
  | 1 => ⟨8, 7, 127, 2⟩
  | 2 => ⟨4, 3, 7, 1⟩
  | 3 => ⟨5, 2, 15, 2⟩
  | 4 => ⟨4, 3, 7, 1⟩
  | 5 => ⟨5, 2, 15, 2⟩
  | 6 => ⟨3, 2, 3, 0⟩
  | 7 => ⟨2, 3, 1, 0⟩
  | _ => ⟨2, 1, 1, 0⟩

/-- Bits per element of a format code (R64). -/
def fmtBits : Nat → Nat
  | 0 => 32
  | 1 => 16
  | 6 => 6
  | 7 => 6
  | 8 => 4
  | 10 => 4
  | 11 => 2
  | _ => 8

/-- Formats with an E8M0 block scale (R64). -/
def fmtScaled (f : Nat) : Bool := 4 ≤ f && f ≤ 11

/-- Formats with a tensor scale (R64). -/
def fmtTensorScaled (f : Nat) : Bool := f == 8 || f == 10 || f == 11

/-- B32: bytes of 32 elements (R64). -/
def fmtB32 (f : Nat) : Nat := 4 * fmtBits f

/-- The integer and ternary formats (R84). -/
def fmtInt (f : Nat) : Bool := f == 9 || f == 10 || f == 11

/-- 2^e as a pair (numerator factor, denominator factor). -/
def pow2 (e : Int) : Nat × Nat := if 0 ≤ e then (2 ^ e.toNat, 1) else (1, 2 ^ (-e).toNat)

/-- An integer times 2^e as an exact value. -/
def FVal.ofInt (i : Int) (e : Int) : FVal := .fin (i < 0) i.natAbs 1 e

/-- +0.0. -/
def FVal.zero : FVal := .fin false 0 1 0

/-- Two's complement of an n-bit code. -/
def signedOf (n v : Nat) : Int := if v < 2 ^ (n - 1) then v else (v : Int) - 2 ^ n

/-- The value of an element code in a floating-point layout (R83). -/
def decodeFp (l : FpLayout) (c : Nat) : FVal :=
  let m := c % 2 ^ l.mbits
  let e := c / 2 ^ l.mbits % 2 ^ l.ebits
  let neg := c / 2 ^ (l.mbits + l.ebits) % 2 = 1
  if l.special = 2 ∧ e = 2 ^ l.ebits - 1 then (if m = 0 then .inf neg else .nan)
  else if l.special = 1 ∧ e = 2 ^ l.ebits - 1 ∧ m = 2 ^ l.mbits - 1 then .nan
  else if e = 0 then .fin neg m 1 (1 - (l.bias : Int) - l.mbits)
  else .fin neg (m + 2 ^ l.mbits) 1 ((e : Int) - l.bias - l.mbits)

/-- The element value of a code (R83, R84); the T2 code 0b10 reads as 0. -/
def decodeElem (f c : Nat) : FVal :=
  match f with
  | 9 => FVal.ofInt (signedOf 8 (c % 256)) (-6)
  | 10 => FVal.ofInt (signedOf 4 (c % 16)) 0
  | 11 => if c % 4 = 1 then .fin false 1 1 0 else if c % 4 = 3 then .fin true 1 1 0 else FVal.zero
  | _ => decodeFp (fpLayout f) (c % 2 ^ fmtBits f)

/-- floor(log2 (n / d)) for n, d > 0. -/
def ratLog2 (n d : Nat) : Int :=
  let l : Int := (flog2 n : Int) - flog2 d
  let p := pow2 l
  if n * p.2 < d * p.1 then l - 1 else l

/-- n / d × 2^e divided by 2^q: its floor, and the exact fraction as (remainder, divisor). -/
def quotAt (n d : Nat) (e q : Int) : Nat × Nat × Nat :=
  let p := pow2 (e - q)
  let a := n * p.1
  let b := d * p.2
  (a / b, a % b, b)

/-- Rounds the quotient to nearest, ties to even (R87), or stochastically when a 24-bit random number is
given (R100). -/
def roundQuot (x : Nat × Nat × Nat) (rnd : Option Nat) : Nat :=
  match rnd with
  | none =>
    if 2 * x.2.1 > x.2.2 then x.1 + 1
    else if 2 * x.2.1 = x.2.2 then (if x.1 % 2 = 1 then x.1 + 1 else x.1)
    else x.1
  | some r => if r < x.2.1 * 2 ^ 24 / x.2.2 then x.1 + 1 else x.1

/-- The grid exponent of a layout at a magnitude: floor(log2) less the mantissa bits, no lower than the
subnormal grid, without an upper bound. -/
def gridExp (l : FpLayout) (n d : Nat) (e : Int) : Int :=
  let sub : Int := 1 - (l.bias : Int) - l.mbits
  if n = 0 then sub else max (ratLog2 n d + e - l.mbits) sub

/-- The code of (−1)^neg × k × 2^q in a layout, for a k and q that the layout can hold. -/
def encodeFp (l : FpLayout) (neg : Bool) (k : Nat) (q : Int) : Nat :=
  let s := if neg then 2 ^ (l.mbits + l.ebits) else 0
  let sub : Int := 1 - (l.bias : Int) - l.mbits
  if k = 0 then s
  else
    let top : Int := flog2 k + q
    if top < 1 - (l.bias : Int) then s + k * (pow2 (q - sub)).1
    else
      let p := pow2 (q - (top - l.mbits))
      s + (top + l.bias).toNat * 2 ^ l.mbits + (k * p.1 / p.2 - 2 ^ l.mbits)

/-- The largest finite value of a format as k × 2^q (R83, R88). -/
def fmtMax : Nat → Nat × Int
  | 0 => (2 ^ 24 - 1, 104)
  | 1 => (2 ^ 8 - 1, 120)
  | 2 => (14, 5)
  | 4 => (14, 5)
  | 3 => (7, 13)
  | 5 => (7, 13)
  | 6 => (7, 2)
  | 7 => (15, -1)
  | 8 => (3, 1)
  | 9 => (127, -6)
  | 10 => (7, 0)
  | _ => (1, 0)

/-- Whether k × 2^q exceeds the largest finite value of a format. -/
def exceeds (f : Nat) (k : Nat) (q : Int) : Bool :=
  let m := fmtMax f
  let p := pow2 (q - m.2)
  k * p.1 > m.1 * p.2

/-- The canonical NaN of a format (R87). -/
def canonNan : Nat → Nat
  | 0 => 0x7FC00000
  | 1 => 0x7FC0
  | 2 => 0x7F
  | 4 => 0x7F
  | 3 => 0x7E
  | 5 => 0x7E
  | _ => 0

/-- The code of an infinity in FP32, BF16, E5M2. -/
def infCode (f : Nat) (neg : Bool) : Nat := encodeFp (fpLayout f) neg 0 0 +
  (2 ^ (fpLayout f).ebits - 1) * 2 ^ (fpLayout f).mbits

/-- Formats that have an infinity. -/
def fmtHasInf (f : Nat) : Bool := (fpLayout f).special = 2 && !fmtInt f

/-- Formats that have a NaN. -/
def fmtHasNan (f : Nat) : Bool := (fpLayout f).special ≠ 0 && !fmtInt f

/-- The largest finite magnitude of a format with a sign. -/
def maxCode (f : Nat) (neg : Bool) : Nat :=
  if fmtInt f then
    (if neg then 2 ^ fmtBits f - (fmtMax f).1 else (fmtMax f).1)
  else encodeFp (fpLayout f) neg (fmtMax f).1 (fmtMax f).2

/-- round32 and its like: one rounding of an exact value to FP32, BF16 or E5M2, beyond the range to
infinity (IEEE 754 round to nearest, R87). -/
def roundIeee (f : Nat) : FVal → Nat
  | .nan => canonNan f
  | .inf neg => infCode f neg
  | .fin neg n d e =>
    let q := gridExp (fpLayout f) n d e
    let k := roundQuot (quotAt n d e q) none
    if exceeds f k q then infCode f neg else encodeFp (fpLayout f) neg k q

/-- The FP32 value of bits. -/
def f32v (w : W32) : FVal := decodeFp (fpLayout 0) w.toNat

/-- The single rounding to FP32 (R87). -/
def round32 (x : FVal) : W32 := BitVec.ofNat 32 (roundIeee 0 x)

/-- Negation, exact; NaN stays NaN (R126). -/
def FVal.neg : FVal → FVal
  | .nan => .nan
  | .inf s => .inf (!s)
  | .fin s n d e => .fin (!s) n d e

/-- Magnitude. -/
def FVal.abs : FVal → FVal
  | .nan => .nan
  | .inf _ => .inf false
  | .fin _ n d e => .fin false n d e

/-- The exact sum, IEEE 754 for infinities and for the sign of zero (R96, R116, R201). -/
def FVal.add : FVal → FVal → FVal
  | .nan, _ => .nan
  | _, .nan => .nan
  | .inf a, .inf b => if a = b then .inf a else .nan
  | .inf a, .fin .. => .inf a
  | .fin .., .inf b => .inf b
  | .fin sa na da ea, .fin sb nb db eb =>
    if na = 0 ∧ nb = 0 then .fin (sa && sb) 0 1 0
    else
      let e := min ea eb
      let x : Int := (na * db * (pow2 (ea - e)).1 : Nat)
      let y : Int := (nb * da * (pow2 (eb - e)).1 : Nat)
      let r := (if sa then -x else x) + (if sb then -y else y)
      .fin (r < 0) r.natAbs (da * db) e

/-- The exact product; infinity times zero is NaN (R92, R116). -/
def FVal.mul : FVal → FVal → FVal
  | .nan, _ => .nan
  | _, .nan => .nan
  | .inf a, .inf b => .inf (a != b)
  | .inf a, .fin b n _ _ => if n = 0 then .nan else .inf (a != b)
  | .fin a n _ _, .inf b => if n = 0 then .nan else .inf (a != b)
  | .fin a n d e, .fin b n' d' e' => .fin (a != b) (n * n') (d * d') (e + e')

/-- The exact quotient by a finite non-zero value. -/
def FVal.divBy (x : FVal) (k : Nat) : FVal :=
  match x with
  | .fin s n d e => .fin s n (d * k) e
  | y => y

/-- Scales by 2^k, exactly. -/
def FVal.scale (x : FVal) (k : Int) : FVal :=
  match x with
  | .fin s n d e => .fin s n d (e + k)
  | y => y

/-- Comparison of two values that are not NaN: less, equal, greater; none with a NaN. −0.0 equals +0.0. -/
def FVal.cmp : FVal → FVal → Option Ordering
  | .nan, _ => none
  | _, .nan => none
  | .inf a, .inf b => some (if a = b then .eq else if a then .lt else .gt)
  | .inf a, .fin .. => some (if a then .lt else .gt)
  | .fin .., .inf b => some (if b then .gt else .lt)
  | .fin sa na da ea, .fin sb nb db eb =>
    let e := min ea eb
    let x : Int := (na * db * (pow2 (ea - e)).1 : Nat)
    let y : Int := (nb * da * (pow2 (eb - e)).1 : Nat)
    some (compare (if sa then -x else x) (if sb then -y else y))

/-- Less than; false with a NaN. -/
def FVal.lt (a b : FVal) : Bool := a.cmp b == some .lt

/-- Less than or equal; false with a NaN. -/
def FVal.le (a b : FVal) : Bool := a.cmp b == some .lt || a.cmp b == some .eq

/-- Equal in value; false with a NaN. -/
def FVal.eqv (a b : FVal) : Bool := a.cmp b == some .eq

/-- Whether a value is finite. -/
def FVal.isFin : FVal → Bool
  | .fin .. => true
  | _ => false

/-- Whether a value is NaN. -/
def FVal.isNan : FVal → Bool
  | .nan => true
  | _ => false

/-- Whether a value is zero. -/
def FVal.isZero : FVal → Bool
  | .fin _ n _ _ => n = 0
  | _ => false

/-- The sign bit; false for NaN. -/
def FVal.sign : FVal → Bool
  | .nan => false
  | .inf s => s
  | .fin s _ _ _ => s

/-- floor of a finite value; 0 otherwise. -/
def FVal.floor : FVal → Int
  | .fin s n d e =>
    let p := pow2 e
    let v : Int := (n * p.1 : Nat)
    (if s then -v else v) / ((d * p.2 : Nat) : Int)
  | _ => 0

/-- An integer converted to FP32 with one rounding (R68 VIDX, R132). -/
def intF32 (i : Int) : W32 := round32 (FVal.ofInt i 0)

/-! Arithmetic of the vector lanes (R116). -/

/-- VADD. -/
def f32add (a b : W32) : W32 := round32 ((f32v a).add (f32v b))

/-- VSUB. -/
def f32sub (a b : W32) : W32 := round32 ((f32v a).add (f32v b).neg)

/-- VMUL. -/
def f32mul (a b : W32) : W32 := round32 ((f32v a).mul (f32v b))

/-- VFMA: one rounding. -/
def f32fma (a b c : W32) : W32 := round32 (((f32v a).mul (f32v b)).add (f32v c))

/-- The order of VMAX and VMIN: −0.0 below +0.0 (R116). -/
def f32lt (a b : W32) : Bool :=
  (f32v a).lt (f32v b) || ((f32v a).isZero && (f32v b).isZero && (f32v a).sign && !(f32v b).sign)

/-- VMAX: NaN when either operand is NaN. -/
def f32max (a b : W32) : W32 :=
  if (f32v a).isNan || (f32v b).isNan then 0x7FC00000 else if f32lt a b then b else a

/-- VMIN. -/
def f32min (a b : W32) : W32 :=
  if (f32v a).isNan || (f32v b).isNan then 0x7FC00000 else if f32lt b a then b else a

/-- Negation of FP32 bits; a NaN stays canonical (R126: negation never gives a NaN a sign). -/
def f32neg (a : W32) : W32 := if (f32v a).isNan then 0x7FC00000 else a ^^^ 0x80000000

/-- Magnitude of FP32 bits. -/
def f32abs (a : W32) : W32 := if (f32v a).isNan then 0x7FC00000 else a &&& 0x7FFFFFFF

/-- copysign(x, y): the magnitude of x with the sign of y; NaN takes no sign (R126). -/
def f32copysign (x y : W32) : W32 :=
  if (f32v x).isNan then 0x7FC00000 else (x &&& 0x7FFFFFFF) ||| (y &&& 0x80000000)

/-! Conversion in blocks of 32 (R88, R89). -/

/-- What a block conversion gives: the scale byte (0x7F for a format without a block scale), the element
codes, and the block counters. -/
structure BlockConv where
  scale : Nat
  codes : List Nat
  saturated : Nat
  flushed : Nat
  nanBlocks : Nat
deriving DecidableEq, Repr

/-- The largest finite magnitude of a block, as an exact value. -/
def blockMax (vs : List FVal) : FVal :=
  vs.foldl (fun m v => if v.isFin && m.lt v.abs then v.abs else m) FVal.zero

/-- Whether a magnitude fits M × 2^x. -/
def fitsAt (f : Nat) (a : FVal) (x : Int) : Bool := a.le (.fin false (fmtMax f).1 1 ((fmtMax f).2 + x))

/-- The least integer x from lo at which a magnitude fits M × 2^x, looking at most n values on. -/
def leastFit (f : Nat) (a : FVal) : Nat → Int → Int
  | 0, x => x
  | n + 1, x => if fitsAt f a x then x else leastFit f a n (x + 1)

/-- The exponent of a block's scale (R88). -/
def blockExp (f : Nat) (vs : List FVal) : Int :=
  if !fmtScaled f then 0
  else if vs.any (fun v => !v.isFin && !v.isNan) then 127
  else
    match blockMax vs with
    | .fin _ n d e =>
      if n = 0 then 0
      else
        let guess := ratLog2 n d + e - (flog2 (fmtMax f).1 + (fmtMax f).2)
        let x := leastFit f (.fin false n d e) 4 (guess - 1)
        min (max x (-127)) 127
    | _ => 0

/-- The grid of a format at a magnitude: fixed for integers, floating otherwise. -/
def fmtGrid (f n d : Nat) (e : Int) : Int :=
  if fmtInt f then (fmtMax f).2 else gridExp (fpLayout f) n d e

/-- The code of k × 2^q in a format. -/
def encodeElem (f : Nat) (neg : Bool) (k : Nat) (q : Int) : Nat :=
  if fmtInt f then (if neg && k ≠ 0 then 2 ^ fmtBits f - k else k) else encodeFp (fpLayout f) neg k q

/-- One element of a block (R88): its code, and whether it saturated or was flushed. -/
def convertElem (f : Nat) (x : Int) (v : FVal) (rnd : Option Nat) : Nat × Bool × Bool :=
  match v with
  | .nan => (canonNan f, false, false)
  | .inf neg => if fmtHasInf f then (infCode f neg, false, false) else (maxCode f neg, true, false)
  | .fin neg n d e =>
    let q := fmtGrid f n d (e - x)
    let k := roundQuot (quotAt n d (e - x) q) rnd
    if exceeds f k q then (maxCode f neg, true, false)
    else (encodeElem f neg k q, false, n ≠ 0 && k = 0)

/-- The conversion of one block (R88); `rnd i` is the random number of element i when stochastic rounding
is selected (R100). -/
def convertBlock (f : Nat) (vs : List FVal) (rnd : Nat → Option Nat) : BlockConv :=
  if vs.any FVal.isNan && !fmtHasNan f then
    { scale := 0xFF, codes := vs.map (fun _ => 0), saturated := 0, flushed := 0, nanBlocks := 1 }
  else
    let x := blockExp f vs
    let rs := vs.mapIdx (fun i v => convertElem f x v (rnd i))
    { scale := (x + 127).toNat, codes := rs.map (·.1),
      saturated := (rs.filter (fun r => r.2.1)).length, flushed := (rs.filter (fun r => r.2.2)).length,
      nanBlocks := 0 }

/-- The value of a block scale byte applied to an element value; 0xFF makes it NaN (R85). -/
def applyScale (v : FVal) (scale : Nat) : FVal :=
  if scale = 0xFF then .nan else v.scale ((scale : Int) - 127)

/-! Stochastic rounding's generator (R98). -/

/-- mix of R98. -/
def rngMix (z0 : W64) : W64 :=
  let z1 := (z0 ^^^ (z0 >>> 30)) * 0xBF58476D1CE4E5B9
  let z2 := (z1 ^^^ (z1 >>> 27)) * 0x94D049BB133111EB
  z2 ^^^ (z2 >>> 31)

/-- step of R98. -/
def rngStep (u x : W64) : W64 := rngMix ((u ^^^ x) + 0x9E3779B97F4A7C15)

/-- rand of R98: 24 random bits for a key register, a tensor identifier and a coordinate. -/
def rngRand (k : BitVec 128) (tensorId c1 c0 : W64) : Nat :=
  let seed := k.extractLsb' 64 64
  let pass := k.extractLsb' 32 32
  let stream := k.extractLsb' 16 16
  let u0 := rngStep seed (pass.setWidth 64 <<< 32 ||| stream.setWidth 64 <<< 16)
  let u1 := rngStep u0 tensorId
  let u2 := rngStep u1 c1
  let u3 := rngStep u2 c0
  (u3 >>> 40).toNat

end Sys2Proof.Machine
end

