-- ==== Sys2Proof/Machine/Funcs.lean ====
section
/-! DEFINITION. exp2, log2 and the functions composed from them (R117 to R119, R126, R132), each to the last
bit. -/
namespace Sys2Proof.Machine

open Sys2Proof

/-! ### The node ROM (R118, R122) -/

/-- One bit of a square root: the root so far, and the remaining bits. -/
def isqrtGo (n : Nat) : Nat → Nat → Nat
  | 0, r => r
  | b + 1, r =>
    let t := r + 2 ^ b
    isqrtGo n b (if t * t ≤ n then t else r)

/-- floor(sqrt n). -/
def isqrt (n : Nat) : Nat := isqrtGo n (flog2 n / 2 + 1) 0

/-- floor of the 2^k-th root. -/
def rootPow2 : Nat → Nat → Nat
  | 0, n => n
  | k + 1, n => rootPow2 k (isqrt n)

/-- The exp2 node at t = j / 128 in units of 2⁻³⁶: 2^(36 + j/128) rounded to nearest. -/
def exp2Node (j : Nat) : Nat := (rootPow2 7 (2 ^ (128 * 37 + j)) + 1) / 2

/-- n bits of log2 x for a fixed-point x in [1, 2) of 192 fraction bits. -/
def log2Go : Nat → Nat → Nat → Nat
  | 0, _, acc => acc
  | n + 1, x, acc =>
    let y := x * x / 2 ^ 192
    if 2 ^ 193 ≤ y then log2Go n (y / 2) (2 * acc + 1) else log2Go n y (2 * acc)

/-- floor(2^88 × log2(1 + j / 256)), j from 0 to 256. -/
def log2Fixed (j : Nat) : Nat :=
  if j = 256 then 2 ^ 88 else log2Go 88 ((256 + j) * 2 ^ 184) 0

/-- A fraction of a value with 88 fraction bits rounded to units of 2⁻³⁶. -/
def toNode (num den : Nat) : Nat := (2 * num + den * 2 ^ 52) / (2 * den * 2 ^ 52)

/-- 1 / ln 2 in units of 2⁻³⁶, the value of G0 at 1 and of G1 at 2. -/
def invLn2Node : Nat := 99141248300

/-- The L node at mantissa 1 + j / 256. -/
def log2Node (j : Nat) : Nat := toNode (log2Fixed j) 1

/-- The G0 node: log2(m) / (m − 1). -/
def g0Node (j : Nat) : Nat := if j = 0 then invLn2Node else toNode (log2Fixed j * 256) j

/-- The G1 node: log2(m/2) / (m/2 − 1). -/
def g1Node (j : Nat) : Nat :=
  if j = 256 then invLn2Node else toNode ((2 ^ 88 - log2Fixed j) * 512) (256 - j)

/-- The segment polynomial through the nodes y0, y1, y2 at u, with h = 2^(−hb) (R118). -/
def segPoly (y0 y1 y2 : Nat) (hb : Nat) (u : FVal) : FVal :=
  let c1 : Int := 4 * (y1 : Int) - 3 * y0 - y2
  let c2 : Int := 2 * ((y0 : Int) - 2 * y1 + y2)
  ((FVal.ofInt y0 (-36)).add ((FVal.ofInt c1 (hb - 36)).mul u)).add
    ((FVal.ofInt c2 (2 * hb - 36)).mul (u.mul u))

/-- The ROM as the values whose digest OD 0x4000:02 holds (R122). -/
def functionRom : List Nat :=
  let seg := fun (node : Nat → Nat) (n : Nat) =>
    (List.range n).flatMap (fun k => [node (2 * k), node (2 * k + 1), node (2 * k + 2)])
  seg exp2Node 64 ++ seg log2Node 128 ++ seg g0Node 128 ++ seg g1Node 128

/-! ### exp2 and log2 -/

/-- The canonical NaN. -/
abbrev nan32 : W32 := 0x7FC00000
/-- +infinity. -/
abbrev inf32 : W32 := 0x7F800000
/-- −infinity. -/
abbrev ninf32 : W32 := 0xFF800000
/-- 1.0. -/
abbrev one32 : W32 := 0x3F800000

/-- Whether FP32 bits are a NaN. -/
def isNan32 (a : W32) : Bool := (f32v a).isNan

/-- exp2 (R117). Products outside 2^(−150) to 2^128 round to +0.0 and +infinity. -/
def exp2F (x : W32) : W32 :=
  match f32v x with
  | .nan => nan32
  | .inf false => inf32
  | .inf true => 0
  | v =>
    let i := v.floor
    if i < -150 then 0
    else if 128 ≤ i then inf32
    else
      let f := v.add (FVal.ofInt (-i) 0)
      let k := (f.scale 6).floor
      let u := f.add (FVal.ofInt (-k) (-6))
      let n := k.toNat
      round32 ((segPoly (exp2Node (2 * n)) (exp2Node (2 * n + 1)) (exp2Node (2 * n + 2)) 6 u).scale i)

/-- log2 (R119). -/
def log2F (x : W32) : W32 :=
  match f32v x with
  | .nan => nan32
  | .inf false => inf32
  | .inf true => nan32
  | .fin neg n d e =>
    if n = 0 then ninf32
    else if neg then nan32
    else
      let ex := ratLog2 n d + e
      let m := (FVal.fin false n d e).scale (-ex)
      let m1 := m.add (FVal.ofInt (-1) 0)
      let k := (m1.scale 7).floor
      let u := m1.add (FVal.ofInt (-k) (-7))
      let j := 2 * k.toNat
      let poly := fun (node : Nat → Nat) => segPoly (node j) (node (j + 1)) (node (j + 2)) 7 u
      let xm1 := (FVal.fin false n d e).add (FVal.ofInt (-1) 0)
      if ex = 0 then round32 (xm1.mul (poly g0Node))
      else if ex = -1 then round32 (xm1.mul (poly g1Node))
      else round32 ((FVal.ofInt ex 0).add (poly log2Node))

/-! ### Recipes (R126) -/

/-- log2 e. -/
abbrev cL2E : W32 := 0x3FB8AA3B
/-- 2 log2 e. -/
abbrev cL2E2 : W32 := 0x4038AA3B
/-- ln 2. -/
abbrev cLN2 : W32 := 0x3F317218
/-- 0.044715. -/
abbrev cGC1 : W32 := 0x3D372713
/-- 2 √(2/π). -/
abbrev cGC2 : W32 := 0x3FCC422A

/-- x < y for FP32 bits. -/
def f32below (x y : W32) : Bool := (f32v x).lt (f32v y)

/-- exp. -/
def fExp (x : W32) : W32 := exp2F (f32mul x cL2E)

/-- ln. -/
def fLn (x : W32) : W32 := f32mul (log2F x) cLN2

/-- recip. -/
def fRecip (y : W32) : W32 :=
  match f32v y with
  | .nan => nan32
  | .inf neg => if neg then 0x80000000 else 0
  | .fin neg n _ _ =>
    if n = 0 then (if neg then ninf32 else inf32)
    else
      let r := f32copysign (exp2F (f32neg (log2F (f32abs y)))) y
      if (f32v r).isFin then
        let e := f32fma (f32neg y) r one32
        f32fma r e r
      else r

/-- rsqrt. -/
def fRsqrt (x : W32) : W32 :=
  match f32v x with
  | .nan => nan32
  | .inf neg => if neg then nan32 else 0
  | .fin neg n _ _ =>
    if n = 0 then (if neg then ninf32 else inf32)
    else if neg then nan32
    else
      let y := exp2F (f32mul 0xBF000000 (log2F x))
      let a := f32mul x y
      let b := f32mul a y
      let c := f32fma 0xBF000000 b 0x3FC00000
      f32mul y c

/-- sigmoid. -/
def fSigmoid (x : W32) : W32 := fRecip (f32add one32 (exp2F (f32mul (f32neg x) cL2E)))

/-- silu. -/
def fSilu (x : W32) : W32 := if x = ninf32 then 0x80000000 else f32mul x (fSigmoid x)

/-- gelu, tanh form. -/
def fGelu (x : W32) : W32 :=
  if x = ninf32 then 0x80000000
  else if x = inf32 then inf32
  else
    let a := f32mul x x
    let b := f32fma a cGC1 one32
    let c := f32mul x b
    f32mul x (fSigmoid (f32mul c cGC2))

/-- tanh. -/
def fTanh (x : W32) : W32 :=
  if isNan32 x then nan32
  else
    let a := f32abs x
    if f32below a 0x39800000 then x
    else
      let e := exp2F (f32mul (f32neg a) cL2E2)
      let n := f32sub one32 e
      let dd := f32add one32 e
      f32copysign (f32mul n (fRecip dd)) x

/-- softplus. -/
def fSoftplus (x : W32) : W32 :=
  if (f32v 0x41800000).le (f32v x) then x
  else
    let e := exp2F (f32mul x cL2E)
    if f32below x 0xC1800000 then e else f32mul (log2F (f32add one32 e)) cLN2

/-- relu. -/
def fRelu (x : W32) : W32 :=
  if isNan32 x then nan32 else if f32below 0 x then x else 0

/-- power. -/
def fPower (x y : W32) : W32 :=
  if isNan32 x || isNan32 y then nan32
  else if (f32v y).isZero then one32
  else if x = one32 then one32
  else if f32below x 0 then nan32
  else exp2F (f32mul y (log2F x))

/-- The activation of DRAIN by its code (R126, R127). -/
def activation (code : Nat) (x : W32) : W32 :=
  match code with
  | 0 => x
  | 1 => fRelu x
  | 2 => fSilu x
  | 3 => fGelu x
  | 4 => fSigmoid x
  | 5 => fTanh x
  | _ => fSoftplus x

/-! ### Normalisation (R132) -/

/-- Layer or group normalisation of x. -/
def layerNorm (sSum sSq : W32) (n : Nat) (eps gamma beta x : W32) : W32 :=
  let rn := fRecip (intF32 n)
  let mean := f32mul sSum rn
  let v := f32fma (f32neg mean) mean (f32mul sSq rn)
  let v := if f32below v 0 then 0 else v
  let rstd := fRsqrt (f32add v eps)
  f32fma (f32mul (f32sub x mean) rstd) gamma beta

/-- RMS normalisation of x. -/
def rmsNorm (sSq : W32) (n : Nat) (eps gamma beta x : W32) : W32 :=
  let rn := fRecip (intF32 n)
  let rstd := fRsqrt (f32fma sSq rn eps)
  f32fma (f32mul x rstd) gamma beta

/-! ### Reduction tree (R68) -/

/-- One halving of the tree: x[i] := x[i] op x[i + w]. -/
def treeStep (op : W32 → W32 → W32) (w : Nat) (xs : List W32) : List W32 :=
  (List.range w).map (fun i => op (nth xs i 0) (nth xs (i + w) 0))

/-- The fixed tree of VRED over 64 values. -/
def tree64 (op : W32 → W32 → W32) (xs : List W32) : W32 :=
  nth ([32, 16, 8, 4, 2, 1].foldl (fun acc w => treeStep op w acc) xs) 0 0

end Sys2Proof.Machine
end

