-- ==== Sys2Proof/Config.lean ====
section
/-! DEFINITION. What the part fixes and what the spec leaves open: error codes (R298), sizes of *Division of
stacks and die stores* (R161), and the free values, which are opaque constants with no value of their own. -/
namespace Sys2Proof.Config

open Sys2Proof

/-! Error codes (R298). -/
abbrev errPageUnmapped : Nat := 0x0101
abbrev errPageForeign : Nat := 0x0102
abbrev errPageEvicted : Nat := 0x0103
abbrev errMapInvalid : Nat := 0x0104
abbrev errKvSequenceInvalid : Nat := 0x0105
abbrev errCellRange : Nat := 0x0106
abbrev errAccumConflict : Nat := 0x0107
abbrev errPanInvalid : Nat := 0x0108
abbrev errMemoryFailed : Nat := 0x0109
abbrev errIllegalInstruction : Nat := 0x0201
abbrev errTileShape : Nat := 0x0202
abbrev errDescriptorInvalid : Nat := 0x0203
abbrev errStoreOverflow : Nat := 0x0204
abbrev errMarkMismatch : Nat := 0x0205
abbrev errImagingInvalid : Nat := 0x0206
abbrev errSliceInvalid : Nat := 0x0301
abbrev errTickOverrun : Nat := 0x0302
abbrev errQuotaExceeded : Nat := 0x0303
abbrev errTableBusy : Nat := 0x0304
abbrev errCommandInvalid : Nat := 0x0305
abbrev errFenceInvalid : Nat := 0x0306
abbrev errFenceHalted : Nat := 0x0307
abbrev errFenceCycle : Nat := 0x0308
abbrev errQuiesced : Nat := 0x0309
abbrev errQueueInvalid : Nat := 0x030A
abbrev errBarAccess : Nat := 0x030B
abbrev errCollStalled : Nat := 0x0401
abbrev errCollSequence : Nat := 0x0402
abbrev errLinkDown : Nat := 0x0403
abbrev errGroupInvalid : Nat := 0x0404
abbrev errAccOverflow : Nat := 0x0501
abbrev errFallbackSpace : Nat := 0x0502
abbrev errCodecCapacity : Nat := 0x0601
abbrev errCodecContext : Nat := 0x0602
abbrev errCodecInvalid : Nat := 0x0603
abbrev errIngestCapacity : Nat := 0x0604
abbrev errIngestContext : Nat := 0x0605
abbrev errIngestInvalid : Nat := 0x0606
abbrev errIngestReplay : Nat := 0x0607
abbrev errModelAbsent : Nat := 0x0701
abbrev errSignatureInvalid : Nat := 0x0702
abbrev errDigestMismatch : Nat := 0x0703
abbrev errRecordInvalid : Nat := 0x0704
abbrev errSecureFailed : Nat := 0x0705
abbrev errInternal : Nat := 0x0F01
abbrev errHardwareFault : Nat := 0x0F02

/-! The physical map (R159, R161). -/

/-- Bytes of a page or frame. -/
abbrev pageBytes : Nat := 0x200000
/-- Frames of a stack. -/
abbrev framesPerStack : Nat := 18432
/-- General frames of a stack. -/
abbrev generalPerStack : Nat := 18176
/-- The first address past the stacks. -/
abbrev stacksEnd : Nat := 0xD800000000
/-- First frame number of the die stores. -/
abbrev dieFrame0 : Nat := 0x80000
/-- Frames of a die store. -/
abbrev dieFrames : Nat := 64
/-- First address of the model window (R162). -/
abbrev modelBase : Nat := 0xF000000000000
/-- First page number of the model window. -/
abbrev modelPage0 : Nat := 0x78000000
/-- Bytes of a KV frame (R173). -/
abbrev kvFrameBytes : Nat := 69632
/-- STRAND when a fault belongs to no strand (R79). -/
abbrev noStrand : Nat := 0xFFFFFFFF

/-! Free values. -/

/-- A byte of a core store window that nothing has written (R61): n counts the values taken, a is the
offset. -/
opaque freeByte (n a : Nat) : Byte

/-- Whether the stop that follows a first fault has reached a strand when it issues (R81). -/
opaque stopReached (n : Nat) : Bool

/-- The head group of a head at D = 64: its number of heads and the head's place in it, which the query block
record of R155 depends on and no field gives. -/
opaque kvGroup (desc head : Nat) : Nat

/-- Nonce and session bytes that the module's random source gives (R304, R375). -/
opaque nonceByte (n i : Nat) : Byte

/-- ML-DSA-65 verification (FIPS 204): key, message, signature. -/
opaque mldsaVerify (key message signature : List Byte) : Bool

/-- Byte i of the hedged ML-DSA-65 signature number n of a message under the key of a seed (R375). -/
opaque mldsaSignByte (n : Nat) (seed message : List Byte) (i : Nat) : Byte

/-- Byte i of the ML-DSA-65 public key of a seed (FIPS 204 key generation). -/
opaque mldsaKeyByte (seed : List Byte) (i : Nat) : Byte

/-- What a decoder of R224 (AV1, or HEVC) finds in the next frame of a stream: the bytes consumed before it, the bytes
from it on, and the frame buffers with their marks and bytes; a field's number and two indices (CodecCmd.lean). -/
opaque codecField (hevc : Bool) (history rest : List Byte) (buffers : List (Nat × List Byte)) (field i j : Nat) : Nat

/-- The AV1 sequence header OBU of a stream (R225): profile, tier, level, bit depth, width, height, the colour primaries,
transfer characteristics and matrix coefficients that it signals, and whether its range is full. -/
opaque sequenceHeader (fields : List Nat) : List Byte

/-- Bytes of the frame that an encoder of R225 makes, behind its temporal delimiter and sequence header: the context's
parameters with its tile columns and rows, the bytes of the stream before it, the reference buffers, the frame's samples,
base_q_idx, and whether it is a key frame. -/
opaque encodeUnit (params : List Nat) (history : List Byte) (buffers : List (Nat × List Byte)) (samples : List Byte)
    (q : Nat) (key : Bool) : List Byte

/-- The address that a failed command reports where no rule states one: its tick, tenancy, queue and number (log
entry 42). -/
opaque openAddress (tick tenancy queue number : Nat) : Nat

/-- The MAC address of an Ethernet port, which is the part's own (OD 0x1010). -/
opaque macAddr (port : Nat) : BitVec 48

/-- The module's clock, in ns, when a CONTROL flit with a delay message arrives (R335). -/
opaque clockNs (n : Nat) : Nat

/-- The module that a relay forwards a group's flits to when its own group table has no entry that names the
neighbour they came from (R328, R332). -/
opaque relayDest (group neighbour : Nat) : Nat

end Sys2Proof.Config
end

