-- ==== Sys2Proof/Machine/Operands.lean ====
section
/-! DEFINITION. Operand forms: the fields of Format A to Format M (R65), tensor descriptors (R63, R64),
effective sizes and tiles (R68, R73), live masks (R75), and the fields of a command (R288). -/
namespace Sys2Proof.Machine

open Sys2Proof

/-! ### Instruction fields (R65) -/

/-- Bits lo to lo + n − 1 of a word as a number. -/
def wbits (w : W64) (lo n : Nat) : Nat := (w.extractLsb' lo n).toNat

/-- OP, bits 63 to 56. -/
def fOp (w : W64) : Nat := wbits w 56 8

/-- A five-bit register field. -/
def freg (w : W64) (lo : Nat) : Fin 32 := (w.extractLsb' lo 5).toFin

/-- A four-bit register field. -/
def freg4 (w : W64) (lo : Nat) : Fin 16 := (w.extractLsb' lo 4).toFin

/-! Format A. -/

/-- SD of Format A, and VD of Format V. -/
def fSD (w : W64) : Fin 32 := freg w 51
/-- SA of Format A, and VA of Format V. -/
def fSA (w : W64) : Fin 32 := freg w 46
/-- SB of Format A, and VB of Format V. -/
def fSB (w : W64) : Fin 32 := freg w 41
/-- IMM of Format A: 32 bits. -/
def fImm (w : W64) : W32 := w.extractLsb' 0 32
/-- IMM of Format A, sign-extended. -/
def fImmS (w : W64) : W64 := (fImm w).signExtend 64

/-! Format B. -/

/-- COND. -/
def fCond (w : W64) : Nat := wbits w 52 4
/-- SA of Format B. -/
def fBSA (w : W64) : Fin 32 := freg w 47
/-- SB of Format B. -/
def fBSB (w : W64) : Fin 32 := freg w 42
/-- TARGET. -/
def fTarget (w : W64) : Nat := wbits w 0 32

/-! Format V. -/

/-- VC. -/
def fVC (w : W64) : Fin 32 := freg w 36
/-- FN. -/
def fFN (w : W64) : Nat := wbits w 32 4
/-- SA of Format V and of Format T. -/
def fTSA (w : W64) : Fin 32 := freg w 27
/-- OFF. -/
def fOff (w : W64) : Nat := wbits w 0 27

/-! Format T. -/

/-- TA. -/
def fTA (w : W64) : Fin 16 := freg4 w 52
/-- TB. -/
def fTB (w : W64) : Fin 16 := freg4 w 48
/-- TC. -/
def fTC (w : W64) : Fin 16 := freg4 w 44
/-- FA. -/
def fFA (w : W64) : Nat := wbits w 40 4
/-- SB of Format T. -/
def fTSB (w : W64) : Fin 32 := freg w 22
/-- IMM of Format T. -/
def fTImm (w : W64) : Nat := wbits w 0 22
/-- One FLAGS bit by its bit number in the word. -/
def fFlag (w : W64) (i : Nat) : Bool := w.getLsbD i

/-- N of MMA, ACLR and DRAIN (R68). -/
def fN (w : W64) : Nat := 64 * (wbits w 18 4 + 1)
/-- K of MMA. -/
def fK (w : W64) : Nat := 64 * (wbits w 10 8 + 1)
/-- CB of MMA, ACLR and DRAIN. -/
def fCB (w : W64) : Nat := 64 * wbits w 6 4
/-- Rows of a tile. -/
def fRows (w : W64) : Nat := wbits w 11 11 + 1
/-- Columns of a tile. -/
def fCols (w : W64) : Nat := 32 * (wbits w 0 11 + 1)
/-- SC of a tile instruction. -/
def fSC (w : W64) : Bool := fFlag w 39
/-- N of SMX. -/
def fSmxN (w : W64) : Nat := 64 * (wbits w 18 4 + 1)
/-- CB of SMX. -/
def fSmxCB (w : W64) : Nat := 64 * wbits w 14 4
/-- The score-scale register of SMX. -/
def fSmxSigma (w : W64) : Fin 32 := freg w 9

/-! Format M. -/

/-- SA of MARK. -/
def fMSA (w : W64) : Fin 32 := freg w 51
/-- BASE of MARK. -/
def fMBase (w : W64) : Nat := wbits w 39 12
/-- LIVE of MARK. -/
def fLive (w : W64) : BitVec 38 := w.extractLsb' 0 38

/-- The number of set bits among bits lo to lo + n − 1. -/
def popcount (v : Nat) (lo n : Nat) : Nat := ((List.range n).filter (fun i => v.testBit (lo + i))).length

/-- The live size of a live mask (R75). -/
def liveSize (live : BitVec 38) (accCols storeBytes : Nat) : Nat :=
  let v := live.toNat
  256 + 64 * popcount v 4 16 + 16 * popcount v 0 4 + 1024 * popcount v 22 8 +
    256 * accCols * popcount v 20 2 + storeBytes / 8 * popcount v 30 8

/-! ### Tensor descriptors (R63, R64) -/

/-- Word d_i of a descriptor. -/
def dWord (d : BitVec 512) (i : Nat) : W64 := d.extractLsb' (64 * i) 64

/-- FMT. -/
def dFmt (d : BitVec 512) : Nat := wbits (dWord d 0) 60 4
/-- RANK: dimensions minus 1. -/
def dRank (d : BitVec 512) : Nat := wbits (dWord d 0) 58 2
/-- LEN_DIM. -/
def dLenDim (d : BitVec 512) : Nat := wbits (dWord d 0) 56 2
/-- LEN_EN. -/
def dLenEn (d : BitVec 512) : Bool := (dWord d 0).getLsbD 55
/-- LEN_SEL. -/
def dLenSel (d : BitVec 512) : Nat := wbits (dWord d 0) 52 3
/-- BASE. -/
def dBase (d : BitVec 512) : Nat := wbits (dWord d 0) 0 52
/-- SCALE_OFF. -/
def dScaleOff (d : BitVec 512) : Nat := wbits (dWord d 1) 32 32
/-- TENSOR_ID. -/
def dTensorId (d : BitVec 512) : W64 := (dWord d 1) &&& 0xFFFFFFFF
/-- SIZE of dimension n. -/
def dSize (d : BitVec 512) (n : Nat) : Nat := wbits (dWord d (2 + n / 2)) (32 * (n % 2)) 32
/-- STRIDE of dimension n, 1 to 3. -/
def dStride (d : BitVec 512) (n : Nat) : Nat := wbits (dWord d (3 + n)) 0 48
/-- TENSOR_SCALE, FP32 bits. -/
def dTScale (d : BitVec 512) : W32 := d.extractLsb' 480 32

/-- The SIZE0 and stride rule of *Format codes*: for a block-scaled format every one of them is a multiple of
32 and of B32 (DEDUCED, log entry 10). -/
def fmtRule (f : Nat) : Nat :=
  if f = 0 then 4 else if f = 1 then 2 else if fmtScaled f then Nat.lcm 32 (fmtB32 f) else 1

/-- The check of R63. -/
def descValid (d : BitVec 512) : Bool :=
  let f := dFmt d
  let used := fun n => n ≤ dRank d
  -- R6: the reserved fields
  wbits (dWord d 4) 48 16 = 0 && wbits (dWord d 5) 48 16 = 0 && wbits (dWord d 6) 48 16 = 0 &&
  wbits (dWord d 7) 0 32 = 0 &&
  f < 12 &&
  (List.range 4).all (fun n => if used n then dSize d n ≠ 0 else dSize d n = 1) &&
  (!dLenEn d || dLenDim d ≤ dRank d) &&
  dBase d % 64 = 0 &&
  (if fmtScaled f then dSize d 0 % fmtRule f = 0 else true) &&
  [1, 2, 3].all (fun n => !used n || dStride d n % fmtRule f = 0) &&
  (fmtTensorScaled f || dTScale d = 0x3F800000)

/-- TENSOR_SCALE as an exact value. -/
def dScaleVal (d : BitVec 512) : FVal := f32v (dTScale d)

/-- The effective size of dimension n (R73). -/
def effSize (d : BitVec 512) (lens : List Nat) (n : Nat) : Nat :=
  if dLenEn d && dLenDim d = n then min (dSize d n) (nth lens (dLenSel d) 0) else dSize d n

/-- The byte offset of row (x1, x2, x3). -/
def dRowOff (d : BitVec 512) (x1 x2 x3 : Nat) : Nat := x1 * dStride d 1 + x2 * dStride d 2 + x3 * dStride d 3

/-- The bit address of element (x0, x1, x2, x3). -/
def dBitAddr (d : BitVec 512) (x0 x1 x2 x3 : Nat) : Nat :=
  8 * (dBase d + dRowOff d x1 x2 x3) + x0 * fmtBits (dFmt d)

/-- The address of the scale byte of the block that holds the element. -/
def dScaleAddr (d : BitVec 512) (x0 x1 x2 x3 : Nat) : Nat :=
  dBase d + 64 * dScaleOff d + x0 / 32 + dRowOff d x1 x2 x3 / fmtB32 (dFmt d)

/-! ### Packed elements -/

/-- The n codes of b bits that bytes hold, packed from bit 0 upward (R63). -/
def unpackN (b : Nat) (bytes : List Byte) (n : Nat) : List Nat :=
  let v := ofLe bytes
  (List.range n).map (fun i => bits v (i * b) b)

/-- Codes of b bits as one number, the first in the lowest bits. -/
def packNat (b : Nat) : List Nat → Nat
  | [] => 0
  | c :: r => c % 2 ^ b + 2 ^ b * packNat b r

/-- Codes of b bits packed into bytes. -/
def packN (b : Nat) (codes : List Nat) : List Byte :=
  leBytes (ceilDiv (codes.length * b) 8) (packNat b codes)

/-- The next multiple of 64. -/
def up64 (n : Nat) : Nat := ceilDiv n 64 * 64

/-- Bytes of an R × C tile in a format, without scales (R68). -/
def tileBytes (f rows cols : Nat) : Nat := rows * cols * fmtBits f / 8

/-- Bytes of an R × C tile with its scales at the next 64-byte boundary, when the format has them. -/
def tileBytesSc (f rows cols : Nat) (sc : Bool) : Nat :=
  if sc then up64 (tileBytes f rows cols) + rows * cols / 32 else tileBytes f rows cols

/-- A matrix tile as an MMA or DRAIN holds it: the scales follow when the format has them. -/
def matBytes (f rows cols : Nat) : Nat := tileBytesSc f rows cols (fmtScaled f)

/-! ### Commands (R288) -/

/-- OPCODE. -/
def cOp (ws : List W64) : Nat := wbits (nth ws 0 0) 56 8
/-- LAYER. -/
def cLayer (ws : List W64) : Nat := wbits (nth ws 0 0) 48 8
/-- IRQ. -/
def cIrq (ws : List W64) : Bool := (nth ws 0 0).getLsbD 47
/-- ADVANCE. -/
def cAdvance (ws : List W64) : Bool := (nth ws 0 0).getLsbD 46
/-- RECORD. -/
def cRecord (ws : List W64) : Bool := (nth ws 0 0).getLsbD 45
/-- WAIT_EN of wait i. -/
def cWaitEn (ws : List W64) (i : Nat) : Bool := (nth ws 0 0).getLsbD (32 + i)
/-- TAG. -/
def cTag (ws : List W64) : Nat := wbits (nth ws 0 0) 8 24
/-- GEN. -/
def cGen (ws : List W64) : Nat := wbits (nth ws 0 0) 0 8
/-- KEY_STREAM of k_r. -/
def cKeyStream (ws : List W64) (r : Nat) : Nat := wbits (nth ws 1 0) (32 + 8 * r) 8
/-- WAIT_Q of wait i. -/
def cWaitQ (ws : List W64) (i : Nat) : Nat := wbits (nth ws 1 0) (8 * i) 8
/-- WAIT_V of wait i. -/
def cWaitV (ws : List W64) (i : Nat) : Nat := (nth ws (2 + i) 0).toNat
/-- Operand word c_i. -/
def cw (ws : List W64) (i : Nat) : W64 := nth ws i 0
/-- Operand word c_i as a number. -/
def cwn (ws : List W64) (i : Nat) : Nat := (nth ws i 0).toNat

/-! ### Names of cores and pages -/

/-- The key of a context. -/
def cid (c : CtxId) : Nat := c.core.val * 16 + c.ctx.val

/-- The cluster number g = 8 × die + cluster of a core (R54). -/
def clusterOf (core : Nat) : Nat := core / 16

/-- The die of a core. -/
def dieOf (core : Nat) : Nat := core / 128

/-- The page number of an address. -/
def pageOf (a : Nat) : Nat := a / Config.pageBytes

/-- The locator of an instruction (R79). -/
def locPc (slice pc : Nat) : W64 := BitVec.ofNat 64 (slice * 2 ^ 32 + pc % 2 ^ 31)

/-- The locator of a part of a slice image (R79). -/
def locImage (slice off : Nat) : W64 := BitVec.ofNat 64 (slice * 2 ^ 32 + 2 ^ 31 + off % 2 ^ 31)

end Sys2Proof.Machine
end

