-- ==== Sys2Proof/Machine/State.lean ====
section
/-! DEFINITION. The state of the module as plain data, the reasons a step can stop, and the state after
reset. Every structure cites the rules of spec/ that give its fields. -/
namespace Sys2Proof.Machine

open Sys2Proof

/-- Why the model stops. -/
inductive Fault where
  /-- An access to a physical address that the physical map of R159 says holds no memory. Raised by the
  operations that read or write physical memory for a command, when a page entry names a frame outside
  the stacks. Safe: the hardware holds no such entry. -/
  | noMemory (address : Nat)
deriving DecidableEq, Repr

/-- Why a command has no meaning. -/
inductive Refusal where
  /-- The command is not modelled. No command of this model answers so. Safe. -/
  | notModelled (mnemonic : String)
deriving DecidableEq, Repr

/-! ### Tick and timebase (02, 15) -/

/-- The timebase: R24 to R28, R31, R32, R44, R268, and the announcements of R334, R337, R338; `breakingIn`: a break-in point
(R272) is admitting, outside every sluice; `lastCount` and `lastN`: the number and the period of the tick that the last
boundary ended (R32). -/
structure TickSt where
  count : Nat
  periodN : Nat
  sluiceMax : Nat
  sluiceLen : Nat
  localNs : Nat
  anchorTick : Nat
  anchorS : Nat
  anchorNs : Nat
  anchorDue : Bool
  sync : Nat
  capacity : Nat
  coresN : Nat
  exclusiveTick : Bool
  breakingIn : Bool
  lostCapacity : Bool
  admSeq : Nat
  lastCount : Nat
  lastN : Nat
  capWindow : List Nat
  ptpSec : Nat
  ptpNs : Nat
deriving DecidableEq, Repr

/-! ### Power, sidebands, environment (19, 20) -/

/-- The input, resets, sidebands, sensors, array clock and PPS discipline: R398 to R404, R413 to R419. -/
structure PowerSt where
  input54 : Bool
  pwrGood : Bool
  modReset : Bool
  tripHold : Bool
  running : Bool
  noImage : Bool
  blocked : Bool
  thermAlert : Bool
  flashSel : Bool
  flashGranted : Bool
  sensors : List Int
  inputPower : Nat
  clockMHz : Nat
  ptp : BitVec 3
  ppsUse : Bool
  ppsBad : Nat
  ppsGood : Nat
  bootModuleId : Option Nat
deriving DecidableEq, Repr

/-! ### Fuses and flash (18, 14, 19) -/

/-- The one-time fuses (R374). -/
structure FuseSt where
  rootDigest : List Byte
  identitySeed : List Byte
  serial : W64
  rollback : BitVec 64
  issued : W32
  certSignature : List Byte
deriving DecidableEq, Repr

/-- A value of a dictionary entry (R9): a number for BOOL, U8 to U64, I32, I64 and F32 (its bits), bytes
for STR, BLOB and DIGEST256. -/
inductive OdVal where
  | num (n : Nat)
  | bytes (b : List Byte)
deriving DecidableEq, Repr

/-- A store area of the flash (R313): its age, whether its digest verifies, its values. -/
structure StoreArea where
  serial : Nat
  intact : Bool
  values : KMap OdVal
deriving DecidableEq, Repr

/-- The firmware flash: image slots (R376), store areas (R313), installation journal (R381), fault record
(R409). -/
structure FlashSt where
  imageA : List Byte
  imageB : List Byte
  storeA : StoreArea
  storeB : StoreArea
  storeCount : Nat
  journalState : Nat
  journalPhase : Nat
  journalBytes : Nat
  faultRecord : BitVec 16
deriving DecidableEq, Repr

/-! ### The object dictionary (14) -/

/-- The state of a commit entry (R49). -/
inductive CommitState where
  | idle
  | pending
  | syncing
deriving DecidableEq, Repr

/-- A notification record waiting for delivery (R314). -/
structure Pending where
  key : Nat
  tick : Nat
  changes : Nat
  value : OdVal
deriving DecidableEq, Repr

/-- A JDP session (R304 to R306, R314, R315), with the request count of the installation port (R380): the address that
opened it, the ends of the datagram of its last accepted frame, the local time at the boundary before that frame. -/
structure Session where
  number : Nat
  addr : IpAddr
  peer : Endpoint
  seenNs : Nat
  nonce : List Byte
  lastSeq : Nat
  lastFrame : List Byte
  lastResponse : List Byte
  instSeq : Nat
  instFrame : List Byte
  instResponse : List Byte
  subs : List Nat
  pend : List Pending
  notifySeq : Nat
deriving DecidableEq, Repr

/-- A frame that arrived during a sluice and waits for its end (R303). -/
structure Deferred where
  src : Transport
  frame : List Byte
deriving DecidableEq, Repr

/-- The dictionary server: values (R311), commit entries (R49), stores (R312), sessions (R305). A key is
index × 256 + subindex. -/
structure OdSt where
  live : KMap OdVal
  rwt : KMap OdVal
  rwb : KMap OdVal
  shadow : KMap OdVal
  counters : KMap Nat
  groupCommit : CommitState
  quotaCommit : CommitState
  skipCommit : Vector CommitState 4
  quantCommit : Vector CommitState 4
  quotaReject : Nat
  quotaScaled : Bool
  groupEpoch : KMap Nat
  groupNextSeq : KMap Nat
  groupWritten : List Nat
  storeState : Nat
  storeTaken : KMap OdVal
  quiesceState : Nat
  stormTick : Nat
  stormTenancy : Nat
  stormWide : List (Nat × Nat × Nat)
  stormFired : List (Nat × Nat)
  configDigest : Vector (List Byte) 4
  sessions : List Session
  deferred : List Deferred
  mbxSubs : Vector (List Nat) 4
  mbxPend : Vector (List Pending) 4
  nonceCount : Nat
  notified : KMap OdVal
deriving DecidableEq, Repr

/-! ### Slices and commands (02, 03, 08, 13) -/

/-- Names a slice: tenancy, queue, SLICE_INDEX. A queue runs one command at a time (R260). -/
structure SliceRef where
  t : Fin 4
  q : Fin 64
  idx : Nat
deriving DecidableEq, Repr

/-- Where an exact cell lies (R197): a crystalliser bank, or a stack's pan-side cells. -/
inductive CellLoc where
  | crys (bank : Nat)
  | pan (stack : Nat)
deriving DecidableEq, Repr

/-- An exact cell (R186). -/
structure Cell where
  kind : Nat
  nan : Bool
  pinf : Bool
  ninf : Bool
  bound : Bool
  add : Bool
  fmt : Nat
  tenancy : Nat
  expect : Nat
  count : Nat
  dest : Nat
  owner : Nat
  acc : BitVec 384
  loc : CellLoc
deriving DecidableEq, Repr

/-- A link from a window range to a wide tile (R105 to R109): width 0 narrow with outliers, 1 FP8, 2 BF16;
element codes and block scales row by row; outliers as (row, column, BF16 value). -/
structure Link where
  start : Nat
  len : Nat
  rows : Nat
  cols : Nat
  width : Nat
  codes : List Nat
  scales : List Nat
  fmts : List Nat
  outliers : List (Nat × Nat × Nat)
deriving DecidableEq, Repr

/-- An asynchronous load in progress (R66): what it writes, and where, when it completes. -/
structure AsyncLoad where
  tag : Nat
  dest : Nat
  bytes : List Byte
  ready : Bool
  link : Option Link
  piece : Option (Nat × Nat)
deriving DecidableEq, Repr

/-- A strand in its context (R51, R61). -/
structure Strand where
  ref : SliceRef
  strand : Nat
  rom : Bool
  pc : Nat
  s : Vector W64 32
  v : Vector (Vector W32 64) 32
  t : Vector (BitVec 512) 16
  k : Vector (BitVec 128) 4
  tagEmpty : BitVec 16
  async : List AsyncLoad
  waiting : BitVec 16
  accA : Vector (KMap W32) 64
  accB : Vector (KMap W32) 64
  bankB : Bool
  win : KMap Byte
  marks : Nat
  ordinal : Nat
  links : List Link
  stopped : Bool
deriving DecidableEq, Repr

/-- A fault found in a tick (R78 to R81). -/
structure StrandFault where
  slice : Nat
  strand : Nat
  code : Nat
  address : W64
deriving DecidableEq, Repr

/-- How a command ended in error (R293). -/
structure Failure where
  code : Nat
  address : W64
  strand : Nat
  lastMark : Nat
deriving DecidableEq, Repr

/-- One mark table entry (R30). -/
structure MarkEntry where
  cumCost : Nat
  pc : Nat
  liveBytes : Nat
deriving DecidableEq, Repr

/-- A fresh page held by a slice or command (R34). -/
structure FreshPage where
  vpage : Nat
  frame : Nat
  whole : Bool
  stored : Bool
deriving DecidableEq, Repr

/-- A group of appended tokens in the brine buffer (R147): position and dimension values as FP32, with the
rounding mode and key of each token. -/
structure BrineToken where
  pos : Nat
  keys : List W32
  values : List W32
  sr : Bool
  key : BitVec 128
deriving DecidableEq, Repr

/-- An incomplete group (R147, R149). -/
structure BrineGroup where
  desc : Nat
  head : Nat
  page : Nat
  group : Nat
  tokens : List BrineToken
  core : Nat
  spilled : Bool
deriving DecidableEq, Repr

/-- A frame that a slice took for a KV page (R145), and the tick in which it took it (R146). -/
structure KvTaken where
  desc : Nat
  head : Nat
  page : Nat
  pe : Nat
  frame : Nat
  base : Nat
  top : Nat
  tick : Nat
deriving DecidableEq, Repr

/-- The status of a slice. -/
inductive SliceState where
  | waiting
  | admitted
  | finished
  | committed
deriving DecidableEq, Repr

/-- The wide shadow of a page frame (R109): for a byte offset of a tile row block, the width and the wide
codes, with outliers. -/
structure WideBlock where
  offset : Nat
  width : Nat
  codes : List Nat
  scale : Nat
  fmt : Nat
  outliers : List (Nat × Nat)
deriving DecidableEq, Repr

/-- A staged pan contribution of one slice to one page (R40, R201): the elements added, as device-virtual
addresses and values, and whether the pan has applied it to the copy. -/
structure Staged where
  slice : Nat
  vpage : Nat
  fmt : Nat
  elems : List (Nat × W32)
  committed : Bool
deriving DecidableEq, Repr

/-- What a split slice held when its present segment began (R45): ranges of physical memory with their bytes,
wide shadows, cells, brine contents, KV frames, contributions. -/
structure SegStart where
  mem : List (Nat × Nat × List Host.Cell)
  shadows : List (Nat × List WideBlock)
  working : List Cell
  brine : List BrineGroup
  taken : List KvTaken
  kvUsed : Nat
  staged : List Staged
deriving DecidableEq, Repr

/-- A slice: its header (R29), its tile program header (R59), its marks, and its progress through
admission, split and commit (R32 to R45, R76). -/
structure Slice where
  idx : Nat
  cost : Nat
  ringStep : Bool
  accum : Bool
  kvAppend : Bool
  outPages : Nat
  cellsReq : Nat
  kvPages : Nat
  linkMib : Nat
  deps : List Nat
  outs : List (Nat × Bool)
  marks : List MarkEntry
  prog : List W64
  instrBytes : Nat
  ctxLog2 : Nat
  storeBytes : Nat
  accCols : Nat
  strandBase : Nat
  strandCount : Nat
  rowLenEn : Bool
  rowLenSel : Nat
  descs : List (BitVec 512)
  lenAddrs : List Nat
  lens : List Nat
  programOffset : Nat
  base : Nat
  rom : Bool
  checked : Bool
  state : SliceState
  passed : Nat
  firstEligible : Option Nat
  requeued : Option Nat
  overruns : Nat
  exclusive : Bool
  segment : Option Nat
  segStart : Nat
  admittedAt : Nat
  admOrder : Nat
  effClass : Nat
  killed : Bool
  fresh : List FreshPage
  working : List Cell
  remaining : Nat
  saved : List (Nat × Strand)
  saveFrames : List Nat
  brine : List BrineGroup
  taken : List KvTaken
  kvUsed : Nat
  missed : List Nat
  start : Option SegStart
deriving DecidableEq, Repr

/-- A copy of a page into which the pan has applied the first n of a command's contributions to it (R201). -/
structure StagedCopy where
  vpage : Nat
  frame : Nat
  n : Nat
deriving DecidableEq, Repr

/-- One tile entry of the fallback digest (R115). -/
structure TileEntry where
  strand : Nat
  slice : Nat
  ordinal : Nat
  width : Nat
  overflow : Bool
  outliers : Bool
deriving DecidableEq, Repr

/-- A recorded command (R395, R397). -/
structure RecEntry where
  queue : Nat
  ordinal : Nat
  fallback : Nat
  layer : Nat
  opcode : Nat
  advance : Bool
  keyStream : Nat
  firstTick : Nat
  lastTick : Nat
  digest : List Byte
  config : List Byte
  tiles : List TileEntry
  done : Bool
  failed : Bool
deriving DecidableEq, Repr

/-- An open generation record (R394, R397). -/
structure GenRecord where
  area : Nat
  cap : Nat
  openTick : Nat
  closing : Bool
  fwDigest : List Byte
  modelDigest : List Byte
  publisher : List Byte
  config : List Byte
  nonce : List Byte
  streams : List (Nat × Nat)
  inputs : List (Nat × Nat × List Byte)
  cmds : List RecEntry
deriving DecidableEq, Repr

/-- What a command without slices of its own does when it commits at step 6 (R165, R203, R229). -/
inductive Effect where
  | map (vpage frame : Nat) (evictable : Bool) (pinKind pinTarget : Nat)
  | unmap (vpage : Nat)
  | pin (vpage pinKind pinTarget : Nat)
  | query (base n dest : Nat)
  | kvEntry (desc address : Nat) (entry : W64)
  | kvLength (desc : Nat) (length : Option Nat)
  | dirPending (desc : Nat)
  | codecOpen (ctx : Nat)
  | codecClose (ctx : Nat)
  | codecCommit (ctx : Nat)
  | ingestOpen (stream : Nat)
  | ingestClose (stream : Nat)
  | ingestCommit (stream : Nat)
  | recordOpen (g : GenRecord)
  | recordClose
  | secured (step slot : Nat)
  | restored (header : List Byte)
deriving DecidableEq, Repr

/-- A command of a queue that has become its head (R260, R288 to R290); `params` and `pdescs` are the parameter
block and the descriptors that it keeps from its first admission (R210); `blob` and `phase` the image of a
STATE_SECURE or STATE_RESTORE and how far it has come (R363, R372). -/
structure CmdRun where
  n : Nat
  words : List W64
  begun : Bool
  recorded : Option Nat
  firstTick : Nat
  keys : Vector (BitVec 128) 4
  configDigest : List Byte
  policy : List Nat
  skip : List (Nat × Nat)
  quant : List Nat
  slices : List Slice
  held : List Cell
  prepared : List FreshPage
  staged : List Staged
  copies : List StagedCopy
  lastSlice : Option Nat
  faults : List StrandFault
  fail : Option Failure
  isOp : Bool
  opDone : Bool
  pinned : List Nat
  effects : List Effect
  result0 : W64
  result1 : W64
  coll : Option Nat
  wideStart : Nat
  reruns : Nat
  rerunReq : Option Nat
  tiles : List TileEntry
  ended : Bool
  admOrder : Nat
  params : List W64
  pdescs : List (BitVec 512)
  blob : List Byte
  phase : Nat
deriving DecidableEq, Repr

/-! ### Host ports and queues (13) -/

/-- The state of a queue (R283). -/
inductive QState where
  | absent
  | active
  | halted
  | deleting
deriving DecidableEq, Repr

/-- A command entry that the module has read, and when its doorbell arrived (R286). -/
structure Avail where
  words : List W64
  tick : Nat
  ns : Nat
deriving DecidableEq, Repr

/-- A queue: its block (R283), its ring position (R285 to R287), its fence (R261), its head command. -/
structure Queue where
  cmdBase : W64
  cplBase : W64
  config : W32
  state : QState
  qepoch : BitVec 8
  ended : Nat
  fence : Nat
  tail : Nat
  cplFreed : Nat
  createPending : Bool
  resumePending : Bool
  avail : List Avail
  run : Option CmdRun
deriving DecidableEq, Repr

/-- An error log entry (R293). -/
structure ErrEntry where
  seq : Nat
  strand : Nat
  tick : Nat
  address : W64
  code : Nat
  kind : Nat
  qepoch : Nat
  queue : Nat
  gen : Nat
  index : Nat
deriving DecidableEq, Repr

/-- A BAR2 access held during a sluice (R37), with its device-virtual address. -/
inductive HeldAccess where
  | read (address count : Nat)
  | write (address : Nat) (bytes : List Byte)
deriving DecidableEq, Repr

/-- A host port with its BAR0 registers (R279), its MSI-X state (R292) and its queues. -/
structure HostPort where
  perst : Bool
  inReset : Bool
  windowBase : W64
  eventCause : W32
  eventMask : W32
  errlogSeq : W32
  errlog : KMap ErrEntry
  mbxReq : List Byte
  mbxResp : List Byte
  mbxBusy : Bool
  mbxReady : Bool
  mbxLen : Nat
  mbxRespLen : Nat
  msixTable : KMap W32
  msixPending : BitVec 64
  held : List HeldAccess
  refused : List (Nat × Nat)
  queues : Vector Queue 64
deriving DecidableEq, Repr

/-! ### Memory (07, 06) -/

/-- A page entry (R164), with the last use of R182 and the read pin of R170; `lost`: its frames have been evicted, and
EVICTED is to be set at step 6 (R183). -/
structure PageEntry where
  evicted : Bool
  lost : Bool
  evictable : Bool
  wide : Bool
  pinKind : Nat
  pinTarget : Nat
  staged : BitVec 4
  dieWait : Bool
  migrateTo : Option Nat
  migrated : Bool
  home : Nat
  lastUse : Nat
  readPin : Bool
deriving DecidableEq, Repr

/-- What a general frame is used for (R161, R181); `old` is a replaced frame that waits for step 7 (R170). -/
inductive FrameUse where
  | page (t : Fin 4) (vpage : Nat)
  | fresh (t : Fin 4) (vpage : Nat)
  | arena (t : Fin 4)
  | save (t : Fin 4)
  | shadow (t : Fin 4)
  | migrate (t : Fin 4) (vpage : Nat)
  | model (page : Nat)
  | scrub
  | old
deriving DecidableEq, Repr

/-- What a die-store frame of the tenancy or model staging area is used for (R161, R169, R175). -/
inductive DieUse where
  | pin (t : Fin 4) (vpage : Nat)
  | copy (t : Fin 4) (vpage : Nat)
  | kv (t : Fin 4) (frame : Nat)
  | model (page : Nat)
deriving DecidableEq, Repr

/-- The remnant of a KV frame (R148). -/
structure Remnant where
  slot : Nat
  tokens : List BrineToken
deriving DecidableEq, Repr

/-- A KV frame (R134 to R136, R145 to R151): owner, the page entries that name it with the EVICTABLE flag of
their sequences (their number is the reference count of R151), pin, last use, summary, remnant, staging. -/
structure KvFrame where
  t : Fin 4
  names : List (Nat × Bool)
  pin : Bool
  lastUse : Nat
  summary : List W32
  remnant : Option Remnant
  staged : Option (Fin 4)
deriving DecidableEq, Repr

/-- A prefetch schedule entry in force (R174, R175). -/
structure SchedEntry where
  kind : Nat
  die : Nat
  trigger : Nat
  release : Nat
  count : Nat
  base : Nat
  active : Bool
  releasing : Bool
deriving DecidableEq, Repr

/-- The resident model (R162, R274, R387). -/
structure ModelSt where
  sealedNow : Bool
  frames : List Nat
  bytes : Nat
  layers : Nat
  sched : List SchedEntry
  staged : KMap (BitVec 4)
  digest : List Byte
  publisher : List Byte
  sealTick : Nat
deriving DecidableEq, Repr

/-- A KV frame that a walk has asked an active KV stream to stage on a die, until the next sluice allocates (R175, R182). -/
structure KvRequest where
  t : Fin 4
  die : Nat
  frame : Nat
deriving DecidableEq, Repr

/-- Memory of the module: physical bytes, frames, page tables, KV frames, wide shadows, the cells' cursor (R197),
frames whose scrub is done (R388), the sequences whose shadow directory is locked, as (tenancy, descriptor) (R140),
those whose directory copy is complete (R49), and the staging that walks have asked for (R175). -/
structure MemSt where
  mem : List Host.Cell
  frameUse : KMap FrameUse
  dieUse : KMap DieUse
  pages : Vector (KMap PageEntry) 4
  kv : KMap KvFrame
  shadows : KMap (List WideBlock)
  shadowOwner : KMap Nat
  model : ModelSt
  panCursor : Nat
  scrubbed : List Nat
  dirBusy : List (Nat × Nat)
  dirSynced : List (Nat × Nat)
  stageReq : List KvRequest
deriving DecidableEq, Repr

/-! ### Cores (03, 06) -/

/-- A range of strands in a cluster deque (R54). -/
structure Range where
  ref : SliceRef
  lo : Nat
  hi : Nat
deriving DecidableEq, Repr

/-- A look-aside buffer entry (R142). -/
structure LabEntry where
  desc : Nat
  head : Nat
  page : Nat
  entry : W64
deriving DecidableEq, Repr

/-- The cores: contexts (key core × 16 + context), loaded slice of each core, deques, look-aside buffers,
withdrawn cores (R51 to R56, R142, R405, R406). -/
structure CoreSt where
  ctxs : KMap Strand
  coreSlice : KMap SliceRef
  deques : Vector (List Range) 32
  lab : KMap (List LabEntry)
  failed : List Nat
  testing : List Nat
deriving DecidableEq, Repr

/-! ### Tenancies (12, 17, 18) -/

/-- A storage transfer (R371). -/
structure StorageSt where
  active : Bool
  port : Nat
  addr : IpAddr
  udp : Nat
  key : Nat
  step : Nat
  position : Nat
  slot : Nat
  bytes : Nat
  acked : Nat
  sent : Nat
deriving DecidableEq, Repr

/-- The values of a tenancy's securing (R364, R366, R370), times in ns and ELAPSED in eighths of a ms; the operands of
the newest snapshot, its queue and the class of its command; `snapped`: a snapshot has been taken since the tenancy's
reset or restore; `waiting`: a committed snapshot waits for its transfer to begin. -/
structure SecureSt where
  first : Bool
  lastStep : Option Nat
  sSec : Nat
  sSnap : Nat
  snapped : Bool
  riskSnap : Nat
  w : Nat
  d : Nat
  snapAt : Nat
  transferStep : Option Nat
  times : List Nat
  interval : Nat
  failures : Nat
  elapsed : Nat
  widened : KMap Nat
  rerun : KMap Nat
  waiting : Bool
  transferring : Bool
  lastFailed : Bool
  prevFailed : Bool
  storageFailed : Bool
  securedCount : Nat
  snapStep : Nat
  group : Nat
  partner : Nat
  slotAddr : Nat
  slotBytes : Nat
  slot : Nat
  imageBytes : Nat
  queue : Fin 64
  cls : Nat
  every : Nat
  endpoint : List W64
  storage : StorageSt
deriving DecidableEq, Repr

/-- A tenancy: scheduling (R267 to R271) with the CLASS_LIMIT and the classes over budget that the last sluice has found, its
generation record, its securing values, a reset in progress (R297). -/
structure Tenancy where
  classLimit : Nat
  overShare : Vector Bool 4
  vUsage : Vector Nat 4
  charges : List (Nat × Nat × Nat × Nat)
  tickCharge : Vector Nat 4
  rotation : Nat
  hadItem3 : Vector Bool 4
  weightWas0 : Bool
  stopWork : Bool
  record : Option GenRecord
  secure : SecureSt
deriving DecidableEq, Repr

/-! ### Codec and ingest (10, 11) -/

/-- A frame buffer's mark (R233), its address, and the size of the picture that it holds. -/
structure Buffer where
  address : Nat
  mark : BitVec 16
  w : Nat
  h : Nat
deriving DecidableEq, Repr

/-- A codec command in progress on a context (R229, R234, R240); `input` is what it read at admission: the bit
stream, or the converted frames with their NaN counts. -/
structure CodecJob where
  t : Fin 4
  q : Fin 64
  params : List W64
  consumed : Nat
  frames : Nat
  written : Nat
  attempt : Nat
  qp : Nat
  input : List (List Byte × Nat)
  stop : Option Nat
  buffers : List Buffer
  sizes : List Nat
  decodeIndex : Nat
  frameN : Nat
  keyBase : Nat
  history : List Byte
deriving DecidableEq, Repr

/-- A codec context (R227, R232 to R240). -/
structure CodecCtx where
  owner : Fin 4
  stream : Option Nat
  visible : Bool
  encode : Bool
  hevc : Bool
  depth : Nat
  buffers : List Buffer
  maxW : Nat
  maxH : Nat
  pitch : Nat
  rateNum : Nat
  rateDen : Nat
  quality : Nat
  colour : Nat
  keyInterval : Nat
  window : Nat
  maxKbps : Nat
  engine : Nat
  decodeIndex : Nat
  frameN : Nat
  keyBase : Nat
  sizes : List Nat
  history : List Byte
  job : Option CodecJob
deriving DecidableEq, Repr

/-- A shown frame of a sample (R250): its size, whether it has 10 bits, whether the stream signals BT.2020, whether its
record has a flag that makes a sample CORRUPT (R252), and its samples, Y then U then V, 16 bits each. -/
structure Picture where
  w : Nat
  h : Nat
  deep : Bool
  bt2020 : Bool
  bad : Bool
  samples : List Byte
deriving DecidableEq, Repr

/-- A sample being received or complete (R246, R247), and its decoding: frames processed, frames that its headers
show, the coded video sequences begun, the shown frames each with its key in display order, RANGE, and how its decoding
ended; `arrivedNs` is the module-local time at which it became complete. -/
structure Sample where
  position : Nat
  sampleId : W64
  total : Nat
  frames : Nat
  digest : Bool
  captureS : Nat
  captureNs : Nat
  bytes : KMap Byte
  corrupt : Bool
  completeTick : Option Nat
  arrivedNs : Nat
  spent : Nat
  shownN : Nat
  seqs : Nat
  shown : List (Nat × Picture)
  range : Bool
  result : Option Nat
deriving DecidableEq, Repr

/-- A slot of a batch (R252 to R257); `expect` is the recorded reason of a replay. -/
structure SlotSt where
  position : Nat
  sampleId : W64
  reason : Option Nat
  expect : Option Nat
  frames : Nat
  free : Bool
  range : Bool
  ageUs : Nat
deriving DecidableEq, Repr

/-- A batch in progress (R244, R252). -/
structure Batch where
  t : Fin 4
  q : Fin 64
  params : List W64
  admitted : Nat
  stale : Nat
  budget : Nat
  policy : Nat
  augCopy : Nat
  aug : List (List Byte)
  fill : List Byte
  replay : Bool
  newPos : Nat
  slots : List SlotSt
  dropped : Nat
  hostList : List (List W64)
  written : Bool
deriving DecidableEq, Repr

/-- An ingest stream (R242, R244, R249, R256). -/
structure Stream where
  owner : Fin 4
  visible : Bool
  words : List W64
  position : Nat
  augB : Bool
  augCommit : CommitState
  codecCtx : Option Nat
  rxFrames : List Nat
  samples : List Sample
  batch : Option Batch
  rangeFlag : Bool
deriving DecidableEq, Repr

/-! ### Installation (18) -/

/-- A model installation or firmware update (R378 to R391). -/
structure InstallSt where
  state : Nat
  phase : Nat
  bytes : Nat
  session : Nat
  src : Endpoint
  framesDue : Bool
  imageBytes : Nat
  claimed : List Byte
  publisherKey : List Byte
  publisherSig : List Byte
  received : List (Nat × Nat)
  frames : List Nat
  digestDue : Bool
  digestRun : Bool
  digestEnd : Bool
  verified : Bool
  sealDue : Bool
  removeDue : Bool
  lastAckMiB : Nat
  fwActive : Bool
  fwSlotB : Bool
  fwBytes : Nat
  fwReceived : List (Nat × Nat)
deriving DecidableEq, Repr

/-! ### Laniak (15) -/

/-- Training state of a port (R319 to R323). -/
inductive PortState where
  | disabled
  | down
  | training
  | trained
deriving DecidableEq, Repr

/-- A flit kept for retry (R326): its sequence number and its 256 bytes. -/
structure SentFlit where
  seq : Nat
  bytes : List Byte
  tick : Nat
deriving DecidableEq, Repr

/-- The neighbour that HELLO reported (R330). -/
structure Peer where
  moduleId : Nat
  serial : Nat
  port : Nat
  outer : Bool
  tickCount : Nat
deriving DecidableEq, Repr

/-- A flit that waits for a port (R325, R333): its header and payload, the module that its message goes to, and, for a
flit that a relay forwards, the port that it came in by (R328). -/
structure Waiting where
  bytes : List Byte
  dest : Nat
  via : Option (Fin 18)
deriving DecidableEq, Repr

/-- A Laniak port (R318 to R330, R335). `retries` and `uncorrectable` count those of the present tick (R321). `credits`
are those held at the other end, by `crKey`, with the shared flits of each group there; `rxUsed` those to be returned and
those that the other end holds. -/
structure LPort where
  state : PortState
  lanes : BitVec 8
  goodTicks : Nat
  lastWiden : Option Nat
  held : Bool
  peer : Option Peer
  txSeq : Nat
  rxSeq : Nat
  peerAck : Nat
  retryBuf : List SentFlit
  queue : List Waiting
  gap : Bool
  retries : Nat
  uncorrectable : Nat
  credits : KMap Nat
  shared : Nat
  rxMsg : KMap (List Byte)
  rxUsed : KMap Nat
  delayNs : Option Nat
  widthNotified : Nat
deriving DecidableEq, Repr

/-- An offer of a tick source (R334). -/
structure Offer where
  masterId : Nat
  distance : Nat
  owner : Nat
  port : Nat
deriving DecidableEq, Repr

/-- A route (R332): the ports to use, the relay if any. -/
structure Route where
  dest : Nat
  ports : List Nat
  relay : Option Nat
deriving DecidableEq, Repr

/-- Discovery, routes and tick distribution (R329 to R338). Announced boundaries stand in the module's own numbering, which
is `ahead` of the parent's between joining and the jump (R338); `nextPond` is the view on which a pond agrees. -/
structure NetSt where
  ports : Vector LPort 18
  heldAll : Bool
  neighbours : KMap (List NeighbourEntry)
  views : KMap (List Nat)
  viewSeq : Nat
  pond : List Nat
  tickMaster : Nat
  nextPond : List Nat
  systemMaster : Nat
  distance : Nat
  parent : Option Nat
  noTick : Nat
  offers : List Offer
  routes : List Route
  routeInput : List Route
  endCredits : KMap Nat
  nextN : Nat
  changeAt : Nat
  jumpAt : Nat
  jumpTo : Nat
  pondAt : Nat
  highest : Nat
  boundaryPos : Int
  masterState : Nat
  ahead : Nat
deriving DecidableEq, Repr

/-! ### Collectives (16, 17) -/

/-- What a collective of a group is for. -/
inductive CollUse where
  | command
  | vote
  | transfer
  | restore
  | verify
deriving DecidableEq, Repr

/-- A ring step of a collective on this member (R352 to R356): its number, its declared cost, its attempt, the boundary it was due
at, whether it was admitted there; how many of its strands have sent, whether its data have left and have come in;
the vector of an exchange and its laps; what it writes outside fresh pages (addresses or cell images); the member's
verdict; the wave and the decision that have arrived. -/
structure RingRun where
  step : Nat
  cost : Nat
  attempt : Nat
  boundary : Nat
  admitted : Bool
  sends : Nat
  sent : Bool
  arrived : Option (List Byte)
  vector : List (List Byte)
  laps : Nat
  out : List (Nat × List Byte)
  finished : Option Bool
  waveIn : Option (Nat × Nat × Nat)
  waveOut : Bool
  decision : Option (Nat × Nat × Nat × Nat)
  doubt : Nat
deriving DecidableEq, Repr

/-- A collective begun on the module (R342 to R356). `eligible` is the boundary at which it became eligible,
`cls` the class of the command that it serves;
`readyIn` a READY that waits for the slot, with its MISMATCH; `cur` the running ring step, `prev` the step that is
being decided; `fail` the FAIL that the next wave carries (R357); `entry` what the member contributes to a vector;
`localImages` the member's own cell images, `images` the reduced ones. -/
structure Coll where
  t : Fin 4
  q : Fin 64
  cls : Nat
  use : CollUse
  seq : Nat
  epoch : Nat
  kind : Nat
  fmt : Nat
  redop : Nat
  dynamic : Bool
  src : Nat
  dst : Nat
  count : Nat
  cells : Nat
  dstLimit : Nat
  members : List Nat
  pos : Nat
  eligible : Option Nat
  slot : Bool
  readySent : Bool
  readyIn : Option (Option Nat)
  startAt : Option Nat
  started : Bool
  pieceMax : Nat
  counts : List Nat
  nextStep : Nat
  nextAttempt : Nat
  due : Option Nat
  cur : Option RingRun
  prev : Option RingRun
  aborts : Nat
  abortRun : Nat
  lastFirst : Nat
  dropped : Nat
  committed : Nat
  fail : Option (Nat × Nat)
  failTicks : Nat
  ended : Bool
  failed : Option (Nat × W64)
  done : Bool
  entry : List Byte
  gathered : List (List Byte)
  localImages : KMap (List Byte)
  images : KMap (List Byte)
  cellsHeld : List Cell
  written : Nat
deriving DecidableEq, Repr

/-- The group slots (R350) and the collectives begun. -/
structure CollSt where
  colls : KMap Coll
deriving DecidableEq, Repr

/-! ### Health (19) -/

/-- Health: faults, self-test, recalibration, risk (R403 to R410). -/
structure HealthSt where
  hwFault : BitVec 16
  failedStacks : BitVec 24
  failedDies : BitVec 4
  failedUnits : List Nat
  risk : Nat
  roundDue : Nat
  roundTick : Option Nat
  recalRequest : KMap Nat
  recalForce : List Nat
  recalRunning : List Nat
  corrHbm : List Nat
  corrSram : List Nat
  retrains : List Nat
  uncorrected : List Nat
  excursions : List Nat
  sramErrors : List (Nat × Nat)
  tempHistory : List (Nat × Int)
  lastSecond : Nat
  stackErrors : List (Nat × Nat)
  failing : List Nat
deriving DecidableEq, Repr

/-! ### What the module sends outside -/

/-- The module's outputs, in order. -/
inductive Out where
  | completion (t : Fin 4) (address : W64) (words : List W64)
  | msix (t : Fin 4) (vector : Nat) (addrLo addrHi data : W32)
  | bar0 (t : Fin 4) (value : W64)
  | bar2 (t : Fin 4) (bytes : List Byte)
  | jdp (dest : Transport) (frame : List Byte)
  | install (dest : Endpoint) (datagram : List Byte)
  | egress (port : Nat) (addr : IpAddr) (udp : Nat) (datagram : List Byte)
  | flit (p : Nat) (bytes : List Byte)
  | training (p lane : Nat) (passed : BitVec 8) (nextSeq : Nat)
  | smb (bytes : List Byte)
  | transmittersOff
deriving DecidableEq, Repr

/-! ### The whole state -/

/-- The state of the block. `pending` is the queue of waiting commands, `free` counts the free values the
model has taken, `out` is what the module has sent outside; the three are the model's own. -/
structure State where
  pending : List Instr
  free : Nat
  out : List Out
  tick : TickSt
  power : PowerSt
  fuses : FuseSt
  flash : FlashSt
  fwImage : Nat
  fwVersion : Nat
  fwDigest : List Byte
  od : OdSt
  ports : Vector HostPort 4
  mem : MemSt
  cores : CoreSt
  tens : Vector Tenancy 4
  codec : KMap CodecCtx
  lastServed : KMap Nat
  ingest : KMap Stream
  ingestPos : KMap Nat
  install : InstallSt
  net : NetSt
  coll : CollSt
  health : HealthSt
deriving DecidableEq, Repr

/-! ### Reset -/

/-- A queue after reset (R283). -/
def Queue.reset : Queue :=
  { cmdBase := 0, cplBase := 0, config := 0, state := .absent, qepoch := 0, ended := 0, fence := 0,
    tail := 0, cplFreed := 0, createPending := false, resumePending := false, avail := [], run := none }

/-- A host port after reset (R279): every register at the reset value of *Port registers*. -/
def HostPort.reset : HostPort :=
  { perst := false, inReset := false, windowBase := 0, eventCause := 0, eventMask := 0,
    errlogSeq := 0, errlog := [], mbxReq := [], mbxResp := [], mbxBusy := false, mbxReady := false,
    mbxLen := 0, mbxRespLen := 0, msixTable := [], msixPending := 0, held := [], refused := [],
    queues := Vector.replicate 64 Queue.reset }

/-- Storage transfer after reset. -/
def StorageSt.reset : StorageSt :=
  { active := false, port := 0, addr := .v4 0, udp := 0, key := 0, step := 0, position := 0,
    slot := 0, bytes := 0, acked := 0, sent := 0 }

/-- Securing values after a tenancy reset (R364). -/
def SecureSt.reset : SecureSt :=
  { first := true, lastStep := none, sSec := 0, sSnap := 0, snapped := false, riskSnap := 0, w := 1, d := 0, snapAt := 0,
    transferStep := none, times := [], interval := 0, failures := 0, elapsed := 0, widened := [], rerun := [],
    waiting := false, transferring := false, lastFailed := false, prevFailed := false, storageFailed := false,
    securedCount := 0, snapStep := 0, group := 0, partner := 0, slotAddr := 0, slotBytes := 0, slot := 0, imageBytes := 0, queue := 0, cls := 0, every := 0,
    endpoint := [], storage := StorageSt.reset }

/-- A tenancy after reset. -/
def Tenancy.reset : Tenancy :=
  { classLimit := 2, overShare := Vector.replicate 4 false, vUsage := Vector.replicate 4 0, charges := [], tickCharge := Vector.replicate 4 0, rotation := 0,
    hadItem3 := Vector.replicate 4 false, weightWas0 := false, stopWork := false, record := none,
    secure := SecureSt.reset }

/-- A Laniak port before training (R322). -/
def LPort.reset : LPort :=
  { state := .down, lanes := 0, goodTicks := 0, lastWiden := none, held := false, peer := none,
    txSeq := 0, rxSeq := 0, peerAck := 0, retryBuf := [], queue := [], gap := false, retries := 0,
    uncorrectable := 0, credits := [], shared := 0, rxMsg := [], rxUsed := [], delayNs := none,
    widthNotified := 0 }

/-- No model (R399: the module comes up with no model). -/
def ModelSt.absent : ModelSt :=
  { sealedNow := false, frames := [], bytes := 0, layers := 0, sched := [], staged := [],
    digest := List.replicate 32 0, publisher := List.replicate 32 0, sealTick := 0 }

/-- No installation (R381). -/
def InstallSt.reset : InstallSt :=
  { state := 0, phase := 0, bytes := 0, session := 0, src := { port := 0, dest := .v4 0, addr := .v4 0, udp := 0 },
    framesDue := false, imageBytes := 0, claimed := [], publisherKey := [], publisherSig := [],
    received := [], frames := [], digestDue := false, digestRun := false, digestEnd := false, verified := false,
    sealDue := false, removeDue := false, lastAckMiB := 0, fwActive := false, fwSlotB := false,
    fwBytes := 0, fwReceived := [] }

/-- Module memory at start-up (R184, R399: no pages, no model). -/
def MemSt.reset : MemSt :=
  { mem := [], frameUse := [], dieUse := [], pages := Vector.replicate 4 [], kv := [], shadows := [],
    shadowOwner := [], model := ModelSt.absent, panCursor := 0, scrubbed := [], dirBusy := [],
    dirSynced := [], stageReq := [] }

/-- The cores with no strand. -/
def CoreSt.reset : CoreSt :=
  { ctxs := [], coreSlice := [], deques := Vector.replicate 32 [], lab := [], failed := [], testing := [] }

/-- Health after start-up (R409). -/
def HealthSt.reset : HealthSt :=
  { hwFault := 0, failedStacks := 0, failedDies := 0, failedUnits := [], risk := 0,
    roundDue := 60500000000, roundTick := none, recalRequest := [], recalForce := [], recalRunning := [],
    corrHbm := [], corrSram := [], retrains := [], uncorrected := [], excursions := [], sramErrors := [],
    tempHistory := [], lastSecond := 0, stackErrors := [], failing := [] }

/-- A store area that holds nothing. -/
def StoreArea.empty : StoreArea := { serial := 0, intact := true, values := [] }

/-- The configuration digest of a tenancy whose entries stand at their defaults: the first 32 bytes of
the SHAKE256 digest R317's list gives for them, the same for all four tenancies. `configDigestOf`
(Machine/OdRead.lean) computes it and yields these bytes at reset. -/
def OdSt.defaultDigest : List Byte :=
  [170, 108, 107, 104, 129, 21, 64, 4, 28, 2, 102, 247, 200, 221, 4, 142,
   10, 35, 220, 125, 177, 71, 26, 1, 244, 223, 39, 125, 252, 16, 55, 182]

/-- The dictionary at its defaults (R317). -/
def OdSt.reset : OdSt :=
  { live := [], rwt := [], rwb := [], shadow := [], counters := [], groupCommit := .idle,
    quotaCommit := .idle, skipCommit := Vector.replicate 4 .idle, quantCommit := Vector.replicate 4 .idle,
    quotaReject := 0, quotaScaled := false, groupEpoch := [], groupNextSeq := [], groupWritten := [],
    storeState := 0, storeTaken := [], quiesceState := 0, stormTick := 0, stormTenancy := 0,
    stormWide := [], stormFired := [], configDigest := Vector.replicate 4 OdSt.defaultDigest,
    sessions := [], deferred := [], mbxSubs := Vector.replicate 4 [], mbxPend := Vector.replicate 4 [],
    nonceCount := 0, notified := [] }

/-- The links before training; the module is its own pond and tick master (R331). -/
def NetSt.reset : NetSt :=
  { ports := Vector.replicate 18 LPort.reset, heldAll := false, neighbours := [], views := [], viewSeq := 0,
    pond := [0], tickMaster := 0, nextPond := [], systemMaster := 0, distance := 0, parent := none,
    noTick := 0, offers := [], routes := [], routeInput := [], endCredits := [], nextN := 0, changeAt := 0,
    jumpAt := 0, jumpTo := 0, pondAt := 0, highest := 0, boundaryPos := 0, masterState := 0, ahead := 0 }

/-- The timebase at boundary 0 (R25, R28, R399). -/
def TickSt.reset : TickSt :=
  { count := 0, periodN := 8, sluiceMax := 0, sluiceLen := 0, localNs := 500000000, anchorTick := 0,
    anchorS := 0, anchorNs := 500000000, anchorDue := false, sync := 0, capacity := 509952000,
    coresN := 512, exclusiveTick := false, breakingIn := false, lostCapacity := false, admSeq := 0, lastCount := 0, lastN := 8,
    capWindow := [],
    ptpSec := 0, ptpNs := 0 }

/-- Power and sidebands of a running module (R399). -/
def PowerSt.reset : PowerSt :=
  { input54 := true, pwrGood := true, modReset := false, tripHold := false, running := true,
    noImage := false, blocked := false, thermAlert := false, flashSel := false, flashGranted := false,
    sensors := List.replicate 29 40000, inputPower := 450, clockMHz := 2000, ptp := 0, ppsUse := false,
    ppsBad := 0, ppsGood := 0, bootModuleId := some 0 }

/-- The fuses; their values are the part's own (DESIGN CHOICE, log entry 7). -/
def FuseSt.reset : FuseSt :=
  { rootDigest := List.replicate 32 0, identitySeed := List.replicate 32 0, serial := 0, rollback := 0,
    issued := 0, certSignature := List.replicate 3309 0 }

/-- The flash; its images are the part's own (DESIGN CHOICE, log entry 7), nothing is stored. -/
def FlashSt.reset : FlashSt :=
  { imageA := [], imageB := [], storeA := StoreArea.empty, storeB := StoreArea.empty, storeCount := 0,
    journalState := 0, journalPhase := 0, journalBytes := 0, faultRecord := 0 }

/-- The module at boundary 0 of a start-up whose checks passed (R399; DESIGN CHOICE, log entry 1): every dictionary
entry at its default, no pages, no model, no open record, no session. -/
def State.reset : State :=
  { pending := [], free := 0, out := [], tick := TickSt.reset, power := PowerSt.reset,
    fuses := FuseSt.reset, flash := FlashSt.reset, fwImage := 0, fwVersion := 0,
    fwDigest := List.replicate 32 0, od := OdSt.reset,
    ports := Vector.replicate 4 HostPort.reset, mem := MemSt.reset, cores := CoreSt.reset,
    tens := Vector.replicate 4 Tenancy.reset, codec := [], lastServed := [], ingest := [], ingestPos := [],
    install := InstallSt.reset, net := NetSt.reset, coll := { colls := [] }, health := HealthSt.reset }

end Sys2Proof.Machine
end

