-- ==== Sys2Proof/Machine/Dict.lean ====
section
/-! DEFINITION. The entries of the object dictionary (R8 to R10, R317): type, access, default and flags of each
entry, and the values that software has written. -/
namespace Sys2Proof.Machine

open Sys2Proof

/-- The types of R9. -/
inductive OdType where
  | bool
  | u8
  | u16
  | u32
  | u64
  | i32
  | f32
  | str
  | blob
  | digest
deriving DecidableEq, Repr

/-- The access codes of R10; `table` marks the value entries of a double-buffered table, RW through the
shadow (R311). -/
inductive OdAccess where
  | ro
  | rw
  | wo
  | rwt
  | rwb
  | table
deriving DecidableEq, Repr

/-- A row of *Dictionary entries*: flags A, S, N, O. -/
structure OdEntry where
  type : OdType
  access : OdAccess
  dflt : OdVal
  arith : Bool
  stored : Bool
  notify : Bool
  owned : Bool
deriving DecidableEq, Repr

/-- The key of an entry. -/
def odKey (index sub : Nat) : Nat := index * 256 + sub

/-- A read-only number. -/
def roNum (t : OdType) (notify : Bool) : Option OdEntry :=
  some ⟨t, .ro, .num 0, false, false, notify, false⟩

/-- A read-only byte string. -/
def roBytes (t : OdType) (notify : Bool) : Option OdEntry :=
  some ⟨t, .ro, .bytes [], false, false, notify, false⟩

/-- A stored number with an access code. -/
def stNum (t : OdType) (a : OdAccess) (d : Nat) : Option OdEntry := some ⟨t, a, .num d, false, true, false, false⟩

/-- A number that is not stored. -/
def rwNum (t : OdType) (a : OdAccess) (d : Nat) : Option OdEntry := some ⟨t, a, .num d, false, false, false, false⟩

/-- The default of QENTRY n (R239): BASE_Q 4n, KEY_Q max(0, 4n − 16), STEP 8. -/
def qentryDefault (n : Nat) : Nat := 4 * n + 256 * (4 * n - 16) + 65536 * 8

/-- Entries of the ranges 0x1000 to 0x1FFF. -/
def odIdentity (i sub : Nat) : Option OdEntry :=
  match i, sub with
  | 0x1000, 1 => stNum .u16 .rwb 0
  | 0x1000, 2 => roNum .u64 false
  | 0x1000, 3 => roNum .u8 false
  | 0x1000, 4 => roBytes .str false
  | 0x1000, 5 => roNum .u8 false
  | 0x1000, 6 => roNum .u32 false
  | 0x1020, 1 => rwNum .u8 .wo 0
  | 0x1020, 2 => roNum .u8 true
  | 0x1020, 3 => roNum .u32 false
  | 0x1030, 1 => roNum .u8 false
  | 0x1030, 2 => stNum .u16 .rw 60
  | 0x1030, 3 => stNum .bool .rw 1
  | _, _ =>
    if 0x1010 ≤ i ∧ i ≤ 0x1012 then
      match sub with
      | 1 => roNum .u64 false
      | 2 => stNum .u32 .rwb 0
      | 3 => stNum .u8 .rwb 0
      | 4 => stNum .u32 .rwb 0
      | 5 => some ⟨.blob, .rwb, .bytes [], false, true, false, false⟩
      | 6 => stNum .u8 .rwb 0
      | 7 => stNum .bool .rwb (if i = 0x1012 then 1 else 0)
      | _ => none
    else none

/-- Entries of the ranges 0x2000 to 0x4FFF. -/
def odTickMemArith (i sub : Nat) : Option OdEntry :=
  match i, sub with
  | 0x2000, 1 => stNum .u8 .rwt 8
  | 0x2000, 2 => roNum .u64 false
  | 0x2000, 3 => roNum .u32 false
  | 0x2001, 1 => roNum .u64 false
  | 0x2001, 2 => roNum .u64 false
  | 0x2001, 3 => roNum .u32 false
  | 0x2001, 4 => roNum .u8 true
  | 0x2012, 1 => rwNum .u8 .rw 0
  | 0x2012, 2 => roNum .u8 true
  | 0x2013, 1 => stNum .u8 .rw 10
  | 0x2013, 2 => stNum .u8 .rw 50
  | 0x3001, 1 => stNum .u32 .rwb 0
  | 0x3002, 1 => stNum .u8 .rwb 44
  | 0x3104, 1 => rwNum .u8 .rw 0
  | 0x3104, 2 => roNum .u8 false
  | 0x3104, 3 => roNum .bool true
  | 0x4000, 1 => roNum .u16 false
  | 0x4000, 2 => roBytes .digest false
  | 0x4001, 1 => stNum .u8 .rw 50
  | 0x4001, 2 => stNum .u8 .rw 0
  | 0x4001, 3 => roNum .u64 true
  | 0x4001, 4 => roNum .u8 false
  | _, _ =>
    if i = 0x2010 ∧ 1 ≤ sub ∧ sub ≤ 4 then stNum .u8 .rw 2
    else if i = 0x2011 ∧ 1 ≤ sub ∧ sub ≤ 4 then stNum .bool .rw 1
    else if i = 0x3000 ∧ 1 ≤ sub ∧ sub ≤ 8 then roNum .u32 false
    else if 0x3100 ≤ i ∧ i ≤ 0x3103 then
      match sub with
      | 1 => stNum .u16 .table 8
      | 2 => stNum .u32 .table 49152
      | 3 => stNum .u32 .table 1474560
      | 4 => stNum .u32 .table 131072
      | 5 => stNum .u16 .table 1
      | 6 => stNum .u32 .table 0xFFFFFFFF
      | _ => none
    else if 0x4100 ≤ i ∧ i ≤ 0x41FE then
      let e := fun t d => some (OdEntry.mk t .rwt (.num d) true true false false)
      match sub with
      | 1 => e .bool 1
      | 2 => e .u8 0
      | 3 => e .u16 0
      | 4 => e .u16 655
      | 5 => e .f32 0x7F800000
      | 6 => e .u16 64
      | 7 => e .u8 0
      | _ => none
    else none

/-- Entries of the ranges 0x5000 to 0x9FFF. -/
def odLinkCodecHealth (i sub : Nat) : Option OdEntry :=
  match i, sub with
  | 0x5000, 1 => stNum .u8 .rw 3
  | 0x5000, 2 => stNum .u32 .rw 10000
  | 0x5002, 1 => stNum .u32 .rwb 0x3FFFF
  | 0x5003, 1 => roBytes .blob true
  | 0x5003, 2 => roNum .u16 true
  | 0x5200, 1 => rwNum .u8 .rw 0
  | 0x6000, 1 => roNum .u64 false
  | 0x6001, 1 => stNum .u32 .rw 50000
  | 0x6001, 2 => stNum .u32 .rw 20000
  | 0x6001, 3 => stNum .u8 .rw 0
  | 0x7000, 1 => roNum .u8 true
  | 0x7000, 2 => roNum .u8 false
  | 0x7000, 3 => roNum .u64 false
  | 0x7000, 4 => roBytes .digest true
  | 0x7001, 1 => roBytes .blob false
  | 0x7001, 2 => roBytes .blob false
  | 0x7001, 3 => roBytes .digest false
  | 0x7001, 4 => roNum .u16 false
  | 0x8000, 1 => stNum .u32 .rw 1000
  | 0x8000, 2 => stNum .u32 .rw 3400
  | 0x8000, 3 => stNum .u8 .rwb 0
  | 0x8000, 4 => stNum .bool .rw 1
  | 0x8001, 1 => roNum .i32 false
  | 0x8001, 2 => roNum .u32 false
  | 0x8001, 3 => roNum .u32 true
  | 0x8001, 4 => roNum .u8 true
  | 0x8002, 1 => roNum .u16 true
  | 0x8002, 2 => roNum .u32 true
  | 0x8002, 3 => roNum .u8 true
  | _, _ =>
    if i = 0x5001 ∧ 1 ≤ sub ∧ sub ≤ 18 then roNum .u8 true
    else if 0x5100 ≤ i ∧ i ≤ 0x51FF then
      match sub with
      | 1 => some ⟨.blob, .table, .bytes [], false, true, false, false⟩
      | 2 => rwNum .u16 .rw 0x0100
      | 3 => roNum .u16 false
      | _ => none
    else if i = 0x6010 ∧ 1 ≤ sub ∧ sub ≤ 16 then some ⟨.u8, .rw, .num 0, false, false, false, true⟩
    else if i = 0x6012 ∧ 1 ≤ sub ∧ sub ≤ 16 then roNum .u64 false
    else if i = 0x7010 ∧ 1 ≤ sub ∧ sub ≤ 8 then some ⟨.blob, .rw, .bytes [], false, true, false, false⟩
    else
      let n := match i with
        | 0x9020 => 7
        | 0x9021 => 8
        | 0x9022 => 13
        | 0x9023 => 4
        | 0x9024 => 9
        | 0x9025 => 11
        | 0x9026 => 12
        | 0x9027 => 6
        | 0x9028 => 11
        | 0x9029 => 13
        | 0x902A => 7
        | 0x902C => 8
        | _ => 0
      if 1 ≤ sub ∧ sub ≤ n then roNum .u64 false
      else if i = 0x902B ∧ sub / 16 < 4 ∧ 1 ≤ sub % 16 ∧ sub % 16 ≤ 4 then roNum .u64 false
      else none

/-- Entries of a tenancy range, at the offset from its first index. -/
def odTenancy (i sub : Nat) : Option OdEntry :=
  match i with
  | 0x50 => if sub = 1 then stNum .u32 .rwt 4096 else none
  | 0x60 => if 1 ≤ sub ∧ sub ≤ 128 then stNum (if sub % 2 = 1 then .u64 else .u32) .rw 0 else none
  | 0x70 => if 1 ≤ sub ∧ sub ≤ 32 then some ⟨.u8, .table, .num 0, true, true, false, false⟩ else none
  | 0x71 => if 1 ≤ sub ∧ sub ≤ 32 then some ⟨.f32, .table, .num 0x41C00000, true, true, false, false⟩ else none
  | 0x72 => if sub = 1 then rwNum .u8 .rw 0 else none
  | 0x80 => if 1 ≤ sub ∧ sub ≤ 64 then rwNum .u64 .rwt 0 else none
  | 0x90 => if 1 ≤ sub ∧ sub ≤ 7 then roNum .u32 false else none
  | 0xA0 =>
    if 1 ≤ sub ∧ sub ≤ 64 then some ⟨.u32, .table, .num (qentryDefault (sub - 1)), true, true, false, false⟩
    else none
  | 0xA1 => if sub = 1 then rwNum .u8 .rw 0 else none
  | 0xB0 => if 1 ≤ sub ∧ sub ≤ 64 then stNum .u8 .rwt 1 else none
  | 0xC0 => if 1 ≤ sub ∧ sub ≤ 9 then roNum .u64 false else none
  | 0xC1 => if 1 ≤ sub ∧ sub ≤ 4 then roNum .u64 false else none
  | 0xC2 => if sub = 1 then roNum .u64 false else none
  | 0xC3 => if 1 ≤ sub ∧ sub ≤ 64 then roNum .u64 false else none
  | 0xD0 => if sub = 1 then roBytes .digest true else none
  | 0xE0 =>
    match sub with
    | 1 => stNum .u32 .rw 0
    | 2 => roNum .u32 false
    | 3 => roNum .u8 true
    | _ => none
  | _ => none

/-- The row of an entry of *Dictionary entries*; none where the module has no such entry (R317). -/
def odEntry (i sub : Nat) : Option OdEntry :=
  if i < 0x2000 then odIdentity i sub
  else if i < 0x5000 then odTickMemArith i sub
  else if i < 0xA000 then odLinkCodecHealth i sub
  else if i < 0xA400 then odTenancy (i % 256) sub
  else none

/-- The default value of an entry. -/
def odDefault (k : Nat) : OdVal :=
  match odEntry (k / 256) (k % 256) with
  | some e => e.dflt
  | none => .num 0

/-- The value in effect of a value entry. -/
def odVal (o : OdSt) (k : Nat) : OdVal := (kget o.live k).getD (odDefault k)

/-- A value as a number; bytes read 0. -/
def OdVal.toNat : OdVal → Nat
  | .num n => n
  | .bytes _ => 0

/-- A value as bytes; a number gives none. -/
def OdVal.toBytes : OdVal → List Byte
  | .num _ => []
  | .bytes b => b

/-- The number in effect of a value entry. -/
def odNum (o : OdSt) (index sub : Nat) : Nat := (odVal o (odKey index sub)).toNat

/-- An entry of the range of Tt by its T0 index. -/
def odTen (o : OdSt) (t : Fin 4) (index sub : Nat) : Nat := odNum o (index + 256 * t.val) sub

/-- The bytes in effect of a value entry. -/
def odBytes (o : OdSt) (index sub : Nat) : List Byte := (odVal o (odKey index sub)).toBytes

/-- Bytes of a fixed type. -/
def odSize : OdType → Nat
  | .bool => 1
  | .u8 => 1
  | .u16 => 2
  | .u32 => 4
  | .u64 => 8
  | .i32 => 4
  | .f32 => 4
  | .digest => 32
  | _ => 0

/-- The encoding of a value in its type (R9). -/
def odEncode (t : OdType) (v : OdVal) : List Byte :=
  match t with
  | .str => leBytes 1 v.toBytes.length ++ v.toBytes
  | .blob => leBytes 2 v.toBytes.length ++ v.toBytes
  | .digest => slice v.toBytes 0 32
  | t => leBytes (odSize t) v.toNat

/-- The counters (0x9020 to 0x902C, 0xA0C0, 0xA0C1 and their tenancies). -/
def counter (o : OdSt) (index sub : Nat) : Nat := (kget o.counters (odKey index sub)).getD 0

end Sys2Proof.Machine
end

