-- ==== Sys2Proof/Machine/Ops.lean ====
section
/-! DEFINITION. The named operations over State: counters, outputs, queues, commands, slices and strands, the
recording of faults (R80, R81), and the kill of slices (R42). -/
namespace Sys2Proof.Machine

open Sys2Proof

/-- Counts n under a dictionary counter. -/
def State.bump (s : State) (index sub n : Nat) : State :=
  { s with od := { s.od with counters := kbump s.od.counters (odKey index sub) n } }

/-- Counts n under a counter of the range of Tt, by its T0 index. -/
def State.bumpT (s : State) (t : Fin 4) (index sub n : Nat) : State := s.bump (index + 256 * t.val) sub n

/-- Sends something outside. -/
def State.emit (s : State) (o : Out) : State := { s with out := s.out ++ [o] }

/-- The value in effect of a dictionary entry that software writes. -/
def State.odn (s : State) (index sub : Nat) : Nat := odNum s.od index sub

/-- The same, in the range of Tt by its T0 index. -/
def State.odt (s : State) (t : Fin 4) (index sub : Nat) : Nat := odTen s.od t index sub

/-! Ports and queues. -/

/-- Changes port Ht. -/
def State.modPort (s : State) (t : Fin 4) (f : HostPort → HostPort) : State :=
  { s with ports := s.ports.set t (f s.ports[t]) }

/-- Queue q of Tt. -/
def State.queue (s : State) (t : Fin 4) (q : Fin 64) : Queue := s.ports[t].queues[q]

/-- Changes queue q of Tt. -/
def State.modQueue (s : State) (t : Fin 4) (q : Fin 64) (f : Queue → Queue) : State :=
  s.modPort t (fun p => { p with queues := p.queues.set q (f p.queues[q]) })

/-- The head command of a queue, once it is checked and known (R290). -/
def State.run (s : State) (t : Fin 4) (q : Fin 64) : Option CmdRun := (s.queue t q).run

/-- Changes the head command of a queue. -/
def State.modRun (s : State) (t : Fin 4) (q : Fin 64) (f : CmdRun → CmdRun) : State :=
  s.modQueue t q (fun x => { x with run := x.run.map f })

/-- Changes the state of tenancy Tt. -/
def State.modTen (s : State) (t : Fin 4) (f : Tenancy → Tenancy) : State :=
  { s with tens := s.tens.set t (f s.tens[t]) }

/-! Slices. -/

/-- A slice of a command. -/
def CmdRun.slice (r : CmdRun) (i : Nat) : Option Slice := r.slices.find? (fun x => x.idx == i)

/-- Changes a slice of a command. -/
def CmdRun.modSlice (r : CmdRun) (i : Nat) (f : Slice → Slice) : CmdRun :=
  { r with slices := r.slices.map (fun x => if x.idx = i then f x else x) }

/-- The slice that a reference names. -/
def State.slice (s : State) (ref : SliceRef) : Option Slice := (s.run ref.t ref.q).bind (·.slice ref.idx)

/-- Changes the slice that a reference names. -/
def State.modSlice (s : State) (ref : SliceRef) (f : Slice → Slice) : State :=
  s.modRun ref.t ref.q (·.modSlice ref.idx f)

/-- The segment cost of a slice: the difference of CUM_COST at its ends (R44). -/
def segCost (sl : Slice) (j : Nat) : Nat :=
  let lo := if j = 0 then 0 else ((sl.marks[j - 1]?).map (·.cumCost)).getD 0
  let hi := ((sl.marks[j]?).map (·.cumCost)).getD sl.cost
  hi - lo

/-- The declared cost of what is next admitted of a slice: the whole, or its present segment. -/
def Slice.offerCost (sl : Slice) : Nat :=
  match sl.segment with
  | none => sl.cost
  | some j => segCost sl j

/-! Contexts and strands (R51). -/

/-- The strand in a context. -/
def State.strand (s : State) (c : CtxId) : Option Strand := kget s.cores.ctxs (cid c)

/-- Replaces the strand in a context. -/
def State.setStrand (s : State) (c : CtxId) (st : Strand) : State :=
  { s with cores := { s.cores with ctxs := kset s.cores.ctxs (cid c) st } }

/-- Makes a context idle. -/
def State.freeCtx (s : State) (c : CtxId) : State :=
  { s with cores := { s.cores with ctxs := kdel s.cores.ctxs (cid c) } }

/-- Whether a strand belongs to a command. -/
def ofCommand (t : Fin 4) (q : Fin 64) (ref : SliceRef) : Bool := ref.t == t && ref.q == q

/-- Removes the strands and waiting ranges that a test on their slice selects. -/
def State.dropStrands (s : State) (p : SliceRef → Bool) : State :=
  { s with cores := { s.cores with
      ctxs := s.cores.ctxs.filter (fun x => !p x.2.ref),
      deques := Vector.map (fun (d : List Range) => d.filter (fun r => !p r.ref)) s.cores.deques } }

/-- Stops the strands of a command: they execute nothing further (R80). -/
def State.stopStrands (s : State) (t : Fin 4) (q : Fin 64) : State :=
  { s with cores := { s.cores with
      ctxs := s.cores.ctxs.map (fun x => if ofCommand t q x.2.ref then (x.1, { x.2 with stopped := true }) else x),
      deques := Vector.map (fun (d : List Range) => d.filter (fun r => !ofCommand t q r.ref)) s.cores.deques } }

/-- Raises a fault of a strand (R80): the instruction has no effect, the strand leaves its context (R55), no
waiting strand of the command begins, and the command fails at the next sluice. -/
def State.raise (s : State) (c : CtxId) (st : Strand) (code : Nat) (address : W64) : State :=
  let s := s.freeCtx c
  let s := { s with cores := { s.cores with
    deques := Vector.map (fun (d : List Range) => d.filter (fun r => !ofCommand st.ref.t st.ref.q r.ref)) s.cores.deques } }
  let s := s.modRun st.ref.t st.ref.q (fun r =>
    { r with faults := r.faults ++ [{ slice := st.ref.idx, strand := st.strand, code := code, address := address }] })
  s.bump 0x9021 8 1

/-- Raises a fault whose address is the locator of the instruction (R79). -/
def State.raisePc (s : State) (c : CtxId) (st : Strand) (code : Nat) : State :=
  s.raise c st code (locPc st.ref.idx st.pc)

/-- The fault that a command reports: the lowest SLICE_INDEX, then the lowest strand (R81). -/
def worstFault (l : List StrandFault) : Option StrandFault :=
  l.foldl (fun m f =>
    match m with
    | none => some f
    | some g => if f.slice < g.slice ∨ (f.slice = g.slice ∧ f.strand < g.strand) then some f else some g) none

/-! Failure of a command. -/

/-- Marks a command as failed, once; the rest follows at steps 2 and 12. -/
def State.failCmd (s : State) (t : Fin 4) (q : Fin 64) (code : Nat) (address : W64) (strand : Nat) : State :=
  s.modRun t q (fun r =>
    { r with fail := r.fail.orElse (fun _ =>
        some { code := code, address := address, strand := strand, lastMark := 0 }) })

/-! Kill (R42). -/

/-- Kills an admitted slice: its strands stop at once; its effects are dropped at step 2. A finished slice is
never killed for priority or throttling (R43). -/
def State.kill (s : State) (ref : SliceRef) : State :=
  let s := s.dropStrands (· == ref)
  let s := s.modSlice ref (fun sl => { sl with killed := true })
  s.bump 0x9020 5 1

/-- The cores of a cluster that may run strands: not failed, not withdrawn for self-test, not on an excluded
die (R31, R54). -/
def State.coreUp (s : State) (core : Nat) : Bool :=
  !s.cores.failed.contains core && !s.cores.testing.contains core &&
  !(s.odn 0x8000 3).testBit (dieOf core) && !s.health.failedDies.getLsbD (dieOf core)

/-- Applies a step to every element of a list, in order. -/
def State.each {α : Type} (s : State) (l : List α) (f : State → α → State) : State := l.foldl f s

/-- All queues of a tenancy. -/
def allQ : List (Fin 64) := List.finRange 64

/-- All tenancies. -/
def allT : List (Fin 4) := List.finRange 4

/-- All queues of all tenancies, tenancy by tenancy. -/
def allTQ : List (Fin 4 × Fin 64) := allT.flatMap (fun t => allQ.map (fun q => (t, q)))

end Sys2Proof.Machine
end

