-- ==== Sys2Proof/Machine/Mem.lean ====
section
/-! DEFINITION. Frames, page tables and their use (R159 to R184, R426): where a new frame lies, what a tenancy
holds, what a demand may take, eviction, and the two ways of reaching a page (a slice's, R35, and BAR2's). -/
namespace Sys2Proof.Machine

open Sys2Proof

/-! ### Stacks and frames -/

/-- The active stacks, ascending (R184): not excluded, not on an excluded die, not failed. -/
def State.stacks (s : State) : List Nat :=
  (List.range 24).filter (fun k =>
    !(s.odn 0x3001 1).testBit k && !(s.odn 0x8000 3).testBit (k / 6) &&
    !s.health.failedStacks.getLsbD k && !s.health.failedDies.getLsbD (k / 6))

/-- The active stack mask of OD 0x3000:01. -/
def State.stackMask (s : State) : Nat := s.stacks.foldl (fun m k => m + 2 ^ k) 0

/-- The dies that are present. -/
def State.dies (s : State) : List Nat :=
  (List.range 4).filter (fun d => !(s.odn 0x8000 3).testBit d && !s.health.failedDies.getLsbD d)

/-- MODEL_STAGE (R161). -/
def State.modelStage (s : State) : Nat := s.odn 0x3002 1

/-- The lowest key from k on that a sorted map does not list. -/
def firstGap {β : Type} : KMap β → Nat → Nat
  | [], k => k
  | (a, _) :: r, k => if a < k then firstGap r k else if a = k then firstGap r (k + 1) else k

/-- A free general frame of a stack (R161). -/
def State.freeOn (s : State) (stack : Nat) : Option Nat :=
  let b := stack * Config.framesPerStack
  let f := firstGap s.mem.frameUse b
  if f < b + Config.generalPerStack then some f else none

/-- The stacks of L in ascending order from a stack on, wrapping round (R168). -/
def wrapFrom (l : List Nat) (stack : Nat) : List Nat :=
  l.filter (fun k => stack ≤ k) ++ l.filter (fun k => k < stack)

/-- A free frame by R168: the chosen stack, else the next stacks of L; with it whether it lies off the chosen
stack. -/
def State.pickFrame (s : State) (stack : Nat) : Option (Nat × Bool) :=
  (wrapFrom s.stacks stack).findSome? (fun k => (s.freeOn k).map (fun f => (f, k != stack)))

/-- Records the use of a frame. -/
def State.useFrame (s : State) (f : Nat) (u : FrameUse) : State :=
  { s with mem := { s.mem with frameUse := kset s.mem.frameUse f u } }

/-- Returns a frame to the free list. -/
def State.freeFrame (s : State) (f : Nat) : State :=
  { s with mem := { s.mem with frameUse := kdel s.mem.frameUse f } }

/-- The stack of a frame. -/
def stackOfFrame (f : Nat) : Nat := f / Config.framesPerStack

/-- Zero-fills a frame. -/
def State.zeroFrame (s : State) (f : Nat) : State :=
  { s with mem := { s.mem with
      mem := memZero s.mem.mem (f * Config.pageBytes) ((f + 1) * Config.pageBytes) } }

/-- Copies a frame. -/
def State.copyFrame (s : State) (src dst : Nat) : State :=
  { s with mem := { s.mem with
      mem := memCopy s.mem.mem (src * Config.pageBytes) (dst * Config.pageBytes) Config.pageBytes } }

/-- The first active stack. -/
def State.stack0 (s : State) : Nat := (s.stacks.head?).getD 0

/-- L[n mod length of L]. -/
def State.stackMod (s : State) (n : Nat) : Nat := nth s.stacks (n % max 1 s.stacks.length) 0

/-! ### Die-store frames of the tenancy and model areas (R161) -/

/-- The key of a die-store frame. -/
def dieKey (die i : Nat) : Nat := die * Config.dieFrames + i

/-- A free frame of the tenancy area of a die. -/
def State.freeTenDie (s : State) (die : Nat) : Option Nat :=
  let k := firstGap s.mem.dieUse (dieKey die (8 + s.modelStage))
  if k < dieKey die Config.dieFrames then some k else none

/-- A free frame of the model staging area of a die. -/
def State.freeModelDie (s : State) (die : Nat) : Option Nat :=
  let k := firstGap s.mem.dieUse (dieKey die 8)
  if k < dieKey die (8 + s.modelStage) then some k else none

/-- Drops the die-store frames that a test selects. -/
def State.dropDie (s : State) (p : Nat → DieUse → Bool) : State :=
  { s with mem := { s.mem with dieUse := s.mem.dieUse.filter (fun x => !p x.1 x.2) } }

/-! ### Page tables (R162 to R164) -/

/-- The page entry of a page of Tt. -/
def State.page (s : State) (t : Fin 4) (v : Nat) : Option PageEntry := kget s.mem.pages[t] v

/-- Sets a page entry. -/
def State.setPage (s : State) (t : Fin 4) (v : Nat) (e : PageEntry) : State :=
  { s with mem := { s.mem with pages := s.mem.pages.set t (kset s.mem.pages[t] v e) } }

/-- Removes a page entry. -/
def State.delPage (s : State) (t : Fin 4) (v : Nat) : State :=
  { s with mem := { s.mem with pages := s.mem.pages.set t (kdel s.mem.pages[t] v) } }

/-- Changes a page entry that exists. -/
def State.modPage (s : State) (t : Fin 4) (v : Nat) (f : PageEntry → PageEntry) : State :=
  { s with mem := { s.mem with pages := s.mem.pages.set t (kmod s.mem.pages[t] v f) } }

/-- Page n of the model window: its frame while the model is sealed (R162). -/
def State.modelFrame (s : State) (v : Nat) : Option Nat :=
  if s.mem.model.sealedNow && Config.modelPage0 ≤ v then s.mem.model.frames[v - Config.modelPage0]? else none

/-- Whether a page lies in the model window. -/
def inModelWindow (v : Nat) : Bool := Config.modelPage0 ≤ v && v < 2 ^ 31

/-- Whether a page lies in the model window while no model is sealed (R390). -/
def State.modelGone (s : State) (v : Nat) : Bool := inModelWindow v && !s.mem.model.sealedNow

/-- Whether a page's frames have been evicted: it can no longer be read. -/
def PageEntry.gone (e : PageEntry) : Bool := e.evicted || e.lost

/-- The 64-bit page entry of MEM_QUERY (R164). -/
def State.pageWord (s : State) (t : Fin 4) (v : Nat) : W64 :=
  let home := fun (f : Nat) => stackOfFrame f * 2 ^ 40 + f % 2 ^ 19 * 2 ^ 21
  if inModelWindow v then
    match s.modelFrame v with
    | some f =>
      BitVec.ofNat 64 (2 ^ 63 + 2 ^ 60 +
        ((kget s.mem.model.staged (v - Config.modelPage0)).getD 0).toNat * 2 ^ 48 + home f)
    | none => 0
  else
    match s.page t v with
    | none => 0
    | some e =>
      BitVec.ofNat 64 (2 ^ 63 + (if e.evicted then 2 ^ 62 else 0) + (if e.evictable then 2 ^ 61 else 0) +
        (if e.wide then 2 ^ 59 else 0) + e.pinKind * 2 ^ 57 + e.pinTarget * 2 ^ 52 + e.staged.toNat * 2 ^ 48 +
        (if e.gone then 0 else home e.home))

/-! ### What tenancies hold (R177, R181, R426) -/

/-- General frames of the active stacks less the sealed model image: A of R177. -/
def State.assignable (s : State) : Nat :=
  s.stacks.length * Config.generalPerStack - (if s.mem.model.sealedNow then s.mem.model.frames.length else 0)

/-- A live quota of Tt: 1 DIE_FRAMES, 2 STACK_FRAMES, 3 KV_FRAMES, 4 CELLS, 5 TICK_WEIGHT, 6 POOL_LIMIT. -/
def State.quota (s : State) (t : Fin 4) (c : Nat) : Nat := s.odn (0x3100 + t.val) c

/-- R_t of a quota row (R177). -/
def reserveOf (stack kv : Nat) : Nat := stack + ceilDiv kv 30 + 24

/-- R_t. -/
def State.reserve (s : State) (t : Fin 4) : Nat := reserveOf (s.quota t 2) (s.quota t 3)

/-- The frames of the shared pool (R177). -/
def State.poolFrames (s : State) : Nat := s.assignable - (allT.map s.reserve).sum

/-- Stacked frames in use by Tt (R181). -/
def State.stackedUse (s : State) (t : Fin 4) : Nat :=
  (s.mem.frameUse.filter (fun x =>
    match x.2 with
    | .page u _ => u == t
    | .fresh u _ => u == t
    | .save u => u == t
    | .shadow u => u == t
    | .migrate u _ => u == t
    | _ => false)).length

/-- Wide-shadow frames of Tt. -/
def State.shadowUse (s : State) (t : Fin 4) : Nat :=
  (s.mem.frameUse.filter (fun x => match x.2 with | .shadow u => u == t | _ => false)).length

/-- The frames of the wide shadow of a page frame. -/
def State.shadowCount (s : State) (frame : Nat) : Nat := (s.mem.shadowOwner.filter (fun x => x.2 == frame)).length

/-- The stacked frames that a page holds: its home, its wide shadow, and the frame that it is copied to (R181). -/
def State.pageFrames (s : State) (e : PageEntry) : Nat :=
  if e.gone then 0 else 1 + s.shadowCount e.home + (if e.migrateTo.isSome then 1 else 0)

/-- Non-evictable stacked use of Tt: the home frames of its non-evictable pages with their wide shadows. -/
def State.stackedFixed (s : State) (t : Fin 4) : Nat :=
  (s.mem.pages[t].map (fun x => if x.2.evictable || x.2.gone then 0 else 1 + s.shadowCount x.2.home)).sum

/-- KV frames in use by Tt: frames, copies taken by appends, remnants (R181). -/
def State.kvUse (s : State) (t : Fin 4) : Nat :=
  (s.mem.kv.map (fun x => if x.2.t = t then 1 + (if x.2.remnant.isSome then 1 else 0) else 0)).sum

/-- Non-evictable KV frames of Tt. -/
def State.kvFixed (s : State) (t : Fin 4) : Nat :=
  (s.mem.kv.map (fun x =>
    if x.2.t = t ∧ !x.2.names.all (·.2) then 1 + (if x.2.remnant.isSome then 1 else 0) else 0)).sum

/-- Die-store frames of the tenancy area in use by Tt: die-pinned copies and KV staging copies (R181). -/
def State.dieUsed (s : State) (t : Fin 4) : Nat :=
  (s.mem.dieUse.filter (fun x =>
    match x.2 with
    | .pin u _ => u == t
    | .kv u _ => u == t
    | _ => false)).length

/-- Die-store frames that die-pinned copies of Tt hold: its non-evictable use of the die stores. -/
def State.dieHeld (s : State) (t : Fin 4) : Nat :=
  (s.mem.dieUse.filter (fun x => match x.2 with | .pin u _ => u == t | _ => false)).length

/-- Pages of Tt pinned to a die, with or without their copy (R166). -/
def State.diePinned (s : State) (t : Fin 4) : Nat :=
  (s.mem.pages[t].filter (fun x => x.2.pinKind == 2)).length

/-- Frames of Tt that lie in the shared pool (R181, R426); 30 KV frames beyond KV_FRAMES fill an arena frame. -/
def State.poolUse (s : State) (t : Fin 4) : Nat :=
  (s.stackedUse t - s.quota t 2) + ceilDiv (s.kvUse t - s.quota t 3) 30

/-- Frames of the pool in use, by all tenancies and by an installation (R383). -/
def State.poolUsed (s : State) : Nat := (allT.map s.poolUse).sum + s.install.frames.length

/-- Free general frames of the active stacks (OD 0x3000:04). -/
def State.freeGeneral (s : State) : Nat :=
  s.stacks.length * Config.generalPerStack -
    (s.mem.frameUse.filter (fun x => s.stacks.contains (stackOfFrame x.1))).length

/-- The part of n more stacked frames of Tt that would lie in the pool (R426). -/
def State.stackOver (s : State) (t : Fin 4) (n : Nat) : Nat :=
  (s.stackedUse t + n - s.quota t 2) - (s.stackedUse t - s.quota t 2)

/-- Whether the quotas and the free frames of the pool let Tt take n more stacked frames. -/
def State.stackNow (s : State) (t : Fin 4) (n : Nat) : Bool :=
  let excess := s.stackOver t n
  excess = 0 || (s.poolUse t + excess ≤ s.quota t 6 && s.poolUsed + excess ≤ s.poolFrames)

/-- The frames of the pool that Tt may hold at most (R177, R426). -/
def State.poolMost (s : State) (t : Fin 4) : Nat := min (s.quota t 6) s.poolFrames

/-- Whether a demand for n stacked frames of Tt could be met with Tt otherwise idle: beside its non-evictable pages, out
of its quota and the pool (R33, R426). -/
def State.stackPossible (s : State) (t : Fin 4) (n : Nat) : Bool :=
  s.stackedFixed t + n ≤ s.quota t 2 + s.poolMost t

/-- The same for n KV frames, which may lie in the pool (R33, R153, R181). -/
def State.kvPossible (s : State) (t : Fin 4) (n : Nat) : Bool :=
  ceilDiv (s.kvFixed t + n - s.quota t 3) 30 ≤ s.poolMost t

/-- The quota index of a demand that can never be met (R179): the pool's where Tt may hold frames of the pool and they
do not suffice, else the resource's own (DESIGN CHOICE, log entry 57). -/
def State.shortIndex (s : State) (t : Fin 4) (own : Nat) : Nat := 8 * t.val + (if s.poolMost t = 0 then own else 4)

/-- KV frames that admitted and split slices of Tt may still take (R33, R145). -/
def State.kvPromised (s : State) (t : Fin 4) : Nat :=
  (allQ.map (fun q =>
    match s.run t q with
    | none => 0
    | some r => (r.slices.map (fun sl =>
        if sl.state == .admitted || sl.state == .finished || (sl.state == .waiting && sl.segment.getD 0 ≠ 0) then
          sl.kvPages - sl.kvUsed else 0)).sum)).sum

/-- The part of n more KV frames of Tt that would lie in the pool. -/
def State.kvOver (s : State) (t : Fin 4) (n : Nat) : Nat :=
  let u := s.kvUse t + s.kvPromised t
  ceilDiv (u + n - s.quota t 3) 30 - ceilDiv (u - s.quota t 3) 30

/-- Free KV slots in the arena frames of Tt. -/
def State.slotsFree (s : State) (t : Fin 4) : Nat :=
  30 * (s.mem.frameUse.filter (fun x => x.2 == .arena t)).length - s.kvUse t

/-- General frames that must stay free for the arenas of admitted slices (R33, R173), with n more KV frames of Tt. -/
def State.arenaHoldWith (s : State) (t : Fin 4) (n : Nat) : Nat :=
  (allT.map (fun u => ceilDiv (s.kvPromised u + (if u = t then n else 0) - s.slotsFree u) 30)).sum

/-- General frames that must stay free for the arenas of admitted slices. -/
def State.arenaHold (s : State) : Nat := s.arenaHoldWith 0 0

/-- Takes a free frame, zero-filled, for a use, from a chosen stack on (R168); what is held for arenas goes to arenas
only. -/
def State.takeFrame (s : State) (stack : Nat) (u : FrameUse) : Option (Nat × State) :=
  let arena := match u with
    | .arena _ => true
    | _ => false
  if !arena && s.freeGeneral ≤ s.arenaHold then none
  else (s.pickFrame stack).map (fun x =>
    let s := (s.useFrame x.1 u).zeroFrame x.1
    (x.1, s.bump 0x9025 7 (if x.2 then 1 else 0)))

/-! ### Eviction (R182, R183) -/

/-- The wide shadow of a page frame is released with the frame (R109). -/
def State.dropShadow (s : State) (frame : Nat) : State :=
  let own := s.mem.shadowOwner.filter (fun x => x.2 == frame)
  let s := s.each (own.map (·.1)) State.freeFrame
  { s with mem := { s.mem with shadows := kdel s.mem.shadows frame,
                               shadowOwner := s.mem.shadowOwner.filter (fun x => x.2 != frame) } }

/-- Evicts a stacked page: its home frame, every copy and the frame that it is copied to are freed; EVICTED is set at
step 6 (R183). -/
def State.evictPage (s : State) (t : Fin 4) (v : Nat) : State :=
  match s.page t v with
  | none => s
  | some e =>
    let s := (s.freeFrame e.home).dropShadow e.home
    let s := match e.migrateTo with
      | some g => s.freeFrame g
      | none => s
    let s := s.dropDie (fun _ u => u == .pin t v || u == .copy t v)
    let s := s.modPage t v (fun e =>
      { e with lost := true, staged := 0, wide := false, migrateTo := none, migrated := false })
    s.bump 0x9025 4 1

/-- Step 6 sets EVICTED in the entries of the pages that have been evicted (R183). -/
def State.settleEvictions (s : State) : State :=
  { s with mem := { s.mem with pages := Vector.map (fun (m : KMap PageEntry) =>
      m.map (fun (x : Nat × PageEntry) => (x.1, { x.2 with evicted := x.2.gone, lost := false }))) s.mem.pages } }

/-- Whether a running command pins a frame that it reads (R203). -/
def State.opPins (s : State) (f : Nat) : Bool :=
  allTQ.any (fun x => ((s.run x.1 x.2).map (fun r => r.pinned.contains f)).getD false)

/-! ### Reaching a page -/

/-- What an access to a page finds. -/
inductive Reach where
  | frame (f : Nat)
  | error (code : Nat)
deriving DecidableEq, Repr

/-- Whether a frame lies on a stack that is marked failed (R409, class 2). -/
def State.frameFailed (s : State) (f : Nat) : Bool := s.health.failedStacks.getLsbD (stackOfFrame f)

/-- A frame, or the error of an access to a failed stack. -/
def State.reachFrame (s : State) (f : Nat) : Reach :=
  if s.frameFailed f then .error Config.errMemoryFailed else .frame f

/-- The frame of a committed page, or the error of an access to it: absent model (R390), unmapped, evicted, on a failed
stack with no complete copy in a die store, which would serve the read (R172). -/
def State.reachCommitted (s : State) (t : Fin 4) (v : Nat) : Reach :=
  if inModelWindow v then
    if s.mem.model.sealedNow then
      match s.modelFrame v with
      | some f => if (kget s.mem.model.staged (v - Config.modelPage0)).getD 0 ≠ 0 then .frame f else s.reachFrame f
      | none => .error Config.errPageUnmapped
    else .error Config.errModelAbsent
  else
    match s.page t v with
    | none => .error Config.errPageUnmapped
    | some e =>
      if e.gone then .error Config.errPageEvicted
      else if e.staged ≠ 0 then .frame e.home
      else s.reachFrame e.home

/-- The fresh page of a list for a page. -/
def freshOf (l : List FreshPage) (v : Nat) : Option Nat := (l.find? (fun x => x.vpage == v)).map (·.frame)

/-- The committed slices of a command but for one, in the order in which they committed: each was last admitted in the
tick before (R26, R103). -/
def CmdRun.committedBut (r : CmdRun) (idx : Nat) : List Slice :=
  sortBy (fun (a b : Slice) => decide (a.admOrder < b.admOrder))
    (r.slices.filter (fun x => x.state == .committed && x.idx != idx))

/-- The held copy of a page: a prepared copy that a sluice has kept for a fallback command, then the fresh pages of
its committed slices, of which the last to commit counts (R103, R196). -/
def CmdRun.heldPage (r : CmdRun) (idx v : Nat) : Option Nat :=
  (freshOf (r.prepared.filter (·.stored)) v).orElse (fun _ =>
    (r.committedBut idx).foldl (fun acc x => (freshOf x.fresh v).orElse (fun _ => acc)) none)

/-- The page that a slice sees: its own writes, the held effects of its command's committed slices, then the
committed state (R35, R103). -/
def State.reachSlice (s : State) (ref : SliceRef) (v : Nat) : Reach :=
  let own := (s.slice ref).bind (fun sl => freshOf sl.fresh v)
  let held := (s.run ref.t ref.q).bind (fun r => r.heldPage ref.idx v)
  match own.orElse (fun _ => held) with
  | some f => s.reachFrame f
  | none => s.reachCommitted ref.t v

/-- The physical address of an offset in a frame. -/
def phys (f a : Nat) : Nat := f * Config.pageBytes + a % Config.pageBytes

/-- The byte at a physical address. -/
def State.pbyte (s : State) (a : Nat) : Byte := memRead s.mem.mem a

/-- Reads n bytes at an address through a way of reaching pages; unreachable bytes read 0 (the caller has
checked them). -/
def State.readVia (s : State) (reach : Nat → Reach) (a : Nat) : Nat → List Byte
  | 0 => []
  | n + 1 =>
    (match reach (pageOf a) with
      | .frame f => s.pbyte (phys f a)
      | .error _ => 0) :: s.readVia reach (a + 1) n

/-- The first address of a range whose page cannot be reached, with its error, looking page by page. -/
def badPage (reach : Nat → Reach) (a stop : Nat) : Nat → Option (Nat × Nat)
  | 0 => none
  | k + 1 =>
    if stop ≤ a then none
    else
      match reach (pageOf a) with
      | .error c => some (a, c)
      | .frame _ => badPage reach ((pageOf a + 1) * Config.pageBytes) stop k

/-- The first unreachable address of n bytes. -/
def checkRange (reach : Nat → Reach) (a n : Nat) : Option (Nat × Nat) :=
  badPage reach a (a + n) (n / Config.pageBytes + 2)

/-- Whether a page has 2^52 or more as its address. -/
def beyond52 (a : Nat) : Bool := 2 ^ 52 ≤ a

/-- Writes bytes to physical memory. -/
def State.pwrite (s : State) (a : Nat) (bs : List Byte) : State :=
  { s with mem := { s.mem with mem := memWriteN s.mem.mem a bs } }

/-- Writes bytes at addresses through a page-to-frame map; a byte whose page the map lacks is not written. -/
def State.writeVia (s : State) (frameOf : Nat → Option Nat) (a : Nat) : List Byte → State
  | [] => s
  | b :: r =>
    let s := match frameOf (pageOf a) with
      | some f => { s with mem := { s.mem with mem := memWrite s.mem.mem (phys f a) b } }
      | none => s
    s.writeVia frameOf (a + 1) r

/-- Committed bytes of Tt at an address. -/
def State.readT (s : State) (t : Fin 4) (a n : Nat) : List Byte := s.readVia (s.reachCommitted t) a n

/-- A committed little-endian number of Tt. -/
def State.numT (s : State) (t : Fin 4) (a n : Nat) : Nat := ofLe (s.readT t a n)

/-- The first unreachable address of a committed range of Tt. -/
def State.checkT (s : State) (t : Fin 4) (a n : Nat) : Option (Nat × Nat) := checkRange (s.reachCommitted t) a n

/-- The pages of a range. -/
def pagesOf (a n : Nat) : List Nat :=
  if n = 0 then [] else (List.range (pageOf (a + n - 1) + 1 - pageOf a)).map (· + pageOf a)

/-- The wide blocks of a frame without those that begin in a range of its page; bytes written other than by a tile store
are narrow. -/
def State.narrowPage (s : State) (f v a n : Nat) : State :=
  match kget s.mem.shadows f with
  | none => s
  | some l =>
    let l := l.filter (fun (b : WideBlock) =>
      let x := v * Config.pageBytes + b.offset
      x < a || a + n ≤ x)
    if l.isEmpty then s.dropShadow f else { s with mem := { s.mem with shadows := kset s.mem.shadows f l } }

/-- Drops the wide blocks that begin in a written range. -/
def State.narrow (s : State) (frameOf : Nat → Option Nat) (a n : Nat) : State :=
  s.each (pagesOf a n) (fun s v =>
    match frameOf v with
    | some f => s.narrowPage f v a n
    | none => s)

/-- Marks a page as used and read-pinned in this tick (R170, R182). -/
def State.touch (s : State) (t : Fin 4) (v : Nat) : State :=
  s.modPage t v (fun e => { e with lastUse := s.tick.count, readPin := true })

/-- Marks the pages of a range. -/
def State.touchRange (s : State) (t : Fin 4) (a n : Nat) : State := s.each (pagesOf a n) (·.touch t ·)

/-! ### The source of a read (R172, R176) -/

/-- The die-store copies of a page, as a mask. -/
def State.copies (s : State) (t : Fin 4) (v : Nat) : BitVec 4 :=
  if inModelWindow v then (kget s.mem.model.staged (v - Config.modelPage0)).getD 0
  else ((s.page t v).map (·.staged)).getD 0

/-- Whether a read by a core on die e is served by another die's store or stack (R172). -/
def State.remoteRead (s : State) (t : Fin 4) (v e : Nat) : Bool :=
  let m := s.copies t v
  match s.reachCommitted t v with
    | .frame f => !m.getLsbD e && (s.frameFailed f || stackOfFrame f / 6 != e)
    | .error _ => false

/-- Whether a model page was due to be staged by an active schedule entry on a die that does not yet hold
it (R175, R176). -/
def State.dueUnstaged (s : State) (v : Nat) : Bool :=
  match s.modelFrame v with
  | none => false
  | some f =>
    s.mem.model.sched.any (fun en =>
      en.active && en.kind == 1 && pageOf en.base ≤ v && v < pageOf en.base + en.count &&
      !((kget s.mem.model.staged (v - Config.modelPage0)).getD 0).getLsbD
        (if en.die = 4 then stackOfFrame f / 6 else en.die))

/-- Counts the reads of a page range by a core (R172, R176). -/
def State.countReads (s : State) (t : Fin 4) (core : Nat) (pages : List Nat) : State :=
  let e := dieOf core
  s.each pages (fun s v =>
    let s := s.bump 0x9025 0xA (if s.remoteRead t v e then 1 else 0)
    s.bump 0x9025 1 (if s.dueUnstaged v then 1 else 0))

/-! ### KV frames and eviction (R153, R173, R182, R183) -/

/-- The KV record of a frame. -/
def State.kvRec (s : State) (f : Nat) : Option KvFrame := kget s.mem.kv f

/-- Sets the KV record of a frame. -/
def State.setKv (s : State) (f : Nat) (k : KvFrame) : State :=
  { s with mem := { s.mem with kv := kset s.mem.kv f k } }

/-- Changes the KV record of a frame. -/
def State.modKv (s : State) (f : Nat) (g : KvFrame → KvFrame) : State :=
  { s with mem := { s.mem with kv := kmod s.mem.kv f g } }

/-- Frees the arena frames of Tt that hold nothing. -/
def State.trimArenas (s : State) (t : Fin 4) : State :=
  let empty := (s.mem.frameUse.filter (fun x =>
    x.2 == .arena t &&
      !s.mem.kv.any (fun y => y.1 / 32 == x.1 || (y.2.remnant.map (fun r => r.slot / 32 == x.1)).getD false))).map
    (·.1)
  s.each empty State.freeFrame

/-- Drops a KV frame with its remnant and its staged copy. -/
def State.dropKv (s : State) (f : Nat) : State :=
  match s.kvRec f with
  | none => s
  | some k =>
    let s := { s with mem := { s.mem with kv := kdel s.mem.kv f } }
    ((s.dropDie (fun _ u => u == .kv k.t f)).trimArenas k.t).bump 0x9024 7 1

/-- Evicts a KV frame: EVICTED is set in every page entry that names it, and the frame is freed with its remnant
(R153). -/
def State.evictKv (s : State) (f : Nat) : State :=
  match s.kvRec f with
  | none => s
  | some k =>
    let s := s.each k.names (fun s x =>
      match s.reachCommitted k.t (pageOf x.1) with
      | .frame h =>
        let a := phys h x.1
        s.pwrite a (leBytes 8 (ofLe (memReadN s.mem.mem a 8) ||| 2 ^ 62))
      | .error _ => s)
    (s.dropKv f).bump 0x9024 8 1

/-- A frame that may be evicted: a page of a tenancy, or a KV frame. -/
structure Victim where
  lastUse : Nat
  t : Fin 4
  kv : Bool
  number : Nat
deriving DecidableEq, Repr

/-- The evictable pages and KV frames without read pins of the tenancies beyond their quota of the resource, whose
eviction leaves the tenancy its quota. -/
def State.evictCandidates (s : State) : List Victim :=
  (allT.filter (fun t => s.stackedUse t > s.quota t 2)).flatMap (fun t =>
    (s.mem.pages[t].filter (fun x => x.2.evictable && !x.2.gone && !x.2.readPin && !s.opPins x.2.home &&
      s.quota t 2 + s.pageFrames x.2 ≤ s.stackedUse t)).map
      (fun x => { lastUse := x.2.lastUse, t := t, kv := false, number := x.1 })) ++
  (allT.filter (fun t => s.kvUse t > s.quota t 3)).flatMap (fun t =>
    (s.mem.kv.filter (fun x => x.2.t == t && !x.2.names.isEmpty && x.2.names.all (·.2) && !x.2.pin &&
      !s.opPins (2 ^ 40 + x.1) && s.quota t 3 + (if x.2.remnant.isSome then 2 else 1) ≤ s.kvUse t)).map
      (fun x => { lastUse := x.2.lastUse, t := t, kv := true, number := x.1 }))

/-- The order of eviction: least recently used, then tenancy, then page or frame. -/
def evictLt (a b : Victim) : Bool :=
  a.lastUse < b.lastUse || (a.lastUse == b.lastUse && (a.t.val < b.t.val || (a.t == b.t && a.number < b.number)))

/-- Evicts one frame, if the rules of R182 leave one; nothing is evicted outside a sluice (R153, R170). -/
def State.evictOne (s : State) : Option State :=
  if s.tick.breakingIn then none
  else ((sortBy evictLt s.evictCandidates).head?).map (fun x => if x.kv then s.evictKv x.number else s.evictPage x.t x.number)

/-- Evicts until n general frames are free, beside those held for arenas, or no frame may go. -/
def State.evictFor (s : State) (n : Nat) : Nat → State
  | 0 => s
  | k + 1 =>
    if n + s.arenaHold ≤ s.freeGeneral then s
    else
      match s.evictOne with
      | some s' => s'.evictFor n k
      | none => s

/-- Makes room for n general frames by eviction; an arena frame holds 30 KV frames. -/
def State.makeRoom (s : State) (n : Nat) : State := s.evictFor n (31 * (n + s.arenaHold))

/-- Evicts until the pool has n free frames or no frame may go (R182). -/
def State.evictPool (s : State) (n : Nat) : Nat → State
  | 0 => s
  | k + 1 =>
    if s.poolUsed + n ≤ s.poolFrames then s
    else
      match s.evictOne with
      | some s' => s'.evictPool n k
      | none => s

/-- Makes room for n stacked frames of Tt: in the pool, for those beyond its quota, and among the general frames. -/
def State.roomFor (s : State) (t : Fin 4) (n : Nat) : State :=
  let excess := s.stackOver t n
  (if excess = 0 then s else s.evictPool excess (31 * (s.poolUsed + excess))).makeRoom n

/-- Whether the quotas and the pool, after eviction, let Tt take n more stacked frames (R182, R426). -/
def State.stackAllowed (s : State) (t : Fin 4) (n : Nat) : Bool :=
  s.stackNow t n || (s.poolUse t + s.stackOver t n ≤ s.quota t 6 && (s.roomFor t n).stackNow t n)

/-- Whether the quotas and the pool, after eviction, let Tt take n more KV frames (R145, R153, R181). -/
def State.kvAllowed (s : State) (t : Fin 4) (n : Nat) : Bool :=
  let excess := s.kvOver t n
  excess = 0 || (s.poolUse t + excess ≤ s.quota t 6 &&
    (s.poolUsed + excess ≤ s.poolFrames || (s.evictPool excess (31 * (s.poolUsed + excess))).poolUsed + excess ≤ s.poolFrames))

/-- Makes room for n more KV frames of Tt in the pool. -/
def State.kvRoom (s : State) (t : Fin 4) (n : Nat) : State :=
  let excess := s.kvOver t n
  if excess = 0 then s else s.evictPool excess (31 * (s.poolUsed + excess))

/-- Whether a page carries a read pin, of a slice or of a running command. -/
def State.pagePinned (s : State) (t : Fin 4) (v : Nat) : Bool :=
  match s.page t v with
  | none => false
  | some e => e.readPin || s.opPins e.home

/-- Whether a KV frame carries a read pin. -/
def State.kvPinned (s : State) (f : Nat) : Bool := ((s.kvRec f).map (·.pin)).getD false || s.opPins (2 ^ 40 + f)

/-- What R182 compares of a die-store copy: its last use, its tenancy, its page or frame; none where it may not go. -/
def State.dieVictim (s : State) (u : DieUse) : Option Victim :=
  match u with
  | .copy t v =>
    if s.dieUsed t > s.quota t 1 && !s.pagePinned t v then
      some { lastUse := ((s.page t v).map (·.lastUse)).getD 0, t := t, kv := false, number := v }
    else none
  | .kv t f =>
    if s.dieUsed t > s.quota t 1 && !s.kvPinned f then
      some { lastUse := ((s.kvRec f).map (·.lastUse)).getD 0, t := t, kv := true, number := f }
    else none
  | _ => none

/-- The KV staging copies and ordinary copies on a die that may be evicted, with their die-store frames: those of
tenancies beyond their quota of die-store frames, without read pins. -/
def State.dieVictims (s : State) (die : Nat) : List (Victim × Nat) :=
  s.mem.dieUse.filterMap (fun x =>
    if x.1 / Config.dieFrames = die then (s.dieVictim x.2).map (fun y => (y, x.1)) else none)

/-- Evicts one die-store copy; reads fall back to the home frame (R183). -/
def State.evictDie (s : State) (die : Nat) : State :=
  match (sortBy (fun (a b : Victim × Nat) => evictLt a.1 b.1) (s.dieVictims die)).head? with
  | none => s
  | some x =>
    let s := match kget s.mem.dieUse x.2 with
      | some (.copy t v) => s.modPage t v (fun e => { e with staged := e.staged &&& ~~~(1#4 <<< die) })
      | some (.kv _ f) => s.modKv f (fun k => { k with staged := none })
      | _ => s
    (s.dropDie (fun n _ => n == x.2)).bump 0x9025 5 1

end Sys2Proof.Machine
end

