-- ==== Sys2Proof/Machine/Issue.lean ====
section
/-! DEFINITION. How a strand issues an instruction (R52, R65, R66, R78 to R81) and how instructions reach the
core store window (R61, R66, R67). -/
namespace Sys2Proof.Machine

open Sys2Proof

/-- The word at the pc of a strand, if the pc lies in its slice's program. -/
def Slice.word (sl : Slice) (pc : Nat) : Option W64 :=
  if pc < 64 + sl.instrBytes then some (nth sl.prog ((pc - 64) / 8) 0) else none

/-- What a context does when the command for an instruction comes. -/
inductive Issue where
  /-- no strand, waiting in TWAIT, stopped, or a strand of a built-in program: nothing issues -/
  | nothing
  /-- the stop of a fault of the command has reached the strand (R81) -/
  | stop (st : Strand)
  /-- execution has passed the last instruction (R79) -/
  | past (st : Strand)
  /-- the strand issues the word w of its slice -/
  | exec (st : Strand) (sl : Slice) (w : W64)
deriving DecidableEq, Repr

/-- What the context c issues. -/
def State.issue (s : State) (c : CtxId) : Issue :=
  match s.strand c with
  | none => .nothing
  | some st =>
    if st.rom || st.stopped || st.waiting != 0 then .nothing
    else
      match s.run st.ref.t st.ref.q, s.slice st.ref with
      | some r, some sl =>
        if !r.faults.isEmpty && Config.stopReached s.free then .stop st
        else
          match sl.word st.pc with
          | none => .past st
          | some w => .exec st sl w
      | _, _ => .nothing

/-- Issues the instruction op of context c: its effect comes from `body`, which gets the strand, its slice and
the word. Where the context does not issue op, nothing happens (DESIGN CHOICE, log entry 11). -/
def issueOp (c : CtxId) (op : Nat) (body : Strand → Slice → W64 → State → State) (s : State) : State :=
  match s.issue c with
  | .nothing => s
  | .stop st => s.setStrand c { st with stopped := true }
  | .past st => s.raisePc c st Config.errIllegalInstruction
  | .exec st sl w => if fOp w = op then body st sl w { s with free := s.free + 1 } else s

/-- The strand after an instruction that goes on to the next. -/
def Strand.next (st : Strand) : Strand := { st with pc := st.pc + 8 }

/-- Writes a scalar register. -/
def Strand.setS (st : Strand) (d : Fin 32) (v : W64) : Strand := { st with s := st.s.set d v }

/-- Writes a vector register. -/
def Strand.setV (st : Strand) (d : Fin 32) (v : Vector W32 64) : Strand := { st with v := st.v.set d v }

/-- Writes a descriptor register. -/
def Strand.setT (st : Strand) (d : Fin 16) (v : BitVec 512) : Strand := { st with t := st.t.set d v }

/-- Writes a random key register. -/
def Strand.setK (st : Strand) (d : Fin 4) (v : BitVec 128) : Strand := { st with k := st.k.set d v }

/-- An instruction whose whole effect is on its own strand: the strand goes on to the next instruction. -/
def pureOp (c : CtxId) (op : Nat) (f : Strand → Slice → W64 → Strand) (s : State) : State :=
  issueOp c op (fun st sl w s => s.setStrand c (f st sl w).next) s

/-! ### The core store window -/

/-- n bytes of a sorted window from a on, whose first key is not below a; a byte that nothing has written is a
free value (R61). -/
def winFill (free : Nat) : KMap Byte → Nat → Nat → List Byte
  | _, _, 0 => []
  | [], a, n + 1 => Config.freeByte free a :: winFill free [] (a + 1) n
  | (k, b) :: r, a, n + 1 =>
    if k = a then b :: winFill free r (a + 1) n
    else Config.freeByte free a :: winFill free ((k, b) :: r) (a + 1) n

/-- n bytes of the window. -/
def winRead (free : Nat) (win : KMap Byte) (a n : Nat) : List Byte :=
  winFill free (win.dropWhile (fun x => x.1 < a)) a n

/-- Writes bytes to the window, keeping the addresses rising. -/
def winWrite (win : KMap Byte) (a : Nat) (bs : List Byte) : KMap Byte :=
  win.filter (fun x => x.1 < a) ++ bs.mapIdx (fun i b => (a + i, b)) ++
    win.filter (fun x => a + bs.length ≤ x.1)

/-- The links of a strand that a write of a window range leaves: a link ends when a byte of its range is
written (R107). -/
def linksAfter (links : List Link) (a n : Nat) : List Link :=
  links.filter (fun l => n = 0 || l.start + l.len ≤ a || a + n ≤ l.start)

/-- A strand after an instruction has written bytes to its window. -/
def Strand.store (st : Strand) (a : Nat) (bs : List Byte) : Strand :=
  { st with win := winWrite st.win a bs, links := linksAfter st.links a bs.length }

/-- What the check of a window range finds (R67): the alignment first, then the window. -/
def rangeError (storeBytes a n align : Nat) : Option Nat :=
  if a % align ≠ 0 then some Config.errIllegalInstruction
  else if a + n ≤ storeBytes then none
  else some Config.errStoreOverflow

/-- Runs an instruction after the check of a window range. -/
def withRange (c : CtxId) (st : Strand) (sl : Slice) (a n align : Nat) (body : State → State) (s : State) : State :=
  match rangeError sl.storeBytes a n align with
  | some e => s.raisePc c st e
  | none => body s

end Sys2Proof.Machine
end

