-- ==== Sys2Proof/Machine/Vec.lean ====
section
/-! DEFINITION. Vector instructions (R68, R116, R117, R119, R88): one meaning for each, over the shared
issue. -/
namespace Sys2Proof.Machine

open Sys2Proof

/-- NaN in canonical form (R87). -/
def canon32 (a : W32) : W32 := if isNan32 a then nan32 else a

/-- A Format V instruction that writes v[VD]. -/
def vectorOp (c : CtxId) (op : Nat) (f : Strand → W64 → Vector W32 64) (s : State) : State :=
  pureOp c op (fun st _ w => st.setV (fSD w) (f st w)) s

/-- v[VA]. -/
def vA (st : Strand) (w : W64) : Vector W32 64 := st.v[fSA w]
/-- v[VB]. -/
def vB (st : Strand) (w : W64) : Vector W32 64 := st.v[fSB w]
/-- v[VC]. -/
def vC (st : Strand) (w : W64) : Vector W32 64 := st.v[fVC w]

/-- A lane-wise operation of two vectors. -/
def lanes2 (f : W32 → W32 → W32) (a b : Vector W32 64) : Vector W32 64 := Vector.ofFn (fun i => f a[i] b[i])

/-- The window offset of VLD and VST: s[SA] + OFF. -/
def winOffV (st : Strand) (w : W64) : Nat := (st.s[fTSA w]).toNat + fOff w

/-- VLD: 64 elements of FP32, BF16, E4M3 or E5M2, widened exactly. -/
def execVld (c : CtxId) (s : State) : Host.Outcome State Fault Refusal :=
  .next (issueOp c 0x40 (fun st sl w s =>
    let f := fFN w
    let n := fmtBits f / 8
    let a := winOffV st w
    withRange c st sl a (64 * n) n (fun s =>
      let codes := unpackN (fmtBits f) (winRead s.free st.win a (64 * n)) 64
      s.setStrand c (st.setV (fSD w) (Vector.ofFn (fun (i : Fin 64) =>
        round32 (decodeElem f (nth codes i 0))))).next) s) s)

/-- Counts the block counters of conversions to format f (R89), and the blocks that saturate at BF16 (R112). -/
def State.countBlocks (s : State) (f : Nat) (bs : List BlockConv) : State :=
  let s := s.bump 0x9022 1 (bs.map (·.saturated)).sum
  let s := s.bump 0x9022 2 (bs.map (·.flushed)).sum
  let s := s.bump 0x9022 3 (bs.map (·.nanBlocks)).sum
  s.bump 0x9022 0xC (if f = 1 then (bs.filter (fun b => b.saturated ≠ 0)).length else 0)

/-- Values in blocks of 32 (R88). -/
def blocksOf : Nat → List α → List (List α)
  | 0, _ => []
  | n + 1, l => l.take 32 :: blocksOf n (l.drop 32)

/-- The conversion of a row of values in blocks of 32, with a random number for each element (R88, R100). -/
def convertRow (f : Nat) (vs : List W32) (rnd : Nat → Option Nat) : List BlockConv :=
  (blocksOf (ceilDiv vs.length 32) vs).mapIdx (fun b blk => convertBlock f (blk.map f32v) (fun i => rnd (32 * b + i)))

/-- VST; its row states no alignment. -/
def execVst (c : CtxId) (s : State) : Host.Outcome State Fault Refusal :=
  .next (issueOp c 0x41 (fun st sl w s =>
    let f := fFN w
    let n := fmtBits f / 8
    let a := winOffV st w
    withRange c st sl a (64 * n) 1 (fun s =>
      let bs := convertRow f (vA st w).toList (fun _ => none)
      let s := s.countBlocks f bs
      s.setStrand c (st.store a (packN (fmtBits f) (bs.flatMap (·.codes)))).next) s) s)

/-- VBC. -/
def execVbc (c : CtxId) (s : State) : Host.Outcome State Fault Refusal :=
  .next (vectorOp c 0x42 (fun st w => Vector.replicate 64 (canon32 ((st.s[fTSA w]).setWidth 32))) s)

/-- VIDX. -/
def execVidx (c : CtxId) (s : State) : Host.Outcome State Fault Refusal :=
  .next (vectorOp c 0x43 (fun st w => Vector.ofFn (fun (i : Fin 64) =>
    intF32 (st.s[fTSA w] + BitVec.ofNat 64 i.val).toInt)) s)

/-- VEXT. -/
def execVext (c : CtxId) (s : State) : Host.Outcome State Fault Refusal :=
  .next (pureOp c 0x44 (fun st _ w =>
    st.setS (fTSA w) ((vA st w)[(w.extractLsb' 0 6).toFin]'(by exact (w.extractLsb' 0 6).isLt) |>.setWidth 64)) s)

/-- VADD. -/
def execVadd (c : CtxId) (s : State) : Host.Outcome State Fault Refusal :=
  .next (vectorOp c 0x48 (fun st w => lanes2 f32add (vA st w) (vB st w)) s)

/-- VSUB. -/
def execVsub (c : CtxId) (s : State) : Host.Outcome State Fault Refusal :=
  .next (vectorOp c 0x49 (fun st w => lanes2 f32sub (vA st w) (vB st w)) s)

/-- VMUL. -/
def execVmul (c : CtxId) (s : State) : Host.Outcome State Fault Refusal :=
  .next (vectorOp c 0x4A (fun st w => lanes2 f32mul (vA st w) (vB st w)) s)

/-- VFMA. -/
def execVfma (c : CtxId) (s : State) : Host.Outcome State Fault Refusal :=
  .next (vectorOp c 0x4B (fun st w =>
    Vector.ofFn (fun (i : Fin 64) => f32fma (vA st w)[i] (vB st w)[i] (vC st w)[i])) s)

/-- VMAX. -/
def execVmax (c : CtxId) (s : State) : Host.Outcome State Fault Refusal :=
  .next (vectorOp c 0x4C (fun st w => lanes2 f32max (vA st w) (vB st w)) s)

/-- VMIN. -/
def execVmin (c : CtxId) (s : State) : Host.Outcome State Fault Refusal :=
  .next (vectorOp c 0x4D (fun st w => lanes2 f32min (vA st w) (vB st w)) s)

/-- The function of VUN. -/
def vunFn (fn : Nat) (a : W32) : W32 :=
  match fn with
  | 0 => f32abs a
  | 1 => f32neg a
  | _ => canon32 a

/-- VUN. -/
def execVun (c : CtxId) (s : State) : Host.Outcome State Fault Refusal :=
  .next (vectorOp c 0x4E (fun st w => (vA st w).map (vunFn (fFN w))) s)

/-- The condition of VCMP: 1.0 or +0.0. -/
def vcmpFn (fn : Nat) (a b : W32) : W32 :=
  let x := f32v a
  let y := f32v b
  let r := match fn with
    | 0 => x.eqv y
    | 1 => x.lt y
    | 2 => x.le y
    | _ => !x.eqv y
  if r then one32 else 0

/-- VCMP. -/
def execVcmp (c : CtxId) (s : State) : Host.Outcome State Fault Refusal :=
  .next (vectorOp c 0x50 (fun st w => lanes2 (vcmpFn (fFN w)) (vA st w) (vB st w)) s)

/-- VSEL. -/
def execVsel (c : CtxId) (s : State) : Host.Outcome State Fault Refusal :=
  .next (vectorOp c 0x51 (fun st w =>
    Vector.ofFn (fun (i : Fin 64) => if (f32v (vC st w)[i]).isZero then (vB st w)[i] else (vA st w)[i])) s)

/-- The reduction of VRED. -/
def vredFn (fn : Nat) (a : Vector W32 64) : W32 :=
  match fn with
  | 0 => tree64 f32add a.toList
  | 1 => tree64 f32max a.toList
  | _ => tree64 f32min a.toList

/-- VRED. -/
def execVred (c : CtxId) (s : State) : Host.Outcome State Fault Refusal :=
  .next (vectorOp c 0x52 (fun st w =>
    Vector.ofFn (fun (i : Fin 64) => if i.val = 0 then vredFn (fFN w) (vA st w) else 0)) s)

/-- The NaN results of a lane function from inputs that are not NaN (9023:04). -/
def nanMade (xs ys : List W32) : Nat :=
  ((xs.zip ys).filter (fun p => !isNan32 p.1 && isNan32 p.2)).length

/-- A function of the shared function unit over the lanes. -/
def unitOp (c : CtxId) (op : Nat) (f : W32 → W32) (s : State) : State :=
  issueOp c op (fun st _ w s =>
    let r := (vA st w).map f
    let s := s.bump 0x9023 4 (nanMade (vA st w).toList r.toList)
    s.setStrand c (st.setV (fSD w) r).next) s

/-- VEXP2. -/
def execVexp2 (c : CtxId) (s : State) : Host.Outcome State Fault Refusal := .next (unitOp c 0x54 exp2F s)

/-- VLOG2. -/
def execVlog2 (c : CtxId) (s : State) : Host.Outcome State Fault Refusal := .next (unitOp c 0x55 log2F s)

/-- The values of converted blocks, held as FP32 (R85). -/
def blockValues (f : Nat) (b : BlockConv) : List W32 :=
  b.codes.map (fun c => round32 (applyScale (decodeElem f c) (if fmtScaled f || b.nanBlocks ≠ 0 then b.scale else 127)))

/-- VCVT: VC [4] selects stochastic rounding with the key k[VC [1:0]] and the descriptor t[VB [3:0]] (R99). -/
def execVcvt (c : CtxId) (s : State) : Host.Outcome State Fault Refusal :=
  .next (issueOp c 0x56 (fun st _ w s =>
    let f := fFN w
    let sr := w.getLsbD 40
    let key : BitVec 128 := st.k[((w.extractLsb' 36 2).toFin : Fin 4)]
    let tid := dTensorId (st.t[freg4 w 41])
    let base := st.s[fTSA w]
    let bs := convertRow f (vA st w).toList (fun i =>
      if sr then some (rngRand key tid 0 (base + BitVec.ofNat 64 i)) else none)
    let s := s.countBlocks f bs
    let vals := bs.flatMap (blockValues f)
    s.setStrand c (st.setV (fSD w) (Vector.ofFn (fun (i : Fin 64) => nth vals i 0))).next) s)

end Sys2Proof.Machine
end

