-- ==== Sys2Proof/Machine/Matrix.lean ====
section
/-! DEFINITION. Matrix and drain instructions (R68 to R70, R90 to R96, R104 to R109, R127) and the
soft-maximum step (R128, R129). -/
namespace Sys2Proof.Machine

open Sys2Proof

/-! ### Accumulator memory (R51) -/

/-- n columns of an accumulator row from a on, for a row whose first key is not below a; a column that is not
listed is +0.0. -/
def rowFill : KMap W32 → Nat → Nat → List W32
  | _, _, 0 => []
  | [], a, n + 1 => 0 :: rowFill [] (a + 1) n
  | (k, v) :: r, a, n + 1 =>
    if k = a then v :: rowFill r (a + 1) n else 0 :: rowFill ((k, v) :: r) (a + 1) n

/-- Columns [cb, cb + n) of a row. -/
def rowRead (row : KMap W32) (cb n : Nat) : List W32 := rowFill (row.dropWhile (fun x => x.1 < cb)) cb n

/-- Writes columns from cb; +0.0 is not listed. -/
def rowWrite (row : KMap W32) (cb : Nat) (vs : List W32) : KMap W32 :=
  row.filter (fun x => x.1 < cb) ++
    (vs.mapIdx (fun j v => (cb + j, v))).filter (fun x => x.2 != 0) ++
    row.filter (fun x => cb + vs.length ≤ x.1)

/-- A bank of a context: true the active one. -/
def Strand.bank (st : Strand) (active : Bool) : Vector (KMap W32) 64 :=
  if st.bankB == active then st.accB else st.accA

/-- Replaces a bank of a context. -/
def Strand.setBank (st : Strand) (active : Bool) (b : Vector (KMap W32) 64) : Strand :=
  if st.bankB == active then { st with accB := b } else { st with accA := b }

/-! ### Operands of MMA -/

/-- A block of 32 elements along K: values, block scale byte, and for the outlier path the entries
(position in the block, value). -/
structure MBlock where
  vals : List FVal
  scale : Nat
  outl : List (Nat × FVal)
deriving DecidableEq, Repr

/-- An operand of MMA: its width (0 narrow, 1 FP8, 2 BF16), its format, its rows of codes, the scales and the formats
of their blocks. -/
structure MOperand where
  width : Nat
  fmt : Nat
  codes : List (List Nat)
  scales : List (List Nat)
  fmts : List (List Nat)
  outl : List (Nat × Nat × Nat)
deriving DecidableEq, Repr

/-- A list cut into pieces of n, k of them. -/
def chunks {α : Type} (n : Nat) : Nat → List α → List (List α)
  | 0, _ => []
  | k + 1, l => l.take n :: chunks n k (l.drop n)

/-- The link that begins at a window offset and holds the range (R108). -/
def linkAt (links : List Link) (a n : Nat) : Option Link :=
  links.find? (fun l => l.start == a && a + n ≤ l.start + l.len)

/-- Whether a range overlaps a link that it does not match. -/
def linkMiss (links : List Link) (a n : Nat) : Bool :=
  links.any (fun l => l.start < a + n && a < l.start + l.len)

/-- An operand as it lies in the window, or as its link gives it (R108). -/
def readOperand (free : Nat) (st : Strand) (f rows k a : Nat) : MOperand :=
  let nb := k / 32
  match linkAt st.links a (matBytes f rows k) with
  | some l =>
    { width := l.width, fmt := if l.width = 0 then f else if l.width = 1 then 4 else 1,
      codes := chunks k rows l.codes, scales := chunks nb rows l.scales, fmts := chunks nb rows l.fmts,
      outl := (l.outliers.map (fun o =>
        let i := o.1 * l.cols + o.2.1
        (i / k, i % k, o.2.2))).filter (fun o => o.1 < rows) }
  | none =>
    let n := tileBytes f rows k
    let data := unpackN (fmtBits f) (winRead free st.win a n) (rows * k)
    let sc := if fmtScaled f then (winRead free st.win (a + up64 n) (rows * nb)).map BitVec.toNat
      else List.replicate (rows * nb) 127
    { width := 0, fmt := f, codes := chunks k rows data, scales := chunks nb rows sc,
      fmts := List.replicate rows (List.replicate nb f), outl := [] }

/-- Whether a format is FP8, with or without a block scale. -/
def fmtFp8 (f : Nat) : Bool := 2 ≤ f && f ≤ 5

/-- A code of a four-bit, INT4 or T2 format promoted into MXFP8 E4M3 (R108). -/
def toE4m3 (f c : Nat) : Nat :=
  match decodeElem f c with
  | .fin neg n d e =>
    let q := gridExp (fpLayout 4) n d e
    encodeFp (fpLayout 4) neg (roundQuot (quotAt n d e q) none) q
  | _ => 0x7F

/-- A code promoted into BF16: element × 2^(E − 127) (R108). -/
def toBf16 (f c scale : Nat) : Nat := roundIeee 1 (applyScale (decodeElem f c) scale)

/-- An operand promoted to a width; with it the promoted values beyond the BF16 range. -/
def promote (o : MOperand) (width : Nat) : MOperand × Nat :=
  if width ≤ o.width then (o, 0)
  else if width = 1 then
    (if fmtFp8 o.fmt then { o with width := 1 }
     else { o with width := 1, fmt := 4, codes := o.codes.map (·.map (toE4m3 o.fmt)),
                   fmts := o.fmts.map (·.map (fun _ => 4)) }, 0)
  else
    let blocks := o.codes.zip (o.scales.zip o.fmts)
    let rows := blocks.map (fun p =>
      p.1.mapIdx (fun i c => toBf16 (nth p.2.2 (i / 32) o.fmt) c (nth p.2.1 (i / 32) 127)))
    let sat := (blocks.map (fun p =>
      (p.1.mapIdx (fun i c =>
        let f := nth p.2.2 (i / 32) o.fmt
        let v := applyScale (decodeElem f c) (nth p.2.1 (i / 32) 127)
        if v.isFin && !(decodeElem 1 (toBf16 f c (nth p.2.1 (i / 32) 127))).isFin then 1 else 0)).sum)).sum
    ({ o with width := 2, fmt := 1, codes := rows, scales := o.scales.map (·.map (fun _ => 127)),
              fmts := o.fmts.map (·.map (fun _ => 1)) }, sat)

/-- Whether an operand holds E5M2 elements (R91). -/
def MOperand.e5m2 (o : MOperand) : Bool := o.fmts.any (·.any (fun f => f == 3 || f == 5))

/-- The blocks of one row. -/
def rowBlocks (o : MOperand) (i : Nat) (codes : List Nat) (scales fmts : List Nat) : List MBlock :=
  ((scales.zip fmts).zip (blocksOf scales.length codes)).mapIdx (fun b p =>
    { vals := p.2.map (decodeElem p.1.2), scale := p.1.1,
      outl := (o.outl.filter (fun x => x.1 = i && x.2.1 / 32 = b)).map
        (fun x => (x.2.1 % 32, decodeElem 1 x.2.2)) })

/-- The rows of an operand as blocks. -/
def operandRows (o : MOperand) : List (List MBlock) :=
  (o.codes.zip (o.scales.zip o.fmts)).mapIdx (fun i p => rowBlocks o i p.1 p.2.1 p.2.2)

/-! ### Block sums (R90 to R92) -/

/-- A product truncated to a multiple of 2^lsb, its sign kept; with it whether a non-zero bit was lost
(R91). -/
def truncTo (lsb : Int) (v : FVal) : FVal × Bool :=
  match v with
  | .fin neg n d e =>
    let q := quotAt n d e lsb
    (.fin neg q.1 1 lsb, q.2.1 ≠ 0)
  | v => (v, false)

/-- floor(log2) of the largest finite non-zero product. -/
def topExp (ps : List FVal) : Option Int :=
  ps.foldl (fun m v =>
    match v with
    | .fin _ n d e =>
      if n = 0 then m
      else
        let x := ratLog2 n d + e
        some (match m with | none => x | some y => max x y)
    | _ => m) none

/-- The block sum of R90 to R92; with it whether products were truncated. -/
def blockSum (aligned : Bool) (a b : MBlock) : FVal × Bool :=
  if a.scale = 0xFF || b.scale = 0xFF then (.nan, false)
  else
    let ps := (a.vals.zip b.vals).map (fun p => p.1.mul p.2)
    match aligned, topExp ps with
    | true, some p =>
      let ts := ps.map (truncTo (p - 41))
      (ts.foldl (fun s t => s.add t.1) FVal.zero, ts.any (·.2))
    | _, _ => (ps.foldl FVal.add FVal.zero, false)

/-- One rounded addition into an accumulator, and whether it overflows (R69, R96). -/
def accAdd (acc : W32) (x : FVal) : W32 × Bool :=
  let v := f32v acc
  let r := round32 (v.add x)
  (r, v.isFin && x.isFin && !(f32v r).isFin)

/-- What an accumulator element gathers: value, overflow, truncated blocks. -/
structure AccRes where
  val : W32
  ovf : Bool
  lost : Nat
deriving DecidableEq, Repr

/-- One block of R93. -/
def accBlock (aligned : Bool) (r : AccRes) (a b : MBlock) : AccRes :=
  let s := blockSum aligned a b
  let sa : Int := (a.scale : Int) - 127
  let sb : Int := (b.scale : Int) - 127
  let x := s.1.scale (sa + sb)
  let p0 := round32 x
  let o0 := x.isFin && !(f32v p0).isFin
  let p := a.outl.foldl (fun acc o =>
    let y := accAdd acc.1 ((o.2.mul (nth b.vals o.1 FVal.zero)).scale sb)
    (y.1, acc.2 || y.2)) (p0, o0)
  let z := accAdd r.val (f32v p.1)
  { val := z.1, ovf := r.ovf || p.2 || z.2, lost := r.lost + (if s.2 then 1 else 0) }

/-- One block of R94: products one at a time; an outlier entry adds right after the product of its k (DESIGN CHOICE,
log entry 69: R94 has no term for it). -/
def accBlockBf16 (r : AccRes) (a b : MBlock) : AccRes :=
  let step := fun (acc : W32 × Bool) (x : FVal) =>
    let y := accAdd acc.1 x
    (y.1, acc.2 || y.2)
  let z := ((a.vals.zip b.vals).mapIdx (fun k p => (k, p))).foldl (fun acc kp =>
    let acc := step acc (kp.2.1.mul kp.2.2)
    (a.outl.filter (fun o => o.1 = kp.1)).foldl (fun acc o => step acc (o.2.mul kp.2.2)) acc)
    (r.val, r.ovf)
  { r with val := z.1, ovf := z.2 }

/-- One accumulator element of an MMA. -/
def accElem (bf16 aligned : Bool) (init : W32) (a b : List MBlock) : AccRes :=
  (a.zip b).foldl (fun r p => if bf16 then accBlockBf16 r p.1 p.2 else accBlock aligned r p.1 p.2)
    { val := init, ovf := false, lost := 0 }

/-- T2 codes 0b10 in an operand (R84). -/
def t2Bad (o : MOperand) : Nat :=
  if o.fmt = 11 then (o.codes.map (fun r => (r.filter (fun c => c % 4 = 2)).length)).sum else 0

/-- MMA (R68 to R70, R90 to R96, R108); the range of A is checked before that of B (DESIGN CHOICE, log entry 66). -/
def execMma (c : CtxId) (s : State) : Host.Outcome State Fault Refusal :=
  .next (issueOp c 0x30 (fun st sl w s =>
    let tc := fTC w
    if tc.val ≠ 0 && st.tagEmpty.getLsbD tc.val then
      (s.setStrand c st.next).bump 0x9021 6 1
    else
      let n := fN w
      let k := fK w
      let cb := fCB w
      let fa := fFA w
      let fb := wbits w 36 4
      let aOff := (st.s[fTSA w]).toNat
      let bOff := (st.s[fTSB w]).toNat
      withRange c st sl aOff (matBytes fa 64 k) 64 (withRange c st sl bOff (matBytes fb n k) 64 (fun s =>
        let a0 := readOperand s.free st fa 64 k aOff
        let b0 := readOperand s.free st fb n k bOff
        let miss := fun (o f r a : Nat) =>
          if (linkAt st.links a (matBytes f r k)).isNone && linkMiss st.links a (matBytes f r k) then o else 0
        let width := max a0.width b0.width
        let a := promote a0 width
        let b := promote b0 width
        let bf16 := a.1.fmt = 1
        let aligned := a.1.e5m2 || b.1.e5m2
        let bRows := operandRows b.1
        let bank := st.bank true
        let zero := fFlag w 35
        let aRows := operandRows a.1
        let res : List (List AccRes) := aRows.mapIdx (fun i ar =>
          let init := if zero then List.replicate n 0 else rowRead (bank.toList.getD i []) cb n
          (init.zip bRows).map (fun p => accElem bf16 aligned p.1 ar p.2))
        if res.any (fun r => r.any (·.ovf)) then s.raisePc c st Config.errAccOverflow
        else
          let bank' := Vector.ofFn (fun (i : Fin 64) =>
            rowWrite bank[i] cb ((nth res i []).map (·.val)))
          let s := s.bump 0x9022 9 ((res.map (fun r => (r.map (·.lost)).sum)).sum)
          let s := s.bump 0x9022 1 (a.2 + b.2)
          let s := s.bump 0x9022 0xB (miss 1 fa 64 aOff + miss 1 fb n bOff)
          let s := s.bump 0x9022 0xD (t2Bad a0 + t2Bad b0)
          s.setStrand c (st.setBank true bank').next)) s) s)

/-- ACLR. -/
def execAclr (c : CtxId) (s : State) : Host.Outcome State Fault Refusal :=
  .next (pureOp c 0x31 (fun st _ w =>
    let active := !fFlag w 32
    let bank := st.bank active
    st.setBank active (bank.map (fun row => rowWrite row (fCB w) (List.replicate (fN w) 0)))) s)

/-- ASWAP. -/
def execAswap (c : CtxId) (s : State) : Host.Outcome State Fault Refusal :=
  .next (pureOp c 0x32 (fun st _ _ => { st with bankB := !st.bankB }) s)

/-! ### DRAIN -/

/-- The policy of a fallback command (R102), read once: none for a command whose LAYER is 0xFF. -/
structure Policy where
  enable : Bool
  mode : Nat
  satLimit : Nat
  flushLimit : Nat
  outlier : W32
  cap : Nat
deriving DecidableEq, Repr

/-- The policy that a command took at its first admission. -/
def CmdRun.fallback (r : CmdRun) : Option Policy :=
  if cLayer r.words = 0xFF then none
  else some { enable := nth r.policy 0 0 = 1, mode := nth r.policy 1 0, satLimit := nth r.policy 2 0,
              flushLimit := nth r.policy 3 0, outlier := BitVec.ofNat 32 (nth r.policy 4 0),
              cap := nth r.policy 5 0 }

/-- The element that DRAIN converts (R127). -/
def drainElem (biasOn scaleOn : Bool) (act : Nat) (acc bias scale : W32) : W32 :=
  let v :=
    if biasOn && scaleOn then f32fma acc scale bias
    else if scaleOn then f32mul acc scale
    else if biasOn then f32add acc bias
    else acc
  activation act v

/-- A converted tile: blocks row by row. -/
def convertTile (f : Nat) (rows : List (List W32)) (rnd : Nat → Nat → Option Nat) : List BlockConv :=
  (rows.mapIdx (fun r vs => convertRow f vs (rnd r))).flatten

/-- The bytes of a converted tile: elements, then the block scales at the next 64-byte boundary. -/
def tileBytesOf (f : Nat) (bs : List BlockConv) : List Byte :=
  let d := packN (fmtBits f) (bs.flatMap (·.codes))
  if fmtScaled f then
    d ++ List.replicate (up64 d.length - d.length) 0 ++ bs.map (fun b => BitVec.ofNat 8 b.scale)
  else d

/-- Whether a tile of 64 × N trips (R104). -/
def trips (p : Policy) (n : Nat) (bs : List BlockConv) : Bool :=
  p.satLimit * 64 * n < (bs.map (·.saturated)).sum * 65536 ||
  p.flushLimit * 64 * n < (bs.map (·.flushed)).sum * 65536

/-- The qualifying elements of the outlier path in ascending row and column (R105): row, column, value. -/
def outliersOf (limit : W32) (rows : List (List W32)) : List (Nat × Nat × W32) :=
  if !(f32v limit).isFin then []
  else (rows.mapIdx (fun r vs =>
    (vs.mapIdx (fun j v => (r, j, v))).filter (fun x =>
      (f32v x.2.2).isFin && (f32v limit).le (f32v x.2.2).abs))).flatten

/-- A tile with some elements replaced by +0.0. -/
def clearAt (rows : List (List W32)) (os : List (Nat × Nat × W32)) : List (List W32) :=
  rows.mapIdx (fun r vs =>
    let here := os.filter (fun o => o.1 = r)
    if here.isEmpty then vs else vs.mapIdx (fun j v => if here.any (fun o => o.2.1 = j) then 0 else v))

/-- What the widening of a fallback tile decides (R105, R106). -/
structure Widened where
  narrow : List BlockConv
  extra : List BlockConv
  width : Nat
  wide : List BlockConv
  outl : List (Nat × Nat × W32)
  overflow : Bool
  tripped : Bool
  sat16 : Nat
deriving DecidableEq, Repr

/-- The widening of a fallback tile: `start` 0 NARROW, 1 FP8, 2 BF16. -/
def widen (p : Policy) (start f n : Nat) (rows : List (List W32)) (rnd : Nat → Nat → Option Nat) : Widened :=
  let qual := if f = 8 || f = 10 then outliersOf p.outlier rows else []
  let outl := qual.take p.cap
  let overflow := p.cap < qual.length
  let narrowRows := clearAt rows outl
  let wideRows := if overflow then rows else narrowRows
  let narrow := convertTile f narrowRows rnd
  let tripN := trips p n narrow
  if !p.enable then
    { narrow := narrow, extra := [], width := 0, wide := narrow, outl := outl, overflow := overflow,
      tripped := tripN, sat16 := 0 }
  else
    let toFp8 := start = 1 || (start = 0 && (f = 8 || f = 10) && (tripN || overflow))
    let fp8 := if toFp8 then convertTile 4 wideRows rnd else []
    let trip8 := toFp8 && trips p n fp8
    let toBf := start = 2 || trip8 || (start = 0 && !(f = 8 || f = 10) && tripN)
    let bf := if toBf then convertTile 1 wideRows rnd else []
    { narrow := narrow, extra := fp8 ++ bf, width := if toBf then 2 else if toFp8 then 1 else 0,
      wide := if toBf then bf else if toFp8 then fp8 else narrow,
      outl := if overflow then [] else outl, overflow := overflow,
      tripped := (start = 0 && tripN) || trip8,
      sat16 := (bf.filter (fun b => b.saturated ≠ 0)).length }

/-- The format of the codes of a tile of format f at a width (R106). -/
def wideFmt (f width : Nat) : Nat := if width = 0 then f else if width = 1 then 4 else 1

/-- The width that a rerun of the command begins at, if this tile asks for one (R111). -/
def rerunWidth (p : Policy) (r : CmdRun) (x : Widened) : Option Nat :=
  if p.enable && r.reruns < 2 && ((p.mode = 1 && x.tripped) || x.overflow) then
    some (if x.width = 2 || r.reruns ≠ 0 then 2 else 1)
  else none

/-- DRAIN (R68, R105, R106, R127); the range of the tile is checked before that of bias and scale (DESIGN CHOICE, log
entry 66). -/
def execDrain (c : CtxId) (s : State) : Host.Outcome State Fault Refusal :=
  .next (issueOp c 0x33 (fun st sl w s =>
    let n := fN w
    let cb := fCB w
    let f := fFA w
    let act := (fTA w).val
    let biasOn := fFlag w 39
    let scaleOn := fFlag w 38
    let nv := (if biasOn then n else 0) + (if scaleOn then n else 0)
    let off := (st.s[fTSA w]).toNat
    let src := (st.s[fTSB w]).toNat
    let len := matBytes f 64 n
    let body := fun (s : State) =>
      let vals := if nv = 0 then [] else
        (unpackN 32 (winRead s.free st.win src (4 * nv)) nv).map (fun v => BitVec.ofNat 32 v)
      let bias := vals.take n
      let scale := if biasOn then vals.drop n else vals
      let bank := st.bank false
      let accs := bank.toList.map (fun row => rowRead row cb n)
      let post := fun (vs : List W32) => vs.mapIdx (fun j a =>
        drainElem biasOn scaleOn act a (nth bias j 0) (nth scale j 0))
      let rows := accs.map post
      let pre := accs.map (fun vs => vs.mapIdx (fun j a =>
        drainElem biasOn scaleOn 0 a (nth bias j 0) (nth scale j 0)))
      let made := ((pre.zip rows).map (fun p => nanMade p.1 p.2)).sum
      let sr := fFlag w 37
      let key := st.k[((w.extractLsb' 35 2).toFin : Fin 4)]
      let tid := dTensorId st.t[fTC w]
      let c1 := BitVec.ofNat 64 (64 * st.strand)
      let c0 := st.s[((fTSB w) ||| 1 : Fin 32)]
      let rnd := fun (r j : Nat) =>
        if sr then some (rngRand key tid (c1 + BitVec.ofNat 64 r) (c0 + BitVec.ofNat 64 j)) else none
      let s := s.bump 0x9023 4 made
      let pol := (s.run st.ref.t st.ref.q).bind (fun r => r.fallback.map (fun p => (r, p)))
      let tile := f = 2 || f = 3 || f = 4 || f = 5 || f = 8 || f = 10
      match pol, tile with
      | some (r, p), true =>
        let x := widen p r.wideStart f n rows rnd
        let s := s.countBlocks f (x.narrow ++ x.extra)
        let s := s.bump 0x9022 4 (if x.width = 1 then 1 else 0)
        let s := s.bump 0x9022 5 (if x.width = 2 then 1 else 0)
        let s := s.bump 0x9022 6 x.outl.length
        let s := s.bump 0x9022 7 (if x.overflow then 1 else 0)
        let s := s.bump 0x9022 0xC x.sat16
        let st' := (st.store off (tileBytesOf f x.narrow)).next
        let outl := x.outl.map (fun o => (o.1, o.2.1, roundIeee 1 (f32v o.2.2)))
        let link : List Link := if x.width = 0 && outl.isEmpty then [] else
          [{ start := off, len := len, rows := 64, cols := n, width := x.width,
             codes := x.wide.flatMap (·.codes), scales := x.wide.map (·.scale),
             fmts := x.wide.map (fun _ => wideFmt f x.width), outliers := outl }]
        let s := s.modRun st.ref.t st.ref.q (fun r =>
          { r with
            tiles := if x.width = 0 && outl.isEmpty then r.tiles else
              r.tiles ++ [{ strand := st.strand, slice := st.ref.idx, ordinal := st.ordinal, width := x.width,
                            overflow := x.overflow, outliers := !outl.isEmpty }]
            rerunReq := match r.rerunReq, rerunWidth p r x with
              | some a, some b => some (max a b)
              | none, b => b
              | a, none => a })
        s.setStrand c { st' with links := st'.links ++ link, ordinal := st.ordinal + 1 }
      | _, _ =>
        let bs := convertTile f rows rnd
        let s := s.countBlocks f bs
        let st' := (st.store off (tileBytesOf f bs)).next
        s.setStrand c { st' with ordinal := st.ordinal + 1 }
    withRange c st sl off len 1
      (if nv = 0 then body else withRange c st sl src (4 * nv) 1 body) s) s)

/-! ### SMX (R128, R129) -/

/-- What SMX makes of one row. -/
structure SmxRow where
  m : W32
  l : W32
  corr : W32
  blocks : List BlockConv
  empty : Bool
  bad : Bool
deriving DecidableEq, Repr

/-- One row of SMX. -/
def smxRow (f : Nat) (accs : List W32) (lim sigma mOld lOld : W32) : SmxRow :=
  let n := accs.length
  let limv := f32v lim
  let t : List (Option W32) := accs.mapIdx (fun j a =>
    if (FVal.ofInt j 0).lt limv then some (f32mul a sigma) else none)
  let adm := t.filterMap id
  let isBad := fun (x : W32) => isNan32 x || x == inf32
  if adm.any isBad || isBad mOld then
    { m := nan32, l := nan32, corr := nan32, blocks := convertRow f (List.replicate n nan32) (fun _ => none),
      empty := adm.isEmpty, bad := true }
  else
    let mNew := adm.foldl f32max mOld
    if mNew = ninf32 then
      { m := mNew, l := lOld, corr := one32, blocks := convertRow f (List.replicate n 0) (fun _ => none),
        empty := adm.isEmpty, bad := false }
    else
      let corr := exp2F (f32sub mOld mNew)
      let p := t.map (fun x => match x with | some v => exp2F (f32sub v mNew) | none => 0)
      let bs := convertRow f p (fun _ => none)
      let vals := bs.flatMap (blockValues f)
      let sum := (chunks 64 (n / 64) vals).foldl (fun acc g => f32add acc (tree64 f32add g)) 0
      { m := mNew, l := f32fma lOld corr sum, corr := corr, blocks := bs, empty := adm.isEmpty, bad := false }

/-- SMX; of registers that its operands name twice, the sums are written after the maxima and the correction factors
last (DESIGN CHOICE, log entry 68). -/
def execSmx (c : CtxId) (s : State) : Host.Outcome State Fault Refusal :=
  .next (issueOp c 0x58 (fun st sl w s =>
    let f := fFN w
    let n := fSmxN w
    let off := (st.s[fTSA w]).toNat
    withRange c st sl off (matBytes f 64 n) 1 (fun s =>
      let sigma := (st.s[fSmxSigma w]).setWidth 32
      let bank := st.bank false
      let rows : Vector SmxRow 64 := Vector.ofFn (fun (i : Fin 64) =>
        smxRow f (rowRead bank[i] (fSmxCB w) n) (vA st w)[i] sigma st.v[fSD w][i] (vB st w)[i])
      let bs := rows.toList.flatMap (·.blocks)
      let s := s.countBlocks f bs
      let s := s.bump 0x9023 2 (rows.toList.filter (·.empty)).length
      let s := s.bump 0x9023 3 (rows.toList.filter (·.bad)).length
      let st' := st.store off (tileBytesOf f bs)
      let st' := ((st'.setV (fSD w) (rows.map (·.m))).setV (fSB w) (rows.map (·.l))).setV (fVC w)
        (rows.map (·.corr))
      s.setStrand c st'.next) s) s)

end Sys2Proof.Machine
end

