-- ==== Sys2Proof/Machine/Tiles.lean ====
section
/-! DEFINITION. Tile instructions (R68, R73): TLOAD, TSTORE and TACC, with the wide shadows of R109 and the
staging of R40, R41, R201; and the end of an asynchronous load (R66). -/
namespace Sys2Proof.Machine

open Sys2Proof

/-- A tile of a tensor as a tile instruction names it. -/
structure TileRef where
  d : BitVec 512
  rows : Nat
  cols : Nat
  sc : Bool
  o : Nat × Nat × Nat × Nat
  off : Nat
deriving DecidableEq, Repr

/-- The tile that a TLOAD, TSTORE or TACC names; its origins are unsigned (DESIGN CHOICE, log entry 65). -/
def tileRef (st : Strand) (w : W64) : TileRef :=
  let d := st.t[fTA w]
  let r := fun (n : Fin 4) => (st.s[(fTSA w + ⟨n.val, by omega⟩ : Fin 32)]).toNat
  { d := d, rows := fRows w, cols := fCols w, sc := fSC w && fmtScaled (dFmt d),
    o := (r 0, r 1, r 2, r 3), off := (st.s[fTSB w]).toNat }

/-- The bytes that the tile occupies in the window. -/
def TileRef.bytes (x : TileRef) : Nat := tileBytesSc (dFmt x.d) x.rows x.cols x.sc

/-- Whether the tile lies wholly beyond an effective size (R73). -/
def TileRef.beyond (x : TileRef) (lens : List Nat) : Bool :=
  effSize x.d lens 0 ≤ x.o.1 || effSize x.d lens 1 ≤ x.o.2.1 ||
  effSize x.d lens 2 ≤ x.o.2.2.1 || effSize x.d lens 3 ≤ x.o.2.2.2

/-- The rows within the effective size. -/
def TileRef.vrows (x : TileRef) (lens : List Nat) : Nat := min x.rows (effSize x.d lens 1 - x.o.2.1)

/-- The columns within the effective size. -/
def TileRef.vcols (x : TileRef) (lens : List Nat) : Nat := min x.cols (effSize x.d lens 0 - x.o.1)

/-- The address of row r of the tile. -/
def TileRef.rowAddr (x : TileRef) (r : Nat) : Nat :=
  dBitAddr x.d x.o.1 (x.o.2.1 + r) x.o.2.2.1 x.o.2.2.2 / 8

/-- The address of the scales of row r of the tile. -/
def TileRef.scaleAddr (x : TileRef) (r : Nat) : Nat :=
  dScaleAddr x.d x.o.1 (x.o.2.1 + r) x.o.2.2.1 x.o.2.2.2

/-- Bits per element. -/
def TileRef.b (x : TileRef) : Nat := fmtBits (dFmt x.d)

/-- The ranges of memory that the tile touches: the rows, then the scales when they move. -/
def TileRef.ranges (x : TileRef) (lens : List Nat) : List (Nat × Nat) :=
  let vr := List.range (x.vrows lens)
  let vc := x.vcols lens
  vr.map (fun r => (x.rowAddr r, ceilDiv (vc * x.b) 8)) ++
    (if x.sc then vr.map (fun r => (x.scaleAddr r, ceilDiv vc 32)) else [])

/-- The address that a failed access of a slice reports: of an evicted page the page's own (R183), else that of the first
byte it cannot reach. -/
def accessAddress (x : Nat × Nat) : Nat × Nat :=
  (if x.2 = Config.errPageEvicted then pageOf x.1 * Config.pageBytes else x.1, x.2)

/-- The first unreachable address of a list of ranges. -/
def checkRanges (reach : Nat → Reach) (l : List (Nat × Nat)) : Option (Nat × Nat) :=
  (l.findSome? (fun x => checkRange reach x.1 x.2)).map accessAddress

/-- The pages of a list of ranges. -/
def rangePages (l : List (Nat × Nat)) : List Nat := (l.flatMap (fun x => pagesOf x.1 x.2)).eraseDups

/-- The checks that a tile instruction makes before its pages (R63, R67, R68): its descriptor, the origin of a
block-scaled format, the window range, of a tile wholly beyond too (DESIGN CHOICE, log entry 66). -/
def withTile (c : CtxId) (st : Strand) (sl : Slice) (x : TileRef) (body : State → State) (s : State) : State :=
  if !descValid x.d then s.raisePc c st Config.errDescriptorInvalid
  else if fmtScaled (dFmt x.d) && x.o.1 % 32 ≠ 0 then s.raisePc c st Config.errIllegalInstruction
  else withRange c st sl x.off x.bytes 64 body s

/-! ### Wide shadows (R109) -/

/-- The wide block that a slice sees at an address. -/
def State.wideAt (s : State) (ref : SliceRef) (a : Nat) : Option WideBlock :=
  match s.reachSlice ref (pageOf a) with
  | .frame f => ((kget s.mem.shadows f).getD []).find? (fun b => b.offset == a % Config.pageBytes)
  | .error _ => none

/-- The byte address of block k of row r. -/
def TileRef.blockAddr (x : TileRef) (r k : Nat) : Nat := x.rowAddr r + k * fmtB32 (dFmt x.d)

/-- A block of a link at a width, from a narrow block or a wide one: its codes, its scale and their format (R108, R109). -/
def linkBlock (width f : Nat) (codes : List Nat) (scale : Nat) (wb : Option WideBlock) : List Nat × Nat × Nat :=
  let src := match wb with
    | some b => if b.width = 0 then (0, f, codes, scale) else (b.width, b.fmt, b.codes, b.scale)
    | none => (0, f, codes, scale)
  if width ≤ src.1 || (width = 1 && fmtFp8 src.2.1) then (src.2.2.1, src.2.2.2, src.2.1)
  else if width = 1 then (src.2.2.1.map (toE4m3 src.2.1), src.2.2.2, 4)
  else (src.2.2.1.map (fun c => toBf16 src.2.1 c src.2.2.2), 127, 1)

/-- The link that a TLOAD makes when a block of its tile has a wide shadow (R109). -/
def State.loadLink (s : State) (ref : SliceRef) (lens : List Nat) (x : TileRef) (codes scales : List (List Nat)) :
    Option Link :=
  let nb := x.cols / 32
  let vr := x.vrows lens
  let vb := ceilDiv (x.vcols lens) 32
  let found := (List.range vr).flatMap (fun r => (List.range vb).filterMap (fun k =>
    (s.wideAt ref (x.blockAddr r k)).map (fun b => (r, k, b))))
  if found.isEmpty then none
  else
    let width := found.foldl (fun m y => max m y.2.2.width) 0
    let blocks := (codes.zip scales).mapIdx (fun r p =>
      (p.2.zip (blocksOf nb p.1)).mapIdx (fun k q =>
        linkBlock width (dFmt x.d) q.2 q.1
          ((found.find? (fun y => y.1 == r && y.2.1 == k)).map (·.2.2))))
    let all := blocks.flatten
    some { start := x.off, len := x.bytes, rows := x.rows, cols := x.cols, width := width,
           codes := all.flatMap (·.1), scales := all.map (·.2.1), fmts := all.map (·.2.2),
           outliers := found.flatMap (fun y => y.2.2.outliers.map (fun o => (y.1, 32 * y.2.1 + o.1, o.2))) }

/-! ### TLOAD (R68, R73, R172, R176) -/

/-- The bytes that a TLOAD writes, with the codes and scales of each row; zeros fill the gap before the scales (DESIGN
CHOICE, log entry 67). -/
def State.loadTile (s : State) (ref : SliceRef) (lens : List Nat) (x : TileRef) :
    List Byte × List (List Nat) × List (List Nat) :=
  let reach := s.reachSlice ref
  let vr := x.vrows lens
  let vc := x.vcols lens
  let nb := x.cols / 32
  let rows := (List.range x.rows).map (fun r =>
    if r < vr then
      unpackN x.b (s.readVia reach (x.rowAddr r) (ceilDiv (vc * x.b) 8)) vc ++ List.replicate (x.cols - vc) 0
    else List.replicate x.cols 0)
  let vb := ceilDiv vc 32
  let scales := (List.range x.rows).map (fun r =>
    if !fmtScaled (dFmt x.d) || vr ≤ r then List.replicate nb 0x7F
    else (s.readVia reach (x.scaleAddr r) vb).map BitVec.toNat ++ List.replicate (nb - vb) 0x7F)
  let data := packN x.b rows.flatten
  let bytes := if x.sc then
      data ++ List.replicate (up64 data.length - data.length) 0 ++ scales.flatten.map (BitVec.ofNat 8)
    else data
  (bytes, rows, scales)

/-- A read marks its pages, counts misses once for each page and slice, and remote reads (R170, R172, R176). -/
def State.noteReads (s : State) (c : CtxId) (ref : SliceRef) (pages : List Nat) : State :=
  let e := dieOf c.core.val
  s.each pages (fun s v =>
    let s := s.touch ref.t v
    let s := s.bump 0x9025 0xA (if s.remoteRead ref.t v e then 1 else 0)
    let seen := ((s.slice ref).map (fun sl => sl.missed.contains v)).getD true
    if s.dueUnstaged v && !seen then
      (s.modSlice ref (fun sl => { sl with missed := v :: sl.missed })).bump 0x9025 1 1
    else s)

/-- The strand with the empty flag of a tag: that of tag 0 is not kept (R66). -/
def Strand.noteEmpty (st : Strand) (tag : Nat) (empty : Bool) : Strand :=
  if tag = 0 then st
  else { st with tagEmpty := if empty then st.tagEmpty ||| (1#16 <<< tag) else st.tagEmpty &&& ~~~(1#16 <<< tag) }

/-- TLOAD: the load is asynchronous; TLOAD_DONE defines its destination. The tag's empty flag is that of its most recent
TLOAD from the issue on (R66). -/
def execTload (c : CtxId) (s : State) : Host.Outcome State Fault Refusal :=
  .next (issueOp c 0x28 (fun st sl w s =>
    let x := tileRef st w
    withTile c st sl x (fun s =>
      let tag := (fTC w).val
      if x.beyond sl.lens then
        let a : AsyncLoad := { tag := tag, dest := x.off, bytes := [], ready := true, link := none, piece := none }
        (s.setStrand c { st.next.noteEmpty tag true with async := st.async ++ [a] }).bump 0x9021 5 1
      else
        let ranges := x.ranges sl.lens
        match checkRanges (s.reachSlice st.ref) ranges with
        | some (a, e) => s.raise c st e (BitVec.ofNat 64 a)
        | none =>
          let r := s.loadTile st.ref sl.lens x
          let a : AsyncLoad := { tag := tag, dest := x.off, bytes := r.1, ready := true,
                                 link := s.loadLink st.ref sl.lens x r.2.1 r.2.2, piece := none }
          (s.setStrand c { st.next.noteEmpty tag false with async := st.async ++ [a] }).noteReads c st.ref
            (rangePages ranges)) s) s)

/-- The tags that an asynchronous load still holds. -/
def Strand.busyTags (st : Strand) : BitVec 16 :=
  st.async.foldl (fun m a => m ||| (1#16 <<< a.tag)) 0

/-- A context goes on once no load that its TWAIT names is in progress (R52, R66). -/
def Strand.settle (st : Strand) : Strand := { st with waiting := st.waiting &&& st.busyTags }

/-- TLOAD_DONE: load `which` of the context, in issue order, completes: its destination becomes defined (R66). -/
def execTloadDone (c : CtxId) (which : Nat) (s : State) : Host.Outcome State Fault Refusal :=
  .next (match s.strand c with
    | none => s
    | some st =>
      match st.async[which]? with
      | none => s
      | some a =>
        if a.ready then
          let st := { st with async := st.async.eraseIdx which }
          let st := if a.bytes.isEmpty then st else st.store a.dest a.bytes
          let st := { st with links := st.links ++ a.link.toList }
          s.setStrand c st.settle
        else s)

/-- TWAIT: the context waits for the loads whose tags IMM names. -/
def execTwait (c : CtxId) (s : State) : Host.Outcome State Fault Refusal :=
  .next (pureOp c 0x05 (fun st _ w => { st with waiting := (fImm w).setWidth 16 &&& st.busyTags }) s)

/-! ### TSTORE -/

/-- The frame of a page of the slice's own output list. -/
def Slice.outFrame (sl : Slice) (v : Nat) : Option Nat := freshOf sl.fresh v

/-- The first address of a list of ranges outside the slice's output pages, with its error (R68, R390). -/
def State.foreignAddr (s : State) (sl : Slice) (l : List (Nat × Nat)) : Option (Nat × Nat) :=
  checkRanges (fun v =>
    match sl.outFrame v with
    | some f => .frame f
    | none =>
      .error (if inModelWindow v && !s.mem.model.sealedNow then Config.errModelAbsent else Config.errPageForeign)) l

/-- Replaces nbits bits of packed bytes by codes: the bytes of a row after a store of its valid elements. -/
def mergeRow (b : Nat) (old : List Byte) (codes : List Nat) : List Byte :=
  let n := codes.length * b
  leBytes old.length (ofLe old / 2 ^ n * 2 ^ n + packNat b codes)

/-- The wide blocks of a frame after the blocks at some offsets have been replaced. -/
def replaceWide (old : List WideBlock) (offs : List Nat) (new : List WideBlock) : List WideBlock :=
  old.filter (fun b => !offs.contains b.offset) ++ new

/-- The frames that the wide shadow of a page takes: its wide blocks' bytes, in whole frames, at most four. -/
def shadowFrames (l : List WideBlock) : Nat :=
  if l.isEmpty then 0
  else min 4 (max 1 (ceilDiv ((l.map (fun b => if b.width = 2 then 64 else 33)).sum) Config.pageBytes))

/-- The bytes that a link takes: codes of 8 or 16 bits, block scales, outliers. -/
def Link.bytes (l : Link) : Nat :=
  l.codes.length * (if l.width = 1 then 1 else 2) + l.scales.length + 6 * l.outliers.length

/-- The bytes of the links that split slices of Tt keep with their saved states (R110). -/
def State.linkUse (s : State) (t : Fin 4) : Nat :=
  (allQ.map (fun q =>
    match s.run t q with
    | none => 0
    | some r => (r.slices.map (fun sl => (sl.saved.map (fun x => (x.2.links.map Link.bytes).sum)).sum)).sum)).sum

/-- Whether the fallback reserve and the stacked quota of Tt hold n more shadow frames beside n' other stacked frames
(R109, R181). -/
def State.shadowFits (s : State) (t : Fin 4) (n n' : Nat) : Bool :=
  s.shadowUse t + n + ceilDiv (s.linkUse t) Config.pageBytes ≤ ceilDiv (s.odt t 0xA050 1) 2 && s.stackedUse t + n + n' ≤ s.quota t 2

/-- Gives the shadow of a page frame the frames it needs, within the fallback reserve and the stacked quota
(R109, R181); none when they do not fit. -/
def State.growShadow (s : State) (t : Fin 4) (frame need stack : Nat) : Option State :=
  let rec go : Nat → State → Option State
    | 0, s => some s
    | k + 1, s =>
      if !s.shadowFits t 1 0 then none
      else
        match s.takeFrame stack (.shadow t) with
        | none => none
        | some (f, s) => go k { s with mem := { s.mem with shadowOwner := kset s.mem.shadowOwner f frame } }
  go (need - s.shadowCount frame) s

/-- The stack of a save area or wide shadow: the home of the first page of an output list (R168). -/
def State.auxStack (s : State) (t : Fin 4) (outs : List (Nat × Bool)) : Nat :=
  match outs.head? with
  | none => s.stack0
  | some (v, _) =>
    match s.reachCommitted t v with
    | .frame f => stackOfFrame f
    | .error _ => s.stack0

/-- Replaces wide blocks at addresses of a slice's output pages (none: the block has become narrow); the address of
the first page whose shadow does not fit otherwise (R109). -/
def State.putShadow (s : State) (ref : SliceRef) (sl : Slice) (news : List (Nat × Option WideBlock)) :
    Except Nat State :=
  let pages := (news.map (fun y => pageOf y.1)).eraseDups
  pages.foldl (fun acc v =>
    match acc with
    | .error e => .error e
    | .ok s =>
      match sl.outFrame v with
      | none => .ok s
      | some f =>
        let here := news.filter (fun y => pageOf y.1 == v)
        let l := replaceWide ((kget s.mem.shadows f).getD []) (here.map (fun y => y.1 % Config.pageBytes))
          (here.filterMap (·.2))
        if l.isEmpty then .ok (s.dropShadow f)
        else
          match s.growShadow ref.t f (shadowFrames l) (s.auxStack ref.t sl.outs) with
          | none => .error (v * Config.pageBytes)
          | some s => .ok { s with mem := { s.mem with shadows := kset s.mem.shadows f l } }) (.ok s)

/-- Writes the wide blocks of a stored tile into the shadows of its pages; the address of the first page whose
shadow does not fit otherwise. -/
def State.storeShadow (s : State) (ref : SliceRef) (sl : Slice) (x : TileRef) (link : Option Link) :
    Except Nat State :=
  let vr := x.vrows sl.lens
  let vb := ceilDiv (x.vcols sl.lens) 32
  let nb := x.cols / 32
  let f := dFmt x.d
  let cells := (List.range vr).flatMap (fun r => (List.range vb).map (fun k => (r, k, x.blockAddr r k)))
  let news := cells.map (fun y =>
    let i := y.1 * nb + y.2.1
    (y.2.2, link.bind (fun l =>
      let os := (l.outliers.filter (fun o =>
        let j := o.1 * l.cols + o.2.1
        j / 32 = i)).map (fun o => (o.2.1 % 32, o.2.2))
      if l.width = 0 && os.isEmpty then none
      else some { offset := y.2.2 % Config.pageBytes, width := l.width,
                  codes := if l.width = 0 then [] else (l.codes.drop (32 * i)).take 32,
                  scale := nth l.scales i 127, fmt := nth l.fmts i f, outliers := os : WideBlock })))
  s.putShadow ref sl news

/-- Marks output pages as stored to. -/
def markStored (l : List FreshPage) (pages : List Nat) : List FreshPage :=
  l.map (fun p => if pages.contains p.vpage then { p with stored := true } else p)

/-- TSTORE. -/
def execTstore (c : CtxId) (s : State) : Host.Outcome State Fault Refusal :=
  .next (issueOp c 0x29 (fun st sl w s =>
    let x := tileRef st w
    withTile c st sl x (fun s =>
      if x.beyond sl.lens then s.setStrand c st.next
      else
        let ranges := x.ranges sl.lens
        match s.foreignAddr sl ranges with
        | some (a, e) => s.raise c st e (BitVec.ofNat 64 a)
        | none =>
          let link := st.links.find? (fun l => l.start == x.off && l.len == x.bytes)
          let miss := link.isNone && linkMiss st.links x.off x.bytes
          match s.storeShadow st.ref sl x link with
          | .error a => s.raise c st Config.errFallbackSpace (BitVec.ofNat 64 a)
          | .ok s' =>
            let vr := x.vrows sl.lens
            let vc := x.vcols sl.lens
            let f := dFmt x.d
            let rowB := tileBytes f 1 x.cols
            let nb := x.cols / 32
            let scOff := up64 (tileBytes f x.rows x.cols)
            let reach := s.reachSlice st.ref
            let s' := s'.each (List.range vr) (fun s' r =>
              let codes := unpackN x.b (winRead s.free st.win (x.off + r * rowB) rowB) vc
              let old := s'.readVia reach (x.rowAddr r) (ceilDiv (vc * x.b) 8)
              let s' := s'.writeVia sl.outFrame (x.rowAddr r) (mergeRow x.b old codes)
              if x.sc then
                s'.writeVia sl.outFrame (x.scaleAddr r)
                  (winRead s.free st.win (x.off + scOff + r * nb) (ceilDiv vc 32))
              else s')
            let s' := s'.modSlice st.ref (fun sl =>
              { sl with fresh := markStored sl.fresh (rangePages ranges) })
            (s'.setStrand c st.next).bump 0x9022 0xB (if miss then 1 else 0)) s) s)

/-! ### TACC (R40, R41, R201) -/

/-- Whether a command commits as a unit (R103). -/
def CmdRun.asUnit (r : CmdRun) : Bool := cLayer r.words ≠ 0xFF

/-- Whether the staged contributions of a command touch a page. -/
def CmdRun.stages (r : CmdRun) (v : Nat) : Bool := r.staged.any (fun x => x.vpage == v)

/-- Whether a held cell has had all its contributions and been folded: it is released at step 8. -/
def Cell.folded (k : Cell) : Bool := k.kind == 2 && k.count == k.expect

/-- Whether a bound cell of a command that has not folded has its destination in a page (R192). -/
def CmdRun.binds (r : CmdRun) (v : Nat) : Bool :=
  (r.held ++ r.slices.flatMap (·.working)).any (fun k => k.bound && !k.folded && pageOf k.dest == v)

/-- Whether a command of Tt other than queue q meets a test. -/
def State.otherRun (s : State) (t : Fin 4) (q : Fin 64) (p : CmdRun → Bool) : Bool :=
  allQ.any (fun i => i != q && ((s.run t i).map p).getD false)

/-- Whether any command of Tt meets a test. -/
def State.anyRun (s : State) (t : Fin 4) (p : CmdRun → Bool) : Bool :=
  allQ.any (fun i => ((s.run t i).map p).getD false)

/-- Adds a contribution of a slice to a page, after those it has already staged. -/
def addStaged (l : List Staged) (slice vpage fmt : Nat) (elems : List (Nat × W32)) : List Staged :=
  if l.any (fun x => x.slice == slice && x.vpage == vpage && x.fmt == fmt) then
    l.map (fun x => if x.slice == slice && x.vpage == vpage && x.fmt == fmt then
      { x with elems := x.elems ++ elems } else x)
  else l ++ [{ slice := slice, vpage := vpage, fmt := fmt, elems := elems, committed := false }]

/-- TACC: the elements within the effective sizes are staged, page by page. -/
def execTacc (c : CtxId) (s : State) : Host.Outcome State Fault Refusal :=
  .next (issueOp c 0x2A (fun st sl w s =>
    let x := tileRef st w
    if descValid x.d && 2 ≤ dFmt x.d then s.raisePc c st Config.errDescriptorInvalid
    else withTile c st sl x (fun s =>
      if x.beyond sl.lens then s.setStrand c st.next
      else
        let ranges := x.ranges sl.lens
        match s.foreignAddr sl ranges with
        | some (a, e) => s.raise c st e (BitVec.ofNat 64 a)
        | none =>
          let pages := rangePages ranges
          match pages.find? (fun v =>
            s.otherRun st.ref.t st.ref.q (·.stages v) || s.anyRun st.ref.t (·.binds v)) with
          | some v => s.raise c st Config.errAccumConflict (BitVec.ofNat 64 (v * Config.pageBytes))
          | none =>
            let f := dFmt x.d
            let eb := x.b / 8
            let rowB := tileBytes f 1 x.cols
            let vc := x.vcols sl.lens
            let elems := (List.range (x.vrows sl.lens)).flatMap (fun r =>
              (unpackN x.b (winRead s.free st.win (x.off + r * rowB) (vc * eb)) vc).mapIdx (fun j code =>
                (x.rowAddr r + j * eb, BitVec.ofNat 32 code)))
            let s := s.modRun st.ref.t st.ref.q (fun r =>
              { r with staged := pages.foldl (fun l v =>
                  addStaged l st.ref.idx v f (elems.filter (fun e => pageOf e.1 == v))) r.staged })
            let s := s.each pages (fun s v => s.touch st.ref.t v)
            s.setStrand c st.next) s) s)

end Sys2Proof.Machine
end

