-- ==== Sys2Proof/Machine/Crys.lean ====
section
/-! DEFINITION. Exact cells (R186 to R199): XADD, XBIND, the merge and fold of a slice's cells (R193), and the
accumulation by the pans (R201). -/
namespace Sys2Proof.Machine

open Sys2Proof

/-! ### Operations of a cell (R187, R188) -/

/-- The command identity of OWNER: queue and number of the command (DESIGN CHOICE, log entry 59: R186 leaves it to the
module). -/
def cellOwner (t : Fin 4) (q : Fin 64) (n : Nat) : Nat := (64 * t.val + q.val + 256 * n) % 2 ^ 32

/-- A working cell at its beginning (R189). -/
def Cell.fresh (t owner : Nat) (loc : CellLoc) : Cell :=
  { kind := 1, nan := false, pinf := false, ninf := false, bound := false, add := false, fmt := 0, tenancy := t,
    expect := 0, count := 0, dest := 0, owner := owner, acc := 0, loc := loc }

/-- A finite value as a multiple of 2^(−149), truncated toward zero when it is finer. -/
def fixed149 (v : FVal) : Int :=
  match v with
  | .fin neg n d e =>
    let p := pow2 (e + 149)
    let k : Int := (n * p.1 / (d * p.2) : Nat)
    if neg then -k else k
  | _ => 0

/-- Adds an FP32 value to a cell. -/
def Cell.addF (k : Cell) (x : W32) : Cell :=
  match f32v x with
  | .nan => { k with nan := true }
  | .inf false => { k with pinf := true }
  | .inf true => { k with ninf := true }
  | v => { k with acc := k.acc + BitVec.ofInt 384 (fixed149 v) }

/-- Increments a cell: 2^149 is added. -/
def Cell.incr (k : Cell) : Cell := { k with acc := k.acc + BitVec.ofNat 384 (2 ^ 149) }

/-- Merges cell b into cell a. -/
def Cell.merge (a b : Cell) : Cell :=
  { a with acc := a.acc + b.acc, nan := a.nan || b.nan, pinf := a.pinf || b.pinf, ninf := a.ninf || b.ninf,
           count := a.count + b.count }

/-- The element format of a destination format: FP32, BF16, E4M3, E5M2. -/
def cellWidth (fmt : Nat) : Nat := fmtBits fmt / 8

/-- The fold of a cell (R188): the code written at DEST, and whether it saturated. -/
def Cell.fold (k : Cell) (destCode : Nat) : Nat × Bool :=
  let d := decodeElem k.fmt destCode
  let nan := k.nan || (k.add && d.isNan)
  let pinf := k.pinf || (k.add && d == .inf false)
  let ninf := k.ninf || (k.add && d == .inf true)
  let v0 := FVal.ofInt k.acc.toInt (-149)
  let v := if k.add && d.isFin then v0.add d else v0
  if nan || (pinf && ninf) then (canonNan k.fmt, false)
  else if pinf || ninf then
    if fmtHasInf k.fmt then (infCode k.fmt ninf, false) else (maxCode k.fmt ninf, true)
  else if v.isZero then (0, false)
  else
    let r := convertElem k.fmt 0 v none
    (r.1, r.2.1)

/-- The 64-byte image of a cell as collectives carry it (R186): KIND 3, the flags NAN, PINF, NINF and ACC. -/
def Cell.image (k : Cell) : List Byte :=
  leBytes 64 (3 * 2 ^ 510 + (if k.nan then 2 ^ 509 else 0) + (if k.pinf then 2 ^ 508 else 0) +
    (if k.ninf then 2 ^ 507 else 0) + k.acc.toNat)

/-- A cell whose contents are a received image. -/
def Cell.ofImage (k : Cell) (bs : List Byte) : Cell :=
  let v := ofLe bs
  { k with nan := v.testBit 509, pinf := v.testBit 508, ninf := v.testBit 507, acc := BitVec.ofNat 384 v }

/-! ### XADD (R190) -/

/-- What lane i of an XADD does: the cell it reaches and how it changes it; none where it contributes
nothing. The sum s[SA] + i does not wrap (DESIGN CHOICE, log entry 65). -/
def xaddLane (fn base bins : Nat) (i : Nat) (x mask : W32) : Option (Nat × (Cell → Cell)) :=
  if isNan32 mask || (f32v mask).isZero then none
  else
    match fn with
    | 0 => some (base + i, (·.addF x))
    | 1 => some (base, (·.addF x))
    | _ =>
      match f32v x with
      | .nan => none
      | .inf neg => some (base + (if neg then 0 else bins - 1), Cell.incr)
      | v => some (base + (min (max v.floor 0) (bins - 1 : Nat)).toNat, Cell.incr)

/-- Whether a cell lies in the crystalliser. -/
def Cell.inCrys (k : Cell) : Bool := match k.loc with | .crys _ => true | .pan _ => false

/-- XADD. -/
def execXadd (c : CtxId) (s : State) : Host.Outcome State Fault Refusal :=
  .next (issueOp c 0x60 (fun st sl w s =>
    let base := (st.s[fTSA w]).toNat
    let acts := (List.finRange 64).filterMap (fun i =>
      xaddLane (fFN w) base (wbits w 0 16) i.val (vA st w)[i] (vB st w)[i])
    if acts.any (fun a => sl.working.length ≤ a.1) then s.raisePc c st Config.errCellRange
    else
      let work := acts.foldl (fun l a => modNth l a.1 a.2) sl.working
      let crys := (acts.filter (fun a => ((sl.working[a.1]?).map Cell.inCrys).getD true)).length
      let nans := ((List.finRange 64).filter (fun i =>
        !isNan32 (vB st w)[i] && !(f32v (vB st w)[i]).isZero && isNan32 (vA st w)[i])).length
      let s := s.bump 0x9026 3 crys
      let s := s.bump 0x9026 4 (acts.length - crys)
      let s := s.bump 0x9026 8 nans
      let s := s.modSlice st.ref (fun sl => { sl with working := work })
      s.setStrand c st.next) s)

/-! ### XBIND (R191, R192) -/

/-- Whether a page is named in the output list of an admitted, uncommitted slice of Tt: one that runs in this tick, a split
slice between its segments, or a slice of another command that is held until its command's last slice commits (R45, R103). -/
def State.outHeld (s : State) (t : Fin 4) (q : Fin 64) (v : Nat) : Bool :=
  allQ.any (fun i => ((s.run t i).map (fun r => r.slices.any (fun sl =>
    ((sl.state == .admitted || sl.state == .finished) && sl.outs.any (fun o => o.1 == v)) ||
      ((i != q || sl.state != .committed) && (freshOf sl.fresh v).isSome)))).getD false)

/-- The first destination that breaks a check of *XBIND checks*, in the order of the table. -/
def State.bindError (s : State) (t : Fin 4) (q : Fin 64) (dests : List Nat) : Option (Nat × Nat) :=
  let absent := dests.find? (fun a => inModelWindow (pageOf a) && !s.mem.model.sealedNow)
  let reachErr := fun (code : Nat) => dests.find? (fun a => s.reachCommitted t (pageOf a) == .error code)
  let foreign := dests.find? (fun a => inModelWindow (pageOf a))
  let conflict := dests.find? (fun a =>
    let v := pageOf a
    s.otherRun t q (fun r => r.binds v || r.prepared.any (fun p => p.vpage == v)) || s.outHeld t q v || s.anyRun t (·.stages v))
  (absent.map (fun a => (a, Config.errModelAbsent))).orElse fun _ =>
  ((reachErr Config.errPageUnmapped).map (fun a => (a, Config.errPageUnmapped))).orElse fun _ =>
  ((reachErr Config.errPageEvicted).map (fun a => (a, Config.errPageEvicted))).orElse fun _ =>
  (foreign.map (fun a => (a, Config.errPageForeign))).orElse fun _ =>
  conflict.map (fun a => (a, Config.errAccumConflict))

/-- The STATS collective of a command (R348), with its group. -/
def State.statsOf (s : State) (t : Fin 4) (q : Fin 64) : Option (Nat × Coll) :=
  s.coll.colls.find? (fun x => x.2.use == .command && x.2.kind == 4 && x.2.t == t && x.2.q == q)

/-- The first destination that a STATS command may not bind: with ADD, in another format, or outside its range
(R348). -/
def State.statsError (s : State) (t : Fin 4) (q : Fin 64) (add : Bool) (fmt : Nat) (dests : List Nat) : Option Nat :=
  match s.statsOf t q with
  | none => none
  | some (_, c) =>
    dests.find? (fun a => add || fmt != c.fmt || a < c.dst || c.dst + c.cells * cellWidth c.fmt < a + cellWidth c.fmt)

/-- XBIND: EXPECT occupies TA, TB and TC. -/
def execXbind (c : CtxId) (s : State) : Host.Outcome State Fault Refusal :=
  .next (issueOp c 0x61 (fun st sl w s =>
    let first := (st.s[fTSA w]).toNat
    let n := fTImm w
    let d0 := (st.s[fTSB w]).toNat
    let width := cellWidth (fFA w)
    if sl.working.length < first + n || ((sl.working.drop first).take n).any (·.bound) then
      s.raisePc c st Config.errCellRange
    else if d0 % width ≠ 0 then s.raisePc c st Config.errIllegalInstruction
    else
      let dests := (List.range n).map (fun m => d0 + m * width)
      match (s.statsError st.ref.t st.ref.q (fFlag w 39) (fFA w) dests).map (fun a => (a, Config.errCellRange)) |>.orElse
          (fun _ => s.bindError st.ref.t st.ref.q dests) with
      | some (a, e) => s.raise c st e (BitVec.ofNat 64 a)
      | none =>
        let s := s.modSlice st.ref (fun sl =>
          { sl with working := sl.working.mapIdx (fun i k =>
              if first ≤ i && i < first + n then
                { k with bound := true, add := fFlag w 39, fmt := fFA w, expect := wbits w 44 12,
                         dest := d0 + (i - first) * width }
              else k) })
        let s := s.each (dests.map pageOf).eraseDups (fun s v => s.touch st.ref.t v)
        s.setStrand c st.next) s)

/-! ### Preparation (R193) -/

/-- The page that a prepared copy is made from: the copy that a fallback command holds, else the committed page (R193,
R196). -/
def State.foldSource (s : State) (t : Fin 4) (q : Fin 64) (v : Nat) : Reach :=
  match (s.run t q).bind (fun r => r.heldPage (2 ^ 32) v) with
  | some f => s.reachFrame f
  | none => s.reachCommitted t v

/-- This sluice's prepared copy of a page: a fallback command keeps those of earlier sluices as stored. -/
def CmdRun.preparedNow (r : CmdRun) (v : Nat) : Option FreshPage := r.prepared.find? (fun p => !p.stored && p.vpage == v)

/-- Takes a frame for this sluice's prepared copy of each page that has none yet; none when one is not to be had. -/
def State.takePrepared (s : State) (t : Fin 4) (q : Fin 64) : List Nat → Option State
  | [] => some s
  | v :: rest =>
    if ((s.run t q).bind (·.preparedNow v)).isSome then s.takePrepared t q rest
    else
      let stack := match s.foldSource t q v with
        | .frame f => stackOfFrame f
        | .error _ => s.stack0
      match s.takeFrame stack (.fresh t v) with
      | none => none
      | some (f, s) => (s.modRun t q (fun r =>
          { r with prepared := r.prepared ++ [{ vpage := v, frame := f, whole := false, stored := false }] })).takePrepared t q rest

/-- The pan makes the prepared copy of a page once in a sluice, before the first fold into it (R193). -/
def State.makePrepared (s : State) (t : Fin 4) (q : Fin 64) (home : Nat) (p : FreshPage) : State :=
  if p.whole then s
  else (s.copyFrame home p.frame).modRun t q (fun r =>
    { r with prepared := r.prepared.map (fun (y : FreshPage) => if y.frame = p.frame then { y with whole := true } else y) })

/-- Folds a cell into the prepared copy of its destination page, whose frame SLICE_PREPARE has taken. -/
def State.foldCell (s : State) (t : Fin 4) (q : Fin 64) (k : Cell) : State :=
  match s.foldSource t q (pageOf k.dest), (s.run t q).bind (·.preparedNow (pageOf k.dest)) with
  | .error c, _ => s.failCmd t q c (BitVec.ofNat 64 k.dest) Config.noStrand
  | .frame _, none => s
  | .frame home, some p =>
    let s := s.makePrepared t q home p
    let a := phys p.frame k.dest
    let w := cellWidth k.fmt
    let r := k.fold (ofLe (memReadN s.mem.mem a w))
    let s := s.pwrite a (leBytes w r.1)
    (s.bump 0x9026 6 1).bump 0x9026 7 (if r.2 then 1 else 0)

/-- A complete cell is folded, or becomes an image of its STATS collective (R193, R348). -/
def State.cellDone (s : State) (t : Fin 4) (q : Fin 64) (k : Cell) : State :=
  match s.statsOf t q with
  | none => s.foldCell t q k
  | some (g, c) =>
    let i := (k.dest - c.dst) / cellWidth c.fmt
    { s with coll := { colls := kmod s.coll.colls g (fun c => { c with localImages := kset c.localImages i k.image }) } }

/-- Prepares one working cell: merged into the held cell of its destination, folded when complete. A cell that is to
be released at step 8 stays until then: with its slice, no longer bound, or held with all its contributions. -/
def State.prepareCell (s : State) (ref : SliceRef) (w : Cell) : State :=
  let back := fun (s : State) =>
    s.modSlice ref (fun sl => { sl with working := sl.working ++ [{ w with bound := false }] })
  if !w.bound then back s
  else
    match s.run ref.t ref.q with
    | none => s
    | some r =>
      let w := { w with count := 1, kind := 2 }
      let failC := fun (s : State) => s.modRun ref.t ref.q (fun r =>
        { r with faults := r.faults ++ [{ slice := ref.idx, strand := Config.noStrand,
                                          code := Config.errCellRange, address := BitVec.ofNat 64 w.dest }] })
      match r.held.find? (fun h => h.dest == w.dest) with
      | some h =>
        if h.expect ≠ w.expect || h.fmt ≠ w.fmt || h.add ≠ w.add then failC (back s)
        else
          let m := h.merge w
          let s := (back s).bump 0x9026 5 1
          if m.expect < m.count then failC s
          else
            let s := s.modRun ref.t ref.q (fun r =>
              { r with held := r.held.map (fun x => if x.dest = w.dest then m else x) })
            if m.count = m.expect then s.cellDone ref.t ref.q m else s
      | none =>
        if w.expect < 1 then failC (back s)
        else
          let s := s.modRun ref.t ref.q (fun r => { r with held := r.held ++ [w] })
          if w.expect = 1 then s.cellDone ref.t ref.q w else s

/-- Whether the last segment of a slice, or the whole of one that is not split, is running. -/
def Slice.lastSegment (sl : Slice) : Bool :=
  match sl.segment with
  | none => true
  | some j => sl.marks.length ≤ j

/-- Merges and folds the working cells of a slice that has finished, in ascending cell number (R193). -/
def State.mergeSlice (s : State) (ref : SliceRef) (sl : Slice) : State :=
  (s.modSlice ref (fun sl => { sl with working := [] })).each sl.working (fun s w => s.prepareCell ref w)

/-- The pages that the cells of a slice may fold into when it finishes: none before its last segment (R196), none of a STATS
command's cells, which become images (R348). -/
def State.foldPages (s : State) (t : Fin 4) (q : Fin 64) (sl : Slice) : List Nat :=
  if sl.lastSegment && (s.statsOf t q).isNone then ((sl.working.filter (·.bound)).map (fun k => pageOf k.dest)).eraseDups
  else []

/-- SLICE_PREPARE: when every strand of an admitted slice has retired, the slice prepares and has finished (R43, R193, R196).
It takes the frames of its prepared copies, and does not finish while they are not to be had; what it merges and folds shows
in nothing before the sluice, and is computed when the sluice latches it (DESIGN CHOICE, log entry 60). -/
def execSlicePrepare (t : Fin 4) (q : Fin 64) (idx : Nat) (s : State) : Host.Outcome State Fault Refusal :=
  .next (match s.slice { t := t, q := q, idx := idx } with
    | none => s
    | some sl =>
      if sl.state == .admitted && sl.remaining == 0 && !sl.killed then
        match s.takePrepared t q (s.foldPages t q sl) with
        | none => s
        | some s => s.modSlice { t := t, q := q, idx := idx } (fun sl => { sl with state := .finished })
      else s)

/-- Step 8: folded cells and the working cells of prepared slices are released (R193). -/
def State.releaseCells (s : State) : State :=
  s.each allTQ (fun s x => s.modRun x.1 x.2 (fun r => { r with
    held := r.held.filter (fun k => !k.folded)
    slices := r.slices.map (fun sl =>
      if sl.state == .finished || sl.state == .committed then { sl with working := [] } else sl) }))

/-! ### Placement of cells (R197, R198) -/

/-- Cells of Tt: working, held, and those of its STATS collectives (R348). -/
def State.cellsOf (s : State) (t : Fin 4) : List Cell :=
  (allQ.flatMap (fun q =>
    match s.run t q with
    | none => []
    | some r => r.held ++ r.slices.flatMap (·.working))) ++
  s.coll.colls.flatMap (fun x => if x.2.t = t then x.2.cellsHeld else [])

/-- Crystalliser cells of Tt. -/
def State.crysOf (s : State) (t : Fin 4) : Nat := ((s.cellsOf t).filter Cell.inCrys).length

/-- Pan-side cells of Tt. -/
def State.panOf (s : State) (t : Fin 4) : Nat := ((s.cellsOf t).filter (fun k => !k.inCrys)).length

/-- Free crystalliser cells. -/
def State.crysFree (s : State) : Nat := 524288 - (allT.map s.crysOf).sum

/-- Unreserved free crystalliser cells (R197). -/
def State.crysUnreserved (s : State) : Nat :=
  s.crysFree - (allT.map (fun t => s.quota t 4 - s.crysOf t)).sum

/-- Pan-side cells on a stack. -/
def State.panOn (s : State) (stack : Nat) : Nat :=
  (allT.map (fun t => ((s.cellsOf t).filter (fun k => k.loc == .pan stack)).length)).sum

/-- Free pan-side cells. -/
def State.panFree (s : State) : Nat := s.stacks.length * 1048576 - (allT.map s.panOf).sum

/-- Whether demands_met holds for n cells (R198). -/
def State.cellsMet (s : State) (t : Fin 4) (n : Nat) : Bool :=
  n ≤ (s.quota t 4 - (s.cellsOf t).length) + s.crysUnreserved + s.panFree

/-- Whether n cells could be met with Tt otherwise idle (R198). -/
def State.cellsPossible (s : State) (t : Fin 4) (n : Nat) : Bool :=
  n ≤ s.quota t 4 + (524288 - (allT.map (fun u => s.quota u 4)).sum) + 1048576 * s.stacks.length

/-- The free pan-side cells of each active stack, ascending. -/
def State.panRoom (s : State) : List (Nat × Nat) := s.stacks.map (fun k => (k, 1048576 - s.panOn k))

/-- The stack of the next spilled cell: the one after the last used that has a free cell, in ascending order and wrapping
round (R197). -/
def nextPan (room : List (Nat × Nat)) (cursor : Nat) : Nat :=
  let l := room.filter (fun x => 0 < x.2)
  (((l.filter (fun x => cursor < x.1)).head?).orElse (fun _ => l.head?)).elim 0 (·.1)

/-- One free cell of a stack is taken. -/
def takePan (room : List (Nat × Nat)) (k : Nat) : List (Nat × Nat) := room.map (fun x => if x.1 = k then (x.1, x.2 - 1) else x)

/-- The places of n new working cells of Tt (R197), by its CELLS quota: the places and the cursor after them. -/
def placeCells (quota : Nat) : Nat → (crysOwn unres free cursor bank : Nat) → List (Nat × Nat) → List CellLoc × Nat
  | 0, _, _, _, cursor, _, _ => ([], cursor)
  | n + 1, own, unres, free, cursor, bank, room =>
    if 0 < free && own < quota then
      let r := placeCells quota n (own + 1) unres (free - 1) cursor (bank + 1) room
      (.crys (bank % 64) :: r.1, r.2)
    else if 0 < free && 0 < unres then
      let r := placeCells quota n (own + 1) (unres - 1) (free - 1) cursor (bank + 1) room
      (.crys (bank % 64) :: r.1, r.2)
    else
      let k := nextPan room cursor
      let r := placeCells quota n own unres free k bank (takePan room k)
      (.pan k :: r.1, r.2)

/-- Gives an admitted slice its working cells. -/
def State.giveCells (s : State) (ref : SliceRef) (n : Nat) : State :=
  if n = 0 then s
  else
    let r := placeCells (s.quota ref.t 4) n (s.crysOf ref.t) s.crysUnreserved s.crysFree s.mem.panCursor 0 s.panRoom
    let owner := cellOwner ref.t ref.q (((s.run ref.t ref.q).map (·.n)).getD 0)
    let cells := r.1.map (Cell.fresh ref.t.val owner)
    let s := { s with mem := { s.mem with panCursor := r.2 } }
    let s := s.modSlice ref (fun sl => { sl with working := cells })
    let c := (cells.filter Cell.inCrys).length
    (s.bump 0x9026 1 c).bump 0x9026 2 (n - c)

/-! ### Accumulation by the pans (R201) -/

/-- Destination plus contribution in FP32 or BF16: exact sum rounded once, saturated beyond the largest finite
value. -/
def panAdd (fmt : Nat) (d x : Nat) : Nat × Bool :=
  let v := (decodeElem fmt d).add (decodeElem fmt x)
  match v with
  | .fin .. => let r := convertElem fmt 0 v none; (r.1, r.2.1)
  | v => (roundIeee fmt v, false)

/-- Applies a contribution to a frame. -/
def State.applyStaged (s : State) (frame : Nat) (x : Staged) : State :=
  let w := fmtBits x.fmt / 8
  x.elems.foldl (fun s e =>
    let a := phys frame e.1
    let r := panAdd x.fmt (ofLe (memReadN s.mem.mem a w)) e.2.toNat
    (s.pwrite a (leBytes w r.1)).bump 0x9026 7 (if r.2 then 1 else 0)) s

/-- A command's contributions to a page, in ascending SLICE_INDEX. -/
def CmdRun.stagedTo (r : CmdRun) (v : Nat) : List Staged :=
  sortBy (fun (a b : Staged) => decide (a.slice < b.slice)) (r.staged.filter (fun x => x.vpage == v))

/-- The contributions to a page that the pan's copy of it holds already. -/
def CmdRun.copied (r : CmdRun) (v : Nat) : Nat := (((r.copies.find? (fun c => c.vpage == v)).map (·.n))).getD 0

end Sys2Proof.Machine
end

