-- ==== Sys2Proof/Machine/Kv.lean ====
section
/-! DEFINITION. The KV arena (R133 to R158, R173, R175): sequences and walks, frames, the brine buffer, and the
instructions KVAPP, KVWALK and KVSKIP. -/
namespace Sys2Proof.Machine

open Sys2Proof

/-! ### Sequence descriptors (R133, R137) -/

/-- A sequence descriptor as read. -/
structure Seq where
  fmt : Nat
  dcode : Nat
  evictable : Bool
  dirA : Nat
  dirState : Nat
  live : Bool
  dirB : Nat
  tensorId : Nat
  length : Nat
  heads : Nat
  slots : Nat
  skipIndex : Nat
deriving DecidableEq, Repr

/-- Head dimension D. -/
def Seq.dim (q : Seq) : Nat := if q.dcode = 1 then 64 else 128

/-- Tokens per page (R133). -/
def Seq.tpp (q : Seq) : Nat := 32768 * 8 / (q.dim * (if q.fmt = 2 then 8 else 4))

/-- Reads the fields of a descriptor's 64 bytes; none where they break R6 or R137. -/
def Seq.read (bs : List Byte) : Option Seq :=
  let w := fun (i : Nat) => leAt bs (8 * i) 8
  let q : Seq :=
    { fmt := bits (w 0) 60 4, dcode := bits (w 0) 58 2, evictable := bits (w 0) 57 1 = 1,
      dirA := bits (w 0) 0 52, dirState := bits (w 1) 62 2, live := bits (w 1) 61 1 = 1,
      dirB := bits (w 1) 0 52, tensorId := bits (w 2) 32 32, length := bits (w 2) 0 25,
      heads := bits (w 3) 48 16, slots := bits (w 3) 32 16, skipIndex := bits (w 3) 0 5 }
  let ok := (q.fmt = 2 || q.fmt = 8) && (q.dcode = 1 || q.dcode = 2) && bits (w 0) 52 5 = 0 &&
    bits (w 1) 52 9 = 0 && bits (w 2) 25 7 = 0 && bits (w 3) 5 27 = 0 && w 4 = 0 && w 5 = 0 && w 6 = 0 &&
    w 7 = 0 && q.dirState < 3 && q.dirA % 64 = 0 && q.dirB % 64 = 0 && 1 ≤ q.heads && q.heads ≤ 1024 &&
    1 ≤ q.slots && q.slots ≤ 128 && q.slots * 512 * q.tpp ≤ 2 ^ 24
  if ok then some q else none

/-- The descriptor at an address of Tt; otherwise the error and address of R141. -/
def State.seqAt (s : State) (t : Fin 4) (desc : Nat) : Except (Nat × Nat) Seq :=
  match s.checkT t desc 64 with
  | some (a, e) => .error (e, a)
  | none =>
    if desc % 64 ≠ 0 then .error (Config.errPageUnmapped, desc)
    else
      match Seq.read (s.readT t desc 64) with
      | some q => .ok q
      | none => .error (Config.errPageUnmapped, desc)

/-- The live directory. -/
def Seq.dir (q : Seq) : Nat := if q.live then q.dirB else q.dirA

/-- The shadow directory. -/
def Seq.shadowDir (q : Seq) : Nat := if q.live then q.dirA else q.dirB

/-! ### Page entries (R138) -/

/-- VALID. -/
def peValid (e : W64) : Bool := e.getLsbD 63
/-- EVICTED. -/
def peEvicted (e : W64) : Bool := e.getLsbD 62
/-- REMNANT. -/
def peRemnant (e : W64) : Bool := e.getLsbD 60
/-- VALID_COUNT. -/
def peCount (e : W64) : Nat := wbits e 48 12
/-- FRAME. -/
def peFrame (e : W64) : Nat := wbits e 0 32

/-- A page entry that is present. -/
def mkPe (remnant : Bool) (count loc frame : Nat) (shared : Bool) : W64 :=
  BitVec.ofNat 64 (2 ^ 63 + (if shared then 2 ^ 61 else 0) + (if remnant then 2 ^ 60 else 0) +
    count % 4096 * 2 ^ 48 + loc % 64 * 2 ^ 32 + frame % 2 ^ 32)

/-- The address of a directory entry. -/
def dirEntryAddr (q : Seq) (dir h slot : Nat) : Nat := dir + 8 * (h * q.slots + slot)

/-- Whether a KV frame belongs to a tenancy. -/
def State.kvOwn (s : State) (t : Fin 4) (f : Nat) : Bool := ((s.kvRec f).map (fun k => k.t == t)).getD false

/-- resolve of R141 for page p of head h: the address of the page entry and the entry, or an error with its
address. A directory entry that breaks R6 or R138 names no table; an entry that names a frame of another tenancy, which only
software can have written (R139), reaches nothing (R276; DEDUCED, log entry 58). -/
def State.resolvePage (s : State) (t : Fin 4) (desc : Nat) (q : Seq) (h p : Nat) :
    Except (Nat × Nat) (Nat × W64) :=
  let slot := p / 512
  if q.heads ≤ h || q.slots ≤ slot then .error (Config.errPageUnmapped, desc)
  else
    let de := dirEntryAddr q q.dir h slot
    match s.checkT t de 8 with
    | some (a, e) => .error (e, a)
    | none =>
      let d := BitVec.ofNat 64 (s.numT t de 8)
      if !d.getLsbD 63 || wbits d 52 11 ≠ 0 || wbits d 0 12 ≠ 0 then .error (Config.errPageUnmapped, de)
      else
        let pe := wbits d 0 52 + 8 * (p % 512)
        match s.checkT t pe 8 with
        | some (a, e) => .error (e, a)
        | none =>
          let entry := BitVec.ofNat 64 (s.numT t pe 8)
          if peValid entry && !peEvicted entry && !s.kvOwn t (peFrame entry) then .error (Config.errPageUnmapped, pe)
          else .ok (pe, entry)

/-- resolve of R141. -/
def State.resolve (s : State) (t : Fin 4) (desc h pos : Nat) : Except (Nat × Nat) (Seq × Nat × W64) :=
  match s.seqAt t desc with
  | .error e => .error e
  | .ok q =>
    if 2 ^ 24 ≤ pos then .error (Config.errPageUnmapped, desc)
    else
      match s.resolvePage t desc q h (pos / q.tpp) with
      | .error e => .error e
      | .ok r => .ok (q, r)

/-! ### Frames (R134, R173) -/

/-- The physical address of a KV frame. -/
def kvPhys (frame : Nat) : Nat := frame / 32 * Config.pageBytes + frame % 32 * Config.kvFrameBytes

/-- The stack of a KV frame. -/
def kvStack (frame : Nat) : Nat := stackOfFrame (frame / 32)

/-- Whether a KV slot is in use, by a frame or a remnant. -/
def State.kvSlotUsed (s : State) (f : Nat) : Bool :=
  s.mem.kv.any (fun x => x.1 == f || (x.2.remnant.map (fun r => r.slot == f)).getD false)

/-- The arena frames of Tt on a stack. -/
def State.arenas (s : State) (t : Fin 4) (stack : Nat) : List Nat :=
  (s.mem.frameUse.filter (fun x => x.2 == .arena t && stackOfFrame x.1 == stack)).map (·.1)

/-- A free slot in an arena frame. -/
def State.freeSlot (s : State) (arena : Nat) : Option Nat :=
  ((List.range 30).map (fun j => arena * 32 + j)).find? (fun f => !s.kvSlotUsed f)

/-- Whether Tt may take one more arena frame: it needs it for what its slices were promised, or no promise needs it. -/
def State.arenaSpare (s : State) (t : Fin 4) : Bool :=
  s.slotsFree t < s.kvPromised t || s.arenaHold < s.freeGeneral

/-- A free KV slot of Tt on a chosen stack: in an arena frame it has there, else in a new one there, else in an arena
frame on the next stacks, else in a new one (R168, R173). -/
def State.takeSlot (s : State) (t : Fin 4) (stack : Nat) : Option (Nat × State) :=
  let fresh := fun (_ : Unit) => (s.takeFrame stack (.arena t)).map (fun x => (x.1 * 32, x.2))
  match (s.arenas t stack).findSome? s.freeSlot with
  | some f => some (f, s)
  | none =>
    if s.arenaSpare t && s.stacks.contains stack && (s.freeOn stack).isSome then fresh ()
    else
      match (wrapFrom s.stacks stack).findSome? (fun k => (s.arenas t k).findSome? s.freeSlot) with
      | some f => some (f, s)
      | none => if s.arenaSpare t then fresh () else none

/-- The bytes of a KV frame with the tokens at or beyond a count zero (R135). -/
def kvMask (q : Seq) (count : Nat) (bs : List Byte) : List Byte :=
  let b := if q.fmt = 2 then 8 else 4
  let kb := q.dim * b / 8
  let mx := q.fmt = 8
  let d32 := q.dim / 32
  let keys := bs.take 32768
  let ks := (bs.drop 32768).take 2048
  let vals := (bs.drop 34816).take 32768
  let vs := bs.drop 67584
  let keys' := keys.take (count * kb) ++ List.replicate (32768 - count * kb) 0
  let ks' := if mx then ks.take (count * d32) ++ List.replicate (2048 - count * d32) 0x7F else ks.map (fun _ => 0)
  let rowB := q.tpp * b / 8
  let vals' := (chunks rowB q.dim vals).flatMap (fun row =>
    let codes := (unpackN b row q.tpp).take count
    packN b (codes ++ List.replicate (q.tpp - count) 0))
  let t32 := q.tpp / 32
  let vs' := if mx then
      (chunks t32 q.dim vs).flatMap (fun row =>
        row.take (ceilDiv count 32) ++ List.replicate (t32 - ceilDiv count 32) 0x7F)
    else vs.map (fun _ => 0)
  keys' ++ ks' ++ vals' ++ vs'

/-- A frame without tokens (R135). -/
def kvEmpty (q : Seq) : List Byte := kvMask q 0 (List.replicate Config.kvFrameBytes 0)

/-- The page summary of the present tokens of a frame (R136). -/
def kvSummary (q : Seq) (count : Nat) (bs : List Byte) : List W32 :=
  let b := if q.fmt = 2 then 8 else 4
  let kb := q.dim * b / 8
  let d32 := q.dim / 32
  let rows := (chunks kb count bs).map (fun r => unpackN b r q.dim)
  let scales := chunks d32 count ((bs.drop 32768).map BitVec.toNat)
  let vals := (rows.zip scales).map (fun p =>
    p.1.mapIdx (fun d c =>
      round32 (applyScale (decodeElem q.fmt c) (if q.fmt = 8 then nth p.2 (d / 32) 127 else 127)).abs))
  (List.range q.dim).map (fun d => vals.foldl (fun m r => f32max m (nth r d 0)) 0)

/-! ### The look-aside buffer (R142) and a walk (R141) -/

/-- A walk by a core: the resolved entry, and the state after the look-aside buffer has learnt it. -/
def State.walk (s : State) (core : Nat) (t : Fin 4) (desc h pos : Nat) :
    Except (Nat × Nat) (Seq × Nat × W64 × State) :=
  match s.resolve t desc h pos with
  | .error e => .error e
  | .ok (q, pe, entry) =>
    let p := pos / q.tpp
    let lab := (kget s.cores.lab core).getD []
    let same := fun (x : LabEntry) => x.desc == desc && x.head == h && x.page == p
    if lab.any same then
      let l := lab.filter same ++ lab.filter (fun x => !same x)
      .ok (q, pe, entry, { s with cores := { s.cores with lab := kset s.cores.lab core l } })
    else
      let line := pe / 64 * 64
      let p0 := p / 8 * 8
      let new := (List.range 8).filterMap (fun i =>
        let e := BitVec.ofNat 64 (s.numT t (line + 8 * i) 8)
        if peValid e then some ({ desc := desc, head := h, page := p0 + i, entry := e } : LabEntry) else none)
      let keep := lab.filter (fun x => !new.any (fun y => y.desc == x.desc && y.head == x.head && y.page == x.page))
      let l := (new ++ keep).take 32
      .ok (q, pe, entry,
        { s with cores := { s.cores with lab := kset s.cores.lab core l } }.bump 0x9024 1 1)

/-- The page entry at an address as a slice sees it: in a fallback command, as the held appends of the command's
committed slices have left it (R103). -/
def State.heldEntry (s : State) (ref : SliceRef) (pe : Nat) (entry : W64) : W64 :=
  match s.run ref.t ref.q with
  | none => entry
  | some r =>
    match ((r.committedBut ref.idx).flatMap (fun x => x.taken.filter (fun k => k.pe == pe))).getLast? with
    | none => entry
    | some k => mkPe ((s.kvRec k.frame).bind (·.remnant)).isSome k.top (kvStack k.frame) k.frame false

/-! ### KV staging by the prefetch schedule (R175) -/

/-- Whether a KV frame has, or has been asked to have, a copy in a die store. -/
def State.kvAsked (s : State) (t : Fin 4) (f : Nat) : Bool :=
  s.mem.dieUse.any (fun x => x.2 == .kv t f) || s.mem.stageReq.any (fun x => x.t == t && x.frame == f)

/-- Asks for the copy of a KV frame into the tenancy area of a die; frames are allocated at step 6 (R182). -/
def State.askStage (s : State) (t : Fin 4) (die f : Nat) : State :=
  if s.kvAsked t f || !s.dies.contains die then s
  else { s with mem := { s.mem with stageReq := s.mem.stageReq ++ [{ t := t, die := die, frame := f }] } }

/-- What a walk of page p of head h asks to be staged for the active KV streams. -/
def State.stageAhead (s : State) (t : Fin 4) (desc : Nat) (q : Seq) (h p : Nat) : State :=
  let ens := s.mem.model.sched.filter (fun en =>
    en.active && en.kind == 2 && desc != 0 && s.odt t 0xA080 (en.base % 64 + 1) == desc)
  s.each ens (fun s en =>
    s.each (List.range en.count) (fun s i =>
      match s.resolvePage t desc q h (p + 1 + i) with
      | .error _ => s
      | .ok (_, e) =>
        if peValid e && !peEvicted e then
          s.askStage t (if en.die = 4 then kvStack (peFrame e) / 6 else en.die) (peFrame e)
        else s))

/-- Allocates the die-store frame of a copy that was asked for: a free one, else one that an eviction frees while Tt is
within its quota; a copy that finds none is passed (R175, R182). -/
def State.stageKv (s : State) (x : KvRequest) : State :=
  if !s.kvOwn x.t x.frame || s.mem.dieUse.any (fun y => y.2 == .kv x.t x.frame) then s
  else
    let s := if (s.freeTenDie x.die).isSome || s.quota x.t 1 ≤ s.dieUsed x.t then s else s.evictDie x.die
    match s.freeTenDie x.die with
    | none => s.bump 0x9025 3 1
    | some k => { s with mem := { s.mem with dieUse := kset s.mem.dieUse k (.kv x.t x.frame) } }.bump 0x9025 2 1

/-- Allocates what the walks of the ended tick have asked for. -/
def State.allocStaging (s : State) : State :=
  let l := s.mem.stageReq
  ({ s with mem := { s.mem with stageReq := [] } } : State).each l State.stageKv

/-- A read of a KV frame by a core: whether it is served by another die (R172), and whether it misses a copy that an
active KV stream was to make, counted once for each page and slice (R176). -/
def State.noteKvRead (s : State) (c : CtxId) (ref : SliceRef) (f : Nat) : State :=
  let e := dieOf c.core.val
  let staged := (s.kvRec f).bind (·.staged)
  let near := staged.any (fun d => d.val == e) || (!s.frameFailed (f / 32) && kvStack f / 6 == e)
  let s := s.bump 0x9025 0xA (if near then 0 else 1)
  let seen := ((s.slice ref).map (fun sl => sl.missed.contains (2 ^ 40 + f))).getD true
  if staged.isNone && s.kvAsked ref.t f && !seen then
    (s.modSlice ref (fun sl => { sl with missed := (2 ^ 40 + f) :: sl.missed })).bump 0x9025 1 1
  else s

/-! ### KVWALK -/

/-- KVWALK: 68 KiB to s[SB], with the summary behind when IMM [0] is 1. The window range is checked before the entry
(DESIGN CHOICE, log entry 66). -/
def execKvwalk (c : CtxId) (s : State) : Host.Outcome State Fault Refusal :=
  .next (issueOp c 0x69 (fun st sl w s =>
    let off := (st.s[fTSB w]).toNat
    let desc := (st.s[fTSA w]).toNat
    let h := (st.s[(fTSA w + 1 : Fin 32)]).toNat
    let pos := (st.s[(fTSA w + 2 : Fin 32)]).toNat
    let t := st.ref.t
    withRange c st sl off Config.kvFrameBytes 1 (fun s =>
      match s.walk c.core.val t desc h pos with
      | .error (e, a) => s.raise c st e (BitVec.ofNat 64 a)
      | .ok (q, pe, entry, s) =>
        let entry := s.heldEntry st.ref pe entry
        let more := if w.getLsbD 0 then 4 * q.dim else 0
        withRange c st sl off (Config.kvFrameBytes + more) 1 (fun s =>
          if !peValid entry then s.raise c st Config.errPageUnmapped (BitVec.ofNat 64 pe)
          else if peEvicted entry then s.raise c st Config.errPageEvicted (BitVec.ofNat 64 pe)
          else if s.frameFailed (peFrame entry / 32) && ((s.kvRec (peFrame entry)).bind (·.staged)).isNone then
            s.raise c st Config.errMemoryFailed (BitVec.ofNat 64 pe)
          else
            let f := peFrame entry
            let bs := kvMask q (peCount entry) (memReadN s.mem.mem (kvPhys f) Config.kvFrameBytes)
            let sum := if more = 0 then [] else
              (((s.kvRec f).map (·.summary)).getD []).flatMap (fun v => leBytes 4 v.toNat)
            let s := (s.modKv f (fun k => { k with pin := true, lastUse := s.tick.count })).noteKvRead c st.ref f
            let s := s.stageAhead t desc q h (pos / q.tpp)
            let a : AsyncLoad := { tag := (fTC w).val, dest := off, bytes := bs ++ sum, ready := true, link := none, piece := none }
            s.setStrand c { st.next with async := st.async ++ [a] }) s) s) s)

/-! ### The brine buffer (R144 to R149) -/

/-- A token of a group that no slice has appended. -/
def zeroToken (pos dim : Nat) : BrineToken :=
  { pos := pos, keys := List.replicate dim 0, values := List.replicate dim 0, sr := false, key := 0 }

/-- The random number of element j of a token (R99). -/
def tokenRnd (q : Seq) (head : Nat) (tok : BrineToken) (values : Bool) (j : Nat) : Option Nat :=
  if tok.sr then
    some (rngRand tok.key (BitVec.ofNat 64 q.tensorId) (BitVec.ofNat 64 tok.pos)
      (BitVec.ofNat 64 (head * 2 ^ 16 + (if values then 2 ^ 15 else 0) + j)))
  else none

/-- Writes one token's keys into frame bytes; with the block counters. -/
def putKeys (q : Seq) (head : Nat) (bs : List Byte) (tok : BrineToken) : List Byte × List BlockConv :=
  let b := if q.fmt = 2 then 8 else 4
  let i := tok.pos % q.tpp
  let cv := convertRow q.fmt tok.keys (tokenRnd q head tok false)
  let bs := splice bs (i * q.dim * b / 8) (packN b (cv.flatMap (·.codes)))
  let bs := if q.fmt = 8 then splice bs (32768 + i * (q.dim / 32)) (cv.map (fun x => BitVec.ofNat 8 x.scale)) else bs
  (bs, cv)

/-- The token at a position, from the appended ones, then the remnant. -/
def tokenAt (toks : List BrineToken) (pos : Nat) : Option BrineToken := toks.find? (fun x => x.pos == pos)

/-- Converts a group into frame bytes (R147): `toks` the tokens the slice appended, `old` the remnant's,
`base` the committed valid count of the page. -/
def putGroup (q : Seq) (head page group base : Nat) (toks old : List BrineToken) (bs : List Byte) :
    List Byte × List BlockConv :=
  let b := if q.fmt = 2 then 8 else 4
  let p0 := page * q.tpp + 32 * group
  let slots : List (Option BrineToken) := (List.range 32).map (fun i =>
    let pos := p0 + i
    match tokenAt toks pos with
    | some x => some x
    | none =>
      if 32 * group + i < base then (if q.fmt = 8 then (tokenAt old pos).orElse (fun _ => some (zeroToken pos q.dim)) else none)
      else some (zeroToken pos q.dim))
  let r1 := slots.foldl (fun (acc : List Byte × List BlockConv) x =>
    match x with
    | none => acc
    | some tok => let r := putKeys q head acc.1 tok; (r.1, acc.2 ++ r.2)) (bs, [])
  (List.range q.dim).foldl (fun (acc : List Byte × List BlockConv) d =>
    let at_ := 34816 + (d * q.tpp + 32 * group) * b / 8
    if q.fmt = 8 then
      let vs := slots.map (fun x => match x with | some tok => nth tok.values d 0 | none => 0)
      let blk := convertBlock 8 (vs.map f32v) (fun i =>
        (nth slots i none).bind (fun tok => tokenRnd q head tok true d))
      (splice (splice acc.1 at_ (packN 4 blk.codes)) (67584 + (d * q.tpp + 32 * group) / 32)
        [BitVec.ofNat 8 blk.scale], acc.2 ++ [blk])
    else
      (slots.mapIdx (fun i x => (i, x))).foldl (fun (acc : List Byte × List BlockConv) ix =>
        match ix.2 with
        | none => acc
        | some tok =>
          let blk := convertBlock 2 [f32v (nth tok.values d 0)] (fun _ => tokenRnd q head tok true d)
          (splice acc.1 (at_ + ix.1) (packN 8 blk.codes), acc.2 ++ [blk])) acc) r1

/-- The KV page that a slice has taken for a page of a head. -/
def Slice.takenFor (sl : Slice) (desc h p : Nat) : Option KvTaken :=
  sl.taken.find? (fun x => x.desc == desc && x.head == h && x.page == p)

/-- The KV pages that a first append to a page counts: its frame, and the remnant that its copy brings (R145). -/
def Slice.appendNeed (sl : Slice) (desc h p : Nat) (entry : W64) : Nat :=
  if (sl.takenFor desc h p).isSome then 0 else if peValid entry && peRemnant entry then 2 else 1

/-- Whether a KVAPP to one page faults (R144 to R146): a token below the page's valid count or in an evicted page, or a
frame that another slice has taken for the page in this tick. -/
def State.appendError (s : State) (ref : SliceRef) (sl : Slice) (q : Seq) (desc h p : Nat) (pe : Nat) (entry : W64)
    (lowest : Nat) : Bool :=
  let taken := (sl.takenFor desc h p).isSome
  let low := peValid entry && (peEvicted entry || lowest % q.tpp < peCount entry)
  let other := allQ.any (fun i =>
    match s.run ref.t i with
    | none => false
    | some r => r.slices.any (fun x =>
        !(i == ref.q && x.idx == ref.idx) && x.taken.any (fun y => y.pe == pe && y.tick == s.tick.count)))
  low || (!taken && other)

/-- Takes a frame for a page (R145): fresh, or a copy of the committed one with its remnant; none when no slot
is free. -/
def State.takeKv (s : State) (ref : SliceRef) (q : Seq) (desc h p pe : Nat) (entry : W64) : Option State :=
  let old := if peValid entry then s.kvRec (peFrame entry) else none
  let stack := if peValid entry then kvStack (peFrame entry) else s.stackMod (h + p)
  match s.takeSlot ref.t stack with
  | none => none
  | some (f, s) =>
    let base := if peValid entry then peCount entry else 0
    let bytes := if peValid entry then
        kvMask q base (memReadN s.mem.mem (kvPhys (peFrame entry)) Config.kvFrameBytes)
      else kvEmpty q
    let k : KvFrame := { t := ref.t, names := [], pin := true, lastUse := s.tick.count, summary := [],
                         remnant := none, staged := none }
    let s := (s.setKv f k).pwrite (kvPhys f) (bytes.take Config.kvFrameBytes)
    let rem := if peRemnant entry then old.bind (·.remnant) else none
    let s := match rem with
      | none => some s
      | some r =>
        match s.takeSlot ref.t (kvStack f) with
        | none => none
        | some (g, s) => some (s.modKv f (fun k => { k with remnant := some { r with slot := g } }))
    s.map (fun s =>
      let s := s.modSlice ref (fun sl =>
        { sl with
          taken := sl.taken ++ [{ desc := desc, head := h, page := p, pe := pe, frame := f, base := base,
                                  top := base, tick := s.tick.count }]
          kvUsed := sl.kvUsed + (if rem.isSome then 2 else 1) })
      s.bump 0x9024 3 (if peValid entry then 1 else 0))

/-- Adds a token to its group, replacing an earlier append of the position. -/
def addToken (l : List BrineGroup) (desc h p g core : Nat) (tok : BrineToken) : List BrineGroup :=
  if l.any (fun x => x.desc == desc && x.head == h && x.page == p && x.group == g) then
    l.map (fun x => if x.desc == desc && x.head == h && x.page == p && x.group == g then
      { x with tokens := x.tokens.filter (fun y => y.pos != tok.pos) ++ [tok] } else x)
  else l ++ [{ desc := desc, head := h, page := p, group := g, tokens := [tok], core := core, spilled := false }]

/-- Whether every position of a group has been appended. -/
def BrineGroup.complete (g : BrineGroup) : Bool := g.tokens.length == 32

/-- Spills the oldest incomplete groups of a core beyond what its brine buffer holds (R149). -/
def spillBrine (l : List BrineGroup) (core cap : Nat) : List BrineGroup × Nat :=
  let open_ := l.filter (fun g => g.core == core && !g.complete && !g.spilled)
  let n := open_.length - cap
  let first := open_.take n
  (l.map (fun g => if first.contains g then { g with spilled := true } else g), n)

/-- Writes the complete groups of a slice in one page to its frame. -/
def State.writeGroups (s : State) (q : Seq) (k : KvTaken) (groups : List BrineGroup) : State :=
  let old := ((s.kvRec k.frame).bind (·.remnant)).map (·.tokens)
  let bs := memReadN s.mem.mem (kvPhys k.frame) Config.kvFrameBytes
  let r := groups.foldl (fun (acc : List Byte × List BlockConv) g =>
    let x := putGroup q k.head k.page g.group k.base g.tokens (old.getD []) acc.1
    (x.1, acc.2 ++ x.2)) (bs, [])
  let s := s.pwrite (kvPhys k.frame) (r.1.take Config.kvFrameBytes)
  s.countBlocks q.fmt r.2

/-- A page of an append with what the walk of its entry found. -/
abbrev Walked := Nat × Except (Nat × Nat) (Seq × Nat × W64 × State)

/-- Walks the pages of an append in turn: the look-aside buffer learns each of them (R142). -/
def State.walkPages (s : State) (core : Nat) (t : Fin 4) (desc h tpp : Nat) : List Nat → List Walked × State
  | [] => ([], s)
  | p :: r =>
    match s.walk core t desc h (p * tpp) with
    | .error e =>
      let x := s.walkPages core t desc h tpp r
      ((p, .error e) :: x.1, x.2)
    | .ok y =>
      let x := y.2.2.2.walkPages core t desc h tpp r
      ((p, .ok y) :: x.1, x.2)

/-- The first fault of an append over its pages, ascending; `used` KV pages are counted already (R144 to R146). -/
def State.appendFault (s : State) (ref : SliceRef) (sl : Slice) (desc h pos : Nat) : Nat → List Walked → Option (Nat × Nat)
  | _, [] => none
  | _, (_, .error (e, a)) :: _ => some (e, a)
  | used, (p, .ok (q, pe, entry0, _)) :: r =>
    let entry := s.heldEntry ref pe entry0
    let n := sl.appendNeed desc h p entry
    if inModelWindow (pageOf pe) then some (Config.errPageForeign, pe)
    else if s.appendError ref sl q desc h p pe entry (max pos (p * q.tpp)) || sl.kvPages < used + n then
      some (Config.errPageUnmapped, pe)
    else s.appendFault ref sl desc h pos (used + n) r

/-- Takes a KV frame for every page of an append that the slice has not taken yet; none when no slot is free. -/
def State.takePages (s : State) (ref : SliceRef) (q : Seq) (desc h : Nat) (found : List Walked) : Option State :=
  found.foldl (fun (acc : Option State) x =>
    match acc, x.2 with
    | some s, .ok (_, pe, entry, _) =>
      if ((s.slice ref).bind (·.takenFor desc h x.1)).isSome then some s
      else s.takeKv ref q desc h x.1 pe (s.heldEntry ref pe entry)
    | a, _ => a) (some s)

/-- Puts appended tokens into the brine of the slice, and writes the groups that they complete. -/
def State.putTokens (s : State) (c : CtxId) (ref : SliceRef) (q : Seq) (desc h : Nat) (toks : List BrineToken) : State :=
  let brine0 := ((s.slice ref).map (·.brine)).getD []
  let brine1 := toks.foldl (fun l tok =>
    addToken l desc h (tok.pos / q.tpp) (tok.pos % q.tpp / 32) c.core.val tok) brine0
  let sp := spillBrine brine1 c.core.val (if q.dim = 128 then 2 else 4)
  let s := s.bump 0x9024 4 sp.2
  let s := s.modSlice ref (fun sl =>
    { sl with
      brine := sp.1
      taken := sl.taken.map (fun (k : KvTaken) =>
        if k.desc = desc ∧ k.head = h then
          { k with top := toks.foldl (fun m tok =>
              if tok.pos / q.tpp = k.page then max m (tok.pos % q.tpp + 1) else m) k.top }
        else k) })
  match s.slice ref with
  | none => s
  | some sl => s.each (sl.taken.filter (fun (k : KvTaken) => k.desc == desc && k.head == h)) (fun s (k : KvTaken) =>
      s.writeGroups q k (sp.1.filter (fun g =>
        g.desc == desc && g.head == h && g.page == k.page && g.complete &&
          toks.any (fun tok => tok.pos / q.tpp == g.page && tok.pos % q.tpp / 32 == g.group))))

/-- KVAPP: IMM [6:0] tokens from s[SB], keys first, then values. The entries are walked before the window range is
checked (DESIGN CHOICE, log entry 66). -/
def execKvapp (c : CtxId) (s : State) : Host.Outcome State Fault Refusal :=
  .next (issueOp c 0x68 (fun st sl w s =>
    let desc := (st.s[fTSA w]).toNat
    let h := (st.s[(fTSA w + 1 : Fin 32)]).toNat
    let pos := (st.s[(fTSA w + 2 : Fin 32)]).toNat
    let n := wbits w 0 7
    let off := (st.s[fTSB w]).toNat
    let t := st.ref.t
    match s.resolve t desc h pos with
    | .error (e, a) => s.raise c st e (BitVec.ofNat 64 a)
    | .ok (q, _, _) =>
      withRange c st sl off (n * q.dim * 8) 1 (fun s =>
        if 2 ^ 24 < pos + n then s.raise c st Config.errPageUnmapped (BitVec.ofNat 64 desc)
        else
          let pages := ((List.range n).map (fun i => (pos + i) / q.tpp)).eraseDups
          let found := s.walkPages c.core.val t desc h q.tpp pages
          match s.appendFault st.ref sl desc h pos sl.kvUsed found.1 with
          | some (e, a) => s.raise c st e (BitVec.ofNat 64 a)
          | none =>
            match found.2.takePages st.ref q desc h found.1 with
            | none => s
            | some s =>
              let words := (unpackN 32 (winRead s.free st.win off (n * q.dim * 8)) (2 * n * q.dim)).map
                (fun v => canon32 (BitVec.ofNat 32 v))
              let toks := (List.range n).map (fun i =>
                ({ pos := pos + i, keys := (words.drop (i * q.dim)).take q.dim,
                   values := (words.drop ((n + i) * q.dim)).take q.dim, sr := fFlag w 37,
                   key := st.k[((w.extractLsb' 35 2).toFin : Fin 4)] } : BrineToken))
              (s.putTokens c st.ref q desc h toks).setStrand c st.next) s) s)

/-! ### KVSKIP (R155, R156) -/

/-- Heads of the group of a query block record, and the head's place among them. -/
def headGroup (q : Seq) (desc h : Nat) : Nat × Nat :=
  if q.dim = 128 then (1, 0)
  else
    let v := Config.kvGroup desc h
    (1 + v % 4, v / 4 % (1 + v % 4))

/-- The bound of one row against a page summary. -/
def rowBound (q : List W32) (summary : List W32) : W32 :=
  (q.zip summary).foldl (fun u p => f32fma (f32abs p.1) p.2 u) 0

/-- Whether every row of a record bounds below its anchor less T. -/
def skipRows (rows : List (W32 × List W32)) (summary : List W32) (sigma thr : W32) : Bool :=
  rows.all (fun r => (f32v r.1).isFin &&
    f32below (f32mul (rowBound r.2 summary) sigma) (f32sub r.1 thr))

/-- KVSKIP. -/
def execKvskip (c : CtxId) (s : State) : Host.Outcome State Fault Refusal :=
  .next (issueOp c 0x6A (fun st sl w s =>
    let desc := (st.s[fTSA w]).toNat
    let h := (st.s[(fTSA w + 1 : Fin 32)]).toNat
    let pos := (st.s[(fTSA w + 2 : Fin 32)]).toNat
    let off := (st.s[fTSB w]).toNat
    let t := st.ref.t
    let fin := fun (v : Nat) (s : State) =>
      s.setStrand c (st.setS ⟨(fTA w).val, by omega⟩ (BitVec.ofNat 64 v)).next
    match s.seqAt t desc with
    | .error (e, a) => s.raise c st e (BitVec.ofNat 64 a)
    | .ok q =>
      let g := headGroup q desc h
      let len := 320 + 64 * g.1 * q.dim * 4
      withRange c st sl off len 64 (fun s =>
        let rec_ := winRead s.free st.win off len
        let cfg := ((s.run st.ref.t st.ref.q).map (fun r => nth r.skip q.skipIndex (0, 0))).getD (0, 0)
        if cfg.1 = 0 then fin 0 s
        else if leAt rec_ 260 4 / q.tpp = pos / q.tpp then fin 0 (s.bump 0x9024 6 1)
        else
          match s.walk c.core.val t desc h pos with
          | .error (e, a) => s.raise c st e (BitVec.ofNat 64 a)
          | .ok (_, pe, entry, s) =>
            let entry := s.heldEntry st.ref pe entry
            if !peValid entry then s.raise c st Config.errPageUnmapped (BitVec.ofNat 64 pe)
            else if peEvicted entry then fin 0 (s.bump 0x9024 6 1)
            else
              let words := (unpackN 32 rec_ (len / 4)).map (BitVec.ofNat 32)
              let rows := (List.range 64).map (fun i =>
                (nth words i 0, ((words.drop (80 + (i * g.1 + g.2) * q.dim)).take q.dim)))
              let sum := ((s.kvRec (peFrame entry)).map (·.summary)).getD []
              if skipRows rows sum (nth words 64 0) (BitVec.ofNat 32 cfg.2) then fin 1 (s.bump 0x9024 5 1)
              else fin 0 (s.bump 0x9024 6 1)) s) s)

end Sys2Proof.Machine
end

