-- ==== Sys2Proof/Machine/Check.lean ====
section
/-! DEFINITION. What the module checks when it first reads a slice: the parts of a slice image (R427), the slice
header (R29), the tile program header (R59), every instruction (R65, R71), the shape rules (R72), the mark table
(R30, R75), the initial descriptors (R63) and the length sources (R60). -/
namespace Sys2Proof.Machine

open Sys2Proof

/-! ### Legality of an instruction (R65, R71, with R68, R104, R190, R191) -/

/-- Whether every bit of a word outside the opcode and the given fields (lowest bit, width) is 0. -/
def onlyFields (w : W64) (l : List (Nat × Nat)) : Bool :=
  l.foldl (fun (v : W64) x => v &&& ~~~(BitVec.ofNat 64 ((2 ^ x.2 - 1) * 2 ^ x.1))) (w.setWidth 56 |>.setWidth 64) == 0

/-- The flags of a slice header that instructions require, and the bytes of the program. -/
structure ProgFlags where
  accum : Bool
  kvAppend : Bool
  ring : Bool
  instrBytes : Nat
deriving DecidableEq, Repr

/-- Format A: control and scalar instructions. -/
def legalA (op : Nat) (w : W64) : Bool :=
  let sd := (51, 5)
  let sa := (46, 5)
  let sb := (41, 5)
  let imm := (0, 32)
  if op = 0x00 ∨ op = 0x01 ∨ op = 0x32 then onlyFields w []
  else if op = 0x05 then onlyFields w [(1, 15)]
  else if op = 0x06 then onlyFields w [sd, (0, 2)]
  else if op = 0x07 then onlyFields w [sd, (0, 3)]
  else if op = 0x10 ∨ op = 0x11 then onlyFields w [sd, imm]
  else if op = 0x12 ∨ op = 0x19 ∨ op = 0x1A ∨ op = 0x1B then onlyFields w [sd, sa, sb, imm]
  else if op = 0x15 then onlyFields w [sd, sa, imm]
  else if op = 0x13 ∨ op = 0x14 ∨ op = 0x16 ∨ op = 0x17 ∨ op = 0x18 ∨ op = 0x1C ∨ op = 0x1D then
    onlyFields w [sd, sa, sb]
  else if op = 0x1E ∨ op = 0x1F then onlyFields w [sd, sa, imm] && wbits w 0 32 != 0
  else false

/-- Format B: a branch to a multiple of 8 within the program. -/
def legalB (op : Nat) (instrBytes : Nat) (w : W64) : Bool :=
  (if op = 0x02 then onlyFields w [(52, 4), (47, 5), (42, 5), (0, 32)] && fCond w ≤ 6
   else onlyFields w [(47, 5), (0, 32)]) &&
  fTarget w % 8 == 0 && 64 ≤ fTarget w && fTarget w < 64 + instrBytes

/-- Format V: vector instructions. -/
def legalV (op : Nat) (w : W64) : Bool :=
  let vd := (51, 5)
  let va := (46, 5)
  let vb := (41, 5)
  let vc := (36, 5)
  let fn := (32, 4)
  let sa := (27, 5)
  if op = 0x40 then onlyFields w [vd, fn, sa, (0, 27)] && fFN w ≤ 3
  else if op = 0x41 then onlyFields w [va, fn, sa, (0, 27)] && fFN w ≤ 3
  else if op = 0x42 ∨ op = 0x43 then onlyFields w [vd, sa]
  else if op = 0x44 then onlyFields w [va, sa, (0, 6)]
  else if op = 0x48 ∨ op = 0x49 ∨ op = 0x4A ∨ op = 0x4C ∨ op = 0x4D then onlyFields w [vd, va, vb]
  else if op = 0x4B ∨ op = 0x51 then onlyFields w [vd, va, vb, vc]
  else if op = 0x4E ∨ op = 0x52 then onlyFields w [vd, va, fn] && fFN w ≤ 2
  else if op = 0x50 then onlyFields w [vd, va, vb, fn] && fFN w ≤ 3
  else if op = 0x54 ∨ op = 0x55 then onlyFields w [vd, va]
  else if op = 0x56 then
    [1, 2, 3, 8, 10].contains (fFN w) &&
      (if w.getLsbD 40 then onlyFields w [vd, va, (41, 4), (40, 1), (36, 2), fn, sa] else onlyFields w [vd, va, fn])
  else if op = 0x58 then onlyFields w [vd, va, vb, vc, fn, sa, (9, 13)] && [2, 3, 8].contains (fFN w)
  else if op = 0x60 then
    fFN w ≤ 2 && onlyFields w ([va, vb, fn, sa] ++ (if fFN w = 2 then [(0, 16)] else [])) &&
      (fFN w != 2 || wbits w 0 16 != 0)
  else false

/-- Format T: tile, matrix, crystalliser, KV and link instructions. -/
def legalT (op : Nat) (h : ProgFlags) (w : W64) : Bool :=
  let ta := (52, 4)
  let tc := (44, 4)
  let fa := (40, 4)
  let sa := (27, 5)
  let sb := (22, 5)
  let imm := (0, 22)
  let sa4 := (fTSA w).val % 4 == 0
  if op = 0x20 ∨ op = 0x21 then onlyFields w [ta, sa, imm]
  else if op = 0x22 then onlyFields w [ta, (48, 4), sa]
  else if op = 0x23 then onlyFields w [ta, sa, (0, 2)]
  else if op = 0x28 then onlyFields w [ta, tc, (39, 1), sa, sb, imm] && sa4
  else if op = 0x29 then onlyFields w [ta, (39, 1), sa, sb, imm] && sa4
  else if op = 0x2A then onlyFields w [ta, (39, 1), sa, sb, imm] && sa4 && h.accum
  else if op = 0x2B ∨ op = 0x2C then onlyFields w [(52, 2), sa, imm]
  else if op = 0x30 then
    onlyFields w [tc, fa, (35, 5), sa, sb, (6, 16)] && fFA w < 12 && wbits w 36 4 < 12 && wbits w 10 8 < 128
  else if op = 0x31 then onlyFields w [(32, 1), (18, 4), (6, 4)]
  else if op = 0x33 then
    let sr := fFlag w 37
    let needsB := sr || fFlag w 38 || fFlag w 39
    onlyFields w ([ta, fa, (37, 3), sa, (18, 4), (6, 4)] ++ (if sr then [tc, (35, 2)] else []) ++
      (if needsB then [sb] else [])) &&
      (fTA w).val ≤ 6 && fFA w ≤ 10 && (!sr || (fTSB w).val % 2 == 0)
  else if op = 0x61 then
    onlyFields w [(44, 12), fa, (39, 1), sa, sb, imm] && wbits w 44 12 != 0 && fFA w ≤ 3 && fTImm w != 0 &&
      fTImm w ≤ 65536
  else if op = 0x68 then
    onlyFields w ([fa, (37, 1), sa, sb, (0, 7)] ++ (if fFlag w 37 then [(35, 2)] else [])) && sa4 && h.kvAppend &&
      (fFA w == 2 || fFA w == 8) && wbits w 0 7 != 0 && wbits w 0 7 ≤ 64
  else if op = 0x69 then onlyFields w [tc, sa, sb, (0, 1)] && sa4
  else if op = 0x6A then onlyFields w [ta, sa, sb] && sa4
  else if op = 0x70 then onlyFields w [sa, sb, imm] && h.ring
  else if op = 0x71 then onlyFields w [tc, sa, sb, imm] && h.ring
  else false

/-- Whether a word is an instruction that a program may hold. -/
def legalWord (h : ProgFlags) (w : W64) : Bool :=
  let op := fOp w
  if op = 0x02 ∨ op = 0x03 then legalB op h.instrBytes w
  else if op = 0x04 then onlyFields w [(51, 5), (39, 12), (0, 38)]
  else legalA op w || legalV op w || legalT op h w

/-! ### Shape rules (R72) -/

/-- The pairs of *MMA format pairs*. -/
def mmaPair (a b : Nat) : Bool :=
  ((a == 2 || a == 3) && (b == 2 || b == 3)) || ((a == 4 || a == 5) && (b == 4 || b == 5)) ||
  ((a == 6 || a == 7) && (b == 6 || b == 7)) || (a == 9 && b == 9) || (a == 8 && b == 8) || (a == 10 && b == 10) ||
  ((a == 8 || a == 10) && b == 11) || (a == 1 && b == 1)

/-- Whether any instruction of a program writes descriptor register r. -/
def writesDesc (prog : List W64) (r : Fin 16) : Bool :=
  prog.any (fun w => (fOp w == 0x20 || fOp w == 0x22 || fOp w == 0x23) && fTA w == r)

/-- Columns: CB + N within ACC_COLS. -/
def columnsOk (accCols : Nat) (w : W64) : Bool :=
  let op := fOp w
  if op = 0x30 ∨ op = 0x31 ∨ op = 0x33 then fCB w + fN w ≤ accCols
  else if op = 0x58 then fSmxCB w + fSmxN w ≤ accCols
  else true

/-- The operands of an MMA, with scales, fit the window. -/
def mmaFits (store : Nat) (w : W64) : Bool :=
  fOp w != 0x30 || (matBytes (fFA w) 64 (fK w) ≤ store && matBytes (wbits w 36 4) (fN w) (fK w) ≤ store)

/-- A tile whose format the program cannot change fits the window. -/
def tileFits (sl : Slice) (w : W64) : Bool :=
  let op := fOp w
  if op = 0x28 ∨ op = 0x29 ∨ op = 0x2A then
    match sl.descs[(fTA w).val]? with
    | none => true
    | some d =>
      writesDesc sl.prog (fTA w) ||
        tileBytesSc (dFmt d) (fRows w) (fCols w) (fSC w && fmtScaled (dFmt d)) ≤ sl.storeBytes
  else true

/-- The output tile of a DRAIN or SMX fits the window. -/
def outputFits (store : Nat) (w : W64) : Bool :=
  if fOp w = 0x33 then matBytes (fFA w) 64 (fN w) ≤ store
  else if fOp w = 0x58 then matBytes (fFN w) 64 (fSmxN w) ≤ store
  else true

/-- The locator in image form of an offset, and that of an instruction, of slice idx. -/
def atImage (idx off : Nat) : Nat := (locImage idx off).toNat

/-- The lowest PC whose word fails a test. -/
def firstBad (prog : List W64) (ok : W64 → Bool) : Option Nat :=
  (prog.findIdx? (fun w => !ok w)).map (fun i => 64 + 8 * i)

/-- The first shape rule broken, as the error's locator. -/
def shapeError (sl : Slice) : Option Nat :=
  let x := 2 ^ sl.ctxLog2
  let p := ceilDiv (64 + sl.instrBytes) 4096 * 4096
  let pc := fun (n : Nat) => (locPc sl.idx n).toNat
  if 2097152 < p + x * sl.storeBytes || 1024 < x * sl.accCols then some (atImage sl.idx sl.programOffset)
  else
    ([columnsOk sl.accCols, fun w => fOp w != 0x30 || mmaPair (fFA w) (wbits w 36 4), mmaFits sl.storeBytes,
      tileFits sl, outputFits sl.storeBytes].findSome? (firstBad sl.prog)).map pc

/-! ### Parts of a slice image (R427) -/

/-- A part: its offset and bytes, its alignment, and the offset of the header that holds its offset. -/
structure Part where
  off : Nat
  len : Nat
  align : Nat
  header : Nat
deriving DecidableEq, Repr

/-- Whether two parts overlap. -/
def Part.meets (a b : Part) : Bool := a.len != 0 && b.len != 0 && a.off < b.off + b.len && b.off < a.off + a.len

/-- Whether a part keeps to the image and its alignment. -/
def Part.ok (p : Part) : Bool := p.len == 0 || (p.off % p.align == 0 && p.off + p.len ≤ 2 ^ 32)

/-- The first part that breaks R427 against the parts before it, by the offset of the offending header. -/
def badPart : List Part → List Part → Option Nat
  | _, [] => none
  | before, p :: r => if !p.ok || before.any (·.meets p) then some p.header else badPart (before ++ [p]) r

/-- Word i of 64 header bytes. -/
def hw (bs : List Byte) (i : Nat) : W64 := BitVec.ofNat 64 (leAt bs (8 * i) 8)

/-- The parts that a slice header places, but for the tile program, whose bytes its own header gives. -/
def headerParts (h : List Byte) : List Part :=
  [{ off := 0, len := 64, align := 64, header := 0 },
   { off := wbits (hw h 5) 0 32, len := 4 * wbits (hw h 4) 48 16, align := 4, header := 0 },
   { off := wbits (hw h 6) 32 32, len := 8 * wbits (hw h 4) 32 16, align := 8, header := 0 },
   { off := wbits (hw h 6) 0 32, len := 16 * wbits (hw h 0) 16 16, align := 8, header := 0 }]

/-- The parts that a tile program header at an offset places: the program, the initial descriptors, the length sources. -/
def programParts (po : Nat) (p : List Byte) : List Part :=
  [{ off := po, len := 64 + wbits (hw p 0) 32 32, align := 64, header := 0 },
   { off := wbits (hw p 4) 32 32, len := 64 * wbits (hw p 5) 48 16, align := 64, header := po },
   { off := wbits (hw p 4) 0 32, len := 8 * wbits (hw p 0) 8 4, align := 8, header := po }]

/-- Whether an offset can be that of a tile program. -/
def programAt (po : Nat) : Bool := po % 64 == 0 && po + 72 ≤ 2 ^ 32

/-- The reserved fields and ranges of a slice header (R6, R29). -/
def headerOk (h : List Byte) : Bool :=
  wbits (hw h 0) 3 13 == 0 && wbits (hw h 0) 16 16 ≤ 4095 && wbits (hw h 4) 0 32 == 0 && hw h 7 == 0

/-- The reserved fields and ranges of a tile program header (R59). -/
def programOk (h : List Byte) : Bool :=
  let ib := wbits (hw h 0) 32 32
  let sb := wbits (hw h 1) 32 32
  let ac := wbits (hw h 1) 0 11
  ib % 8 == 0 && 8 ≤ ib && ib ≤ 262144 && wbits (hw h 0) 12 20 == 0 && wbits (hw h 0) 8 4 ≤ 8 &&
  wbits (hw h 0) 3 5 == 0 && wbits (hw h 0) 0 3 ≤ 4 && sb % 512 == 0 && 512 ≤ sb && wbits (hw h 1) 11 21 == 0 &&
  ac % 64 == 0 && ac ≤ 1024 && 1 ≤ wbits (hw h 3) 32 32 && wbits (hw h 3) 8 24 == 0 && wbits (hw h 3) 3 4 == 0 &&
  wbits (hw h 5) 48 16 ≤ 16 && wbits (hw h 5) 0 48 == 0 && hw h 6 == 0 && hw h 7 == 0

/-- A check that failed: the code and the address. -/
abbrev Bad := Nat × Nat

/-- A committed read of Tt at an address, or the error of the first byte that cannot be read. -/
def State.getT (s : State) (t : Fin 4) (a n : Nat) : Except Bad (List Byte) :=
  match s.checkT t a n with
  | some (x, e) => .error (e, x)
  | none => .ok (s.readT t a n)

/-- ERR_SLICE_INVALID at an offset of the image of slice idx. -/
def sliceBad {α : Type} (idx off : Nat) : Except Bad α := .error (Config.errSliceInvalid, atImage idx off)

/-- Passes a check or fails. -/
def need (ok : Bool) (e : Bad) : Except Bad Unit := if ok then .ok () else .error e

/-- The outline of a slice that its header gives: what admission needs before the slice is first admitted. -/
def sliceOf (idx base : Nat) (h : List Byte) (deps : List Nat) : Slice :=
  { idx := idx, cost := (hw h 1).toNat, ringStep := false, accum := (hw h 0).getLsbD 1,
    kvAppend := (hw h 0).getLsbD 0, outPages := wbits (hw h 2) 32 32, cellsReq := wbits (hw h 2) 0 32,
    kvPages := wbits (hw h 3) 32 32, linkMib := wbits (hw h 3) 0 32, deps := deps, outs := [], marks := [],
    prog := [], instrBytes := 0, ctxLog2 := 0, storeBytes := 0, accCols := 0, strandBase := 0, strandCount := 0,
    rowLenEn := false, rowLenSel := 0, descs := [], lenAddrs := [], lens := List.replicate 8 0,
    programOffset := wbits (hw h 5) 32 32, base := base, rom := false, checked := false, state := .waiting,
    passed := 0, firstEligible := none, requeued := none, overruns := 0, exclusive := false, segment := none,
    segStart := 0, admittedAt := 0, admOrder := 0, effClass := 0, killed := false, fresh := [], working := [],
    remaining := 0, saved := [], saveFrames := [], brine := [], taken := [], kvUsed := 0, missed := [], start := none }

/-- Reads the header and the dependency list of slice idx of a table (R425, R289); the list may overlap no other part
(R427), those that the tile program header places among them. -/
def State.readOutline (s : State) (t : Fin 4) (table idx : Nat) : Except Bad Slice := do
  let e ← s.getT t (table + 8 * idx) 8
  let base := ofLe e
  need (base < 2 ^ 52 && base % 64 == 0) (Config.errSliceInvalid, atImage idx 0)
  let h ← s.getT t base 64
  need (wbits (hw h 0) 32 32 == idx) (Config.errSliceInvalid, atImage idx 0)
  match headerParts h with
  | [hd, dep, out, mark] =>
    let po := wbits (hw h 5) 32 32
    let p ← if dep.len = 0 || !programAt po then .ok [] else s.getT t (base + po) 64
    let others := [hd, out, mark] ++ (if p.isEmpty then [] else programParts po p)
    need (dep.ok && !others.any dep.meets) (Config.errSliceInvalid, atImage idx 0)
    let d ← s.getT t (base + dep.off) dep.len
    return sliceOf idx base h ((unpackN 32 d (dep.len / 4)))
  | _ => sliceBad idx 0

/-- Reads the outlines of a command's slices. -/
def State.readOutlines (s : State) (t : Fin 4) (table n : Nat) : Except Bad (List Slice) :=
  (List.range n).foldlM (fun acc i => do return acc ++ [← s.readOutline t table i]) []

/-- The bad indices of a dependency list: the slice itself, or at or beyond SLICE_COUNT. -/
def badDep (n : Nat) (sl : Slice) : Option Nat :=
  (sl.deps.findIdx? (fun d => d == sl.idx || n ≤ d))

/-- The offset of entry i of a slice's dependency list, from its header. -/
def State.depOffset (s : State) (t : Fin 4) (sl : Slice) (i : Nat) : Nat := s.numT t (sl.base + 40) 4 + 4 * i

/-- Removes, as often as it can, the slices whose dependencies are all removed; what is left lies on or behind a
cycle. -/
def pruneDeps (l : List Slice) : Nat → List Slice
  | 0 => l
  | k + 1 =>
    let l' := l.filter (fun sl => sl.deps.any (fun d => l.any (fun x => x.idx == d)))
    if l'.length = l.length then l else pruneDeps l' k

/-- The slices that a slice reaches by dependencies within n steps. -/
def reachDeps (l : List Slice) (frm : List Nat) : Nat → List Nat
  | 0 => frm
  | k + 1 =>
    let next := (frm ++ (l.filter (fun x => frm.contains x.idx)).flatMap (·.deps)).eraseDups
    if next.length = frm.length then frm else reachDeps l next k

/-- Whether a slice lies on a cycle. -/
def onCycle (l : List Slice) (sl : Slice) : Bool := (reachDeps l sl.deps l.length).contains sl.idx

/-- R425: the command's slices, or the failure. -/
def State.slicesOf (s : State) (t : Fin 4) (table n : Nat) : Except Bad (List Slice) := do
  let l ← s.readOutlines t table n
  match l.find? (fun sl => (badDep n sl).isSome) with
  | some sl => sliceBad sl.idx (s.depOffset t sl ((badDep n sl).getD 0))
  | none =>
    let rest := pruneDeps l l.length
    match rest.find? (onCycle rest) with
    | some sl =>
      let cyc := fun (d : Nat) => rest.any (fun x => x.idx == d && onCycle rest x && (reachDeps rest x.deps rest.length).contains sl.idx)
      sliceBad sl.idx (s.depOffset t sl ((sl.deps.findIdx? cyc).getD 0))
    | none => return l

/-! ### The checks of first admission -/

/-- The mark entries of bytes. -/
def marksOf (n : Nat) (bs : List Byte) : List MarkEntry :=
  (List.range n).map (fun i =>
    { cumCost := leAt bs (16 * i) 8, pc := leAt bs (16 * i + 12) 4, liveBytes := leAt bs (16 * i + 8) 4 })

/-- The first mark entry that is out of order or at COST or above (R30). -/
def badMark (cost : Nat) : Nat → Nat → List MarkEntry → Option Nat
  | _, _, [] => none
  | i, low, m :: r => if (i ≠ 0 && m.cumCost ≤ low) || cost ≤ m.cumCost then some i else badMark cost (i + 1) m.cumCost r

/-- The first mark entry that does not name a MARK of its live size (R75). -/
def badLive (sl : Slice) : Option Nat :=
  sl.marks.findIdx? (fun m =>
    !(m.pc % 8 == 0 && 64 ≤ m.pc &&
      (match sl.word m.pc with
       | some w => fOp w == 4 && liveSize (fLive w) sl.accCols sl.storeBytes == m.liveBytes
       | none => false)))

/-- Output list entries: the page and WHOLE; none where a reserved bit is set. -/
def outOf (e : Nat) : Option (Nat × Bool) :=
  if bits e 52 11 = 0 && bits e 0 21 = 0 then some (bits e 21 31, e.testBit 63) else none

/-- Reads and checks a slice at its first admission; its progress stays (R29, R30, R59, R60, R63, R65, R71, R72, R75,
R427, R343). The order of the checks is that of the parts of the image (DEDUCED, log entry 40). -/
def State.readSlice (s : State) (t : Fin 4) (old : Slice) : Except Bad Slice := do
  let i := old.idx
  let base := old.base
  let h ← s.getT t base 64
  need (headerOk h && !(hw h 0).getLsbD 2 && wbits (hw h 0) 32 32 == i) (Config.errSliceInvalid, atImage i 0)
  let po := wbits (hw h 5) 32 32
  need (programAt po) (Config.errSliceInvalid, atImage i 0)
  let p ← s.getT t (base + po) 64
  need (programOk p) (Config.errSliceInvalid, atImage i po)
  let ib := wbits (hw p 0) 32 32
  let nl := wbits (hw p 0) 8 4
  let nd := wbits (hw p 5) 48 16
  let parts := headerParts h ++ programParts po p
  match badPart [] parts with
  | some off => sliceBad i off
  | none =>
    let get := fun (k : Nat) => match parts[k]? with
      | some x => s.getT t (base + x.off) x.len
      | none => .ok []
    let nm := wbits (hw h 0) 16 16
    let no := wbits (hw h 4) 32 16
    let deps ← get 1
    let outB ← get 2
    let markB ← get 3
    let code ← get 4
    let descB ← get 5
    let lenB ← get 6
    let outs := (unpackN 64 outB no).map outOf
    let oo := wbits (hw h 6) 32 32
    let mo := wbits (hw h 6) 0 32
    match outs.findIdx? Option.isNone with
    | some k => sliceBad i (oo + 8 * k)
    | none =>
      let cost := (hw h 1).toNat
      let marks := marksOf nm markB
      match badMark cost 0 0 marks with
      | some k => sliceBad i (mo + 16 * k)
      | none =>
        let lenA := unpackN 64 lenB nl
        let lo := wbits (hw p 4) 0 32
        match lenA.findIdx? (fun a => a % 4 != 0 || 2 ^ 52 ≤ a) with
        | some k => sliceBad i (lo + 8 * k)
        | none =>
          let descs := (unpackN 512 descB nd).map (BitVec.ofNat 512)
          let words := ((unpackN 64 code (8 + ib / 8)).drop 8).map (BitVec.ofNat 64)
          let fresh := sliceOf i base h (unpackN 32 deps (wbits (hw h 4) 48 16))
          let sl : Slice := { old with
            cost := cost, ringStep := false, accum := fresh.accum, kvAppend := fresh.kvAppend,
            outPages := fresh.outPages, cellsReq := fresh.cellsReq, kvPages := fresh.kvPages,
            linkMib := fresh.linkMib, outs := outs.filterMap id, marks := marks, prog := words, instrBytes := ib,
            ctxLog2 := wbits (hw p 0) 0 3, storeBytes := wbits (hw p 1) 32 32, accCols := wbits (hw p 1) 0 11,
            strandBase := (hw p 2).toNat, strandCount := wbits (hw p 3) 32 32,
            rowLenEn := (hw p 3).getLsbD 7, rowLenSel := wbits (hw p 3) 0 3, descs := descs, lenAddrs := lenA,
            programOffset := po, checked := true }
          match firstBad words (legalWord { accum := sl.accum, kvAppend := sl.kvAppend, ring := false, instrBytes := ib }) with
          | some pc => .error (Config.errIllegalInstruction, (locPc i pc).toNat)
          | none =>
            match shapeError sl with
            | some a => .error (Config.errTileShape, a)
            | none =>
              match badLive sl with
              | some k => sliceBad i (mo + 16 * k)
              | none =>
                match descs.findIdx? (fun d => !descValid d) with
                | some k => .error (Config.errDescriptorInvalid, atImage i (wbits (hw p 4) 32 32 + 64 * k))
                | none =>
                  match ((descs.map dBase).find? (fun a => s.modelGone (pageOf a))).map (Config.errModelAbsent, ·) <|>
                      lenA.findSome? (fun a => (s.checkT t a 4).map (fun e => (e.2, a))) with
                  | some e => .error e
                  | none =>
                    return { sl with lens := lenA.map (fun a => s.numT t a 4) ++ List.replicate (8 - nl) 0 }

end Sys2Proof.Machine
end

