-- ==== Sys2Proof/Machine/Flags.lean ====
section
/-! DEFINITION. Event flags and what a host is sent: EVENT_CAUSE and vector 63 (R279, R292), MSI-X messages, the
error log (R293, R294), completion records (R287, R291). -/
namespace Sys2Proof.Machine

open Sys2Proof

/-- Whether writes and messages may go to host t: not from a reset event until the reset is complete (R297). -/
def State.hostOpen (s : State) (t : Fin 4) : Bool := !s.ports[t].inReset && s.power.running

/-- Dword i of the MSI-X table; an entry is masked at reset (PRESUMED, log entry 8). -/
def HostPort.msixWord (p : HostPort) (i : Nat) : W32 := (kget p.msixTable i).getD (if i % 4 = 3 then 1 else 0)

/-- Whether vector v is masked. -/
def HostPort.masked (p : HostPort) (v : Nat) : Bool := (p.msixWord (4 * v + 3)).getLsbD 0

/-- Sends the message of a vector that is not masked. -/
def State.sendMsix (s : State) (t : Fin 4) (v : Nat) : State :=
  let p := s.ports[t]
  (s.emit (.msix t v (p.msixWord (4 * v)) (p.msixWord (4 * v + 1)) (p.msixWord (4 * v + 2)))).bump
    0x902B (3 + 16 * t.val) 1

/-- Signals a vector: a message, or the pending bit while it is masked (R292). -/
def State.msix (s : State) (t : Fin 4) (v : Nat) : State :=
  if !s.hostOpen t then s
  else if s.ports[t].masked v then
    s.modPort t (fun p => { p with msixPending := p.msixPending ||| (1#64 <<< v) })
  else s.sendMsix t v

/-- The unmasked cause bits. -/
def HostPort.active (p : HostPort) : W32 := p.eventCause &&& ~~~p.eventMask

/-- Changes the cause and mask registers, with a message on vector 63 when the unmasked bits change from none set
to some set (R292). -/
def State.withCause (s : State) (t : Fin 4) (f : HostPort → HostPort) : State :=
  let before := s.ports[t].active
  let s := s.modPort t f
  if before = 0 ∧ s.ports[t].active ≠ 0 then s.msix t 63 else s

/-- Sets a cause bit. -/
def State.setCause (s : State) (t : Fin 4) (bit : Nat) : State :=
  s.withCause t (fun p => { p with eventCause := p.eventCause ||| (1#32 <<< bit) })

/-- Writes an error log entry (R293, R294). -/
def State.logError (s : State) (t : Fin 4) (e : ErrEntry) : State :=
  let p := s.ports[t]
  let n := p.errlogSeq.toNat
  let s := s.modPort t (fun p =>
    { p with errlog := kset p.errlog (n % 256) { e with seq := n, tick := s.tick.count },
             errlogSeq := p.errlogSeq + 1 })
  s.setCause t 0

/-- Logs the refusal of an access: kind 1 BAR2 read, 2 BAR2 write, 3 BAR0. -/
def State.logAccess (s : State) (t : Fin 4) (kind code : Nat) (address : Nat) : State :=
  s.logError t { seq := 0, strand := Config.noStrand, tick := 0, address := BitVec.ofNat 64 address, code := code,
                 kind := kind, qepoch := 0, queue := 0, gen := 0, index := 0 }

/-- Logs the refusal of a doorbell or queue block write, with ERR_QUEUE_INVALID and the queue index (R284,
R286). -/
def State.logQueue (s : State) (t : Fin 4) (q : Fin 64) : State :=
  s.logError t { seq := 0, strand := Config.noStrand, tick := 0, address := BitVec.ofNat 64 q.val,
                 code := Config.errQueueInvalid, kind := 4, qepoch := (s.queue t q).qepoch.toNat, queue := q.val,
                 gen := 0, index := 0 }

/-- Entries of a queue's rings (R285). -/
def Queue.entries (x : Queue) : Nat := 2 ^ (x.config.toNat % 32)

/-- The ring index of command n (R285). -/
def Queue.ringIndex (x : Queue) (n : Nat) : Nat := (n - 1) % x.entries

/-- HEAD (R283). -/
def Queue.head (x : Queue) : Nat := x.ended % x.entries

/-- VECTOR. -/
def Queue.vector (x : Queue) : Nat := bits x.config.toNat 8 6

/-- What a completion record reports. -/
structure Ending where
  status : Nat
  address : W64
  strand : Nat
  lastSlice : Option Nat
  result0 : W64
  result1 : W64
  fence : Nat
deriving DecidableEq, Repr

/-- The words of a completion record (R291). -/
def completionWords (x : Queue) (q : Fin 64) (n : Nat) (ws : List W64) (tick : Nat) (e : Ending) : List W64 :=
  let phase := (n - 1) / x.entries % 2 = 0
  [BitVec.ofNat 64 (e.status * 2 ^ 48 + cOp ws * 2 ^ 40 + (if phase then 2 ^ 39 else 0) + cTag ws * 2 ^ 8 + cGen ws),
   BitVec.ofNat 64 (x.qepoch.toNat * 2 ^ 56 + q.val * 2 ^ 48 + x.ringIndex n),
   BitVec.ofNat 64 e.fence, BitVec.ofNat 64 tick, e.address,
   BitVec.ofNat 64 (e.strand % 2 ^ 32 * 2 ^ 32 + e.lastSlice.getD 0xFFFFFFFF), e.result0, e.result1]

/-- Writes the completion record of command n of a queue. -/
def State.complete (s : State) (t : Fin 4) (q : Fin 64) (n : Nat) (ws : List W64) (e : Ending) : State :=
  if s.hostOpen t then
    let x := s.queue t q
    s.emit (.completion t (x.cplBase + BitVec.ofNat 64 (64 * x.ringIndex n))
      (completionWords x q n ws s.tick.count e))
  else s

/-- Writes the error log entry of a failed command. -/
def State.logCommand (s : State) (t : Fin 4) (q : Fin 64) (n : Nat) (ws : List W64) (e : Ending) : State :=
  let x := s.queue t q
  s.logError t { seq := 0, strand := e.strand, tick := 0, address := e.address, code := e.status, kind := 0,
                 qepoch := x.qepoch.toNat, queue := q.val, gen := cGen ws, index := x.ringIndex n }

end Sys2Proof.Machine
end

