-- ==== Sys2Proof/Machine/Shake.lean ====
section
/-! DEFINITION. Digests: SHAKE256 with a 256-bit output (FIPS 202), and the CRC-64 of R324. -/
namespace Sys2Proof.Machine

open Sys2Proof

/-- The output bits of the shift register of FIPS 202 (rc), x^8 + x^6 + x^5 + x^4 + 1, seven for each round. -/
def rcBits : Nat → Nat → List Bool
  | 0, _ => []
  | n + 1, r => r.testBit 0 :: rcBits n (if r.testBit 7 then (2 * r) ^^^ 0x171 else 2 * r)

/-- The constant of a round (iota): output bit j of the round stands at bit 2^j - 1. -/
def rcWord (bits : List Bool) : W64 :=
  BitVec.ofNat 64 ((bits.mapIdx (fun j b => if b then 2 ^ (2 ^ j - 1) else 0)).sum)

/-- The constants of the 24 rounds. -/
def roundWords : List W64 :=
  let stream := rcBits 168 1
  (List.range 24).map (fun k => rcWord ((stream.drop (7 * k)).take 7))

/-- A lane of the state, by its coordinates. -/
def lane (a : List W64) (x y : Nat) : W64 := a.getD (x % 5 + 5 * (y % 5)) 0

/-- The parity of a column. -/
def columnParity (a : List W64) (x : Nat) : W64 := (List.range 5).foldl (fun p y => p ^^^ lane a x y) 0

/-- theta: every lane takes the parities of the columns beside it. -/
def thetaStep (a : List W64) : List W64 :=
  let parity := (List.range 5).map (columnParity a)
  a.mapIdx (fun i v => v ^^^ parity.getD ((i + 4) % 5) 0 ^^^ (parity.getD ((i + 1) % 5) 0).rotateLeft 1)

/-- The moves of rho and pi, in the order in which FIPS 202 walks the lanes from (1, 0): where a lane lies, where it
goes, and how far it is rotated on the way. -/
def laneMoves : Nat → Nat → Nat → Nat → List (Nat × Nat × Nat)
  | 0, _, _, _ => []
  | n + 1, k, x, y =>
    let y' := (2 * x + 3 * y) % 5
    (x + 5 * y, y + 5 * y', k * (k + 1) / 2 % 64) :: laneMoves n (k + 1) y y'

/-- rho and pi: lane (0, 0) stays. -/
def moveLanes (a : List W64) : List W64 :=
  (laneMoves 24 1 1 0).foldl (fun b m => b.set m.2.1 ((a.getD m.1 0).rotateLeft m.2.2)) a

/-- chi: every lane takes a product of the two lanes to its right in the row. -/
def chiStep (a : List W64) : List W64 :=
  a.mapIdx (fun i v => v ^^^ (~~~ lane a (i + 1) (i / 5) &&& lane a (i + 2) (i / 5)))

/-- One round of Keccak-f[1600]. -/
def keccakRound (a : List W64) (rc : W64) : List W64 :=
  (chiStep (moveLanes (thetaStep a))).mapIdx (fun i v => if i = 0 then v ^^^ rc else v)

/-- Keccak-f[1600]. -/
def keccakF (a : List W64) : List W64 := roundWords.foldl keccakRound a

/-- The lanes of a block of bytes. -/
def blockLanes : Nat → List Byte → List W64
  | 0, _ => []
  | n + 1, bs => BitVec.ofNat 64 (ofLe (bs.take 8)) :: blockLanes n (bs.drop 8)

/-- Absorbs n blocks of 136 bytes. -/
def absorb : Nat → List Byte → List W64 → List W64
  | 0, _, a => a
  | n + 1, bs, a =>
    let l := blockLanes 17 (bs.take 136)
    absorb n (bs.drop 136) (keccakF (a.mapIdx (fun i v => v ^^^ l.getD i 0)))

/-- The message with the padding of SHAKE256. -/
def shakePad (m : List Byte) : List Byte :=
  let k := 136 - m.length % 136
  if k = 1 then m ++ [0x9F]
  else m ++ [0x1F] ++ List.replicate (k - 2) 0 ++ [0x80]

/-- SHAKE256 with a 256-bit output. -/
def shake256 (m : List Byte) : List Byte :=
  let p := shakePad m
  ((absorb (p.length / 136) p (List.replicate 25 0)).take 4).flatMap (fun v => leBytes 8 v.toNat)

/-- One bit step of the reflected CRC-64. -/
def crcBit : Nat → W64 → W64
  | 0, v => v
  | n + 1, v => crcBit n (if v.getLsbD 0 then (v >>> 1) ^^^ 0xC96C5795D7870F42 else v >>> 1)

/-- The CRC-64 of R324. -/
def crc64 (bs : List Byte) : W64 :=
  ~~~ bs.foldl (fun c b => crcBit 8 (c ^^^ b.zeroExtend 64)) (BitVec.allOnes 64)

/-- Bytes n of a big number, least significant first, as the digest inputs u16, u32 and u64 of the manual. -/
def u64b (n : Nat) : List Byte := leBytes 8 n
/-- A U32 as bytes. -/
def u32b (n : Nat) : List Byte := leBytes 4 n
/-- A U16 as bytes. -/
def u16b (n : Nat) : List Byte := leBytes 2 n

/-- The leaves of a tree digest: the digests of the pieces of 1,048,576 bytes, from leaf i on. -/
def treeLeaves : Nat → Nat → List Byte → List (List Byte)
  | 0, _, _ => []
  | k + 1, i, m =>
    let b := m.take 1048576
    shake256 (0 :: u64b i ++ u32b b.length ++ b) :: treeLeaves k (i + 1) (m.drop 1048576)

/-- The tree digest of bytes with a context (R206). -/
def treeDigest (m : List Byte) (context : Nat) : List Byte :=
  let c := ceilDiv m.length 1048576
  shake256 (1 :: u64b m.length ++ u64b context ++ u32b c ++ (treeLeaves c 0 m).flatten)

end Sys2Proof.Machine
end

