-- ==== Sys2Proof/Machine/Admit.lean ====
section
/-! DEFINITION. Admission: the head command of a queue and its check (R287 to R290, R263), candidates (R32, R262,
R267), demands and quotas (R33, R179, R198, R426), page conflicts (R34, R192, R201), fresh pages (R34, R168), the
dealing of strands (R54), and the first admission of a command (R50, R101, R102, R175, R395). -/
namespace Sys2Proof.Machine

open Sys2Proof

/-! ### The head command (R287 to R290) -/

/-- A command that has become the head of its queue. -/
def CmdRun.new (n : Nat) (ws : List W64) : CmdRun :=
  { n := n, words := ws, begun := false, recorded := none, firstTick := 0, keys := Vector.replicate 4 0,
    configDigest := [], policy := [], skip := [], quant := [], slices := [], held := [], prepared := [], staged := [],
    copies := [], lastSlice := none, faults := [], fail := none, isOp := false, opDone := false,
    pinned := [], effects := [], result0 := 0, result1 := 0, coll := none, wideStart := 0, reruns := 0,
    rerunReq := none, tiles := [], ended := false, admOrder := 0, params := [], pdescs := [], blob := [],
    phase := 0 }

/-- An operand word that holds an address. -/
def addrWord (w : W64) : Bool := w.toNat < 2 ^ 52

/-- An operand word that holds a count. -/
def countWord (w : W64) : Bool := w.toNat < 2 ^ 32

/-- Operand words i and on are 0. -/
def zeroFrom (ws : List W64) (i : Nat) : Bool := (ws.drop i).all (· == 0)

/-- Whether an operand word uses no bit outside a mask. -/
def maskWord (w : W64) (mask : Nat) : Bool := w &&& ~~~(BitVec.ofNat 64 mask) == 0

/-- The operand words of *Opcodes* that R290 checks: their layout, and the ranges that *Opcodes* states. -/
def operandsOk (ws : List W64) : Bool :=
  let c := cw ws
  let a := fun (l : List Nat) => l.all (fun i => addrWord (c i))
  let n := fun (l : List Nat) => l.all (fun i => countWord (c i))
  match cOp ws with
  | 0x00 => zeroFrom ws 8
  | 0x01 => a [8] && cwn ws 8 % 64 == 0 && 1 ≤ cwn ws 9 && cwn ws 9 ≤ 2 ^ 24 && zeroFrom ws 10
  | 0x02 =>
    let dyn := (c 8).getLsbD 39
    let kind := wbits (c 8) 56 8
    maskWord (c 8) 0xFFFFFF800000FFFF && a [9, 10, 12] && n [11] && (dyn || c 12 == 0) &&
      (kind == 3 || (kind == 4 && n [13]) || c 13 == 0) && zeroFrom ws 14
  | 0x10 => a [8] && n [9] && maskWord (c 10) 0x1F7 && zeroFrom ws 11
  | 0x11 => a [8] && n [9] && zeroFrom ws 10
  | 0x12 => a [8] && n [9] && maskWord (c 10) 0x1F6 && zeroFrom ws 11
  | 0x13 => a [8, 10] && n [9] && zeroFrom ws 11
  | 0x18 => a [8, 9] && n [10] && zeroFrom ws 11
  | 0x19 => a [8] && n [9, 10] && zeroFrom ws 11
  | 0x1A => a [8] && zeroFrom ws 9
  | 0x20 => a [8] && n [9, 10] && zeroFrom ws 11
  | 0x21 => a [8, 9] && n [10] && zeroFrom ws 11
  | 0x22 => a [8, 9] && zeroFrom ws 10
  | 0x23 => a [8, 11] && n [10] && zeroFrom ws 13
  | 0x24 => a [8, 11, 12] && zeroFrom ws 13
  | 0x28 => a [8] && zeroFrom ws 9
  | 0x29 => a [8] && zeroFrom ws 9
  | 0x2A => a [8] && zeroFrom ws 9
  | 0x2B => a [8] && zeroFrom ws 9
  | 0x30 => a [8] && zeroFrom ws 9
  | 0x31 => a [8] && zeroFrom ws 9
  | 0x32 => a [8] && zeroFrom ws 9
  | 0x33 => cwn ws 8 < 64 && zeroFrom ws 9
  | 0x38 => a [8] && zeroFrom ws 9
  | 0x39 => a [8] && zeroFrom ws 9
  | 0x3A => cwn ws 8 < 16 && zeroFrom ws 9
  | 0x40 => a [8, 10, 12, 14] && n [9, 11, 13] && c 15 == 0
  | 0x41 => a [8] && n [9] && zeroFrom ws 10
  | 0x48 => maskWord (c 8) 0xFEFFFF00FFFF0000 && a [9, 11, 13, 14] && n [10]
  | 0x49 => maskWord (c 8) 0xF8FFFF0000000000 && a [9, 11, 13, 14] && n [10]
  | _ => false

/-- The checks of R290 on command n of a queue. -/
def Queue.commandOk (x : Queue) (n : Nat) (ws : List W64) : Bool :=
  cGen ws == (n - 1) / x.entries % 256 && wbits (cw ws 0) 36 9 == 0 && cw ws 6 == 0 && cw ws 7 == 0 &&
  (List.range 4).all (fun i =>
    cWaitQ ws i < 64 && (cWaitEn ws i || (cWaitQ ws i == 0 && cWaitV ws i == 0)) &&
    (cKeyStream ws i < 64 || cKeyStream ws i == 255)) &&
  operandsOk ws

/-- Whether a doorbell arrived at least 10 µs before a time τ after the last boundary (R32, R272), by the number and the
period of the tick in which it arrived. -/
def State.doorbellOk (s : State) (a : Avail) (tauNs : Nat) : Bool :=
  if a.tick = s.tick.count then a.ns + 10000 ≤ tauNs
  else if a.tick = s.tick.lastCount then a.ns + 10000 ≤ s.tick.lastN * 125000 + tauNs
  else true

/-- The host bus address of the head command's entry. -/
def Queue.entryAddr (x : Queue) (n : Nat) : W64 := x.cmdBase + BitVec.ofNat 64 (128 * x.ringIndex n)

/-- Makes the next command of an active queue its head, checked by R290 and R263. -/
def State.ensureHead (s : State) (t : Fin 4) (q : Fin 64) (tauNs : Nat) : State :=
  let x := s.queue t q
  if x.state == .active && x.run.isNone then
    match x.avail.head? with
    | none => s
    | some a =>
      if !s.doorbellOk a tauNs then s
      else
        let n := x.ended + 1
        let r := CmdRun.new n a.words
        let self := (List.range 4).any (fun i => cWaitEn a.words i && cWaitQ a.words i == q.val && n ≤ cWaitV a.words i)
        let fail := if !x.commandOk n a.words then
            some { code := Config.errCommandInvalid, address := x.entryAddr n, strand := Config.noStrand, lastMark := 0 }
          else if self then
            some { code := Config.errFenceInvalid, address := BitVec.ofNat 64 q.val, strand := Config.noStrand, lastMark := 0 }
          else (none : Option Failure)
        s.modQueue t q (fun x => { x with run := some { r with fail := fail } })
  else s

/-- The waits of command n of queue q that are not satisfied: (queue, value). A wait on the command's own queue for a value
below n is always satisfied (R262, R263). -/
def State.openWaits (s : State) (t : Fin 4) (q : Fin 64) (n : Nat) (ws : List W64) : List (Fin 64 × Nat) :=
  (List.range 4).filterMap (fun i =>
    let w : Fin 64 := Fin.ofNat 64 (cWaitQ ws i)
    if cWaitEn ws i && !(w == q && cWaitV ws i < n) && (s.queue t w).fence < cWaitV ws i then some (w, cWaitV ws i)
    else none)

/-- Whether the head command is a candidate for first admission (R262, R259, R275), its completion entry free (R286). -/
def State.isCandidate (s : State) (t : Fin 4) (q : Fin 64) : Bool :=
  match s.run t q with
  | none => false
  | some r =>
    !r.begun && r.fail.isNone && !r.ended && (s.queue t q).state == .active &&
      r.n ≤ (s.queue t q).entries + (s.queue t q).cplFreed && s.odn 0x2011 (t.val + 1) == 1 &&
      s.od.quiesceState == 0 && s.openWaits t q r.n r.words == []

/-! ### Classes (R267 to R269) -/

/-- A class as an index. -/
def classIx (c : Nat) : Fin 4 := Fin.ofNat 4 c

/-- The class that the commands of a queue took at the last sluice, within the limit of its tenancy then (R267). -/
def State.queueClass (s : State) (t : Fin 4) (q : Fin 64) : Nat :=
  min (s.odt t 0xA0B0 (q.val + 1)) s.tens[t].classLimit

/-- The cost charged to Tt in class 2 or 3 over the last 1,024 ticks. -/
def State.charged (s : State) (t : Fin 4) (cls : Nat) : Nat :=
  (s.tens[t].charges.map (fun x => if cls = 3 then x.2.2.2 else x.2.2.1)).sum

/-- Whether class 2 or 3 of Tt is over its budget (R268). -/
def State.overBudget (s : State) (t : Fin 4) (cls : Nat) : Bool :=
  (cls == 3 || cls == 2) &&
    s.odn 0x2013 (if cls = 3 then 1 else 2) * s.tick.capWindow.sum < 100 * s.charged t cls

/-- Step 11 fixes the CLASS_LIMIT and the classes over budget for the tick (R267, R268). -/
def State.latchClasses (s : State) : State :=
  s.each allT (fun s t => s.modTen t (fun x => { x with
    classLimit := s.odn 0x2010 (t.val + 1), overShare := Vector.ofFn (fun c => s.overBudget t c.val) }))

/-- The effective class of an admitted slice of a queue: its class, or 1 where its tenancy is over the budget of the class
(R268). -/
def State.baseClass (s : State) (t : Fin 4) (q : Fin 64) : Nat :=
  if s.tens[t].overShare[classIx (s.queueClass t q)] then 1 else s.queueClass t q

/-- The effective class at which a slice with a passed count is offered: a slice of class 0 is promoted after 64 passes, and
returns to class 0 once it is admitted (R269). -/
def State.effClassOf (s : State) (t : Fin 4) (q : Fin 64) (passed : Nat) : Nat :=
  if s.baseClass t q = 0 ∧ 64 ≤ passed then 1 else s.baseClass t q

/-! ### Capacity (R31) -/

/-- The cores that are available. -/
def State.coresUp (s : State) : List Nat := (List.range 512).filter s.coreUp

/-- C in core-ns for a number of cores and a clock in MHz. -/
def capacityOf (periodN cores mhz : Nat) : Nat := (periodN * 125000 - 4000) * cores * mhz / 2000

/-- A slice that runs in the present tick, finished or not. -/
def Slice.inTick (sl : Slice) : Bool := sl.state == .admitted || sl.state == .finished

/-- All slices with their places. -/
def State.allSlices (s : State) : List (SliceRef × Slice) :=
  allTQ.flatMap (fun x =>
    match s.run x.1 x.2 with
    | none => []
    | some r => r.slices.map (fun sl => (⟨x.1, x.2, sl.idx⟩, sl)))

/-- The costs of the ring steps of a tick that are no command's slices: those of transfers and restores, with the tenancy
and the class that they are charged to (R352, R369). -/
def State.wireSteps (s : State) (tick : Nat) : List (Fin 4 × Nat × Nat) :=
  s.coll.colls.filterMap (fun x =>
    match x.2.use, x.2.cur with
    | .command, _ => none
    | _, some r => if r.admitted && r.boundary = tick then some (x.2.t, x.2.cls, r.cost) else none
    | _, none => none)

/-- The capacity that the present tick's admissions leave. -/
def State.left (s : State) : Nat :=
  s.tick.capacity - ((s.allSlices.filter (fun x => x.2.inTick)).map (fun x => x.2.offerCost)).sum -
    ((s.wireSteps s.tick.count).map (fun x => x.2.2)).sum

/-! ### Page conflicts (R34, R192, R201) -/

/-- Whether a page may not be named now by the slice `idx` of a command: a slice of this tick names it, another
command holds a fresh page for it, or it is bound. -/
def State.pageBusy (s : State) (t : Fin 4) (q : Fin 64) (idx v : Nat) : Bool :=
  allQ.any (fun i =>
    match s.run t i with
    | none => false
    | some r =>
      r.binds v || (i != q && r.prepared.any (fun x => x.vpage == v)) ||
      r.slices.any (fun sl =>
        !(i == q && sl.idx == idx) &&
          ((sl.inTick && sl.outs.any (fun o => o.1 == v)) || (i != q && (freshOf sl.fresh v).isSome))))

/-- Whether a page holds staged contributions that are not applied. -/
def State.pageStaged (s : State) (t : Fin 4) (v : Nat) : Bool := s.anyRun t (·.stages v)

/-- Whether a page of Tt holds a shadow directory that is locked (R140). -/
def State.dirLocked (s : State) (t : Fin 4) (v : Nat) : Bool :=
  s.mem.dirBusy.any (fun x =>
    x.1 == t.val &&
      (match s.seqAt t x.2 with
       | .ok q => (pagesOf q.shadowDir (8 * q.heads * q.slots)).contains v
       | .error _ => false))

/-- Whether a list of output pages may be named now; `op`: by a mapping, KV or pan command. -/
def State.outsFree (s : State) (t : Fin 4) (q : Fin 64) (idx : Nat) (op : Bool) (pages : List Nat) : Bool :=
  pages.all (fun v => !s.pageBusy t q idx v && !s.dirLocked t v && !(op && s.pageStaged t v))

/-! ### Failures and demands -/

/-- Fails a command with an error that belongs to no strand. -/
def State.failAt (s : State) (t : Fin 4) (q : Fin 64) (e : Bad) : State :=
  s.failCmd t q e.1 (BitVec.ofNat 64 e.2) Config.noStrand

/-- Fails a command with an error whose address no rule states: a free value. -/
def State.failOpen (s : State) (t : Fin 4) (q : Fin 64) (code : Nat) : State :=
  s.failAt t q (code, Config.openAddress s.tick.count t q (((s.run t q).map (·.n)).getD 0))

/-- The error of an output page that a first admission finds (R163, R183, R390). -/
def State.outError (s : State) (t : Fin 4) (o : Nat × Bool) : Option Bad :=
  let a := o.1 * Config.pageBytes
  if inModelWindow o.1 then
    some (if s.mem.model.sealedNow then Config.errPageForeign else Config.errModelAbsent, a)
  else
    match s.page t o.1 with
    | none => some (Config.errPageUnmapped, a)
    | some _ =>
      if o.2 then none
      else
        match s.reachCommitted t o.1 with
        | .error c => some (c, a)
        | .frame _ => none

/-- The fresh pages that a slice demands (DEDUCED, log entry 41). -/
def Slice.pageDemand (sl : Slice) : Nat := max sl.outPages sl.outs.length

/-- A demand that could not be met with the tenancy otherwise idle: its quota index (R33, R179). -/
def State.impossible (s : State) (t : Fin 4) (sl : Slice) : Option Nat :=
  if !s.stackPossible t sl.pageDemand then some (s.shortIndex t 1)
  else if !s.kvPossible t sl.kvPages then some (s.shortIndex t 2)
  else if !s.cellsPossible t sl.cellsReq then some (8 * t.val + 3)
  else none

/-! ### Fresh pages (R34, R168) -/

/-- The stack of a fresh page. -/
def State.freshStack (s : State) (t : Fin 4) (v : Nat) : Nat :=
  match s.page t v with
  | none => s.stackMod v
  | some e => if e.pinKind = 1 then e.pinTarget else if e.gone then s.stackMod v else stackOfFrame e.home

/-- A copy of the wide shadow of a frame for a copy of the frame; none when its frames are not to be had. -/
def State.copyShadow (s : State) (t : Fin 4) (stack src dst : Nat) : Option State :=
  match kget s.mem.shadows src with
  | none => some s
  | some l =>
    (s.growShadow t dst (shadowFrames l) stack).map (fun s =>
      { s with mem := { s.mem with shadows := kset s.mem.shadows dst l } })

/-- The shadow frames that the copy of a page brings for a slice. -/
def State.shadowNeed (s : State) (ref : SliceRef) (o : Nat × Bool) : Nat :=
  match o.2, s.reachSlice ref o.1 with
  | false, .frame g => shadowFrames ((kget s.mem.shadows g).getD [])
  | _, _ => 0

/-- The first page of an output list whose wide shadow does not fit the fallback reserve when its fresh pages are taken, by
the shadow frames of the pages before it (R109). -/
def State.shadowShort (s : State) (ref : SliceRef) (pages : Nat) : Nat → List (Nat × Bool) → Option Nat
  | _, [] => none
  | n, o :: r =>
    let k := s.shadowNeed ref o
    if k ≠ 0 && !s.shadowFits ref.t (n + k) pages then some (o.1 * Config.pageBytes)
    else s.shadowShort ref pages (n + k) r

/-- Takes one fresh page for a slice: zero-filled, or a copy of the page as the slice sees it, its wide shadow on a stack of
its own (R168). -/
def State.takeFresh (s : State) (ref : SliceRef) (aux : Nat) (o : Nat × Bool) : Option (FreshPage × State) :=
  let cur := s.reachSlice ref o.1
  match s.takeFrame (s.freshStack ref.t o.1) (.fresh ref.t o.1) with
  | none => none
  | some (f, s) =>
    let p : FreshPage := { vpage := o.1, frame := f, whole := o.2, stored := false }
    match o.2, cur with
    | false, .frame g => ((s.copyFrame g f).copyShadow ref.t aux g f).map (fun s => (p, s))
    | _, _ => some (p, s)

/-- Takes fresh pages for a list of output entries; none when one is not to be had. -/
def State.takeFreshes (s : State) (ref : SliceRef) (aux : Nat) : List (Nat × Bool) → Option (List FreshPage × State)
  | [] => some ([], s)
  | o :: r =>
    match s.takeFresh ref aux o with
    | none => none
    | some (p, s) => (s.takeFreshes ref aux r).map (fun x => (p :: x.1, x.2))

/-- The pages of an output list are read-pinned: a slice or command that is being admitted holds them (R170, R426). -/
def State.pinOuts (s : State) (t : Fin 4) (outs : List (Nat × Bool)) : State :=
  s.each outs (fun s o => s.modPage t o.1 (fun e => { e with readPin := true }))

/-- The frames of the save area of a split slice (R76). -/
def Slice.saveNeed (sl : Slice) : Nat :=
  match sl.segment with
  | none => 0
  | some _ => ceilDiv (sl.strandCount * (sl.marks.foldl (fun m x => max m x.liveBytes) 0)) Config.pageBytes

/-- Takes n frames for a save area. -/
def State.takeSave (s : State) (t : Fin 4) (stack : Nat) : Nat → Option (List Nat × State)
  | 0 => some ([], s)
  | n + 1 =>
    match s.takeFrame stack (.save t) with
    | none => none
    | some (f, s) => (s.takeSave t stack n).map (fun x => (f :: x.1, x.2))

/-- Makes room for the KV pages of a slice: in the pool, and general frames for the arena frames that it may come to take
(R33, R168, R173); none when they are not to be had. -/
def State.kvHold (s : State) (t : Fin 4) (n : Nat) : Option State :=
  let s := s.kvRoom t n
  let s := s.makeRoom (s.arenaHoldWith t n - s.arenaHold)
  if s.arenaHoldWith t n ≤ s.freeGeneral then some s else none

/-! ### The first admission of a command -/

/-- The key register of a stream (R97); 0xFF gives a zero key (R288). -/
def State.streamKey (s : State) (t : Fin 4) (n : Nat) : BitVec 128 :=
  if n = 255 then 0
  else BitVec.ofNat 128 (s.odt t 0xA060 (2 * n + 1) * 2 ^ 64 + s.odt t 0xA060 (2 * n + 2) * 2 ^ 32 + n * 2 ^ 16)

/-- Stages a model page on a die, when its staging area has a free frame (R175); an excluded die has none (R184). -/
def State.stageModel (s : State) (die v : Nat) : State :=
  let busy := s.mem.dieUse.any (fun x => x.2 == .model v)
  if busy || ((kget s.mem.model.staged v).getD 0).getLsbD die || !s.dies.contains die then s
  else
    match s.freeModelDie die with
    | none => s
    | some k => { s with mem := { s.mem with dieUse := kset s.mem.dieUse k (.model v) } }

/-- The die of a model page under a schedule entry. -/
def State.schedDie (s : State) (en : SchedEntry) (v : Nat) : Nat :=
  if en.die = 4 then ((s.mem.model.frames[v]?).map (fun f => stackOfFrame f / 6)).getD 0 else en.die

/-- The model pages of a weight-range entry. -/
def SchedEntry.pages (en : SchedEntry) : List Nat :=
  if en.kind = 1 then (List.range en.count).map (· + (pageOf en.base - Config.modelPage0)) else []

/-- Stages what the active weight ranges lack, in entry order, then page order; a page that finds no frame is
passed. -/
def State.stageActive (s : State) : State :=
  s.each (s.mem.model.sched.filter (fun en => en.active && en.kind == 1)) (fun s en =>
    s.each en.pages (fun s v => s.stageModel (s.schedDie en v) v))

/-- The schedule after the first admission of a command with a LAYER (R175). -/
def State.schedule (s : State) (layer : Nat) : State :=
  let hit := s.mem.model.sched.any (fun en => !en.active && en.trigger == layer)
  let sched := s.mem.model.sched.map (fun en =>
    if en.active && en.release = layer then { en with active := false, releasing := true }
    else if !en.active && en.trigger = layer then { en with active := true, releasing := false } else en)
  let s := { s with mem := { s.mem with model := { s.mem.model with sched := sched } } }
  if !hit then s
  else
    let before := s.mem.dieUse.length
    let s' := s.stageActive
    let full := (s'.mem.model.sched.filter (fun en => en.active && en.trigger == layer && en.kind == 1)).map (fun en =>
      (en.pages.filter (fun v =>
        let d := s'.schedDie en v
        !s'.mem.dieUse.any (fun x => x.2 == .model v) && !((kget s'.mem.model.staged v).getD 0).getLsbD d)).length)
    (s'.bump 0x9025 2 (s'.mem.dieUse.length - before)).bump 0x9025 3 full.sum

/-- R395: the failure of a recorded command at its first admission. -/
def State.recordError (s : State) (t : Fin 4) (q : Fin 64) (r : CmdRun) : Option Bad :=
  if !cRecord r.words then none
  else
    let bad := some (Config.errRecordInvalid, ((s.queue t q).entryAddr r.n).toNat)
    match s.tens[t].record with
    | none => bad
    | some g => if g.closing || g.cap ≤ g.cmds.length then bad else none

/-- COMMAND_DIGEST of a command entry. -/
def commandDigest (ws : List W64) : List Byte :=
  (shake256 (leBytes 1 (cOp ws) ++ leBytes 1 (cLayer ws) ++ leBytes 1 (if cAdvance ws then 1 else 0) ++
    leBytes 4 (wbits (cw ws 1) 32 32) ++ ((ws.drop 8).take 8).flatMap (fun w => leBytes 8 w.toNat))).take 32

/-- The open record of Tt, for a command that asks to be recorded (R395). -/
def State.openRecord (s : State) (t : Fin 4) (r : CmdRun) : Option GenRecord :=
  match s.tens[t].record with
  | some g => if cRecord r.words then some g else none
  | none => none

/-- A command's ORDINAL in a record: the number of its queue's commands recorded before it (R396). -/
def recordOrdinal (rec_ : Option GenRecord) (q : Fin 64) : Nat :=
  (rec_.map (fun g => (g.cmds.filter (fun c => c.queue == q.val)).length)).getD 0

/-- Enters the head command in the open record of Tt (R395). -/
def State.noteRecord (s : State) (t : Fin 4) (q : Fin 64) (r : CmdRun) : State :=
  let rec_ := s.openRecord t r
  let entry : RecEntry :=
    { queue := q.val, ordinal := recordOrdinal rec_ q, fallback := 0, layer := cLayer r.words, opcode := cOp r.words,
      advance := cAdvance r.words, keyStream := wbits (cw r.words 1) 32 32, firstTick := s.tick.count,
      lastTick := 0, digest := commandDigest r.words, config := s.od.configDigest[t], tiles := [], done := false,
      failed := false }
  if rec_.isSome then
    s.modTen t (fun x => { x with record := x.record.map (fun g => { g with cmds := g.cmds ++ [entry] }) })
  else s

/-- What a command takes at its first admission: its keys, its policy, the tables that it reads once (R50, R97, R101,
R102), and its place in the open record. -/
def State.readOnce (s : State) (t : Fin 4) (recorded : Option Nat) (r : CmdRun) : CmdRun :=
  let layer := cLayer r.words
  { r with
    begun := true
    recorded := recorded
    firstTick := s.tick.count
    keys := Vector.ofFn (fun i => s.streamKey t (cKeyStream r.words i.val))
    configDigest := s.od.configDigest[t]
    policy := if layer = 0xFF then [] else (List.range 7).map (fun i => s.odn (0x4100 + layer) (i + 1))
    skip := (List.range 32).map (fun i => (s.odt t 0xA070 (i + 1), s.odt t 0xA071 (i + 1)))
    quant := (List.range 64).map (fun i => s.odt t 0xA0A0 (i + 1))
    wideStart := if layer = 0xFF then 0 else s.odn (0x4100 + layer) 7
    admOrder := s.tick.admSeq }

/-- The first admission of the head command: what it reads once (R21, R50, R101, R102), its entry in the open record
(R395), the schedule (R175). -/
def State.begin (s : State) (t : Fin 4) (q : Fin 64) : State :=
  match s.run t q with
  | none => s
  | some r =>
    if r.begun then s
    else
      let rec_ := s.openRecord t r
      let s := s.noteRecord t q r
      let s := { s with tick := { s.tick with admSeq := s.tick.admSeq + 1 } }
      let s := s.modRun t q (s.readOnce t (rec_.map (fun _ => recordOrdinal rec_ q)))
      if cLayer r.words = 0xFF then s else s.schedule (cLayer r.words)

/-! ### The dealing of strands (R54, R62) -/

/-- The strands of a slice that are not skipped end here (R62). -/
def Slice.strandEnd (sl : Slice) : Nat :=
  let stop := sl.strandBase + sl.strandCount
  if sl.rowLenEn then min stop (max sl.strandBase (ceilDiv (nth sl.lens sl.rowLenSel 0) 64)) else stop

/-- Deals the strands of an admitted slice to the deques of the 32 clusters. -/
def State.deal (s : State) (ref : SliceRef) (sl : Slice) : State :=
  let up := (List.range 32).map (fun g => ((List.range 16).filter (fun i => s.coreUp (16 * g + i))).length)
  let a := up.sum
  let stop := sl.strandEnd
  let ranges := (List.range 32).map (fun g =>
    let below := (up.take g).sum
    let lo := sl.strandBase + sl.strandCount * below / max 1 a
    let hi := sl.strandBase + sl.strandCount * (below + nth up g 0) / max 1 a
    ({ ref := ref, lo := min lo stop, hi := min hi stop } : Range))
  let s := { s with cores := { s.cores with
    deques := Vector.ofFn (fun g =>
      let r := nth ranges g.val { ref := ref, lo := 0, hi := 0 }
      if r.lo < r.hi then s.cores.deques[g] ++ [r] else s.cores.deques[g]) } }
  let n := stop - sl.strandBase
  let first := sl.segment.getD 0 = 0
  let s := if first then s.bump 0x9021 4 (sl.strandCount - n) else s
  s.modSlice ref (fun sl => { sl with
    remaining := n, state := if n = 0 && (sl.working.isEmpty || !sl.lastSegment) then .finished else .admitted })

/-! ### The admission of a slice -/

/-- Whether nothing may be admitted: a unit has failed that admission needs (R122, R409). -/
def State.barred (s : State) : Bool := s.power.blocked || s.health.failedDies ≠ 0

/-- Whether the demands of a slice are met now (R33, R426), leaving aside the frames themselves. A slice of a COMPUTE has no
group slot: its LINK_MIB bounds nothing (DESIGN CHOICE, log entry 64). -/
def State.demandsMet (s : State) (t : Fin 4) (sl : Slice) : Bool :=
  let have_ := !sl.fresh.isEmpty
  (have_ || s.stackAllowed t sl.pageDemand) && (sl.segment.getD 0 ≠ 0 || sl.kvPages = 0 || s.kvAllowed t sl.kvPages) &&
  (!sl.working.isEmpty || s.cellsMet t sl.cellsReq) &&
  (sl.saveNeed ≤ sl.saveFrames.length ||
    s.stackAllowed t (sl.saveNeed - sl.saveFrames.length + (if have_ then 0 else sl.pageDemand)))

/-- What a segment other than the first needs restored at a discard (R45). -/
def State.segSnapshot (s : State) (ref : SliceRef) (sl : Slice) : Option SegStart :=
  match sl.segment with
  | none => none
  | some 0 => none
  | some _ =>
    let r := s.run ref.t ref.q
    let ranges := sl.fresh.map (fun p => (p.frame * Config.pageBytes, Config.pageBytes)) ++
      sl.taken.map (fun k => (k.frame / 32 * Config.pageBytes + k.frame % 32 * Config.kvFrameBytes, Config.kvFrameBytes))
    some
      { mem := ranges.map (fun x => (x.1, x.2, s.mem.mem.filter (fun c => x.1 ≤ c.1 && c.1 < x.1 + x.2)))
        shadows := sl.fresh.map (fun p => (p.frame, (kget s.mem.shadows p.frame).getD []))
        working := sl.working, brine := sl.brine, taken := sl.taken, kvUsed := sl.kvUsed
        staged := ((r.map (·.staged)).getD []).filter (fun x => x.slice == sl.idx) }

/-- Marks a slice as admitted in this tick and starts its strands; its frames are taken. -/
def State.startSlice (s : State) (ref : SliceRef) (cls : Nat) : State :=
  match s.slice ref with
  | none => s
  | some sl =>
    let snap := s.segSnapshot ref sl
    let s := { s with tick := { s.tick with admSeq := s.tick.admSeq + 1 } }
    let s := s.modSlice ref (fun sl => { sl with
      state := .admitted
      passed := 0
      requeued := none
      firstEligible := none
      admittedAt := s.tick.count
      admOrder := s.tick.admSeq
      effClass := cls
      killed := false
      start := snap })
    let s := s.bumpT ref.t 0xA0C0 3 1
    match s.slice ref with
    | none => s
    | some sl =>
      let s := if sl.working.isEmpty && (sl.segment.getD 0 = 0) then s.giveCells ref sl.cellsReq else s
      match s.slice ref with
      | none => s
      | some sl => s.deal ref sl

/-- Takes the frames of a slice: its fresh pages, its save area, room for its KV pages; none when they are not to be had. -/
def State.takeFrames (s : State) (ref : SliceRef) (sl : Slice) : Option State :=
  let save := sl.saveNeed - sl.saveFrames.length
  let s := s.pinOuts ref.t sl.outs
  let s := s.roomFor ref.t ((if sl.fresh.isEmpty then sl.outs.length else 0) + save)
  let aux := s.auxStack ref.t sl.outs
  match (if sl.fresh.isEmpty then s.takeFreshes ref aux sl.outs else some (sl.fresh, s)) with
  | none => none
  | some (fresh, s) =>
    match s.takeSave ref.t aux save with
    | none => none
    | some (frames, s) =>
      (if sl.kvPages = 0 || sl.segment.getD 0 ≠ 0 then some s else s.kvHold ref.t sl.kvPages).map (fun s =>
        s.modSlice ref (fun x => { x with fresh := fresh, saveFrames := x.saveFrames ++ frames }))

/-- Takes the frames of a slice and admits it; none when they are not to be had. -/
def State.tryAdmit (s : State) (ref : SliceRef) (sl : Slice) (cls : Nat) : Option State :=
  (s.takeFrames ref sl).map (fun s => s.startSlice ref cls)

/-- A slice is passed over. -/
def State.passSlice (s : State) (ref : SliceRef) : State :=
  let s := s.modSlice ref (fun sl => { sl with passed := sl.passed + 1 })
  (s.bump 0x9020 6 1).bumpT ref.t 0xA0C0 4 1

/-! ### Commands that are not cut into slices

Each runs as one slice of its own, of cost 0, with index 0 and the output pages that its chapter gives. -/

/-- What the first admission of such a command finds. -/
inductive OpAnswer where
  /-- a failed check: the code, the address, and RESULT1 -/
  | fail (code address reason : Nat)
  /-- a demand or a page that is not free: passed over -/
  | pass
  /-- not a candidate now -/
  | hold
  /-- admitted: the state with what the command does staged, and whether it is done when the tick ends -/
  | admitted (s : State) (done : Bool)

/-- The pseudo-slice of a command. -/
def opSlice (outs : List (Nat × Bool)) : Slice :=
  { idx := 0, cost := 0, ringStep := false, accum := false, kvAppend := false, outPages := outs.length, cellsReq := 0,
    kvPages := 0, linkMib := 0, deps := [], outs := outs, marks := [], prog := [], instrBytes := 0, ctxLog2 := 0,
    storeBytes := 0, accCols := 0, strandBase := 0, strandCount := 0, rowLenEn := false, rowLenSel := 0, descs := [],
    lenAddrs := [], lens := List.replicate 8 0, programOffset := 0, base := 0, rom := true, checked := true,
    state := .waiting, passed := 0, firstEligible := none, requeued := none, overruns := 0, exclusive := false,
    segment := none, segStart := 0, admittedAt := 0, admOrder := 0, effClass := 0, killed := false, fresh := [],
    working := [], remaining := 0, saved := [], saveFrames := [], brine := [], taken := [], kvUsed := 0, missed := [],
    start := none }

/-- The pseudo-slice's place. -/
def opRef (t : Fin 4) (q : Fin 64) : SliceRef := ⟨t, q, 0⟩

/-- Puts the pseudo-slice of a command, with the pages it writes, once. -/
def State.putOpSlice (s : State) (t : Fin 4) (q : Fin 64) (outs : List (Nat × Bool)) : State :=
  s.modRun t q (fun r =>
    let sl := { opSlice outs with
      passed := ((r.slices.head?).map (·.passed)).getD 0
      firstEligible := (r.slices.head?).bind (·.firstEligible) }
    { r with isOp := true, slices := [sl] })

/-- Takes the output pages of a command: passed over while a page is busy or a frame is not to be had, failed where
its tenancy's quotas can never supply them. -/
def State.claim (s : State) (t : Fin 4) (q : Fin 64) (outs : List (Nat × Bool)) (next : State → OpAnswer) : OpAnswer :=
  if !s.stackPossible t outs.length then .fail Config.errQuotaExceeded (s.shortIndex t 1) 0
  else if !s.outsFree t q 0 true (outs.map (·.1)) || !s.stackAllowed t outs.length then .pass
  else
    match s.shadowShort (opRef t q) outs.length 0 outs with
    | some a => .fail Config.errFallbackSpace a 0
    | none =>
      let s := ((s.putOpSlice t q outs).pinOuts t outs).roomFor t outs.length
      match s.takeFreshes (opRef t q) (s.auxStack t outs) outs with
      | none => .pass
      | some (fresh, s) => next (s.modSlice (opRef t q) (fun sl => { sl with fresh := fresh }))

/-- Stages what a command does at its commit. -/
def State.stage (s : State) (t : Fin 4) (q : Fin 64) (l : List Effect) : State :=
  s.modRun t q (fun r => { r with effects := r.effects ++ l })

/-- Sets the result words of a command. -/
def State.results (s : State) (t : Fin 4) (q : Fin 64) (a b : Nat) : State :=
  s.modRun t q (fun r => { r with result0 := BitVec.ofNat 64 a, result1 := BitVec.ofNat 64 b })

/-- Pins frames for as long as a command runs (R203). -/
def State.pinFrames (s : State) (t : Fin 4) (q : Fin 64) (frames : List Nat) : State :=
  s.modRun t q (fun r => { r with pinned := r.pinned ++ frames })

/-- Pins the frames of the pages that a command reads. -/
def State.pinReads (s : State) (t : Fin 4) (q : Fin 64) (pages : List Nat) : State :=
  let frames := pages.filterMap (fun v =>
    match s.reachCommitted t v with
    | .frame f => some f
    | .error _ => none)
  (s.each pages (·.touch t ·)).pinFrames t q frames

/-- RESULT0 of a STATE_SECURE below its snapshot code (R371): the failures before it, and I. -/
def SecureSt.flags (x : SecureSt) : Nat :=
  (if x.storageFailed then 2 ^ 49 else 0) + (if x.lastFailed then 2 ^ 48 else 0) + x.interval % 2 ^ 32

/-- The check and staging of a command at its first admission. -/
abbrev OpCheck := State → Fin 4 → Fin 64 → CmdRun → OpAnswer

/-- Whether a command's unit has failed (R409, class 9): a codec engine, the input pipeline, the security engine. -/
def State.unitDown (s : State) (t : Fin 4) (q : Fin 64) (r : CmdRun) : Bool :=
  let op := cOp r.words
  let down := fun (u : Nat) => s.health.failedUnits.contains u
  let engine := fun (e : Nat) => if e = 4 then s.health.failedUnits.any (· < 4) else down e
  s.codec.any (fun x => engine x.2.engine && (x.2.job.map (fun j => j.t == t && j.q == q)).getD false) ||
    (down 4 && (op == 0x38 || op == 0x39)) || (down 5 && (op == 0x40 || op == 0x41))

/-- The operand words of an opcode that hold device-virtual addresses (R289, R361, R372, R394, R396). -/
def addressWords (op : Nat) : List Nat :=
  if op = 0x13 then [8, 10]
  else if op = 0x18 || op = 0x21 || op = 0x22 then [8, 9]
  else if op = 0x23 then [8, 11]
  else if op = 0x24 then [8, 11, 12]
  else if op = 0x40 then [8, 10, 12, 14]
  else if op = 0x48 || op = 0x49 then [9, 11, 13, 14]
  else if op = 0x00 || op = 0x33 || op = 0x3A then []
  else [8]

/-- The first operand that addresses the model window while no model is sealed: it fails the command before every
other check of its operands (R390). -/
def State.absentOperand (s : State) (ws : List W64) : Option Nat :=
  if s.mem.model.sealedNow then none
  else ((addressWords (cOp ws)).map (cwn ws)).find? (fun a => Config.modelBase ≤ a && a < 2 ^ 52)

/-- A command's own slice once it is admitted. -/
def Slice.started (sl : Slice) (tick seq cls : Nat) : Slice :=
  { sl with state := .admitted, passed := 0, admittedAt := tick, admOrder := seq, effClass := cls }

/-- Admits a command that is not cut into slices, whose effects are staged; `done`: its work ends with the tick. -/
def State.admitOp (s : State) (t : Fin 4) (q : Fin 64) (done : Bool) : State :=
  let s := if (s.slice (opRef t q)).isSome then s else s.putOpSlice t q []
  let s := s.begin t q
  let s := { s with tick := { s.tick with admSeq := s.tick.admSeq + 1 } }
  let s := s.modSlice (opRef t q) (fun sl => sl.started s.tick.count s.tick.admSeq (s.baseClass t q))
  (s.modRun t q (fun r => { r with opDone := done })).bumpT t 0xA0C0 3 1

/-- Offers a command that is not cut into slices: checked, passed over, or admitted. -/
def State.offerOp (s : State) (t : Fin 4) (q : Fin 64) (f : OpCheck) : State :=
  match s.run t q with
  | none => s
  | some r =>
    match (if s.unitDown t q r then some (Config.errHardwareFault, s.health.hwFault.toNat) else s.recordError t q r) with
    | some e => s.failAt t q e
    | none =>
      match (match s.absentOperand r.words with
        | some a => OpAnswer.fail Config.errModelAbsent a 0
        | none => f s t q r) with
      | .fail code address reason =>
        let s := (s.failAt t q (code, address)).modRun t q (fun r => { r with result1 := BitVec.ofNat 64 reason })
        let s := s.bump 0x9028 0xB (if code = Config.errCodecCapacity && cOp r.words = 0x30 then 1 else 0)
        if cOp r.words = 0x48 then s.modRun t q (fun r => { r with result0 := BitVec.ofNat 64 (s.tens[t].secure.flags) })
        else if cOp r.words = 0x41 && code = Config.errRecordInvalid then s.modTen t (fun x => { x with record := none })
        else s
      | .hold => s
      | .pass => (if (s.slice (opRef t q)).isSome then s else s.putOpSlice t q []).passSlice (opRef t q)
      | .admitted s done => s.admitOp t q done

/-- A queue command's row: the head command of the queue, when it has this opcode and may be admitted. -/
def State.offerRow (s : State) (t : Fin 4) (q : Fin 64) (op : Nat) (f : OpCheck) : State :=
  let s := s.ensureHead t q 0
  match s.run t q with
  | none => s
  | some r => if cOp r.words = op && s.isCandidate t q && !s.barred then s.offerOp t q f else s

/-! ### COMMAND_NOP -/

/-- The NOP command does nothing; it commits at step 6 of the sluice after its admission (R289). -/
def nopCheck : OpCheck := fun s _ _ _ => .admitted s true

/-- COMMAND_NOP. -/
def execCommandNop (t : Fin 4) (q : Fin 64) (s : State) : Host.Outcome State Fault Refusal :=
  .next (s.offerRow t q 0x00 nopCheck)

end Sys2Proof.Machine
end

