-- ==== Sys2Proof/Machine/Img.lean ====
section
/-! DEFINITION. Imaging commands (R208 to R223): the parameter blocks and their checks, the cut into slices of
built-in programs, and what one strand of such a slice computes and writes. -/
namespace Sys2Proof.Machine

open Sys2Proof

/-! ### Checks (R208 to R213) -/

/-- A planar tensor (R208). -/
def planarOk (d : BitVec 512) : Bool :=
  descValid d && dRank d == 3 && !dLenEn d &&
  dSize d 0 * fmtBits (dFmt d) ≤ 8 * dStride d 1 &&
  dSize d 1 * dStride d 1 ≤ dStride d 2 && dSize d 2 * dStride d 2 ≤ dStride d 3

/-- Word i of a parameter block. -/
def pw (ps : List W64) (i : Nat) : W64 := nth ps i 0

/-- Bits of word i of a parameter block. -/
def pf (ps : List W64) (i lo n : Nat) : Nat := wbits (pw ps i) lo n

/-- The index of the first parameter word that fails its check. -/
def badWord (l : List (Nat × Bool)) : Option Nat := (l.find? (fun x => !x.2)).map (·.1)

/-- IMG_CONV: the parameter words. -/
def convWords (ps : List W64) : Option Nat :=
  let f := pf ps
  let any := f 4 3 1 = 1 || f 4 2 1 = 1
  let kern := fun (lo : Nat) => 1 ≤ f 4 lo 4 && f 4 lo 4 ≤ 7
  let st := fun (lo : Nat) => 1 ≤ f 4 lo 4 && f 4 lo 4 ≤ 4
  let pad := fun (lo d k : Nat) => f 5 lo 8 ≤ f 4 d 4 * (f 4 k 4 - 1) && f 5 lo 8 ≤ 24
  badWord
    [(0, f 0 52 12 = 0), (1, f 1 52 12 = 0), (2, f 2 52 12 = 0),
     (3, f 3 52 12 = 0 && (if any then f 3 0 52 % 4 = 0 else f 3 0 52 = 0)),
     (4, kern 60 && kern 56 && kern 52 && st 48 && st 44 && st 40 && st 36 && st 32 && st 28 &&
         f 4 10 18 = 0 && f 4 8 2 < 2 && f 4 4 4 < 7 && f 4 0 1 = 0),
     (5, f 5 32 32 = 0 && pad 24 36 60 && pad 16 36 60 && pad 8 32 56 && pad 0 28 52),
     (6, pw ps 6 = 0), (7, pw ps 7 = 0)]

/-- IMG_RESIZE and IMG_PYRAMID: the parameter words. -/
def resampleWords (pyramid : Bool) (ps : List W64) : Option Nat :=
  let f := pf ps
  let fac := fun (lo : Nat) => 1 ≤ f 6 lo 4 && f 6 lo 4 ≤ 4
  let levels := if pyramid then f 6 0 3 else 1
  badWord
    ((List.range 6).map (fun i => (i, f i 52 12 = 0 && (i ≤ levels || pw ps i = 0))) ++
     [(6, f 6 3 45 = 0 &&
        (if pyramid then f 6 48 16 = 0 && 1 ≤ levels && levels ≤ 5
         else f 6 0 3 = 0 && f 6 60 4 < 2 && fac 56 && fac 52 && fac 48 &&
           (f 6 60 4 = 0 || ((f 6 52 4 = 2 || f 6 52 4 = 4) && (f 6 48 4 = 2 || f 6 48 4 = 4))))),
      (7, pw ps 7 = 0)])

/-- IMG_DETECT: the parameter words. -/
def detectWords (ps : List W64) : Option Nat :=
  let f := pf ps
  let fin := fun (i lo : Nat) => (f32v (BitVec.ofNat 32 (f i lo 32))).isFin
  let iou := f32v (BitVec.ofNat 32 (f 4 0 32))
  let base := fun (i : Nat) => f i 52 12 = 0 && f i 0 6 = 0
  badWord
    [(0, base 0), (1, base 1), (2, base 2),
     (3, 1 ≤ f 3 32 32 && f 3 32 32 ≤ 1048576 && 1 ≤ f 3 16 16 && f 3 16 16 ≤ 1024 && 1 ≤ f 3 0 16 &&
         f 3 0 16 ≤ 4096),
     (4, fin 4 32 && FVal.zero.lt iou && iou.le (f32v one32)),
     (5, fin 5 32 && 1 ≤ f 5 16 16 && 1 ≤ f 5 0 16), (6, fin 6 32 && fin 6 0), (7, f 7 1 63 = 0)]

/-- The output size of R213, 0 where it is below 1; its quotient truncates towards zero (R7). -/
def convOut (i k s d pa pb : Nat) : Nat :=
  (Int.tdiv ((i + pa + pb : Nat) - (d * (k - 1) + 1 : Nat)) s + 1).toNat

/-- IMG_CONV: the descriptors (input, weights, output); the index of the word whose descriptor offends. -/
def convDescs (ps : List W64) (i w o : BitVec 512) : Option Nat :=
  let f := pf ps
  let fp8 := fun (x : Nat) => x = 2 || x = 3
  let k := f 4 60 4 * f 4 56 4 * f 4 52 4 * dSize i 3
  badWord
    [(0, planarOk i && (fp8 (dFmt i) || dFmt i = 1) && dSize i 3 ≤ 4096 &&
         dSize i 0 ≤ 65535 && dSize i 1 ≤ 65535 && dSize i 2 ≤ 65535),
     (1, descValid w && dRank w = 1 && (if dFmt i = 1 then dFmt w = 1 else fp8 (dFmt w)) && dSize w 0 = k &&
         k ≤ 65536 && dSize w 1 ≤ 4096),
     (2, planarOk o && (dFmt o ≤ 5 || dFmt o = 8) && dSize o 3 = dSize w 1 &&
         dSize o 2 = convOut (dSize i 2) (f 4 60 4) (f 4 48 4) (f 4 36 4) (f 5 24 8) (f 5 16 8) &&
         dSize o 1 = convOut (dSize i 1) (f 4 56 4) (f 4 44 4) (f 4 32 4) (f 5 8 8) (f 5 8 8) &&
         dSize o 0 = convOut (dSize i 0) (f 4 52 4) (f 4 40 4) (f 4 28 4) (f 5 0 8) (f 5 0 8))]

/-- IMG_RESIZE: the descriptors. -/
def resizeDescs (ps : List W64) (i o : BitVec 512) : Option Nat :=
  let f := pf ps
  badWord
    [(0, planarOk i && dFmt i ≤ 3),
     (1, planarOk o && dSize o 3 = dSize i 3 && dSize o 2 = dSize i 2 * f 6 56 4 &&
         dSize o 1 = dSize i 1 * f 6 52 4 && dSize o 0 = dSize i 0 * f 6 48 4)]

/-- IMG_PYRAMID: the descriptors, level by level (R219). -/
def pyramidDescs (ds : List (BitVec 512)) : Option Nat :=
  badWord ((ds.zip (none :: ds.map some)).mapIdx (fun l p =>
    (l, planarOk p.1 &&
      (match p.2 with
       | none => true
       | some u => dSize p.1 3 = dSize u 3 && dSize p.1 2 = dSize u 2 &&
           dSize p.1 1 = ceilDiv (dSize u 1) 2 && dSize p.1 0 = ceilDiv (dSize u 0) 2))))

/-- The words of a parameter block that hold descriptor addresses. -/
def descWords (op : Nat) (ps : List W64) : List Nat :=
  if op = 0x28 then [0, 1, 2] else if op = 0x29 then [0, 1]
  else if op = 0x2A then List.range (pf ps 6 0 3 + 1) else []

/-- The pages of a tensor. -/
def tensorPages (d : BitVec 512) : List Nat :=
  let b := fmtBits (dFmt d)
  let n := dSize d 0
  ((List.range (dSize d 3)).flatMap (fun x3 => (List.range (dSize d 2)).flatMap (fun x2 =>
    (List.range (dSize d 1)).flatMap (fun x1 =>
      pagesOf (dBitAddr d 0 x1 x2 x3 / 8) (ceilDiv (n * b) 8) ++
        (if fmtScaled (dFmt d) then pagesOf (dScaleAddr d 0 x1 x2 x3) (ceilDiv n 32) else []))))).eraseDups

/-- Bytes of the output of a frame of IMG_DETECT. -/
def detFrame (ps : List W64) : Nat := 64 + 32 * pf ps 3 0 16

/-- The input and the output pages of an imaging command. -/
def imgPages (op : Nat) (ps : List W64) (ds : List (BitVec 512)) : List Nat × List Nat :=
  let d := fun (i : Nat) => nth ds i 0
  if op = 0x28 then
    let aux := 4 * dSize (d 1) 1 * (pf ps 4 3 1 + pf ps 4 2 1)
    (tensorPages (d 0) ++ tensorPages (d 1) ++ pagesOf (pf ps 3 0 52) aux, tensorPages (d 2))
  else if op = 0x2B then
    let a := pf ps 3 32 32
    let n := pf ps 3 16 16
    (pagesOf (pf ps 0 0 52) (16 * a) ++ pagesOf (pf ps 1 0 52) (32 * a * n), pagesOf (pf ps 2 0 52) (n * detFrame ps))
  else (tensorPages (d 0), (ds.drop 1).flatMap tensorPages)

/-- The parameter block and descriptors of an imaging command, checked (R210); otherwise the error and the
address. -/
def State.imgRead (s : State) (t : Fin 4) (op base : Nat) :
    Except (Nat × Nat) (List W64 × List (BitVec 512)) :=
  if base % 64 ≠ 0 then .error (Config.errImagingInvalid, base)
  else
    match s.checkT t base 64 with
    | some (a, e) => .error (e, a)
    | none =>
      let ps := (unpackN 64 (s.readT t base 64) 8).map (BitVec.ofNat 64)
      let bad := if op = 0x28 then convWords ps else if op = 0x2B then detectWords ps
        else resampleWords (op == 0x2A) ps
      match bad with
      | some i => .error (Config.errImagingInvalid, base + 8 * i)
      | none =>
        let addrs := (descWords op ps).map (fun i => pf ps i 0 52)
        match addrs.findSome? (fun a => s.checkT t a 64) with
        | some (a, e) => .error (e, a)
        | none =>
          let ds := addrs.map (fun a => BitVec.ofNat 512 (s.numT t a 64))
          let d := fun (i : Nat) => nth ds i 0
          let badD := if op = 0x28 then convDescs ps (d 0) (d 1) (d 2)
            else if op = 0x29 then resizeDescs ps (d 0) (d 1)
            else if op = 0x2A then pyramidDescs ds else none
          match badD with
          | some i => .error (Config.errImagingInvalid, nth addrs i 0)
          | none =>
            let pg := imgPages op ps ds
            match (sortBy (fun (a b : Nat) => decide (a < b)) pg.2).find? (fun v => pg.1.contains v) with
            | some v => .error (Config.errImagingInvalid, v * Config.pageBytes)
            | none => .ok (ps, ds)

/-! ### The cut into slices (R211) -/

/-- A slice of a built-in program. -/
def romSlice (idx cost base count : Nat) (outs : List (Nat × Bool)) (marks : List MarkEntry) (deps : List Nat)
    (ring : Bool) (link cells : Nat) : Slice :=
  { idx := idx, cost := cost, ringStep := ring, accum := false, kvAppend := false, outPages := outs.length,
    cellsReq := cells, kvPages := 0, linkMib := link, deps := deps, outs := outs, marks := marks, prog := [],
    instrBytes := 0, ctxLog2 := 4, storeBytes := 0, accCols := 0, strandBase := base, strandCount := count,
    rowLenEn := false, rowLenSel := 0, descs := [], lenAddrs := [], lens := List.replicate 8 0,
    programOffset := 0, base := 0, rom := true, checked := true, state := .waiting, passed := 0,
    firstEligible := none, requeued := none, overruns := 0, exclusive := false, segment := none, segStart := 0,
    admittedAt := 0, admOrder := 0, effClass := 0, killed := false, fresh := [], working := [], remaining := 0,
    saved := [], saveFrames := [], brine := [], taken := [], kvUsed := 0, missed := [], start := none }

/-- Column groups of a line: at most 1,024 columns each (R211). -/
def colGroups (w : Nat) : Nat := max 1 (ceilDiv w 1024)

/-- What a cut part of an imaging command computes: the lines of its output tensor, a line's core-ns, its column
groups, and whether it depends on the part before. -/
structure ImgPart where
  lines : Nat
  each : Nat
  groups : Nat
  after : Bool

/-- The cycles of the DRAINs of one line of w columns by its activation code (R125). -/
def drainCycles (act w : Nat) : Nat :=
  if act < 2 then w else if act = 6 then 8 * w else 12 * w

/-- The parts of an imaging command: one, but for a pyramid one for each level. The costs of resampling and detection,
which R70 and R125 give no cycles for, are the model's (DESIGN CHOICE, log entry 75). -/
def imgParts (op : Nat) (ps : List W64) (ds : List (BitVec 512)) : List ImgPart :=
  let d := fun (i : Nat) => nth ds i 0
  if op = 0x28 then
    let o := d 2
    let rate := if dFmt (d 0) = 1 then 2 else 1
    [{ lines := ceilDiv (dSize o 3) 64 * dSize o 2 * dSize o 1,
       each := max 1 (ceilDiv (ceilDiv (dSize o 0) 64 * dSize (d 1) 0 * rate + drainCycles (pf ps 4 4 4) (dSize o 0)) 2),
       groups := colGroups (dSize o 0), after := false }]
  else if op = 0x2B then
    [{ lines := pf ps 3 16 16, each := 800000 + pf ps 3 32 32, groups := 1, after := false }]
  else (ds.drop 1).mapIdx (fun i o =>
    { lines := dSize o 3 * dSize o 2 * dSize o 1, each := max 1 (16 * ceilDiv (dSize o 0) 64),
      groups := colGroups (dSize o 0), after := i ≠ 0 })

/-- The column groups of one strand: those of its line, or as many as a quarter of the capacity holds (R211). -/
def ImgPart.chunk (p : ImgPart) (quarter : Nat) : Nat := max 1 (min p.groups (quarter * p.groups / p.each))

/-- The core-ns of one strand of n column groups. -/
def ImgPart.cost (p : ImgPart) (n : Nat) : Nat := ceilDiv (p.each * n) p.groups

/-- What a slice of a built-in program keeps in `programOffset`: its part, the level of a pyramid, and the column groups
of one strand. -/
def romPart (part chunk : Nat) : Nat := 8 * chunk + part

/-- The line of strand i of a part whose lines have w columns, and its column groups. -/
def imgGroups (w chunk i : Nat) : Nat × List Nat :=
  let per := max 1 (ceilDiv (colGroups w) (max 1 chunk))
  (i / per, (List.range (min chunk (colGroups w - i % per * chunk))).map (· + i % per * chunk))

/-- The output tensor of a part. -/
def imgOut (op : Nat) (ds : List (BitVec 512)) (part : Nat) : BitVec 512 := if op = 0x28 then nth ds 2 0 else nth ds (part + 1) 0

/-- The bytes of n elements of a row from x0 on, with their scales. -/
def rowRanges (d : BitVec 512) (x0 n x1 x2 x3 : Nat) : List (Nat × Nat) :=
  let a := dBitAddr d x0 x1 x2 x3
  (a / 8, ceilDiv (a % 8 + n * fmtBits (dFmt d)) 8) ::
    (if fmtScaled (dFmt d) then [(dScaleAddr d x0 x1 x2 x3, (x0 + n - 1) / 32 + 1 - x0 / 32)] else [])

/-- The rows (x1, x2, x3) of the output that a line of a part stands for: up to 64 channels for IMG_CONV. -/
def imgRows (op : Nat) (o : BitVec 512) (i : Nat) : List (Nat × Nat × Nat) :=
  let nb := if op = 0x28 then ceilDiv (dSize o 3) 64 else 1
  let line := i / nb
  if op = 0x28 then
    (List.range 64).filterMap (fun c =>
      let co := 64 * (i % nb) + c
      if co < dSize o 3 then some (line % dSize o 1, line / dSize o 1, co) else none)
  else [(line % dSize o 1, line / dSize o 1 % dSize o 2, line / dSize o 1 / dSize o 2)]

/-- The pages that one strand of a part writes. -/
def imgStrandPages (op : Nat) (ps : List W64) (ds : List (BitVec 512)) (part chunk i : Nat) : List Nat :=
  if op = 0x2B then pagesOf (pf ps 2 0 52 + i * detFrame ps) (detFrame ps)
  else
    let o := imgOut op ds part
    let g := imgGroups (dSize o 0) chunk i
    let x0 := 1024 * g.2.headD 0
    (imgRows op o g.1).flatMap (fun x =>
      (rowRanges o x0 (min (1024 * g.2.length) (dSize o 0 - x0)) x.1 x.2.1 x.2.2).flatMap (fun y => pagesOf y.1 y.2))

/-- The marks of a slice of n strands of k column groups. -/
def imgMarks (p : ImgPart) (k n : Nat) : List MarkEntry :=
  (List.range (k - 1)).map (fun j =>
    { cumCost := (j + 1) * (n * p.cost k) / k, pc := 0, liveBytes := 256 })

/-- Cuts one part into slices of at most a quarter of the capacity, from index i0 on. -/
def cutPart (quarter op : Nat) (ps : List W64) (ds : List (BitVec 512)) (part : Nat) (p : ImgPart) (i0 : Nat)
    (deps : List Nat) : List Slice :=
  let chunk := p.chunk quarter
  let each := p.cost chunk
  let strands := p.lines * ceilDiv p.groups chunk
  let per := max 1 (quarter / each)
  (List.range (ceilDiv strands per)).map (fun k =>
    let n := min per (strands - k * per)
    let pages := (((List.range n).flatMap (fun j => imgStrandPages op ps ds part chunk (k * per + j))).eraseDups)
    { romSlice (i0 + k) (n * each) (k * per) n (pages.map (fun v => (v, false)))
        (if op = 0x2B then [] else imgMarks p chunk n) deps false 0 0 with programOffset := romPart part chunk })

/-- The slices of an imaging command (R211). -/
def imgSlices (capacity op : Nat) (ps : List W64) (ds : List (BitVec 512)) : List Slice :=
  let r := (imgParts op ps ds).foldl (fun (acc : Nat × List Slice × List Nat) p =>
    let new := cutPart (capacity / 4) op ps ds acc.1 p acc.2.1.length (if p.after then acc.2.2 else [])
    (acc.1 + 1, acc.2.1 ++ new, new.map (·.idx))) (0, [], [])
  r.2.1

/-! ### Reading and writing tensors -/

/-- The code of an element. -/
def State.elemCode (s : State) (reach : Nat → Reach) (d : BitVec 512) (x0 x1 x2 x3 : Nat) : Nat :=
  let b := fmtBits (dFmt d)
  let a := dBitAddr d x0 x1 x2 x3
  bits (ofLe (s.readVia reach (a / 8) (ceilDiv (a % 8 + b) 8))) (a % 8) b

/-- The value of an element, its block scale applied. -/
def State.elemVal (s : State) (reach : Nat → Reach) (d : BitVec 512) (x0 x1 x2 x3 : Nat) : FVal :=
  let v := decodeElem (dFmt d) (s.elemCode reach d x0 x1 x2 x3)
  if fmtScaled (dFmt d) then
    applyScale v (ofLe (s.readVia reach (dScaleAddr d x0 x1 x2 x3) 1))
  else v

/-- The wide block of an element, if its page has one. -/
def State.elemWide (s : State) (ref : SliceRef) (d : BitVec 512) (x0 x1 x2 x3 : Nat) : Option WideBlock :=
  (s.wideAt ref (dBitAddr d (x0 / 32 * 32) x1 x2 x3 / 8)).bind (fun b => if b.width = 0 then none else some b)

/-- Writes a converted row at (x0, x1, x2, x3) to the slice's output pages. -/
def State.writeRow (s : State) (ref : SliceRef) (sl : Slice) (d : BitVec 512) (x0 x1 x2 x3 : Nat)
    (blocks : List BlockConv) : State :=
  let b := fmtBits (dFmt d)
  let a := dBitAddr d x0 x1 x2 x3 / 8
  let codes := blocks.flatMap (·.codes)
  let old := s.readVia (s.reachSlice ref) a (ceilDiv (codes.length * b) 8)
  let s := s.writeVia sl.outFrame a (mergeRow b old codes)
  if fmtScaled (dFmt d) then
    s.writeVia sl.outFrame (dScaleAddr d x0 x1 x2 x3) (blocks.map (fun x => BitVec.ofNat 8 x.scale))
  else s

/-! ### Convolution (R213 to R216) -/

/-- The input position of a coordinate (R214): none outside with zero padding. -/
def padAt (mode : Nat) (i : Nat) (x : Int) : Option Nat :=
  if 0 ≤ x ∧ x < i then some x.toNat
  else if mode = 1 then some (min (max x 0) ((i : Int) - 1)).toNat
  else none

/-- The vector x of an output position (R215): the value of each element, and the width of the block that it comes from
(R108). -/
def State.convVector (s : State) (ref : SliceRef) (ps : List W64) (d : BitVec 512) (t h w : Nat) :
    List (FVal × Nat) :=
  let f := pf ps
  let mode := f 4 8 2
  let reach := s.reachSlice ref
  (List.range (f 4 60 4)).flatMap (fun kt => (List.range (f 4 56 4)).flatMap (fun kh =>
    (List.range (f 4 52 4)).flatMap (fun kw =>
      let ti := padAt mode (dSize d 2) ((t * f 4 48 4 + kt * f 4 36 4 : Nat) - (f 5 24 8 : Int))
      let hi := padAt mode (dSize d 1) ((h * f 4 44 4 + kh * f 4 32 4 : Nat) - (f 5 8 8 : Int))
      let wi := padAt mode (dSize d 0) ((w * f 4 40 4 + kw * f 4 28 4 : Nat) - (f 5 0 8 : Int))
      (List.range (dSize d 3)).map (fun ci =>
        match ti, hi, wi with
        | some ti, some hi, some wi =>
          match s.elemWide ref d wi hi ti ci with
          | some b => (applyScale (decodeElem b.fmt (nth b.codes (wi % 32) 0))
              (if b.width = 1 then b.scale else 127), b.width)
          | none => (s.elemVal reach d wi hi ti ci, 0)
        | _, _, _ => (FVal.zero, 0)))))

/-- The blocks of 32 of a vector. -/
def vecBlocks (xs : List FVal) : List MBlock :=
  (chunks 32 (ceilDiv xs.length 32) xs).map (fun v => { vals := v, scale := 127, outl := [] })

/-- The accumulation of one output element: a block that holds an element from a BF16 wide block takes R94, as does BF16;
any other, FP8 widths among them, takes R93 (DEDUCED, log entry 24). -/
def convAcc (bf16 aligned : Bool) (x : List (FVal × Nat)) (w : List FVal) : AccRes :=
  let wide := (chunks 32 (ceilDiv x.length 32) x).map (fun b => b.any (·.2 == 2))
  ((vecBlocks (x.map (·.1))).zip ((vecBlocks w).zip wide)).foldl (fun r p =>
    if bf16 || p.2.2 then accBlockBf16 r p.1 p.2.1 else accBlock aligned r p.1 p.2.1)
    { val := 0, ovf := false, lost := 0 }

/-- An FP32 value of AUX. -/
def State.auxVal (s : State) (reach : Nat → Reach) (ps : List W64) (i : Nat) : W32 :=
  BitVec.ofNat 32 (ofLe (s.readVia reach (pf ps 3 0 52 + 4 * i) 4))

/-- Writes the blocks of the channels of an IMG_CONV tile, channel by channel. -/
def State.putLines (s : State) (ref : SliceRef) (sl : Slice) (dout : BitVec 512) (w0 h t n : Nat) (chans : List Nat)
    (bs : List BlockConv) : State :=
  s.each (chans.zip (chunks (ceilDiv n 32) chans.length bs)) (fun s p => s.writeRow ref sl dout w0 h t p.1 p.2)

/-- Writes a tile of IMG_CONV whose format widens under the fallback policy p, with its wide shadow. -/
def State.putWidened (s : State) (ref : SliceRef) (sl : Slice) (r : CmdRun) (p : Policy) (cb t h w0 n : Nat)
    (chans : List Nat) (rows : List (List W32)) (rnd : Nat → Nat → Option Nat) : Except (Nat × Nat) State :=
  let dout := nth r.pdescs 2 0
  let f := dFmt dout
  let cout := dSize dout 3
  let x := widen p r.wideStart f n rows rnd
  let s := s.countBlocks f (x.narrow ++ x.extra)
  let s := s.bump 0x9022 4 (if x.width = 1 then 1 else 0)
  let s := s.bump 0x9022 5 (if x.width = 2 then 1 else 0)
  let s := s.bump 0x9022 6 x.outl.length
  let s := s.bump 0x9022 7 (if x.overflow then 1 else 0)
  let s := s.bump 0x9022 0xC x.sat16
  let s := s.putLines ref sl dout w0 h t n chans x.narrow
  let outl := x.outl.map (fun o => (o.1, o.2.1, roundIeee 1 (f32v o.2.2)))
  let per := ceilDiv n 32
  let news := (chans.mapIdx (fun row co => (List.range per).map (fun k =>
    let os := (outl.filter (fun o => o.1 = row && o.2.1 / 32 = k)).map (fun o => (o.2.1 % 32, o.2.2))
    let a := dBitAddr dout (w0 + 32 * k) h t co / 8
    let b := nth x.wide (row * per + k) { codes := [], scale := 127, saturated := 0, flushed := 0, nanBlocks := 0 }
    (a, if x.width = 0 && os.isEmpty then none
        else some { offset := a % Config.pageBytes, width := x.width,
                    codes := if x.width = 0 then [] else b.codes, scale := b.scale, fmt := wideFmt f x.width,
                    outliers := os : WideBlock })))).flatten
  match s.putShadow ref sl news with
  | .error a => .error (Config.errFallbackSpace, a)
  | .ok s =>
    .ok (s.modRun ref.t ref.q (fun r =>
      { r with
        tiles := if x.width = 0 && outl.isEmpty then r.tiles else
          r.tiles ++ [{ strand := (t * dSize dout 1 + h) * ceilDiv cout 64 + cb, slice := ref.idx,
                        ordinal := w0 / 1024, width := x.width, overflow := x.overflow,
                        outliers := !outl.isEmpty }]
        rerunReq := match r.rerunReq, rerunWidth p r x with
          | some a, some b => some (max a b)
          | none, b => b
          | a, none => a }))

/-- One fallback tile of IMG_CONV: the channels of block cb on line (t, h), columns w0 to w0 + n − 1. -/
def State.convTile (s : State) (ref : SliceRef) (sl : Slice) (r : CmdRun) (cb t h w0 n : Nat) :
    Except (Nat × Nat) State :=
  let ps := r.params
  let din := nth r.pdescs 0 0
  let dw := nth r.pdescs 1 0
  let dout := nth r.pdescs 2 0
  let reach := s.reachSlice ref
  let f := dFmt dout
  let chans := (List.range 64).filterMap (fun c => if 64 * cb + c < dSize dout 3 then some (64 * cb + c) else none)
  let vecs := (List.range n).map (fun j => s.convVector ref ps din t h (w0 + j))
  let aligned := dFmt din = 3 || dFmt dw = 3
  let accs := chans.map (fun co =>
    let w := (List.range (dSize dw 0)).map (fun k => s.elemVal reach dw k co 0 0)
    vecs.map (fun x => convAcc (dFmt din == 1) aligned x w))
  if accs.any (fun row => row.any (·.ovf)) then .error (Config.errAccOverflow, 0)
  else
    let biasOn := pf ps 4 3 1 = 1
    let scaleOn := pf ps 4 2 1 = 1
    let cout := dSize dout 3
    let rows := (chans.zip accs).map (fun p =>
      let bias := if biasOn then s.auxVal reach ps p.1 else 0
      let scale := if scaleOn then s.auxVal reach ps ((if biasOn then cout else 0) + p.1) else 0
      p.2.map (fun a => drainElem biasOn scaleOn (pf ps 4 4 4) a.val bias scale))
    let rnd := fun (row j : Nat) =>
      if pf ps 4 1 1 = 1 then
        some (rngRand r.keys[0] (dTensorId dout)
          (BitVec.ofNat 64 (((64 * cb + row) * dSize dout 2 + t) * dSize dout 1 + h)) (BitVec.ofNat 64 (w0 + j)))
      else none
    let s := s.bump 0x9022 9 ((accs.map (fun row => (row.map (·.lost)).sum)).sum)
    match r.fallback with
    | none =>
      let bs := convertTile f rows rnd
      .ok ((s.countBlocks f bs).putLines ref sl dout w0 h t n chans bs)
    | some p =>
      if f < 2 then
        let bs := convertTile f rows rnd
        .ok ((s.countBlocks f bs).putLines ref sl dout w0 h t n chans bs)
      else s.putWidened ref sl r p cb t h w0 n chans rows rnd

/-! ### Resampling (R217 to R219) -/

/-- An input element as FP32. -/
def State.elem32 (s : State) (reach : Nat → Reach) (d : BitVec 512) (x0 x1 x2 x3 : Nat) : W32 :=
  round32 (s.elemVal reach d x0 x1 x2 x3)

/-- The bilinear source of output coordinate o at factor f in a dimension of size n: both indices, and the weights
of the second and of the first (R218). -/
def bilinAt (f n o : Nat) : Nat × Nat × W32 × W32 :=
  -- u = (2o + 1 - f) / 2f
  let num : Int := 2 * (o : Int) + 1 - f
  let i0 : Int := num / (2 * f : Nat)
  let r := num - i0 * (2 * f : Nat)
  let clamp := fun (x : Int) => (min (max x 0) ((n : Int) - 1)).toNat
  (clamp i0, clamp (i0 + 1), round32 ((FVal.ofInt r 0).divBy (2 * f)),
    round32 ((FVal.ofInt ((2 * f : Nat) - r) 0).divBy (2 * f)))

/-- One element of IMG_RESIZE. -/
def State.resizeElem (s : State) (reach : Nat → Reach) (ps : List W64) (d : BitVec 512) (w h t c : Nat) : W32 :=
  let ft := pf ps 6 56 4
  let fh := pf ps 6 52 4
  let fw := pf ps 6 48 4
  if pf ps 6 60 4 = 0 then s.elem32 reach d (w / fw) (h / fh) (t / ft) c
  else
    let x := bilinAt fw (dSize d 0) w
    let y := bilinAt fh (dSize d 1) h
    let e := fun (yy xx : Nat) => s.elem32 reach d xx yy (t / ft) c
    let r0 := f32fma x.2.2.1 (e y.1 x.2.1) (f32mul x.2.2.2 (e y.1 x.1))
    let r1 := f32fma x.2.2.1 (e y.2.1 x.2.1) (f32mul x.2.2.2 (e y.2.1 x.1))
    f32fma y.2.2.1 r1 (f32mul y.2.2.2 r0)

/-- One element of a pyramid level (R219). -/
def pyramidElem (e : Nat → Nat → W32) (wi hi x y : Nat) : W32 :=
  let cx := fun (v : Nat) => min v (wi - 1)
  let cy := fun (v : Nat) => min v (hi - 1)
  f32mul (f32add (f32add (e (cy (2 * y)) (cx (2 * x))) (e (cy (2 * y)) (cx (2 * x + 1))))
    (f32add (e (cy (2 * y + 1)) (cx (2 * x))) (e (cy (2 * y + 1)) (cx (2 * x + 1))))) 0x3E800000

/-- The columns w0 to w0 + n − 1 of one line of IMG_RESIZE or IMG_PYRAMID. -/
def State.resampleLine (s : State) (ref : SliceRef) (sl : Slice) (r : CmdRun) (part line w0 n : Nat) : State :=
  let pyramid := cOp r.words = 0x2A
  let din := nth r.pdescs (if pyramid then part else 0) 0
  let dout := nth r.pdescs (part + 1) 0
  let h := line % dSize dout 1
  let t := line / dSize dout 1 % dSize dout 2
  let c := line / dSize dout 1 / dSize dout 2
  let reach := s.reachSlice ref
  let vals := (List.range n).map (fun j =>
    if pyramid then
      pyramidElem (fun y x => s.elem32 reach din x y t c) (dSize din 0) (dSize din 1) (w0 + j) h
    else s.resizeElem reach r.params din (w0 + j) h t c)
  let bs := convertRow (dFmt dout) vals (fun _ => none)
  (s.countBlocks (dFmt dout) bs).writeRow ref sl dout w0 h t c bs

/-! ### Detection (R220 to R223) -/

/-- A decoded box. -/
structure Box where
  x1 : W32
  y1 : W32
  x2 : W32
  y2 : W32
  score : W32
  cls : Nat
  n : Nat
deriving DecidableEq, Repr

/-- Decodes anchor n from its anchor record and prediction record (R220). -/
def decodeBox (ps : List W64) (anchor pred : List Byte) (n : Nat) : Box :=
  let a := fun (i : Nat) => BitVec.ofNat 32 (leAt anchor (4 * i) 4)
  let p := fun (i : Nat) => BitVec.ofNat 32 (leAt pred (4 * i) 4)
  let vxy := BitVec.ofNat 32 (pf ps 6 32 32)
  let vwh := BitVec.ofNat 32 (pf ps 6 0 32)
  let clip := BitVec.ofNat 32 (pf ps 5 32 32)
  let fw := intF32 (pf ps 5 16 16 : Nat)
  let fh := intF32 (pf ps 5 0 16 : Nat)
  let cx := f32fma (f32mul (p 0) vxy) (a 2) (a 0)
  let cy := f32fma (f32mul (p 1) vxy) (a 3) (a 1)
  let w := f32mul (a 2) (fExp (f32min (f32mul (p 2) vwh) clip))
  let h := f32mul (a 3) (fExp (f32min (f32mul (p 3) vwh) clip))
  let edge := fun (k s c lim : W32) => f32min (f32max (f32fma k s c) 0) lim
  { x1 := edge 0xBF000000 w cx fw, x2 := edge 0x3F000000 w cx fw,
    y1 := edge 0xBF000000 h cy fh, y2 := edge 0x3F000000 h cy fh,
    score := p 4, cls := leAt pred 20 2, n := n }

/-- Whether a box is a candidate (R221). -/
def Box.candidate (thr : W32) (b : Box) : Bool :=
  (f32v thr).le (f32v b.score) && (f32v b.x1).isFin && (f32v b.y1).isFin && (f32v b.x2).isFin && (f32v b.y2).isFin &&
  f32below b.x1 b.x2 && f32below b.y1 b.y2

/-- The area of a box (R222). -/
def Box.area (b : Box) : W32 := f32mul (f32sub b.x2 b.x1) (f32sub b.y2 b.y1)

/-- Whether two boxes overlap (R222). -/
def overlaps (thr : W32) (b c : Box) : Bool :=
  let iw := f32max (f32sub (f32min b.x2 c.x2) (f32max b.x1 c.x1)) 0
  let ih := f32max (f32sub (f32min b.y2 c.y2) (f32max b.y1 c.y1)) 0
  let i := f32mul iw ih
  let u := f32sub (f32add b.area c.area) i
  f32below (f32mul thr u) i

/-- Keeps boxes in order (R222): the kept boxes and how many were suppressed; `n` bounds the candidates left, `k`
the boxes that may still be kept. -/
def suppress (thr : W32) (perClass : Bool) : Nat → Nat → List Box → List Box × Nat
  | 0, _, _ => ([], 0)
  | _, 0, _ => ([], 0)
  | _, _, [] => ([], 0)
  | n + 1, k + 1, b :: r =>
    if k = 0 then ([b], 0)
    else
      let hit := fun (c : Box) => (!perClass || c.cls == b.cls) && overlaps thr b c
      let x := suppress thr perClass n k (r.filter (fun c => !hit c))
      (b :: x.1, x.2 + (r.filter hit).length)

/-- The 32-byte record of a box (R223). -/
def Box.record (b : Box) : List Byte :=
  leBytes 4 b.x1.toNat ++ leBytes 4 b.y1.toNat ++ leBytes 4 b.x2.toNat ++ leBytes 4 b.y2.toNat ++
  leBytes 4 b.score.toNat ++ leBytes 2 b.cls ++ leBytes 2 0 ++ leBytes 4 b.n ++ leBytes 4 0

/-- One frame of IMG_DETECT. -/
def State.detectFrame (s : State) (ref : SliceRef) (sl : Slice) (r : CmdRun) (fr : Nat) : State :=
  let ps := r.params
  let a := pf ps 3 32 32
  let keep := pf ps 3 0 16
  let reach := s.reachSlice ref
  let boxes := (List.range a).map (fun n =>
    decodeBox ps (s.readVia reach (pf ps 0 0 52 + 16 * n) 16)
      (s.readVia reach (pf ps 1 0 52 + 32 * a * fr + 32 * n) 32) n)
  let cands := boxes.filter (Box.candidate (BitVec.ofNat 32 (pf ps 4 32 32)))
  let sorted := sortBy (fun (x y : Box) => f32below y.score x.score) cands
  let part := sorted.take 4096
  let kept := suppress (BitVec.ofNat 32 (pf ps 4 0 32)) (pf ps 7 0 1 = 1) part.length keep part
  let out := leBytes 4 kept.1.length ++ leBytes 4 cands.length ++ leBytes 4 (cands.length - part.length) ++
    List.replicate 52 0 ++ kept.1.flatMap Box.record ++ List.replicate (32 * (keep - kept.1.length)) 0
  let s := s.writeVia sl.outFrame (pf ps 2 0 52 + fr * detFrame ps) out
  let s := s.bump 0x9027 3 (a - cands.length)
  let s := s.bump 0x9027 4 (cands.length - part.length)
  let s := s.bump 0x9027 5 kept.2
  s.bump 0x9027 6 (if kept.1.length = keep then 1 else 0)

/-! ### One strand -/

/-- The positions of an input dimension that positions lo to hi of a padded one reach (R214): the first, the last. -/
def spanOf (mode size : Nat) (lo hi : Int) : Option (Nat × Nat) :=
  let clamp := fun (x : Int) => (min (max x 0) ((size : Int) - 1)).toNat
  if mode = 1 || (lo < size && 0 ≤ hi) then some (clamp lo, clamp hi) else none

/-- The ranges that IMG_CONV reads for the columns w0 to w0 + n − 1 of a line of channel block cb. -/
def convReads (ps : List W64) (ds : List (BitVec 512)) (cb t h w0 n : Nat) : List (Nat × Nat) :=
  let f := pf ps
  let d := nth ds 0 0
  let dw := nth ds 1 0
  let cout := dSize (nth ds 2 0) 3
  let mode := f 4 8 2
  let ti := (List.range (f 4 60 4)).filterMap (fun k =>
    padAt mode (dSize d 2) ((t * f 4 48 4 + k * f 4 36 4 : Nat) - (f 5 24 8 : Int)))
  let hi := (List.range (f 4 56 4)).filterMap (fun k =>
    padAt mode (dSize d 1) ((h * f 4 44 4 + k * f 4 32 4 : Nat) - (f 5 8 8 : Int)))
  let cols := spanOf mode (dSize d 0) ((w0 * f 4 40 4 : Nat) - (f 5 0 8 : Int))
    (((w0 + n - 1) * f 4 40 4 + (f 4 52 4 - 1) * f 4 28 4 : Nat) - (f 5 0 8 : Int))
  let input := match cols with
    | none => []
    | some (a, b) => ti.flatMap (fun x2 => hi.flatMap (fun x1 =>
        (List.range (dSize d 3)).flatMap (fun x3 => rowRanges d a (b + 1 - a) x1 x2 x3)))
  let m := min 64 (cout - 64 * cb)
  let aux := fun (k : Nat) => (f 3 0 52 + 4 * (k * cout + 64 * cb), 4 * m)
  input ++ (List.range m).flatMap (fun c => rowRanges dw 0 (dSize dw 0) (64 * cb + c) 0 0) ++
    (List.range (f 4 3 1 + f 4 2 1)).map aux

/-- The ranges that IMG_RESIZE or IMG_PYRAMID reads for the columns w0 to w0 + n − 1 of row (h, t, c). -/
def resampleReads (pyramid : Bool) (ps : List W64) (d : BitVec 512) (h t c w0 n : Nat) : List (Nat × Nat) :=
  let row := fun (a b x1 x2 : Nat) => rowRanges d a (b + 1 - a) x1 x2 c
  let last := w0 + n - 1
  if pyramid then
    let lim := fun (k v : Nat) => min v (dSize d k - 1)
    [2 * h, 2 * h + 1].flatMap (fun y => row (2 * w0) (lim 0 (2 * last + 1)) (lim 1 y) t)
  else
    let fw := pf ps 6 48 4
    let fh := pf ps 6 52 4
    let t' := t / pf ps 6 56 4
    if pf ps 6 60 4 = 0 then row (w0 / fw) (last / fw) (h / fh) t'
    else
      let y := bilinAt fh (dSize d 1) h
      [y.1, y.2.1].flatMap (fun x1 => row (bilinAt fw (dSize d 0) w0).1 (bilinAt fw (dSize d 0) last).2.1 x1 t')

/-- The ranges that one strand of an imaging slice reads, in the order of its column groups (DEDUCED, log entry 24). -/
def imgReads (op : Nat) (ps : List W64) (ds : List (BitVec 512)) (part line : Nat) (groups : List Nat) : List (Nat × Nat) :=
  if op = 0x2B then
    let a := pf ps 3 32 32
    [(pf ps 0 0 52, 16 * a), (pf ps 1 0 52 + 32 * a * line, 32 * a)]
  else
    let o := imgOut op ds part
    groups.flatMap (fun g =>
      let n := min 1024 (dSize o 0 - 1024 * g)
      match (imgRows op o line).head? with
      | none => []
      | some (h, t, c) =>
        if op = 0x28 then convReads ps ds (line % ceilDiv (dSize o 3) 64) t h (1024 * g) n
        else resampleReads (op == 0x2A) ps (nth ds (if op = 0x2A then part else 0) 0) h t c (1024 * g) n)

/-- What a strand of an imaging slice does: the column groups of its line, or the one of its segment; otherwise an error
with its address (R78, R210). -/
def State.imgStrand (s : State) (ref : SliceRef) (i rom : Nat) : Except (Nat × Nat) State :=
  match s.run ref.t ref.q, s.slice ref with
  | some r, some sl =>
    let op := cOp r.words
    let part := rom % 8
    let dout := imgOut op r.pdescs part
    let w := dSize dout 0
    let x := if op = 0x2B then (i, []) else imgGroups w (rom / 8) i
    let groups := match sl.segment with
      | none => x.2
      | some j => (x.2[j]?).toList
    match checkRanges (s.reachSlice ref) (imgReads op r.params r.pdescs part x.1 groups) with
    | some (a, e) => .error (e, a)
    | none =>
      if op = 0x2B then .ok (s.detectFrame ref sl r i)
      else
        let nb := if op = 0x28 then ceilDiv (dSize dout 3) 64 else 1
        let line := x.1 / nb
        groups.foldl (fun acc g =>
          match acc with
          | .error e => .error e
          | .ok s =>
            let n := min 1024 (w - 1024 * g)
            if op = 0x28 then
              s.convTile ref sl r (x.1 % nb) (line / dSize dout 1) (line % dSize dout 1) (1024 * g) n
            else .ok (s.resampleLine ref sl r part line (1024 * g) n)) (.ok s)
  | _, _ => .ok s

end Sys2Proof.Machine
end

