-- ==== Sys2Proof/Machine/MemCmd.lean ====
section
/-! DEFINITION. The mapping commands (R165, R166, R426), the KV commands (R140, R152) and the pan commands (R203 to
R207): their checks at admission and what they stage. -/
namespace Sys2Proof.Machine

open Sys2Proof

/-! ### Mapping commands -/

/-- PIN_KIND and PIN_TARGET of c10. -/
def pinOf (w : W64) : Nat × Nat := (wbits w 1 2, wbits w 4 5)

/-- Whether a pin is valid, but for the EVICTABLE of the pages (R166). -/
def State.pinOk (s : State) (kind target : Nat) : Bool :=
  (kind == 0 && target == 0) || (kind == 1 && s.stacks.contains target) || (kind == 2 && s.dies.contains target)

/-- The n pages from an address on. -/
def pagesFrom (a n : Nat) : List Nat := (List.range n).map (· + pageOf a)

/-- Whether base and n name a range below the model window. -/
def mapRange (a n : Nat) : Bool :=
  a % Config.pageBytes == 0 && 1 ≤ n && n ≤ 65536 && a + n * Config.pageBytes ≤ Config.modelBase

/-- The address of the first page that fails a test. -/
def firstPage (pages : List Nat) (ok : Nat → Bool) : Option Nat := (pages.find? (fun v => !ok v)).map (· * Config.pageBytes)

/-- The address of the first of n pages from one on that fails a test, looking no further. -/
def firstBadFrom (ok : Nat → Bool) (v : Nat) : Nat → Option Nat
  | 0 => none
  | n + 1 => if ok v then firstBadFrom ok (v + 1) n else some (v * Config.pageBytes)

/-- Fails with an address. -/
def mapBad (a : Nat) : OpAnswer := .fail Config.errMapInvalid a 0

/-- The stack of a new home frame (R168). -/
def State.mapStack (s : State) (v kind target : Nat) : Nat :=
  if kind = 1 then target
  else if kind = 2 then
    let l := s.stacks.filter (fun k => k / 6 == target)
    if l.isEmpty then s.stackMod v else nth l (v % l.length) 0
  else s.stackMod v

/-- Takes zero-filled home frames for pages. -/
def State.takeHomes (s : State) (t : Fin 4) (kind target : Nat) : List Nat → Option (List FreshPage × State)
  | [] => some ([], s)
  | v :: r =>
    match s.takeFrame (s.mapStack v kind target) (.fresh t v) with
    | none => none
    | some (f, s) => (s.takeHomes t kind target r).map (fun x =>
        ({ vpage := v, frame := f, whole := true, stored := false } :: x.1, x.2))

/-- MEM_MAP. -/
def memMapCheck : OpCheck := fun s t q r =>
  let a := cwn r.words 8
  let n := cwn r.words 9
  let ev := (cw r.words 10).getLsbD 0
  let pin := pinOf (cw r.words 10)
  let pages := pagesFrom a n
  if !mapRange a n then mapBad a
  else
    match firstPage pages (fun v => (s.page t v).isNone) with
    | some x => mapBad x
    | none =>
      if !s.pinOk pin.1 pin.2 || (pin.1 == 2 && ev) then mapBad a
      else if !ev && s.quota t 2 - s.stackedFixed t < n then .fail Config.errQuotaExceeded (8 * t.val + 1) 0
      else if !s.stackPossible t n then .fail Config.errQuotaExceeded (s.shortIndex t 1) 0
      else if pin.1 = 2 && s.quota t 1 < s.diePinned t + n then .fail Config.errQuotaExceeded (8 * t.val) 0
      else if !s.outsFree t q 0 true pages || !s.stackAllowed t n then .pass
      else
        let s := s.putOpSlice t q (pages.map (fun v => (v, true)))
        match (s.roomFor t n).takeHomes t pin.1 pin.2 pages with
        | none => .pass
        | some (fresh, s) =>
          let s := s.modSlice (opRef t q) (fun sl => { sl with fresh := fresh })
          .admitted (s.stage t q (fresh.map (fun p => .map p.vpage p.frame ev pin.1 pin.2))) true

/-- MEM_MAP's row. -/
def execMemMap (t : Fin 4) (q : Fin 64) (s : State) : Host.Outcome State Fault Refusal :=
  .next (s.offerRow t q 0x10 memMapCheck)

/-- MEM_UNMAP. -/
def memUnmapCheck : OpCheck := fun s t q r =>
  let a := cwn r.words 8
  let n := cwn r.words 9
  let pages := pagesFrom a n
  if !mapRange a n then mapBad a
  else
    match firstPage pages (fun v => (s.page t v).isSome) with
    | some x => mapBad x
    | none =>
      if !s.outsFree t q 0 true pages then .pass
      else .admitted ((s.putOpSlice t q (pages.map (fun v => (v, true)))).stage t q (pages.map .unmap)) true

/-- MEM_UNMAP's row. -/
def execMemUnmap (t : Fin 4) (q : Fin 64) (s : State) : Host.Outcome State Fault Refusal :=
  .next (s.offerRow t q 0x11 memUnmapCheck)

/-- MEM_PIN: R165 states no check of its range; the pages must be valid, which those of the model window are to no tenancy's
pins (DEDUCED, log entry 61). -/
def memPinCheck : OpCheck := fun s t q r =>
  let a := cwn r.words 8
  let n := cwn r.words 9
  let pin := pinOf (cw r.words 10)
  match firstBadFrom (fun v => ((s.page t v).map (fun e => !e.gone)).getD false) (pageOf a) n with
  | some x => mapBad x
  | none =>
      let pages := pagesFrom a n
      if !s.pinOk pin.1 pin.2 then mapBad a
      else
        match (if pin.1 = 2 then firstPage pages (fun v => ((s.page t v).map (fun e => !e.evictable)).getD false) else none) with
        | some x => mapBad x
        | none =>
          let new := (pages.filter (fun v => ((s.page t v).map (fun e => e.pinKind != 2)).getD true)).length
          if pin.1 = 2 && s.quota t 1 < s.diePinned t + new then .fail Config.errQuotaExceeded (8 * t.val) 0
          else if !s.outsFree t q 0 true pages then .pass
          else
            .admitted ((s.putOpSlice t q (pages.map (fun v => (v, true)))).stage t q
              (pages.map (fun v => .pin v pin.1 pin.2))) true

/-- MEM_PIN's row. -/
def execMemPin (t : Fin 4) (q : Fin 64) (s : State) : Host.Outcome State Fault Refusal :=
  .next (s.offerRow t q 0x12 memPinCheck)

/-- The output entries of a range of which a command writes a part. -/
def partOuts (a n : Nat) : List (Nat × Bool) := (pagesOf a n).map (fun v => (v, false))

/-- MEM_QUERY. -/
def memQueryCheck : OpCheck := fun s t q r =>
  let a := cwn r.words 8
  let n := cwn r.words 9
  let d := cwn r.words 10
  if a % Config.pageBytes ≠ 0 || n < 1 || 262144 < n || 2 ^ 52 < a + n * Config.pageBytes then mapBad a
  else if d % 8 ≠ 0 || 2 ^ 52 < d + 8 * n then mapBad d
  else
    let outs := partOuts d (8 * n)
    match outs.findSome? (s.outError t) with
    | some e => if e.1 = Config.errModelAbsent then .fail e.1 e.2 0 else mapBad e.2
    | none => s.claim t q outs (fun s => .admitted (s.stage t q [.query a n d]) true)

/-- MEM_QUERY's row. -/
def execMemQuery (t : Fin 4) (q : Fin 64) (s : State) : Host.Outcome State Fault Refusal :=
  .next (s.offerRow t q 0x13 memQueryCheck)

/-! ### KV commands -/

/-- Fails with an address. -/
def kvBad (a : Nat) : OpAnswer := .fail Config.errKvSequenceInvalid a 0

/-- Heads and pages of a range of a sequence. -/
def headPages (q : Seq) (first n : Nat) : List (Nat × Nat) :=
  (List.range q.heads).flatMap (fun h => (List.range n).map (fun i => (h, first + i)))

/-- The page entry of a head and page, where the live directory reaches one. -/
def State.peAt (s : State) (t : Fin 4) (desc : Nat) (q : Seq) (hp : Nat × Nat) : Option (Nat × W64) :=
  match s.resolvePage t desc q hp.1 hp.2 with
  | .ok x => some x
  | .error _ => none

/-- Admits a KV command that changes page entries: their pages and the descriptor's are its output pages, which may not lie
in the model window (R163). The frames that the entries come to name are pinned until it commits (R151). -/
def State.admitKv (s : State) (t : Fin 4) (c : Fin 64) (desc : Nat) (l : List (Nat × W64)) : OpAnswer :=
  let pages := (pageOf desc :: l.map (fun x => pageOf x.1)).eraseDups
  match pages.find? inModelWindow with
  | some v => .fail Config.errPageForeign (v * Config.pageBytes) 0
  | none =>
    if !s.outsFree t c 0 true pages then .pass
    else
      let frames := ((l.filter (fun x => peValid x.2)).map (fun x => 2 ^ 40 + peFrame x.2)).eraseDups
      let s := (s.putOpSlice t c (pages.map (fun v => (v, true)))).pinFrames t c frames
      .admitted (s.stage t c (l.map (fun x => .kvEntry desc x.1 x.2) ++ [.kvLength desc none])) true

/-- KV_SHARE. -/
def kvShareCheck : OpCheck := fun s t c r =>
  let src := cwn r.words 8
  let dst := cwn r.words 9
  let n := cwn r.words 10
  match s.seqAt t src, s.seqAt t dst with
  | .error _, _ => kvBad src
  | .ok _, .error _ => kvBad dst
  | .ok a, .ok b =>
    if a.fmt ≠ b.fmt || a.dcode ≠ b.dcode || a.heads ≠ b.heads || b.slots * 512 * b.tpp < n then kvBad dst
    else if n < 1 || a.length < n || (a.fmt = 8 && n % 32 ≠ 0 && n ≠ a.length) then kvBad src
    else
      let last := (n - 1) / a.tpp
      let hps := headPages a 0 (last + 1)
      let from_ := hps.map (fun hp => (hp, s.peAt t src a hp))
      let to_ := hps.map (fun hp => (hp, s.peAt t dst b hp))
      match from_.findSome? (fun x => match x.2 with
        | some (pe, e) => if peValid e && !peEvicted e then none else some pe
        | none => some src) with
      | some x => kvBad x
      | none =>
        match to_.findSome? (fun x => match x.2 with
          | some (pe, e) => if peValid e then some pe else none
          | none => some dst) with
        | some x => kvBad x
        | none =>
          let new := (from_.zip to_).filterMap (fun z =>
            match z.1.2, z.2.2 with
            | some (_, e), some (pe, _) =>
              let isLast := z.1.1.2 = last
              let count := if isLast then n - a.tpp * last else peCount e
              some (pe, mkPe (peRemnant e && (!isLast || n = a.length)) count (kvStack (peFrame e)) (peFrame e) true)
            | _, _ => none)
          s.admitKv t c dst new

/-- KV_SHARE's row. -/
def execKvShare (t : Fin 4) (q : Fin 64) (s : State) : Host.Outcome State Fault Refusal :=
  .next (s.offerRow t q 0x18 kvShareCheck)

/-- KV_RELEASE. -/
def kvReleaseCheck : OpCheck := fun s t c r =>
  let desc := cwn r.words 8
  match s.seqAt t desc with
  | .error _ => kvBad desc
  | .ok q =>
    if q.slots * 512 < cwn r.words 9 + cwn r.words 10 then kvBad desc
    else
      let l := (headPages q (cwn r.words 9) (cwn r.words 10)).filterMap (fun hp =>
        match s.peAt t desc q hp with
        | some (pe, e) => if peValid e then some (pe, (0 : W64)) else none
        | none => none)
      s.admitKv t c desc l

/-- KV_RELEASE's row. -/
def execKvRelease (t : Fin 4) (q : Fin 64) (s : State) : Host.Outcome State Fault Refusal :=
  .next (s.offerRow t q 0x19 kvReleaseCheck)

/-- The tables that a directory copy names: (head, slot, table); an entry that cannot be read names none. -/
def State.dirTables (s : State) (t : Fin 4) (q : Seq) (dir : Nat) : List (Nat × Nat × Nat) :=
  (List.range q.heads).flatMap (fun h => (List.range q.slots).filterMap (fun j =>
    let a := dirEntryAddr q dir h j
    let d := s.numT t a 8
    if (s.checkT t a 8).isNone && d.testBit 63 then some (h, j, d % 2 ^ 52) else none))

/-- Whether a table holds a valid page entry. -/
def State.tableUsed (s : State) (t : Fin 4) (a : Nat) : Bool :=
  (List.range 512).any (fun i => (s.numT t (a + 8 * i) 8).testBit 63)

/-- The first entry of a shadow directory whose reserved bits are not zero, valid or not (R6, R138). -/
def State.badReserved (s : State) (t : Fin 4) (sh n : Nat) : Option Nat :=
  ((List.range n).find? (fun i => bits (s.numT t (sh + 8 * i) 8) 52 11 ≠ 0)).map (fun i => sh + 8 * i)

/-- The first offending entry of a shadow directory (R140). A directory in the model window can be no shadow: nothing writes
it. -/
def State.badShadow (s : State) (t : Fin 4) (q : Seq) : Option Nat :=
  let sh := q.shadowDir
  let live := s.dirTables t q q.dir
  let new := s.dirTables t q sh
  let size := 8 * q.heads * q.slots
  match s.checkT t sh size with
  | some x => some x.1
  | none =>
    if (pagesOf sh size ++ pagesOf q.dir size).any inModelWindow then some sh
    else
    (s.badReserved t sh (q.heads * q.slots)).orElse (fun _ =>
    ((new.find? (fun x =>
      x.2.2 % 4096 ≠ 0 || 2 ^ 52 ≤ x.2.2 + 4096 ||
      (s.checkT t x.2.2 4096).isSome || inModelWindow (pageOf x.2.2) ||
      (!live.any (fun y => y.2.2 == x.2.2) && (s.readT t x.2.2 4096).any (· != 0)))).map
        (fun x => dirEntryAddr q sh x.1 x.2.1)).orElse (fun _ =>
    (live.find? (fun y => s.tableUsed t y.2.2 && !new.contains y)).map (fun y => dirEntryAddr q sh y.1 y.2.1)))

/-- Writes committed bytes of Tt through its page table; the model window is read-only (R162). -/
def State.putT (s : State) (t : Fin 4) (a : Nat) (bs : List Byte) : State :=
  s.writeVia (fun v => if inModelWindow v then none else match s.reachCommitted t v with
    | .frame f => some f
    | .error _ => none) a bs

/-- Sets the module fields of word q1 of a descriptor: DIR_STATE, and LIVE where given. -/
def State.setDir (s : State) (t : Fin 4) (desc state : Nat) (live : Option Bool) : State :=
  let w := s.numT t (desc + 8) 8
  let l := match live with
    | none => w.testBit 61
    | some b => b
  s.putT t (desc + 8) (leBytes 8 (w % 2 ^ 61 + (if l then 2 ^ 61 else 0) + state * 2 ^ 62))

/-- KV_COMMIT_DIR: a shadow that passes becomes PENDING. A descriptor is written in the sluice only (R137): at a break-in
point the lock alone is taken, and DIR_STATE goes to SYNCING at the swap. -/
def kvCommitDirCheck : OpCheck := fun s t c r =>
  let desc := cwn r.words 8
  match s.seqAt t desc with
  | .error _ => kvBad desc
  | .ok q =>
    if q.dirState ≠ 0 || s.mem.dirBusy.contains (t.val, desc) then .fail Config.errTableBusy desc 0
    else
      match s.badShadow t q with
      | some a => kvBad a
      | none =>
        let pages := [pageOf desc]
        if inModelWindow (pageOf desc) then .fail Config.errPageForeign (pageOf desc * Config.pageBytes) 0
        else if !s.outsFree t c 0 true pages then .pass
        else
          let s := s.putOpSlice t c [(pageOf desc, true)]
          let s := if s.tick.breakingIn then s else s.setDir t desc 1 none
          let s := { s with mem := { s.mem with dirBusy := s.mem.dirBusy ++ [(t.val, desc)] } }
          .admitted (s.stage t c [.dirPending desc]) true

/-- KV_COMMIT_DIR's row. -/
def execKvCommitDir (t : Fin 4) (q : Fin 64) (s : State) : Host.Outcome State Fault Refusal :=
  .next (s.offerRow t q 0x1A kvCommitDirCheck)

/-! ### Pan commands -/

/-- Fails with the value of an operand. -/
def panBad (a : Nat) : OpAnswer := .fail Config.errPanInvalid a 0

/-- What is wrong with a range that a pan command reads or writes: nothing, R390's error, or the operand. -/
inductive RangeCheck where
  | ok
  | absent (a : Nat)
  | failed (a : Nat)
  | bad
deriving DecidableEq, Repr

/-- The pages of a source: mapped and not evicted. -/
def State.panSource (s : State) (t : Fin 4) (pages : List Nat) : RangeCheck :=
  match pages.find? s.modelGone with
  | some v => .absent (v * Config.pageBytes)
  | none =>
    match pages.find? (fun v => s.reachCommitted t v == .error Config.errMemoryFailed) with
    | some v => .failed (v * Config.pageBytes)
    | none => if pages.all (fun v => match s.reachCommitted t v with | .frame _ => true | .error _ => false) then .ok else .bad

/-- The pages of a destination: mapped and writable; evicted where allowed. -/
def State.panDest (s : State) (t : Fin 4) (evicted : Bool) (pages : List Nat) : RangeCheck :=
  match pages.find? s.modelGone with
  | some v => .absent (v * Config.pageBytes)
  | none =>
    if pages.all (fun v => match s.page t v with | some e => !inModelWindow v && (evicted || !e.gone) | none => false)
    then .ok else .bad

/-- Goes on after a range check; the operand's value is reported where it fails. -/
def RangeCheck.then (x : RangeCheck) (operand : Nat) (next : OpAnswer) : OpAnswer :=
  match x with
  | .ok => next
  | .absent a => .fail Config.errModelAbsent a 0
  | .failed a => .fail Config.errMemoryFailed a 0
  | .bad => panBad operand

/-- Bytes that a command writes at addresses, into its fresh pages. -/
def State.writeFresh (s : State) (t : Fin 4) (q : Fin 64) (a : Nat) (bs : List Byte) : State :=
  match s.slice (opRef t q) with
  | none => s
  | some sl => (s.writeVia (freshOf sl.fresh) a bs).narrow (freshOf sl.fresh) a bs.length

/-- PAN_FILL. -/
def panFillCheck : OpCheck := fun s t q r =>
  let a := cwn r.words 8
  let n := cwn r.words 9
  if a % Config.pageBytes ≠ 0 then panBad a
  else if n < 1 || 65536 < n then panBad n
  else
    (s.panDest t false (pagesFrom a n)).then a
      (if 1 < cwn r.words 10 then panBad (cwn r.words 10)
       else s.claim t q ((pagesFrom a n).map (fun v => (v, true))) (fun s => .admitted s false))

/-- PAN_FILL's row. -/
def execPanFill (t : Fin 4) (q : Fin 64) (s : State) : Host.Outcome State Fault Refusal :=
  .next (s.offerRow t q 0x20 panFillCheck)

/-- Copies pages into the fresh pages of a command. -/
def State.copyIn (s : State) (t : Fin 4) (q : Fin 64) (src dst : List Nat) : State :=
  match s.slice (opRef t q) with
  | none => s
  | some sl =>
    s.each (src.zip dst) (fun s x =>
      match s.reachCommitted t x.1, freshOf sl.fresh x.2 with
      | .frame g, some f => s.copyFrame g f
      | _, _ => s)

/-- PAN_COPY. What it reads is pinned before room is made for what it writes (R203). -/
def panCopyCheck : OpCheck := fun s t q r =>
  let a := cwn r.words 8
  let d := cwn r.words 9
  let n := cwn r.words 10
  let nOk := decide (1 ≤ n ∧ n ≤ 65536)
  let m := if nOk then n else 0
  if a % Config.pageBytes ≠ 0 then panBad a
  else
    (s.panSource t (pagesFrom a m)).then a
      (if d % Config.pageBytes ≠ 0 then panBad d
       else if !nOk then panBad n
       else if a < d + n * Config.pageBytes && d < a + n * Config.pageBytes then panBad d
       else
        (s.panDest t true (pagesFrom d n)).then d
          ((s.pinReads t q (pagesFrom a n)).claim t q ((pagesFrom d n).map (fun v => (v, true))) (fun s =>
            .admitted (s.copyIn t q (pagesFrom a n) (pagesFrom d n)) false)))

/-- PAN_COPY's row. -/
def execPanCopy (t : Fin 4) (q : Fin 64) (s : State) : Host.Outcome State Fault Refusal :=
  .next (s.offerRow t q 0x21 panCopyCheck)

/-- The rows of a tensor: the indices along dimensions 1 to 3. -/
def tensorRows (d : BitVec 512) : List (Nat × Nat × Nat) :=
  (List.range (dSize d 3)).flatMap (fun x3 => (List.range (dSize d 2)).flatMap (fun x2 =>
    (List.range (dSize d 1)).map (fun x1 => (x1, x2, x3))))

/-- The byte ranges of a tensor. -/
def tensorRanges (d : BitVec 512) : List (Nat × Nat) :=
  (tensorRows d).flatMap (fun x =>
    (dBitAddr d 0 x.1 x.2.1 x.2.2 / 8, ceilDiv (dSize d 0 * fmtBits (dFmt d)) 8) ::
      (if fmtScaled (dFmt d) then [(dScaleAddr d 0 x.1 x.2.1 x.2.2, ceilDiv (dSize d 0) 32)] else []))

/-- The pages of a list of ranges, ascending. -/
def pagesOfRanges (l : List (Nat × Nat)) : List Nat :=
  sortBy (fun (a b : Nat) => decide (a < b)) ((l.flatMap (fun x => pagesOf x.1 x.2)).eraseDups)

/-- Whether PAN_CONVERT converts a format into another (R204). -/
def convertPair (src dst : Nat) : Bool :=
  (dst == 4 && (src == 8 || src == 10 || src == 11)) || (dst == 1 && 2 ≤ src && src ≤ 11)

/-- The value of an element of a tensor, with its block and tensor scales (R204). -/
def State.scaledElem (s : State) (t : Fin 4) (d : BitVec 512) (x0 : Nat) (x : Nat × Nat × Nat) : FVal :=
  let b := fmtBits (dFmt d)
  let a := dBitAddr d x0 x.1 x.2.1 x.2.2
  let code := bits (s.numT t (a / 8) (ceilDiv (a % 8 + b) 8)) (a % 8) b
  let v := decodeElem (dFmt d) code
  let v := if fmtScaled (dFmt d) then applyScale v (s.numT t (dScaleAddr d x0 x.1 x.2.1 x.2.2) 1) else v
  if fmtTensorScaled (dFmt d) then v.mul (dScaleVal d) else v

/-- Counts the T2 codes 0b10 that a conversion of one row of a tensor reads (R84). -/
def State.countT2 (s : State) (t : Fin 4) (a : BitVec 512) (x : Nat × Nat × Nat) : State :=
  if dFmt a = 11 then
    let n := dSize a 0
    s.bump 0x9022 0xD ((unpackN 2 (s.readT t (dBitAddr a 0 x.1 x.2.1 x.2.2 / 8) (ceilDiv (n * 2) 8)) n).filter (· = 2)).length
  else s

/-- Converts one row of a tensor into the fresh pages of the command. -/
def State.convertRowTo (s : State) (t : Fin 4) (q : Fin 64) (a d : BitVec 512) (x : Nat × Nat × Nat) : State :=
  let n := dSize a 0
  let s := s.countT2 t a x
  if dFmt d = 4 then
    let b := fmtBits (dFmt a)
    let codes := unpackN b (s.readT t (dBitAddr a 0 x.1 x.2.1 x.2.2 / 8) (ceilDiv (n * b) 8)) n
    let out := codes.map (fun c => (convertElem 2 0 (decodeElem (dFmt a) c) none).1)
    let scales := s.readT t (dScaleAddr a 0 x.1 x.2.1 x.2.2) (n / 32)
    (s.writeFresh t q (dBitAddr d 0 x.1 x.2.1 x.2.2 / 8) (packN 8 out)).writeFresh t q
      (dScaleAddr d 0 x.1 x.2.1 x.2.2) scales
  else
    let vs := (blocksOf (ceilDiv n 32) ((List.range n).map (fun i => s.scaledElem t a i x))).map
      (fun b => convertBlock 1 b (fun _ => none))
    (s.writeFresh t q (dBitAddr d 0 x.1 x.2.1 x.2.2 / 8) (packN 16 (vs.flatMap (·.codes)))).countBlocks 1 vs

/-- PAN_CONVERT. -/
def panConvertCheck : OpCheck := fun s t q r =>
  let pa := cwn r.words 8
  let pd := cwn r.words 9
  let readable := fun (p : Nat) => p % 64 = 0 && (s.checkT t p 64).isNone
  match [pa, pd].find? (fun p => (pagesOf p 64).any s.modelGone) with
  | some p => .fail Config.errModelAbsent p 0
  | none =>
    if !readable pa then panBad pa
    else if !readable pd then panBad pd
    else
      let a := BitVec.ofNat 512 (s.numT t pa 64)
      let d := BitVec.ofNat 512 (s.numT t pd 64)
      let same := dRank a == dRank d && (List.range 4).all (fun i => dSize a i == dSize d i)
      if !descValid a || dLenEn a then panBad pa
      else if !descValid d || dLenEn d || !same || !convertPair (dFmt a) (dFmt d) then panBad pd
      else
        let src := pagesOfRanges (tensorRanges a)
        let dst := pagesOfRanges (tensorRanges d)
        (s.panSource t src).then pa ((s.panDest t false dst).then pd
          ((s.pinReads t q src).claim t q (dst.map (fun v => (v, false))) (fun s =>
            .admitted (s.each (tensorRows a) (fun s x => s.convertRowTo t q a d x)) false)))

/-- PAN_CONVERT's row. -/
def execPanConvert (t : Fin 4) (q : Fin 64) (s : State) : Host.Outcome State Fault Refusal :=
  .next (s.offerRow t q 0x22 panConvertCheck)

/-- Extends bytes with zeros to a 64-byte boundary. -/
def pad64 (bs : List Byte) : List Byte := bs ++ List.replicate (up64 bs.length - bs.length) 0

/-- A gather record (R205). -/
def gatherRecord (q : Seq) (head page count : Nat) (frame : List Byte) : List Byte :=
  let b := if q.fmt = 2 then 8 else 4
  let mx := q.fmt = 8
  let g := ceilDiv count 32 * 32
  let bs := kvMask q count frame
  let row := q.tpp * b / 8
  let hdr := leBytes 4 page ++ leBytes 2 head ++ leBytes 2 count ++ leBytes 2 g ++ leBytes 1 q.fmt ++ leBytes 1 q.dcode
  let vals := (chunks row q.dim (bs.drop 34816)).flatMap (fun r => packN b ((unpackN b r q.tpp).take g))
  pad64 hdr ++ pad64 (bs.take (g * q.dim * b / 8)) ++
    (if mx then pad64 ((bs.drop 32768).take (g * q.dim / 32)) else []) ++ pad64 vals ++
    (if mx then pad64 ((chunks (q.tpp / 32) q.dim (bs.drop 67584)).flatMap (fun r => r.take (g / 32))) else [])

/-- What a gather has written: bytes, the head and page reached. -/
structure Gathered where
  bytes : List Byte
  head : Nat
  page : Nat
  full : Bool

/-- What a gather of a list of pages, each with its entry, writes into at most `limit` bytes, from head h0 and page p0 on
(R205). -/
def State.gather (s : State) (q : Seq) (limit h0 p0 : Nat) (pes : List ((Nat × Nat) × Option (Nat × W64))) : Gathered :=
  pes.foldl (fun (acc : Gathered) x =>
    if acc.full then acc
    else
      match x.2 with
      | some (_, e) =>
        if peValid e then
          let rec_ := gatherRecord q x.1.1 x.1.2 (peCount e) (memReadN s.mem.mem (kvPhys (peFrame e)) Config.kvFrameBytes)
          if limit < acc.bytes.length + rec_.length then { acc with head := x.1.1, page := x.1.2, full := true }
          else { bytes := acc.bytes ++ rec_, head := x.1.1, page := x.1.2, full := false }
        else { acc with head := x.1.1, page := x.1.2 }
      | none => { acc with head := x.1.1, page := x.1.2 }) { bytes := [], head := h0, page := p0, full := false }

/-- The KV frames of valid page entries, as frames that a command pins. -/
def kvPins (pes : List ((Nat × Nat) × Option (Nat × W64))) : List Nat :=
  pes.filterMap (fun x => x.2.bind (fun y => if peValid y.2 then some (2 ^ 40 + peFrame y.2) else none))

/-- PAN_GATHER. What it reads is pinned before room is made for what it writes (R203). -/
def panGatherCheck : OpCheck := fun s t c r =>
  let desc := cwn r.words 8
  let h0 := wbits (cw r.words 9) 48 16
  let nh := wbits (cw r.words 9) 32 16
  let p0 := wbits (cw r.words 9) 0 32
  let np := cwn r.words 10
  let d := cwn r.words 11
  let limit := cwn r.words 12
  match s.seqAt t desc with
  | .error (e, a) => if e = Config.errModelAbsent then .fail e a 0 else panBad desc
  | .ok q =>
    if q.heads < h0 + nh || q.slots * 512 ≤ p0 then panBad (cwn r.words 9)
    else if q.slots * 512 < p0 + np then panBad np
    else if d % 64 ≠ 0 then panBad d
    else
      let hps := (List.range nh).flatMap (fun i => (List.range np).map (fun j => (h0 + i, p0 + j)))
      let pes := hps.map (fun hp => (hp, s.peAt t desc q hp))
      match pes.findSome? (fun x => x.2.bind (fun y => if peValid y.2 && peEvicted y.2 then some y.1 else none)) with
      | some a => .fail Config.errPageEvicted a 0
      | none =>
       match pes.findSome? (fun x => x.2.bind (fun y => if peValid y.2 && s.frameFailed (peFrame y.2 / 32) then some y.1 else none)) with
       | some a => .fail Config.errMemoryFailed a 0
       | none =>
        let g := s.gather q limit h0 p0 pes
        let outs := partOuts d g.bytes.length
        (s.panDest t false (outs.map (·.1))).then d
          ((s.pinFrames t c (kvPins pes)).claim t c outs (fun s =>
            .admitted ((s.writeFresh t c d g.bytes).results t c g.bytes.length (g.head * 2 ^ 48 + g.page)) false))

/-- PAN_GATHER's row. -/
def execPanGather (t : Fin 4) (q : Fin 64) (s : State) : Host.Outcome State Fault Refusal :=
  .next (s.offerRow t q 0x23 panGatherCheck)

/-- PAN_DIGEST. -/
def panDigestCheck : OpCheck := fun s t q r =>
  let a := cwn r.words 8
  let n := cwn r.words 9
  let d := cwn r.words 11
  let leafD := cwn r.words 12
  if 2 ^ 40 < n then panBad n
  else
    match (if n = 0 then none else s.checkT t a n) with
    | some (x, e) => .fail e x 0
    | none =>
      let c := ceilDiv n 1048576
      let l := if leafD = 0 then [] else partOuts leafD (32 * c)
      let outs := (partOuts d 32 ++ l).eraseDups
      if d % 32 ≠ 0 then panBad d
      else
        (s.panDest t false ((partOuts d 32).map (·.1))).then d
          (if leafD % 32 ≠ 0 then panBad leafD
           else (s.panDest t false (l.map (·.1))).then leafD
            ((s.pinReads t q (pagesOf a n)).claim t q outs (fun s =>
              let m := s.readT t a n
              let s := s.writeFresh t q d (treeDigest m (cwn r.words 10))
              .admitted (if leafD = 0 then s else s.writeFresh t q leafD (treeLeaves c 0 m).flatten) false)))

/-- PAN_DIGEST's row. -/
def execPanDigest (t : Fin 4) (q : Fin 64) (s : State) : Host.Outcome State Fault Refusal :=
  .next (s.offerRow t q 0x24 panDigestCheck)

/-- Whether a command's work is the pans' (R203, R363, R372, R394, R396): a securing command whose image is
written, or a restore whose ranges are placed, is in phase 3. -/
def CmdRun.onPans (r : CmdRun) : Bool :=
  let op := cOp r.words
  op / 8 = 4 || op = 0x40 || op = 0x41 || ((op = 0x48 || op = 0x49) && r.phase = 3)

/-- Whether a command is a PAN_FILL that scrubs (R203). -/
def CmdRun.scrubs (r : CmdRun) : Bool := cOp r.words == 0x20 && cwn r.words 10 == 1

/-- The address of the first non-zero byte that the read-back of a scrub finds in the fresh pages of a command. -/
def State.dirtyByte (s : State) (l : List FreshPage) : Option Nat :=
  l.findSome? (fun p => (s.mem.mem.find? (fun c => c.1 / Config.pageBytes == p.frame)).map (fun c =>
    p.vpage * Config.pageBytes + c.1 % Config.pageBytes))

/-- PAN_WORK_DONE: the pans have finished the work of an admitted command; it commits at the next sluice (R203), but for a
scrub whose read-back finds a byte that is not zero. The codec units and the input pipeline report by events of their own. -/
def execPanWorkDone (t : Fin 4) (q : Fin 64) (s : State) : Host.Outcome State Fault Refusal :=
  .next (match s.run t q with
    | none => s
    | some r =>
      if r.begun && r.isOp && r.onPans then
        let s := s.modRun t q (fun r => { r with opDone := true })
        match (if r.scrubs then s.dirtyByte (r.slices.flatMap (·.fresh)) else none) with
        | some a => (s.failAt t q (Config.errMemoryFailed, a)).bump 0x9026 0xB 1
        | none => s
      else s)

end Sys2Proof.Machine
end

