-- ==== Sys2Proof/Machine/CodecCmd.lean ====
section
/-! DEFINITION. Video decode and encode (R224 to R241): contexts and their reservations, the commands' checks, one
frame of decoding, and one attempt of encoding. What a bit stream decodes to, and what bytes an encoder makes, are
opaque functions of Config (the standards that R224 and R225 name). -/
namespace Sys2Proof.Machine

open Sys2Proof

/-! ### Parameter blocks -/

/-- Fails with an address. -/
def codecBad (a : Nat) : OpAnswer := .fail Config.errCodecInvalid a 0

/-- The eight words of a parameter block, or the error of its alignment or page. -/
def State.paramBlock (s : State) (t : Fin 4) (code base : Nat) : Except Bad (List W64) :=
  if base % 64 ≠ 0 then .error (code, base)
  else
    match s.checkT t base 64 with
    | some (a, e) => .error (e, a)
    | none => .ok ((List.range 8).map (fun i => BitVec.ofNat 64 (s.numT t (base + 8 * i) 8)))

/-- Runs a check over the words of a parameter block. -/
def State.withBlock (s : State) (t : Fin 4) (r : CmdRun) (code : Nat) (words : List W64 → Option Nat)
    (next : List W64 → OpAnswer) : OpAnswer :=
  let base := cwn r.words 8
  match s.paramBlock t code base with
  | .error e => .fail e.1 e.2 0
  | .ok ps =>
    match words ps with
    | some i => .fail code (base + 8 * i) 0
    | none => next ps

/-- What opens a context. -/
structure CtxOpen where
  encode : Bool
  hevc : Bool
  depth : Nat
  buffers : Nat
  maxW : Nat
  maxH : Nat
  pitch : Nat
  num : Nat
  den : Nat
  pool : Nat
deriving DecidableEq, Repr

/-- The words of CODEC_OPEN. -/
def openWords (ps : List W64) : Option Nat :=
  let f := pf ps
  let enc := f 0 60 4 = 1
  badWord
    [(0, f 0 60 4 ≤ 1 && f 0 56 4 ≤ (if enc then 0 else 1) && (f 0 52 4 = 8 || f 0 52 4 = 10) && f 0 46 6 = 0 &&
         f 0 0 40 = 0 && f 0 40 6 ≤ 63 && (!enc || 3 ≤ f 0 40 6)),
     (1, f 1 48 16 % 2 = 0 && 16 ≤ f 1 48 16 && f 1 48 16 ≤ 8192 && f 1 32 16 % 2 = 0 && 16 ≤ f 1 32 16 &&
         f 1 32 16 ≤ 4352 && f 1 0 32 % 256 = 0 && f 1 48 16 * (if f 0 52 4 = 8 then 1 else 2) ≤ f 1 0 32),
     (2, 1 ≤ f 2 32 32 && 1 ≤ f 2 0 32),
     (3, f 3 52 12 = 0 && f 3 0 52 % 64 = 0),
     (4, if enc then f 4 56 2 ≤ 1 && 1 ≤ f 4 40 16 && 1 ≤ f 4 30 10 && f 4 30 10 ≤ 600 && f 4 0 30 = 0 else pw ps 4 == 0),
     (5, f 5 0 32 = 0 && (enc || f 5 32 32 = 0)),
     (6, pw ps 6 == 0), (7, pw ps 7 == 0)]

/-- What CODEC_OPEN opens. -/
def openOf (ps : List W64) : CtxOpen :=
  let f := pf ps
  { encode := f 0 60 4 = 1, hevc := f 0 56 4 = 1, depth := f 0 52 4, buffers := f 0 40 6 + 1, maxW := f 1 48 16,
    maxH := f 1 32 16, pitch := f 1 0 32, num := f 2 32 32, den := f 2 0 32, pool := f 3 0 52 }

/-! ### The pool (R232, R233) -/

/-- Bytes of a buffer. -/
def bufferBytes (pitch maxH : Nat) : Nat := pitch * maxH * 3 / 2

/-- A mark: OUT, LONG, SHORT, SLOTS. -/
def bufOut (b : Buffer) : Bool := b.mark.getLsbD 15
/-- The AV1 reference slots that hold a buffer. -/
def bufSlots (b : Buffer) : Nat := b.mark.toNat % 256

/-- The buffers of a pool, or what is wrong: a bad entry, a buffer that is not mapped or not writable, or one that
meets a lower-numbered buffer. -/
def State.readPool (s : State) (t : Fin 4) (code : Nat) (o : CtxOpen) : Except Bad (List Buffer) :=
  match s.checkT t o.pool (8 * o.buffers) with
  | some (a, e) => .error (e, a)
  | none =>
    let n := bufferBytes o.pitch o.maxH
    let ws := (List.range o.buffers).map (fun i => s.numT t (o.pool + 8 * i) 8)
    let ok := fun (i : Nat) (w : Nat) =>
      (pagesOf w n).all (fun v => !inModelWindow v && (s.page t v).isSome) &&
      (ws.take i).all (fun x => x + n ≤ w || w + n ≤ x)
    match (ws.mapIdx (fun i w => (i, w))).find? (fun x => x.2 % 4096 ≠ 0 || 2 ^ 52 ≤ x.2 || !ok x.1 x.2) with
    | some (i, w) => .error (code, if w % 4096 ≠ 0 || 2 ^ 52 ≤ w then o.pool + 8 * i else w)
    | none => .ok (ws.map (fun w => { address := w, mark := 0, w := 0, h := 0 }))

/-! ### Capacity (R226, R227) -/

/-- The sum of rates, as a fraction. -/
def rateSum (l : List (Nat × Nat)) : Nat × Nat :=
  l.foldl (fun x y => (x.1 * y.2 + y.1 * x.2, x.2 * y.2)) (0, 1)

/-- Whether reservations and one more fit a unit. -/
def rateFits (cap : Nat) (l : List (Nat × Nat)) : Bool := (rateSum l).1 ≤ cap * (rateSum l).2

/-- The rate a context reserves. -/
def CodecCtx.rate (c : CodecCtx) : Nat × Nat := (c.maxW * c.maxH * c.rateNum, c.rateDen)

/-- The reservations on a unit. -/
def State.rates (s : State) (encode : Bool) (engine : Nat) : List (Nat × Nat) :=
  (s.codec.filter (fun x => x.2.encode == encode && (x.2.engine == engine || x.2.engine == 4))).map (fun x => x.2.rate)

/-- The engine that a new context gets; 4 stands for all four encode units. -/
def State.codecEngine (s : State) (o : CtxOpen) : Option Nat :=
  let r := (o.maxW * o.maxH * o.num, o.den)
  if o.encode && !(o.maxW ≤ 4096 && o.maxH ≤ 2304) then
    if s.codec.any (fun x => x.2.encode) || !rateFits (4 * 497664000) [r] || s.health.failedUnits.any (· < 4) then none
    else some 4
  else
    (List.range 4).find? (fun e => !s.health.failedUnits.contains e && rateFits (if o.encode then 497664000 else 995328000) (r :: s.rates o.encode e))

/-- The number of a new context: the lowest free one of its direction, decode 0 to 31 and encode 32 to 47. -/
def State.codecNumber (s : State) (encode : Bool) : Option Nat :=
  ((List.range (if encode then 16 else 32)).map (· + (if encode then 32 else 0))).find? (fun n => (kget s.codec n).isNone)

/-- A context just opened. -/
def newCtx (t : Fin 4) (stream : Option Nat) (o : CtxOpen) (buffers : List Buffer) (engine : Nat) (ps : List W64) :
    CodecCtx :=
  let f := pf ps
  let e := fun (x : Nat) => if o.encode then x else 0
  { owner := t, stream := stream, visible := false, encode := o.encode, hevc := o.hevc, depth := o.depth,
    buffers := buffers, maxW := o.maxW, maxH := o.maxH, pitch := o.pitch, rateNum := o.num, rateDen := o.den,
    quality := e (f 4 58 6), colour := e (f 4 56 2), keyInterval := e (f 4 40 16), window := e (f 4 30 10),
    maxKbps := e (f 5 32 32), engine := engine, decodeIndex := 0, frameN := 0, keyBase := 0, sizes := [],
    history := [], job := none }

/-- Opens a context, when one and a unit with room are free. -/
def State.openCtx (s : State) (t : Fin 4) (stream : Option Nat) (o : CtxOpen) (buffers : List Buffer) (ps : List W64) :
    Option (Nat × State) :=
  match s.codecEngine o, s.codecNumber o.encode with
  | some e, some n => some (n, { s with codec := kset s.codec n (newCtx t stream o buffers e ps) })
  | _, _ => none

/-- Changes a context. -/
def State.modCodec (s : State) (n : Nat) (f : CodecCtx → CodecCtx) : State := { s with codec := kmod s.codec n f }

/-- CODEC_OPEN. -/
def codecOpenCheck : OpCheck := fun s t q r =>
  s.withBlock t r Config.errCodecInvalid openWords (fun ps =>
    let o := openOf ps
    match s.readPool t Config.errCodecInvalid o with
    | .error e => .fail e.1 e.2 0
    | .ok buffers =>
      match s.openCtx t none o buffers ps with
      | none => .fail Config.errCodecCapacity (cwn r.words 8) 0
      | some (n, s) => .admitted ((s.stage t q [.codecOpen n]).results t q n 0) true)

/-- CODEC_OPEN's row. A refusal for capacity is counted. -/
def execCodecOpen (t : Fin 4) (q : Fin 64) (s : State) : Host.Outcome State Fault Refusal :=
  .next (s.offerRow t q 0x30 codecOpenCheck)

/-! ### The context of a command (R230, R231) -/

/-- The open context n of Tt in a direction. -/
def State.ownCtx (s : State) (t : Fin 4) (n : Nat) (encode : Option Bool) : Option CodecCtx :=
  (kget s.codec n).bind (fun c =>
    if c.visible && c.owner == t && c.stream.isNone && (encode.isNone || encode == some c.encode) then some c else none)

/-- Whether a context has an uncompleted command. -/
def State.ctxBusy (s : State) (t : Fin 4) (n : Nat) (c : CodecCtx) : Bool :=
  c.job.isSome || s.anyRun t (fun r => r.effects.contains (.codecClose n))

/-- CODEC_CLOSE; it reports its operand word, which has no address in device memory, by its value (DEDUCED, log entry 70). -/
def codecCloseCheck : OpCheck := fun s t q r =>
  let n := cwn r.words 8
  match s.ownCtx t n none with
  | none => .fail Config.errCodecContext n 0
  | some c => if s.ctxBusy t n c then .pass else .admitted (s.stage t q [.codecClose n]) true

/-- CODEC_CLOSE's row. -/
def execCodecClose (t : Fin 4) (q : Fin 64) (s : State) : Host.Outcome State Fault Refusal :=
  .next (s.offerRow t q 0x33 codecCloseCheck)

/-- The pages of the buffers of a context. -/
def CodecCtx.pages (c : CodecCtx) : List Nat :=
  (c.buffers.flatMap (fun b => pagesOf b.address (bufferBytes c.pitch c.maxH))).eraseDups

/-- The pages that a codec, ingest or securing command may write are named as its output pages, and their home frames are
pinned. -/
def State.lazyClaimed (s : State) (t : Fin 4) (q : Fin 64) (pages : List Nat) : State :=
  let outs := pages.eraseDups.map (fun v => (v, false))
  (s.putOpSlice t q outs).pinReads t q (outs.map (·.1))

/-- Admits a codec command with the pages that it may write; its fresh pages are taken at the first write to each. -/
def State.claimLazy (s : State) (t : Fin 4) (q : Fin 64) (pages : List Nat) (next : State → OpAnswer) : OpAnswer :=
  let outs := pages.eraseDups.map (fun v => (v, false))
  match outs.findSome? (s.outError t) with
  | some e => .fail e.1 e.2 0
  | none =>
    if !s.outsFree t q 0 true (outs.map (·.1)) then .pass
    else next (s.lazyClaimed t q pages)

/-- Writes bytes of a running command, taking the fresh pages that it lacks: the command fails where its tenancy's quotas
can never supply them (R179, R203); none while one is not to be had. -/
def State.opWrite (s : State) (t : Fin 4) (q : Fin 64) (a : Nat) (bs : List Byte) : Option State :=
  let need := (pagesOf a bs.length).filter (fun v =>
    ((s.slice (opRef t q)).bind (fun sl => freshOf sl.fresh v)).isNone)
  if ((s.run t q).bind (·.fail)).isSome then some s
  else if !s.stackPossible t need.length then some (s.failAt t q (Config.errQuotaExceeded, s.shortIndex t 1))
  else if !s.stackNow t need.length then none
  else
    (s.takeFreshes (opRef t q) (s.auxStack t (need.map (fun v => (v, false)))) (need.map (fun v => (v, false)))).map (fun x =>
      (x.2.modSlice (opRef t q) (fun sl => { sl with fresh := sl.fresh ++ x.1 })).writeFresh t q a bs)

/-- In the sluice, room is made by eviction for the pages that the codec, ingest, securing and restoring commands have yet to
write (R182, R203). -/
def State.lazyRoom (s : State) : State :=
  s.each allTQ (fun s x =>
    match s.run x.1 x.2, s.slice (opRef x.1 x.2) with
    | some r, some sl =>
      let n := (sl.outs.filter (fun o => (freshOf sl.fresh o.1).isNone)).length
      if r.isOp && !r.opDone && sl.state == .admitted &&
          (cOp r.words / 16 == 3 || cOp r.words == 0x48 || cOp r.words == 0x49) && s.stackAllowed x.1 n then s.roomFor x.1 n
      else s
    | _, _ => s)

/-- Writes a list of ranges. -/
def State.opWrites (s : State) (t : Fin 4) (q : Fin 64) : List (Nat × List Byte) → Option State
  | [] => some s
  | x :: r => (s.opWrite t q x.1 x.2).bind (fun s => s.opWrites t q r)

/-! ### Decoding one frame (R234 to R237) -/

/-- What a decoder works on: the stream before the next frame and from it on, and the buffers. -/
structure DecIn where
  hevc : Bool
  history : List Byte
  rest : List Byte
  depth : Nat
  buffers : List Buffer
  maxW : Nat
  maxH : Nat
  pitch : Nat
  index : Nat
deriving DecidableEq, Repr

/-- What one frame leaves: the bytes it took, its status record, its flags (*Picture flags*), the buffer shown, the
buffers' marks, what is written, whether it was decoded, the blocks concealed, and whether its headers show it. -/
structure DecOut where
  bytes : Nat
  record : List Byte
  flags : Nat
  shown : Option Nat
  buffers : List Buffer
  writes : List (Nat × List Byte)
  decoded : Bool
  concealed : Nat
  wouldShow : Bool
deriving DecidableEq, Repr

/-- The buffers with the bytes of those that are not free. -/
def bufferBytesOf (s : State) (reach : Nat → Reach) (x : DecIn) : List (Nat × List Byte) :=
  x.buffers.map (fun b =>
    (b.mark.toNat, if b.mark = 0 then [] else s.readVia reach b.address (bufferBytes x.pitch x.maxH)))

/-- A field of the next frame. Fields: 0 the unit ends within the bytes; 1 bytes of the frame; 2 ORDER; 3 width;
4 height; 5 bit depth; 6 KEY, 7 GRAIN, 9 headers damaged, 10 uses a tool that R224 excludes; 12 shown; 13 shows an
existing slot, 14 which; 15 refresh_frame_flags; 16 (buffer) 1 short-term, 2 long-term; 17 blocks concealed; 18 signals
BT.2020; 19 signals full range or another matrix; 20 + plane (x, y) a sample; 23 begins a coded video sequence; 24
chroma: 0 monochrome, 1 4:2:0; 25 profile: seq_profile, or 1 Main, 2 Main 10; 26 ten times the level; 28 the concealment
reference, 29 (i) the references that it predicts from: 0 none, else 1 + the slot (AV1) or the buffer (HEVC); 30 + plane
(x, y) lies in a concealed block. -/
def State.decField (s : State) (reach : Nat → Reach) (x : DecIn) (field i j : Nat) : Nat :=
  Config.codecField x.hevc x.history x.rest (bufferBytesOf s reach x) field i j

/-- Whether a whole unit is at hand. -/
def State.unitReady (s : State) (reach : Nat → Reach) (x : DecIn) : Bool :=
  !x.rest.isEmpty && s.decField reach x 0 0 0 % 2 = 1

/-- The lowest-numbered free buffer. -/
def freeBuffer (l : List Buffer) : Option Nat := l.findIdx? (fun b => b.mark == 0)

/-- Whether the next frame uses something that *Decode support* excludes (R224): a tool, a profile, a bit depth, a chroma
format, a level, a picture size. -/
def State.unsupported (s : State) (reach : Nat → Reach) (x : DecIn) : Bool :=
  let f := fun k => s.decField reach x k 0 0
  f 10 % 2 = 1 || !(f 5 = 8 || f 5 = 10) || 8192 < f 3 || 8912896 < f 3 * f 4 ||
  (if x.hevc then 4320 < f 4 || f 24 ≠ 1 || !(f 25 = 1 || f 25 = 2) || 51 < f 26
   else 4352 < f 4 || !(f 24 = 0 || f 24 = 1) || f 25 ≠ 0 || 53 < f 26)

/-- The buffer that a reference of a frame names, as field 28 and 29 number it; none where it is absent. -/
def DecIn.reference (x : DecIn) (v : Nat) : Option Buffer :=
  if v = 0 then none
  else if x.hevc then (x.buffers[v - 1]?).filter (fun b => b.mark != 0)
  else x.buffers.find? (fun b => (bufSlots b).testBit (v - 1))

/-- Whether the next frame takes a buffer: its headers are sound, and it is supported and not oversize. -/
def State.takesBuffer (s : State) (reach : Nat → Reach) (x : DecIn) : Bool :=
  let f := fun k => s.decField reach x k 0 0 % 2 = 1
  !f 13 && !f 9 && !s.unsupported reach x && s.decField reach x 3 0 0 ≤ x.maxW && s.decField reach x 4 0 0 ≤ x.maxH

/-- Whether the next frame waits for software to release a buffer (stop code 2). -/
def State.poolWaits (s : State) (reach : Nat → Reach) (x : DecIn) : Bool :=
  s.takesBuffer reach x && (freeBuffer x.buffers).isNone && x.buffers.any bufOut

/-- The rows of a picture of w × h samples, as bytes at addresses (R232). -/
def planeWrites (depth pitch maxH base w h : Nat) (sample : Nat → Nat → Nat → Nat) : List (Nat × List Byte) :=
  let n := if depth = 8 then 1 else 2
  let plane := fun (p off step pw ph : Nat) => (List.range ph).map (fun y =>
    (base + off + y * step, (List.range pw).flatMap (fun xx => leBytes n (sample p xx y))))
  plane 0 0 pitch w h ++ plane 1 (pitch * maxH) (pitch / 2) ((w + 1) / 2) ((h + 1) / 2) ++
    plane 2 (pitch * maxH * 5 / 4) (pitch / 2) ((w + 1) / 2) ((h + 1) / 2)

/-- A sample of the picture in a buffer (R232). -/
def State.bufSample (s : State) (reach : Nat → Reach) (x : DecIn) (b : Buffer) (p xx yy : Nat) : Nat :=
  let n := if x.depth = 8 then 1 else 2
  let off := if p = 0 then 0 else if p = 1 then x.pitch * x.maxH else x.pitch * x.maxH * 5 / 4
  let step := if p = 0 then x.pitch else x.pitch / 2
  ofLe (s.readVia reach (b.address + off + yy * step + n * xx) n)

/-- A sample of the frame being decoded (R236): in a concealed block that of the co-located block of the concealment
reference, or mid-grey where that is absent or of another size; mid-grey in the chroma of a monochrome picture (R232). -/
def State.frameSample (s : State) (reach : Nat → Reach) (x : DecIn) (p xx yy : Nat) : Nat :=
  let f := s.decField reach x
  let depth := f 5 0 0
  let grey := 2 ^ (depth - 1)
  if f 17 0 0 % 2 ^ 32 ≠ 0 && f (30 + p) xx yy % 2 = 1 then
    match (x.reference (f 28 0 0)).filter (fun b => b.w == f 3 0 0 && b.h == f 4 0 0) with
    | some b => s.bufSample reach x b p xx yy
    | none => grey
  else if p ≠ 0 && f 24 0 0 = 0 then grey
  else f (20 + p) xx yy % 2 ^ depth

/-- The marks after a picture of w × h in buffer `k` (R233). -/
def newMarks (x : DecIn) (k refresh : Nat) (hevcOf : Nat → Nat) (shown : Bool) (w h : Nat) : List Buffer :=
  x.buffers.mapIdx (fun i b =>
    let b := if i = k then { b with w := w, h := h } else b
    let out := if i = k && shown then true else bufOut b
    let m := if x.hevc then
        (if i = k then 2 ^ 13 else if hevcOf i = 1 then 2 ^ 13 else if hevcOf i = 2 then 2 ^ 14 else 0)
      else if i = k then (BitVec.ofNat 8 (bufSlots b) ||| BitVec.ofNat 8 refresh).toNat
      else (BitVec.ofNat 8 (bufSlots b) &&& ~~~(BitVec.ofNat 8 refresh)).toNat
    { b with mark := BitVec.ofNat 16 (m + (if out then 2 ^ 15 else 0)) })

/-- One frame of a stream: what it writes, its marks and its record. -/
def State.decodeFrame (s : State) (reach : Nat → Reach) (x : DecIn) : DecOut :=
  let f := s.decField reach x
  let b := fun k => f k 0 0 % 2 = 1
  let w := f 3 0 0
  let h := f 4 0 0
  let deep := f 5 0 0 = 10
  let barred := s.unsupported reach x
  let oversize := !(w ≤ x.maxW && h ≤ x.maxH)
  let slot := if b 13 then x.buffers.findIdx? (fun y => (bufSlots y).testBit (f 14 0 0 % 8)) else none
  let headers := b 9 || (b 13 && slot.isNone)
  let short := s.takesBuffer reach x && (freeBuffer x.buffers).isNone
  let skipped := headers || barred || oversize || short
  let target := if skipped then none else if b 13 then slot else freeBuffer x.buffers
  let shown := !skipped && (b 12 || b 13)
  let concealed := if skipped || b 13 then 0 else f 17 0 0 % 2 ^ 32
  let missing := !skipped && !b 13 &&
    (List.range 16).any (fun i => f 29 i 0 ≠ 0 && (x.reference (f 29 i 0)).isNone)
  let flag := fun (i : Nat) (c : Bool) => if c then 2 ^ i else 0
  let flags := flag 0 shown + flag 1 (b 6) + flag 2 (concealed != 0) + flag 3 missing + flag 4 skipped + flag 5 barred +
    flag 6 oversize + flag 7 short + flag 8 (b 7) + flag 9 (!x.hevc && f 24 0 0 = 0)
  let bytes := min x.rest.length (max 1 (f 1 0 0))
  let record := leBytes 4 (f 2 0 0) ++ leBytes 4 x.index ++ leBytes 2 flags ++ leBytes 1 (if deep then 10 else 8) ++
    leBytes 1 ((target).getD 255) ++ leBytes 2 h ++ leBytes 2 w ++ leBytes 4 bytes ++ leBytes 4 concealed ++
    List.replicate 8 0
  let sample := fun (p xx yy : Nat) => s.frameSample reach x p xx yy % 2 ^ (if x.depth = 8 then 8 else 16)
  { bytes := bytes, record := record, flags := flags, shown := if shown then target else none,
    buffers := match target with
      | none => x.buffers
      | some k => newMarks x k (if b 13 && !b 6 then 0 else f 15 0 0 % 256) (fun i => f 16 i 0 % 3) shown
        (if b 13 then ((x.buffers[k]?).map (·.w)).getD 0 else w) (if b 13 then ((x.buffers[k]?).map (·.h)).getD 0 else h),
    writes := match target with
      | none => []
      | some k =>
        if b 13 then []
        else planeWrites x.depth x.pitch x.maxH (((x.buffers[k]?).map (·.address)).getD 0) w h sample
    decoded := !skipped && !b 13, concealed := concealed, wouldShow := b 12 || b 13 }

/-- Counts a frame that a decoder has processed. -/
def State.countFrame (s : State) (o : DecOut) : State :=
  let f := fun (i : Nat) => if o.flags.testBit i then 1 else 0
  let s := s.bump 0x9028 1 (if o.decoded then 1 else 0)
  let s := (s.bump 0x9028 2 (f 2)).bump 0x9028 3 o.concealed
  let s := (s.bump 0x9028 4 (f 4)).bump 0x9028 5 (if o.flags.testBit 5 || o.flags.testBit 6 then 1 else 0)
  s.bump 0x9028 6 (f 7)

/-! ### CODEC_DECODE -/

/-- The words of CODEC_DECODE. -/
def decodeWords (ps : List W64) : Option Nat :=
  let f := pf ps
  badWord
    [(0, f 0 52 6 = 0), (1, 1 ≤ f 1 32 32 && 1 ≤ f 1 16 16 && f 1 16 16 ≤ 4096 && 1 ≤ f 1 0 16),
     (3, f 3 52 12 = 0 && f 3 0 52 % 32 = 0), (4, f 4 52 12 = 0),
     (5, pw ps 5 == 0), (6, pw ps 6 == 0), (7, pw ps 7 == 0)]

/-- What the decoder of a context's job works on. -/
def CodecCtx.decIn (c : CodecCtx) (j : CodecJob) : DecIn :=
  { hevc := c.hevc, history := j.history, rest := ((j.input.head?).map (·.1)).getD [], depth := c.depth,
    buffers := j.buffers, maxW := c.maxW, maxH := c.maxH, pitch := c.pitch, index := j.decodeIndex }

/-- The first stop of *Decode stop codes* that holds. -/
def State.decodeStop (s : State) (c : CodecCtx) (j : CodecJob) : Option Nat :=
  let reach := s.reachSlice (opRef j.t j.q)
  let x := c.decIn j
  if !s.unitReady reach x then some 0
  else if j.frames = pf j.params 1 16 16 then some 1
  else if s.poolWaits reach x then some 2
  else if j.written = pf j.params 1 0 16 then some 3
  else none

/-- Ends a codec command: its marks array, its results; it commits at the next sluice. -/
def State.endDecode (s : State) (n : Nat) (j : CodecJob) (stop : Nat) : Option State :=
  let a := pf j.params 4 0 52
  let marks := j.buffers.flatMap (fun b => leBytes 2 b.mark.toNat)
  let marks := marks ++ List.replicate (128 - marks.length) 0
  (if a = 0 then some s else s.opWrite j.t j.q a marks).map (fun s =>
    let s := s.modCodec n (fun c => { c with job := some { j with stop := some stop } })
    (s.results j.t j.q (stop * 2 ^ 56 + j.frames) j.consumed).modRun j.t j.q (fun r => { r with opDone := true }))

/-- Keeps a job, or ends it when it stops now. -/
def State.putDecode (s : State) (n : Nat) (c : CodecCtx) (j : CodecJob) : Option State :=
  match s.decodeStop c j with
  | some k => s.endDecode n j k
  | none => some (s.modCodec n (fun c => { c with job := some j }))

/-- A job on a context. -/
def CodecCtx.newJob (c : CodecCtx) (t : Fin 4) (q : Fin 64) (ps : List W64) (input : List (List Byte × Nat)) : CodecJob :=
  { t := t, q := q, params := ps, consumed := 0, frames := 0, written := 0, attempt := 0, qp := 0, input := input,
    stop := none, buffers := c.buffers, sizes := c.sizes, decodeIndex := c.decodeIndex, frameN := c.frameN,
    keyBase := c.keyBase, history := c.history }

/-- CODEC_DECODE. -/
def codecDecodeCheck : OpCheck := fun s t q r =>
  s.withBlock t r Config.errCodecInvalid decodeWords (fun ps =>
    let f := pf ps
    let n := f 0 58 6
    match s.ownCtx t n (some false) with
    | none => .fail Config.errCodecContext (cwn r.words 8) 0
    | some c =>
      if s.ctxBusy t n c then .pass
      else
        match s.checkT t (f 0 0 52) (f 1 32 32) with
        | some (a, e) => .fail e a 0
        | none =>
          let marks := if f 4 0 52 = 0 then [] else pagesOf (f 4 0 52) 128
          s.claimLazy t q (c.pages ++ pagesOf (f 3 0 52) (32 * f 1 0 16) ++ marks) (fun s =>
            let s := s.pinReads t q (pagesOf (f 0 0 52) (f 1 32 32))
            let j := c.newJob t q ps [(s.readT t (f 0 0 52) (f 1 32 32), 0)]
            let released := j.buffers.mapIdx (fun i b =>
              if (pw ps 2).getLsbD i then { b with mark := b.mark &&& 0x7FFF } else b)
            let j := { j with buffers := released }
            match s.putDecode n c j with
            | none => .pass
            | some s' =>
              .admitted (s'.stage t q [.codecCommit n])
                (((kget s'.codec n).bind (·.job)).bind (·.stop)).isSome))

/-- CODEC_DECODE's row. -/
def execCodecDecode (t : Fin 4) (q : Fin 64) (s : State) : Host.Outcome State Fault Refusal :=
  .next (s.offerRow t q 0x31 codecDecodeCheck)

/-- A decode unit has finished a frame of a command's context; none while a fresh page is not to be had. -/
def State.decodeNext (s : State) (n : Nat) (c : CodecCtx) (j : CodecJob) : Option State :=
  let o := s.decodeFrame (s.reachSlice (opRef j.t j.q)) (c.decIn j)
  let rest := ((j.input.head?).map (·.1)).getD []
  let rec_ := (pf j.params 3 0 52 + 32 * j.written, o.record)
  (s.opWrites j.t j.q (o.writes ++ [rec_])).bind (fun s =>
    (s.countFrame o).putDecode n c { j with
      consumed := j.consumed + o.bytes
      frames := j.frames + (if o.decoded then 1 else 0)
      written := j.written + 1
      input := [(rest.drop o.bytes, 0)]
      buffers := o.buffers
      decodeIndex := j.decodeIndex + 1
      history := j.history ++ rest.take o.bytes })

/-! ### Colour (R238) -/

/-- The FP32 number nearest to n / 10^7. -/
def dec7 (n : Nat) : W32 := round32 (.fin false n 10000000 0)

/-- KR, KG, KB, SB, SR. -/
def colourConst (colour : Nat) : List W32 :=
  if colour = 0 then [dec7 2126000, dec7 7152000, dec7 722000, dec7 5389092, dec7 6350013]
  else [dec7 2627000, dec7 6780000, dec7 593000, dec7 5315191, dec7 6781500]

/-- Rounds a finite value to the nearest integer, ties to even. -/
def roundInt (v : FVal) : Int :=
  let fl := v.floor
  match (v.add (FVal.ofInt (-fl) 0)).cmp (.fin false 1 2 0) with
  | some .lt => fl
  | some .gt => fl + 1
  | _ => if fl % 2 = 0 then fl else fl + 1

/-- A value clamped to −1.0 to 2.0, NaN taken as +0.0. -/
def clampIn (v : W32) : W32 :=
  if isNan32 v then 0 else f32min (f32max v 0xBF800000) 0x40000000

/-- Limited-range codes: round_int(fma(k, v, c)) between two limits, divided by 4 at 8 bits. -/
def limited (depth : Nat) (k c : Int) (v : W32) (lo hi : Int) : Nat :=
  let x := min (max (roundInt (f32v (f32fma (intF32 k) v (intF32 c)))) lo) hi
  (if depth = 8 then roundInt ((FVal.ofInt x 0).divBy 4) else x).toNat

/-- yl, cb and cr of a pixel. -/
def toYcc (k : List W32) (r g b : W32) : W32 × W32 × W32 :=
  let kc := fun (i : Nat) => nth k i 0
  let yl := f32fma (kc 2) b (f32fma (kc 1) g (f32mul (kc 0) r))
  (yl, f32mul (f32sub b yl) (kc 3), f32mul (f32sub r yl) (kc 4))

/-- The samples of one input frame (Y, Cb, Cr, as 16-bit numbers) and its NaN count. -/
def State.inputFrame (s : State) (t : Fin 4) (c : CodecCtx) (d : BitVec 512) (ti : Nat) : List Byte × Nat :=
  let reach := s.reachCommitted t
  let raw := fun (ch y x : Nat) => round32 (s.elemVal reach d x y ti ch)
  let k := colourConst c.colour
  let ycc := fun (y x : Nat) => toYcc k (clampIn (raw 0 y x)) (clampIn (raw 1 y x)) (clampIn (raw 2 y x))
  let ys := (List.range c.maxH).flatMap (fun y => (List.range c.maxW).map (fun x =>
    limited c.depth 876 64 (ycc y x).1 64 940))
  let cs := fun (sel : W32 × W32 × W32 → W32) =>
    (List.range (c.maxH / 2)).flatMap (fun y => (List.range (c.maxW / 2)).map (fun x =>
      limited c.depth 896 512 (pyramidElem (fun yy xx => sel (ycc yy xx)) c.maxW c.maxH x y) 64 960))
  let nans := ((List.range 3).flatMap (fun ch => (List.range c.maxH).flatMap (fun y =>
    (List.range c.maxW).map (fun x => if isNan32 (raw ch y x) then 1 else 0)))).sum
  ((ys ++ cs (fun v => v.2.1) ++ cs (fun v => v.2.2)).flatMap (leBytes 2), nans)

/-! ### CODEC_ENCODE (R240, R241) -/

/-- The words of CODEC_ENCODE. -/
def encodeWords (ps : List W64) : Option Nat :=
  let f := pf ps
  badWord
    [(0, f 0 52 5 = 0), (1, 1 ≤ f 1 16 16 && f 1 16 16 ≤ 4096 && f 1 0 16 = 0), (2, f 2 52 12 = 0), (3, f 3 0 32 = 0),
     (4, f 4 52 12 = 0 && f 4 0 52 % 16 = 0), (5, pw ps 5 == 0), (6, pw ps 6 == 0), (7, pw ps 7 == 0)]

/-- Whether the next frame of a job is a key frame: by KEY_INTERVAL, or by FORCE_KEY, which restarts the count. -/
def CodecJob.key (j : CodecJob) (c : CodecCtx) : Bool :=
  (j.frameN - j.keyBase) % max 1 c.keyInterval = 0 || (j.frames = 0 && pf j.params 0 57 1 = 1)

/-- The entry of a frame's QUALITY in the table that the command read: BASE_Q, KEY_Q, STEP. -/
def quantOf (quant : List Nat) (quality : Nat) : Nat × Nat × Nat :=
  let e := nth quant quality 0
  (bits e 0 8, bits e 8 8, bits e 16 8)

/-- The bits that the next frame may take (R240). -/
def CodecJob.allowed (j : CodecJob) (c : CodecCtx) : Int :=
  let budget := c.maxKbps * 1000 * c.window * c.rateDen / max 1 c.rateNum
  (budget : Int) - ((j.sizes.drop (j.sizes.length - (c.window - 1))).sum : Nat)

/-- CODEC_ENCODE. -/
def codecEncodeCheck : OpCheck := fun s t q r =>
  s.withBlock t r Config.errCodecInvalid encodeWords (fun ps =>
    let f := pf ps
    let n := f 0 58 6
    match s.ownCtx t n (some true) with
    | none => .fail Config.errCodecContext (cwn r.words 8) 0
    | some c =>
      if s.ctxBusy t n c then .pass
      else
        let da := f 0 0 52
        match s.checkT t da 64 with
        | some (a, e) => .fail e a 0
        | none =>
          let d := BitVec.ofNat 512 (s.numT t da 64)
          if da % 64 ≠ 0 || !planarOk d || dSize d 3 ≠ 3 || 3 < dFmt d || dSize d 0 ≠ c.maxW || dSize d 1 ≠ c.maxH ||
              dSize d 2 < f 1 32 32 + f 1 16 16 then codecBad da
          else
            let src := tensorPages d
            match src.findSome? (fun v => s.checkT t (v * Config.pageBytes) 1) with
            | some (a, e) => .fail e a 0
            | none =>
              s.claimLazy t q (c.pages ++ pagesOf (f 2 0 52) (f 3 32 32) ++ pagesOf (f 4 0 52) (16 * f 1 16 16)) (fun s =>
                let s := s.pinReads t q src
                let j := c.newJob t q ps ((List.range (f 1 16 16)).map (fun i => s.inputFrame t c d (f 1 32 32 + i)))
                .admitted ((s.modCodec n (fun c => { c with job := some j })).stage t q [.codecCommit n]) false))

/-- CODEC_ENCODE's row. -/
def execCodecEncode (t : Fin 4) (q : Fin 64) (s : State) : Host.Outcome State Fault Refusal :=
  .next (s.offerRow t q 0x32 codecEncodeCheck)

/-- Ends an encode command. -/
def State.endEncode (s : State) (n : Nat) (j : CodecJob) (stop : Nat) : State :=
  let s := s.modCodec n (fun c => { c with job := some { j with stop := some stop } })
  (s.results j.t j.q (stop * 2 ^ 56 + j.frames) j.written).modRun j.t j.q (fun r => { r with opDone := true })

/-- What the encoder works on. -/
def CodecCtx.encIn (c : CodecCtx) (j : CodecJob) (unit : List Byte) : DecIn := { c.decIn j with rest := unit }

/-- The levels that an encoder signals, each as its seq_level_idx with its limits of picture size, width, height and
display rate (R225; PRESUMED from the AV1 specification, log entry 71): 4.0, 4.1, 5.0, 5.1, 6.0 and 6.1. -/
def encodeLevels : List (Nat × Nat × Nat × Nat × Nat) :=
  [(8, 2359296, 6144, 3456, 70778880), (9, 2359296, 6144, 3456, 141557760), (12, 8912896, 8192, 4352, 267386880),
   (13, 8912896, 8192, 4352, 534773760), (16, 35651584, 16384, 8704, 1069547520), (17, 35651584, 16384, 8704, 2139095040)]

/-- The smallest level whose limits hold for the declared size and rate, else the largest. -/
def CodecCtx.level (c : CodecCtx) : Nat :=
  ((encodeLevels.find? (fun l => c.maxW * c.maxH ≤ l.2.1 && c.maxW ≤ l.2.2.1 && c.maxH ≤ l.2.2.2.1 &&
    c.maxW * c.maxH * c.rateNum ≤ l.2.2.2.2 * c.rateDen)).map (·.1)).getD 17

/-- The tile columns and rows of an encoded frame (R225). -/
def CodecCtx.tiles (c : CodecCtx) : Nat × Nat := if c.maxW ≤ 4096 && c.maxH ≤ 2304 then (2, 2) else (4, 2)

/-- The temporal unit of one encoded frame (R225): a temporal delimiter, the sequence header before a key frame, which
signals the colour of COLOUR in limited range (R238), and the frame (PRESUMED bytes and code points, log entry 71). -/
def CodecCtx.temporalUnit (c : CodecCtx) (history : List Byte) (refs : List (Nat × List Byte)) (samples : List Byte)
    (qp : Nat) (key : Bool) : List Byte :=
  let colour := if c.colour = 0 then [1, 1, 1] else [9, 14, 9]
  [0x12, 0x00] ++
    (if key then Config.sequenceHeader ([0, 0, c.level, c.depth, c.maxW, c.maxH] ++ colour ++ [0]) else []) ++
    Config.encodeUnit [c.maxW, c.maxH, c.depth, c.rateNum, c.rateDen, c.colour, c.keyInterval, c.tiles.1, c.tiles.2]
      history refs samples qp key

/-- The marks after an encoded frame of w × h in buffer k: LAST, LAST2 and LAST3 are bits 0 to 2; a key frame takes all
three. -/
def encodeMarks (l : List Buffer) (k : Nat) (key : Bool) (w h : Nat) : List Buffer :=
  l.mapIdx (fun i b =>
    let b := if i = k then { b with w := w, h := h } else b
    { b with mark := BitVec.ofNat 16 (if i = k then (if key then 7 else 1) else if key then 0 else bufSlots b * 2 % 8) })

/-- An encode unit has finished an attempt (R240): the frame is accepted, encoded again, or stopped by OUT_LIMIT; none
while a fresh page is not to be had. -/
def State.encodeNext (s : State) (n : Nat) (c : CodecCtx) (j : CodecJob) : Option State :=
  let reach := s.reachSlice (opRef j.t j.q)
  let key := j.key c
  let e := quantOf (((s.run j.t j.q).map (·.quant)).getD []) c.quality
  let qp := if j.attempt = 0 then (if key then e.2.1 else e.1) else j.qp
  let x := c.encIn j []
  let frame := nth j.input j.frames ([], 0)
  let unit := c.temporalUnit j.history (bufferBytesOf s reach x) frame.1 qp key
  let size := 8 * unit.length
  let excess := c.maxKbps ≠ 0 && decide (j.allowed c < (size : Int))
  if excess && qp ≠ 255 && j.attempt ≠ 3 then
    some ((s.bump 0x9028 8 1).modCodec n (fun c => { c with job := some { j with
      attempt := j.attempt + 1
      qp := min 255 (qp + e.2.2 * 2 ^ j.attempt) } }))
  else if pf j.params 3 32 32 < j.written + unit.length then some (s.endEncode n j 4)
  else
    let rec_ := leBytes 4 j.written ++ leBytes 4 unit.length ++ leBytes 1 qp ++ leBytes 1 (j.attempt + 1) ++
      leBytes 1 ((if key then 1 else 0) + (if excess then 2 else 0)) ++ List.replicate 5 0
    let y := c.encIn j unit
    let k := (freeBuffer j.buffers).getD 0
    let recon := planeWrites c.depth c.pitch c.maxH (((j.buffers[k]?).map (·.address)).getD 0) c.maxW c.maxH
      (fun p xx yy => s.decField reach y (20 + p) xx yy % 2 ^ c.depth)
    (s.opWrites j.t j.q ([(pf j.params 2 0 52 + j.written, unit), (pf j.params 4 0 52 + 16 * j.frames, rec_)] ++ recon)).map
      (fun s =>
        let s := (s.bump 0x9028 7 1).bump 0x9028 9 (if excess then 1 else 0)
        let s := s.bump 0x9028 0xA frame.2
        let j' := { j with
          frames := j.frames + 1
          written := j.written + unit.length
          attempt := 0
          qp := 0
          sizes := j.sizes ++ [size]
          buffers := encodeMarks j.buffers k key c.maxW c.maxH
          keyBase := if key then j.frameN else j.keyBase
          frameN := j.frameN + 1
          history := j.history ++ unit }
        if j'.frames = pf j.params 1 16 16 then s.endEncode n j' 0
        else s.modCodec n (fun c => { c with job := some j' }))

/-- The codec state that a command's commit makes visible (R229). -/
def CodecCtx.commit (c : CodecCtx) : CodecCtx :=
  match c.job with
  | none => c
  | some j =>
    { c with buffers := j.buffers, sizes := j.sizes, decodeIndex := j.decodeIndex, frameN := j.frameN,
             keyBase := j.keyBase, history := j.history, job := none }

end Sys2Proof.Machine
end

