-- ==== Sys2Proof/Machine/Net.lean ====
section
/-! DEFINITION. Laniak ports (R318 to R328): flits, training, retry, credits; routes (R332, R333); and the messages
of discovery (R329) as bytes. -/
namespace Sys2Proof.Machine

open Sys2Proof

/-- MODULE_ID in effect (R330). -/
def State.moduleId (s : State) : Nat := s.odn 0x1000 1

/-- Changes port p. -/
def State.modL (s : State) (p : Fin 18) (f : LPort → LPort) : State :=
  { s with net := { s.net with ports := s.net.ports.set p (f s.net.ports[p]) } }

/-- Port p. -/
def State.lport (s : State) (p : Fin 18) : LPort := s.net.ports[p]

/-- All ports. -/
def allP : List (Fin 18) := List.finRange 18

/-- Whether port p is an outer port (R318). -/
def outerPort (p : Fin 18) : Bool := 14 ≤ p.val

/-- Whether LINK_ENABLE allows a port (R319). -/
def State.linkEnabled (s : State) (p : Fin 18) : Bool := (s.odn 0x5002 1).testBit p.val

/-- A port that carries traffic of any kind: trained. -/
def LPort.up (x : LPort) : Bool := x.state == .trained

/-- A confirmed port (R330): its neighbour is known since the port last trained. A retraining leaves it confirmed, and
changes neither a view nor a route (R321, R333). -/
def State.confirmed (s : State) (p : Fin 18) : Bool :=
  let x := s.lport p
  !x.held && !s.net.heldAll && x.peer.isSome

/-- Whether a port carries only HELLO (R330). -/
def State.heldPort (s : State) (p : Fin 18) : Bool := (s.lport p).held || s.net.heldAll

/-- LINK_WIDTH (R319). -/
def State.linkWidth (s : State) (p : Fin 18) : Nat :=
  let x := s.lport p
  if x.up && !x.held && !s.net.heldAll then popcount x.lanes.toNat 0 8 else 0

/-- Whether the module has a confirmed port. -/
def State.joined (s : State) : Bool := allP.any s.confirmed

/-! ### Neighbours and the pond view (R331) -/

/-- The module's own adjacency: distinct confirmed neighbours, with role and number of ports. -/
def State.adjacency (s : State) : List NeighbourEntry :=
  allP.foldl (fun l p =>
    match (s.lport p).peer with
    | some e =>
      if s.confirmed p then
        if l.any (fun x => x.moduleId == e.moduleId && x.outer == outerPort p) then
          l.map (fun x => if x.moduleId == e.moduleId && x.outer == outerPort p then
            { x with ports := x.ports + 1 } else x)
        else l ++ [{ moduleId := e.moduleId, outer := outerPort p, ports := 1 }]
      else l
    | none => l) []

/-- The pond neighbours on confirmed pond ports. -/
def State.pondPeers (s : State) : List Nat :=
  ((s.adjacency.filter (fun e => !e.outer)).map (·.moduleId)).eraseDups

/-- The pond view: the module, its pond neighbours, and the pond neighbours that those report; ascending. -/
def State.pondView (s : State) : List Nat :=
  let near := s.pondPeers
  let far := near.flatMap (fun m =>
    (((kget s.net.neighbours m).getD []).filter (fun e => !e.outer)).map (·.moduleId))
  sortBy (fun (a b : Nat) => decide (a < b)) ((s.moduleId :: near ++ far).eraseDups)

/-- Whether a view is valid: at most 8 members, closed under the reports of its members. -/
def State.viewValid (s : State) (v : List Nat) : Bool :=
  v.length ≤ 8 && v.all (fun m =>
    ((((kget s.net.neighbours m).getD []).filter (fun e => !e.outer)).map (·.moduleId)).all v.contains)

/-- Whether every pond neighbour has sent a VIEW equal to the module's own (DEDUCED, log entry 25). -/
def State.viewsAgree (s : State) : Bool :=
  let v := s.pondView
  s.viewValid v && s.pondPeers.all (fun m => kget s.net.views m == some v)

/-- Whether a port carries DATA: confirmed, and, on a pond port, the pond view is valid (R322, R330, R331). -/
def State.carriesData (s : State) (p : Fin 18) : Bool :=
  (s.lport p).up && s.confirmed p && (outerPort p || s.viewValid s.pondView)

/-! ### Flits (R324) -/

/-- The header of a flit. -/
structure FlitHead where
  type : Nat
  seq : Nat
  ack : Nat
  group : Nat
  hop : Bool
  first : Bool
  last : Bool
  crGroup : Nat
  crHop : Bool
  crCount : Nat
  crShared : Nat
deriving DecidableEq, Repr

/-- One as a bit. -/
def b2n (b : Bool) : Nat := if b then 1 else 0

/-- The 64 bits of a header. -/
def FlitHead.word (h : FlitHead) : Nat :=
  h.type % 16 * 2 ^ 60 + h.seq % 4096 * 2 ^ 48 + h.ack % 4096 * 2 ^ 36 + h.group % 256 * 2 ^ 28 +
    b2n h.hop * 2 ^ 27 + b2n h.first * 2 ^ 26 + b2n h.last * 2 ^ 25 + h.crGroup % 256 * 2 ^ 17 +
    b2n h.crHop * 2 ^ 16 + h.crCount % 64 * 2 ^ 10 + h.crShared % 1024

/-- The header that 64 bits spell. -/
def FlitHead.ofWord (w : Nat) : FlitHead :=
  { type := bits w 60 4, seq := bits w 48 12, ack := bits w 36 12, group := bits w 28 8, hop := bits w 27 1 = 1,
    first := bits w 26 1 = 1, last := bits w 25 1 = 1, crGroup := bits w 17 8, crHop := bits w 16 1 = 1,
    crCount := bits w 10 6, crShared := bits w 0 10 }

/-- A flit as bytes: header, payload, CRC. -/
def flitBytes (h : FlitHead) (payload : List Byte) : List Byte :=
  let b := leBytes 8 h.word ++ slice payload 0 240
  b ++ leBytes 8 (crc64 b).toNat

/-- The header and the payload of a flit whose CRC and header are good (R6, R324). -/
def parseFlit (bs : List Byte) : Option (FlitHead × List Byte) :=
  let h := FlitHead.ofWord (leAt bs 0 8)
  let data := h.type = 1 || (h.group = 0 && !h.hop && !h.first && !h.last)
  let numbered := h.type = 1 || h.type = 2 || h.seq = 0
  if bs.length = 256 && (crc64 (bs.take 248)).toNat = leAt bs 248 8 && h.type < 4 && data && numbered then
    some (h, slice bs 8 240)
  else none

/-- Key of the credits of a group and hop class. -/
def crKey (g : Nat) (hop : Bool) : Nat := 2 * g + b2n hop

/-- With a group added, the key of its shared credits: on the receiving side those to be returned, on the sending side
its shared flits at the other end. -/
def crShared : Nat := 512

/-- Key of the guaranteed credits that the other end holds. -/
def crMirror : Nat := 1024

/-- The number that a key holds. -/
def crGet (m : KMap Nat) (k : Nat) : Nat := (kget m k).getD 0

/-- The group and hop class whose credits go next: guaranteed ones first (R325). -/
def LPort.nextReturn (x : LPort) : Option (Nat × Bool) :=
  match x.rxUsed.find? (fun e => e.1 < crShared && e.2 ≠ 0) with
  | some (k, _) => some (k / 2, k % 2 = 1)
  | none => (x.rxUsed.find? (fun e => crShared ≤ e.1 && e.1 < crMirror && e.2 ≠ 0)).map (fun e => (e.1 - crShared, false))

/-- The credit fields of the next flit, and the port after they are taken: CR_GROUP names the group of both counts
(R324, R325). -/
def LPort.takeCredits (x : LPort) : (Nat × Bool × Nat × Nat) × LPort :=
  match x.nextReturn with
  | none => ((0, false, 0, 0), x)
  | some (g, hop) =>
    let k := crKey g hop
    let m := min 63 (crGet x.rxUsed k)
    let sh := min 1023 (crGet x.rxUsed (crShared + g))
    let u := kset (kset x.rxUsed k (crGet x.rxUsed k - m)) (crShared + g) (crGet x.rxUsed (crShared + g) - sh)
    ((g, hop, m, sh), { x with rxUsed := kset u (crMirror + k) (crGet u (crMirror + k) + m) })

/-- A flit that frees its buffer returns the credit that it came on: a guaranteed one while the other end held one,
else a shared one (R325). -/
def LPort.drained (x : LPort) (h : FlitHead) : LPort :=
  let k := crKey h.group h.hop
  let held := crGet x.rxUsed (crMirror + k)
  if held = 0 && !h.hop then
    { x with rxUsed := kset x.rxUsed (crShared + h.group) (crGet x.rxUsed (crShared + h.group) + 1) }
  else
    let u := kset x.rxUsed (crMirror + k) (held - 1)
    { x with rxUsed := kset u k (crGet u k + 1) }

/-- The ACK field: the SEQ of the last flit received in order. -/
def LPort.ack (x : LPort) : Nat := (x.rxSeq + 4095) % 4096

/-- Emits a flit of a port. -/
def State.emitFlit (s : State) (p : Fin 18) (bs : List Byte) : State := s.emit (.flit p.val bs)

/-- Sends an unnumbered flit: IDLE (type 0) or RETRY (type 3), whose payload names a SEQ (R326). -/
def State.sendPlain (s : State) (p : Fin 18) (type : Nat) (payload : List Byte) : State :=
  let r := (s.lport p).takeCredits
  (s.modL p (fun _ => r.2)).emitFlit p (flitBytes
    { type := type, seq := 0, ack := r.2.ack, group := 0, hop := false, first := false, last := false,
      crGroup := r.1.1, crHop := r.1.2.1, crCount := r.1.2.2.1, crShared := r.1.2.2.2 } payload)

/-- Sends a numbered flit and keeps it for retry. -/
def State.sendNumbered (s : State) (p : Fin 18) (h : FlitHead) (payload : List Byte) : State :=
  let r := (s.lport p).takeCredits
  let h := { h with seq := r.2.txSeq, ack := r.2.ack, crGroup := r.1.1, crHop := r.1.2.1, crCount := r.1.2.2.1,
                    crShared := r.1.2.2.2 }
  let bs := flitBytes h payload
  (s.modL p (fun _ =>
    { r.2 with txSeq := (r.2.txSeq + 1) % 4096,
               retryBuf := r.2.retryBuf ++ [{ seq := h.seq, bytes := bs, tick := s.tick.count }] })).emitFlit p bs

/-- Whether a DATA flit may go: the credit it takes (none: it waits). The port after taking it. A group holds at most 256
shared flits at the other end (R325, R328). -/
def LPort.dataCredit (x : LPort) (endCr : Nat) (h : FlitHead) : Option LPort :=
  let k := crKey h.group h.hop
  let n := crGet x.credits k
  let out := crGet x.credits (crShared + h.group)
  if h.hop && endCr = 0 then none
  else if 0 < n then some { x with credits := kset x.credits k (n - 1) }
  else if !h.hop && 0 < x.shared && out < 256 then
    some { x with shared := x.shared - 1, credits := kset x.credits (crShared + h.group) (out + 1) }
  else none

/-- The header of a waiting flit. -/
def Waiting.head (w : Waiting) : FlitHead := FlitHead.ofWord (leAt w.bytes 0 8)

/-- The channel of a waiting flit: its group and hop class, or the control channel (R325). Flits of one channel keep
their order. -/
def Waiting.channel (w : Waiting) : Nat := if w.head.type = 2 then crMirror else crKey w.head.group w.head.hop

/-- The state after a waiting flit has gone; none where it waits. On a held port a CONTROL flit other than HELLO is never
carried (R330). A forwarded flit needs no credit, since the destination's space is held, and it drains the forwarding
space of the port that it came in by (R328). -/
def State.sendWaiting (s : State) (p : Fin 18) (w : Waiting) : Option State :=
  let x := s.lport p
  let h := w.head
  let payload := w.bytes.drop 8
  if h.type = 2 && s.heldPort p && payload.head? != some 1 then some s
  else if !x.up || 1024 ≤ x.retryBuf.length then none
  else if h.type = 2 then some (s.sendNumbered p h payload)
  else if !s.carriesData p then none
  else
    match w.via with
    | some q => some ((s.sendNumbered p h payload).modL q (fun y => y.drained { h with hop := true }))
    | none =>
      let e := crGet s.net.endCredits h.group
      match x.dataCredit e h with
      | none => none
      | some y =>
        let s := s.modL p (fun _ => y)
        let s := if h.hop then { s with net := { s.net with endCredits := kset s.net.endCredits h.group (e - 1) } } else s
        some (s.sendNumbered p h payload)

/-- Serves the waiting flits of a port in order: the state, the flits that stay, and the channels that wait. -/
def State.serveFlits (p : Fin 18) : List Waiting → State → List Waiting → List Nat → State × List Waiting
  | [], s, kept, _ => (s, kept)
  | w :: rest, s, kept, full =>
    if full.contains w.channel then State.serveFlits p rest s (kept ++ [w]) full
    else
      match s.sendWaiting p w with
      | some s => State.serveFlits p rest s kept full
      | none => State.serveFlits p rest s (kept ++ [w]) (w.channel :: full)

/-- Sends what may go on a port (R325, R326, R328): no channel waits for the credits of another. -/
def State.flush (s : State) (p : Fin 18) : State :=
  let r := State.serveFlits p (s.lport p).queue s [] []
  r.1.modL p (fun x => { x with queue := r.2 })

/-- Puts a flit into a port's queue and sends what may go. A control flit goes before waiting data. -/
def State.enqueue (s : State) (p : Fin 18) (h : FlitHead) (payload : List Byte) (dest : Nat) (via : Option (Fin 18)) : State :=
  let w : Waiting := { bytes := leBytes 8 h.word ++ Machine.slice payload 0 240, dest := dest, via := via }
  let ctl := fun (y : Waiting) => y.head.type == 2
  let put := fun (l : List Waiting) =>
    if h.type = 2 then l.takeWhile ctl ++ [w] ++ l.dropWhile ctl else l ++ [w]
  (s.modL p (fun x => { x with queue := put x.queue })).flush p

/-- An empty header of a type. -/
def FlitHead.plain (type : Nat) : FlitHead :=
  { type := type, seq := 0, ack := 0, group := 0, hop := false, first := false, last := false, crGroup := 0,
    crHop := false, crCount := 0, crShared := 0 }

/-- Sends a CONTROL flit (R329); on a retraining port it waits (R333). A held port carries only HELLO (R330). -/
def State.sendControl (s : State) (p : Fin 18) (payload : List Byte) : State :=
  let x := s.lport p
  if (x.up || x.peer.isSome) && (!s.heldPort p || payload.head? == some 1) then
    s.enqueue p (FlitHead.plain 2) payload 0 none
  else s

/-- A kept flit as it is resent: every flit carries the latest ACK (R326). -/
def SentFlit.again (f : SentFlit) (ack : Nat) : List Byte :=
  flitBytes { FlitHead.ofWord (leAt f.bytes 0 8) with ack := ack } (Machine.slice f.bytes 8 240)

/-- Resends the flits kept for retry from a SEQ on; those before it have been received (R321, R326). -/
def State.resendFrom (s : State) (p : Fin 18) (seq : Nat) : State :=
  let x := s.lport p
  let keep := x.retryBuf.dropWhile (fun f => f.seq ≠ seq)
  -- every flit has been received when none bears the SEQ and the SEQ is the next to be sent
  let keep := if keep.isEmpty && seq ≠ x.txSeq then x.retryBuf else keep
  let s := s.modL p (fun x => { x with retryBuf := keep })
  keep.foldl (fun s f => s.emitFlit p (f.again x.ack)) s

/-- Takes an ACK: the flits up to it leave the retry buffer (R326). -/
def LPort.takeAck (x : LPort) (ack : Nat) : LPort :=
  if x.retryBuf.any (fun f => f.seq == ack) then
    { x with peerAck := ack, retryBuf := (x.retryBuf.dropWhile (fun f => f.seq ≠ ack)).drop 1 }
  else { x with peerAck := ack }

/-- Takes returned credits (R325): a group's guaranteed channel holds 16 flits of a hop class. -/
def LPort.addCredits (x : LPort) (h : FlitHead) : LPort :=
  let k := crKey h.crGroup h.crHop
  let x := if h.crCount = 0 then x else { x with credits := kset x.credits k (min 16 (crGet x.credits k + h.crCount)) }
  if h.crShared = 0 then x
  else { x with shared := min 1008 (x.shared + h.crShared)
                credits := kset x.credits (crShared + h.crGroup) (crGet x.credits (crShared + h.crGroup) - h.crShared) }

/-- What the header of a flit that is not discarded does: its ACK and its credits are taken (R325, R326). -/
def State.takeHead (s : State) (p : Fin 18) (h : FlitHead) : State :=
  (s.modL p (fun x => (x.takeAck h.ack).addCredits h)).flush p

/-- A flit is dropped: the receiver asks for the expected SEQ once (R326). -/
def State.askRetry (s : State) (p : Fin 18) : State :=
  let x := s.lport p
  if x.gap then s
  else (s.modL p (fun x => { x with gap := true, retries := x.retries + 1 })).sendPlain p 3 (leBytes 2 x.rxSeq)

/-- A numbered flit arrives: true when it is the expected one, which is then taken. -/
def State.takeSeq (s : State) (p : Fin 18) (h : FlitHead) : Bool × State :=
  if h.seq = (s.lport p).rxSeq then
    (true, s.modL p (fun x => { x with rxSeq := (x.rxSeq + 1) % 4096, gap := false }))
  else (false, s.askRetry p)

/-! ### Training (R320 to R323) -/

/-- The lane sets in order (R320). -/
def laneSets : List (BitVec 8) :=
  [0xFF, 0x0F, 0xF0, 0x03, 0x0C, 0x30, 0xC0, 0x01, 0x02, 0x04, 0x08, 0x10, 0x20, 0x40, 0x80]

/-- The lane set that a mask of passing lanes gives: the widest, the lowest-numbered among equals. -/
def pickLanes (passed : BitVec 8) : Option (BitVec 8) := laneSets.find? (fun m => m &&& passed == m)

/-- The messages that wait whole, from a queue in order: CONTROL flits, forwarded flits and the rest of a message whose
first flit has gone are no message that can be sent anew (R333). -/
def wholeMessages : List Waiting → List Nat → List Waiting
  | [], _ => []
  | w :: rest, open' =>
    let h := w.head
    if h.type ≠ 1 || w.via.isSome then wholeMessages rest open'
    else if h.first || open'.contains w.channel then w :: wholeMessages rest (w.channel :: open')
    else wholeMessages rest open'

/-- Takes a port down (R322): its retry buffer and its receive buffers are discarded, with the flits received on it that
wait to be forwarded; its neighbour is no longer confirmed. Messages that wait whole are held for a new route (R333). -/
def State.portDown (s : State) (p : Fin 18) : State :=
  let s := s.modL p (fun x =>
    { x with state := .down, lanes := 0, retryBuf := [], rxMsg := [], rxUsed := [], credits := [], shared := 0,
             peer := none, held := false, gap := false, goodTicks := 0, delayNs := none, queue := wholeMessages x.queue [] })
  s.each allP (fun s q => s.modL q (fun x => { x with queue := x.queue.filter (fun w => w.via != some p) }))

/-- Begins a retraining: the retry buffer and the sequence state are kept (R321). -/
def State.retrain (s : State) (p : Fin 18) : State :=
  if (s.lport p).up then s.modL p (fun x => { x with state := .training }) else s

/-! ### Discovery messages (R329) -/

/-- HELLO. -/
def State.helloBytes (s : State) (p : Fin 18) : List Byte :=
  [1, 0] ++ u16b s.moduleId ++ u64b s.fuses.serial.toNat ++ leBytes 1 p.val ++ leBytes 1 (b2n (outerPort p)) ++
    leBytes 1 1 ++ u64b s.tick.count ++ leBytes 1 s.tick.periodN

/-- NEIGHBOURS. -/
def State.neighbourBytes (s : State) : List Byte :=
  let a := s.adjacency
  [2, 0] ++ leBytes 1 a.length ++
    a.flatMap (fun e => u16b e.moduleId ++ leBytes 1 (b2n e.outer) ++ leBytes 1 e.ports)

/-- VIEW. -/
def viewBytes (seq : Nat) (members : List Nat) : List Byte :=
  [3, 0] ++ u32b seq ++ leBytes 1 members.length ++ members.flatMap u16b

/-- TICK. -/
def tickBytes (m : TickMsg) : List Byte :=
  [4, 0] ++ u64b m.boundary ++ u32b m.sendNs ++ leBytes 1 m.tickN ++ leBytes 1 m.nextN ++ u64b m.changeAt ++
    u64b m.jumpAt ++ u64b m.jumpTo ++ u64b m.anchorTick ++ u64b m.anchorS ++ u32b m.anchorNs ++
    leBytes 1 m.masterState ++ u16b m.masterId ++ leBytes 1 m.distance ++ u64b m.pondAt

/-- OFFER. -/
def offerBytes (masterId distance port : Nat) : List Byte :=
  [5, 0] ++ u16b masterId ++ leBytes 1 distance ++ leBytes 1 port

/-- DELAY_REQ and DELAY_RESP. -/
def delayReqBytes (t1 : Nat) : List Byte := [6, 0] ++ u64b t1
/-- DELAY_RESP. -/
def delayRespBytes (t1 t2 t3 : Nat) : List Byte := [7, 0] ++ u64b t1 ++ u64b t2 ++ u64b t3
/-- CREDIT. -/
def creditBytes (group count : Nat) : List Byte := [8, 0] ++ leBytes 1 group ++ u16b count
/-- COUNT_UP. -/
def countUpBytes (tick : Nat) : List Byte := [9, 0] ++ u64b tick

/-- Sends a control message on every port that a test selects. -/
def State.sendAll (s : State) (sel : Fin 18 → Bool) (payload : List Byte) : State :=
  s.each (allP.filter sel) (fun s p => s.sendControl p payload)

/-! ### Routes (R332, R333) -/

/-- The confirmed ports to a module, ascending. -/
def State.portsTo (s : State) (m : Nat) : List Nat :=
  (allP.filter (fun p => s.confirmed p && ((s.lport p).peer.map (fun e => e.moduleId == m)).getD false)).map (·.val)

/-- The route to a module by R332, from the confirmed ports and the neighbours' messages. -/
def State.routeTo (s : State) (d : Nat) : Option Route :=
  let direct := s.portsTo d
  if !direct.isEmpty then some { dest := d, ports := direct, relay := none }
  else
    let relays := ((s.adjacency.map (·.moduleId)).eraseDups).filter (fun r =>
      ((kget s.net.neighbours r).getD []).any (fun e => e.moduleId == d && e.ports ≠ 0))
    (sortBy (fun (a b : Nat) => decide (a < b)) relays).head?.map (fun r =>
      { dest := d, ports := s.portsTo r, relay := some r })

/-- Every module that the module hears of: its neighbours, and those that they report. -/
def State.knownModules (s : State) : List Nat :=
  let near := (s.adjacency.map (·.moduleId)).eraseDups
  (near ++ near.flatMap (fun m => ((kget s.net.neighbours m).getD []).map (·.moduleId))).eraseDups.filter (· != s.moduleId)

/-- Whether the module follows a parent (R28: synchronisation state 2). -/
def State.follows (s : State) : Bool := s.tick.sync == 2

/-- Whether the module is the system tick master as far as it hears: it follows none, and hears of no module with a lower
identifier (R334, R337). -/
def State.isSystemTickMaster (s : State) : Bool := !s.follows && s.knownModules.all (fun m => s.moduleId < m)

/-- The route table of the present ports. -/
def State.newRoutes (s : State) : List Route := s.knownModules.filterMap s.routeTo

/-- The route in force to a module. -/
def State.route (s : State) (d : Nat) : Option Route := s.net.routes.find? (fun r => r.dest == d)

/-- The port that group g uses on a route (R332). -/
def Route.port (r : Route) (g : Nat) : Option (Fin 18) :=
  (r.ports[g % max 1 r.ports.length]?).bind (fun n => if h : n < 18 then some ⟨n, h⟩ else none)

/-- The flits of a message: 240 bytes each (R324, R358). -/
def messageFlits (g : Nat) (hop : Bool) (bs : List Byte) : List (FlitHead × List Byte) :=
  let n := max 1 (ceilDiv bs.length 240)
  (List.range n).map (fun i =>
    ({ FlitHead.plain 1 with group := g, hop := hop, first := i == 0, last := i + 1 == n },
      slice bs (240 * i) (min 240 (bs.length - 240 * i))))

/-- Sends a message of group g to a module on the route in force; without a route nothing goes. -/
def State.sendMessage (s : State) (dest g : Nat) (bs : List Byte) : State :=
  match s.route dest with
  | none => s
  | some r =>
    match r.port g with
    | none => s
    | some p => s.each (messageFlits g r.relay.isSome bs) (fun s f => s.enqueue p f.1 f.2 dest none)

/-- Whether flits of group g still wait or are unacknowledged on the route to a module. -/
def State.unacked (s : State) (dest g : Nat) : Bool :=
  match (s.route dest).bind (·.port g) with
  | none => true
  | some p =>
    let x := s.lport p
    let mine := fun (h : FlitHead) => h.type = 1 && h.group = g
    x.queue.any (fun w => w.via.isNone && mine w.head) || x.retryBuf.any (fun f => mine (FlitHead.ofWord (leAt f.bytes 0 8)))

/-- Whether a waiting flit is one of a message that this module sends. -/
def Waiting.own (w : Waiting) : Bool := w.head.type == 1 && w.via.isNone

/-- Sends a flit that was held on port p by the new route to its destination; without one it stays held (R333). -/
def State.reroute (s : State) (p : Fin 18) (w : Waiting) : State :=
  match (s.route w.dest).bind (fun r => (r.port w.head.group).map (fun q => (r, q))) with
  | some (r, q) => s.enqueue q { w.head with hop := r.relay.isSome } (w.bytes.drop 8) w.dest none
  | none => s.modL p (fun x => { x with queue := x.queue ++ [w] })

/-- Step 9: the route table becomes that of the ports at the beginning of the sluice, and messages whose route lost its
port go on the new one (R333). -/
def State.swapRoutes (s : State) : State :=
  let s := { s with net := { s.net with routes := s.net.routeInput } }
  s.each (allP.filter (fun p => !s.confirmed p)) (fun s p =>
    let waiting := (s.lport p).queue.filter Waiting.own
    (s.modL p (fun x => { x with queue := x.queue.filter (fun w => !w.own) })).each waiting (fun s w => s.reroute p w))

end Sys2Proof.Machine
end

