-- ==== Sys2Proof/Machine/Coll.lean ====
section
/-! DEFINITION. Collectives: the group table (R339 to R341), pieces, rounds and ring steps (R344 to R348), messages
(R358), and what each message does (R347, R351, R353, R354). The bodies of the messages, which the spec does not lay
out, are the model's (DESIGN CHOICE, log entry 30). -/
namespace Sys2Proof.Machine

open Sys2Proof

/-! ### The group table -/

/-- A group table entry. -/
structure GroupEntry where
  epoch : Nat
  tenancy : Nat
  members : List Nat
deriving DecidableEq, Repr

/-- The live EPOCH of group g (R340). -/
def State.groupEpoch (s : State) (g : Nat) : Nat :=
  (kget s.od.groupEpoch g).getD (leAt (odBytes s.od (0x5100 + g) 1) 0 1)

/-- The live entry of group g; none where the group does not exist. -/
def State.group (s : State) (g : Nat) : Option GroupEntry :=
  let b := odBytes s.od (0x5100 + g) 1
  if b.isEmpty then none
  else some { epoch := s.groupEpoch g, tenancy := leAt b 1 1,
              members := (List.range (leAt b 2 2)).map (fun i => leAt b (4 + 2 * i) 2) }

/-- NEXT_SEQ of group g (R349). -/
def State.nextSeq (s : State) (g : Nat) : Nat := (kget s.od.groupNextSeq g).getD 0

/-- The collective of a group. -/
def State.collOf (s : State) (g : Nat) : Option Coll := kget s.coll.colls g

/-- Sets the collective of a group. -/
def State.setColl (s : State) (g : Nat) (c : Coll) : State := { s with coll := { colls := kset s.coll.colls g c } }

/-- Changes the collective of a group. -/
def State.modColl (s : State) (g : Nat) (f : Coll → Coll) : State := { s with coll := { colls := kmod s.coll.colls g f } }

/-! ### Members, pieces, rounds (R344) -/

/-- N. -/
def Coll.size (c : Coll) : Nat := c.members.length

/-- The identifier at a position. -/
def Coll.member (c : Coll) (p : Nat) : Nat := nth c.members (p % max 1 c.size) 0

/-- The ring successor's identifier. -/
def Coll.succ (c : Coll) : Nat := c.member (c.pos + 1)

/-- The ring predecessor's identifier. -/
def Coll.pred (c : Coll) : Nat := c.member (c.pos + c.size - 1)

/-- Whether the collective moves images between members (R369, R372). -/
def Coll.moves (c : Coll) : Bool := c.use == .transfer || c.use == .restore

/-- Whether each member's piece has a length of its own. -/
def Coll.gathers (c : Coll) : Bool := c.kind == 3 || c.moves

/-- Bytes of an element. -/
def Coll.elemBytes (c : Coll) : Nat :=
  if c.kind = 4 then 64 else if c.gathers then 1 else if c.fmt = 1 then 2 else 4

/-- G: elements in 256 bytes. -/
def Coll.unit (c : Coll) : Nat := 256 / c.elemBytes

/-- Elements of a reduction. -/
def Coll.total (c : Coll) : Nat := if c.kind = 4 then c.cells else c.count

/-- b_p. -/
def Coll.bound (c : Coll) (p : Nat) : Nat :=
  if p < c.size then c.unit * (ceilDiv c.total c.unit * p / c.size) else c.total

/-- COUNT of a position. -/
def Coll.countOf (c : Coll) (p : Nat) : Nat := if c.dynamic || c.moves then nth c.counts p 0 else c.count

/-- The byte offset of piece p in DST. -/
def Coll.pieceOff (c : Coll) (p : Nat) : Nat :=
  if c.gathers then ((List.range p).map c.countOf).sum else c.elemBytes * c.bound p

/-- The bytes of piece p. -/
def Coll.pieceLen (c : Coll) (p : Nat) : Nat :=
  if c.gathers then c.countOf p else c.elemBytes * (c.bound (p + 1) - c.bound p)

/-- R: the number of rounds. -/
def Coll.rounds (c : Coll) : Nat :=
  max 1 (ceilDiv ((List.range c.size).foldl (fun m p => max m (c.pieceLen p)) 0) (max 1 c.pieceMax))

/-- The range of piece p that round r carries: offset in the piece, bytes. -/
def Coll.chunk (c : Coll) (p r : Nat) : Nat × Nat :=
  let l := c.pieceLen p
  let lo := min l (r * c.pieceMax)
  (lo, min l ((r + 1) * c.pieceMax) - lo)

/-- Whether step 0 exchanges a vector: counts (R347, R369), or the members' values (R365, R372). -/
def Coll.exchanges (c : Coll) : Bool := c.use != .command || c.dynamic

/-- Steps of a round (R345). -/
def Coll.perRound (c : Coll) : Nat :=
  if c.moves then 1 else if c.kind = 1 || c.kind = 4 then 2 * (c.size - 1) else c.size - 1

/-- All steps. -/
def Coll.steps (c : Coll) : Nat :=
  if c.use == .vote || c.use == .verify then 1 else b2n c.exchanges + c.rounds * c.perRound

/-- What a ring step does on this member. -/
structure StepPlan where
  exchange : Bool
  round : Nat
  send : Nat
  recv : Nat
  fromSrc : Bool
  combine : Bool
  copyOwn : Bool
deriving DecidableEq, Repr

/-- Step j (R345, R347, R369). -/
def Coll.plan (c : Coll) (j : Nat) : StepPlan :=
  let n := c.size
  let i := j - b2n c.exchanges
  let r := i / max 1 c.perRound
  let k := i % max 1 c.perRound
  let p : StepPlan := { exchange := false, round := r, send := c.pos, recv := (c.pos + n - 1) % max 1 n,
                        fromSrc := true, combine := false, copyOwn := false }
  if c.exchanges && j = 0 then { p with exchange := true }
  else if c.moves then p
  else if c.kind ≠ 3 && k < n - 1 then
    { p with send := (c.pos + 2 * n - k - 1) % n, recv := (c.pos + 2 * n - k - 2) % n, fromSrc := k = 0, combine := true }
  else
    let k' := if c.kind = 3 then k else k - (n - 1)
    { p with send := (c.pos + n - k') % n, recv := (c.pos + 2 * n - k' - 1) % n, fromSrc := c.kind = 3 && k' = 0,
             copyOwn := c.kind = 3 && k' = 0 }

/-- Bytes that step j sends. -/
def Coll.sendLen (c : Coll) (j : Nat) : Nat :=
  let p := c.plan j
  if p.exchange then 0 else (c.chunk p.send p.round).2

/-- Bytes that step j expects. -/
def Coll.recvLen (c : Coll) (j : Nat) : Nat :=
  let p := c.plan j
  if p.exchange then 0 else (c.chunk p.recv p.round).2

/-- The declared cost of a ring step that sends b bytes (R352): 16 × ceil(b / 150 GB/s) core-ns. -/
def stepCost (b : Nat) : Nat := 16 * ceilDiv b 150

/-- The ranges of DST that step j writes (R352): address, bytes. -/
def Coll.writes (c : Coll) (j : Nat) : List (Nat × Nat) :=
  let p := c.plan j
  if p.exchange || c.use != .command || c.kind = 4 then []
  else
    let at' := fun (x : Nat) => (c.dst + c.pieceOff x + (c.chunk x p.round).1, (c.chunk x p.round).2)
    (at' p.recv :: (if p.copyOwn then [at' p.send] else [])).filter (fun x => x.2 ≠ 0)

/-- The pages of DST that step j writes. -/
def Coll.outPages (c : Coll) (j : Nat) : List Nat := ((c.writes j).flatMap (fun x => pagesOf x.1 x.2)).eraseDups

/-! ### Data of a step -/

/-- The image of a cell that no contribution reached. -/
def zeroImage : List Byte := (Cell.fresh 0 0 (.pan 0)).image

/-- The images that a step sees: the committed ones and those of the step that is being decided (R353). -/
def Coll.imageAt (c : Coll) (i : Nat) : List Byte :=
  let held := c.prev.bind (fun r => (r.out.find? (fun x => x.1 == i)).map (·.2))
  (held.orElse (fun _ => kget c.images i)).getD zeroImage

/-- The stream offset to image offset of a transfer: bytes 4,096 on go first, the header last (R369). -/
def imageBytesFrom (bs : List Byte) : List Byte := bs.drop 4096 ++ bs.take 4096

/-- The image that a stream spells. -/
def imageOfStream (bs : List Byte) : List Byte := bs.drop (bs.length - 4096) ++ bs.take (bs.length - 4096)

/-- The slice of a ring step in its command: its index continues the command's own slices. -/
def CmdRun.ringIndex (r : CmdRun) (j : Nat) : Nat := (r.slices.filter (fun x => !x.ringStep)).length + j

/-- Reads bytes for a ring step: what its slice sees (R35, R353). -/
def State.ringRead (s : State) (c : Coll) (j a n : Nat) : List Byte :=
  match s.run c.t c.q with
  | none => s.readT c.t a n
  | some r => s.readVia (s.reachSlice ⟨c.t, c.q, r.ringIndex j⟩) a n

/-- The bytes that step j sends. -/
def State.stepBytes (s : State) (c : Coll) (j : Nat) : List Byte :=
  let p := c.plan j
  let k := c.chunk p.send p.round
  if c.moves then
    -- the image that the member sends
    Machine.slice (imageBytesFrom ((kget c.localImages 0).getD [])) k.1 k.2
  else if c.kind = 4 then
    let first := (c.pieceOff p.send + k.1) / 64
    ((List.range (k.2 / 64)).flatMap (fun i =>
      if p.fromSrc then (kget c.localImages (first + i)).getD zeroImage else c.imageAt (first + i)))
  else if c.kind = 3 && p.fromSrc then s.ringRead c j (c.src + k.1) k.2
  else s.ringRead c j ((if p.fromSrc then c.src else c.dst) + c.pieceOff p.send + k.1) k.2

/-- combine of two elements of w bytes (R346). -/
def combineElem (fmt redop : Nat) (a b : Nat) : Nat :=
  let wide := fun (x : Nat) => if fmt = 1 then BitVec.ofNat 32 (x * 65536) else BitVec.ofNat 32 x
  let narrow := fun (x : W32) => if fmt = 1 then x.toNat / 65536 else x.toNat
  if redop = 0 then (panAdd fmt a b).1
  else if redop = 1 then narrow (f32max (wide a) (wide b))
  else narrow (f32min (wide a) (wide b))

/-- combine of n elements of w bytes. -/
def combineBytes (fmt redop w : Nat) : Nat → List Byte → List Byte → List Byte
  | 0, _, _ => []
  | n + 1, a, b =>
    leBytes w (combineElem fmt redop (ofLe (a.take w)) (ofLe (b.take w))) ++
      combineBytes fmt redop w n (a.drop w) (b.drop w)

/-- The merge of two images (R187, R348). -/
def mergeImages (a b : List Byte) : List Byte :=
  let z := Cell.fresh 0 0 (.pan 0)
  ((z.ofImage a).merge (z.ofImage b)).image

/-- What step j writes when the bytes xs have come in: DST ranges of a command, image indices of STATS. -/
def State.stepWrites (s : State) (c : Coll) (j : Nat) (xs : List Byte) : List (Nat × List Byte) :=
  let p := c.plan j
  let k := c.chunk p.recv p.round
  let off := c.pieceOff p.recv + k.1
  if c.kind = 4 then
    (List.range (k.2 / 64)).map (fun i =>
      let x := Machine.slice xs (64 * i) 64
      let n := off / 64 + i
      (n, if p.combine then mergeImages x ((kget c.localImages n).getD zeroImage) else x))
  else
    let own := if p.copyOwn then
        let o := c.chunk p.send p.round
        [(c.dst + c.pieceOff p.send + o.1, s.ringRead c j (c.src + o.1) o.2)]
      else []
    let new := if p.combine then
        let w := c.elemBytes
        combineBytes c.fmt c.redop w (k.2 / w) xs (s.ringRead c j (c.src + off) k.2)
      else xs
    own ++ [(c.dst + off, new)]

/-! ### Messages (R358) -/

/-- A message as bytes. -/
def messageBytes (kind : Nat) (m : CollMsg) : List Byte :=
  [BitVec.ofNat 8 kind, BitVec.ofNat 8 m.epoch] ++ u16b m.seq ++ u32b m.step ++ [BitVec.ofNat 8 m.attempt, 0] ++
    u16b m.origin ++ u32b m.piece ++ u64b m.body.length ++ m.body

/-- The message that bytes spell, with its KIND. -/
def parseMessage (bs : List Byte) : Nat × CollMsg :=
  (leAt bs 0 1, { epoch := leAt bs 1 1, seq := leAt bs 2 2, step := leAt bs 4 4, attempt := leAt bs 8 1,
                  origin := leAt bs 10 2, piece := leAt bs 12 4, body := slice bs 24 (min (leAt bs 16 8) (bs.length - 24)) })

/-- Sends a message to the ring successor. -/
def State.tell (s : State) (g : Nat) (c : Coll) (kind step attempt piece : Nat) (body : List Byte) : State :=
  s.sendMessage c.succ g (messageBytes kind
    { epoch := s.groupEpoch g, seq := c.seq, step := step, attempt := attempt, origin := c.pos, piece := piece, body := body })

/-- 0xFFFF: no position. -/
abbrev noPos : Nat := 0xFFFF

/-- The KIND of the descriptor: the command's, or 5 to 8 for a vote, a transfer, a restore, a verification. -/
def Coll.descKind (c : Coll) : Nat :=
  match c.use with
  | .command => c.kind
  | .vote => 5
  | .transfer => 6
  | .restore => 7
  | .verify => 8

/-- The descriptor of READY (R351). -/
def Coll.descriptor (c : Coll) : List Byte :=
  leBytes 1 c.descKind ++ leBytes 1 c.fmt ++ leBytes 1 c.redop ++ leBytes 1 (b2n c.dynamic) ++
    u64b (if c.dynamic || c.use != .command then 0 else c.count) ++ u32b c.cells

/-- Sends READY. -/
def State.sendReady (s : State) (g : Nat) (c : Coll) (mismatch : Nat) : State :=
  s.tell g c 3 0 0 0 (c.descriptor ++ u16b mismatch)

/-- Fails a collective on this member; the sluice applies it. -/
def Coll.failWith (c : Coll) (code : Nat) (address : Nat) : Coll :=
  { c with failed := c.failed.orElse (fun _ => some (code, BitVec.ofNat 64 address)) }

/-- The start at a boundary (R351). -/
def State.collStart (s : State) (g boundary mismatch : Nat) : State :=
  s.modColl g (fun c =>
    if mismatch = noPos then
      { c with startAt := some boundary, due := some boundary }
    else c.failWith Config.errCollSequence (c.member mismatch))

/-- START goes to the successor, unless that is the leader. -/
def State.sendStart (s : State) (g : Nat) (c : Coll) (boundary mismatch : Nat) : State :=
  if (c.pos + 1) % max 1 c.size = 0 then s else s.tell g c 4 0 0 0 (u64b boundary ++ u16b mismatch)

/-- A member that holds the slot acts on READY with its MISMATCH: the leader starts the collective, another member
passes READY on (R351). -/
def State.passReady (s : State) (g : Nat) (c : Coll) (mismatch : Nat) : State :=
  if c.pos = 0 then
    let k := s.tick.count + 2
    (s.sendStart g c k mismatch).collStart g k mismatch
  else (s.sendReady g c mismatch).modColl g (fun c => { c with readySent := true, readyIn := none })

/-- A message of another epoch, or one that does not match, is dropped and counted (R358). -/
def State.dropMessage (s : State) (g : Nat) : State := s.modColl g (fun c => { c with dropped := c.dropped + 1 })

/-- Handles a message of the group's epoch. -/
def State.withMessage (s : State) (g : Nat) (m : CollMsg) (f : Coll → State) : State :=
  match s.collOf g with
  | none => s
  | some c => if m.epoch = s.groupEpoch g then f c else s.dropMessage g

/-- READY (R351). -/
def State.recvReady (s : State) (g : Nat) (m : CollMsg) : State :=
  s.withMessage g m (fun c =>
    if c.startAt.isSome || c.ended then s.dropMessage g
    else
      let inMis := leAt m.body 16 2
      let same := m.seq = c.seq && m.body.take 16 == c.descriptor
      let mis := if inMis ≠ noPos then inMis else if same then noPos else c.pos
      if c.slot then s.passReady g c mis
      else s.modColl g (fun c => { c with readyIn := some (if mis = noPos then none else some mis) }))

/-- START (R351). -/
def State.recvStart (s : State) (g : Nat) (m : CollMsg) : State :=
  s.withMessage g m (fun c =>
    if m.seq ≠ c.seq || c.startAt.isSome || c.ended || c.pos = 0 then s.dropMessage g
    else
      let b := leAt m.body 0 8
      let mis := leAt m.body 8 2
      (s.sendStart g c b mis).collStart g b mis)

/-- Changes the running step. -/
def Coll.modCur (c : Coll) (f : RingRun → RingRun) : Coll := { c with cur := c.cur.map f }

/-- Changes the step that is being decided. -/
def Coll.modPrev (c : Coll) (f : RingRun → RingRun) : Coll := { c with prev := c.prev.map f }

/-- Whether a message is for a step. -/
def RingRun.isFor (r : RingRun) (m : CollMsg) : Bool := r.step == m.step && r.attempt == m.attempt

/-- The loads of a ring step's strands complete (R66) with the bytes of the piece. -/
def State.pieceReady (s : State) (g step : Nat) (body : List Byte) : State :=
  { s with cores := { s.cores with
      ctxs := s.cores.ctxs.map (fun x =>
        (x.1, { x.2 with async := x.2.async.map (fun a =>
          if a.piece = some (g, step) then { a with ready := true, bytes := if x.2.rom then a.bytes else body }
          else a) })) } }

/-- PIECE (R345, R347): the running step takes the bytes; a length that differs fails the collective, with the identifier
at the message's ORIGIN. -/
def State.recvPiece (s : State) (g : Nat) (m : CollMsg) : State :=
  s.withMessage g m (fun c =>
    match c.cur with
    | some r =>
      let p := c.plan r.step
      if m.seq ≠ c.seq || !r.isFor m || p.exchange || m.piece ≠ p.recv || m.origin ≠ (c.pos + c.size - 1) % max 1 c.size then
        s.dropMessage g
      else if m.body.length ≠ c.recvLen r.step then
        s.modColl g (fun c => { c with fail := c.fail.orElse (fun _ => some (Config.errGroupInvalid, c.member m.origin)) })
      else (s.modColl g (fun c => c.modCur (fun r => { r with arrived := some m.body }))).pieceReady g r.step m.body
    | none => s.dropMessage g)

/-- Bytes of an entry of the exchanged vector. -/
def Coll.entryLen (c : Coll) : Nat :=
  match c.use with
  | .command => 4
  | .vote => 9
  | .transfer => 8
  | .restore => 8
  | .verify => 32

/-- The entries of a vector. -/
def splitBytes (n : Nat) : Nat → List Byte → List (List Byte)
  | 0, _ => []
  | k + 1, bs => bs.take n :: splitBytes n k (bs.drop n)

/-- What a complete vector of counts means (R347, R369): the counts, and the failure that they show. -/
def Coll.takeVector (c : Coll) (v : List (List Byte)) : Coll :=
  match c.use with
  | .vote => { c with gathered := v }
  | .verify => { c with gathered := v }
  | .transfer => { c with counts := v.map ofLe }
  | .restore => { c with counts := v.map ofLe }
  | .command =>
    let ns := v.map ofLe
    let c := { c with counts := ns }
    if c.kind = 3 then
      if ns.sum > c.dstLimit then { c with fail := c.fail.orElse (fun _ => some (Config.errGroupInvalid, c.member c.pos)) }
      else c
    else
      match (List.range ns.length).find? (fun i => nth ns i 0 != nth ns 0 0) with
      | some i => { c with fail := c.fail.orElse (fun _ => some (Config.errGroupInvalid, c.member i)) }
      | none => c

/-- COUNTS (R347): the vector is added to and passed on; complete, it goes round once more. -/
def State.recvCounts (s : State) (g : Nat) (m : CollMsg) : State :=
  s.withMessage g m (fun c =>
    match c.cur with
    | some r =>
      if m.seq ≠ c.seq || !r.isFor m || !(c.plan r.step).exchange then s.dropMessage g
      else
        let e := c.entryLen
        let k := m.body.length / e
        let v := splitBytes e k m.body
        if k = c.size then
          let s1 := (s.modColl g (fun c =>
            (if r.vector.isEmpty then c.takeVector v else c).modCur (fun r =>
              { r with vector := v, laps := r.laps + 1, sent := true, arrived := some [] }))).pieceReady g r.step []
          -- the leader sends the complete vector once more; it stops when it comes back
          if c.pos = 0 && r.laps ≠ 0 then s1 else s1.tell g c 2 r.step r.attempt 0 m.body
        else if k = c.pos then s.tell g c 2 r.step r.attempt 0 (m.body ++ c.entry)
        else s.dropMessage g
    | none => s.dropMessage g)

/-! ### Verdicts and decisions (R353, R354) -/

/-- The wave after this member: the lowest unfinished position, and the FAIL. -/
def Coll.merge (c : Coll) (r : RingRun) (w : Nat × Nat × Nat) : Nat × Nat × Nat :=
  let first := if r.finished = some true then w.1 else min w.1 c.pos
  if w.2.1 ≠ 0 then (first, w.2)
  else
    match c.fail with
    | some f => (first, f)
    | none => (first, w.2)

/-- The body of VERDICT. -/
def waveBytes (w : Nat × Nat × Nat) : List Byte := u16b w.1 ++ u16b w.2.1 ++ u16b w.2.2

/-- Sends the wave of a step. -/
def State.sendWave (s : State) (g : Nat) (c : Coll) (r : RingRun) (w : Nat × Nat × Nat) : State :=
  s.tell g c 5 r.step r.attempt 0 (waveBytes w)

/-- A decision as bytes: 0 COMMIT, 1 ABORT, 2 FAIL; FIRST_UNFINISHED; code; member. -/
def decisionBytes (d : Nat × Nat × Nat × Nat) : List Byte :=
  leBytes 1 d.1 ++ u16b d.2.1 ++ u16b d.2.2.1 ++ u16b d.2.2.2

/-- The leader's decision on a returned wave (R354). -/
def decideWave (w : Nat × Nat × Nat) : Nat × Nat × Nat × Nat :=
  (if w.2.1 ≠ 0 then 2 else if w.1 ≠ noPos then 1 else 0, w)

/-- The slice of a ring step of a command's collective. -/
def State.ringRef (s : State) (c : Coll) (j : Nat) : SliceRef :=
  ⟨c.t, c.q, ((s.run c.t c.q).map (fun r => r.ringIndex j)).getD j⟩

/-- Whether a collective's ring steps are slices of a command that still runs. -/
def Coll.slices (c : Coll) : Bool := c.use == .command && !c.ended

/-- An ABORT that comes in mid-tick kills the later step that runs (R42, R353). -/
def State.abortRunning (s : State) (g decision : Nat) : State :=
  match (s.collOf g).bind (fun c => c.cur.map (fun r => (c, s.ringRef c r.step))) with
  | some (c, ref) =>
    if decision = 1 && c.slices && ((s.slice ref).map (fun sl => (sl.state == .admitted || sl.state == .finished) && !sl.killed)).getD false then s.kill ref
    else s
  | none => s

/-- Records a decision for the step that is being decided and passes it on, unless the successor is the leader. -/
def State.takeDecision (s : State) (g : Nat) (c : Coll) (r : RingRun) (d : Nat × Nat × Nat × Nat) : State :=
  let s := if (c.pos + 1) % max 1 c.size = 0 then s else s.tell g c 6 r.step r.attempt 0 (decisionBytes d)
  s.modColl g (fun c => c.modPrev (fun r => { r with decision := some d }))

/-- Records a decision for the running step and passes it on. -/
def State.keepDecision (s : State) (g : Nat) (c : Coll) (r : RingRun) (d : Nat × Nat × Nat × Nat) : State :=
  let s := if (c.pos + 1) % max 1 c.size = 0 then s else s.tell g c 6 r.step r.attempt 0 (decisionBytes d)
  s.modColl g (fun c => c.modCur (fun r => { r with decision := some d }))

/-- The wave of a step has come to this member and its own verdict stands: the leader decides, another member
passes it on. -/
def State.wave (s : State) (g : Nat) (c : Coll) (r : RingRun) (w : Nat × Nat × Nat) : State :=
  if c.pos = 0 then (s.takeDecision g c r (decideWave w)).abortRunning g (decideWave w).1
  else (s.sendWave g c r (c.merge r w)).modColl g (fun c => c.modPrev (fun r => { r with waveIn := some w, waveOut := true }))

/-- VERDICT (R354). -/
def State.recvVerdict (s : State) (g : Nat) (m : CollMsg) : State :=
  s.withMessage g m (fun c =>
    let w := (leAt m.body 0 2, leAt m.body 2 2, leAt m.body 4 2)
    match c.prev, c.cur with
    | some r, x =>
      if m.seq = c.seq && r.isFor m && r.decision.isNone && !(r.waveOut && c.pos ≠ 0) then s.wave g c r w
      else
        match x with
        | some y =>
          if m.seq = c.seq && y.isFor m then s.modColl g (fun c => c.modCur (fun y => { y with waveIn := some w }))
          else s.dropMessage g
        | none => s.dropMessage g
    | none, some y =>
      if m.seq = c.seq && y.isFor m then s.modColl g (fun c => c.modCur (fun y => { y with waveIn := some w }))
      else s.dropMessage g
    | none, none => s.dropMessage g)

/-- DECIDE (R353): the decision travels the ring; the sluice applies it. A member that holds a step in doubt keeps the
decision about its running step for the time when that one is judged (R356). -/
def State.recvDecide (s : State) (g : Nat) (m : CollMsg) : State :=
  s.withMessage g m (fun c =>
    let d := (leAt m.body 0 1, leAt m.body 1 2, leAt m.body 3 2, leAt m.body 5 2)
    let good := fun (x : Option RingRun) =>
      (x.map (fun r => r.isFor m && r.decision.isNone)).getD false && m.seq == c.seq && c.pos != 0
    match c.prev, c.cur with
    | some r, y =>
      if good c.prev then (s.takeDecision g c r d).abortRunning g d.1
      else
        match y with
        | some y => if good c.cur then s.keepDecision g c y d else s.dropMessage g
        | none => s.dropMessage g
    | none, some y => if good c.cur then s.keepDecision g c y d else s.dropMessage g
    | none, none => s.dropMessage g)

/-- The leader's wave has not returned by its latch of boundary a + 2: it decides ABORT and names no position
(R354). -/
def State.waveTimeout (s : State) (g : Nat) : State :=
  match s.collOf g with
  | some c =>
    match c.prev with
    | some r =>
      if c.pos = 0 && r.decision.isNone && r.boundary + 1 ≤ s.tick.count then s.takeDecision g c r (1, noPos, 0, 0) else s
    | none => s
  | none => s

/-- The ring neighbour that this member has no route to: the predecessor, else the successor, else the
predecessor. -/
def State.lostNeighbour (s : State) (c : Coll) : Nat :=
  if (s.route c.pred).isNone then c.pred else if (s.route c.succ).isNone then c.succ else c.pred

/-- A step has been in doubt for 4 ticks: the collective fails (R356). -/
def State.doubtExpired (s : State) (g : Nat) : State :=
  match s.collOf g with
  | some c =>
    match c.prev with
    | some r =>
      if r.decision.isNone && 4 ≤ r.doubt then
        s.modColl g (fun c => c.failWith Config.errLinkDown (s.lostNeighbour c))
      else s
    | none => s
  | none => s

/-- A collective that has been eligible for COLL_WAIT_TICKS without admitting step 0 fails (R351). -/
def State.collWaitExpired (s : State) (t : Fin 4) (q : Fin 64) : State :=
  s.each s.coll.colls (fun s x =>
    let c := x.2
    let late := match c.eligible with
      | some k => k + s.odn 0x5000 2 ≤ s.tick.count
      | none => false
    if c.t = t && c.q = q && !c.started && late && !c.ended then
      s.modColl x.1 (fun c => c.failWith Config.errCollStalled x.1)
    else s)

/-- Delivers a message to its handler. -/
def State.deliver (s : State) (g : Nat) (bs : List Byte) : State :=
  let m := parseMessage bs
  match m.1 with
  | 1 => s.recvPiece g m.2
  | 2 => s.recvCounts g m.2
  | 3 => s.recvReady g m.2
  | 4 => s.recvStart g m.2
  | 5 => s.recvVerdict g m.2
  | 6 => s.recvDecide g m.2
  | _ => s.dropMessage g

/-! ### The strands of a ring step -/

/-- Sends the chunk of the running step (R345). -/
def State.sendChunk (s : State) (g : Nat) : State :=
  match s.collOf g with
  | some c =>
    match c.cur with
    | some r =>
      let p := c.plan r.step
      if p.exchange then
        (if c.pos = 0 then s.tell g c 2 r.step r.attempt 0 c.entry else s).modColl g (fun c =>
          c.modCur (fun r => { r with sent := true }))
      else (s.tell g c 1 r.step r.attempt p.send (s.stepBytes c r.step)).modColl g (fun c =>
        c.modCur (fun r => { r with sent := true }))
    | none => s
  | none => s

/-- The group of the collective that a ring slice belongs to. -/
def State.ringGroup (s : State) (ref : SliceRef) : Option (Nat × Coll × RingRun) :=
  s.coll.colls.findSome? (fun x =>
    match x.2.cur, s.run ref.t ref.q with
    | some r, some run =>
      if x.2.use = .command && x.2.t = ref.t && x.2.q = ref.q && run.ringIndex r.step = ref.idx then some (x.1, x.2, r)
      else none
    | _, _ => none)

/-- Whether the piece of the running step has been received. -/
def RingRun.gotPiece (r : RingRun) (c : Coll) : Bool :=
  r.arrived.isSome || (!(c.plan r.step).exchange && c.recvLen r.step = 0)

/-- A strand of a ring step's ROM program sends its part; with the last strand's part the chunk has left (R345). -/
def State.sendPart (s : State) (c : CtxId) (st : Strand) : State :=
  if !st.stopped && st.marks = 0 then
    match s.ringGroup st.ref, s.slice st.ref with
    | some (g, _, r), some sl =>
      let s := s.setStrand c { st with marks := 1 }
      let s := s.modColl g (fun c => c.modCur (fun r => { r with sends := r.sends + 1 }))
      if r.sends + 1 = sl.strandCount then s.sendChunk g else s
    | _, _ => s
  else s

/-- The LSEND of a program word: IMM [15:0] × 256 bytes from s[SA] as piece s[SB] to the ring successor. IMM [21:16] names
the slice's one group slot (DEDUCED, log entry 31). -/
def lsendWord (c : CtxId) (st : Strand) (sl : Slice) (w : W64) (s : State) : State :=
  let off := (st.s[fTSA w]).toNat
  let n := 256 * wbits w 0 16
  withRange c st sl off n 1 (fun s =>
    match s.ringGroup st.ref with
    | some (g, k, r) =>
      (s.tell g k 1 r.step r.attempt (st.s[fTSB w]).toNat (winRead s.free st.win off n)).setStrand c st.next
    | none => s.setStrand c st.next) s

/-- LSEND: of a strand whose program lies in ROM, its part of the step; of any other, its word. -/
def execLsend (c : CtxId) (s : State) : Host.Outcome State Fault Refusal :=
  .next (match s.strand c with
    | none => s
    | some st => if st.rom then s.sendPart c st else issueOp c 0x70 (lsendWord c) s)

/-- Whether a strand of a ring step has done its program: it has sent, and what it receives has come in. The
program lies in ROM and the spec does not list it (DEDUCED, log entry 31). -/
def Strand.ringDone (st : Strand) : Bool := st.marks = 1 && st.ordinal = 1 && st.async.isEmpty

/-- A strand of a ring step's ROM program begins to receive the piece, asynchronously (R66, R345). -/
def State.recvPart (s : State) (c : CtxId) (st : Strand) : State :=
  if !st.stopped && st.ordinal = 0 then
    match s.ringGroup st.ref with
    | some (g, k, r) =>
      s.setStrand c { st with
        ordinal := 1
        async := [{ tag := 1, dest := 0, bytes := [], ready := r.gotPiece k, link := none, piece := some (g, r.step) }] }
    | none => s
  else s

/-- The LRECV of a program word: piece s[SB] from the ring predecessor into s[SA] with tag TC; the window must hold what
the running step receives. A piece that the step does not receive never comes (DEDUCED, log entry 31). -/
def lrecvWord (c : CtxId) (st : Strand) (sl : Slice) (w : W64) (s : State) : State :=
  let off := (st.s[fTSA w]).toNat
  match s.ringGroup st.ref with
  | some (g, k, r) =>
    withRange c st sl off (k.recvLen r.step) 1 (fun s =>
      let mine := (st.s[fTSB w]).toNat == (k.plan r.step).recv
      let a : AsyncLoad := { tag := (fTC w).val, dest := off, bytes := r.arrived.getD [], ready := mine && r.gotPiece k,
                             link := none, piece := if mine then some (g, r.step) else none }
      s.setStrand c { st.next with async := st.async ++ [a] }) s
  | none => s.setStrand c st.next

/-- LRECV: of a strand whose program lies in ROM, its part of the step; of any other, its word. -/
def execLrecv (c : CtxId) (s : State) : Host.Outcome State Fault Refusal :=
  .next (match s.strand c with
    | none => s
    | some st => if st.rom then s.recvPart c st else issueOp c 0x71 (lrecvWord c) s)

/-- Writes what the running step of a command's collective computes into the slice's fresh pages, once its last
strand retires. -/
def State.finishStep (s : State) (ref : SliceRef) : State :=
  match s.ringGroup ref, s.slice ref with
  | some (g, c, r), some sl =>
    if (c.plan r.step).exchange then s
    else
      let ws := s.stepWrites c r.step (r.arrived.getD [])
      if c.kind = 4 then s.modColl g (fun c => c.modCur (fun r => { r with out := ws }))
      else s.each ws (fun s w => s.writeVia (freshOf sl.fresh) w.1 w.2)
  | _, _ => s

/-! ### The message rows -/

/-- READY. -/
def execReady (g : Fin 256) (m : CollMsg) (s : State) : Host.Outcome State Fault Refusal := .next (s.recvReady g.val m)

/-- START. -/
def execStart (g : Fin 256) (m : CollMsg) (s : State) : Host.Outcome State Fault Refusal := .next (s.recvStart g.val m)

/-- PIECE. -/
def execPiece (g : Fin 256) (m : CollMsg) (s : State) : Host.Outcome State Fault Refusal := .next (s.recvPiece g.val m)

/-- COUNTS. -/
def execCounts (g : Fin 256) (m : CollMsg) (s : State) : Host.Outcome State Fault Refusal :=
  .next (s.recvCounts g.val m)

/-- VERDICT. -/
def execVerdict (g : Fin 256) (m : CollMsg) (s : State) : Host.Outcome State Fault Refusal :=
  .next (s.recvVerdict g.val m)

/-- DECIDE. -/
def execDecide (g : Fin 256) (m : CollMsg) (s : State) : Host.Outcome State Fault Refusal :=
  .next (s.recvDecide g.val m)

/-- VERDICT_WAVE_TIMEOUT. -/
def execVerdictWaveTimeout (g : Fin 256) (s : State) : Host.Outcome State Fault Refusal := .next (s.waveTimeout g.val)

/-- COLL_WAIT_EXPIRY. -/
def execCollWaitExpiry (t : Fin 4) (q : Fin 64) (s : State) : Host.Outcome State Fault Refusal :=
  .next (s.collWaitExpired t q)

/-- IN_DOUBT_EXPIRY. -/
def execInDoubtExpiry (g : Fin 256) (s : State) : Host.Outcome State Fault Refusal := .next (s.doubtExpired g.val)

end Sys2Proof.Machine
end

