-- ==== Sys2Proof/Machine/Release.lean ====
section
/-! DEFINITION. What a slice or a command gives back: fresh pages, KV frames, save areas, prepared and staged copies
(R36 step 2, R45, R76, R145). -/
namespace Sys2Proof.Machine

open Sys2Proof

/-- Returns the frames of fresh pages, with their wide shadows. -/
def State.releaseFresh (s : State) (l : List FreshPage) : State :=
  s.each l (fun s p => (s.dropShadow p.frame).freeFrame p.frame)

/-- Returns the KV frames that a slice took. -/
def State.releaseKv (s : State) (l : List KvTaken) : State := s.each l (fun s k => s.dropKv k.frame)

/-- A slice as it is when nothing of its work is held. -/
def Slice.workless (sl : Slice) : Slice :=
  { sl with fresh := [], working := [], remaining := 0, saved := [], brine := [], taken := [], kvUsed := 0, start := none }

/-- A slice as it is when nothing is held for it. -/
def Slice.empty (sl : Slice) : Slice := { sl.workless with saveFrames := [] }

/-- Drops the work of a slice: its pages, KV frames, cells, brine contents, contributions. A split slice keeps its save area
until it commits or its command ends (R76). -/
def State.releaseWork (s : State) (ref : SliceRef) : State :=
  match s.slice ref with
  | none => s
  | some sl =>
    let s := s.dropStrands (· == ref)
    let s := (s.releaseFresh sl.fresh).releaseKv sl.taken
    let gone := fun (r : CmdRun) (c : StagedCopy) => ((r.stagedTo c.vpage).take c.n).any (fun x => x.slice == ref.idx)
    let s := match s.run ref.t ref.q with
      | some r => s.each (r.copies.filter (gone r)) (fun s c => (s.dropShadow c.frame).freeFrame c.frame)
      | none => s
    s.modRun ref.t ref.q (fun r =>
      { (r.modSlice ref.idx Slice.workless) with
        staged := r.staged.filter (fun x => x.slice != ref.idx)
        copies := r.copies.filter (fun c => !gone r c) })

/-- Drops everything that a slice holds, its save area too. -/
def State.releaseSlice (s : State) (ref : SliceRef) : State :=
  let frames := ((s.slice ref).map (·.saveFrames)).getD []
  ((s.releaseWork ref).each frames State.freeFrame).modSlice ref Slice.empty

/-- Drops what a command holds for itself: held cells, prepared and staged copies, contributions, pins. -/
def State.releaseRun (s : State) (t : Fin 4) (q : Fin 64) : State :=
  match s.run t q with
  | none => s
  | some r =>
    let s := s.each r.slices (fun s sl => s.releaseSlice ⟨t, q, sl.idx⟩)
    let s := s.releaseFresh r.prepared
    let s := s.each r.copies (fun s c => (s.dropShadow c.frame).freeFrame c.frame)
    s.modRun t q (fun r => { r with
      held := [], prepared := [], staged := [], copies := [], pinned := [], effects := []
      slices := r.slices.map (fun sl => if sl.inTick then { sl with state := .waiting } else sl) })

end Sys2Proof.Machine
end

