-- ==== Sys2Proof/Machine/CollCmd.lean ====
section
/-! DEFINITION. COLLECTIVE (R342, R343, R349) and the ring engine that the sluice runs: verdicts (R353, R354),
decisions (R353 to R357), group slots (R350), the admission of ring steps (R352), routes (R359) and completion
(R360). -/
namespace Sys2Proof.Machine

open Sys2Proof

/-! ### A collective begins -/

/-- A collective that has begun and done nothing. -/
def Coll.blank (t : Fin 4) (q : Fin 64) (cls : Nat) (use : CollUse) (seq : Nat) (e : GroupEntry) (pos : Nat) : Coll :=
  { t := t, q := q, cls := cls, use := use, seq := seq, epoch := e.epoch, kind := 0, fmt := 0, redop := 0, dynamic := false,
    src := 0, dst := 0, count := 0, cells := 0, dstLimit := 0, members := e.members, pos := pos, eligible := none,
    slot := false, readySent := false, readyIn := none, startAt := none, started := false, pieceMax := 0, counts := [],
    nextStep := 0, nextAttempt := 0, due := none, cur := none, prev := none, aborts := 0, abortRun := 0,
    lastFirst := noPos, dropped := 0, committed := 0, fail := none, failTicks := 0, ended := false, failed := none,
    done := false, entry := [], gathered := [], localImages := [], images := [], cellsHeld := [], written := 0 }

/-- The module's own position in a group. -/
def State.ownPos (s : State) (e : GroupEntry) : Nat := e.members.idxOf s.moduleId

/-- SEQ − NEXT_SEQ modulo 65,536 (R349). -/
def State.seqAhead (s : State) (g seq : Nat) : Nat := (seq + 65536 - s.nextSeq g) % 65536

/-- ERR_GROUP_INVALID with an operand's value. -/
def groupBad {α : Type} (a : Nat) : Except Bad α := .error (Config.errGroupInvalid, a)

/-- The first page of a range that a command may not write: the address of the range's first byte there, with the
error of R78. -/
def State.destCheck (s : State) (t : Fin 4) (a n : Nat) : Except Bad Unit :=
  match (pagesOf a n).findSome? (fun v => (s.outError t (v, false)).map (fun e => (e.1, max a e.2))) with
  | some e => .error e
  | none => .ok ()

/-- The committed pages of a range, or the error of R78 at the first byte that cannot be read. -/
def State.sourceCheck (s : State) (t : Fin 4) (a n : Nat) : Except Bad Unit :=
  match (if n = 0 then none else s.checkT t a n) with
  | some (x, e) => .error (e, x)
  | none => .ok ()

/-- KIND, FMT, REDOP and DYNAMIC go together. -/
def collControlOk (kind fmt redop : Nat) (dyn : Bool) : Bool :=
  match kind with
  | 1 => fmt ≤ 1 && redop ≤ 2
  | 2 => fmt ≤ 1 && redop ≤ 2
  | 3 => fmt == 0 && redop == 0
  | 4 => fmt ≤ 3 && redop == 0 && !dyn
  | _ => false

/-- The checks of a COLLECTIVE at its first admission (R343): what begins, with the slices that a STATS command runs
first. -/
def State.collCheck (s : State) (t : Fin 4) (q : Fin 64) (e : GroupEntry) (ws : List W64) :
    Except Bad (Coll × List Slice) := do
  let c := cwn ws
  let kind := wbits (cw ws 8) 56 8
  let fmt := wbits (cw ws 8) 44 4
  let redop := wbits (cw ws 8) 40 4
  let dyn := (cw ws 8).getLsbD 39
  let n := e.members.length
  let base := Coll.blank t q (s.baseClass t q) .command (wbits (cw ws 8) 0 16) e (s.ownPos e)
  need (collControlOk kind fmt redop dyn) (Config.errGroupInvalid, c 8)
  let base := { base with kind := kind, fmt := fmt, redop := redop, dynamic := dyn, dst := c 10 }
  if kind = 4 then
    need (c 9 % 64 == 0) (Config.errGroupInvalid, c 9)
    need (c 10 % 256 == 0) (Config.errGroupInvalid, c 10)
    need (1 ≤ c 11 && c 11 ≤ 1048576) (Config.errGroupInvalid, c 11)
    need (1 ≤ c 13 && c 13 ≤ 2 ^ 24) (Config.errGroupInvalid, c 13)
    s.destCheck t (c 10) (c 11 * cellWidth fmt)
    let l ← s.slicesOf t (c 9) (c 13)
    return ({ base with cells := c 11 }, l)
  else
    need (c 9 % 256 == 0) (Config.errGroupInvalid, c 9)
    need (c 10 % 256 == 0) (Config.errGroupInvalid, c 10)
    let countOk := fun (k : Nat) => if kind = 3 then k % 256 == 0 else 1 ≤ k
    need (dyn || countOk (c 11)) (Config.errGroupInvalid, c 11)
    need (!dyn || c 12 % 4 == 0) (Config.errGroupInvalid, c 12)
    if dyn then s.sourceCheck t (c 12) 4 else .ok ()
    let k := if dyn then s.numT t (c 12) 4 else c 11
    need (countOk k) (Config.errGroupInvalid, c 12)
    let w := if kind = 3 then 1 else if fmt = 1 then 2 else 4
    let srcLen := k * w
    let dstLen := if kind = 3 then (if dyn then c 13 else n * k) else k * w
    need (kind != 3 || dyn || n * k ≤ c 13) (Config.errGroupInvalid, c 10)
    let meets := srcLen ≠ 0 && dstLen ≠ 0 && c 9 < c 10 + dstLen && c 10 < c 9 + srcLen
    need (!meets || (kind != 3 && c 9 == c 10)) (Config.errGroupInvalid, c 10)
    s.sourceCheck t (c 9) srcLen
    s.destCheck t (c 10) dstLen
    return ({ base with src := c 9, count := k, dstLimit := c 13, entry := u32b k, eligible := some s.tick.count }, [])

/-- Offers a COLLECTIVE (R341, R343, R349): it begins when its SEQ is the group's next and the group is free. -/
def State.offerColl (s : State) (t : Fin 4) (q : Fin 64) : State :=
  match s.run t q with
  | none => s
  | some r =>
    let g := wbits (cw r.words 8) 48 8
    let d := s.seqAhead g (wbits (cw r.words 8) 0 16)
    match s.group g with
    | none => s.failAt t q (Config.errGroupInvalid, g)
    | some e =>
      if e.tenancy ≠ t.val then s.failAt t q (Config.errGroupInvalid, g)
      else if 32768 ≤ d then s.failAt t q (Config.errCollSequence, g)
      else if d ≠ 0 || (s.collOf g).isSome then s
      else
        match s.recordError t q r with
        | some b => s.failAt t q b
        | none =>
          let s := s.modRun t q (fun r => { r with coll := some g })
          match s.collCheck t q e r.words with
          | .error b => s.failAt t q b
          | .ok (c, l) => ((s.begin t q).setColl g c).modRun t q (fun r => { r with slices := l })

/-- A COLLECTIVE whose SEQ has passed fails as soon as it heads its queue (R349). -/
def State.collHeadCheck (s : State) (t : Fin 4) (q : Fin 64) : State :=
  match s.run t q with
  | none => s
  | some r =>
    let g := wbits (cw r.words 8) 48 8
    if cOp r.words = 0x02 && !r.begun && r.fail.isNone && (s.group g).isSome &&
        32768 ≤ s.seqAhead g (wbits (cw r.words 8) 0 16) then
      s.failAt t q (Config.errCollSequence, g)
    else s

/-- COLLECTIVE's row. -/
def execCollective (t : Fin 4) (q : Fin 64) (s : State) : Host.Outcome State Fault Refusal :=
  let s := s.ensureHead t q 0
  .next (match s.run t q with
    | none => s
    | some r => if cOp r.words = 0x02 && s.isCandidate t q then s.offerColl t q else s)

/-! ### Verdicts (R353) -/

/-- The verdict on the running step, at step 1. -/
def State.ringVerdict (s : State) (g : Nat) : State :=
  match s.collOf g with
  | none => s
  | some c =>
    match c.cur with
    | none => s
    | some r =>
      if r.finished.isSome then s
      else
        let did := if c.use == .command then ((s.slice (s.ringRef c r.step)).map (fun sl => sl.state == .finished && !sl.killed)).getD false
          else r.sent
        let ok := r.admitted && !c.ended && did && r.gotPiece c && !s.unacked c.succ g
        let p := c.plan r.step
        let out := if ok && c.moves && !p.exchange then [((c.chunk p.recv p.round).1, r.arrived.getD [])] else r.out
        s.modColl g (fun c => c.modCur (fun r => { r with finished := some ok, out := out }))

/-- Discards the slice of a ring step. -/
def State.dropRing (s : State) (c : Coll) (r : RingRun) : State :=
  if c.slices then
    let ref := s.ringRef c r.step
    (s.releaseSlice ref).modRun c.t c.q (fun x => { x with slices := x.slices.filter (fun sl => sl.idx != ref.idx) })
  else s

/-- The step that was running is now being decided: what it did is held when it finished, and dropped otherwise. The
leader's wave begins, or a wave that has arrived goes on (R353, R354). -/
def State.ringShift (s : State) (g : Nat) : State :=
  match s.collOf g with
  | none => s
  | some c =>
    match c.prev, c.cur with
    | none, some r =>
      match r.finished with
      | none => s
      | some ok =>
        let s := if ok then
            (if c.slices then s.modSlice (s.ringRef c r.step) (fun sl => { sl with state := .committed }) else s)
          else s.dropRing c r
        let more := ok && r.step + 1 < c.steps
        let s := s.modColl g (fun c =>
          { c with cur := none, prev := some r, due := if more then some s.tick.count else none })
        if r.decision.isSome then s
        else if c.pos = 0 then s.sendWave g c r (c.merge r (noPos, 0, 0))
        else
          match r.waveIn with
          | some w => s.wave g c r w
          | none => s
    | _, _ => s

/-- The bytes of DST that a step's commit makes visible. -/
def Coll.stepWritten (c : Coll) (j : Nat) : Nat := ((c.writes j).map (·.2)).sum

/-- COMMIT: the slice commits in this sluice; images and moved bytes are kept. -/
def State.ringCommit (s : State) (g : Nat) (c : Coll) (r : RingRun) : State :=
  let s := if c.slices then s.modSlice (s.ringRef c r.step) (fun sl => { sl with state := .finished }) else s
  let p := c.plan r.step
  let keep := fun (m : KMap (List Byte)) =>
    if c.moves then (if p.exchange then m else kset m p.round ((r.out.map (·.2)).flatten))
    else r.out.foldl (fun m x => kset m x.1 x.2) m
  s.modColl g (fun c =>
    { c with prev := none, committed := c.committed + 1, abortRun := 0, written := c.written + c.stepWritten r.step,
             images := keep c.images, done := r.step + 1 = c.steps })

/-- The identifier that COLL_ABORT_LIMIT reports (R355). -/
def Coll.stallAt (c : Coll) (r : RingRun) (first : Nat) : Nat :=
  if first ≠ noPos then c.member first else if r.waveIn.isNone then c.pred else c.member 0

/-- ABORT: the step and what came after it are discarded, and the step is due again at once. -/
def State.ringAbort (s : State) (g : Nat) (c : Coll) (r : RingRun) (first : Nat) : State :=
  let s := s.dropRing c r
  let s := match c.cur with
    | some y => s.dropRing c y
    | none => s
  let n := c.abortRun + 1
  s.modColl g (fun c =>
    let c := { c with prev := none, cur := none, nextStep := r.step, nextAttempt := (r.attempt + 1) % 256,
                      due := some s.tick.count, aborts := c.aborts + 1, abortRun := n, lastFirst := first }
    if s.odn 0x5000 1 ≤ n then { (c.failWith Config.errCollStalled (c.stallAt r first)) with due := none, failTicks := 4 }
    else c)

/-- FAIL: the collective ends by its group's decision. A total above DST_LIMIT reports this member's DST (R347). -/
def State.ringFail (s : State) (g : Nat) (c : Coll) (r : RingRun) (code member : Nat) : State :=
  let excess := c.dynamic && c.kind = 3 && r.step = 0 && code = Config.errGroupInvalid
  let s := s.dropRing c r
  let s := match c.cur with
    | some y => s.dropRing c y
    | none => s
  s.modColl g (fun c =>
    { (c.failWith code (if excess then c.dst else member)) with prev := none, cur := none, due := none, failTicks := 4 })

/-- Applies the decision on a step, or holds it in doubt (R353, R356). -/
def State.ringApply (s : State) (g : Nat) : State :=
  match s.collOf g with
  | none => s
  | some c =>
    match c.prev with
    | none => s
    | some r =>
      match r.decision with
      | none => (s.modColl g (fun c => c.modPrev (fun r => { r with doubt := r.doubt + 1 }))).doubtExpired g
      | some (0, _) => s.ringCommit g c r
      | some (1, first, _) => s.ringAbort g c r first
      | some (_, _, code, member) => s.ringFail g c r code member

/-- Step 2 for one collective: the decision is applied, and the step that was running is judged next; a decision
about that one that came early is applied with it. -/
def State.ringStep2 (s : State) (g : Nat) : State :=
  let before := s.collOf g
  let held := (before.bind (·.prev)).isSome
  let s := (s.ringApply g).ringShift g
  let early := ((s.collOf g).bind (·.prev)).any (fun r => r.decision.isSome && r.boundary + 2 ≤ s.tick.count)
  if held && early then (s.ringApply g).ringShift g else s

/-! ### A collective ends -/

/-- Gives a group's slot back: its guaranteed credits lapse, those held at the other end where no flit of the group waits
for them (R325). -/
def State.dropCredits (s : State) (g : Nat) : State :=
  let keys := [crKey g false, crKey g true, crMirror + crKey g false, crMirror + crKey g true]
  s.each allP (fun s p => s.modL p (fun x => { x with
    rxUsed := x.rxUsed.filter (fun e => !keys.contains e.1)
    credits := if x.queue.any (fun w => w.own && w.head.group == g) then x.credits
      else x.credits.filter (fun e => !keys.contains e.1) }))

/-- Removes a collective, with its slot (R350). -/
def State.removeColl (s : State) (g : Nat) : State :=
  let s := s.dropCredits g
  { s with coll := { colls := kdel s.coll.colls g },
           net := { s.net with endCredits := kdel s.net.endCredits g } }

/-- NEXT_SEQ advances (R349). -/
def State.advanceSeq (s : State) (g : Nat) : State :=
  { s with od := { s.od with groupNextSeq := kset s.od.groupNextSeq g ((s.nextSeq g + 1) % 65536) } }

/-- RESULT0 and RESULT1 of a COLLECTIVE (R360). -/
def Coll.results (c : Coll) : Nat × Nat :=
  (c.committed % 2 ^ 32 + min c.aborts 65535 * 2 ^ 32 + min c.dropped 65535 * 2 ^ 48,
   if c.kind = 3 then ((List.range c.size).map c.countOf).sum
   else if c.kind = 4 then (if c.done && c.failed.isNone then c.cells * cellWidth c.fmt else 0) else c.written)

/-- A collective that failed here: its pieces in progress are dropped. Unless its group decided so, it keeps its slot
for up to 4 ticks to send FAIL (R357). -/
def State.endColl (s : State) (g : Nat) : State :=
  match s.collOf g with
  | none => s
  | some c =>
    let drop := fun (s : State) (x : Option RingRun) => match x with
      | some r => s.dropRing c r
      | none => s
    let s := drop (drop s c.prev) c.cur
    let s := s.advanceSeq g
    if !c.slot || c.startAt.isNone || c.done || 4 ≤ c.failTicks then s.removeColl g
    else s.modColl g (fun c =>
      { c with ended := true, cellsHeld := [],
               fail := c.fail.orElse (fun _ => some (Config.errCollStalled, s.moduleId))
               prev := c.prev.map (fun r => if r.decision.isSome then r else { r with finished := some false })
               cur := c.cur.map (fun r => { r with admitted := false, finished := none }) })

/-- A collective that has ended and still sends FAIL: gone when the decision has reached it, or after 4 ticks. -/
def State.ringTail (s : State) (g : Nat) : State :=
  match s.collOf g with
  | none => s
  | some c =>
    if !c.ended then s
    else if 4 ≤ c.failTicks then s.removeColl g
    else s.modColl g (fun c => { c with failTicks := c.failTicks + 1 })

/-- Step 9: a member without a route to a ring neighbour fails its collective (R359). -/
def State.routeCheck (s : State) (g : Nat) : State :=
  match s.collOf g with
  | none => s
  | some c =>
    if c.ended || c.done then s
    else if (s.route c.pred).isNone || (s.route c.succ).isNone then
      s.modColl g (fun c => c.failWith Config.errLinkDown (s.lostNeighbour c))
    else s

/-! ### Slots (R350) -/

/-- Grants the guaranteed credits of a group on every trained port, and the end-to-end credits to a predecessor
that is reached through a relay (R325, R328). -/
def State.grantSlot (s : State) (g : Nat) (c : Coll) : State :=
  let s := s.each (allP.filter (fun p => (s.lport p).up)) (fun s p =>
    s.modL p (fun x => { x with rxUsed := kset (kset x.rxUsed (crKey g false) 16) (crKey g true) 16 }))
  match s.route c.pred with
  | some r => if r.relay.isSome then s.sendAll (fun p => r.port g == some p) (creditBytes g 16) else s
  | none => s

/-- A group takes a slot: the leader sends READY; another member acts on a READY that waited. -/
def State.giveSlot (s : State) (g : Nat) : State :=
  match s.collOf g with
  | none => s
  | some c =>
    let s := (s.grantSlot g c).modColl g (fun c => { c with slot := true })
    let c := { c with slot := true }
    match c.readyIn with
    | some mis => if c.startAt.isSome then s else s.passReady g c (mis.getD noPos)
    | none =>
      if c.pos = 0 && !c.readySent && c.startAt.isNone then
        (s.sendReady g c noPos).modColl g (fun c => { c with readySent := true })
      else s

/-- Gives slots to the waiting groups, ascending; a lower group takes one from a higher group that has not
started. -/
def State.giveSlots (s : State) : State :=
  let wait := s.coll.colls.filter (fun x => !x.2.slot && x.2.eligible.isSome && !x.2.ended && x.2.failed.isNone)
  s.each (wait.map (·.1)) (fun s g =>
    let held := s.coll.colls.filter (fun x => x.2.slot)
    if held.length < 64 then s.giveSlot g
    else
      match (held.filter (fun x => g < x.1 && x.2.startAt.isNone)).reverse.head? with
      | some (h, _) => ((s.dropCredits h).modColl h (fun c => { c with slot := false })).giveSlot g
      | none => s)

/-! ### The admission of ring steps (R352) -/

/-- The send port of a collective. -/
def State.sendPort (s : State) (g : Nat) (c : Coll) : Option (Fin 18) := (s.route c.succ).bind (·.port g)

/-- LINK_MIB of a step. -/
def Coll.linkMib (c : Coll) (j : Nat) : Nat := ceilDiv (c.sendLen j) 1048576

/-- LINK_MIB of the ring steps admitted in this tick on a port. -/
def State.portMib (s : State) (p : Option (Fin 18)) : Nat :=
  (s.coll.colls.map (fun x =>
    match x.2.cur with
    | some r => if r.admitted && r.boundary = s.tick.count && s.sendPort x.1 x.2 == p then x.2.linkMib r.step else 0
    | none => 0)).sum

/-- The slice of step j. -/
def State.ringSlice (s : State) (c : Coll) (j : Nat) : Slice :=
  let b := c.sendLen j
  romSlice (s.ringRef c j).idx (stepCost b) 0 (max 1 (ceilDiv b 1048576)) ((c.outPages j).map (fun v => (v, false))) []
    [] true (c.linkMib j) 0

/-- The run of a step that is due. -/
def RingRun.new (j cost attempt boundary : Nat) (admitted : Bool) : RingRun :=
  { step := j, cost := cost, attempt := attempt, boundary := boundary, admitted := admitted, sends := 0, sent := false,
    arrived := none, vector := [], laps := 0, out := [], finished := none, waveIn := none, waveOut := false,
    decision := none, doubt := 0 }

/-- Takes the cells of a STATS collective with its first ring step (R348). -/
def State.takeImageCells (s : State) (g : Nat) (c : Coll) : State :=
  if c.kind ≠ 4 || c.use != .command || !c.cellsHeld.isEmpty then s
  else
    let r := placeCells (s.quota c.t 4) c.cells (s.crysOf c.t) s.crysUnreserved s.crysFree s.mem.panCursor 0 s.panRoom
    let cells := r.1.map (Cell.fresh c.t.val (cellOwner c.t c.q (((s.run c.t c.q).map (·.n)).getD 0)))
    let s := { s with mem := { s.mem with panCursor := r.2 } }
    let n := (cells.filter Cell.inCrys).length
    ((s.modColl g (fun c => { c with cellsHeld := cells })).bump 0x9026 1 n).bump 0x9026 2 (c.cells - n)

/-- The boundary of the start: PIECE_MAX is that of the period in force then (R344). -/
def State.startPieces (s : State) (g : Nat) : State :=
  s.modColl g (fun c =>
    if c.pieceMax = 0 && (c.due.map (fun k => decide (k ≤ s.tick.count))).getD false then
      { c with pieceMax := 8 * s.tick.periodN * 2 ^ 20 }
    else c)

/-- Admits the step of a collective that is due, where its demands are met; a step that is not admitted is
unfinished at its verdict. `barred`: the tick belongs to an exclusive segment. -/
def State.admitStep (s : State) (barred : Bool) (g : Nat) : State :=
  match s.collOf g with
  | none => s
  | some c =>
    let due := (c.due.map (fun k => decide (k ≤ s.tick.count))).getD false
    if !due || c.failed.isSome && !c.ended || c.cur.isSome then s
    else
      let j := c.nextStep
      let put := fun (s : State) (ok : Bool) => s.modColl g (fun c =>
        { c with cur := some (RingRun.new j (stepCost (c.sendLen j)) c.nextAttempt s.tick.count ok), due := none, nextStep := j + 1,
                 nextAttempt := 0, started := c.started || ok })
      if c.ended then put s false
      else
        let fits := !barred && s.portMib (s.sendPort g c) + c.linkMib j ≤ 16 * s.tick.periodN
        if c.use != .command then put s fits
        else
          let sl := s.ringSlice c j
          let cells := if c.kind = 4 && c.cellsHeld.isEmpty then c.cells else 0
          match s.impossible c.t { sl with cellsReq := cells } with
          | some i => s.modColl g (fun c => c.failWith Config.errQuotaExceeded i)
          | none =>
            let ref := s.ringRef c j
            if fits && s.demandsMet c.t sl && s.cellsMet c.t cells && s.outsFree c.t c.q sl.idx false (sl.outs.map (·.1)) then
              let s1 := s.modRun c.t c.q (fun r => { r with slices := r.slices ++ [sl] })
              match s1.tryAdmit ref sl (s.baseClass c.t c.q) with
              | some s2 => put (s2.takeImageCells g c) true
              | none => put s false
            else put s false

/-- Step 11 for the ring steps: those due at this boundary are admitted, in the order of their groups. -/
def State.admitRings (s : State) (barred : Bool) : State :=
  s.each (s.coll.colls.map (·.1)) (fun s g => (s.startPieces g).admitStep barred g)

/-- Step 13: a ring step without strands sends. -/
def State.startRings (s : State) : State :=
  s.each s.coll.colls (fun s x =>
    match x.2.cur with
    | some r =>
      if r.admitted && !r.sent && x.2.use != .command && r.boundary = s.tick.count then s.sendChunk x.1 else s
    | none => s)

/-- The cell that folds image i of a STATS collective into its destination. -/
def Coll.imageCell (c : Coll) (i : Nat) : Cell :=
  { (Cell.fresh c.t.val 0 (.pan 0)).ofImage ((kget c.images i).getD zeroImage) with
    bound := true, fmt := c.fmt, dest := c.dst + i * cellWidth c.fmt }

/-- Step 4 for a STATS collective whose last ring step commits: every image is folded (R348). While the frames of the
prepared copies are not to be had, it waits. -/
def State.foldImages (s : State) (g : Nat) : State :=
  match s.collOf g with
  | none => s
  | some c =>
    if c.kind = 4 && c.use == .command && c.done && c.failed.isNone && !c.cellsHeld.isEmpty then
      let pages := pagesOf c.dst (c.cells * cellWidth c.fmt)
      match (s.makeRoom pages.length).takePrepared c.t c.q pages with
      | none => s
      | some s =>
        (s.each (List.range c.cells) (fun s i => s.foldCell c.t c.q (c.imageCell i))).modColl g (fun c =>
          { c with cellsHeld := [] })
    else s

/-- The slices of a STATS command have all committed: its ring may begin. -/
def State.statsReady (s : State) (g : Nat) : State :=
  match s.collOf g with
  | none => s
  | some c =>
    if c.kind = 4 && c.use == .command && c.eligible.isNone && !c.ended then
      match s.run c.t c.q with
      | some r => if r.slices.all (fun sl => sl.ringStep || sl.state == .committed) then
          s.modColl g (fun c => { c with eligible := some s.tick.count }) else s
      | none => s
    else s

end Sys2Proof.Machine
end

