-- ==== Sys2Proof/Machine/OdRead.lean ====
section
/-! DEFINITION. What a read of a dictionary entry returns (R10, R311, R317), the configuration digest (R316), and the
pending records of notifications (R314). -/
namespace Sys2Proof.Machine

open Sys2Proof

/-! ### Values that the module sets -/

/-- The digest of the function ROM (R122). -/
def romDigest : List Byte := shake256 (functionRom.flatMap u64b)

/-- The rollback counter (R374). -/
def State.rollbackCount (s : State) : Nat := popcount s.fuses.rollback.toNat 0 64

/-- TRANSFER_STATE (R370). -/
def SecureSt.transferState (x : SecureSt) : Nat :=
  if x.waiting || x.transferring then 1 else if x.storage.active then 2 else 0

/-- The code of a commit entry's state (R49, R154). -/
def CommitState.code : CommitState → Nat
  | .idle => 0
  | .pending => 1
  | .syncing => 2

/-- ASCII KB96-M24-LC. -/
def orderingCode : List Byte := [0x4B, 0x42, 0x39, 0x36, 0x2D, 0x4D, 0x32, 0x34, 0x2D, 0x4C, 0x43]

/-- The identity public key, derived from the seed at every start-up (R375). -/
def State.identityKey (s : State) : List Byte := (List.range 1952).map (Config.mldsaKeyByte s.fuses.identitySeed)

/-- The certificate (R375). -/
def State.certificate (s : State) : List Byte :=
  [1, 0, 0, 0] ++ u32b s.fuses.issued.toNat ++ u64b s.fuses.serial.toNat ++ Machine.slice orderingCode 0 16 ++
    leBytes 1 0x43 ++ List.replicate 31 0 ++ s.identityKey ++ s.fuses.certSignature ++ List.replicate 3 0

/-- Whether a sensor is read: those of excluded dies and stacks are not (R418). -/
def State.sensorUp (s : State) (i : Nat) : Bool :=
  if i < 4 then !(s.odn 0x8000 3).testBit i
  else if i = 4 then true
  else !(s.odn 0x3001 1).testBit (i - 5) && !(s.odn 0x8000 3).testBit ((i - 5) / 6)

/-- The sensors that are read: CD0 to CD3, HD, then the stacks. -/
def State.readSensors (s : State) : List Int :=
  ((List.range 29).filter s.sensorUp).map (fun i => nth s.power.sensors i 0)

/-- The hottest of the sensors, in m°C. -/
def State.hottest (s : State) : Int := s.readSensors.foldl max (nth s.power.sensors 4 0)

/-- The group table entry with its EPOCH in byte 0 (R340). -/
def State.groupBytes (s : State) (g : Nat) : List Byte :=
  let b := odBytes s.od (0x5100 + g) 1
  if b.isEmpty then [] else BitVec.ofNat 8 (s.groupEpoch g) :: b.drop 1

/-- HALTED_MASK (R264). -/
def State.haltedMask (s : State) (t : Fin 4) : Nat :=
  (allQ.map (fun q => if (s.queue t q).state == .halted then 2 ^ q.val else 0)).sum

/-- A read-only number of the module ranges, computed from the state. -/
def State.odModuleNum (s : State) (i sub : Nat) : Option Nat :=
  match i, sub with
  | 0x1000, 2 => some s.fuses.serial.toNat
  | 0x1000, 3 => some 0x43
  | 0x1000, 5 => some s.fwImage
  | 0x1000, 6 => some s.fwVersion
  | 0x1010, 1 => some (Config.macAddr 0).toNat
  | 0x1011, 1 => some (Config.macAddr 1).toNat
  | 0x1012, 1 => some (Config.macAddr 2).toNat
  | 0x1020, 2 => some s.od.storeState
  | 0x1020, 3 => some s.flash.storeCount
  | 0x1030, 1 => some s.od.sessions.length
  | 0x2000, 2 => some s.tick.count
  | 0x2000, 3 => some s.tick.sluiceMax
  | 0x2001, 1 => some s.tick.anchorTick
  | 0x2001, 2 => some s.tick.anchorS
  | 0x2001, 3 => some s.tick.anchorNs
  | 0x2001, 4 => some s.tick.sync
  | 0x2012, 2 => some s.od.quiesceState
  | 0x3000, 1 => some s.stackMask
  | 0x3000, 2 => some s.assignable
  | 0x3000, 3 => some s.poolFrames
  | 0x3000, 4 => some s.freeGeneral
  | 0x3000, 5 => some (if s.mem.model.sealedNow then s.mem.model.frames.length else 0)
  | 0x3000, 6 => some (524288 - (allT.map (fun t => s.quota t 4)).sum)
  | 0x3000, 7 => some s.crysFree
  | 0x3000, 8 => some s.panFree
  | 0x3104, 1 => some s.od.quotaCommit.code
  | 0x3104, 2 => some s.od.quotaReject
  | 0x3104, 3 => some (b2n s.od.quotaScaled)
  | 0x4000, 1 => some 3
  | 0x4001, 3 => some s.od.stormTick
  | 0x4001, 4 => some s.od.stormTenancy
  | 0x5003, 2 => some s.net.tickMaster
  | 0x5200, 1 => some s.od.groupCommit.code
  | 0x6000, 1 => some ((s.codec.map (fun x => if x.2.visible then 2 ^ x.1 else 0)).sum)
  | 0x7000, 1 => some s.install.state
  | 0x7000, 2 => some s.install.phase
  | 0x7000, 3 => some s.install.bytes
  | 0x7001, 4 => some s.rollbackCount
  | 0x8001, 1 => some ((BitVec.ofInt 32 s.hottest).toNat)
  | 0x8001, 2 => some s.power.inputPower
  | 0x8001, 3 => some s.power.clockMHz
  | 0x8001, 4 => some s.health.risk
  | 0x8002, 1 => some s.health.hwFault.toNat
  | 0x8002, 2 => some s.health.failedStacks.toNat
  | 0x8002, 3 => some s.health.failedDies.toNat
  | _, _ =>
    if i = 0x5001 then (if h : 1 ≤ sub ∧ sub ≤ 18 then some (s.linkWidth ⟨sub - 1, by omega⟩) else none)
    else if 0x5100 ≤ i ∧ i ≤ 0x51FF ∧ sub = 3 then some (s.nextSeq (i - 0x5100))
    else if i = 0x6010 then
      some (match kget s.ingest (sub - 1) with
        | some x => x.augCommit.code + (if x.augB then 4 else 0)
        | none => 0)
    else if i = 0x6012 then some ((kget s.ingestPos (sub - 1)).getD 0)
    else if 0x9020 ≤ i ∧ i ≤ 0x902C then some (counter s.od i sub)
    else none

/-- A read-only number of a tenancy's range, by the offset of its T0 index. -/
def State.odTenancyNum (s : State) (t : Fin 4) (i sub : Nat) : Option Nat :=
  match i, sub with
  | 0x72, 1 => some s.od.skipCommit[t].code
  | 0x90, 1 => some (s.dieUsed t)
  | 0x90, 2 => some (s.stackedUse t)
  | 0x90, 3 => some (s.kvUse t)
  | 0x90, 4 => some (s.poolUse t)
  | 0x90, 5 => some (s.shadowUse t)
  | 0x90, 6 => some (s.crysOf t)
  | 0x90, 7 => some (s.panOf t)
  | 0xA1, 1 => some s.od.quantCommit[t].code
  | 0xC2, 1 => some (s.haltedMask t)
  | 0xE0, 2 => some s.tens[t].secure.interval
  | 0xE0, 3 => some s.tens[t].secure.transferState
  | _, _ =>
    if i = 0xC0 ∨ i = 0xC1 then some (counter s.od (0xA000 + 256 * t.val + i) sub)
    else if i = 0xC3 then some (s.queue t (Fin.ofNat 64 (sub - 1))).fence
    else none

/-- Read-only bytes. -/
def State.odModuleBytes (s : State) (i sub : Nat) : Option (List Byte) :=
  match i, sub with
  | 0x1000, 4 => some orderingCode
  | 0x4000, 2 => some romDigest
  | 0x5003, 1 => some (s.net.pond.flatMap u16b)
  | 0x7000, 4 => some (if s.mem.model.sealedNow then s.mem.model.digest else List.replicate 32 0)
  | 0x7001, 1 => some s.identityKey
  | 0x7001, 2 => some s.certificate
  | 0x7001, 3 => some s.fwDigest
  | _, _ => if 0x5100 ≤ i ∧ i ≤ 0x51FF ∧ sub = 1 then some (s.groupBytes (i - 0x5100)) else none

/-- The tenancy of an index of the tenancy ranges. -/
def tenancyOf (i : Nat) : Fin 4 := Fin.ofNat 4 ((i - 0xA000) / 256)

/-- What a read of an entry returns. -/
def State.odRead (s : State) (i sub : Nat) : OdVal :=
  if i < 0xA000 then
    match s.odModuleBytes i sub with
    | some b => .bytes b
    | none =>
      match s.odModuleNum i sub with
      | some n => .num n
      | none => odVal s.od (odKey i sub)
  else
    let t := tenancyOf i
    if i % 256 = 0xD0 then .bytes s.od.configDigest[t]
    else
      match s.odTenancyNum t (i % 256) sub with
      | some n => .num n
      | none => odVal s.od (odKey i sub)

/-! ### The configuration digest (R316) -/

/-- The arithmetic-relevant entries of the module ranges and of a tenancy, as T0 indices, ascending. -/
def arithEntries : List (Nat × Nat) :=
  (List.range 255).flatMap (fun l => (List.range 7).map (fun k => (0x4100 + l, k + 1))) ++
    (List.range 32).map (fun n => (0xA070, n + 1)) ++ (List.range 32).map (fun n => (0xA071, n + 1)) ++
    (List.range 64).map (fun n => (0xA0A0, n + 1))

/-- What an entry contributes to the digest of Tt. -/
def digestPart (o : OdSt) (t : Fin 4) (x : Nat × Nat) : List Byte :=
  let i := if x.1 < 0xA000 then x.1 else x.1 + 256 * t.val
  match odEntry x.1 x.2 with
  | some e => u16b x.1 ++ leBytes 1 x.2 ++ odEncode e.type (odVal o (odKey i x.2))
  | none => []

/-- The configuration digest of Tt. -/
def configDigestOf (o : OdSt) (t : Fin 4) : List Byte := (shake256 (arithEntries.flatMap (digestPart o t))).take 32

/-- Recomputes the digests. -/
def State.redigest (s : State) : State :=
  { s with od := { s.od with configDigest := Vector.ofFn (fun t => configDigestOf s.od t) } }

/-! ### Notifications (R314) -/

/-- A change of an entry for one subscriber: a new pending record, or one merged into that which waits. -/
def notePending (l : List Pending) (key tick : Nat) (v : OdVal) : List Pending :=
  if l.any (fun p => p.key == key) then
    l.map (fun p => if p.key = key then { p with tick := tick, changes := p.changes + 1, value := v } else p)
  else l ++ [{ key := key, tick := tick, changes := 1, value := v }]

/-- The keys that someone subscribes to. -/
def State.subscribed (s : State) : List Nat :=
  (s.od.sessions.flatMap (·.subs) ++ s.od.mbxSubs.toList.flatten).eraseDups

/-- Whether the mailbox of Tt subscribes to an entry. -/
def State.mbxSubscribes (s : State) (key : Nat) (t : Fin 4) : Bool := s.od.mbxSubs[t].contains key

/-- A session's records after a change. -/
def Session.note (x : Session) (key tick : Nat) (v : OdVal) : Session :=
  if x.subs.contains key then { x with pend := notePending x.pend key tick v } else x

/-- The records that a change merges into. -/
def State.mergedBy (s : State) (key : Nat) : Nat :=
  (s.od.sessions.filter (fun (x : Session) => x.subs.contains key && x.pend.any (fun p => p.key == key))).length +
    (allT.filter (fun (t : Fin 4) => s.mbxSubscribes key t && s.od.mbxPend[t].any (fun p => p.key == key))).length

/-- One entry has changed. Cause bit 3 is set where a record becomes pending (R315). -/
def State.noteKey (s : State) (key : Nat) : State :=
  let v := s.odRead (key / 256) (key % 256)
  let tick := s.tick.count
  if kget s.od.notified key = some v then s
  else
    let s := s.bump 0x902C 7 (s.mergedBy key)
    let mp : Vector (List Pending) 4 := Vector.ofFn (fun (t : Fin 4) =>
      if s.mbxSubscribes key t then notePending s.od.mbxPend[t] key tick v else s.od.mbxPend[t])
    let o : OdSt :=
      { s.od with
        notified := kset s.od.notified key v
        sessions := s.od.sessions.map (fun (x : Session) => x.note key tick v)
        mbxPend := mp }
    ({ s with od := o } : State).each
      (allT.filter (fun t => s.mbxSubscribes key t && !s.od.mbxPend[t].any (fun p => p.key == key))) (fun s t => s.setCause t 3)

/-- Compares every subscribed entry with the value last noted. -/
def State.noteChanges (s : State) : State := s.each s.subscribed State.noteKey

/-- The answer of a command that may change an entry which notifies. -/
def noted (s : State) : Host.Outcome State Fault Refusal := .next s.noteChanges

end Sys2Proof.Machine
end

