-- ==== Sys2Proof/Machine/Done.lean ====
section
/-! DEFINITION. The ends of work that the module does beside the commands: copies for pins (R169), staged accumulations
(R201), staging by the schedule (R175), the copying of a swapped table (R49), scrubbing (R388). -/
namespace Sys2Proof.Machine

open Sys2Proof

/-- PIN_MIGRATION_COPY_DONE: the entry switches at step 6 of the next sluice. -/
def execPinMigrationCopyDone (t : Fin 4) (v : Nat) (s : State) : Host.Outcome State Fault Refusal :=
  noted (s.modPage t v (fun e => if e.migrateTo.isSome then { e with migrated := true } else e))

/-- The dies that hold a frame for a use. -/
def State.diesOf (s : State) (u : DieUse) : List Nat :=
  (s.mem.dieUse.filter (fun x => x.2 == u)).map (fun x => x.1 / Config.dieFrames)

/-- The copy bits of a list of dies. -/
def dieBits (l : List Nat) : BitVec 4 := l.foldl (fun m d => m ||| (1#4 <<< d)) 0

/-- DIE_PIN_COPY_DONE: reads may use the copy from now on. -/
def execDiePinCopyDone (t : Fin 4) (v : Nat) (s : State) : Host.Outcome State Fault Refusal :=
  noted (s.modPage t v (fun e => { e with staged := e.staged ||| dieBits (s.diesOf (.pin t v)) }))

/-- STAGING_COPY_DONE: a copy that the schedule made is complete. -/
def execStagingCopyDone (die : Fin 4) (ref : StagedRef) (s : State) : Host.Outcome State Fault Refusal :=
  noted (match ref with
    | .model p =>
      if (s.diesOf (.model p)).contains die.val then
        { s with mem := { s.mem with model := { s.mem.model with
            staged := kset s.mem.model.staged p (((kget s.mem.model.staged p).getD 0) ||| (1#4 <<< die.val)) } } }
      else s
    | .kv f =>
      if allT.any (fun t => (s.diesOf (.kv t f)).contains die.val) then
        s.modKv f (fun k => { k with staged := some die })
      else s)

/-- Whether a slice names a page in its output list, which is read in the image until the slice is first admitted. -/
def State.listsPage (s : State) (t : Fin 4) (sl : Slice) (v : Nat) : Bool :=
  if sl.checked then sl.outs.any (fun o => o.1 == v)
  else
    match s.getT t sl.base 64 with
    | .error _ => false
    | .ok h =>
      match (headerParts h)[2]? with
      | none => false
      | some p =>
        match s.getT t (sl.base + p.off) p.len with
        | .error _ => false
        | .ok bs => (unpackN 64 bs (p.len / 8)).any (fun e => (outOf e).map (·.1) == some v)

/-- Whether a slice below an index may still contribute to a page: it accumulates, lists the page, and has not
finished. -/
def State.waitsBelow (s : State) (t : Fin 4) (r : CmdRun) (v idx : Nat) : Bool :=
  r.slices.any (fun sl => sl.idx < idx && sl.accum && (sl.state == .waiting || sl.state == .admitted) &&
    s.listsPage t sl v)

/-- The contribution that the pan adds next to its copy of a page: the one of the lowest SLICE_INDEX that the copy does
not hold, when its slice has committed or is to commit at the next sluice, and no lower slice may still contribute (R40;
DEDUCED, log entry 43). -/
def State.nextStaged (s : State) (t : Fin 4) (r : CmdRun) (v : Nat) : Option Staged :=
  match ((r.stagedTo v).drop (r.copied v)).head? with
  | some x =>
    let finished := !r.asUnit && r.slices.any (fun sl => sl.idx == x.slice && sl.state == .finished)
    if (x.committed || finished) && !s.waitsBelow t r v x.slice then some x else none
  | none => none

/-- The running command of Tt whose contribution to a page is applicable next. -/
def State.stagedNext (s : State) (t : Fin 4) (v : Nat) : Option (Fin 64 × CmdRun × Staged) :=
  allQ.findSome? (fun q =>
    match s.run t q with
    | some r => (s.nextStaged t r v).map (fun x => (q, r, x))
    | none => none)

/-- STAGED_ACCUMULATION_DONE: the pan has added the contribution in a copy of the page on its stack; later ones wait
for it, and the page is switched at step 5 of the first sluice in which their slices have committed (R201). -/
def execStagedAccumulationDone (t : Fin 4) (v : Nat) (s : State) : Host.Outcome State Fault Refusal :=
  noted (match s.stagedNext t v, s.page t v with
    | some (q, r, x), some e =>
      match r.copies.find? (fun c => c.vpage == v) with
      | some c =>
        (s.applyStaged c.frame x).modRun t q (fun r => { r with
          copies := r.copies.map (fun y => if y.vpage = v then { y with n := y.n + 1 } else y) })
      | none =>
        match s.freeOn (stackOfFrame e.home) with
        | none => s
        | some f =>
          let s := ((s.useFrame f (.fresh t v)).copyFrame e.home f).applyStaged f x
          s.modRun t q (fun r => { r with copies := r.copies ++ [{ vpage := v, frame := f, n := 1 }] })
    | _, _ => s)

/-- Copies the live page directory of a sequence into its shadow. -/
def State.syncDirectory (s : State) (t : Fin 4) (desc : Nat) : State :=
  match s.seqAt t desc with
  | .error _ => { s with mem := { s.mem with dirBusy := s.mem.dirBusy.filter (· != (t.val, desc)) } }
  | .ok q =>
    if q.dirState = 2 then
      let s := (s.putT t q.shadowDir (s.readT t q.dir (8 * q.heads * q.slots))).setDir t desc 0 none
      { s with mem := { s.mem with dirBusy := s.mem.dirBusy.filter (· != (t.val, desc)) } }
    else s

/-- Copies the live augmentation table of a stream into its shadow. -/
def State.syncAugmentation (s : State) (n : Nat) : State :=
  match kget s.ingest n with
  | some x =>
    if x.augCommit = .syncing then
      let a := fun (b : Bool) => wbits (nth x.words (if b then 5 else 4) 0) 0 52
      let len := 32 * wbits (nth x.words 0 0) 28 12
      let s := s.putT x.owner (a (!x.augB)) (s.readT x.owner (a x.augB) len)
      { s with ingest := kmod s.ingest n (fun (x : Stream) => { x with augCommit := .idle }) }
    else s
  | none => s

/-- A commit entry after the copying of its table. -/
def CommitState.synced (c : CommitState) : CommitState := if c = .syncing then .idle else c

/-- TABLE_SYNC_DONE: the new shadow holds what is live, and the commit entry returns to IDLE (R49); that of a page directory
lies in its descriptor, which the module writes in the sluice only (R137). -/
def execTableSyncDone (table : TableId) (s : State) : Host.Outcome State Fault Refusal :=
  noted (match table with
    | .group => { s with od := { s.od with groupCommit := s.od.groupCommit.synced } }
    | .quota => { s with od := { s.od with quotaCommit := s.od.quotaCommit.synced } }
    | .skip t => { s with od := { s.od with skipCommit := s.od.skipCommit.set t s.od.skipCommit[t].synced } }
    | .quantiser t => { s with od := { s.od with quantCommit := s.od.quantCommit.set t s.od.quantCommit[t].synced } }
    | .directory t desc =>
      if s.mem.dirBusy.contains (t.val, desc) && !s.mem.dirSynced.contains (t.val, desc) then
        { s with mem := { s.mem with dirSynced := s.mem.dirSynced ++ [(t.val, desc)] } }
      else s
    | .augmentation n => s.syncAugmentation n.val)

/-- SCRUB_DONE: the frames return to the free list at step 7 of the next sluice. -/
def execScrubDone (s : State) : Host.Outcome State Fault Refusal :=
  noted { s with mem := { s.mem with scrubbed := (s.mem.frameUse.filter (fun x => x.2 == .scrub)).map (·.1) } }

end Sys2Proof.Machine
end

