-- ==== Sys2Proof/Machine/IngestCmd.lean ====
section
/-! DEFINITION. Sample ingest (R242 to R258): streams, samples from the host and from Ethernet, augmentation,
the decision of slots, slot images, the manifest and its replay; and the codec units' turns (R228), which streams and
commands share. -/
namespace Sys2Proof.Machine

open Sys2Proof

/-! ### A stream's parameters -/

/-- SOURCE. -/
def Stream.source (x : Stream) : Nat := pf x.words 0 60 4
/-- CODEC. -/
def Stream.codec (x : Stream) : Nat := pf x.words 0 56 4
/-- FMT. -/
def Stream.fmt (x : Stream) : Nat := pf x.words 0 52 4
/-- LEVELS. -/
def Stream.levels (x : Stream) : Nat := pf x.words 0 48 4
/-- SLOTS. -/
def Stream.slotN (x : Stream) : Nat := pf x.words 0 28 12
/-- WAIT_TICKS. -/
def Stream.wait (x : Stream) : Nat := pf x.words 0 0 16
/-- OUT_T. -/
def Stream.outT (x : Stream) : Nat := pf x.words 1 48 16
/-- OUT_H. -/
def Stream.outH (x : Stream) : Nat := pf x.words 1 32 16
/-- OUT_W. -/
def Stream.outW (x : Stream) : Nat := pf x.words 1 16 16
/-- MAX_WIDTH. -/
def Stream.maxW (x : Stream) : Nat := pf x.words 2 48 16
/-- MAX_HEIGHT. -/
def Stream.maxH (x : Stream) : Nat := pf x.words 2 32 16
/-- PITCH. -/
def Stream.pitch (x : Stream) : Nat := pf x.words 2 0 32
/-- Bytes of the reassembly area. -/
def Stream.rxBytes (x : Stream) : Nat := pf x.words 3 52 12 * Config.pageBytes

/-- The level sizes of a slot's pyramid, level 0 first. -/
def levelSizes : Nat → Nat → Nat → List (Nat × Nat)
  | 0, w, h => [(w, h)]
  | n + 1, w, h => (w, h) :: levelSizes n (ceilDiv w 2) (ceilDiv h 2)

/-- The bytes of each level of a slot image. -/
def Stream.levelBytes (x : Stream) : List Nat :=
  (levelSizes x.levels x.outW x.outH).map (fun s => 3 * x.outT * s.1 * s.2 * fmtBits x.fmt / 8)

/-- The size of a slot image (R251). -/
def Stream.imageSize (x : Stream) : Nat := x.levelBytes.foldl (fun a n => up64 a + n) 0

/-- Changes a stream. -/
def State.modStream (s : State) (n : Nat) (f : Stream → Stream) : State := { s with ingest := kmod s.ingest n f }

/-- Changes the batch of a stream. -/
def State.modBatch (s : State) (n : Nat) (f : Batch → Batch) : State :=
  s.modStream n (fun x => { x with batch := x.batch.map f })

/-- Changes the sample at a position. -/
def State.modSample (s : State) (n pos : Nat) (f : Sample → Sample) : State :=
  s.modStream n (fun x => { x with samples := x.samples.map (fun y => if y.position = pos then f y else y) })

/-- The sample at a position. -/
def Stream.sample (x : Stream) (pos : Nat) : Option Sample := x.samples.find? (fun y => y.position == pos)

/-! ### INGEST_OPEN and INGEST_CLOSE -/

/-- The words of INGEST_OPEN. -/
def ingestWords (ps : List W64) : Option Nat :=
  let f := pf ps
  let src := f 0 60 4
  let host := src == 0
  badWord
    [(0, src ≤ 2 && f 0 56 4 ≤ 2 && (f 0 56 4 != 2 || src ≤ 1) && f 0 52 4 ≤ 3 && f 0 48 4 ≤ 5 && f 0 46 2 = 0 &&
         f 0 40 6 ≤ 63 && 1 ≤ f 0 28 12 && f 0 16 12 = 0 && (if host then f 0 0 16 = 0 else 1 ≤ f 0 0 16)),
     (1, 1 ≤ f 1 48 16 && f 1 48 16 ≤ 1024 && 1 ≤ f 1 32 16 && f 1 32 16 ≤ 4352 && 1 ≤ f 1 16 16 &&
         f 1 16 16 ≤ 8192 && f 1 0 16 = 0),
     (2, f 2 48 16 % 2 = 0 && 16 ≤ f 2 48 16 && f 2 48 16 ≤ 8192 && f 2 32 16 % 2 = 0 && 16 ≤ f 2 32 16 &&
         f 2 32 16 ≤ 4352 && f 2 0 32 % 256 = 0 && 2 * f 2 48 16 ≤ f 2 0 32),
     (3, (if host then f 3 52 12 = 0 else 1 ≤ f 3 52 12) && f 3 0 52 % 64 = 0),
     (4, f 4 0 52 % 64 = 0), (5, f 5 52 12 = 0 && f 5 0 52 % 64 = 0), (6, f 6 52 12 = 0 && f 6 0 52 % 64 = 0)]

/-- The decode context that a stream opens (R243, R248). -/
def streamOpen (ps : List W64) : CtxOpen :=
  let f := pf ps
  { encode := false, hevc := f 0 56 4 = 1, depth := 10, buffers := f 0 40 6 + 1, maxW := f 2 48 16, maxH := f 2 32 16,
    pitch := f 2 0 32, num := 30, den := 1, pool := f 3 0 52 }

/-- A stream just opened. -/
def newStream (t : Fin 4) (ps : List W64) (ctx : Option Nat) (rx : List Nat) : Stream :=
  { owner := t, visible := false, words := ps, position := (pw ps 7).toNat, augB := false, augCommit := .idle,
    codecCtx := ctx, rxFrames := rx, samples := [], batch := none, rangeFlag := false }

/-- The decode context of a coded stream, if one is free; a stream of raw samples has none. -/
def State.streamCtx (s : State) (t : Fin 4) (n : Nat) (coded : Bool) (buffers : List Buffer) (ps : List W64) :
    Option (Option Nat × State) :=
  if coded then (s.openCtx t (some n) (streamOpen ps) buffers ps).map (fun x => (some x.1, x.2)) else some (none, s)

/-- INGEST_OPEN. -/
def ingestOpenCheck : OpCheck := fun s t q r =>
  s.withBlock t r Config.errIngestInvalid ingestWords (fun ps =>
    let coded := pf ps 0 56 4 ≠ 2
    match (List.range 16).find? (fun n => (kget s.ingest n).isNone) with
    | none => .fail Config.errIngestCapacity (cwn r.words 8) 0
    | some n =>
      match (if coded then s.readPool t Config.errIngestInvalid (streamOpen ps) else .ok []) with
      | .error e => .fail e.1 e.2 0
      | .ok buffers =>
        match s.streamCtx t n coded buffers ps with
        | none => .fail Config.errCodecCapacity (cwn r.words 8) 0
        | some (ctx, s) =>
          let rx := pf ps 3 52 12
          if !s.stackPossible t rx then .fail Config.errQuotaExceeded (8 * t.val + 1) 0
          else if !s.stackAllowed t rx then .pass
          else
            match (s.roomFor t rx).takeSave t s.stack0 rx with
            | none => .pass
            | some (frames, s) =>
              let s := { s with ingest := kset s.ingest n (newStream t ps ctx frames) }
              .admitted ((s.stage t q [.ingestOpen n]).results t q n 0) true)

/-- INGEST_OPEN's row. -/
def execIngestOpen (t : Fin 4) (q : Fin 64) (s : State) : Host.Outcome State Fault Refusal :=
  .next (s.offerRow t q 0x38 ingestOpenCheck)

/-- The open stream n of Tt. -/
def State.ownStream (s : State) (t : Fin 4) (n : Nat) : Option Stream :=
  (kget s.ingest n).bind (fun x => if x.visible && x.owner == t then some x else none)

/-- Whether a stream has an uncompleted batch or close. -/
def State.streamBusy (s : State) (t : Fin 4) (n : Nat) (x : Stream) : Bool :=
  x.batch.isSome || s.anyRun t (fun r => r.effects.contains (.ingestClose n))

/-- INGEST_CLOSE. -/
def ingestCloseCheck : OpCheck := fun s t q r =>
  let n := cwn r.words 8
  match s.ownStream t n with
  | none => .fail Config.errIngestContext n 0
  | some x => if s.streamBusy t n x then .pass else .admitted (s.stage t q [.ingestClose n]) true

/-- INGEST_CLOSE's row. -/
def execIngestClose (t : Fin 4) (q : Fin 64) (s : State) : Host.Outcome State Fault Refusal :=
  .next (s.offerRow t q 0x3A ingestCloseCheck)

/-- A stream that has been opened becomes visible, with its decode context and its data position. -/
def State.showStream (s : State) (n : Nat) : State :=
  match kget s.ingest n with
  | none => s
  | some x =>
    let s := s.modStream n (fun x => { x with visible := true })
    let s := match x.codecCtx with
      | some c => s.modCodec c (fun c => { c with visible := true })
      | none => s
    { s with ingestPos := kset s.ingestPos n x.position }

/-- Removes a stream, with its reassembly area and its decode context; its data position stays (R244). -/
def State.closeStream (s : State) (n : Nat) : State :=
  match kget s.ingest n with
  | none => s
  | some x =>
    let s := s.each x.rxFrames State.freeFrame
    let s := match x.codecCtx with
      | some c => { s with codec := kdel s.codec c }
      | none => s
    { s with ingest := kdel s.ingest n }

/-! ### Augmentation records (R249) -/

/-- A 32-bit field of a record. -/
def augF (rec_ : List Byte) (off : Nat) : W32 := BitVec.ofNat 32 (leAt rec_ off 4)

/-- T_START. -/
def augStart (rec_ : List Byte) : Nat := leAt rec_ 25 2
/-- T_STEP. -/
def augStep (rec_ : List Byte) : Nat := leAt rec_ 27 1
/-- FLIP. -/
def augFlip (rec_ : List Byte) : Bool := leAt rec_ 28 1 % 2 = 1

/-- Whether a record keeps the table of R249. -/
def augOk (rec_ : List Byte) : Bool :=
  let fin := fun (o : Nat) => (f32v (augF rec_ o)).isFin
  leAt rec_ 28 4 < 2 && leAt rec_ 24 1 = 0 && 1 ≤ augStep rec_ && augStep rec_ ≤ 16 &&
  [0, 4, 8, 12, 16, 20].all fin && f32below 0 (augF rec_ 8) && f32below 0 (augF rec_ 12)

/-- The source frame of output frame k. -/
def augFrame (rec_ : List Byte) (k : Nat) : Nat := augStart rec_ + k * augStep rec_

/-! ### From sample to slot (R250, R251) -/

/-- A channel of a frame, row by row. -/
abbrev Plane := List (List W32)

/-- An element with both indices clamped to the frame. -/
def Plane.at_ (p : Plane) (y x : Nat) : W32 :=
  let row := nth p (min y (p.length - 1)) []
  nth row (min x (row.length - 1)) 0

/-- Inverse colour constants: IR, IB, GR, GB. -/
def inverseConst (bt2020 : Bool) : List W32 :=
  if bt2020 then [dec7 14746000, dec7 18814000, dec7 5713531, dec7 1645531]
  else [dec7 15748000, dec7 18556000, dec7 4681243, dec7 1873243]

/-- R, G and B of one pixel from its Y, Cb and Cr codes at 10 bits. -/
def toRgb (k : List W32) (y cb cr : Nat) : List W32 :=
  let q := fun (v : Nat) (o : Int) (d : Nat) => round32 ((FVal.ofInt ((v : Int) - o) 0).divBy d)
  let yv := q y 64 876
  let cbv := q cb 512 896
  let crv := q cr 512 896
  let r := f32fma crv (nth k 0 0) yv
  let b := f32fma cbv (nth k 1 0) yv
  [r, f32fma (f32neg (nth k 2 0)) crv (f32fma (f32neg (nth k 3 0)) cbv yv), b]

/-- The three channels of a picture. -/
def Picture.rgb (p : Picture) : List Plane :=
  let k := inverseConst p.bt2020
  let cw_ := (p.w + 1) / 2
  let ch_ := (p.h + 1) / 2
  let at_ := fun (i : Nat) => leAt p.samples (2 * i) 2 * (if p.deep then 1 else 4)
  let px := fun (y x : Nat) =>
    let c := (y / 2) * cw_ + x / 2
    toRgb k (at_ (y * p.w + x)) (at_ (p.w * p.h + c)) (at_ (p.w * p.h + cw_ * ch_ + c))
  (List.range 3).map (fun ch => (List.range p.h).map (fun y => (List.range p.w).map (fun x => nth (px y x) ch 0)))

/-- A frame halved by R219. -/
def Plane.halve (p : Plane) : Plane :=
  let h := p.length
  let w := ((p.head?).map List.length).getD 0
  (List.range (ceilDiv h 2)).map (fun y => (List.range (ceilDiv w 2)).map (fun x =>
    pyramidElem (fun yy xx => p.at_ yy xx) w h x y))

/-- The crop and its scale while a frame is reduced. -/
structure Crop where
  x : W32
  y : W32
  w : W32
  h : W32
  rx : W32
  ry : W32
deriving DecidableEq, Repr

/-- Halves a frame and its crop while max(rx, ry) > 2; the bound is above the number of halvings of any FP32
factor. -/
def reduceFrame : Nat → List Plane → Crop → List Plane × Crop
  | 0, ps, c => (ps, c)
  | n + 1, ps, c =>
    if f32below 0x40000000 (f32max c.rx c.ry) then
      let hf := fun v => f32mul v 0x3F000000
      reduceFrame n (ps.map Plane.halve)
        { x := hf c.x, y := hf c.y, w := hf c.w, h := hf c.h, rx := hf c.rx, ry := hf c.ry }
    else (ps, c)

/-- The source of output coordinate o: both clamped indices and the exact weight of the second. -/
def cropAt (r off : W32) (n o : Nat) : Nat × Nat × FVal :=
  let half : FVal := .fin false (2 * o + 1) 2 0
  let u := f32v (f32sub (round32 ((half.mul (f32v r)).add (f32v off))) 0x3F000000)
  let i0 := u.floor
  let clamp := fun (i : Int) => (min (max i 0) ((n : Int) - 1)).toNat
  (clamp i0, clamp (i0 + 1), u.add (FVal.ofInt (-i0) 0))

/-- a × second + (1 − a) × first, as R218 rounds it. -/
def blend (a : FVal) (first second : W32) : W32 :=
  let one : FVal := FVal.ofInt 1 0
  round32 ((a.mul (f32v second)).add (f32v (round32 ((one.add a.neg).mul (f32v first)))))

/-- One output element of a reduced channel. -/
def cropElem (p : Plane) (c : Crop) (flip : Bool) (gain bias : W32) (outW y o : Nat) : W32 :=
  let src := if flip then outW - 1 - o else o
  let w := ((p.head?).map List.length).getD 0
  let ax := cropAt c.rx c.x w src
  let ay := cropAt c.ry c.y p.length y
  let r0 := blend ax.2.2 (p.at_ ay.1 ax.1) (p.at_ ay.1 ax.2.1)
  let r1 := blend ax.2.2 (p.at_ ay.2.1 ax.1) (p.at_ ay.2.1 ax.2.1)
  f32fma (blend ay.2.2 r0 r1) gain bias

/-- One output frame: the three channels, row by row. -/
def cropFrame (p : Picture) (rec_ : List Byte) (outW outH : Nat) : List Plane :=
  let cw_ := augF rec_ 8
  let ch_ := augF rec_ 12
  let rx := round32 ((f32v cw_).divBy outW)
  let ry := round32 ((f32v ch_).divBy outH)
  let c : Crop := { x := augF rec_ 0, y := augF rec_ 4, w := cw_, h := ch_, rx := rx, ry := ry }
  let x := reduceFrame 256 p.rgb c
  x.1.map (fun pl => (List.range outH).map (fun y => (List.range outW).map (fun o =>
    cropElem pl x.2 (augFlip rec_) (augF rec_ 16) (augF rec_ 20) outW y o)))

/-- Converts a row to FMT: its bytes, and the row as it is stored. -/
def storeRow (fmt : Nat) (row : List W32) : List Byte × List W32 :=
  let codes := (convertRow fmt row (fun _ => none)).flatMap (·.codes)
  (packN (fmtBits fmt) codes, codes.map (fun c => round32 (decodeElem fmt c)))

/-- The levels of a slot image from one level on: the planes, channel by channel and frame by frame. -/
def imageLevels (fmt : Nat) : Nat → List Plane → List (List Byte)
  | 0, ps => [(ps.flatMap (fun p => p.flatMap (fun r => (storeRow fmt r).1)))]
  | n + 1, ps =>
    (ps.flatMap (fun p => p.flatMap (fun r => (storeRow fmt r).1))) ::
      imageLevels fmt n (ps.map (fun p => Plane.halve (p.map (fun r => (storeRow fmt r).2))))

/-- The shown frames of a sample in display order (R250). -/
def Sample.ranked (y : Sample) : List Picture :=
  (sortBy (fun (a b : Nat × Picture) => decide (a.1 < b.1)) y.shown).map (·.2)

/-- A slot image (R251). -/
def Stream.image (x : Stream) (rec_ : List Byte) (smp : Sample) : List Byte :=
  let frames := (List.range x.outT).map (fun k =>
    match smp.ranked[augFrame rec_ k]? with
    | some y => cropFrame y rec_ x.outW x.outH
    | none => [])
  let planes := (List.range 3).flatMap (fun ch => frames.map (fun f => nth f ch []))
  (imageLevels x.fmt x.levels planes).foldl (fun acc b =>
    acc ++ List.replicate (up64 acc.length - acc.length) 0 ++ b) []

/-! ### Samples -/

/-- Whether every byte has been received. -/
def Sample.complete (y : Sample) : Bool := y.bytes.length = y.total

/-- The bytes of a complete sample without its digest. -/
def Sample.content (y : Sample) : List Byte :=
  let bs := y.bytes.map (·.2)
  if y.digest then bs.take (y.total - 32) else bs

/-- Whether the digest of a complete sample matches. -/
def Sample.digestOk (y : Sample) : Bool :=
  !y.digest || (32 ≤ y.total && (shake256 y.content).take 32 == (y.bytes.map (·.2)).drop (y.total - 32))

/-- The frames of a raw sample (R248). -/
def Stream.rawFrames (x : Stream) (y : Sample) : List (Nat × Picture) :=
  let size := x.pitch * x.maxH * 3 / 2
  let bs := y.content
  (List.range y.frames).map (fun i =>
    let f := (bs.drop (i * size)).take size
    let plane := fun (off step w h : Nat) => (List.range h).flatMap (fun r => slice f (off + r * step) (2 * w))
    (i, { w := x.maxW, h := x.maxH, deep := true, bt2020 := false, bad := false,
          samples := plane 0 x.pitch x.maxW x.maxH ++ plane (x.pitch * x.maxH) (x.pitch / 2) (x.maxW / 2) (x.maxH / 2) ++
            plane (x.pitch * x.maxH * 5 / 4) (x.pitch / 2) (x.maxW / 2) (x.maxH / 2) }))

/-- How a decoded sample ends in a slot with a record: its reason decided by data (R252). -/
def Stream.judge (x : Stream) (rec_ : List Byte) (y : Sample) : Nat :=
  match y.result with
  | some 0 =>
    let need := (List.range x.outT).map (augFrame rec_)
    if need.any (fun k => ((y.ranked[k]?).map (·.bad)).getD false) then 1
    else if need.any (fun k => y.ranked.length ≤ k) then 5
    else 0
  | some k => k
  | none => 0

/-- The frames of a sample that were decoded and shown. -/
def Sample.decoded (y : Sample) : Nat := (y.shown.filter (fun p => !p.2.bad || p.2.samples != [])).length

/-- Whether the batch in progress may take a position: one of its slots, or with SOURCE 2 any that it has not passed; a
replay passes over positions that it drops again (R255, R258). -/
def Stream.inBatch (x : Stream) (pos : Nat) : Bool :=
  match x.batch with
  | none => false
  | some b =>
    if x.source = 2 then (if b.replay then x.position ≤ pos && pos < b.newPos else b.newPos ≤ pos)
    else b.slots.any (fun sl => sl.position == pos)

/-- Decides a complete sample of the batch that needs no decoder: a conflict, a digest, a raw sample. -/
def State.precheck (s : State) (n : Nat) (x : Stream) (y : Sample) : State :=
  if y.result.isSome || y.spent ≠ 0 || !y.complete || !x.inBatch y.position then s
  else if y.corrupt then s.modSample n y.position (fun y => { y with result := some 1 })
  else if !y.digestOk then
    (s.modSample n y.position (fun y => { y with result := some 1 })).bump 0x9029 0xC 1
  else if x.codec = 2 then
    if y.content.length ≠ y.frames * (x.pitch * x.maxH * 3 / 2) then
      s.modSample n y.position (fun y => { y with result := some 1 })
    else
      s.modSample n y.position (fun y =>
        { y with result := some 0, shown := x.rawFrames y, shownN := y.frames, spent := y.frames })
  else s

/-! ### Deciding slots -/

/-- Fails a batch's command. -/
def State.failBatch (s : State) (b : Batch) (code address : Nat) : State := s.failAt b.t b.q (code, address)

/-- Address of the slot record of a replayed manifest. -/
def Batch.recordAt (b : Batch) (j : Nat) : Nat := pf b.params 4 0 52 + 64 + 32 * j

/-- Decides slot j of a batch; a replay requires the recorded reason (R258). -/
def State.decideSlot (s : State) (n : Nat) (b : Batch) (j reason : Nat) (f : SlotSt → SlotSt) : State :=
  let want := ((b.slots[j]?).bind (·.expect))
  if want.isSome && want != some reason then s.failBatch b Config.errIngestReplay (b.recordAt j)
  else s.modBatch n (fun b => { b with slots := modNth b.slots j (fun y => { f y with reason := some reason }) })

/-- Decides the slots whose samples are decided. -/
def State.settle (s : State) (n : Nat) : State :=
  match kget s.ingest n with
  | none => s
  | some x =>
    match x.batch with
    | none => s
    | some b =>
      let s := s.each x.samples (fun s y => s.precheck n x y)
      s.each (List.range b.slots.length) (fun s j =>
        match (kget s.ingest n).bind (fun x => x.batch.map (fun b => (x, b))) with
        | none => s
        | some (x, b) =>
          match b.slots[j]? with
          | none => s
          | some sl =>
            if sl.reason.isSome then s
            else
              match x.sample sl.position with
              | none => s
              | some y =>
                if y.result.isNone then s
                else
                  s.decideSlot n b j (x.judge (nth b.aug j []) y) (fun sl =>
                    { sl with sampleId := y.sampleId, frames := y.decoded, range := y.range }))

/-- The reasons' counters. -/
def reasonCounter (r : Nat) : Nat := r + 1

/-- The slot whose image a replaced slot copies: the nearest lower slot that is OK. -/
def copySource (slots : List SlotSt) (j : Nat) : Option Nat :=
  ((List.range j).filter (fun i => ((slots[i]?).bind (·.reason)) == some 0)).getLast?

/-- A manifest slot record (R257). -/
def slotRecord (b : Batch) (j : Nat) (sl : SlotSt) : List Byte :=
  let ok := sl.reason == some 0
  let src := if ok || b.policy = 0 then 0xFFFF else (copySource b.slots j).getD 0xFFFF
  leBytes 8 sl.position ++ leBytes 8 sl.sampleId.toNat ++ leBytes 1 (sl.reason.getD 0) ++
    leBytes 1 ((if sl.range then 1 else 0) + (if sl.free then 2 else 0)) ++ leBytes 2 src ++ leBytes 2 sl.frames ++
    leBytes 2 0 ++ leBytes 4 0 ++ leBytes 4 (min sl.ageUs 0xFFFFFFFF)

/-- The manifest of a batch (R257). -/
def Stream.manifest (x : Stream) (n : Nat) (b : Batch) : List Byte :=
  leBytes 1 n ++ leBytes 1 x.source ++ leBytes 1 b.policy ++ leBytes 1 b.augCopy ++ leBytes 2 x.slotN ++
    leBytes 2 ((b.slots.filter (fun sl => sl.reason != some 0)).length) ++ leBytes 8 x.position ++ leBytes 8 b.newPos ++
    leBytes 8 b.admitted ++ leBytes 4 b.stale ++ leBytes 4 b.budget ++ leBytes 4 b.dropped ++ List.replicate 20 0 ++
    (b.slots.mapIdx (slotRecord b)).flatten ++ b.aug.flatten

/-- Writes a batch whose slots are all decided: slot images, copies and fill, the manifest; it commits at the next
sluice (R256). -/
def State.writeBatch (s : State) (n : Nat) : State :=
  match kget s.ingest n with
  | none => s
  | some x =>
    match x.batch with
    | none => s
    | some b =>
      if b.written || b.slots.length ≠ x.slotN || !b.slots.all (·.reason.isSome) then s
      else
        let image := fun (j : Nat) =>
          match (b.slots[j]?).bind (fun sl => x.sample sl.position) with
          | some y => x.image (nth b.aug j []) y
          | none => b.fill
        let fillOr := fun (j : Nat) (sl : SlotSt) =>
          if sl.reason = some 0 then image j
          else if b.policy = 0 then b.fill
          else match copySource b.slots j with
            | some i => image i
            | none => b.fill
        let out := pf b.params 0 0 52
        let stride := pf b.params 1 0 48
        let l := (b.slots.mapIdx (fun j sl => (out + j * stride, fillOr j sl))) ++
          [(pf b.params 2 0 52, x.manifest n b)]
        match s.opWrites b.t b.q l with
        | none => s
        | some s =>
          let s := s.each b.slots (fun s sl => s.bump 0x9029 (reasonCounter (sl.reason.getD 0)) 1)
          let s := s.bump 0x9029 0xD (if b.replay then 1 else 0)
          let s := s.modBatch n (fun b => { b with written := true })
          (s.results b.t b.q b.newPos 0).modRun b.t b.q (fun r => { r with opDone := true })

/-- What follows from new samples and decodings. -/
def State.advanceBatch (s : State) (n : Nat) : State := (s.settle n).writeBatch n

/-! ### INGEST_BATCH -/

/-- The words of INGEST_BATCH for a stream. -/
def batchWords (x : Stream) (ps : List W64) : Option Nat :=
  let f := pf ps
  badWord
    [(0, f 0 52 7 = 0 && f 0 0 52 % 64 = 0), (1, f 1 48 16 = 0 && f 1 0 48 % 64 = 0 && x.imageSize ≤ f 1 0 48),
     (2, f 2 52 12 = 0 && f 2 0 52 % 64 = 0), (3, if x.source = 0 then (pw ps 3).toNat % 32 = 0 else pw ps 3 == 0),
     (4, f 4 52 12 = 0 && (f 0 59 1 = 1 || f 4 0 52 = 0)), (5, pw ps 5 == 0), (6, pw ps 6 == 0), (7, pw ps 7 == 0)]

/-- The slots that a batch begins with: positions from P on, none yet for a live stream. -/
def Stream.firstSlots (x : Stream) : List SlotSt :=
  if x.source = 2 then []
  else (List.range x.slotN).map (fun j =>
    { position := x.position + j, sampleId := 0, reason := none, expect := none, frames := 0, free := false,
      range := false, ageUs := 0 })

/-- The slots of a replayed manifest (R258). -/
def replaySlots (m : List Byte) (n : Nat) : List SlotSt :=
  (List.range n).map (fun j =>
    let r := slice m (64 + 32 * j) 32
    let reason := leAt r 16 1
    let timed := reason = 2 || reason = 3 || reason = 4
    { position := leAt r 0 8, sampleId := BitVec.ofNat 64 (leAt r 8 8), reason := if timed then some reason else none,
      expect := some reason, frames := leAt r 20 2, free := false, range := leAt r 17 1 % 2 = 1, ageUs := 0 })

/-- The first slot record of a manifest of n slots whose reserved bits are set (R6, R257). -/
def badRecord (m : List Byte) (n : Nat) : Option Nat :=
  (List.range n).find? (fun j =>
    let r := slice m (64 + 32 * j) 32
    leAt r 22 2 ≠ 0 || leAt r 17 1 / 4 ≠ 0 || leAt r 24 4 ≠ 0)

/-- The pages that a batch reads (R242, R203): the records it applies, the fill image, the manifest to replay. -/
def Stream.batchPages (x : Stream) (ps : List W64) : List Nat :=
  let replay := pf ps 0 59 1 = 1
  let fill := pf x.words 6 0 52
  (if replay then pagesOf (pf ps 4 0 52) (64 + 64 * x.slotN)
   else pagesOf (if x.augB then pf x.words 5 0 52 else pf x.words 4 0 52) (32 * x.slotN)) ++
    (if fill = 0 then [] else pagesOf fill x.imageSize)

/-- What a batch needs from memory: the manifest to replay, the augmentation records, the fill image. -/
def State.batchInputs (s : State) (t : Fin 4) (x : Stream) (n : Nat) (ps : List W64) :
    Except Bad (List Byte × List (List Byte) × List Byte) := do
  let size := 64 + 64 * x.slotN
  let replay := pf ps 0 59 1 = 1
  let src := pf ps 4 0 52
  let m ← if replay then s.getT t src size else .ok []
  need (!replay || (leAt m 0 1 == n && leAt m 1 1 == x.source && leAt m 4 2 == x.slotN && leAt m 8 8 == x.position &&
    ofLe (Machine.slice m 44 20) == 0)) (Config.errIngestReplay, src)
  match if replay then badRecord m x.slotN else none with
  | some j => .error (Config.errIngestReplay, src + 64 + 32 * j)
  | none =>
  let base := if replay then src + 64 + 32 * x.slotN else if x.augB then pf x.words 5 0 52 else pf x.words 4 0 52
  let recs ← s.getT t base (32 * x.slotN)
  let aug := chunks 32 x.slotN recs
  match aug.findIdx? (fun r => !augOk r) with
  | some j => .error (if replay then Config.errIngestReplay else Config.errIngestInvalid, base + 32 * j)
  | none =>
    let fill := pf x.words 6 0 52
    let img ← if fill = 0 then .ok (List.replicate x.imageSize 0) else s.getT t fill x.imageSize
    .ok (m, aug, img)

/-- INGEST_BATCH. -/
def ingestBatchCheck : OpCheck := fun s t q r =>
  s.withBlock t r Config.errIngestInvalid (fun _ => none) (fun ps =>
    let base := cwn r.words 8
    let n := pf ps 0 60 4
    match s.ownStream t n with
    | none => .fail Config.errIngestContext base 0
    | some x =>
      match batchWords x ps with
      | some i => .fail Config.errIngestInvalid (base + 8 * i) 0
      | none =>
        if s.streamBusy t n x then .pass
        else
          match s.batchInputs t x n ps with
          | .error e => .fail e.1 e.2 0
          | .ok (m, aug, fill) =>
            let replay := pf ps 0 59 1 = 1
            let buffers := match x.codecCtx.bind (kget s.codec) with
              | some c => c.pages
              | none => []
            let slots := (List.range x.slotN).flatMap (fun j => pagesOf (pf ps 0 0 52 + j * pf ps 1 0 48) x.imageSize)
            s.claimLazy t q (slots ++ pagesOf (pf ps 2 0 52) (64 + 64 * x.slotN) ++ buffers) (fun s =>
              let b : Batch :=
                { t := t, q := q, params := ps, admitted := s.tick.count
                  stale := if replay then leAt m 32 4 else s.odn 0x6001 1
                  budget := if replay then leAt m 36 4 else s.odn 0x6001 2
                  policy := if replay then leAt m 2 1 else s.odn 0x6001 3
                  augCopy := if replay then leAt m 3 1 else if x.augB then 1 else 0
                  aug := aug, fill := fill, replay := replay
                  newPos := if replay then leAt m 16 8 else if x.source = 2 then x.position else x.position + x.slotN
                  slots := if replay then replaySlots m x.slotN else x.firstSlots
                  dropped := if replay then leAt m 40 4 else 0, hostList := [], written := false }
              let s := (s.pinReads t q (x.batchPages ps)).modStream n (fun x => { x with batch := some b })
              let s := match x.codecCtx with
                | some c => s.modCodec c (fun c => { c with job := some (c.newJob t q ps []) })
                | none => s
              let s := (s.stage t q [.ingestCommit n]).advanceBatch n
              .admitted s (((kget s.ingest n).bind (·.batch)).map (·.written) |>.getD false)))

/-- The sample list that the module has read from the host (R245); a bad descriptor fails the batch. -/
def State.giveList (s : State) (t : Fin 4) (q : Fin 64) (l : List (List W64)) : State :=
  match s.ingest.find? (fun x => ((x.2.batch).map (fun b => b.t == t && b.q == q)).getD false) with
  | none => s
  | some (n, x) =>
    match x.batch with
    | none => s
    | some b =>
      if x.source ≠ 0 || !b.hostList.isEmpty || l.length < x.slotN then s
      else
        let l := l.take x.slotN
        let bad := l.findIdx? (fun d =>
          wbits (nth d 2 0) 32 32 = 0 || wbits (nth d 2 0) 16 16 = 0 || wbits (nth d 2 0) 1 15 != 0 || nth d 3 0 != 0)
        match bad with
        | some j => s.failBatch b Config.errIngestInvalid ((pw b.params 3).toNat + 32 * j)
        | none => s.modBatch n (fun b => { b with
            hostList := l
            slots := b.slots.mapIdx (fun j sl => if sl.reason.isSome then sl else { sl with sampleId := nth (nth l j []) 1 0 }) })

/-- INGEST_BATCH's row: the batch is admitted, and the host's list of samples has been read. -/
def execIngestBatch (t : Fin 4) (q : Fin 64) (hostList : List (List W64)) (s : State) :
    Host.Outcome State Fault Refusal :=
  .next ((s.offerRow t q 0x39 ingestBatchCheck).giveList t q hostList)

/-! ### Arrival -/

/-- HOST_SAMPLE_READ_DONE (R245): the bytes of a slot's sample, or an error of the read, of its descriptor too. -/
def execHostSampleReadDone (stream : Fin 16) (slot : Nat) (bytes : Option (List Byte)) (s : State) :
    Host.Outcome State Fault Refusal :=
  .next (match kget s.ingest stream.val with
    | none => s
    | some x =>
      match x.batch with
      | none => s
      | some b =>
        match b.slots[slot]? with
        | none => s
        | some sl =>
          if x.source ≠ 0 || sl.reason.isSome || (x.sample sl.position).isSome then s
          else
            match bytes, b.hostList[slot]? with
            | none, d =>
              (s.decideSlot stream.val b slot 4 (fun sl => { sl with sampleId := nth (d.getD []) 1 0 })).writeBatch stream.val
            | some _, none => s
            | some bs, some d =>
              let total := wbits (nth d 2 0) 32 32
              let y : Sample :=
                { position := sl.position, sampleId := nth d 1 0, total := total, frames := wbits (nth d 2 0) 16 16
                  digest := (nth d 2 0).getLsbD 0, captureS := 0, captureNs := 0
                  bytes := (Machine.slice bs 0 total).mapIdx (fun i v => (i, v)), corrupt := false
                  completeTick := some s.tick.count, arrivedNs := s.tick.localNs, spent := 0, shownN := 0, seqs := 0
                  shown := [], range := false, result := none }
              (s.modStream stream.val (fun x => { x with samples := x.samples ++ [y] })).advanceBatch stream.val)

/-- Whether a batch has already taken a position (R247): passed it, decided its slot, or begun its sample. -/
def Stream.taken (x : Stream) (pos : Nat) : Bool :=
  match x.batch with
  | none => false
  | some b =>
    (x.source = 2 && !b.replay && pos < b.newPos) || b.slots.any (fun sl => sl.position == pos && sl.reason.isSome) ||
    (x.inBatch pos && ((x.sample pos).map (fun y => y.spent != 0 || y.result.isSome)).getD false)

/-- Adds a fragment to a sample (R247). -/
def Sample.addBytes (y : Sample) (off : Nat) (bs : List Byte) : Sample × Bool :=
  let x := bs.mapIdx (fun i v => (off + i, v))
  let clash := x.any (fun p => match kget y.bytes p.1 with | some v => v != p.2 | none => false)
  let new := x.filter (fun p => (kget y.bytes p.1).isNone)
  ({ y with bytes := new.foldl (fun m p => kset m p.1 p.2) y.bytes, corrupt := y.corrupt || clash }, clash)

/-- INGEST_DATAGRAM (R246, R247). -/
def execIngestDatagram (port : Fin 3) (datagram : List Byte) (s : State) : Host.Outcome State Fault Refusal :=
  .next (
    let f := leAt datagram
    let n := f 1 1
    let discard := s.bump 0x9029 9 1
    if port.val = 2 || s.health.failedUnits.contains 4 then s
    else
      match kget s.ingest n with
      | none => discard
      | some x =>
        let pos := f 8 8
        let total := f 24 4
        let off := f 28 4
        let body := datagram.drop 48
        let old := x.sample pos
        let used := ((x.samples.filter (fun y => y.position != pos)).map (·.total)).sum
        if datagram.length < 48 || f 0 1 ≠ 1 || 15 < n || !x.visible || x.source = 0 || f 2 2 ≠ pf x.words 4 52 12 ||
            pos < x.position || x.position + 4 * x.slotN ≤ pos || total < off + body.length ||
            (old.map (fun y => y.total != total || y.sampleId != BitVec.ofNat 64 (f 16 8))).getD false || total = 0 ||
            x.rxBytes < used + total then discard
        else if x.taken pos then s.bump 0x9029 0xA 1
        else
          let y : Sample := old.getD
            { position := pos, sampleId := BitVec.ofNat 64 (f 16 8), total := total, frames := f 6 2
              digest := f 4 2 % 2 = 1, captureS := f 32 8, captureNs := f 40 4, bytes := [], corrupt := false
              completeTick := none, arrivedNs := 0, spent := 0, shownN := 0, seqs := 0, shown := [], range := false, result := none }
          let z := y.addBytes off body
          let w := if z.1.complete && y.completeTick.isNone then
              { z.1 with completeTick := some s.tick.count, arrivedNs := s.tick.localNs }
            else z.1
          let s := s.bump 0x9029 0xB (if z.2 then 1 else 0)
          let s := s.modStream n (fun x => { x with
            samples := sortBy (fun (a b : Sample) => decide (a.position < b.position))
              ((x.samples.filter (fun y => y.position != pos)) ++ [w]) })
          s.advanceBatch n)

/-! ### Decoding for a stream (R228, R248, R253) -/

/-- Whether the sample at a position can be decoded. -/
def Stream.ready (x : Stream) (pos : Nat) : Bool :=
  ((x.sample pos).map (fun y => y.complete && y.result.isNone && !y.corrupt && y.digestOk)).getD false

/-- Whether the decoder of a stream of SOURCE 2 goes past a position (R255, R258): its sample is decided, or, in a
replay, its slot is, or it fills no slot and its sample has not come within WAIT_TICKS of the admission. -/
def Stream.passes (x : Stream) (b : Batch) (now pos : Nat) : Bool :=
  ((x.sample pos).map (fun y => y.result.isSome)).getD false ||
  (b.replay &&
    (match b.slots.find? (fun sl => sl.position == pos) with
     | some sl => sl.reason.isSome
     | none => !((x.sample pos).map Sample.complete).getD false && b.admitted + x.wait ≤ now))

/-- The position of the sample that the decoder works on next: with SOURCE 2 the positions in ascending order, each once
it is complete, those that a replay drops among them (R248, R255, R258). -/
def Stream.decodePos (x : Stream) (now : Nat) : Option Nat :=
  match x.batch with
  | none => none
  | some b =>
    if b.written || x.codec = 2 then none
    else
      let ready := x.ready
      if x.source = 2 then
        let first := if b.replay then x.position else b.newPos
        let n := if b.replay then b.newPos - x.position else x.slotN - b.slots.length
        (((List.range n).map (· + first)).find? (fun pos => !x.passes b now pos)).filter ready
      else
        let l := (b.slots.filter (fun sl => sl.reason.isNone && ready sl.position)).map (·.position)
        ((l.find? (fun pos => ((x.sample pos).map (fun y => y.spent != 0)).getD false)).orElse (fun _ => l.head?))

/-- Reads a picture from a buffer. -/
def State.picture (s : State) (reach : Nat → Reach) (c : CodecCtx) (a w h : Nat) : List Byte :=
  let plane := fun (off step w h : Nat) => (List.range h).flatMap (fun y => s.readVia reach (a + off + y * step) (2 * w))
  plane 0 c.pitch w h ++ plane (c.pitch * c.maxH) (c.pitch / 2) ((w + 1) / 2) ((h + 1) / 2) ++
    plane (c.pitch * c.maxH * 5 / 4) (c.pitch / 2) ((w + 1) / 2) ((h + 1) / 2)

/-- A decode unit has finished a frame of a stream's sample; none while a fresh page is not to be had. -/
def State.ingestFrame (s : State) (n cn : Nat) (x : Stream) (c : CodecCtx) (j : CodecJob) (pos : Nat) : Option State :=
  match x.sample pos with
  | none => some s
  | some y =>
    let live := x.source = 2
    let fresh := y.spent = 0
    let content := y.content
    let used := if fresh then 0 else j.consumed
    let j := if fresh && !live then
        { j with history := [], decodeIndex := 0, buffers := j.buffers.map (fun b => { b with mark := 0 }) }
      else j
    let din := { c.decIn j with rest := content.drop used }
    let reach := s.reachSlice (opRef j.t j.q)
    if !s.unitReady reach din then
      some ((s.modCodec cn (fun c => { c with job := some j })).modSample n pos (fun y =>
        { y with result := some 0, spent := y.spent + 1 }))
    else
      let o := s.decodeFrame reach din
      let f := fun k => s.decField reach din k 0 0
      let seqs := y.seqs + (if c.hevc && f 23 % 2 = 1 then 1 else 0)
      -- by PicOrderCntVal within its coded video sequence for HEVC, as shown for AV1
      let key := if c.hevc then seqs * 2 ^ 32 + (f 2 + 2 ^ 31) % 2 ^ 32 else y.shownN
      let place := (y.shown.filter (fun p => p.1 < key)).length
      (s.opWrites j.t j.q o.writes).map (fun s =>
        let s := s.countFrame o
        let bad := o.flags / 4 % 64 != 0
        let pic : Picture :=
          { w := f 3, h := f 4, deep := f 5 = 10, bt2020 := f 18 % 2 = 1, bad := bad
            samples := match o.shown.bind (fun k => j.buffers[k]?) with
              | some b => s.picture (s.reachSlice (opRef j.t j.q)) c b.address (f 3) (f 4)
              | none => [] }
        let needed := fun (rec_ : List Byte) => ((List.range x.outT).map (augFrame rec_)).contains place
        let recs := (x.batch.map (·.aug)).getD []
        -- the slot of a sample of SOURCE 2 is known only when it is taken: its frame is needed when every record needs it
        let wanted := if live then recs.all needed
          else needed (nth recs (((x.batch.map (·.slots)).getD []).findIdx (fun sl => sl.position == pos)) [])
        let abandon := o.wouldShow && bad && wanted
        let ended := (content.drop (used + o.bytes)).isEmpty
        let j' := { j with
          consumed := used + o.bytes
          history := j.history ++ (content.drop used).take o.bytes
          decodeIndex := j.decodeIndex + 1
          buffers := o.buffers.map (fun b => { b with mark := b.mark &&& 0x7FFF }) }
        (s.modCodec cn (fun c => { c with job := some j' })).modSample n pos (fun y =>
          { y with
            spent := y.spent + 1
            shownN := y.shownN + (if o.wouldShow then 1 else 0)
            seqs := seqs
            shown := if o.wouldShow then y.shown ++ [(key, pic)] else y.shown
            range := y.range || f 19 % 2 = 1
            result := if abandon then some 1 else if ended then some 0 else none }))

/-- Whether a context has work for its unit: a command's frame, or a stream's sample. -/
def State.ctxPending (s : State) (c : CodecCtx) : Bool :=
  match c.stream with
  | some n => ((kget s.ingest n).bind (·.decodePos s.tick.count)).isSome && c.job.isSome
  | none => (c.job.map (fun j => j.stop.isNone)).getD false

/-- One frame, or one attempt, of a context. -/
def State.serve (s : State) (cn : Nat) (c : CodecCtx) : Option State :=
  match c.job with
  | none => none
  | some j =>
    match c.stream with
    | some n =>
      match kget s.ingest n with
      | none => none
      | some x =>
        match x.decodePos s.tick.count with
        | none => none
        | some pos => (s.ingestFrame n cn x c j pos).map (·.advanceBatch n)
    | none => if c.encode then s.encodeNext cn c j else s.decodeNext cn c j

/-- The context that a unit serves next: the one whose frame it is encoding again, else in round-robin order of context
number after the one served last, frame by frame (R228). -/
def State.nextCtx (s : State) (encode : Bool) (engine key : Nat) : Option (Nat × CodecCtx) :=
  let l := s.codec.filter (fun x =>
    x.2.visible && x.2.encode == encode && (x.2.engine == engine || x.2.engine == 4) && s.ctxPending x.2)
  (l.find? (fun x => (x.2.job.map (fun j => j.attempt != 0)).getD false)).orElse (fun _ =>
    match kget s.lastServed key with
    | some last => (l.find? (fun x => last < x.1)).orElse (fun _ => l.head?)
    | none => l.head?)

/-- CODEC_FRAME_DONE. -/
def execCodecFrameDone (unit : UnitKind) (engine : Fin 4) (s : State) : Host.Outcome State Fault Refusal :=
  .next (
    let encode := unit == .encode
    let key := (if encode then 4 else 0) + engine.val
    if s.health.failedUnits.contains engine.val then s
    else
    match s.nextCtx encode engine.val key with
    | none => s
    | some (n, c) =>
      match s.serve n c with
      | none => s
      | some s => { s with lastServed := kset s.lastServed key n })

/-- DECODE_BUDGET_EXPIRY (R253): the sample that holds the decoder is abandoned. -/
def execDecodeBudgetExpiry (stream : Fin 16) (s : State) : Host.Outcome State Fault Refusal :=
  .next (match kget s.ingest stream.val with
    | none => s
    | some x =>
      match x.decodePos s.tick.count, x.batch with
      | some pos, some b =>
        if b.replay then s
        else (s.modSample stream.val pos (fun y => { y with result := some 2 })).advanceBatch stream.val
      | _, _ => s)

/-! ### Waits and live streams (R253, R255) -/

/-- Slots whose samples are not complete WAIT_TICKS after admission are ABSENT; a replay fails (R253, R258). -/
def State.arrivalWait (s : State) (n : Nat) : State :=
  match kget s.ingest n with
  | none => s
  | some x =>
    match x.batch with
    | none => s
    | some b =>
      if x.source = 0 || s.tick.count < b.admitted + x.wait || (x.source = 2 && !b.replay) then s
      else
        let missing := (List.range b.slots.length).filter (fun j =>
          match b.slots[j]? with
          | some sl => sl.reason.isNone && !((x.sample sl.position).map Sample.complete).getD false
          | none => false)
        match b.replay, missing with
        | true, j :: _ => s.failBatch b Config.errIngestReplay (b.recordAt j)
        | _, _ =>
          (s.each missing (fun s j =>
            match (kget s.ingest n).bind (fun x => x.batch.map (fun b => (x, b))) with
            | some (x, b) => s.decideSlot n b j 3 (fun sl => { sl with sampleId := ((x.sample sl.position).map (·.sampleId)).getD 0 })
            | none => s)).writeBatch n

/-- The time of the present boundary in ns of the PTP timescale (R28). -/
def State.boundaryNs (s : State) : Nat :=
  s.tick.anchorS * 1000000000 + s.tick.anchorNs + (s.tick.count - s.tick.anchorTick) * s.tick.periodN * 125000

/-- Takes the next decoded frame of a live stream, or skips its position (R255); none when there is nothing to
take. -/
def State.liveTake (s : State) (n : Nat) : Option State :=
  match (kget s.ingest n).bind (fun x => x.batch.map (fun b => (x, b))) with
  | none => none
  | some (x, b) =>
    if x.source ≠ 2 || b.replay || b.written || x.slotN ≤ b.slots.length then none
    else
      let pos := b.newPos
      let step := fun (s : State) (dropped : Nat) (sl : List SlotSt) =>
        s.modBatch n (fun b => { b with newPos := pos + 1, dropped := b.dropped + dropped, slots := b.slots ++ sl })
      match x.sample pos with
      | some y =>
        if y.result.isSome then
          let free := s.tick.sync = 0
          let age := if free then s.tick.localNs - y.arrivedNs
            else s.boundaryNs - (y.captureS * 1000000000 + y.captureNs)
          if b.stale * 1000 < age then some ((step s 1 []).bump 0x9029 7 1)
          else
            some (step s 0 [{ position := pos, sampleId := y.sampleId
                              reason := some (x.judge (nth b.aug b.slots.length []) y), expect := none
                              frames := y.decoded, free := free, range := y.range, ageUs := age / 1000 }])
        else if !y.complete && x.samples.any (fun z => pos < z.position &&
            (z.completeTick.map (fun k => decide (k + x.wait ≤ s.tick.count))).getD false) then
          some ((step s 1 []).bump 0x9029 8 1)
        else none
      | none =>
        if x.samples.any (fun z => pos < z.position && (z.completeTick.map (fun k => decide (k + x.wait ≤ s.tick.count))).getD false)
        then some ((step s 1 []).bump 0x9029 8 1)
        else none

/-- Takes while there is something to take. -/
def State.liveTakes (s : State) (n : Nat) : Nat → State
  | 0 => s
  | k + 1 =>
    match s.liveTake n with
    | some s => s.liveTakes n k
    | none => s

/-- What a stream does at a boundary: live frames are taken, waits end. -/
def State.streamBoundary (s : State) (n : Nat) : State :=
  match kget s.ingest n with
  | none => s
  | some x =>
    let s := if x.batch.isSome then s.each x.samples (fun s y => s.precheck n x y) else s
    ((s.liveTakes n (4 * x.slotN)).arrivalWait n).advanceBatch n

/-- ARRIVAL_WAIT_EXPIRY. -/
def execArrivalWaitExpiry (stream : Fin 16) (s : State) : Host.Outcome State Fault Refusal :=
  .next (s.streamBoundary stream.val)

/-! ### Commit -/

/-- The commit of a batch (R256): the data position advances, and the samples it took are gone. -/
def State.commitIngest (s : State) (n : Nat) : State :=
  match (kget s.ingest n).bind (fun x => x.batch.map (fun b => (x, b))) with
  | none => s
  | some (x, b) =>
    let s := s.modStream n (fun x => { x with
      position := b.newPos
      batch := none
      samples := x.samples.filter (fun y => b.newPos ≤ y.position) })
    let s := { s with ingestPos := kset s.ingestPos n b.newPos }
    match x.codecCtx with
    | some c => s.modCodec c CodecCtx.commit
    | none => s

/-- A batch that is discarded: its decoding is undone, and what it read from the host is dropped (R245). -/
def State.dropBatch (s : State) (n : Nat) : State :=
  match kget s.ingest n with
  | none => s
  | some x =>
    let s := s.modStream n (fun x => { x with
      batch := none
      samples := if x.source = 0 then [] else
        x.samples.map (fun y => { y with spent := 0, shownN := 0, seqs := 0, shown := [], range := false, result := none }) })
    match x.codecCtx with
    | some c => s.modCodec c (fun c => { c with job := none })
    | none => s

end Sys2Proof.Machine
end

