-- ==== Sys2Proof/Machine/RecordCmd.lean ====
section
/-! DEFINITION. The module's signature (R375), attestation reports (R392), and generation records: RECORD_OPEN and
RECORD_CLOSE (R115, R394 to R397). -/
namespace Sys2Proof.Machine

open Sys2Proof

/-! ### Signing and reports -/

/-- A hedged ML-DSA-65 signature of the identity key over a message (R375); each takes a new free value. -/
def State.sign (s : State) (m : List Byte) : List Byte × State :=
  ((List.range 3309).map (Config.mldsaSignByte s.free s.fuses.identitySeed m), { s with free := s.free + 1 })

/-- The body of a report (R392); tenancy 0xFF for one over Ethernet. -/
def State.reportBody (s : State) (tenancy : Nat) (nonce : List Byte) : List Byte :=
  let m := s.mem.model
  let z := List.replicate 32 (0 : Byte)
  let config := match (List.finRange 4).find? (fun t => t.val == tenancy) with
    | some t => s.od.configDigest[t]
    | none => z
  leBytes 1 1 ++ leBytes 1 1 ++ u16b (s.odn 0x1000 1) ++ leBytes 1 0x43 ++ leBytes 1 s.fwImage ++ u16b 3 ++
    u64b s.fuses.serial.toNat ++ u32b s.fwVersion ++ u16b s.rollbackCount ++ leBytes 1 s.install.state ++
    leBytes 1 tenancy ++ u64b s.tick.count ++ u64b (if m.sealedNow then m.sealTick else 0) ++ s.fwDigest ++
    (if m.sealedNow then m.digest else z) ++ (if m.sealedNow then m.publisher else z) ++ romDigest ++ config ++
    Machine.slice nonce 0 32 ++ List.replicate 24 0

/-- A signed report (R392). -/
def State.report (s : State) (tenancy : Nat) (nonce : List Byte) : List Byte × State :=
  let b := s.reportBody tenancy nonce
  let x := s.sign b
  (b ++ x.1 ++ List.replicate 3 0, x.2)

/-! ### Range lists (R361, R394) -/

/-- The ranges of a list of 16-byte entries. -/
def State.rangeList (s : State) (t : Fin 4) (a n : Nat) : List (Nat × Nat) :=
  (List.range n).map (fun i => (s.numT t (a + 16 * i) 8, s.numT t (a + 16 * i + 8) 8))

/-- Whether two ranges are disjoint. -/
def apart (x y : Nat × Nat) : Bool := x.1 + x.2 ≤ y.1 || y.1 + y.2 ≤ x.1

/-- Whether the ranges of a list are pairwise disjoint. -/
def allApart : List (Nat × Nat) → Bool
  | [] => true
  | x :: r => r.all (apart x) && allApart r

/-- Whether ranges are aligned, of a permitted length, mapped, outside the model window, and disjoint. -/
def State.rangesOk (s : State) (t : Fin 4) (align : Nat) (l : List (Nat × Nat)) : Bool :=
  l.all (fun x =>
    x.1 < 2 ^ 52 && x.1 % align == 0 && 1 ≤ x.2 && x.2 ≤ 2 ^ 40 && x.2 % align == 0 && x.1 + x.2 ≤ Config.modelBase &&
    (s.checkT t x.1 x.2).isNone) && allApart l

/-- What is wrong with a list: its own pages, or its entries, which report the operand. -/
def State.listError (s : State) (t : Fin 4) (a n align : Nat) : Option Bad :=
  if n = 0 then none
  else
    match s.checkT t a (16 * n) with
    | some (x, e) => some (e, x)
    | none =>
      let l := s.rangeList t a n
      match (l.flatMap (fun x => pagesOf (x.1 % 2 ^ 52) (min x.2 (2 ^ 40)))).find? s.modelGone with
      | some v => some (Config.errModelAbsent, v * Config.pageBytes)
      | none => if s.rangesOk t align l then none else some (Config.errRecordInvalid, a)

/-- A range table of 48-byte entries; range i has the context c + i (R362). -/
def State.rangeTable (s : State) (t : Fin 4) (c : Nat) (l : List (Nat × Nat)) : List (Nat × Nat × List Byte) :=
  l.mapIdx (fun i x => (x.1, x.2, treeDigest (s.readT t x.1 x.2) (c + i)))

/-- The bytes of a range table. -/
def rangeTableBytes (l : List (Nat × Nat × List Byte)) : List Byte :=
  l.flatMap (fun x => u64b x.1 ++ u64b x.2.1 ++ x.2.2)

/-! ### RECORD_OPEN -/

/-- Fails with the value of an operand. -/
def recBad (a : Nat) : OpAnswer := .fail Config.errRecordInvalid a 0

/-- The bytes that a record of n commands may take, with the largest range counts. -/
def recordArea (n : Nat) : Nat := 4336 + 48 * 128 + 96 * n

/-- The SEED and PASS of the 64 random streams of Tt. -/
def State.streamSeeds (s : State) (t : Fin 4) : List (Nat × Nat) :=
  (List.range 64).map (fun n => (s.odt t 0xA060 (2 * n + 1), s.odt t 0xA060 (2 * n + 2)))

/-- What is wrong with the operands that open a record. -/
def State.recordOpenError (s : State) (t : Fin 4) (ws : List W64) : Option Bad :=
  let c := cwn ws
  let e := fun (i : Nat) => some (Config.errRecordInvalid, c i)
  if s.tens[t].record.isSome || s.anyRun t (fun r => r.effects.any (fun x => match x with | .recordOpen _ => true | _ => false)) then e 8
  else if c 8 % 64 ≠ 0 then e 8
  else if c 13 < 1 || 1048576 < c 13 then e 13
  else if c 9 < recordArea (c 13) then e 9
  else if 64 < c 11 then e 11
  else s.listError t (c 10) (c 11) 1

/-- RECORD_OPEN. What it digests is pinned before room is made for the report (R203). -/
def recordOpenCheck : OpCheck := fun s t q r =>
  let c := cwn r.words
  match (if c 8 = 0 then none else s.recordOpenError t r.words) with
  | some e => .fail e.1 e.2 0
  | none =>
    if c 14 % 64 ≠ 0 then recBad (c 14)
    else if c 8 ≠ 0 && !s.mem.model.sealedNow then .fail Config.errModelAbsent 0 0
    else
      match (if c 12 = 0 then none else s.checkT t (c 12) 32) with
      | some (a, e) => .fail e a 0
      | none =>
        let nonce := if c 12 = 0 then List.replicate 32 0 else s.readT t (c 12) 32
        let outs := if c 14 = 0 then [] else partOuts (c 14) 3568
        match outs.findSome? (s.outError t) with
        | some e => .fail e.1 e.2 0
        | none =>
          let l := if c 8 = 0 then [] else s.rangeList t (c 10) (c 11)
          (s.pinReads t q (pagesOfRanges l)).claim t q outs (fun s =>
            let s := if c 14 = 0 then s
              else
                let x := s.report t.val nonce
                x.2.writeFresh t q (c 14) x.1
            if c 8 = 0 then .admitted (s.results t q (recordArea (c 13)) 0) false
            else
              let g : GenRecord :=
                { area := c 8, cap := c 13, openTick := s.tick.count, closing := false, fwDigest := s.fwDigest
                  modelDigest := s.mem.model.digest, publisher := s.mem.model.publisher
                  config := s.od.configDigest[t], nonce := nonce, streams := s.streamSeeds t
                  inputs := s.rangeTable t 0 l, cmds := [] }
              .admitted ((s.stage t q [.recordOpen g]).results t q (recordArea (c 13)) 0) false)

/-- RECORD_OPEN's row. -/
def execRecordOpen (t : Fin 4) (q : Fin 64) (s : State) : Host.Outcome State Fault Refusal :=
  .next (s.offerRow t q 0x40 recordOpenCheck)

/-! ### RECORD_CLOSE -/

/-- Recorded commands in record order: ascending QUEUE, then ORDINAL. -/
def recordOrder (l : List RecEntry) : List RecEntry :=
  sortBy (fun (a b : RecEntry) => decide (a.queue < b.queue || (a.queue = b.queue && a.ordinal < b.ordinal))) l

/-- A tile entry's bytes (R115). -/
def tileBytesRec (x : TileEntry) : List Byte :=
  leBytes 1 ((if x.outliers then 1 else 0) + (if x.overflow then 2 else 0)) ++ leBytes 1 x.width ++ u16b x.ordinal ++
    u32b x.slice ++ u64b x.strand

/-- The order of tile entries: SLICE_INDEX, strand, drain ordinal. -/
def tileLt (a b : TileEntry) : Bool :=
  a.slice < b.slice || (a.slice == b.slice && (a.strand < b.strand || (a.strand == b.strand && a.ordinal < b.ordinal)))

/-- The fallback digest (R115). -/
def fallbackDigest (l : List RecEntry) : List Byte :=
  shake256 ((l.mapIdx (fun i e =>
    u32b i ++ u32b e.tiles.length ++ (sortBy tileLt e.tiles).flatMap tileBytesRec)).flatten)

/-- A command entry (R397). -/
def recEntryBytes (e : RecEntry) : List Byte :=
  leBytes 1 e.queue ++ leBytes 1 e.opcode ++ leBytes 1 e.layer ++ leBytes 1 e.fallback ++ u32b e.ordinal ++
    u32b e.keyStream ++ u32b (if e.advance then 1 else 0) ++ u64b e.firstTick ++ u64b e.lastTick ++ e.digest ++ e.config

/-- A record up to its signature (R397). -/
def State.recordBytes (s : State) (t : Fin 4) (g : GenRecord) (outs : List (Nat × Nat × List Byte)) : List Byte :=
  let l := recordOrder g.cmds
  leBytes 1 1 ++ leBytes 1 2 ++ u16b (s.odn 0x1000 1) ++ leBytes 1 0x43 ++ leBytes 1 t.val ++ u16b 3 ++
    u64b s.fuses.serial.toNat ++ u32b s.fwVersion ++ u16b g.inputs.length ++ u16b outs.length ++ u32b l.length ++
    u32b 0 ++ u64b g.openTick ++ u64b s.tick.count ++ g.fwDigest ++ g.modelDigest ++ g.publisher ++ g.config ++
    g.nonce ++ fallbackDigest l ++ g.streams.flatMap (fun x => u64b x.1 ++ u32b x.2) ++ List.replicate 16 0 ++
    rangeTableBytes g.inputs ++ rangeTableBytes outs ++ l.flatMap recEntryBytes

/-- RECORD_CLOSE. -/
def recordCloseCheck : OpCheck := fun s t q r =>
  let a := cwn r.words 8
  let n := cwn r.words 9
  let noRecord := recBad (Config.openAddress s.tick.count t q r.n)
  match s.tens[t].record with
  | none => noRecord
  | some g =>
    if g.closing then noRecord
    else if !g.cmds.all (·.done) then .pass
    else if g.cmds.any (·.failed) then noRecord
    else if 64 < n then recBad n
    else
      match s.listError t a n 1 with
      | some e => .fail e.1 e.2 0
      | none =>
        let l := s.rangeList t a n
        let bytes := s.recordBytes t g (s.rangeTable t 0x100 l)
        let outs := partOuts g.area (bytes.length + 3312)
        match outs.findSome? (s.outError t) with
        | some e => .fail e.1 e.2 0
        | none =>
          (s.pinReads t q (pagesOfRanges l)).claim t q outs (fun s =>
            let x := s.sign bytes
            let s := x.2.writeFresh t q g.area (bytes ++ x.1 ++ List.replicate 3 0)
            let s := s.modTen t (fun y => { y with record := some { g with closing := true } })
            .admitted ((s.stage t q [.recordClose]).results t q (bytes.length + 3312) g.cmds.length) false)

/-- RECORD_CLOSE's row. -/
def execRecordClose (t : Fin 4) (q : Fin 64) (s : State) : Host.Outcome State Fault Refusal :=
  .next (s.offerRow t q 0x41 recordCloseCheck)

end Sys2Proof.Machine
end

