-- ==== Sys2Proof/Machine/SecureCmd.lean ====
section
/-! DEFINITION. Secured states: STATE_SECURE (R361 to R368), its vote and transfer (R365, R369, R370), storage (R371),
and STATE_RESTORE (R372). -/
namespace Sys2Proof.Machine

open Sys2Proof

/-- Changes the securing values of Tt. -/
def State.modSecure (s : State) (t : Fin 4) (f : SecureSt → SecureSt) : State :=
  s.modTen t (fun x => { x with secure := f x.secure })

/-! ### Images (R362) -/

/-- DATA_OFFSET of an image of n ranges. -/
def imageData (n : Nat) : Nat := ceilDiv (4096 + 48 * n) 1048576 * 1048576

/-- IMAGE_BYTES of an image of a list of ranges. -/
def imageSize (l : List (Nat × Nat)) : Nat := imageData l.length + (l.map (·.2)).sum

/-- What a header says of the command that writes it. -/
structure ImageHead where
  slot : Nat
  position : Nat
  group : Nat
  ranges : Nat
  step : Nat
  tick : Nat
  risk : Nat
  bytes : Nat
deriving DecidableEq, Repr

/-- The streams that are open and owned by Tt: number and data position. -/
def State.ownedStreams (s : State) (t : Fin 4) : List (Nat × Nat) :=
  (s.ingest.filter (fun x => x.2.visible && x.2.owner == t)).map (fun x => (x.1, x.2.position))

/-- The fallback history of Tt (R115). -/
def State.historyBytes (s : State) (t : Fin 4) : List Byte :=
  let x := s.tens[t].secure
  (List.range 255).flatMap (fun l => u32b ((kget x.widened l).getD 0) ++ u32b ((kget x.rerun l).getD 0))

/-- The header of an image with a range table, with what R363 takes after step 12. -/
def State.imageHeader (s : State) (t : Fin 4) (h : ImageHead) (table : List Byte) : List Byte :=
  let x := s.tens[t].secure
  let own := s.ownedStreams t
  let b := leBytes 1 1 ++ leBytes 1 h.slot ++ u16b h.position ++ leBytes 1 t.val ++ leBytes 1 h.group ++
    u16b h.ranges ++ u64b h.step ++ u64b h.tick ++ u16b s.moduleId ++ leBytes 1 h.risk ++ [0] ++ u32b x.failures ++
    u64b (x.elapsed / 8) ++ u64b h.bytes ++ List.replicate 16 0 ++ s.od.configDigest[t] ++
    (s.streamSeeds t).flatMap (fun y => u64b y.1 ++ u32b y.2) ++
    (List.range 16).flatMap (fun n => u64b ((kget own n).getD 0)) ++
    u16b ((own.map (fun y => 2 ^ y.1)).sum) ++ List.replicate 30 0 ++ s.historyBytes t ++ List.replicate 1000 0
  b ++ (shake256 (b ++ table)).take 32

/-- An image of ranges as they are now committed. -/
def State.buildImage (s : State) (t : Fin 4) (h : ImageHead) (l : List (Nat × Nat)) : List Byte :=
  let table := rangeTableBytes (s.rangeTable t 0 l)
  let head := s.imageHeader t h table ++ table
  head ++ List.replicate (imageData l.length - head.length) 0 ++ l.flatMap (fun x => s.readT t x.1 x.2)

/-- The header's fields that were set at admission. -/
def headOf (img : List Byte) : ImageHead :=
  { slot := leAt img 1 1, position := leAt img 2 2, group := leAt img 5 1, ranges := leAt img 6 2, step := leAt img 8 8,
    tick := leAt img 16 8, risk := leAt img 26 1, bytes := leAt img 40 8 }

/-- After step 12 of the sluice of admission, the header takes what that sluice has changed (R363). -/
def State.patchImage (s : State) (t : Fin 4) (img : List Byte) : List Byte :=
  let h := headOf img
  let table := Machine.slice img 4096 (48 * h.ranges)
  s.imageHeader t h table ++ img.drop 4096

/-- The fields of a header that are zero (R6, R362): offset and length. -/
def imageZeros : List (Nat × Nat) := [(48, 16), (994, 30), (3064, 1000)]

/-- Whether a header names VERSION 1 and a slot, its zero fields are zero, and its digest verifies with its table. -/
def headerGood (img : List Byte) : Bool :=
  leAt img 0 1 == 1 && leAt img 1 1 ≤ 1 && imageZeros.all (fun x => leAt img x.1 x.2 == 0) &&
    (shake256 (splice (img.take 4064) 27 [0] ++ Machine.slice img 4096 (48 * leAt img 6 2))).take 32 ==
      Machine.slice img 4064 32

/-! ### Operands (R361) -/

/-- The operands that STATE_SECURE and STATE_RESTORE share. -/
structure SecOps where
  list : Nat
  entries : Nat
  area : Nat
  slotBytes : Nat
  partner : Nat
  image : Nat
  step : Nat
deriving DecidableEq, Repr

/-- Operands c9 to c15. -/
def secOps (ws : List W64) : SecOps :=
  { list := cwn ws 9, entries := cwn ws 10, area := cwn ws 11, slotBytes := cwn ws 12, partner := cwn ws 13,
    image := cwn ws 14, step := cwn ws 15 }

/-- Fails with a reason. -/
def secBad (reason a : Nat) : OpAnswer := .fail Config.errSecureFailed a reason

/-- A check that failed: code, address, reason. -/
abbrev SecErr := Nat × Nat × Nat

/-- The first failed check of a list. -/
def firstErr (l : List (Option SecErr)) : Option SecErr := l.findSome? id

/-- Reason 1 unless a test holds. -/
def reason1 (ok : Bool) (a : Nat) : Option SecErr := if ok then none else some (Config.errSecureFailed, a, 1)

/-- The ranges of a state list. -/
def State.stateList (s : State) (t : Fin 4) (o : SecOps) : List (Nat × Nat) := s.rangeList t o.list o.entries

/-- What is wrong with a state list: its alignment and number, its pages, its entries, the ranges' pages. -/
def State.stateListError (s : State) (t : Fin 4) (o : SecOps) : Option SecErr :=
  if o.list % 64 ≠ 0 then some (Config.errSecureFailed, o.list, 1)
  else if o.entries < 1 || 4096 < o.entries then some (Config.errSecureFailed, o.entries, 1)
  else
    match s.checkT t o.list (16 * o.entries) with
    | some (a, e) => some (e, a, 0)
    | none =>
      let l := s.stateList t o
      if !(l.all (fun x => x.1 < 2 ^ 52 && x.1 % 256 == 0 && 256 ≤ x.2 && x.2 ≤ 2 ^ 40 && x.2 % 256 == 0) && allApart l) then
        some (Config.errSecureFailed, o.list, 1)
      else
        match l.findSome? (fun x => s.checkT t x.1 x.2) with
        | some (a, e) => some (e, a, 0)
        | none => reason1 (l.all (fun x => x.1 + x.2 ≤ Config.modelBase)) o.list

/-- What is wrong with an area of two slots: its alignment, its pages, EVICTABLE. -/
def State.areaError (s : State) (t : Fin 4) (a slotBytes : Nat) : Option SecErr :=
  if a % Config.pageBytes ≠ 0 then some (Config.errSecureFailed, a, 1)
  else
    let pages := pagesOf a (2 * slotBytes)
    match pages.findSome? (fun v => s.outError t (v, false)) with
    | some e => some (e.1, e.2, 0)
    | none => reason1 (pages.all (fun v => ((s.page t v).map (fun e => !e.evictable)).getD false)) a

/-- What is wrong with the operands that both commands share; `partner`: the partner area is used. -/
def State.secOpsError (s : State) (t : Fin 4) (o : SecOps) (partner : Bool) : Option SecErr :=
  let l := s.stateList t o
  let clear := fun (a : Nat) => l.all (apart (a, 2 * o.slotBytes))
  firstErr
    [s.stateListError t o,
     reason1 (o.slotBytes % Config.pageBytes == 0 && 1 ≤ o.slotBytes && o.slotBytes ≤ 2 ^ 40) o.slotBytes,
     if o.slotBytes ≤ 2 ^ 40 then s.areaError t o.area o.slotBytes else none,
     if o.slotBytes ≤ 2 ^ 40 then reason1 (clear o.area) o.area else none,
     if partner && o.slotBytes ≤ 2 ^ 40 then s.areaError t o.partner o.slotBytes else reason1 (partner || o.partner == 0) o.partner,
     if partner then reason1 (clear o.partner && apart (o.area, 2 * o.slotBytes) (o.partner, 2 * o.slotBytes)) o.partner
     else none]

/-- Whether a group exists and belongs to Tt. -/
def State.ownGroup (s : State) (t : Fin 4) (g : Nat) : Bool := ((s.group g).map (fun e => e.tenancy == t.val)).getD false

/-- Bits of the control word. -/
def secPartner (ws : List W64) : Bool := (cw ws 8).getLsbD 59
/-- VOTE. -/
def secVote (ws : List W64) : Bool := (cw ws 8).getLsbD 58
/-- STORAGE. -/
def secStorage (ws : List W64) : Bool := (cw ws 8).getLsbD 57
/-- GROUP. -/
def secGroup (ws : List W64) : Nat := wbits (cw ws 8) 48 8
/-- VGROUP, or RGROUP. -/
def secVGroup (ws : List W64) : Nat := wbits (cw ws 8) 40 8
/-- MODE, or SOURCE. -/
def secMode (ws : List W64) : Nat := wbits (cw ws 8) 60 4
/-- STORAGE_EVERY. -/
def secEvery (ws : List W64) : Nat := wbits (cw ws 8) 16 16

/-- Whether the control word of STATE_SECURE keeps its ranges. -/
def State.secControlOk (s : State) (t : Fin 4) (ws : List W64) : Bool :=
  secMode ws ≤ 1 && (if secPartner ws then s.ownGroup t (secGroup ws) else secGroup ws == 0) &&
  (if secVote ws then s.ownGroup t (secVGroup ws) else secVGroup ws == 0) &&
  (if secStorage ws then 1 ≤ secEvery ws else secEvery ws == 0)

/-- The words of a storage endpoint block (R371). -/
def State.endpointWords (s : State) (t : Fin 4) (a : Nat) : List W64 :=
  (List.range 8).map (fun i => BitVec.ofNat 64 (s.numT t (a + 8 * i) 8))

/-- Whether an endpoint block keeps its ranges. -/
def endpointOk (ps : List W64) : Bool :=
  let p := fun (i : Nat) => nth ps i 0
  let fam := wbits (p 0) 48 8
  wbits (p 0) 56 8 ≤ 1 && (fam == 6 || (fam == 4 && wbits (p 1) 32 32 == 0 && p 2 == 0)) && wbits (p 0) 0 16 == 0 &&
    (ps.drop 3).all (· == 0)

/-- What is wrong with the endpoint operand. -/
def State.endpointError (s : State) (t : Fin 4) (ws : List W64) : Option SecErr :=
  let a := (secOps ws).image
  if !secStorage ws then reason1 (a == 0) a
  else if a % 64 ≠ 0 then some (Config.errSecureFailed, a, 1)
  else
    match s.checkT t a 64 with
    | some (x, e) => some (e, x, 0)
    | none => reason1 (endpointOk (s.endpointWords t a)) a

/-! ### The decision (R364) -/

/-- Admissions of the last 16 STATE_SECURE commands, with one now. -/
def SecureSt.withTime (x : SecureSt) (now : Nat) : List Nat := (x.times ++ [now]).drop ((x.times.length + 1) - 16)

/-- The values of the first STATE_SECURE after a reset. -/
def SecureSt.firstValues (x : SecureSt) (step : Nat) : SecureSt :=
  if x.first then { x with first := false, sSec := step, sSnap := step, snapped := false, w := 1, d := 0, times := [], transferStep := none }
  else x

/-- What the admission of a STATE_SECURE at STEP sets before its decision: T, W, I (R364). -/
def SecureSt.admitted (x : SecureSt) (step now bound risk : Nat) : SecureSt :=
  let x := x.firstValues step
  let times := x.withTime now
  let k := times.length - 1
  let span := now - (times.head?).getD now
  let w := match x.transferStep with
    | some st => max 1 (step - st)
    | none => x.w
  let e := x.elapsed / 8 + 86400000
  let rate := if x.d = 0 || span = 0 then bound
    else isqrt (2 * x.d * e * k * k * 1000000 / ((x.failures + 1) * span * span))
  { x with times := times, w := w, transferStep := none, lastStep := some step,
           interval := max 1 (min (bound - w) rate * (255 - risk) / 255) }

/-- due (R364), of the values after admission. -/
def SecureSt.due (x : SecureSt) (now_ : Bool) (step bound risk : Nat) : Bool :=
  now_ || (bound ≠ 0 && (!x.snapped || x.sSnap + x.interval ≤ step || x.riskSnap + 64 ≤ risk || x.lastFailed))

/-- The slot that a snapshot takes: the one that does not hold the newest secured state, else slot 0 (R363). -/
def State.freeImageSlot (s : State) (t : Fin 4) (o : SecOps) : Nat :=
  let h := fun (i : Nat) =>
    let a := o.area + i * o.slotBytes
    if s.numT t a 1 = 1 && s.numT t (a + 27) 1 = 1 then some (s.numT t (a + 8) 8) else none
  match h 0, h 1 with
  | none, _ => 0
  | some _, none => 1
  | some a, some b => if a < b then 0 else 1

/-- The checks of STATE_SECURE, but for the transfers' failures. -/
def State.secureError (s : State) (t : Fin 4) (ws : List W64) : Option SecErr :=
  let o := secOps ws
  firstErr
    [reason1 (s.secControlOk t ws) (cwn ws 8),
     s.secOpsError t o (secPartner ws),
     s.endpointError t ws,
     if imageSize (s.stateList t o) ≤ o.slotBytes then none else some (Config.errSecureFailed, o.area, 2),
     match (s.tens[t].secure).lastStep with
     | some k => if k < o.step then none else some (Config.errSecureFailed, o.step, 3)
     | none => none]

/-- Sets the phase of a command. -/
def State.setPhase (s : State) (t : Fin 4) (q : Fin 64) (n : Nat) : State := s.modRun t q (fun r => { r with phase := n })

/-- The end of a STATE_SECURE that takes no snapshot: its results are set, and it completes at step 12. -/
def State.noSnapshot (s : State) (t : Fin 4) (q : Fin 64) : State :=
  (s.modRun t q (fun r => { r with result1 := BitVec.ofNat 64 s.tens[t].secure.sSec })).setPhase t q 4

/-- STATE_SECURE. Phases: 1 it waits for the vote, 2 the snapshot is due, 3 the image is written, 4 no snapshot. -/
def stateSecureCheck : OpCheck := fun s t q r =>
  let ws := r.words
  let o := secOps ws
  let x := s.tens[t].secure
  let bound := s.odt t 0xA0E0 1
  let risk := s.health.risk
  let y := x.admitted o.step s.tick.localNs bound risk
  let due := y.due (secMode ws == 1) o.step bound risk
  if x.transferState ≠ 0 && (due || (bound ≠ 0 && y.sSec + bound < o.step)) then .hold
  else
    match s.secureError t ws with
    | some e => .fail e.1 e.2.1 e.2.2
    | none =>
      if due && x.lastFailed && x.prevFailed then
        secBad 4 (match s.group x.group with
          | some e => nth e.members ((s.ownPos e + 1) % max 1 e.members.length) 0
          | none => 0)
      else
        let s := s.modSecure t (fun _ => y)
        let s := s.modRun t q (fun r => { r with result0 := BitVec.ofNat 64 (({ x with interval := y.interval } : SecureSt).flags) })
        if !due && !secVote ws then .admitted (s.noSnapshot t q) false
        else
          let l := s.stateList t o
          let slot := s.freeImageSlot t o
          let pages := pagesOf (o.area + slot * o.slotBytes) (imageSize l)
          if !s.stackPossible t pages.length then .fail Config.errQuotaExceeded (8 * t.val + 1) 0
          else
            let pos := match s.group (secGroup ws) with
              | some e => if secPartner ws then s.ownPos e else 0
              | none => 0
            let h : ImageHead := { slot := slot, position := pos, group := secGroup ws, ranges := l.length, step := o.step,
                                   tick := s.tick.count, risk := risk, bytes := imageSize l }
            let img := s.buildImage t h l
            s.claimLazy t q pages (fun s =>
              let s := s.pinReads t q (pagesOfRanges l)
              let s := s.modRun t q (fun r => { r with blob := img, params := [if due then 1 else 0] })
              .admitted (s.setPhase t q (if secVote ws then 1 else 2)) false)

/-- STATE_SECURE's row. -/
def execStateSecure (t : Fin 4) (q : Fin 64) (s : State) : Host.Outcome State Fault Refusal :=
  .next (s.offerRow t q 0x48 stateSecureCheck)

/-! ### Collectives of securing -/

/-- Begins a collective of a use on a group, when the group exists and is free. -/
def State.beginUse (s : State) (t : Fin 4) (q : Fin 64) (cls : Nat) (use : CollUse) (g : Nat) (entry img : List Byte) :
    Option State :=
  match s.group g with
  | none => none
  | some e =>
    if (s.collOf g).isSome then none
    else some (s.setColl g { Coll.blank t q cls use (s.nextSeq g) e (s.ownPos e) with
      entry := entry, eligible := some s.tick.count, localImages := if img.isEmpty then [] else [(0, img)] })

/-- A command of securing or restoring begins its collective when its group is free. -/
def State.beginFor (s : State) (t : Fin 4) (q : Fin 64) (use : CollUse) (g : Nat) (entry img : List Byte) : State :=
  match s.run t q with
  | none => s
  | some r =>
    if r.coll.isSome then s
    else if (s.group g).isNone then s.failAt t q (Config.errGroupInvalid, g)
    else
      match s.beginUse t q (s.baseClass t q) use g entry img with
      | some s => s.modRun t q (fun r => { r with coll := some g })
      | none => s

/-- What a vote that has committed decides (R365). -/
def State.voteDone (s : State) (t : Fin 4) (q : Fin 64) (c : Coll) : State :=
  let steps := c.gathered.map (fun b => leAt b 0 8)
  match (List.range steps.length).find? (fun i => nth steps i 0 != nth steps 0 0) with
  | some i => (s.failAt t q (Config.errSecureFailed, c.member i)).modRun t q (fun r => { r with result1 := 5 })
  | none => if c.gathered.any (fun b => leAt b 8 1 ≠ 0) then s.setPhase t q 2 else s.noSnapshot t q

/-! ### The commit of a snapshot, and transfers -/

/-- The address of an endpoint block (R371): the 16 bytes of an IPv6 address in their order, or an IPv4 address as in OD
0x1010:02. -/
def endpointAddr (ps : List W64) : IpAddr :=
  if wbits (nth ps 0 0) 48 8 = 4 then .v4 (wbits (nth ps 1 0) 0 32)
  else .v6 (ofLe (u64b (nth ps 1 0).toNat ++ u64b (nth ps 2 0).toNat).reverse)

/-- An egress datagram (R371). -/
def egressBytes (kind key moduleId position step offset : Nat) (data : List Byte) : List Byte :=
  leBytes 1 1 ++ leBytes 1 kind ++ u16b key ++ u16b moduleId ++ u16b position ++ u64b step ++ u64b offset ++
    u32b data.length ++ u32b 0 ++ data

/-- Sends a datagram of the storage transfer of Tt. -/
def State.egress (s : State) (t : Fin 4) (kind offset : Nat) (data : List Byte) : State :=
  let x := s.tens[t].secure.storage
  s.emit (.egress x.port x.addr x.udp (egressBytes kind x.key s.moduleId x.position x.step offset data))

/-- Sends what the window of 64 MiB allows, in ascending OFFSET. -/
def State.storagePump (s : State) (t : Fin 4) : State :=
  let x := s.tens[t].secure.storage
  let stop := min x.bytes (x.acked + 67108864)
  let s := s.each (List.range (ceilDiv (stop - x.sent) 8192)) (fun s i =>
    let off := x.sent + 8192 * i
    s.egress t 1 off (s.readT t (x.slot + off) (min 8192 (stop - off))))
  s.modSecure t (fun y => { y with storage := { y.storage with sent := max x.sent stop } })

/-- A state has become secured (R366, R371): SECURED in the local header, S_sec, and storage when it is its turn. -/
def State.markSecured (s : State) (t : Fin 4) : State :=
  let x := s.tens[t].secure
  let s := s.putT t (x.slotAddr + 27) [1]
  let n := x.securedCount + 1
  let s := s.modSecure t (fun y => { y with sSec := x.snapStep, securedCount := n })
  if x.every ≠ 0 && n % x.every = 0 then
    let p0 := nth x.endpoint 0 0
    let st : StorageSt :=
      { active := true, port := wbits p0 56 8, addr := endpointAddr x.endpoint, udp := wbits p0 32 16, key := wbits p0 16 16,
        step := x.snapStep, position := s.numT t (x.slotAddr + 2) 2, slot := x.slotAddr, bytes := x.imageBytes, acked := 0,
        sent := 0 }
    (s.modSecure t (fun y => { y with storage := st, storageFailed := false })).storagePump t
  else s

/-- Step 6 of the sluice in which a snapshot commits. -/
def State.snapshotCommit (s : State) (t : Fin 4) (q : Fin 64) (step slot : Nat) : State :=
  match s.run t q with
  | none => s
  | some r =>
    let o := secOps r.words
    let old := s.tens[t].secure
    let every := if secStorage r.words then secEvery r.words else 0
    let code := if every ≠ 0 && (old.securedCount + 1) % every = 0 then 2 else 1
    let s := s.modRun t q (fun r => { r with result0 := r.result0 ||| BitVec.ofNat 64 (code * 2 ^ 56) })
    let s := s.modSecure t (fun x => { x with
      sSnap := step
      snapped := true
      riskSnap := leAt r.blob 26 1
      snapStep := step
      snapAt := (x.times.getLast?).getD 0
      group := secGroup r.words
      partner := o.partner
      slot := slot
      slotBytes := o.slotBytes
      slotAddr := o.area + slot * o.slotBytes
      imageBytes := r.blob.length
      queue := q
      cls := s.baseClass t q
      every := every
      endpoint := if secStorage r.words then s.endpointWords t o.image else [] })
    let s := if secPartner r.words then s.modSecure t (fun x => { x with waiting := true }) else s.markSecured t
    s.modRun t q (fun r => { r with result1 := BitVec.ofNat 64 s.tens[t].secure.sSec })

/-- A partner transfer has failed; the state stays unsecured (R369). -/
def State.transferFailed (s : State) (t : Fin 4) : State :=
  s.modSecure t (fun x => { x with waiting := false, transferring := false, prevFailed := x.lastFailed, lastFailed := true })

/-- Begins the transfer of the committed image when its group is free. -/
def State.startTransfer (s : State) (t : Fin 4) : State :=
  let x := s.tens[t].secure
  if !x.waiting then s
  else if !s.ownGroup t x.group then s.transferFailed t
  else
    match s.beginUse t x.queue x.cls .transfer x.group (u64b x.imageBytes) (s.readT t x.slotAddr x.imageBytes) with
    | some s => s.modSecure t (fun x => { x with waiting := false, transferring := true })
    | none => s

/-- The image that a moving collective has brought. -/
def Coll.received (c : Coll) : List Byte :=
  imageOfStream ((List.range c.rounds).flatMap (fun r => (kget c.images r).getD []))

/-- The last step of a transfer has committed: the partner slot that the image's SLOT names holds the predecessor's image,
where it fits, and the module's own state is secured (R366, R369; DESIGN CHOICE, log entry 76: the slot is written at once,
since the header that names it comes last). -/
def State.transferDone (s : State) (t : Fin 4) (c : Coll) : State :=
  let x := s.tens[t].secure
  let img := c.received
  let s := if leAt img 1 1 ≤ 1 && img.length ≤ x.slotBytes then s.putT t (x.partner + leAt img 1 1 * x.slotBytes) img else s
  let s := s.modSecure t (fun x => { x with
    transferring := false
    prevFailed := x.lastFailed
    lastFailed := false
    d := s.tick.localNs - x.snapAt
    transferStep := some x.snapStep })
  s.markSecured t

/-- SECURE_TRANSFER: the committed snapshot of Tt begins its transfer. -/
def execSecureTransfer (t : Fin 4) (s : State) : Host.Outcome State Fault Refusal := noted (s.startTransfer t)

/-! ### Storage (R371) -/

/-- Whether a datagram is an ACK of the storage transfer of Tt. -/
def State.ackOk (s : State) (t : Fin 4) (d : List Byte) : Bool :=
  let x := s.tens[t].secure.storage
  x.active && d.length == 32 && leAt d 0 1 == 1 && leAt d 1 1 == 2 && leAt d 2 2 == x.key && leAt d 4 2 == s.moduleId &&
    leAt d 6 2 == x.position && leAt d 8 8 == x.step && leAt d 24 4 == 0 && leAt d 28 4 == 0

/-- STORAGE_ACK: bytes received without a gap; a full acknowledgement completes the transfer with DONE. -/
def execStorageAck (t : Fin 4) (datagram : List Byte) (s : State) : Host.Outcome State Fault Refusal :=
  let n := leAt datagram 16 8
  let x := s.tens[t].secure.storage
  noted (if s.ackOk t datagram && x.acked < n && n ≤ x.sent then
      if n = x.bytes then
        (s.egress t 3 0 []).modSecure t (fun y => { y with storage := { y.storage with acked := n, active := false } })
      else (s.modSecure t (fun y => { y with storage := { y.storage with acked := n } })).storagePump t
    else s)

/-- STORAGE_RESEND_TIMEOUT: 10 ms without an advance; it resends from the acknowledged offset. -/
def execStorageResendTimeout (t : Fin 4) (s : State) : Host.Outcome State Fault Refusal :=
  .next (if s.tens[t].secure.storage.active then
      (s.modSecure t (fun y => { y with storage := { y.storage with sent := y.storage.acked } })).storagePump t
    else s)

/-- STORAGE_FAIL_TIMEOUT: 5 s without an advance. -/
def execStorageFailTimeout (t : Fin 4) (s : State) : Host.Outcome State Fault Refusal :=
  noted (if s.tens[t].secure.storage.active then
      s.modSecure t (fun y => { y with storageFailed := true, storage := { y.storage with active := false } })
    else s)

/-! ### STATE_RESTORE (R372) -/

/-- The image of a STEP in an area: its address. -/
def State.imageIn (s : State) (t : Fin 4) (area slotBytes step : Nat) (secured : Bool) : Option Nat :=
  (([area, area + slotBytes] : List Nat).find? (fun a =>
    s.numT t a 1 == 1 && s.numT t (a + 8) 8 == step && (!secured || s.numT t (a + 27) 1 == 1)))

/-- Reads an image of a length that its header gives, at most a slot or 2^40 bytes. -/
def State.readImage (s : State) (t : Fin 4) (a limit : Nat) : List Byte :=
  s.readT t a (max 4096 (min limit (s.numT t (a + 40) 8)))

/-- An empty image. -/
def emptyImage : List Byte := List.replicate 4096 0

/-- Whether a restore takes part in the transfer of its restore group. -/
def restoreMoves (ws : List W64) : Bool := secMode ws == 1 || secGroup ws ≠ 0

/-- The range table of an image. -/
def imageTable (img : List Byte) : List (Nat × Nat × List Byte) :=
  (List.range (leAt img 6 2)).map (fun i =>
    (leAt img (4096 + 48 * i) 8, leAt img (4104 + 48 * i) 8, Machine.slice img (4112 + 48 * i) 32))

/-- The checks of an image, reasons 10, 6, 7 and 9; `pos`: the POSITION that a received image must name. -/
def State.imageError (s : State) (t : Fin 4) (o : SecOps) (img : List Byte) (addr : Nat) (pos : Option Nat) : Option SecErr :=
  let l := s.stateList t o
  let tab := imageTable img
  let bad := fun (r a : Nat) => some (Config.errSecureFailed, a, r)
  if leAt img 0 1 = 0 || leAt img 8 8 ≠ o.step then bad 10 o.area
  else if !headerGood img || (pos.map (fun p => p != leAt img 2 2)).getD false || leAt img 40 8 ≠ img.length then bad 6 addr
  else
    match (List.range (max l.length tab.length)).find? (fun i => (l[i]?) != (tab[i]?).map (fun x => (x.1, x.2.1))) with
    | some i => bad 7 (o.list + 16 * i)
    | none => if Machine.slice img 64 32 = s.od.configDigest[t] then none else bad 9 addr

/-- The data of the ranges of an image, in order. -/
def imageRanges (img : List Byte) : List (Nat × Nat × List Byte × List Byte) :=
  let tab := imageTable img
  (tab.foldl (fun (acc : Nat × List (Nat × Nat × List Byte × List Byte)) x =>
    (acc.1 + x.2.1, acc.2 ++ [(x.1, x.2.1, x.2.2, Machine.slice img acc.1 x.2.1)])) (imageData tab.length, [])).2

/-- The address of the first range whose digest differs (reason 8). -/
def badDigest (img : List Byte) : Option Nat :=
  (((imageRanges img).mapIdx (fun i x => (x.1, treeDigest x.2.2.2 i == x.2.2.1))).find? (fun x => !x.2)).map (·.1)

/-- What a member contributes to a verification. -/
def verifyEntry (img : List Byte) : List Byte :=
  (shake256 (u64b (leAt img 8 8) ++ (imageTable img).flatMap (·.2.2))).take 32

/-- Fails a restore with a reason. -/
def State.secFail (s : State) (t : Fin 4) (q : Fin 64) (e : SecErr) : State :=
  (s.failAt t q (e.1, e.2.1)).modRun t q (fun r => { r with result1 := BitVec.ofNat 64 e.2.2 })

/-- An image has been obtained: it is checked, its digests are recomputed, and placement is due (phase 2). -/
def State.haveImage (s : State) (t : Fin 4) (q : Fin 64) (img : List Byte) (addr : Nat) (pos : Option Nat) : State :=
  match s.run t q with
  | none => s
  | some r =>
    match (s.imageError t (secOps r.words) img addr pos).orElse (fun _ =>
        (badDigest img).map (fun a => (Config.errSecureFailed, a, 8))) with
    | some e => s.secFail t q e
    | none => (s.modRun t q (fun r => { r with blob := img })).setPhase t q 2

/-- Whether the control word of STATE_RESTORE keeps its ranges. -/
def State.restoreControlOk (s : State) (t : Fin 4) (ws : List W64) : Bool :=
  secMode ws ≤ 2 && (!restoreMoves ws || s.ownGroup t (secGroup ws)) &&
  (if secPartner ws then s.ownGroup t (secVGroup ws) else secVGroup ws == 0)

/-- STATE_RESTORE; bit 59 is VERIFY. Phases: 1 it waits for the transfer, 2 placement is due, 5 it waits for the
verification, 3 the pans have the ranges. -/
def stateRestoreCheck : OpCheck := fun s t q r =>
  let ws := r.words
  let o := secOps ws
  let src := secMode ws
  let moves := restoreMoves ws
  match firstErr [reason1 (s.restoreControlOk t ws) (cwn ws 8), s.secOpsError t o (moves || o.partner ≠ 0)] with
  | some e => .fail e.1 e.2.1 e.2.2
  | none =>
    let found : Option (Nat × List Byte) :=
      if src = 0 then (s.imageIn t o.area o.slotBytes o.step true).map (fun a => (a, s.readImage t a o.slotBytes))
      else if src = 2 then some (o.image, s.readImage t o.image (2 ^ 40 + 2 ^ 21))
      else none
    let srcErr : Option SecErr :=
      if src = 1 then none
      else if src = 2 then
        (match s.checkT t o.image (max 4096 (min (2 ^ 40 + 2 ^ 21) (s.numT t (o.image + 40) 8))) with
         | some (a, e) => some (e, a, 0)
         | none => none)
      else none
    match srcErr with
    | some e => .fail e.1 e.2.1 e.2.2
    | none =>
      let chk : Option SecErr := match found with
        | some (a, img) => (s.imageError t o img a none).orElse (fun _ =>
            (badDigest img).map (fun a => (Config.errSecureFailed, a, 8)))
        | none => if src = 1 then none else some (Config.errSecureFailed, o.area, 10)
      match chk with
      | some e => .fail e.1 e.2.1 e.2.2
      | none =>
        let pages := pagesOfRanges (s.stateList t o)
        if !s.stackPossible t pages.length then .fail Config.errQuotaExceeded (8 * t.val + 1) 0
        else
          s.claimLazy t q pages (fun s =>
            let s := s.modRun t q (fun r => { r with blob := (found.map (·.2)).getD [] })
            .admitted (s.setPhase t q (if moves then 1 else 2)) false)

/-- STATE_RESTORE's row. -/
def execStateRestore (t : Fin 4) (q : Fin 64) (s : State) : Host.Outcome State Fault Refusal :=
  .next (s.offerRow t q 0x49 stateRestoreCheck)

/-- The transfer of a restore group has committed on this member. -/
def State.restoreMoved (s : State) (t : Fin 4) (q : Fin 64) (c : Coll) : State :=
  match s.run t q with
  | none => s
  | some r =>
    if secMode r.words = 1 then
      let o := secOps r.words
      let img := c.received
      (s.putT t o.area (img.take o.slotBytes)).haveImage t q img o.area (some (c.size - 1 - c.pos))
    else s.setPhase t q 2

/-- The verification has gathered every member's value (reason 11). -/
def State.verified (s : State) (t : Fin 4) (q : Fin 64) (c : Coll) : State :=
  match (List.range c.gathered.length).find? (fun i => nth c.gathered i [] != nth c.gathered 0 []) with
  | some i => s.secFail t q (Config.errSecureFailed, c.member i, 11)
  | none => s.setPhase t q 3

/-- At step 12 of its committing sluice, a restore sets the tenancy's streams, counts and history (R372). -/
def State.applyRestored (s : State) (t : Fin 4) (h : List Byte) : State :=
  let s := s.each (List.range 64) (fun s n =>
    let k := fun (sub : Nat) => odKey (0xA060 + 256 * t.val) sub
    let live := kset (kset s.od.live (k (2 * n + 1)) (.num (leAt h (96 + 12 * n) 8))) (k (2 * n + 2))
      (.num (leAt h (104 + 12 * n) 4))
    { s with od := { s.od with live := live } })
  let step := leAt h 8 8
  let hist := fun (off : Nat) => (List.range 255).filterMap (fun l =>
    let v := leAt h (1024 + 8 * l + off) 4
    if v = 0 then none else some (l, v))
  s.modSecure t (fun x => { x with
    first := false
    lastStep := some step
    sSec := step
    sSnap := step
    snapped := false
    w := 1
    d := 0
    times := []
    transferStep := none
    lastFailed := false
    prevFailed := false
    securedCount := 0
    failures := leAt h 28 4 + 1
    elapsed := 8 * leAt h 32 8
    widened := hist 0
    rerun := hist 4 })

/-! ### Progress, at the start of each tick -/

/-- One securing or restoring command goes on: it begins a vote, a transfer or a verification, writes its image or
places its ranges. -/
def State.secureStep (s : State) (t : Fin 4) (q : Fin 64) : State :=
  match s.run t q with
  | none => s
  | some r =>
    let o := secOps r.words
    if !r.begun || r.fail.isSome then s
    else if cOp r.words = 0x48 then
      if r.phase = 1 then
        s.beginFor t q .vote (secVGroup r.words) (u64b o.step ++ leBytes 1 (nth r.params 0 0).toNat) []
      else if r.phase = 2 then
        let slot := leAt r.blob 1 1
        match s.opWrite t q (o.area + slot * o.slotBytes) r.blob with
        | some s => (s.stage t q [.secured o.step slot]).setPhase t q 3
        | none => s
      else s
    else if cOp r.words = 0x49 then
      if r.phase = 1 then
        let img := match s.imageIn t o.partner o.slotBytes o.step false with
          | some a => if headerGood (s.readImage t a o.slotBytes) then s.readImage t a o.slotBytes else emptyImage
          | none => emptyImage
        s.beginFor t q .restore (secGroup r.words) (u64b img.length) img
      else if r.phase = 2 then
        match s.opWrites t q ((imageRanges r.blob).map (fun x => (x.1, x.2.2.2))) with
        | some s =>
          let s := (s.stage t q [.restored (r.blob.take 4096)]).results t q o.step (secMode r.words * 2 ^ 56)
          (s.modRun t q (fun r => { r with coll := none })).setPhase t q (if secPartner r.words then 5 else 3)
        | none => s
      else if r.phase = 5 then
        s.beginFor t q .verify (secVGroup r.words) (verifyEntry r.blob) []
      else s
    else s

/-- Step 2: a collective of securing that is done tells its command or its tenancy; a failed one fails the command,
or leaves the state unsecured. -/
def State.useSettled (s : State) (c : Coll) : State :=
  match c.failed with
  | some (code, a) =>
    if c.use == .transfer then s.transferFailed c.t else s.failAt c.t c.q (code, a.toNat)
  | none =>
    if !c.done then s
    else
      match c.use with
      | .command => s
      | .vote => s.voteDone c.t c.q c
      | .transfer => s
      | .restore => s.restoreMoved c.t c.q c
      | .verify => s.verified c.t c.q c

end Sys2Proof.Machine
end

