-- ==== Sys2Proof/Machine/Sched.lean ====
section
/-! DEFINITION. The scheduler: eligible slices and their order (R32, R267 to R270), the offer of a slice (R32 to R34,
R44), the weighted order (R270, R271), break-in (R272, R273), and the rows of COMPUTE and the imaging commands
(R211, R289, R425). -/
namespace Sys2Proof.Machine

open Sys2Proof

/-! ### Commands by opcode -/

/-- Opcodes of commands that are cut into slices when they become candidates: COMPUTE and the imaging commands. -/
def slicedOp (op : Nat) : Bool := op == 0x01 || (0x28 ≤ op && op ≤ 0x2B)

/-- The check of a command that is not cut into slices. -/
def opCheckOf (op : Nat) : OpCheck :=
  match op with
  | 0x10 => memMapCheck
  | 0x11 => memUnmapCheck
  | 0x12 => memPinCheck
  | 0x13 => memQueryCheck
  | 0x18 => kvShareCheck
  | 0x19 => kvReleaseCheck
  | 0x1A => kvCommitDirCheck
  | 0x20 => panFillCheck
  | 0x21 => panCopyCheck
  | 0x22 => panConvertCheck
  | 0x23 => panGatherCheck
  | 0x24 => panDigestCheck
  | 0x30 => codecOpenCheck
  | 0x31 => codecDecodeCheck
  | 0x32 => codecEncodeCheck
  | 0x33 => codecCloseCheck
  | 0x38 => ingestOpenCheck
  | 0x39 => ingestBatchCheck
  | 0x3A => ingestCloseCheck
  | 0x40 => recordOpenCheck
  | 0x41 => recordCloseCheck
  | 0x48 => stateSecureCheck
  | 0x49 => stateRestoreCheck
  | _ => nopCheck

/-- The slices of an imaging command read anew, each with its progress in the queue. -/
def keepPassed (old new : List Slice) : List Slice :=
  new.map (fun sl => match old.find? (fun o => o.idx == sl.idx) with
    | some o => { sl with passed := o.passed, firstEligible := o.firstEligible }
    | none => sl)

/-- An imaging command reads its parameters, descriptors and slices at each sluice until its first admission (R210, R211);
what is as it was stays as it is. -/
def State.readImaging (s : State) (t : Fin 4) (q : Fin 64) (r : CmdRun) : State :=
  match s.imgRead t (cOp r.words) (cwn r.words 8) with
  | .error e => s.failAt t q e
  | .ok x =>
    let new := imgSlices s.tick.capacity (cOp r.words) x.1 x.2
    if r.params = x.1 && r.pdescs = x.2 && r.slices.map (·.strandCount) == new.map (·.strandCount) then s
    else s.modRun t q (fun r => { r with slices := keepPassed r.slices new, params := x.1, pdescs := x.2 })

/-- Reads the slices of a command that has become a candidate (R425, R211); a command that cannot be read fails. -/
def State.readSlices (s : State) (t : Fin 4) (q : Fin 64) : State :=
  match s.run t q with
  | none => s
  | some r =>
    let op := cOp r.words
    if !slicedOp op || r.begun || !s.isCandidate t q then s
    else if op = 0x01 then
      if !r.slices.isEmpty then s
      else
        match s.slicesOf t (cwn r.words 8) (cwn r.words 9) with
        | .error e => s.failAt t q e
        | .ok l => s.modRun t q (fun r => { r with slices := l })
    else s.readImaging t q r

/-! ### Eligible slices -/

/-- An eligible slice, or a command that is offered whole. -/
structure Item where
  ref : SliceRef
  op : Bool
  passed : Nat
  first : Nat
  requeued : Option Nat
  cls : Nat
  promoted : Bool
deriving DecidableEq, Repr

/-- The eligible slices of a queue: those whose dependencies have committed (R32), or the command itself. -/
def State.queueItems (s : State) (t : Fin 4) (q : Fin 64) : List Item :=
  match s.run t q with
  | none => []
  | some r =>
    let op := cOp r.words
    if r.fail.isSome || r.ended || !(r.begun || s.isCandidate t q) then []
    else
      let item := fun (whole : Bool) (sl : Slice) =>
        ({ ref := ⟨t, q, sl.idx⟩, op := whole, passed := sl.passed, first := sl.firstEligible.getD s.tick.count,
           requeued := sl.requeued, cls := s.effClassOf t q sl.passed,
           promoted := decide (s.baseClass t q = 0 ∧ 64 ≤ sl.passed) } : Item)
      if slicedOp op || op = 0x02 then
        (r.slices.filter (fun sl => sl.state == .waiting && !sl.ringStep &&
          sl.deps.all (fun d => r.slices.any (fun x => x.idx == d && x.state == .committed)))).map (item false)
      else if r.begun then []
      else [item true ((r.slices.head?).getD (opSlice []))]

/-- Every eligible slice, by tenancy, queue and SLICE_INDEX. -/
def State.items (s : State) : List Item := allTQ.flatMap (fun x => s.queueItems x.1 x.2)

/-- Notes the first eligible tick of every eligible slice. -/
def State.noteFirst (s : State) (l : List Item) : State :=
  s.each l (fun s it =>
    let s := if it.op && (s.slice it.ref).isNone then s.putOpSlice it.ref.t it.ref.q [] else s
    s.modSlice it.ref (fun sl => { sl with firstEligible := some (sl.firstEligible.getD s.tick.count) }))

/-- Item 1 of the scheduling order: segments and re-queued slices, in the order of re-queueing, but for promoted ones. -/
def order1 (l : List Item) : List Item :=
  sortBy (fun (a b : Item) => decide (a.requeued.getD 0 < b.requeued.getD 0))
    (l.filter (fun it => it.requeued.isSome && !it.promoted))

/-- Item 2: passed over eight times or promoted (R269), by first eligible tick. -/
def order2 (l : List Item) : List Item :=
  sortBy (fun (a b : Item) => decide (a.first < b.first))
    (l.filter (fun it => it.promoted || (it.requeued.isNone && 8 ≤ it.passed)))

/-- Item 3: all others. -/
def order3 (l : List Item) : List Item := l.filter (fun it => !it.promoted && it.requeued.isNone && it.passed < 8)

/-! ### Queue rotation and weights (R270, R271) -/

/-- The position of an item within its queue's items. -/
def rankIn (l : List Item) (it : Item) : Nat := (l.filter (fun x => x.ref.q == it.ref.q && x.ref.idx < it.ref.idx)).length

/-- The items of a tenancy by queue rotation from a queue on: one slice from each queue in turn. -/
def rotated (start : Nat) (l : List Item) : List Item :=
  let key := fun (it : Item) => rankIn l it * 64 + (it.ref.q.val + 64 - start) % 64
  sortBy (fun (a b : Item) => decide (key a < key b)) l

/-- A tenancy in the weighted order: its W, its V, the cost admitted so far, its items not yet offered. -/
structure Share where
  t : Fin 4
  w : Nat
  v : Nat
  used : Nat
  left : List Item
deriving DecidableEq, Repr

/-- Whether a tenancy is further behind than another: v = V + used / W, exactly. -/
def Share.behind (a b : Share) : Bool := (a.v * a.w + a.used) * b.w < (b.v * b.w + b.used) * a.w

/-- The tenancy with the least v that has items left; ties to the lower tenancy. -/
def leastShare (l : List Share) : Option Share :=
  (l.filter (fun x => !x.left.isEmpty)).foldl (fun m x =>
    match m with
    | none => some x
    | some y => if x.behind y then some x else some y) none

/-- How a slice is offered: the state after, and the cost that was admitted. -/
abbrev Offer1 := State → Item → State × Nat

/-- Offers the items of the tenancies of positive weight, the one furthest behind first. -/
def weightedOffer (offer : Offer1) : Nat → List Share → State → State
  | 0, _, s => s
  | n + 1, l, s =>
    match leastShare l with
    | none => s
    | some x =>
      match x.left with
      | [] => s
      | it :: rest =>
        let r := offer s it
        let l := l.map (fun y => if y.t = x.t then { y with left := rest, used := y.used + r.2 } else y)
        weightedOffer offer n l r.1

/-- TICK_WEIGHT of Tt. -/
def State.weight (s : State) (t : Fin 4) : Nat := s.quota t 5

/-- Offers the items of one class in scheduling order. -/
def State.offerClass (s : State) (offer : Offer1) (l : List Item) (rotation : Fin 4 → Nat) : State :=
  let s := s.each (order1 l ++ order2 l) (fun s it => (offer s it).1)
  let third := order3 l
  let mine := fun (t : Fin 4) => rotated (rotation t) (third.filter (fun it => it.ref.t == t))
  let cls := ((l.head?).map (·.cls)).getD 0
  let shares := (allT.filter (fun t => 0 < s.weight t)).map (fun t =>
    ({ t := t, w := s.weight t, v := nth s.tens[t].vUsage.toList cls 0, used := 0, left := mine t } : Share))
  let s := weightedOffer offer third.length shares s
  s.each ((allT.filter (fun t => s.weight t = 0)).flatMap mine) (fun s it => (offer s it).1)

/-- R271: the least V of a class among the other tenancies with items in item 3 at this boundary and the one before. -/
def State.leastV (s : State) (l : List Item) (me : Fin 4) (cls : Fin 4) : Option Nat :=
  ((allT.filter (fun t => t != me && s.tens[t].hadItem3[cls] && (order3 l).any (fun it => it.ref.t == t && it.cls == cls.val))).map
    (fun t => s.tens[t].vUsage[cls])).min?

/-- Raises V of tenancies that come back, or whose weight has become positive, and notes who has items (R271). -/
def State.levelV (s : State) (l : List Item) : State :=
  let here := fun (t : Fin 4) (c : Fin 4) => (order3 l).any (fun it => it.ref.t == t && it.cls == c.val)
  let least := fun (t c : Fin 4) => s.leastV l t c
  s.each allT (fun s t =>
    let x := s.tens[t]
    let woke := x.weightWas0 && 0 < s.weight t
    let raised : Vector Nat 4 := Vector.ofFn (fun c =>
      if woke || (here t c && !x.hadItem3[c]) then
        match least t c with
        | some v => max v x.vUsage[c]
        | none => x.vUsage[c]
      else x.vUsage[c])
    s.modTen t (fun x => { x with
      vUsage := raised, hadItem3 := Vector.ofFn (fun c => here t c), weightWas0 := decide (s.weight t = 0) }))

/-! ### The offer of a slice -/

/-- Cuts a slice into its segments (R44): the first is next. -/
def State.split (s : State) (ref : SliceRef) : State :=
  let s := { s with tick := { s.tick with admSeq := s.tick.admSeq + 1 } }
  (s.modSlice ref (fun sl => { sl with segment := some 0, segStart := 0xFFFF, requeued := some s.tick.admSeq })).bump 0x9020 3 1

/-- Puts the slice that a first admission has read; none when it fails. -/
def State.ensureRead (s : State) (ref : SliceRef) (sl : Slice) : Except Bad (State × Slice) :=
  if sl.checked then .ok (s, sl)
  else (s.readSlice ref.t sl).map (fun x => (s.modSlice ref (fun _ => x), x))

/-- Admits a slice whose capacity and demands are met: its image is read and checked at its first admission, its
pages must be free, its frames are taken; passed over otherwise. -/
def State.admitSlice (s : State) (ref : SliceRef) (sl : Slice) (cls : Nat) : State :=
  match s.ensureRead ref sl with
  | .error e => s.failAt ref.t ref.q e
  | .ok (s', sl) =>
    match (if sl.fresh.isEmpty then sl.outs.findSome? (s'.outError ref.t) else none) with
    | some e => s.failAt ref.t ref.q e
    | none =>
      match (s.run ref.t ref.q).bind (fun r => if r.begun then none else s.recordError ref.t ref.q r) with
      | some e => s.failAt ref.t ref.q e
      | none =>
        if !s'.outsFree ref.t ref.q ref.idx false (sl.outs.map (·.1)) || !s'.demandsMet ref.t sl then s.passSlice ref
        else
          match (if sl.fresh.isEmpty then s'.shadowShort ref sl.pageDemand 0 sl.outs else none) with
          | some a => s.failAt ref.t ref.q (Config.errFallbackSpace, a)
          | none =>
            match s'.tryAdmit ref sl cls with
            | some s => s.begin ref.t ref.q
            | none => s.passSlice ref

/-- Replaces a slice beyond C by its segments (R44). -/
def State.cutLong (s : State) (ref : SliceRef) (sl : Slice) : Except Bad (State × Slice) :=
  if s.tick.capacity < sl.cost && sl.segment.isNone then
    (s.ensureRead ref sl).map (fun y => (y.1.split ref, ((y.1.split ref).slice ref).getD y.2))
  else .ok (s, sl)

/-- One pass through the body of the loop of R32. -/
def State.offerSlice (s : State) (ref : SliceRef) (cls : Nat) : State :=
  match s.slice ref, s.run ref.t ref.q with
  | some sl, some r =>
    if r.fail.isSome || sl.state != .waiting then s
    else
      match (if sl.checked then none else s.impossible ref.t sl) with
      | some i => s.failAt ref.t ref.q (Config.errQuotaExceeded, i)
      | none =>
        match s.cutLong ref sl with
        | .error e => s.failAt ref.t ref.q e
        | .ok (s, sl) =>
          if sl.segment.isSome && s.tick.capacity < sl.offerCost && !sl.exclusive then
            s.modSlice ref (fun sl => { sl with exclusive := true })
          else if !sl.exclusive && sl.offerCost ≤ s.left && s.demandsMet ref.t sl then s.admitSlice ref sl cls
          else s.passSlice ref
  | _, _ => s

/-- The cost that an offer has admitted. -/
def State.admittedCost (s : State) (it : Item) : Nat :=
  match s.slice it.ref with
  | some sl => if sl.inTick && sl.admittedAt = s.tick.count then sl.offerCost else 0
  | none => 0

/-- Whether a frame that a command names or pins lies on a stack whose boundary is to be quiet (R407); the frame of a
pinned KV frame is its arena's. -/
def State.onForced (s : State) (f : Nat) : Bool :=
  s.health.recalForce.contains (stackOfFrame (if 2 ^ 40 ≤ f then (f - 2 ^ 40) / 32 else f))

/-- Whether what an offer has admitted names a frame of such a stack in its output page list, or pins one. -/
def State.disturbs (s : State) (ref : SliceRef) : Bool :=
  match s.slice ref, s.run ref.t ref.q with
  | some sl, some r =>
    let homes := sl.outs.filterMap (fun o => (s.page ref.t o.1).map (·.home))
    sl.inTick && ((sl.fresh.map (·.frame) ++ homes).any s.onForced || (r.isOp && r.pinned.any s.onForced))
  | _, _ => false

/-- Commands that a quiet boundary holds back: pan, codec and ingest commands. -/
def quietOp (op : Nat) : Bool := (0x20 ≤ op && op ≤ 0x24) || (0x30 ≤ op && op ≤ 0x3A)

/-- Offers an item; before a boundary that is to be quiet for a stack, what would disturb it is passed over. -/
def State.offerItem (s : State) (it : Item) : State :=
  match s.run it.ref.t it.ref.q with
  | none => s
  | some r =>
    if it.op && (r.fail.isSome || r.begun) then s
    else
      let s' := if it.op then s.offerOp it.ref.t it.ref.q (opCheckOf (cOp r.words)) else s.offerSlice it.ref (s.baseClass it.ref.t it.ref.q)
      if s'.disturbs it.ref && (!it.op || quietOp (cOp r.words)) then s.passSlice it.ref else s'

/-- Offers an item at a boundary. -/
def offerAtBoundary (s : State) (it : Item) : State × Nat :=
  let s := s.offerItem it
  (s, s.admittedCost it)

/-- The queue from which each tenancy's first slice of item 3 is offered. -/
def State.firstQueue (s : State) (l : List Item) (t : Fin 4) : Option Nat :=
  (([3, 2, 1, 0] : List Nat).findSome? (fun c =>
    (rotated s.tens[t].rotation ((order3 l).filter (fun it => it.ref.t == t && it.cls == c))).head?)).map (·.ref.q.val)

/-- The first waiting exclusive segment in scheduling order whose demands are met. It takes the tick even where it is passed
over for a page that another command holds (R34): the tick then admits nothing (DESIGN CHOICE, log entry 63). -/
def State.exclusiveNow (s : State) (l : List Item) : Option Item :=
  let ex := l.filter (fun it => !it.op && ((s.slice it.ref).map (·.exclusive)).getD false)
  let byClass := ([3, 2, 1, 0] : List Nat).flatMap (fun c =>
    let k := ex.filter (fun it => it.cls == c)
    order1 k ++ order2 k ++ order3 k)
  byClass.find? (fun it => ((s.slice it.ref).map (fun sl => s.demandsMet it.ref.t sl)).getD false)

/-- Counts what R268 has demoted and R269 has promoted. -/
def State.countClasses (s : State) (l : List Item) : State :=
  let dem := l.filter (fun it => s.tens[it.ref.t].overShare[classIx (s.queueClass it.ref.t it.ref.q)])
  let pro := l.filter (·.promoted)
  let s := (s.bump 0x902A 5 dem.length).bump 0x902A 6 pro.length
  s.each (allT.filter (fun t => dem.any (fun it => it.ref.t == t))) (fun s t => s.bumpT t 0xA0C0 9 1)

/-- Step 11 of the sluice, after the ring steps: R32. `ex` is the exclusive segment to which the tick is granted. -/
def State.admitAll (s : State) (l : List Item) (ex : Option Item) : State :=
  let s := ((s.noteFirst l).countClasses l).levelV l
  let rot := fun (t : Fin 4) => s.tens[t].rotation
  match ex with
  | some it =>
    match s.slice it.ref with
    | none => s
    | some sl => s.admitSlice it.ref sl (s.baseClass it.ref.t it.ref.q)
  | none =>
    let firsts := allT.map (fun t => (t, s.firstQueue l t))
    let s := s.each ([3, 2, 1, 0] : List Nat) (fun s c =>
      s.offerClass offerAtBoundary (l.filter (fun it => it.cls == c)) rot)
    s.each firsts (fun s x =>
      match x.2 with
      | some q => s.modTen x.1 (fun y => { y with rotation := (q + 1) % 64 })
      | none => s)

/-! ### Rows that offer the slices of a command -/

/-- The head command of a queue is offered: its slices are read once it is a candidate, and each eligible one is
offered, by SLICE_INDEX. -/
def State.offerSlices (s : State) (t : Fin 4) (q : Fin 64) (op : Nat) : State :=
  let s := s.ensureHead t q 0
  match s.run t q with
  | none => s
  | some r =>
    if cOp r.words ≠ op || s.barred then s
    else
      let s := s.readSlices t q
      let l := s.queueItems t q
      (s.noteFirst l).each l (fun s it => s.offerSlice it.ref (s.baseClass t q))

/-- COMPUTE. -/
def execCompute (t : Fin 4) (q : Fin 64) (s : State) : Host.Outcome State Fault Refusal :=
  .next (s.offerSlices t q 0x01)

/-- IMG_CONV. -/
def execImgConv (t : Fin 4) (q : Fin 64) (s : State) : Host.Outcome State Fault Refusal :=
  .next (s.offerSlices t q 0x28)

/-- IMG_RESIZE. -/
def execImgResize (t : Fin 4) (q : Fin 64) (s : State) : Host.Outcome State Fault Refusal :=
  .next (s.offerSlices t q 0x29)

/-- IMG_PYRAMID. -/
def execImgPyramid (t : Fin 4) (q : Fin 64) (s : State) : Host.Outcome State Fault Refusal :=
  .next (s.offerSlices t q 0x2A)

/-- IMG_DETECT. -/
def execImgDetect (t : Fin 4) (q : Fin 64) (s : State) : Host.Outcome State Fault Refusal :=
  .next (s.offerSlices t q 0x2B)

/-! ### Break-in (R272, R273) -/

/-- Slices admitted in this tick and not finished (R43). A command that is not cut into slices has no declared cost and
is no victim (R203). -/
def State.unfinished (s : State) : List (SliceRef × Slice) :=
  s.allSlices.filter (fun x => x.2.state == .admitted && !x.2.killed &&
    !((s.run x.1.t x.1.q).map (·.isOp)).getD false)

/-- The victims of a break-in: lowest class first, then latest admitted first. -/
def State.victims (s : State) : List (SliceRef × Slice) :=
  sortBy (fun (a b : SliceRef × Slice) =>
      decide (a.2.effClass < b.2.effClass || (a.2.effClass = b.2.effClass && b.2.admOrder < a.2.admOrder)))
    (s.unfinished.filter (fun x => x.2.effClass < 3 && !x.2.ringStep))

/-- The victims to kill until `over` core-ns are freed; none when they do not suffice. -/
def victimsFor : List (SliceRef × Slice) → Nat → Option (List (SliceRef × Slice))
  | _, 0 => some []
  | [], _ => none
  | x :: r, n => (victimsFor r (n - x.2.offerCost)).map (x :: ·)

/-- Offers a candidate at a break-in point with `rem` core-ns left of the tick. -/
def offerBreakIn (rem : Nat) (s : State) (it : Item) : State × Nat :=
  match s.run it.ref.t it.ref.q with
  | none => (s, 0)
  | some r =>
    let sl := (s.slice it.ref).getD (opSlice [])
    if r.fail.isSome || sl.state != .waiting || sl.exclusive then (s, 0)
    else
      match (if it.op || sl.checked then none else s.impossible it.ref.t sl) with
      | some i => (s.failAt it.ref.t it.ref.q (Config.errQuotaExceeded, i), 0)
      | none =>
        let held := (s.unfinished.map (fun x => x.2.offerCost)).sum
        match (if it.op || s.demandsMet it.ref.t sl then victimsFor s.victims (held + sl.offerCost - rem) else none) with
        | none => (s.passSlice it.ref, 0)
        | some kills =>
          let try_ := if it.op then s.offerOp it.ref.t it.ref.q (opCheckOf (cOp r.words)) else s.admitSlice it.ref sl (s.baseClass it.ref.t it.ref.q)
          let n := try_.admittedCost it
          let in_ := ((try_.slice it.ref).map (fun x => x.inTick)).getD false
          if !in_ then (try_, 0)
          else
            let s := try_.each kills (fun s x =>
              let s := (s.kill x.1).bumpT x.1.t 0xA0C0 5 1
              let s := s.bump 0x902A 2 1
              if x.1.t = it.ref.t then s else s.bumpT x.1.t 0xA0C0 2 x.2.offerCost)
            (s.bumpT it.ref.t 0xA0C0 8 1, n)

/-- BREAK_IN at the j-th point of the tick. -/
def execBreakIn (j : Nat) (s : State) : Host.Outcome State Fault Refusal :=
  let tau := j * 125000
  .next (if j < 1 || s.tick.periodN ≤ j || s.tick.exclusiveTick || s.barred then s
    else
      let s := { s with tick := { s.tick with breakingIn := true } }
      let s := s.each allTQ (fun s x => s.ensureHead x.1 x.2 tau)
      let s := s.each allTQ (fun s x =>
        if s.effClassOf x.1 x.2 0 = 3 then s.readSlices x.1 x.2 else s)
      let l := s.items.filter (fun it => it.cls == 3)
      let rem := (s.tick.periodN * 125000 - tau) * s.tick.coresN * s.power.clockMHz / 2000
      let s := s.noteFirst l
      let hits := fun (s : State) => (allT.map (fun t => counter s.od (0xA0C0 + 256 * t.val) 8)).sum
      let rot := fun (t : Fin 4) => s.tens[t].rotation
      let s' := s.offerClass (offerBreakIn rem) l rot
      let s' := { s' with tick := { s'.tick with breakingIn := false } }
      s'.bump 0x902A 1 (if hits s < hits s' then 1 else 0))

end Sys2Proof.Machine
end

