-- ==== Sys2Proof/Machine/Health.lean ====
section
/-! DEFINITION. Health: hardware faults and memory errors (R409, R410), self-test (R405, R406), full recalibration
(R407), the risk estimate (R408), and the emergency throttle (R404). -/
namespace Sys2Proof.Machine

open Sys2Proof

/-- Changes the health values. -/
def State.modHealth (s : State) (f : HealthSt → HealthSt) : State := { s with health := f s.health }

/-- The times of a list within the last n seconds of tick time. -/
def State.recent (s : State) (seconds : Nat) (l : List Nat) : List Nat :=
  l.filter (fun x => s.tick.localNs ≤ x + seconds * 1000000000)

/-! ### Hardware faults (R409) -/

/-- HW_FAULT of a class and a unit. -/
def faultWord (cls unit : Nat) : BitVec 16 := BitVec.ofNat 16 (cls % 16 * 4096 + unit % 4096)

/-- Reports a fault in HW_FAULT. -/
def State.reportFault (s : State) (cls unit : Nat) : State := s.modHealth (fun h => { h with hwFault := faultWord cls unit })

/-- A core is withdrawn from the next sluice on (R406). -/
def State.failCore (s : State) (core : Nat) : State :=
  (s.modHealth (fun h => { h with failing := h.failing.filter (· != core) ++ [core] })).reportFault 1 core

/-- A stack is marked failed. -/
def State.failStack (s : State) (stack : Nat) : State :=
  (s.modHealth (fun h => { h with failedStacks := h.failedStacks ||| (1#24 <<< stack) })).reportFault 2 stack

/-- Ends a command with ERR_HARDWARE_FAULT, the HW_FAULT value as its address. -/
def State.faultCmd (s : State) (t : Fin 4) (q : Fin 64) : State :=
  s.failAt t q (Config.errHardwareFault, s.health.hwFault.toNat)

/-- Whether a command owns a cell of a crystalliser bank. -/
def CmdRun.inBank (r : CmdRun) (bank : Nat) : Bool :=
  (r.held ++ r.slices.flatMap (·.working)).any (fun k => k.loc == .crys bank)

/-- The queues whose head command meets a test. -/
def State.queuesWith (s : State) (p : Fin 4 → Fin 64 → CmdRun → Bool) : List (Fin 4 × Fin 64) :=
  allTQ.filter (fun x => match s.run x.1 x.2 with
    | some r => p x.1 x.2 r
    | none => false)

/-- Whether the STATS collective of a command owns a cell of a bank. -/
def State.collInBank (s : State) (t : Fin 4) (q : Fin 64) (bank : Nat) : Bool :=
  s.coll.colls.any (fun x => x.2.t == t && x.2.q == q && x.2.cellsHeld.any (fun k => k.loc == .crys bank))

/-- Whether a fault of a class can be found: the checks of a start-up find stacks, dies and the function ROM (R400; DEDUCED,
log entry 74). -/
def State.canFault (s : State) (cls : Nat) : Bool :=
  s.power.running || (s.power.input54 && s.power.pwrGood && !s.power.tripHold && (cls == 2 || cls == 3 || cls == 5))

/-- HARDWARE_FAULT: the fault is reported, and the consequence of its class follows. Trips and invalid images are reported
by TRIP and at start-up. -/
def execHardwareFault (cls unit : Nat) (s : State) : Host.Outcome State Fault Refusal :=
  noted (if !s.canFault cls then s
    else
      match cls with
      | 1 => if unit < 512 then s.failCore unit else s
      | 2 => if unit < 24 then s.failStack unit else s
      | 3 =>
        if unit < 4 then
          (s.modHealth (fun h => { h with failedDies := h.failedDies ||| (1#4 <<< unit) })).reportFault 3 unit
        else s
      | 4 =>
        if unit < 64 then
          let s := s.reportFault 4 unit
          s.each (s.queuesWith (fun t q r => r.inBank unit || s.collInBank t q unit)) (fun s x => s.faultCmd x.1 x.2)
        else s
      | 5 => ({ s with power := { s.power with blocked := true } } : State).reportFault 5 0
      | 9 =>
        if unit < 6 then
          let s := (s.modHealth (fun h => { h with failedUnits := h.failedUnits.filter (· != unit) ++ [unit] })).reportFault 9 unit
          s.each (s.queuesWith (fun t q r => r.begun && s.unitDown t q r)) (fun s x => s.faultCmd x.1 x.2)
        else s
      | _ => s)

/-! ### Memory errors (R410) -/

/-- Discards a slice of this tick; it is re-queued unchanged, as a killed slice is. -/
def State.discardSlice (s : State) (ref : SliceRef) : State :=
  (s.dropStrands (· == ref)).modSlice ref (fun sl => { sl with killed := true })

/-- The slices that own data in a core: those of its strands. -/
def State.strandOwners (s : State) (core : Nat) : List SliceRef :=
  ((s.cores.ctxs.filter (fun x => x.1 / 16 == core)).map (fun x => x.2.ref)).eraseDups

/-- The slices of this tick that hold tokens in the brine buffer of a core. -/
def State.brineOwners (s : State) (core : Nat) : List SliceRef :=
  (s.allSlices.filter (fun x => x.2.inTick && x.2.brine.any (fun g => g.core == core))).map (·.1)

/-- Notes an uncorrectable error that marked no unit failed (R408). -/
def State.noteUncorrected (s : State) : State := s.modHealth (fun h => { h with uncorrected := h.uncorrected ++ [s.tick.localNs] })

/-- An uncorrectable error in a core discards the slices that own the data; the second in one core within 3,600 s withdraws
it (R406, R410). -/
def State.coreError (s : State) (core : Nat) (owners : List SliceRef) : State :=
  let s := s.each owners State.discardSlice
  let before := (s.health.sramErrors.filter (fun x => x.1 == core && s.tick.localNs ≤ x.2 + 3600000000000)).length
  let s := s.modHealth (fun h => { h with sramErrors := h.sramErrors ++ [(core, s.tick.localNs)] })
  if 1 ≤ before then s.failCore core else s.noteUncorrected

/-- An uncorrectable error in a stack: the sixteenth within 3,600 s marks it failed. -/
def State.stackError (s : State) (stack : Nat) : State :=
  let s := s.modHealth (fun h => { h with stackErrors := h.stackErrors ++ [(stack, s.tick.localNs)] })
  let n := (s.health.stackErrors.filter (fun x => x.1 == stack && s.tick.localNs ≤ x.2 + 3600000000000)).length
  if 16 ≤ n && !s.health.failedStacks.getLsbD stack then s.failStack stack else s.noteUncorrected

/-- Drops the copies of a page on a die. -/
def State.dropCopy (s : State) (t : Fin 4) (v die : Nat) : State :=
  if inModelWindow v then
    let p := v - Config.modelPage0
    let s := s.dropDie (fun k u => k / Config.dieFrames == die && u == .model p)
    { s with mem := { s.mem with model := { s.mem.model with
      staged := kmod s.mem.model.staged p (fun (m : BitVec 4) => m &&& ~~~(1#4 <<< die)) } } }
  else
    let s := s.dropDie (fun k u => k / Config.dieFrames == die && (u == .pin t v || u == .copy t v))
    s.modPage t v (fun e => { e with staged := e.staged &&& ~~~(1#4 <<< die) })

/-- The stack of the home frame of an address of Tt. -/
def State.stackAt (s : State) (t : Fin 4) (a : Nat) : Option Nat :=
  match s.reachCommitted t (pageOf a) with
  | .frame f => some (stackOfFrame f)
  | .error _ => none

/-- The stack of the pan-side cell of a command that is bound to an address. -/
def State.panCellAt (s : State) (t : Fin 4) (q : Fin 64) (a : Nat) : Option Nat :=
  (s.run t q).bind (fun r => (r.held ++ r.slices.flatMap (·.working)).findSome? (fun k =>
    if k.dest == a then (match k.loc with | .pan st => some st | .crys _ => none) else none))

/-- SRAM_UNCORRECTABLE_ERROR, by the place of the error. -/
def execSramUncorrectableError (site : SramSite) (s : State) : Host.Outcome State Fault Refusal :=
  noted (match site with
    | .coreStore c => s.coreError c.val (s.strandOwners c.val)
    | .accumulator c => s.coreError c.val (s.strandOwners c.val)
    | .brine c => s.coreError c.val (s.brineOwners c.val)
    | .dieCopy t v die => (s.dropCopy t v die.val).noteUncorrected
    | .homeFrame t q a =>
      let s' := s.failAt t q (Config.errMemoryFailed, a)
      (match s.stackAt t a with | some k => s'.stackError k | none => s')
    | .panCell t q a =>
      (match s.panCellAt t q a with
       | some k => (s.failAt t q (Config.errMemoryFailed, a)).stackError k
       | none => s)
    | .transient t q => s.failOpen t q Config.errInternal)

/-- CORRECTED_ERROR: it counts in the risk estimate (R408). -/
def execCorrectedError (site : CorrectedSite) (s : State) : Host.Outcome State Fault Refusal :=
  .next (match site with
    | .hbm => s.modHealth (fun h => { h with corrHbm := h.corrHbm ++ [s.tick.localNs] })
    | .sram => s.modHealth (fun h => { h with corrSram := h.corrSram ++ [s.tick.localNs] }))

/-- INPUT_EXCURSION: the input has left 48 V to 60 V. -/
def execInputExcursion (s : State) : Host.Outcome State Fault Refusal :=
  .next (s.modHealth (fun h => { h with excursions := h.excursions ++ [s.tick.localNs] }))

/-! ### The risk estimate (R408) -/

/-- Points of n corrected errors, with a limit. -/
def errorPoints (n limit : Nat) : Nat := min limit (8 * Nat.log2 (1 + n))

/-- The hottest sensor 60 s ago: the newest sample of that age, else the oldest. -/
def State.tempBefore (s : State) : Int :=
  let old := s.health.tempHistory.filter (fun x => x.1 + 60000000000 ≤ s.tick.localNs)
  ((old.getLast?).orElse (fun _ => s.health.tempHistory.head?)).elim s.hottest (·.2)

/-- RISK. -/
def State.riskPoints (s : State) : Nat :=
  let h := s.health
  let t := s.hottest
  let temp := min 80 (4 * ((t - 85000) / 1000).toNat)
  let trend := min 60 (20 * ((t - s.tempBefore) / 1000).toNat)
  let cores := (h.failing.filter (fun c => !s.cores.failed.contains c)).length + s.cores.failed.length
  min 255 (temp + trend + errorPoints (s.recent 60 h.corrHbm).length 64 + errorPoints (s.recent 60 h.corrSram).length 32 +
    min 48 (4 * (s.recent 3600 h.retrains).length) + min 96 (32 * (s.recent 3600 h.uncorrected).length) +
    min 32 (16 * (s.recent 3600 h.excursions).length) + 64 * cores +
    (if h.failedStacks ≠ 0 ∨ h.failedDies ≠ 0 then 255 else 0))

/-- Computes RISK, and keeps the sample of T; what has left every window is dropped. -/
def State.updateRisk (s : State) : State :=
  let r := s.riskPoints
  let now := s.tick.localNs
  let s' := s.modHealth (fun h => { h with
    risk := r
    tempHistory := (h.tempHistory.filter (fun x => now ≤ x.1 + 61000000000)) ++ [(now, s.hottest)]
    corrHbm := s.recent 60 h.corrHbm
    corrSram := s.recent 60 h.corrSram
    retrains := s.recent 3600 h.retrains
    uncorrected := s.recent 3600 h.uncorrected
    excursions := s.recent 3600 h.excursions })
  s'

/-- RISK_UPDATE: RISK is computed anew from what has been observed. -/
def execRiskUpdate (s : State) : Host.Outcome State Fault Refusal :=
  noted (if s.power.running then s.updateRisk else s)

/-! ### Self-test (R405, R406) -/

/-- Begins a round when one is due. -/
def State.startRound (s : State) : State :=
  if s.odn 0x8000 4 = 1 && s.health.roundTick.isNone && s.health.roundDue ≤ s.tick.localNs then
    s.modHealth (fun h => { h with roundTick := some 0, roundDue := s.tick.localNs + 60000000000 })
  else s

/-- SELFTEST_ROUND. -/
def execSelftestRound (s : State) : Host.Outcome State Fault Refusal :=
  .next (if s.power.running then s.startRound else s)

/-- SELFTEST_RESULT: a core that fails its test is withdrawn from the next sluice on. -/
def execSelftestResult (core : Fin 512) (pass : Bool) (s : State) : Host.Outcome State Fault Refusal :=
  noted (if s.cores.testing.contains core.val && !pass then s.failCore core.val else s)

/-! ### HBM recalibration (R407) -/

/-- HBM_RECALIBRATION_REQUEST. -/
def execHbmRecalibrationRequest (stack : Fin 24) (s : State) : Host.Outcome State Fault Refusal :=
  .next (if s.power.running && s.stacks.contains stack.val && (kget s.health.recalRequest stack.val).isNone &&
      !s.health.recalRunning.contains stack.val then
      s.modHealth (fun h => { h with recalRequest := kset h.recalRequest stack.val s.tick.count })
    else s)

/-- Whether a requested recalibration has waited for QUIET_WAIT ticks. -/
def State.quietExpired (s : State) (stack : Nat) : Bool :=
  match kget s.health.recalRequest stack with
  | some k => decide (k + s.odn 0x8000 1 ≤ s.tick.count)
  | none => false

/-- The next boundary is to be quiet for a stack. -/
def State.forceQuiet (s : State) (stack : Nat) : State :=
  s.modHealth (fun h => { h with recalForce := h.recalForce.filter (· != stack) ++ [stack] })

/-- QUIET_WAIT_EXPIRY: no quiet boundary has come within QUIET_WAIT ticks of the request. -/
def execQuietWaitExpiry (stack : Fin 24) (s : State) : Host.Outcome State Fault Refusal :=
  .next (if s.quietExpired stack.val then s.forceQuiet stack.val else s)

/-- HBM_RECALIBRATION_DONE: the stack serves again. -/
def execHbmRecalibrationDone (stack : Fin 24) (s : State) : Host.Outcome State Fault Refusal :=
  .next (s.modHealth (fun h => { h with recalRunning := h.recalRunning.filter (· != stack.val) }))

/-! ### The emergency throttle (R404) -/

/-- Half of f, a multiple of 100 MHz, 800 MHz at least. -/
def halfClock (f : Nat) : Nat := max 800 (f / 200 * 100)

/-- The order in which a throttle kills: ring steps last, lowest effective class first, latest admitted first. -/
def throttleLt (a b : SliceRef × Slice) : Bool :=
  if a.2.ringStep != b.2.ringStep then b.2.ringStep
  else decide (a.2.effClass < b.2.effClass || (a.2.effClass = b.2.effClass && b.2.admOrder < a.2.admOrder))

/-- The slices to kill until the declared costs of the rest are at most `rem`. -/
def throttleKills (rem : Nat) : List (SliceRef × Slice) → List SliceRef
  | [] => []
  | x :: r =>
    if ((x :: r).map (fun y => y.2.offerCost)).sum ≤ rem then [] else x.1 :: throttleKills rem r

/-- EMERGENCY_THROTTLE at time τ of the tick. -/
def execEmergencyThrottle (tau : Nat) (s : State) : Host.Outcome State Fault Refusal :=
  noted (if !s.power.running then s
    else
      let f := halfClock s.power.clockMHz
      let rem := (s.tick.periodN * 125000 - tau) * s.tick.coresN * f / 2000
      let s := { s with power := { s.power with clockMHz := f }, tick := { s.tick with lostCapacity := true } }
      s.each (throttleKills rem (sortBy throttleLt s.unfinished)) (fun s ref => (s.kill ref).bumpT ref.t 0xA0C0 5 1))

end Sys2Proof.Machine
end

