-- ==== Sys2Proof/Machine/InstallOps.lean ====
section
/-! DEFINITION. What the installation port sends and how an installation ends (R379 to R381, R384, R388). -/
namespace Sys2Proof.Machine

open Sys2Proof

/-- A datagram of the module (R379): the fields of *Installation header* in a reply. -/
def State.instFrame (s : State) (kind session seq offset code status : Nat) (body : List Byte) : List Byte :=
  [1] ++ leBytes 1 kind ++ [0, 0] ++ u32b session ++ u64b seq ++ u64b offset ++ u32b body.length ++ u16b code ++
    leBytes 1 status ++ leBytes 1 (s.install.state + 16 * s.install.phase) ++ u64b s.tick.count ++
    List.replicate 8 0 ++ body

/-- The error code that a STATUS carries. -/
def statusCode (status : Nat) : Nat :=
  match status with
  | 8 => Config.errDigestMismatch
  | 9 => Config.errSignatureInvalid
  | _ => 0

/-- A STATUS. -/
def State.instStatus (s : State) (session seq offset status : Nat) : List Byte :=
  s.instFrame 4 session seq offset (statusCode status) status []

/-- Sends a datagram to the address of the installation's session. -/
def State.toInstaller (s : State) (d : List Byte) : State := s.emit (.install s.install.src d)

/-- Reports a phase completion or a change of INSTALL_STATE. -/
def State.reportInstall (s : State) (status : Nat) : State := s.toInstaller (s.instStatus s.install.session 0 0 status)

/-- Sends an ACK: bytes received without a gap from 0. -/
def State.sendAck (s : State) : State := s.toInstaller (s.instFrame 3 s.install.session 0 s.install.bytes 0 0 [])

/-- Writes the installation journal (R381). -/
def State.journal (s : State) : State :=
  { s with flash := { s.flash with journalState := s.install.state, journalPhase := s.install.phase,
                                   journalBytes := s.install.bytes } }

/-- Completes a phase. -/
def State.endPhase (s : State) (n : Nat) : State :=
  ({ s with install := { s.install with phase := n } }.journal).reportInstall 0

/-- Ends an installation before its seal: its frames are scrubbed, the phase reached is kept (R388). -/
def State.endInstall (s : State) (state status : Nat) : State :=
  let s := s.each s.install.frames (fun s f => s.useFrame f .scrub)
  let s := { s with install := { s.install with
    state := state, frames := [], framesDue := false, digestDue := false, digestRun := false, digestEnd := false, verified := false,
    sealDue := false } }
  (s.journal).reportInstall status

/-- Ends a firmware update: its slot stays invalid (R378). -/
def State.endUpdate (s : State) (status : Nat) : State :=
  { s with install := { s.install with fwActive := false, fwReceived := [] } }.reportInstall status

/-- Whether an installation streams in, or waits to. -/
def InstallSt.streaming (x : InstallSt) : Bool := x.state == 1 && x.phase < 2

/-- The session of an installation closes: before phase 2 ends the installation fails (R384). -/
def State.installerGone (s : State) (n : Nat) : State :=
  if s.install.session ≠ n then s
  else if s.install.streaming then s.endInstall 4 11
  else if s.install.fwActive then s.endUpdate 11
  else s

end Sys2Proof.Machine
end

