-- ==== Sys2Proof/Machine/Jdp.lean ====
section
/-! DEFINITION. The Jeril Dictionary Protocol: frames and their statuses (R299 to R302), the two passes of a frame
(R303), sessions and signatures (R304 to R307), authority (R308, R309), written values (R310, R311), stores (R312,
R313), and the delivery of notifications (R314, R315). -/
namespace Sys2Proof.Machine

open Sys2Proof

/-! ### Values -/

/-- The value that the bytes of a WRITE encode in a type; none where LEN differs from the full encoding (R310). -/
def odDecode (t : OdType) (b : List Byte) : Option OdVal :=
  match t with
  | .str => if b.isEmpty || b.length ≠ 1 + leAt b 0 1 then none else some (.bytes (b.drop 1))
  | .blob => if b.length < 2 || b.length ≠ 2 + leAt b 0 2 then none else some (.bytes (b.drop 2))
  | .digest => if b.length = 32 then some (.bytes b) else none
  | t => if b.length = odSize t then some (.num (ofLe b)) else none

/-- Whether a list has no repeats. -/
def distinct (l : List Nat) : Bool := l.eraseDups.length == l.length

/-- Whether a written group table entry keeps the rules of R339. -/
def State.groupOk (s : State) (b : List Byte) : Bool :=
  let n := leAt b 2 2
  let members := (List.range n).map (fun i => leAt b (4 + 2 * i) 2)
  b.isEmpty || (leAt b 1 1 ≤ 3 && 2 ≤ n && n ≤ 4094 && b.length == 4 + 2 * n && members.all (· ≤ 4095) &&
    distinct members && members.contains s.moduleId)

/-- Whether a key slot value has the form of R309. -/
def keySlotOk (b : List Byte) : Bool :=
  b.isEmpty || (b.length == 1960 && leAt b 0 2 < 64 && leAt b 2 6 == 0)

/-- Whether an F32 entry accepts the bits: no NaN, and the infinities only where the range has them (R310). -/
def f32Accepts (n : Nat) : Bool := (f32v (BitVec.ofNat 32 n)).isFin

/-- Whether a value lies within the range or codes that an entry's chapter states. -/
def State.valueOk (s : State) (i sub : Nat) (v : OdVal) : Bool :=
  let n := v.toNat
  let b := v.toBytes
  let between := fun (lo hi : Nat) => decide (lo ≤ n ∧ n ≤ hi)
  match odEntry i sub with
  | none => false
  | some e =>
    if e.type = .bool then n ≤ 1
    else if 0x4100 ≤ i ∧ i ≤ 0x41FE then
      match sub with
      | 2 => n ≤ 1
      | 5 => f32Accepts n || n == 0x7F800000
      | 6 => n ≤ 1024
      | 7 => n ≤ 2
      | _ => true
    else if 0x5100 ≤ i ∧ i ≤ 0x51FF then (if sub = 1 then s.groupOk b else n ≤ 0x100)
    else if 0x6010 = i then n == 1
    else if 0x7010 = i then keySlotOk b
    else if 0xA000 ≤ i then
      match i % 256 with
      | 0x70 => n ≤ 1
      | 0x71 => between 0x3F800000 0x42FC0000
      | 0x72 => n == 1
      | 0xA0 => n < 2 ^ 24 && 1 ≤ bits n 16 8 && bits n 16 8 ≤ 64
      | 0xA1 => n == 1
      | 0xB0 => n ≤ s.odn 0x2010 (1 + (tenancyOf i).val)
      | _ => true
    else
      match i, sub with
      | 0x1000, 1 => n ≤ 4095
      | 0x1010, 3 => n ≤ 32
      | 0x1011, 3 => n ≤ 32
      | 0x1012, 3 => n ≤ 32
      | 0x1010, 5 => b.length == 0 || b.length == 16
      | 0x1011, 5 => b.length == 0 || b.length == 16
      | 0x1012, 5 => b.length == 0 || b.length == 16
      | 0x1010, 6 => n ≤ 128
      | 0x1011, 6 => n ≤ 128
      | 0x1012, 6 => n ≤ 128
      | 0x1020, 1 => n &&& 0x60 == 0 && n &&& 0x1F != 0
      | 0x1030, 2 => between 10 3600
      | 0x2000, 1 => between 1 128
      | 0x2012, 1 => n ≤ 2
      | 0x2013, _ => n ≤ 100
      | 0x3001, 1 => n < 0xFFFFFF
      | 0x3002, 1 => n ≤ 56
      | 0x3104, 1 => n == 1
      | 0x4001, 1 => between 1 100
      | 0x5000, 1 => between 1 255
      | 0x5000, 2 => 1 ≤ n
      | 0x5002, 1 => n ≤ 0x3FFFF
      | 0x5200, 1 => n == 1
      | 0x6001, 1 => between 125 10000000
      | 0x6001, 2 => between 1000 1000000
      | 0x6001, 3 => n ≤ 1
      | 0x8000, 2 => between 1000 3400
      | 0x8000, 3 => n < 15
      | _, _ => if i = 0x2010 then n ≤ 3 else true

/-! ### Tables -/

/-- The commit state of the double-buffered table that an entry belongs to, as a value or as its commit entry
(R48, R49). -/
def State.tableState (s : State) (i sub : Nat) : Option CommitState :=
  if (0x3100 ≤ i ∧ i ≤ 0x3103) ∨ (i = 0x3104 ∧ sub = 1) then some s.od.quotaCommit
  else if (0x5100 ≤ i ∧ i ≤ 0x51FF ∧ sub = 1) ∨ i = 0x5200 then some s.od.groupCommit
  else if i = 0x6010 then (kget s.ingest (sub - 1)).map (·.augCommit)
  else if i < 0xA000 then none
  else if i % 256 = 0x70 ∨ i % 256 = 0x71 ∨ i % 256 = 0x72 then some s.od.skipCommit[tenancyOf i]
  else if i % 256 = 0xA0 ∨ i % 256 = 0xA1 then some s.od.quantCommit[tenancyOf i]
  else none

/-- Writes 1 to a commit entry. -/
def State.commitTable (s : State) (i sub : Nat) : State :=
  if i = 0x3104 then { s with od := { s.od with quotaCommit := .pending } }
  else if i = 0x5200 then { s with od := { s.od with groupCommit := .pending } }
  else if i = 0x6010 then
    { s with ingest := kmod s.ingest (sub - 1) (fun (x : Stream) => { x with augCommit := .pending }) }
  else if i % 256 = 0x72 then { s with od := { s.od with skipCommit := s.od.skipCommit.set (tenancyOf i) .pending } }
  else { s with od := { s.od with quantCommit := s.od.quantCommit.set (tenancyOf i) .pending } }

/-- Whether an entry is a commit entry. -/
def isCommit (i sub : Nat) : Bool :=
  (i == 0x3104 && sub == 1) || i == 0x5200 || i == 0x6010 || (0xA000 ≤ i && (i % 256 == 0x72 || i % 256 == 0xA1))

/-! ### The store (R312, R313) -/

/-- The range of an entry: 0 the module ranges, t + 1 the range of Tt. -/
def odRange (i : Nat) : Nat := if i < 0xA000 then 0 else (tenancyOf i).val + 1

/-- Whether an entry is a key slot. -/
def isKeySlot (i : Nat) : Bool := i == 0x7010

/-- Whether store area B holds the newest values whose digest verifies. -/
def FlashSt.newestIsB (f : FlashSt) : Bool := f.storeB.intact && (!f.storeA.intact || f.storeA.serial < f.storeB.serial)

/-- The newest store area. -/
def FlashSt.newest (f : FlashSt) : StoreArea := if f.newestIsB then f.storeB else f.storeA

/-- The entries flagged S of one range, as keys. -/
def storedKeys (range : Nat) : List Nat :=
  let idx : List Nat := if range = 0 then
      [0x1000, 0x1010, 0x1011, 0x1012, 0x1030, 0x2000, 0x2010, 0x2011, 0x2013, 0x3001, 0x3002] ++
        (List.range 4).map (0x3100 + ·) ++ [0x4001] ++ (List.range 255).map (0x4100 + ·) ++ [0x5000, 0x5002] ++
        (List.range 256).map (0x5100 + ·) ++ [0x6001, 0x8000]
    else [0x50, 0x60, 0x70, 0x71, 0x80, 0xA0, 0xB0, 0xE0].map (fun o => 0x9F00 + 256 * range + o)
  idx.flatMap (fun i => ((List.range 130).map (odKey i)).filter (fun k =>
    match odEntry i (k % 256) with
    | some e => e.stored && e.access != .ro
    | none => false))

/-- The value of an entry that a store takes. -/
def State.storeValue (s : State) (k : Nat) : OdVal :=
  let i := k / 256
  let live := if 0x5100 ≤ i ∧ i ≤ 0x51FF then OdVal.bytes (s.groupBytes (i - 0x5100)) else odVal s.od k
  match odEntry i (k % 256) with
  | some e =>
    if e.access = .rwb then (kget s.od.rwb k).getD live
    else if k = odKey 0x2000 1 ∧ s.net.changeAt ≠ 0 then .num s.net.nextN
    else if e.access = .rwt then (kget s.od.rwt k).getD live
    else live
  | none => live

/-- What a store with this command writes: the selected ranges anew, all else as it was. -/
def State.storeImage (s : State) (cmd : Nat) : KMap OdVal :=
  let sel := (List.range 5).filter cmd.testBit
  let kept := s.flash.newest.values.filter (fun x => isKeySlot (x.1 / 256) || !sel.contains (odRange (x.1 / 256)))
  if cmd.testBit 7 then kept
  else (sel.flatMap storedKeys).foldl (fun m k => kset m k (s.storeValue k)) kept

/-- Starts a store. -/
def State.startStore (s : State) (cmd : Nat) : State :=
  { s with od := { s.od with storeTaken := s.storeImage cmd, storeState := 1 } }

/-- Ends a store, complete or failed: the area that does not hold the newest values is written. -/
def State.endStore (s : State) (ok : Bool) : State :=
  let area : StoreArea := { serial := s.flash.newest.serial + 1, intact := ok, values := s.od.storeTaken }
  let f := if s.flash.newestIsB then { s.flash with storeA := area } else { s.flash with storeB := area }
  let f := if ok then { f with storeCount := (f.storeCount + 1) % 2 ^ 32 } else f
  let s := { s with flash := f, od := { s.od with storeState := if ok then 0 else 2, storeTaken := [] } }
  if ok then s.bump 0x902C 8 1 else s

/-- STORE_DONE. -/
def execStoreDone (ok : Bool) (s : State) : Host.Outcome State Fault Refusal :=
  noted (if s.od.storeState = 1 then s.endStore ok else s)

/-- A key slot is stored before its write is acknowledged, and takes effect at once (R309). A store in progress keeps
the slot as written (R312). -/
def State.writeKeySlot (s : State) (k : Nat) (v : OdVal) : State :=
  let put := fun (a : StoreArea) => { a with values := kset a.values k v }
  { s with od := { s.od with live := kset s.od.live k v,
                             storeTaken := if s.od.storeState = 1 then kset s.od.storeTaken k v else s.od.storeTaken },
           flash := { s.flash with storeA := put s.flash.storeA, storeB := put s.flash.storeB } }

/-! ### Authority (R308, R309) -/

/-- Who sent a frame: its transport, its session, and the rights of the key that signed it. -/
structure Client where
  src : Transport
  session : Option Nat
  rights : Option Nat
deriving DecidableEq, Repr

/-- Whether the frame may read an entry. -/
def State.mayRead (s : State) (c : Client) (i : Nat) : Bool :=
  match c.src, c.rights with
  | .mailbox t, _ => i < 0xA000 || tenancyOf i == t
  | .ethernet _, some r => i < 0xA000 || r.testBit ((tenancyOf i).val + 1)
  | .ethernet _, none => i < 0xA000 && s.odn 0x1030 3 == 1

/-- The tenancy that owns an entry flagged O: the owner of its stream. -/
def State.ownerOf (s : State) (sub : Nat) : Option (Fin 4) :=
  match kget s.ingest (sub - 1) with
  | some x => if x.visible then some x.owner else none
  | none => none

/-- Whether every key slot is empty. -/
def State.noKeys (s : State) : Bool := (List.range 8).all (fun k => (odBytes s.od 0x7010 (k + 1)).isEmpty)

/-- Whether a frame may write STORE_CMD: every range it selects needs its own authority (R312). -/
def storeRights (c : Client) (cmd : Nat) : Bool :=
  match c.src, c.rights with
  | .mailbox t, _ => (List.range 5).all (fun b => !cmd.testBit b || b == t.val + 1)
  | .ethernet _, some r => (List.range 5).all (fun b => !cmd.testBit b || r.testBit b)
  | .ethernet _, none => false

/-- Whether the frame may write an entry; `only`: the frame has no other operation. -/
def State.mayWrite (s : State) (c : Client) (only : Bool) (i sub : Nat) (value : List Byte) : Bool :=
  let owned := match odEntry i sub with
    | some e => e.owned
    | none => false
  if i = 0x1020 ∧ sub = 1 then storeRights c (leAt value 0 1)
  else
    match c.src, c.rights with
    | .mailbox t, _ => if owned then s.ownerOf sub == some t else 0xA000 ≤ i && tenancyOf i == t
    | .ethernet _, some r =>
      if owned then ((s.ownerOf sub).map (fun t => r.testBit (t.val + 1))).getD false
      else if isKeySlot i then r.testBit 5
      else if i < 0xA000 then r.testBit 0
      else r.testBit ((tenancyOf i).val + 1)
    | .ethernet e, none =>
      e.port.val == 2 && only && i == 0x7010 && sub == 1 && s.noKeys && (leAt value 2 2).testBit 5

/-- Whether some slot would keep bit 5 set after a write of a slot. -/
def State.keepsEnroller (s : State) (sub : Nat) (v : OdVal) : Bool :=
  (List.range 8).any (fun k =>
    let b := if k + 1 = sub then v.toBytes else odBytes s.od 0x7010 (k + 1)
    (leAt b 0 2).testBit 5)

/-! ### Operations -/

/-- An operation record. -/
structure OpRec where
  op : Nat
  sub : Nat
  index : Nat
  len : Nat
  value : List Byte
deriving DecidableEq, Repr

/-- The next multiple of 8. -/
def pad8 (n : Nat) : Nat := ceilDiv n 8 * 8

/-- Bytes padded with zeros to a multiple of 8. -/
def padded8 (b : List Byte) : List Byte := b ++ List.replicate (pad8 b.length - b.length) 0

/-- Reads COUNT records of a request; none where they overrun the frame, where one breaks R6 or R302, or where bytes
remain. -/
def readRecs : Nat → List Byte → Option (List OpRec)
  | 0, b => if b.isEmpty then some [] else none
  | n + 1, b =>
    let len := leAt b 4 2
    let r : OpRec := { op := leAt b 0 1, sub := leAt b 1 1, index := leAt b 2 2, len := len, value := slice b 8 len }
    if b.length < 8 + pad8 len || r.op = 0 || 4 < r.op || leAt b 6 2 ≠ 0 ||
        (slice b (8 + len) (pad8 len - len)).any (· != 0) then none
    else (readRecs n (b.drop (8 + pad8 len))).map (r :: ·)

/-- The subscriptions of a client. -/
def State.subsOf (s : State) (c : Client) : List Nat :=
  match c.src, c.session with
  | .mailbox t, _ => s.od.mbxSubs[t]
  | .ethernet _, some n => ((s.od.sessions.find? (fun x => x.number == n)).map (·.subs)).getD []
  | .ethernet _, none => []

/-- Changes the subscriptions and the pending records of a client. -/
def State.modSubs (s : State) (c : Client) (f : List Nat → List Nat) (g : List Pending → List Pending) : State :=
  match c.src, c.session with
  | .mailbox t, _ =>
    { s with od := { s.od with mbxSubs := s.od.mbxSubs.set t (f s.od.mbxSubs[t]),
                               mbxPend := s.od.mbxPend.set t (g s.od.mbxPend[t]) } }
  | .ethernet _, some n =>
    { s with od := { s.od with sessions := s.od.sessions.map (fun (x : Session) =>
        if x.number = n then { x with subs := f x.subs, pend := g x.pend } else x) } }
  | .ethernet _, none => s

/-- Subscribes a client; a new subscription begins at the present value. -/
def State.subscribe (s : State) (c : Client) (k : Nat) : State :=
  let s := if s.subscribed.contains k then s
    else { s with od := { s.od with notified := kset s.od.notified k (s.odRead (k / 256) (k % 256)) } }
  s.modSubs c (fun l => if l.contains k then l else l ++ [k]) id

/-- A written TICK_PERIOD: alone, at the next sluice; on the system tick master of joined modules, at the boundary that it
announces. A write falls inside tick k (R303), so the first boundary at least 16 ticks after it is k + 17 (R24). -/
def State.writePeriod (s : State) (n : Nat) : State :=
  if s.joined then { s with net := { s.net with nextN := n, changeAt := s.tick.count + 17 } }
  else { s with od := { s.od with rwt := kset s.od.rwt (odKey 0x2000 1) (.num n) } }

/-- The effect of a write (R311). -/
def State.odWrite (s : State) (i sub : Nat) (v : OdVal) : State :=
  let k := odKey i sub
  if isCommit i sub then s.commitTable i sub
  else if i = 0x1020 then s.startStore v.toNat
  else if isKeySlot i then s.writeKeySlot k v
  else if i = 0x2000 then s.writePeriod v.toNat
  else
    match odEntry i sub with
    | none => s
    | some e =>
      match e.access with
      | .rw => { s with od := { s.od with live := kset s.od.live k v } }
      | .rwt => { s with od := { s.od with rwt := kset s.od.rwt k v } }
      | .rwb => { s with od := { s.od with rwb := kset s.od.rwb k v } }
      | .table =>
        let g := if 0x5100 ≤ i ∧ i ≤ 0x51FF then
            (s.od.groupWritten.filter (· != i - 0x5100)) ++ [i - 0x5100]
          else s.od.groupWritten
        { s with od := { s.od with shadow := kset s.od.shadow k v, groupWritten := g } }
      | _ => s

/-- Why a write is refused after its authority and access have passed: BAD_LENGTH, BAD_VALUE, BUSY, REFUSED. -/
def State.writeStatus (s : State) (r : OpRec) (e : OdEntry) : Nat × Option OdVal :=
  match odDecode e.type r.value with
  | none => (5, none)
  | some v =>
    if !s.valueOk r.index r.sub v || 8192 < v.toBytes.length then (6, none)
    else if (s.tableState r.index r.sub).getD .idle != .idle || (r.index = 0x1020 && s.od.storeState = 1) then (7, none)
    else if isKeySlot r.index && !s.keepsEnroller r.sub v then (9, none)
    else if r.index = 0x2000 && s.joined && !s.isSystemTickMaster then (9, none)
    else (0, some v)

/-- One operation of pass 1: its status, the value it reads, and the state after it (R303). -/
def State.opApply (s : State) (c : Client) (only : Bool) (r : OpRec) : Nat × List Byte × State :=
  match odEntry r.index r.sub with
  | none => (1, [], s)
  | some e =>
    let k := odKey r.index r.sub
    if r.op = 2 then
      if !s.mayWrite c only r.index r.sub r.value then (2, [], s)
      else if e.access = .ro then (3, [], s)
      else
        match s.writeStatus r e with
        | (0, some v) => (0, [], s.odWrite r.index r.sub v)
        | (n, _) => (n, [], s)
    else if !s.mayRead c r.index then (2, [], s)
    else if r.op = 1 && e.access = .wo then (4, [], s)
    else if r.len ≠ 0 then (5, [], s)
    else if r.op = 1 then (0, odEncode e.type (s.odRead r.index r.sub), s)
    else if r.op = 4 then (0, [], s.modSubs c (·.filter (· != k)) (·.filter (fun p => p.key != k)))
    else if !e.notify then (6, [], s)
    else
      let l := s.subsOf c
      let holder : Bool := match c.src with
        | .mailbox _ => true
        | .ethernet _ => c.session.isSome
      if l.contains k then (0, [], s)
      else if !holder || 64 ≤ l.length then (10, [], s)
      else (0, [], s.subscribe c k)

/-- Pass 1 over the records: statuses and read values, the state left, and the size of the response. -/
def applyRecs (c : Client) (only : Bool) : List OpRec → State → Nat → Bool → List (OpRec × Nat × List Byte) × State
  | [], s, _, _ => ([], s)
  | r :: rest, s, size, full =>
    let x := s.opApply c only r
    let size := size + 8 + (if x.1 = 0 then pad8 x.2.1.length else 0)
    let limit := x.1 = 0 ∧ 16384 < size ∧ full = false
    let st := if limit then 10 else x.1
    let y := applyRecs c only rest x.2.2 size (full || decide limit)
    ((r, st, if limit then [] else x.2.1) :: y.1, y.2)

/-! ### Frames -/

/-- A frame of the module: TYPE, SESSION, SEQ, COUNT, STATUS, TICK and its body. -/
def jdpFrame (type session seq count status tick : Nat) (body : List Byte) : List Byte :=
  [1, BitVec.ofNat 8 type, 0, 0] ++ u32b session ++ u64b seq ++ u32b (32 + body.length) ++ u16b count ++
    leBytes 1 status ++ [0] ++ u64b tick ++ body

/-- A response record. -/
def respRec (r : OpRec) (status : Nat) (value : List Byte) : List Byte :=
  leBytes 1 r.op ++ leBytes 1 r.sub ++ u16b r.index ++ u16b value.length ++ leBytes 1 status ++ [0] ++ padded8 value

/-- The fields of a frame's header. -/
def jType (f : List Byte) : Nat := leAt f 1 1
/-- SIGNED. -/
def jSigned (f : List Byte) : Bool := (leAt f 2 2).testBit 0
/-- SESSION. -/
def jSession (f : List Byte) : Nat := leAt f 4 4
/-- SEQ. -/
def jSeq (f : List Byte) : Nat := leAt f 8 8
/-- COUNT. -/
def jCount (f : List Byte) : Nat := leAt f 20 2

/-- The bytes between the header and the trailer. -/
def jBody (f : List Byte) : List Byte := (if jSigned f then f.take (f.length - 3320) else f).drop 32

/-- Whether the header, and the trailer of a signed frame, keep R300, R301, R6 and R307. -/
def jHeadOk (f : List Byte) : Bool :=
  let tr := f.drop (f.length - 3320)
  leAt f 16 4 == f.length && f.length % 8 == 0 && f.length ≤ 16384 && leAt f 2 2 ≤ 1 && leAt f 22 10 == 0 &&
    (!jSigned f || (3352 ≤ f.length && leAt tr 0 1 ≤ 7 && leAt tr 1 7 == 0 && leAt tr 3317 3 == 0))

/-- Whether the transport allows the TYPE (R301). -/
def jTypeOk (src : Transport) (type : Nat) : Bool :=
  match src with
  | .ethernet _ => type == 1 || type == 4 || type == 6
  | .mailbox _ => type == 1 || type == 7

/-- The records of a well-formed frame; a frame that is no REQUEST has none. -/
def jRecs (f : List Byte) : Option (List OpRec) :=
  if jType f = 1 then readRecs (jCount f) (jBody f)
  else if jType f = 4 then (if jCount f = 0 && (jBody f).length = 32 && jSession f = 0 then some [] else none)
  else if jCount f = 0 && (jBody f).isEmpty then some []
  else none

/-- Sends an answer by the transport of its request; through the mailbox it ends the request (R299). -/
def State.answer (s : State) (src : Transport) (resp : List Byte) : State :=
  match src with
  | .ethernet _ => s.emit (.jdp src resp)
  | .mailbox t =>
    (s.modPort t (fun p =>
      { p with mbxResp := splice p.mbxResp 0 resp, mbxRespLen := resp.length, mbxReady := true, mbxBusy := false })).setCause t 2

/-- Answers with a frame status other than OK. -/
def State.refuseFrame (s : State) (src : Transport) (f : List Byte) (status : Nat) : State :=
  let s := (s.bump 0x902C 3 1).bump 0x902C 4 (if status = 3 then 1 else 0)
  s.answer src (jdpFrame 2 (jSession f) (jSeq f) 0 status s.tick.count [])

/-- The session that a frame names, if its source address opened it (R305). -/
def State.sessionOf (s : State) (src : Transport) (f : List Byte) : Option Session :=
  match src with
  | .ethernet e => s.od.sessions.find? (fun x => x.number == jSession f && x.addr == e.addr)
  | .mailbox _ => none

/-- Whether the trailer's signature verifies under the key of its slot (R307). -/
def State.signatureOk (s : State) (x : Session) (f : List Byte) : Bool :=
  let tr := f.drop (f.length - 3320)
  let key := odBytes s.od 0x7010 (leAt tr 0 1 + 1)
  !key.isEmpty && Config.mldsaVerify (Machine.slice key 8 1952) (x.nonce ++ f.take (f.length - 3320)) (Machine.slice tr 8 3309)

/-- The rights of a signed frame. -/
def State.rightsOf (s : State) (f : List Byte) : Option Nat :=
  if jSigned f then some (leAt (odBytes s.od 0x7010 (leAt f (f.length - 3320) 1 + 1)) 0 2) else none

/-- Records an accepted frame of a session and its response (R306). -/
def State.acceptFrame (s : State) (src : Transport) (f resp : List Byte) : State :=
  match src with
  | .mailbox _ => s
  | .ethernet e =>
    { s with od := { s.od with sessions := s.od.sessions.map (fun (x : Session) =>
        if x.number = jSession f then
          { x with peer := e, seenNs := s.tick.localNs, lastSeq := jSeq f, lastFrame := f, lastResponse := resp }
        else x) } }

/-- Applies a REQUEST (R303). -/
def State.applyRequest (s : State) (c : Client) (f : List Byte) (recs : List OpRec) : State :=
  let x := applyRecs c (recs.length == 1) recs s 32 false
  let ok := x.1.all (fun y => y.2.1 == 0)
  let status := fun (n : Nat) => if ok then 0 else if n = 0 then 8 else n
  let body := x.1.flatMap (fun y => respRec y.1 (status y.2.1) (if ok then y.2.2 else []))
  let resp := jdpFrame 2 (jSession f) (jSeq f) recs.length 0 s.tick.count body
  let s := (if ok then x.2 else s).bump 0x902C 5 (x.1.filter (fun y => y.2.1 != 0)).length
  (s.acceptFrame c.src f resp).answer c.src resp

/-- The session numbers and nonces are fresh for every OPEN. -/
def State.applyOpen (s : State) (src : Transport) (f : List Byte) : State :=
  match src with
  | .mailbox _ => s
  | .ethernet e =>
    if 16 ≤ s.od.sessions.length then s.refuseFrame src f 5
    else
      let n := s.od.nonceCount
      let number := n % (2 ^ 32 - 1) + 1
      let client := jBody f
      let nonce := (List.range 32).map (Config.nonceByte n)
      let msg := client ++ nonce ++ u32b number ++ u16b s.moduleId
      let sig := (List.range 3309).map (Config.mldsaSignByte n s.fuses.identitySeed msg)
      let resp := jdpFrame 5 number (jSeq f) 0 0 s.tick.count (nonce ++ sig ++ [0, 0, 0])
      let x : Session :=
        { number := number, addr := e.addr, peer := e, seenNs := s.tick.localNs, nonce := (shake256 (client ++ nonce)).take 32, lastSeq := 0,
          lastFrame := [], lastResponse := [], instSeq := 0, instFrame := [], instResponse := [], subs := [],
          pend := [], notifySeq := 0 }
      let s := { s with od := { s.od with nonceCount := n + 1, sessions := s.od.sessions ++ [x] } }
      s.answer src resp

/-- Closes a session; its subscriptions close with it, and an installation that it streams in fails (R384). -/
def State.closeSession (s : State) (n : Nat) : State :=
  { s with od := { s.od with sessions := s.od.sessions.filter (fun x => x.number != n) } }.installerGone n

/-! ### Notifications (R314, R315) -/

/-- The order of records: TICK, then index and subindex. -/
def pendLt (a b : Pending) : Bool := a.tick < b.tick || (a.tick == b.tick && a.key < b.key)

/-- The encoding of an entry's value. -/
def encodeKey (k : Nat) (v : OdVal) : List Byte :=
  match odEntry (k / 256) (k % 256) with
  | some e => odEncode e.type v
  | none => []

/-- A notification record. -/
def noteRec (p : Pending) : List Byte :=
  let v := encodeKey p.key p.value
  [8] ++ leBytes 1 (p.key % 256) ++ u16b (p.key / 256) ++ u16b v.length ++ [0, 0] ++ u64b p.tick ++ u32b p.changes ++
    u32b 0 ++ padded8 v

/-- The records that fit one frame, and those that remain. -/
def fillFrame : List Pending → Nat → List Pending × List Pending
  | [], _ => ([], [])
  | p :: rest, room =>
    let n := (noteRec p).length
    if room < n then ([], p :: rest)
    else
      let x := fillFrame rest (room - n)
      (p :: x.1, x.2)

/-- The NOTIFY frames that carry a list of records; a frame holds at least one record. -/
def noteFrames (session tick : Nat) : Nat → Nat → List Pending → List (List Byte)
  | 0, _, _ => []
  | _, _, [] => []
  | n + 1, seq, l =>
    let x := fillFrame l (16384 - 32)
    jdpFrame 3 session seq x.1.length 0 tick (x.1.flatMap noteRec) :: noteFrames session tick n (seq + 1) x.2

/-- Sends a session its pending records. -/
def State.notifySession (s : State) (x : Session) : State :=
  let frames := noteFrames x.number s.tick.count x.pend.length (x.notifySeq + 1) (sortBy pendLt x.pend)
  let s := s.each frames (fun s f => s.emit (.jdp (.ethernet x.peer) f))
  let s := { s with od := { s.od with sessions := s.od.sessions.map (fun (y : Session) =>
    if y.number = x.number then { y with pend := [], notifySeq := y.notifySeq + frames.length } else y) } }
  s.bump 0x902C 6 x.pend.length

/-- NOTIFY, after each sluice. -/
def execNotify (s : State) : Host.Outcome State Fault Refusal :=
  .next (s.each (s.od.sessions.filter (fun x => !x.pend.isEmpty)) State.notifySession)

/-- Answers a POLL; records that do not fit keep cause bit 3 set. -/
def State.applyPoll (s : State) (t : Fin 4) (f : List Byte) : State :=
  let x := fillFrame (sortBy pendLt s.od.mbxPend[t]) (16384 - 32)
  let resp := jdpFrame 2 0 (jSeq f) x.1.length 0 s.tick.count (x.1.flatMap noteRec)
  let s := { s with od := { s.od with mbxPend := s.od.mbxPend.set t x.2 } }
  let s := (s.bump 0x902C 6 x.1.length).answer (.mailbox t) resp
  if x.2.isEmpty then s else s.setCause t 3

/-! ### Arrival of a frame -/

/-- Applies a frame whose form is right and whose session, signature and sequence pass. -/
def State.dispatchFrame (s : State) (src : Transport) (session : Option Nat) (f : List Byte) (recs : List OpRec) : State :=
  match jType f, src with
  | 4, _ => s.applyOpen src f
  | 6, _ =>
    let resp := jdpFrame 2 (jSession f) (jSeq f) 0 0 s.tick.count []
    (s.closeSession (jSession f)).answer src resp
  | 7, .mailbox t => s.applyPoll t f
  | _, _ => s.applyRequest { src := src, session := session, rights := s.rightsOf f } f recs

/-- The checks of *Frame statuses* and what follows (R301, R305 to R307). -/
def State.applyFrame (s : State) (src : Transport) (f : List Byte) : State :=
  if !jHeadOk f || !jTypeOk src (jType f) then s.refuseFrame src f 1
  else
    match jRecs f with
    | none => s.refuseFrame src f 1
    | some recs =>
      if jSession f = 0 && !jSigned f && jType f ≠ 6 then s.dispatchFrame src none f recs
      else
        match s.sessionOf src f with
        | none => s.refuseFrame src f 2
        | some x =>
          if x.lastFrame = f then s.answer src x.lastResponse
          else if jSigned f && !s.signatureOk x f then s.refuseFrame src f 3
          else if jSeq f ≤ x.lastSeq then s.refuseFrame src f 4
          else s.dispatchFrame src (some x.number) f recs

/-- The IPv6 link-local address of M0, by the modified EUI-64 rule from its MAC address (R299). -/
def linkLocal : IpAddr :=
  let mac := (Config.macAddr 2).toNat
  .v6 (0xFE80 * 2 ^ 112 + ((mac / 2 ^ 24) ^^^ 0x020000) * 2 ^ 40 + 0xFFFE * 2 ^ 24 + mac % 2 ^ 24)

/-- Whether a datagram goes to an address of the port that it arrives on: one configured there, or the link-local address
of M0 (R299). -/
def State.reachesModule (s : State) (e : Endpoint) : Bool :=
  (e.port.val == 2 && e.dest == linkLocal) ||
    match e.dest with
    | .v4 a => a != 0 && a == s.odn (0x1010 + e.port.val) 2
    | .v6 a =>
      let b := odBytes s.od (0x1010 + e.port.val) 5
      b.length == 16 && a == ofLe b.reverse

/-- Whether the JDP service of a transport is on (R299): where JDP_ENABLE is 1, and always at the link-local address
of M0. -/
def State.jdpOn (s : State) (src : Transport) : Bool :=
  match src with
  | .ethernet e => s.odn (0x1010 + e.port.val) 7 == 1 || (e.port.val == 2 && e.dest == linkLocal)
  | .mailbox _ => true

/-- Receives a frame outside a sluice: discards it, or applies it (R301). -/
def State.receiveFrame (s : State) (src : Transport) (f : List Byte) : State :=
  let s := s.bump 0x902C 1 1
  let t := jType f
  if f.length < 32 || leAt f 0 1 ≠ 1 || !s.jdpOn src || !(t = 1 || t = 4 || t = 6 || t = 7) then
    let s := s.bump 0x902C 2 1
    match src with
    | .ethernet _ => s
    | .mailbox _ => s.answer src []
  else s.applyFrame src f

/-- Applies the oldest frame that waits (R303). -/
def State.applyDeferred (s : State) : State :=
  match s.od.deferred with
  | [] => s
  | d :: rest => { s with od := { s.od with deferred := rest } }.receiveFrame d.src d.frame

/-- Whether a transport can deliver a frame: the module runs, and a datagram is addressed to it; through the mailbox, the
request that it holds. -/
def State.carries (s : State) (src : Transport) (f : List Byte) : Bool :=
  s.power.running &&
    match src with
    | .ethernet e => s.reachesModule e
    | .mailbox t => s.ports[t].mbxBusy && f == Machine.slice s.ports[t].mbxReq 0 s.ports[t].mbxLen

/-- A frame arrives: during a sluice it waits; the frames that wait are applied before it. -/
def State.frameIn (s : State) (src : Transport) (f : List Byte) (atNs : Nat) : State :=
  if !s.carries src f then s
  else if atNs < s.tick.sluiceLen then
    { s with od := { s.od with deferred := s.od.deferred ++ [{ src := src, frame := f }] } }
  else (s.each s.od.deferred (fun s _ => s.applyDeferred)).receiveFrame src f

/-- Whether a frame is an OPEN, a CLOSE or a POLL, which have rows of their own. -/
def ownRow (f : List Byte) : Bool := 32 ≤ f.length && (jType f == 4 || jType f == 6 || jType f == 7)

/-- REQUEST: any frame that is no OPEN, CLOSE or POLL. -/
def execRequest (src : Transport) (f : List Byte) (atNs : Nat) (s : State) : Host.Outcome State Fault Refusal :=
  noted (if ownRow f then s else s.frameIn src f atNs)

/-- JDP_OPEN. -/
def execJdpOpen (src : Transport) (f : List Byte) (atNs : Nat) (s : State) : Host.Outcome State Fault Refusal :=
  noted (if ownRow f && jType f == 4 then s.frameIn src f atNs else s)

/-- CLOSE. -/
def execClose (src : Transport) (f : List Byte) (atNs : Nat) (s : State) : Host.Outcome State Fault Refusal :=
  noted (if ownRow f && jType f == 6 then s.frameIn src f atNs else s)

/-- POLL. -/
def execPoll (src : Transport) (f : List Byte) (atNs : Nat) (s : State) : Host.Outcome State Fault Refusal :=
  noted (if ownRow f && jType f == 7 then s.frameIn src f atNs else s)

/-- FRAME_DEFERRED_APPLY: the sluice has ended. -/
def execFrameDeferredApply (s : State) : Host.Outcome State Fault Refusal := noted s.applyDeferred

/-- Whether JDP_IDLE seconds without an accepted frame of the session end in the present tick, or have ended before
(DESIGN CHOICE, log entry 72: the row carries no time within the tick). -/
def State.sessionIdle (s : State) (x : Session) : Bool :=
  x.seenNs + s.odn 0x1030 2 * 1000000000 < s.tick.localNs + s.tick.periodN * 125000

/-- SESSION_IDLE_EXPIRY: no frame of the session has been accepted for JDP_IDLE seconds (R305). -/
def execSessionIdleExpiry (n : Nat) (s : State) : Host.Outcome State Fault Refusal :=
  noted (if s.od.sessions.any (fun x => x.number == n && s.sessionIdle x) then s.closeSession n else s)

end Sys2Proof.Machine
end

