-- ==== Sys2Proof/Machine/Quota.lean ====
section
/-! DEFINITION. The quota table's validity, its check at the swap, and its scaling (R177, R178, R180). -/
namespace Sys2Proof.Machine

open Sys2Proof

/-- An entry of the shadow quota table. -/
def State.quotaShadow (s : State) (t : Fin 4) (c : Nat) : Nat :=
  ((kget s.od.shadow (odKey (0x3100 + t.val) c)).map OdVal.toNat).getD (s.quota t c)

/-- Σ R_t of a table. -/
def reserveSum (row : Fin 4 → Nat → Nat) : Nat := (allT.map (fun t => reserveOf (row t 2) (row t 3))).sum

/-- Whether a table is valid (R177). -/
def State.quotaValid (s : State) (row : Fin 4 → Nat → Nat) : Bool :=
  reserveSum row ≤ s.assignable && (allT.map (fun t => row t 1)).sum ≤ 4 * (56 - s.modelStage) &&
    (allT.map (fun t => row t 4)).sum ≤ 524288

/-- Whether no quota of a table lies below the non-evictable usage (R178). -/
def State.quotaCovers (s : State) (row : Fin 4 → Nat → Nat) : Bool :=
  allT.all (fun t => s.dieHeld t ≤ row t 1 && s.stackedFixed t ≤ row t 2 && s.kvFixed t ≤ row t 3 &&
    s.crysOf t + s.panOf t ≤ row t 4)

/-- The reason for which the shadow table is rejected: 0 none, 1 exceeds capacity, 2 below usage. -/
def State.quotaReason (s : State) : Nat :=
  if !s.quotaValid s.quotaShadow then 1 else if !s.quotaCovers s.quotaShadow then 2 else 0

/-- Replaces both copies by the scaled table when the live one is no longer valid (R180). -/
def State.scaleQuota (s : State) : State :=
  let sum := reserveSum s.quota
  if s.quotaValid s.quota then s
  else
    let scale := fun (n : Nat) => n * (s.assignable - 96) / sum
    let s := s.each allT (fun s' t =>
      let put := fun (m : KMap OdVal) (c : Nat) => kset m (odKey (0x3100 + t.val) c) (.num (scale (s.quota t c)))
      { s' with od := { s'.od with live := put (put s'.od.live 2) 3 } })
    { s with od := { s.od with quotaScaled := true,
                               shadow := s.od.shadow.filter (fun x => !(0x3100 ≤ x.1 / 256 && x.1 / 256 ≤ 0x3103)) } }

end Sys2Proof.Machine
end

