-- ==== Sys2Proof/Machine/Install.lean ====
section
/-! DEFINITION. The installation port (R379, R380): model installation (R381 to R391), firmware update (R376, R378), and
attestation (R393). -/
namespace Sys2Proof.Machine

open Sys2Proof

/-! ### Datagrams -/

/-- KIND. -/
def iKind (d : List Byte) : Nat := leAt d 1 1
/-- OFFSET. -/
def iOffset (d : List Byte) : Nat := leAt d 16 8
/-- LENGTH. -/
def iLength (d : List Byte) : Nat := leAt d 24 4
/-- The body. -/
def iBody (d : List Byte) : List Byte := (d.drop 48).take (iLength d)

/-- Whether a KIND is a control frame: OPEN, ABORT, REMOVE, FW_OPEN. -/
def iControl (k : Nat) : Bool := k == 1 || k == 5 || k == 6 || k == 9

/-- Whether a datagram keeps *Installation header* and R6. -/
def iHeadOk (d : List Byte) : Bool :=
  let k := iKind d
  let tr := d.drop (d.length - 3320)
  48 ≤ d.length && leAt d 0 1 == 1 && leAt d 2 2 ≤ 1 && leAt d 28 20 == 0 &&
    d.length == 48 + iLength d + (if jSigned d then 3320 else 0) &&
    (k == 2 || iOffset d == 0) && (k != 2 || jSeq d == 0) && (k != 7 || jSession d == 0) &&
    (!jSigned d || (iControl k && leAt tr 0 1 ≤ 7 && leAt tr 1 7 == 0 && leAt tr 3317 3 == 0))

/-- Whether the installation port receives a datagram of a KIND: the module runs, the service of the port is on. -/
def State.instArrives (s : State) (src : Endpoint) (d : List Byte) (kind : Nat) : Bool :=
  s.power.running && s.reachesModule src && s.jdpOn (.ethernet src) && iHeadOk d && iKind d == kind

/-- Replies to the sender of a datagram. -/
def State.instReply (s : State) (src : Endpoint) (d : List Byte) (offset status : Nat) : State :=
  s.emit (.install src (s.instStatus (jSession d) (jSeq d) offset status))

/-- A control frame (R380): its layout, its session, a repeat, its signature, its sequence, its rights; then what it
does. -/
def State.control (s : State) (src : Endpoint) (d : List Byte) (bodyOk : Bool) (f : State → Nat × State) :
    State :=
  if !bodyOk then s.instReply src d 0 1
  else
    match s.sessionOf (.ethernet src) d with
    | none => s.instReply src d 0 2
    | some x =>
      if x.instFrame = d then s.emit (.install src x.instResponse)
      else if !jSigned d || !s.signatureOk x d then s.instReply src d 0 3
      else if jSeq d ≤ x.instSeq then s.instReply src d 0 2
      else if !((s.rightsOf d).getD 0).testBit 0 then s.instReply src d 0 4
      else
        let y := f s
        let s := y.2
        let resp := s.instStatus (jSession d) (jSeq d) 0 y.1
        let s := { s with od := { s.od with sessions := s.od.sessions.map (fun (z : Session) =>
          if z.number = x.number then
            { z with instSeq := jSeq d, instFrame := d, instResponse := resp, seenNs := s.tick.localNs }
          else z) } }
        s.emit (.install src resp)

/-! ### OPEN -/

/-- Whether the body of OPEN keeps its layout (R382). -/
def openBodyOk (b : List Byte) : Bool :=
  b.length == 5312 && 4096 ≤ leAt b 0 8 && leAt b 0 8 ≤ 2 ^ 40 && leAt b 10 6 == 0 && leAt b 5309 3 == 0

/-- Whether an installation or an update is in progress. -/
def InstallSt.busy (x : InstallSt) : Bool := x.state == 1 || x.fwActive

/-- OPEN: refused while busy or for another APN, else INSTALL_STATE becomes 1 (R380, R383). -/
def State.openModel (s : State) (src : Endpoint) (session : Nat) (b : List Byte) : Nat × State :=
  if s.mem.model.sealedNow || s.install.busy then (5, s)
  else if leAt b 8 2 ≠ 3 then (7, s)
  else
    let s := { s with install := { s.install with
      state := 1, phase := 0, bytes := 0, session := session, src := src, framesDue := true,
      imageBytes := leAt b 0 8, claimed := Machine.slice b 16 32, publisherKey := Machine.slice b 48 1952,
      publisherSig := Machine.slice b 2000 3309, received := [], frames := [], digestDue := false, digestRun := false, digestEnd := false,
      verified := false, sealDue := false, lastAckMiB := 0 } }
    (0, s.reportInstall 0)

/-- INSTALL_OPEN. -/
def execInstallOpen (port : Fin 3) (addr : UdpAddrs) (d : List Byte) (s : State) : Host.Outcome State Fault Refusal :=
  let src : Endpoint := { addr with port := port }
  noted (if s.instArrives src d 1 then
      s.control src d (openBodyOk (iBody d)) (fun s => s.openModel src (jSession d) (iBody d))
    else s)

/-- Makes room in the shared pool for n frames, by eviction in the order of R182. -/
def State.poolRoom (s : State) (n : Nat) : Nat → State
  | 0 => s
  | k + 1 =>
    if s.poolUsed + n ≤ s.poolFrames && n ≤ s.freeGeneral then s
    else
      match s.evictOne with
      | some s' => s'.poolRoom n k
      | none => s

/-- Makes room for the n frames of a model; an arena frame holds 30 KV frames. -/
def State.modelRoom (s : State) (n : Nat) : State := s.poolRoom n (31 * n)

/-- The frames that the image being installed needs. -/
def State.modelNeed (s : State) : Nat := ceilDiv s.install.imageBytes Config.pageBytes

/-- Takes the frames of pages i and on. -/
def State.takeModelPages (s : State) : Nat → Nat → Option (List Nat × State)
  | 0, _ => some ([], s)
  | k + 1, i =>
    match s.takeFrame (s.stackMod i) (.model i) with
    | none => none
    | some x => (x.2.takeModelPages k (i + 1)).map (fun y => (x.1 :: y.1, y.2))

/-- The frames of n model pages, where the shared pool has them. -/
def State.modelPages (s : State) (n : Nat) : Option (List Nat × State) :=
  if s.poolUsed + n ≤ s.poolFrames then s.takeModelPages n 0 else none

/-- Step 11, before any admission: the frames of an accepted OPEN, from the shared pool (R383). -/
def State.takeInstallFrames (s : State) : State :=
  if !s.install.framesDue then s
  else
    match (s.modelRoom s.modelNeed).modelPages s.modelNeed with
    | none => (s.modelRoom s.modelNeed).endInstall 0 6
    | some (pages, s) => ({ s with install := { s.install with frames := pages, framesDue := false } }).endPhase 1

/-! ### DATA -/

/-- Adds a range to sorted disjoint ranges. -/
def addRange (lo hi : Nat) : List (Nat × Nat) → List (Nat × Nat)
  | [] => [(lo, hi)]
  | (a, b) :: r =>
    if hi < a then (lo, hi) :: (a, b) :: r
    else if b < lo then (a, b) :: addRange lo hi r
    else addRange (min lo a) (max hi b) r

/-- Whether a range has been received. -/
def hasRange (l : List (Nat × Nat)) (lo hi : Nat) : Bool := l.any (fun x => x.1 ≤ lo && hi ≤ x.2)

/-- Bytes received without a gap from 0. -/
def gapless (l : List (Nat × Nat)) : Nat :=
  match l with
  | (0, n) :: _ => n
  | _ => 0

/-- The pages of the image that is installed. -/
def State.imageReach (s : State) (v : Nat) : Reach :=
  match s.install.frames[v]? with
  | some f => .frame f
  | none => .error Config.errPageUnmapped

/-- Bytes of the image that is installed. -/
def State.imageBytesAt (s : State) (off n : Nat) : List Byte := s.readVia s.imageReach off n

/-- Whether DATA has 8,192 bytes at a multiple of 8,192, or the remainder at the last such offset (R384). -/
def dataShape (d : List Byte) (total : Nat) : Bool :=
  iOffset d % 8192 == 0 && iOffset d < total && iLength d == min 8192 (total - iOffset d)

/-- Stores DATA of a model image. -/
def State.storeImageData (s : State) (d : List Byte) : State :=
  let x := s.install
  let lo := iOffset d
  let hi := lo + iLength d
  if x.phase ≠ 1 || !dataShape d x.imageBytes || hasRange x.received lo hi then s
  else
    let s := s.writeVia (fun v => x.frames[v]?) lo (iBody d)
    let r := addRange lo hi x.received
    let n := gapless r
    let s := { s with install := { s.install with received := r, bytes := n } }
    let s := if x.bytes / 2 ^ 30 < n / 2 ^ 30 then s.journal else s
    let s := if x.lastAckMiB < n / 2 ^ 20 || (n = x.imageBytes && x.bytes < n) then
        { s with install := { s.install with lastAckMiB := n / 2 ^ 20 } }.sendAck
      else s
    if n = x.imageBytes then ({ s with install := { s.install with digestDue := true } }).endPhase 2 else s

/-- The slot that an update writes. -/
def State.updateSlot (s : State) : List Byte := if s.install.fwSlotB then s.flash.imageB else s.flash.imageA

/-- Writes the slot that an update writes. -/
def State.setUpdateSlot (s : State) (b : List Byte) : State :=
  if s.install.fwSlotB then { s with flash := { s.flash with imageB := b } } else { s with flash := { s.flash with imageA := b } }

/-- Whether a firmware image is valid (R376). -/
def State.firmwareOk (s : State) (img : List Byte) : Bool :=
  let key := Machine.slice img 56 1952
  let n := leAt img 16 8
  (shake256 key).take 32 == s.fuses.rootDigest &&
    Config.mldsaVerify key (Machine.slice img 0 56) (Machine.slice img 2008 3309) &&
    (shake256 ((img.drop 8192).take n)).take 32 == Machine.slice img 24 32 &&
    s.rollbackCount ≤ leAt img 8 2

/-- Stores DATA of a firmware image; the last byte ends the update. -/
def State.storeFirmware (s : State) (d : List Byte) : State :=
  let x := s.install
  let lo := iOffset d
  let hi := lo + iLength d
  if !dataShape d x.fwBytes || hasRange x.fwReceived lo hi then s
  else
    let s := s.setUpdateSlot (splice s.updateSlot lo (iBody d))
    let r := addRange lo hi x.fwReceived
    let s := { s with install := { s.install with fwReceived := r } }
    if gapless r = x.fwBytes then s.endUpdate (if s.firmwareOk s.updateSlot then 0 else 10) else s

/-- A datagram of the installation's session is accepted: DATA keeps the session open (R305, R384). -/
def State.seeInstaller (s : State) : State :=
  { s with od := { s.od with sessions := s.od.sessions.map (fun (z : Session) =>
      if z.number = s.install.session then { z with seenNs := s.tick.localNs } else z) } }

/-- INSTALL_DATA: from the session's source address only. -/
def execInstallData (port : Fin 3) (addr : UdpAddrs) (d : List Byte) (s : State) : Host.Outcome State Fault Refusal :=
  let src : Endpoint := { addr with port := port }
  noted (if s.instArrives src d 2 && jSession d == s.install.session && src.addr == s.install.src.addr &&
      (s.sessionOf (.ethernet src) d).isSome then
      if s.install.streaming then s.seeInstaller.storeImageData d
      else if s.install.fwActive then s.seeInstaller.storeFirmware d
      else s
    else s)

/-- INSTALL_ACK_TIMER: 10 ms of DATA without an advance. -/
def execInstallAckTimer (s : State) : Host.Outcome State Fault Refusal :=
  .next (if s.install.state = 1 && s.install.phase = 1 then s.sendAck else s)

/-! ### Digest, verification, place (R385, R386) -/

/-- Step 11 after phase 2: the pans begin the digest. -/
def State.startImageDigest (s : State) : State :=
  if s.install.digestDue then { s with install := { s.install with digestDue := false, digestRun := true } } else s

/-- INSTALL_DIGEST_DONE: the pans have the digest; it commits at step 6 of the next sluice (R203, R385). -/
def execInstallDigestDone (s : State) : Host.Outcome State Fault Refusal :=
  .next (if s.install.digestRun then { s with install := { s.install with digestRun := false, digestEnd := true } } else s)

/-- Step 6: a finished digest commits; one other than CLAIMED_DIGEST fails the installation (R203, R385). -/
def State.endDigest (s : State) : State :=
  if s.install.digestEnd then
    let d := treeDigest (s.imageBytesAt 0 s.install.imageBytes) 1
    let s1 := { s with install := { s.install with digestEnd := false } }
    if d = s.install.claimed then s1.endPhase 3 else s1.endInstall 4 8
  else s

/-- A schedule entry of an image of some pages; none where it breaks R174. -/
def schedEntry (pages : Nat) (b : List Byte) : Option SchedEntry :=
  let e0 := leAt b 0 8
  let e1 := leAt b 8 8
  let en : SchedEntry :=
    { kind := bits e0 60 4, die := bits e0 55 3, trigger := bits e0 40 8, release := bits e0 32 8, count := bits e0 0 32,
      base := e1, active := false, releasing := false }
  let ok := bits e0 58 2 = 0 && bits e0 48 7 = 0 && en.die ≤ 4 && en.trigger ≤ 254 && en.release ≤ 254 &&
    en.trigger ≠ en.release &&
    (if en.kind = 1 then
      1 ≤ en.count && e1 < 2 ^ 52 && e1 % Config.pageBytes = 0 && Config.modelBase ≤ e1 &&
        pageOf e1 - Config.modelPage0 + en.count ≤ pages
    else en.kind = 2 && 1 ≤ en.count && en.count ≤ 64 && e1 < 64)
  if ok then some en else none

/-- The entries of a list, if each is good. -/
def allEntries (pages : Nat) : List (List Byte) → Option (List SchedEntry)
  | [] => some []
  | b :: r =>
    match schedEntry pages b with
    | none => none
    | some e => (allEntries pages r).map (e :: ·)

/-- The schedule of the installed image and its LAYERS; none where the header or the schedule breaks R386 or R174. -/
def State.placeImage (s : State) : Option (Nat × List SchedEntry) :=
  let h := s.imageBytesAt 0 4096
  let off := leAt h 24 8
  let n := leAt h 32 8
  let ok := leAt h 0 4 = 0x3639424B && leAt h 4 2 = 1 && leAt h 6 2 = 3 && leAt h 8 8 = s.install.imageBytes &&
    1 ≤ leAt h 16 1 && (Machine.slice h 17 7).all (· == 0) && (Machine.slice h 40 4056).all (· == 0) && off % 64 = 0 &&
    off + n ≤ s.install.imageBytes && 64 ≤ n
  if !ok then none
  else
    let sh := s.imageBytesAt off 64
    let k := leAt sh 0 4
    if n ≠ 64 + 16 * k || 65535 < k || (sh.drop 4).any (· != 0) then none
    else (allEntries s.install.frames.length (chunks 16 k (s.imageBytesAt (off + 64) (16 * k)))).map
      (fun l => (leAt h 16 1, l))

/-- The message that the publisher signs (R382). -/
def State.publisherMessage (s : State) : List Byte := [3] ++ u64b s.install.imageBytes ++ u16b 3 ++ s.install.claimed

/-- INSTALL_SIGNATURE_DONE: the publisher's signature, then the place phase. -/
def execInstallSignatureDone (s : State) : Host.Outcome State Fault Refusal :=
  noted (if s.install.state = 1 && s.install.phase = 3 then
      if Config.mldsaVerify s.install.publisherKey s.publisherMessage s.install.publisherSig then
        let s := s.endPhase 4
        if s.placeImage.isSome then ({ s with install := { s.install with verified := true, sealDue := true } }).endPhase 5
        else s.endInstall 4 10
      else s.endInstall 4 9
    else s)

/-- Step 6: the seal (R387). -/
def State.sealModel (s : State) : State :=
  if !s.install.sealDue then s
  else
    match s.placeImage with
    | none => s
    | some (layers, sched) =>
      let m : ModelSt :=
        { sealedNow := true, frames := s.install.frames, bytes := s.install.imageBytes, layers := layers, sched := sched,
          staged := [], digest := s.install.claimed, publisher := (shake256 s.install.publisherKey).take 32,
          sealTick := s.tick.count }
      let s := { s with mem := { s.mem with model := m },
                        install := { s.install with state := 2, frames := [], sealDue := false } }
      (s.scaleQuota).endPhase 6

/-! ### ABORT, REMOVE, STATUS -/

/-- ABORT: what is in progress ends. -/
def State.abortInstall (s : State) : Nat × State :=
  if s.install.state = 1 then (0, s.endInstall 0 11)
  else if s.install.fwActive then (0, s.endUpdate 11)
  else (0, s)

/-- ABORT. -/
def execAbort (port : Fin 3) (addr : UdpAddrs) (d : List Byte) (s : State) : Host.Outcome State Fault Refusal :=
  let src : Endpoint := { addr with port := port }
  noted (if s.instArrives src d 5 then s.control src d (iLength d == 0) State.abortInstall else s)

/-- REMOVE: only while the module is quiesced (R391). -/
def State.removeRequest (s : State) : Nat × State :=
  if s.od.quiesceState ≠ 2 then (7, s)
  else (0, { s with install := { s.install with removeDue := s.mem.model.sealedNow } })

/-- REMOVE. -/
def execRemove (port : Fin 3) (addr : UdpAddrs) (d : List Byte) (s : State) : Host.Outcome State Fault Refusal :=
  let src : Endpoint := { addr with port := port }
  noted (if s.instArrives src d 6 then s.control src d (iLength d == 0) State.removeRequest else s)

/-- Step 6: the removal. -/
def State.removeModel (s : State) : State :=
  if !s.install.removeDue then s
  else
    let s := s.each s.mem.model.frames (fun s f => s.useFrame f .scrub)
    let s := s.dropDie (fun _ u => match u with
      | .model _ => true
      | .kv _ _ => true
      | _ => false)
    let kv := s.mem.kv.map (fun x => (x.1, { x.2 with staged := none }))
    let s := { s with mem := { s.mem with model := ModelSt.absent, kv := kv },
                      install := { s.install with state := 0, phase := 0, removeDue := false } }
    let s := s.each allT (fun s t => s.modTen t (fun x => { x with record := none }))
    ((s.scaleQuota).journal).reportInstall 0

/-- INSTALL_STATUS: a query. -/
def execInstallStatus (port : Fin 3) (addr : UdpAddrs) (d : List Byte) (s : State) : Host.Outcome State Fault Refusal :=
  let src : Endpoint := { addr with port := port }
  .next (if s.instArrives src d 4 && !jSigned d && iLength d == 0 then
      s.instReply src d (if s.install.state = 1 then s.install.bytes else 0) 0
    else s)

/-! ### Firmware update and attestation -/

/-- Whether the body of FW_OPEN is a firmware image header (R376). -/
def fwHeaderOk (b : List Byte) : Bool :=
  b.length == 8192 && leAt b 0 4 == 0x5746424B && leAt b 8 2 ≤ 64 && leAt b 10 6 == 0 && 1 ≤ leAt b 16 8 &&
    leAt b 16 8 ≤ 67108864 && (b.drop 5317).all (· == 0)

/-- FW_OPEN: the slot that is not running takes the new header. -/
def State.openFirmware (s : State) (src : Endpoint) (session : Nat) (b : List Byte) : Nat × State :=
  if s.install.busy then (5, s)
  else
    let s := { s with install := { s.install with
      fwActive := true, fwSlotB := s.fwImage == 0, fwBytes := 8192 + leAt b 16 8, fwReceived := [(0, 8192)],
      session := session, src := src } }
    (0, s.setUpdateSlot b)

/-- FW_OPEN. -/
def execFwOpen (port : Fin 3) (addr : UdpAddrs) (d : List Byte) (s : State) : Host.Outcome State Fault Refusal :=
  let src : Endpoint := { addr with port := port }
  noted (if s.instArrives src d 9 then
      s.control src d (fwHeaderOk (iBody d)) (fun s => s.openFirmware src (jSession d) (iBody d))
    else s)

/-- ATTEST: a signed report with the nonce of the body (R393). -/
def execAttest (port : Fin 3) (addr : UdpAddrs) (d : List Byte) (s : State) : Host.Outcome State Fault Refusal :=
  let src : Endpoint := { addr with port := port }
  .next (if s.instArrives src d 7 && iLength d == 32 && !s.health.failedUnits.contains 5 then
      let x := s.report 0xFF (iBody d)
      x.2.emit (.install src (x.2.instFrame 8 0 (jSeq d) 0 0 0 x.1))
    else s)

end Sys2Proof.Machine
end

