-- ==== Sys2Proof/Machine/Links.lean ====
section
/-! DEFINITION. The commands of the Laniak ports: training (R319 to R323), flits (R324 to R328), discovery and ponds
(R329 to R333), and the distribution of ticks (R334 to R338). -/
namespace Sys2Proof.Machine

open Sys2Proof

/-! ### What follows a change of the neighbours -/

/-- Sends NEIGHBOURS when the adjacency has changed, and VIEW when the pond view has (R329). -/
def State.announce (s : State) (before : State) : State :=
  let s := if s.adjacency = before.adjacency then s
    else s.sendAll (fun p => (s.lport p).up) s.neighbourBytes
  if s.pondView = before.pondView then s
  else
    let s := { s with net := { s.net with viewSeq := s.net.viewSeq + 1 } }
    if s.viewValid s.pondView then
      s.sendAll (fun p => (s.lport p).up && !outerPort p) (viewBytes s.net.viewSeq s.pondView)
    else s

/-- The pond forms once every member has sent a VIEW equal to the module's own: the tick master, the lowest member,
announces the boundary. The views agree inside tick k, so the first boundary at least 16 ticks on is k + 17 (R331). An
agreement that has ended forms nothing. -/
def State.agree (s : State) : State :=
  let v := s.pondView
  if s.viewsAgree && v != s.net.pond then
    if v = s.net.nextPond then s
    else { s with net := { s.net with
        nextPond := v, pondAt := if v.head? = some s.moduleId then s.tick.count + 17 else 0 } }
  else { s with net := { s.net with nextPond := [], pondAt := 0 } }

/-- Forgets what came from modules that are neighbours no longer: their reports, views and offers (R331, R334). -/
def State.prune (s : State) : State :=
  let near := s.adjacency.map (·.moduleId)
  let ours := (allP.filter s.confirmed).map (·.val)
  { s with net := { s.net with
      neighbours := s.net.neighbours.filter (fun x => near.contains x.1)
      views := s.net.views.filter (fun x => near.contains x.1)
      offers := s.net.offers.filter (fun o => if o.owner = s.moduleId then ours.contains o.port else near.contains o.owner) } }

/-- What follows a change of ports or neighbours. -/
def State.settleNet (s : State) (before : State) : State := ((s.prune).announce before).agree

/-! ### Training -/

/-- Counts a retraining for the risk estimate (R408). -/
def State.countRetrain (s : State) : State :=
  { s with health := { s.health with retrains := s.health.retrains ++ [s.tick.localNs] } }

/-- A trained port retrains when more than 16 uncorrectable codewords were received, or more than 64 retries requested, in
the tick (R321). A repeated RETRY is no new request (DESIGN CHOICE, log entry 73). -/
def State.retrainBad (s : State) (p : Fin 18) : State :=
  let x := s.lport p
  if x.up && (16 < x.uncorrectable || 64 < x.retries) then (s.retrain p).countRetrain else s

/-- LANE_LOCK_LOSS: a lane of a trained port's set loses lock. -/
def execLaneLockLoss (p : Fin 18) (lane : Fin 8) (s : State) : Host.Outcome State Fault Refusal :=
  let x := s.lport p
  noted (if x.up && x.lanes.getLsbD lane.val then (s.retrain p).countRetrain else s)

/-- ERROR_COUNT_RETRAIN: the receiver reports its 17th uncorrectable codeword of the tick; the retries that the module
itself requests are counted as it requests them. -/
def execErrorCountRetrain (p : Fin 18) (s : State) : Host.Outcome State Fault Refusal :=
  noted ((s.modL p (fun x => { x with uncorrectable := max 17 x.uncorrectable })).retrainBad p)

/-- The guaranteed credits of the groups that hold a slot are granted to a newly trained neighbour (R325). -/
def State.grantAll (s : State) (p : Fin 18) : State :=
  s.each (s.coll.colls.filter (fun x => x.2.slot)) (fun s x =>
    s.modL p (fun y => { y with rxUsed := kset (kset y.rxUsed (crKey x.1 false) 16) (crKey x.1 true) 16 }))

/-- Sends the training record on each lane of the chosen set: lane number, mask of the lanes that passed, port number,
NEXT_SEQ (R320). -/
def State.trainingRecords (s : State) (p : Fin 18) (passed set : BitVec 8) : State :=
  s.each ((List.finRange 8).filter (fun i => set.getLsbD i.val)) (fun s i =>
    s.emit (.training p.val i.val passed (s.lport p).rxSeq))

/-- LINK_TRAINED (`lanes`: those that pass at both ends): training ends on the widest passing set, or with the port down; flits are resent from the
NEXT_SEQ that the other end reported (R320 to R322). -/
def execLinkTrained (p : Fin 18) (lanes : BitVec 8) (nextSeq : Nat) (s : State) : Host.Outcome State Fault Refusal :=
  let x := s.lport p
  noted (if !s.linkEnabled p || x.up || !s.power.running then s
    else
      match pickLanes lanes with
      | none => ((s.portDown p).settleNet s)
      | some m =>
        let s1 := s.trainingRecords p lanes m
        if x.state == .training && (x.peer.isSome || !x.retryBuf.isEmpty) then
          -- a retraining: nothing is lost
          let s2 := s1.modL p (fun x => { x with state := .trained, lanes := m })
          (s2.resendFrom p nextSeq).flush p
        else
          let s2 := s1.modL p (fun x =>
            { x with state := .trained, lanes := m, txSeq := nextSeq % 4096, retryBuf := [], shared := 1008, gap := false })
          let s3 := s2.grantAll p
          s3.sendControl p (s3.helloBytes p))

/-- SIGNAL_LOSS: no lane has signal for 10 µs. -/
def execSignalLoss (p : Fin 18) (s : State) : Host.Outcome State Fault Refusal :=
  noted (if s.linkEnabled p then (s.portDown p).settleNet s else s)

/-- RETRAIN_TIMER: a down port tries to train again. -/
def execRetrainTimer (p : Fin 18) (s : State) : Host.Outcome State Fault Refusal :=
  noted (if s.linkEnabled p && (s.lport p).state == .down then s.modL p (fun x => { x with state := .training }) else s)

/-- LANE_TEST_PASS: the lanes of a wider set have passed for 1,000 ticks; the port retrains to it, at most once in
10,000 ticks (R323). -/
def execLaneTestPass (p : Fin 18) (lanes : BitVec 8) (s : State) : Host.Outcome State Fault Refusal :=
  let x := s.lport p
  let wider := match pickLanes (lanes ||| x.lanes) with
    | some m => popcount x.lanes.toNat 0 8 < popcount m.toNat 0 8
    | none => false
  let due := match x.lastWiden with
    | some k => k + 10000 ≤ s.tick.count
    | none => true
  noted (if x.up && wider && due then
      ((s.retrain p).countRetrain).modL p (fun x => { x with lastWiden := some s.tick.count })
    else s)

/-! ### Discovery -/

/-- Holds a port: it stays trained and carries only HELLO; messages that wait whole are held for a new route (R330,
R333). -/
def State.hold (s : State) (p : Fin 18) : State :=
  s.modL p (fun x => { x with held := true, queue := wholeMessages x.queue [] })

/-- HELLO (R330). -/
def State.recvHello (s : State) (p : Fin 18) (m : HelloMsg) : State :=
  if !(s.lport p).up || m.moduleId > 4095 || m.port > 17 || m.version ≠ 1 || m.tickN = 0 || 128 < m.tickN then s
  else
    let s1 := s.modL p (fun x =>
      { x with peer := some { moduleId := m.moduleId, serial := m.serial, port := m.port, outer := m.outer,
                              tickCount := m.tickCount } })
    let far := match (s.lport p).delayNs with
      | some d => 1000 < d
      | none => false
    let s2 :=
      if m.moduleId = s.moduleId then
        let s2 := s1.hold p
        if m.serial < s.fuses.serial.toNat then { s2 with net := { s2.net with heldAll := true } } else s2
      else if m.outer != outerPort p || (outerPort p && s.net.pond.contains m.moduleId) || far then s1.hold p
      else s1.modL p (fun x => { x with held := false })
    (s2.settleNet s).flush p

/-- NEIGHBOURS (R331): the neighbour's adjacency. -/
def State.recvNeighbours (s : State) (p : Fin 18) (l : List NeighbourEntry) : State :=
  match (s.lport p).peer with
  | none => s
  | some e =>
    if s.confirmed p && l.length ≤ 18 then
      let s1 := { s with net := { s.net with neighbours := kset s.net.neighbours e.moduleId l } }
      s1.settleNet s
    else s

/-- Whether a list rises. -/
def rising : List Nat → Bool
  | a :: b :: r => a < b && rising (b :: r)
  | _ => true

/-- VIEW (R331): the neighbour's pond view. -/
def State.recvView (s : State) (p : Fin 18) (members : List Nat) : State :=
  match (s.lport p).peer with
  | none => s
  | some e =>
    if s.confirmed p && !outerPort p && 1 ≤ members.length && members.length ≤ 8 && rising members then
      { s with net := { s.net with views := kset s.net.views e.moduleId members } }.agree
    else s

/-! ### Ticks (R334 to R338) -/

/-- The module whose TICKs a pond member takes: the tick master of the pond that is to form, else of its pond (R331,
R334). -/
def State.pondSource (s : State) : Nat := (s.net.nextPond.head?).getD s.net.tickMaster

/-- Whether the module is its pond's tick master. -/
def State.isPondMaster (s : State) : Bool := s.pondSource == s.moduleId

/-- Adds an offer, replacing an earlier one about the same port. -/
def State.addOffer (s : State) (o : Offer) : State :=
  { s with net := { s.net with
      offers := s.net.offers.filter (fun x => !(x.owner == o.owner && x.port == o.port)) ++ [o] } }

/-- The order of offers (R334). -/
def offerLt (a b : Offer) : Bool :=
  a.masterId < b.masterId || (a.masterId == b.masterId && (a.distance < b.distance ||
    (a.distance == b.distance && (a.owner < b.owner || (a.owner == b.owner && a.port < b.port)))))

/-- The best offer that a pond's tick master with an identifier may take: below 10 links, of a master with a lower one. -/
def bestOf (l : List Offer) (master : Nat) : Option Offer :=
  (sortBy offerLt (l.filter (fun o => o.distance < 10 && o.masterId < master))).head?

/-- The best offer to this module. -/
def State.bestOffer (s : State) : Option Offer := bestOf s.net.offers s.moduleId

/-- The port on which the module sends to another pond member: its first port to it, or to the relay (R332). -/
def State.portToward (s : State) (m : Nat) : Option Nat := (s.routeTo m).bind (·.ports.head?)

/-- The port from which the TICKs of an offer come: the module's own outer port, or the port towards the member that owns
it. -/
def State.offerPort (s : State) (o : Offer) : Option Nat :=
  if o.owner = s.moduleId then some o.port else s.portToward o.owner

/-- A pond's tick master takes the best offer (R334). -/
def State.chooseParent (s : State) : State :=
  match s.bestOffer with
  | some o => { s with net := { s.net with parent := s.offerPort o } }
  | none => s

/-- The TICK that the module sends: its own boundary and announcements. -/
def State.ownTick (s : State) (sendNs : Nat) : TickMsg :=
  { boundary := s.tick.count, sendNs := sendNs, tickN := s.tick.periodN,
    nextN := if s.net.changeAt = 0 then s.tick.periodN else s.net.nextN, changeAt := s.net.changeAt,
    jumpAt := s.net.jumpAt, jumpTo := s.net.jumpTo, anchorTick := s.tick.anchorTick, anchorS := s.tick.anchorS,
    anchorNs := s.tick.anchorNs, masterState := if s.follows then s.net.masterState else s.tick.sync,
    masterId := s.net.systemMaster, distance := s.net.distance, pondAt := s.net.pondAt }

/-- Whether the module relays the pond's TICKs to the neighbour at pond port p: that one has no port of its own to the
tick master, and this module is the lowest that has ports to both (R332, R334). -/
def State.needsRelay (s : State) (p : Fin 18) : Bool :=
  let near := fun (m : Nat) => (((kget s.net.neighbours m).getD []).filter (fun x => !x.outer)).map (·.moduleId)
  match (s.lport p).peer with
  | none => false
  | some e => e.moduleId != s.pondSource && !(near e.moduleId).contains s.pondSource &&
      s.pondPeers.contains s.pondSource &&
      ((near e.moduleId).filter (fun m => (near s.pondSource).contains m)).all (s.moduleId ≤ ·)

/-- The ports on which the module serves followers: its outer ports but the one it follows; the pond's tick master
serves its whole pond, the member that forwards its TICK among them, and another member those that it relays to. -/
def State.followerPort (s : State) (p : Fin 18) : Bool :=
  s.confirmed p && (if outerPort p then s.net.parent != some p.val else s.isPondMaster || s.needsRelay p)

/-- Sends a TICK to the followers. -/
def State.sendTick (s : State) (m : TickMsg) : State := s.sendAll s.followerPort (tickBytes m)

/-- A module that follows none sends TICK once per boundary (R329); a follower forwards the one that it receives (R335). -/
def State.boundaryTick (s : State) : State := if s.follows then s else s.sendTick (s.ownTick 0)

/-- The link delay of a port, 0 before it has been measured. -/
def State.delayOf (s : State) (p : Fin 18) : Nat := ((s.lport p).delayNs).getD 0

/-- Sets the tick period and its dictionary value (R24). -/
def State.setPeriod (s : State) (n : Nat) : State :=
  { s with tick := { s.tick with periodN := n, anchorDue := true },
           od := { s.od with live := kset s.od.live (odKey 0x2000 1) (.num n) } }

/-- Whether a TICK finds the module out of step: it follows none, or the boundary is neither the one just passed nor the
coming one. -/
def State.outOfStep (s : State) (m : TickMsg) : Bool :=
  !s.follows || (m.boundary + s.net.ahead != s.tick.count && m.boundary + s.net.ahead != s.tick.count + 1)

/-- Joins a parent (R338): its period and boundary position are taken, so the tick in progress is cut short; a higher
numbering is adopted, and a lower one leaves the module ahead until the jump. -/
def State.joinTick (s : State) (m : TickMsg) : State :=
  let s := s.setPeriod m.tickN
  { s with
    tick := { s.tick with count := max s.tick.count m.boundary, lostCapacity := true }
    net := { s.net with ahead := s.tick.count - m.boundary, changeAt := 0, jumpAt := 0, jumpTo := 0, pondAt := 0 } }

/-- An announced boundary in the module's own numbering; one that is due and no longer announced stays until the module
has passed it. -/
def State.announcedAt (s : State) (new old : Nat) : Nat :=
  if new ≠ 0 then new + s.net.ahead else if old ≤ s.tick.count + 1 then old else 0

/-- Takes over what a TICK announces, its anchor and its place (R28, R335). A period that differs with none announced is
taken at the next boundary (R27). -/
def State.takeTick (s : State) (p : Fin 18) (m : TickMsg) : State :=
  let change := s.announcedAt m.changeAt s.net.changeAt
  let jump := s.announcedAt m.jumpAt s.net.jumpAt
  let differs := change = 0 ∧ m.tickN ≠ s.tick.periodN
  { s with
    tick := { s.tick with sync := 2, anchorTick := m.anchorTick + s.net.ahead, anchorS := m.anchorS, anchorNs := m.anchorNs }
    net := { s.net with
      systemMaster := m.masterId, distance := m.distance + 1, noTick := 0
      nextN := if differs then m.tickN else if m.changeAt = 0 then s.net.nextN else m.nextN
      changeAt := if differs then s.tick.count + 1 else change
      jumpAt := jump
      jumpTo := if m.jumpAt ≠ 0 then m.jumpTo else if jump = 0 then 0 else s.net.jumpTo
      pondAt := s.announcedAt m.pondAt s.net.pondAt
      masterState := m.masterState
      boundaryPos := -((m.sendNs + s.delayOf p : Nat) : Int)
      parent := some p.val } }

/-- The module follows a TICK and forwards it (R335, R338). A module out of step with a parent whose count is higher waits
for a jump that is announced; one whose own count is higher reports it while no jump is. -/
def State.follow (s : State) (p : Fin 18) (m : TickMsg) : State :=
  let joins := s.outOfStep m
  if joins && s.tick.count < m.boundary && m.jumpAt ≠ 0 then
    { s with net := { s.net with parent := some p.val, noTick := 0 } }
  else
    let s := (if joins then s.joinTick m else s).takeTick p m
    let s := if s.net.ahead ≠ 0 && m.jumpAt = 0 then s.sendControl p (countUpBytes s.tick.count) else s
    s.sendTick { s.ownTick (m.sendNs + s.delayOf p) with boundary := m.boundary + s.net.ahead }

/-- Whether TICKs on port p come from the module's tick parent (R334): for a pond's tick master the port of its best offer;
for a member the master's own port, or the relay's where it has none. -/
def State.fromParent (s : State) (p : Fin 18) : Bool :=
  match (s.lport p).peer with
  | none => false
  | some e =>
    if s.isPondMaster then s.net.parent == some p.val
    else !outerPort p && (e.moduleId == s.pondSource ||
      ((s.routeTo s.pondSource).map (·.relay)).getD none == some e.moduleId)

/-- A TICK on an outer port is an offer (R334). The pond's tick master takes the best; another member sends the master an
OFFER about the port, one link further from the system tick master than the sender, and forwards the TICKs of the best of
its own ports. -/
def State.offerTick (s : State) (p : Fin 18) (m : TickMsg) : State :=
  let s := s.addOffer { masterId := m.masterId, distance := m.distance, owner := s.moduleId, port := p.val }
  if s.isPondMaster then s.chooseParent
  else
    let up := fun (r : Fin 18) => s.portToward s.pondSource == some r.val
    let best := (bestOf (s.net.offers.filter (fun o => o.owner = s.moduleId)) s.pondSource).map (·.port)
    let s := s.sendAll up (offerBytes m.masterId (m.distance + 1) p.val)
    if best = some p.val then
      s.sendAll up (tickBytes { m with sendNs := m.sendNs + s.delayOf p, distance := m.distance + 1 })
    else s

/-- TICK (R334, R335). -/
def State.recvTick (s : State) (p : Fin 18) (m : TickMsg) : State :=
  if !s.confirmed p || m.tickN = 0 || 128 < m.tickN || m.nextN = 0 || 128 < m.nextN || m.masterState > 1 ||
      m.masterId > 4095 then s
  else
    let s := if outerPort p then s.offerTick p m else s
    if s.fromParent p then s.follow p m else s

/-- OFFER (R334): taken by the pond's tick master; a member that relays to it passes the OFFER on (R332). -/
def State.recvOffer (s : State) (p : Fin 18) (masterId distance port : Nat) : State :=
  match (s.lport p).peer with
  | none => s
  | some e =>
    if !s.confirmed p || outerPort p || 4095 < masterId || 17 < port then s
    else if s.isPondMaster then
      (s.addOffer { masterId := masterId, distance := distance, owner := e.moduleId, port := port }).chooseParent
    else if s.needsRelay p then
      s.sendAll (fun r => s.portToward s.pondSource == some r.val) (offerBytes masterId distance port)
    else s

/-- The synchronisation state of a module that follows no parent (R28). -/
def State.ownSync (s : State) : Nat := if s.power.ptp ≠ 0 || s.power.ppsUse then 1 else 0

/-- The module becomes tick master of itself and its followers (R336). -/
def State.leadTicks (s : State) : State :=
  { s with
    net := { s.net with systemMaster := s.moduleId, distance := 0, masterState := s.ownSync, parent := none, ahead := 0 }
    tick := { s.tick with sync := s.ownSync, anchorDue := true } }

/-- TICK_LOSS: after 16 boundaries without a TICK the follower chooses a new parent, or becomes tick master of
itself and its followers (R336). -/
def execTickLoss (s : State) : Host.Outcome State Fault Refusal :=
  noted (if s.tick.sync = 2 && 16 ≤ s.net.noTick then
      let lost := s.net.parent
      let s := { s with net := { s.net with
        offers := s.net.offers.filter (fun o => s.offerPort o != lost), parent := none, noTick := 0 } }
      match (if s.isPondMaster then s.bestOffer.bind s.offerPort
             else (((s.portsTo s.pondSource) ++ (s.portToward s.pondSource).toList).filter (fun n => some n != lost)).head?) with
      | some n => { s with net := { s.net with parent := some n } }
      | none => s.leadTicks
    else s)

/-- CREDIT (R328): the source of the relayed route takes the credits, for 16 flits at most, a relay passes them on. -/
def State.recvCredit (s : State) (p : Fin 18) (g n : Nat) : State :=
  match (s.lport p).peer with
  | none => s
  | some e =>
    if !s.confirmed p then s
    else
      let mine : Bool := match s.collOf g with
        | some c => ((s.route c.succ).bind (·.relay)).isSome && ((s.route c.succ).map (fun r => r.ports.contains p.val)).getD false
        | none => false
      if mine then
        let s := { s with net := { s.net with endCredits := kset s.net.endCredits g (min 16 (crGet s.net.endCredits g + n)) } }
        s.each allP (fun s p => s.flush p)
      else
        let prev := match s.group g with
          | some ge => if ge.members.contains e.moduleId then
              nth ge.members ((ge.members.idxOf e.moduleId + ge.members.length - 1) % max 1 ge.members.length) 0
            else Config.relayDest g e.moduleId
          | none => Config.relayDest g e.moduleId
        s.sendAll (fun r => (s.portsTo prev).head? == some r.val) (creditBytes g n)

/-- COUNT_UP (R338): the system tick master announces a jump, or moves the one that is pending; another module forwards it
to its parent. A count reported earlier has risen by the ticks since; the announcement falls inside tick k, so a boundary
at least 16 ticks ahead is k + 17. -/
def State.recvCountUp (s : State) (p : Fin 18) (n : Nat) : State :=
  if !s.confirmed p then s
  else if s.follows then s.sendAll (fun x => s.net.parent == some x.val) (countUpBytes n)
  else if s.tick.count < n then
    let h := if s.net.jumpAt = 0 then n else max n (s.net.jumpTo - (s.net.jumpAt - s.tick.count))
    { s with net := { s.net with highest := h, jumpAt := s.tick.count + 17, jumpTo := h + 17 } }
  else s

/-- DELAY_REQ (R335): answered at once. -/
def State.recvDelayReq (s : State) (p : Fin 18) (t1 nowNs : Nat) : State := s.sendControl p (delayRespBytes t1 nowNs nowNs)

/-- DELAY_RESP (R335): the link delay; a link beyond 1 µs is held. -/
def State.recvDelayResp (s : State) (p : Fin 18) (t1 t2 t3 t4 : Nat) : State :=
  let d : Int := (((t4 : Int) - t1) - ((t3 : Int) - t2)) / 2
  let s1 := s.modL p (fun x => { x with delayNs := some d.toNat })
  (if 1000 < d.toNat then s1.hold p else s1).settleNet s

/-- A CONTROL payload (R329): one message; what is not listed, or breaks its ranges, is dropped. -/
def State.recvControl (s : State) (p : Fin 18) (b : List Byte) : State :=
  let n := fun (off w : Nat) => leAt b off w
  if n 1 1 ≠ 0 then s
  else
    match n 0 1 with
    | 1 =>
      if 1 < n 13 1 then s
      else s.recvHello p { moduleId := n 2 2, serial := n 4 8, port := n 12 1, outer := n 13 1 == 1,
                           version := n 14 1, tickCount := n 15 8, tickN := n 23 1 }
    | 2 =>
      let k := n 2 1
      if 18 < k || (List.range k).any (fun i => 1 < n (5 + 4 * i) 1) then s
      else s.recvNeighbours p ((List.range k).map (fun i =>
        { moduleId := n (3 + 4 * i) 2, outer := n (5 + 4 * i) 1 == 1, ports := n (6 + 4 * i) 1 }))
    | 3 => s.recvView p ((List.range (n 6 1)).map (fun i => n (7 + 2 * i) 2))
    | 4 => s.recvTick p
        { boundary := n 2 8, sendNs := n 10 4, tickN := n 14 1, nextN := n 15 1, changeAt := n 16 8, jumpAt := n 24 8,
          jumpTo := n 32 8, anchorTick := n 40 8, anchorS := n 48 8, anchorNs := n 56 4, masterState := n 60 1,
          masterId := n 61 2, distance := n 63 1, pondAt := n 64 8 }
    | 5 => s.recvOffer p (n 2 2) (n 4 1) (n 5 1)
    | 6 => { s with free := s.free + 1 }.recvDelayReq p (n 2 8) (Config.clockNs s.free)
    | 7 => { s with free := s.free + 1 }.recvDelayResp p (n 2 8) (n 10 8) (n 18 8) (Config.clockNs s.free)
    | 8 => s.recvCredit p (n 2 1) (n 3 2)
    | 9 => s.recvCountUp p (n 2 8)
    | _ => s

/-! ### Flits -/

/-- The module that a relay sends a flit of group g on to (R328). -/
def State.relayTo (s : State) (g frm : Nat) : Nat :=
  match s.group g with
  | some e =>
    if e.members.contains frm then nth e.members ((e.members.idxOf frm + 1) % max 1 e.members.length) 0
    else Config.relayDest g frm
  | none => Config.relayDest g frm

/-- Whether DATA of a group without HOP, from a neighbour, came by a relay: the group's flits come to this member from
another one, its ring predecessor (R328). -/
def State.relayed (s : State) (g frm : Nat) : Bool :=
  match s.collOf g with
  | some c => c.pred != frm && ((s.route c.pred).bind (·.relay)) == some frm
  | none => false

/-- A DATA flit that was accepted: forwarded with HOP = 0, or taken into its message, which is delivered with its last
flit. Its buffer drains at once: a flit that came by a relay returns an end-to-end credit in a CREDIT message, another
its link credit (R325, R328). -/
def State.takeData (s : State) (p : Fin 18) (h : FlitHead) (payload : List Byte) : State :=
  let frm := ((s.lport p).peer.map (·.moduleId)).getD 0
  if h.hop then
    let dest := s.relayTo h.group frm
    match (s.route dest).bind (·.port h.group) with
    | some r => s.enqueue r { h with hop := false } payload dest (some p)
    | none => s.modL p (fun x => x.drained h)
  else
    let s := if s.relayed h.group frm then s.sendControl p (creditBytes h.group 1) else s.modL p (fun x => x.drained h)
    let old := if h.first then [] else ((kget (s.lport p).rxMsg h.group).getD [])
    let bs := old ++ payload
    if h.last then (s.modL p (fun x => { x with rxMsg := kdel x.rxMsg h.group })).deliver h.group bs
    else s.modL p (fun x => { x with rxMsg := kset x.rxMsg h.group bs })

/-- A flit arrives on a trained port. One whose CRC or header is bad is dropped with a retry request, and so is a numbered
one that is not the expected one (R324, R326); a flit that is not discarded gives its ACK and credits. -/
def State.onFlit (s : State) (p : Fin 18) (type : Nat) (bs : List Byte)
    (f : State → FlitHead → List Byte → State) : State :=
  if !(s.lport p).up then s
  else
    match parseFlit bs with
    | none => (s.askRetry p).retrainBad p
    | some (h, payload) =>
      if h.type ≠ type then s
      else if h.type = 0 || h.type = 3 then f (s.takeHead p h) h payload
      else
        match s.takeSeq p h with
        | (true, s) => f (s.takeHead p h) h payload
        | (false, s) => s.retrainBad p

/-- DATA: on a port that carries none, a flit is dropped after its ACK (R322, R330, R331; DESIGN CHOICE, log entry 73). -/
def execData (p : Fin 18) (flit : List Byte) (s : State) : Host.Outcome State Fault Refusal :=
  noted (s.onFlit p 1 flit (fun s h b => if s.carriesData p then s.takeData p h b else s))

/-- CONTROL: on a held port, HELLO only (R330). -/
def execControl (p : Fin 18) (flit : List Byte) (s : State) : Host.Outcome State Fault Refusal :=
  noted (s.onFlit p 2 flit (fun s _ b => if s.heldPort p && b.head? != some 1 then s else s.recvControl p b))

/-- RETRY: the sender resends from the named SEQ. -/
def execRetry (p : Fin 18) (flit : List Byte) (s : State) : Host.Outcome State Fault Refusal :=
  noted (s.onFlit p 3 flit (fun s _ b => s.resendFrom p (leAt b 0 2 % 4096)))

/-- IDLE: acknowledgements and credits only. -/
def execIdle (p : Fin 18) (flit : List Byte) (s : State) : Host.Outcome State Fault Refusal :=
  noted (s.onFlit p 0 flit (fun s _ _ => s))

/-- RETRY_REPEAT_TIMER: while a gap lasts, the RETRY is repeated. -/
def execRetryRepeatTimer (p : Fin 18) (s : State) : Host.Outcome State Fault Refusal :=
  noted (if (s.lport p).up && (s.lport p).gap then s.sendPlain p 3 (leBytes 2 (s.lport p).rxSeq) else s)

/-- IDLE_TIMER: an IDLE carries ACKs and credits. -/
def execIdleTimer (p : Fin 18) (s : State) : Host.Outcome State Fault Refusal :=
  noted (if (s.lport p).up then s.sendPlain p 0 [] else s)

/-- ACK_TIMEOUT: a flit stays unacknowledged for 2 × TICK_PERIOD; the port is down (R327). -/
def execAckTimeout (p : Fin 18) (s : State) : Host.Outcome State Fault Refusal :=
  noted (if (s.lport p).retryBuf.any (fun f => f.tick + 2 ≤ s.tick.count) then (s.portDown p).settleNet s else s)

/-! ### The discovery rows -/

/-- HELLO. -/
def execHello (p : Fin 18) (m : HelloMsg) (s : State) : Host.Outcome State Fault Refusal := noted (s.recvHello p m)

/-- HELLO_TIMER. -/
def execHelloTimer (s : State) : Host.Outcome State Fault Refusal :=
  noted (s.each (allP.filter (fun p => (s.lport p).up)) (fun s p => s.sendControl p (s.helloBytes p)))

/-- NEIGHBOURS. -/
def execNeighbours (p : Fin 18) (entries : List NeighbourEntry) (s : State) : Host.Outcome State Fault Refusal :=
  noted (s.recvNeighbours p entries)

/-- NEIGHBOURS_TIMER. -/
def execNeighboursTimer (s : State) : Host.Outcome State Fault Refusal :=
  noted (s.sendAll (fun p => (s.lport p).up) s.neighbourBytes)

/-- VIEW: no rule uses its VIEW_SEQ. -/
def execView (p : Fin 18) (_viewSeq : Nat) (members : List Nat) (s : State) : Host.Outcome State Fault Refusal :=
  noted (s.recvView p members)

/-- Applies the announced pond at its boundary (R331). An outer port whose peer now belongs to the pond is held (R330). A
member takes the tick master as parent; a tick master that followed another, and has no offer, leads (R334). -/
def State.formPond (s : State) : State :=
  match s.net.nextPond with
  | [] => { s with net := { s.net with pondAt := 0 } }
  | m :: rest =>
    let v := m :: rest
    let before := s
    let s := { s with net := { s.net with pond := v, tickMaster := m, pondAt := 0, nextPond := [] } }
    let s := s.each (allP.filter (fun p => outerPort p && ((s.lport p).peer.map (fun e => v.contains e.moduleId)).getD false))
      (fun s p => s.hold p)
    let s := s.settleNet before
    if m ≠ s.moduleId then { s with net := { s.net with parent := s.portToward m } }
    else if s.bestOffer.isSome then s.chooseParent
    else if s.follows then s.leadTicks
    else s

/-- POND_FORMATION, at the announced boundary. -/
def execPondFormation (s : State) : Host.Outcome State Fault Refusal :=
  noted (if s.net.pondAt ≠ 0 && (s.net.pondAt = s.tick.count || s.net.pondAt = s.tick.count + 1) then s.formPond else s)

/-- TICK. -/
def execTick (p : Fin 18) (m : TickMsg) (s : State) : Host.Outcome State Fault Refusal := noted (s.recvTick p m)

/-- OFFER. -/
def execOffer (p : Fin 18) (masterId distance port : Nat) (s : State) : Host.Outcome State Fault Refusal :=
  noted (s.recvOffer p masterId distance port)

/-- DELAY_REQ. -/
def execDelayReq (p : Fin 18) (t1 nowNs : Nat) (s : State) : Host.Outcome State Fault Refusal :=
  noted (s.recvDelayReq p t1 nowNs)

/-- DELAY_REQ_TIMER: every 1,024 ticks, and after a port has trained. -/
def execDelayReqTimer (nowNs : Nat) (s : State) : Host.Outcome State Fault Refusal :=
  noted (s.sendAll (fun p => (s.lport p).up) (delayReqBytes nowNs))

/-- DELAY_RESP. -/
def execDelayResp (p : Fin 18) (t1 t2 t3 t4 : Nat) (s : State) : Host.Outcome State Fault Refusal :=
  noted (if (s.lport p).up && !s.heldPort p then s.recvDelayResp p t1 t2 t3 t4 else s)

/-- CREDIT. -/
def execCredit (p : Fin 18) (group count : Nat) (s : State) : Host.Outcome State Fault Refusal :=
  noted (s.recvCredit p group count)

/-- COUNT_UP. -/
def execCountUp (p : Fin 18) (tickCount : Nat) (s : State) : Host.Outcome State Fault Refusal :=
  noted (s.recvCountUp p tickCount)

/-- Applies the announced period. -/
def State.changePeriod (s : State) : State :=
  let s := s.setPeriod s.net.nextN
  { s with net := { s.net with changeAt := 0 } }

/-- TICK_PERIOD_CHANGE, at CHANGE_AT (R337): the announced period takes force at step 9 of the sluice of that
boundary. -/
def execTickPeriodChange (s : State) : Host.Outcome State Fault Refusal :=
  noted (if s.net.changeAt ≠ 0 && s.net.changeAt = s.tick.count + 1 then
      { s with od := { s.od with rwt := kset s.od.rwt (odKey 0x2000 1) (.num s.net.nextN) },
               net := { s.net with changeAt := 0 } }
    else s)

/-- An announced boundary after a jump. -/
def NetSt.moved (x : NetSt) (k : Nat) : Nat := if k ≠ 0 && x.jumpAt ≤ k then k + (x.jumpTo - x.jumpAt) else k

/-- Renumbers the coming boundary (R338): the sluice that follows counts to JUMP_TO, and the other announced boundaries
are renumbered with it. The count never decreases. -/
def State.jump (s : State) : State :=
  { s with tick := { s.tick with count := max s.tick.count (s.net.jumpTo - 1) },
           net := { s.net with jumpAt := 0, jumpTo := 0, highest := 0, ahead := 0,
                               changeAt := s.net.moved s.net.changeAt, pondAt := s.net.moved s.net.pondAt } }

/-- TICK_JUMP, at JUMP_AT. -/
def execTickJump (s : State) : Host.Outcome State Fault Refusal :=
  noted (if s.net.jumpAt ≠ 0 && s.net.jumpAt = s.tick.count + 1 then s.jump else s)

end Sys2Proof.Machine
end

