-- ==== Sys2Proof/Machine/Port.lean ====
section
/-! DEFINITION. The commands of a host port: BAR0 registers (R279), BAR2 accesses (R37, R38, R280), queue control
(R283, R284), doorbells (R286), and the events that reset a port and its tenancy (R297). -/
namespace Sys2Proof.Machine

open Sys2Proof

/-- Whether port Ht accepts accesses: its last reset is complete and PERSTt_N is deasserted (R297). -/
def State.portOpen (s : State) (t : Fin 4) : Bool := s.hostOpen t && !s.ports[t].perst

/-- Answers with a state that an open port reaches; a closed port accepts nothing. -/
def State.onPort (s : State) (t : Fin 4) (f : State → State) : Host.Outcome State Fault Refusal :=
  noted (if s.portOpen t then f s else s)

/-! ### The PCI Express function (R277) -/

/-- What the function presents in its configuration space, as far as R277 gives it. -/
structure PciFunction where
  classCode : Nat
  bar0Bytes : Nat
  bar2Bytes : Nat
  vectors : Nat
  maxPayload : Nat
  maxRead : Nat
deriving DecidableEq, Repr

/-- The function of each port. -/
def pciFunction : PciFunction :=
  { classCode := 0x120000, bar0Bytes := 64 * 2 ^ 10, bar2Bytes := 4 * 2 ^ 30, vectors := 64, maxPayload := 512,
    maxRead := 4096 }

/-- The answer to a configuration request: Request Retry Status until the port accepts accesses (R297), else the
function. No row carries such a request (log entry 54). -/
def State.configAnswer (s : State) (t : Fin 4) : Option PciFunction := if s.portOpen t then some pciFunction else none

/-! ### Queue control (R284) -/

/-- CREATE. -/
def State.createQueue (s : State) (t : Fin 4) (q : Fin 64) : State :=
  let x := s.queue t q
  let log2 := bits x.config.toNat 0 5
  if x.state == .absent && 4 ≤ log2 && log2 ≤ 16 then s.modQueue t q (fun x => { x with createPending := true })
  else s.logQueue t q

/-- DELETE: commands that have not begun are dropped without completion. -/
def State.deleteQueue (s : State) (t : Fin 4) (q : Fin 64) : State :=
  let x := s.queue t q
  if x.state == .active || x.state == .halted then
    s.modQueue t q (fun (x : Queue) =>
      let begun := (x.run.map (·.begun)).getD false
      { x with state := .deleting, resumePending := false, avail := if begun then x.avail.take 1 else [],
               run := if begun then x.run else none })
  else s.logQueue t q

/-- RESUME: it takes effect at step 6 of the next sluice (R264). -/
def State.resumeQueue (s : State) (t : Fin 4) (q : Fin 64) : State :=
  if (s.queue t q).state == .halted then s.modQueue t q (fun x => { x with resumePending := true })
  else s.logQueue t q

/-- CREATE. -/
def execCreate (t : Fin 4) (q : Fin 64) (s : State) : Host.Outcome State Fault Refusal :=
  s.onPort t (fun s => s.createQueue t q)

/-- DELETE. -/
def execDelete (t : Fin 4) (q : Fin 64) (s : State) : Host.Outcome State Fault Refusal :=
  s.onPort t (fun s => s.deleteQueue t q)

/-- RESUME. -/
def execResume (t : Fin 4) (q : Fin 64) (s : State) : Host.Outcome State Fault Refusal :=
  s.onPort t (fun s => s.resumeQueue t q)

/-- A write of a queue block register (R284): offset in the block, width and value. -/
def State.writeQueueBlock (s : State) (t : Fin 4) (q : Fin 64) (off : Nat) (v : W64) : State :=
  let n := v.toNat
  let absent := (s.queue t q).state == .absent
  match off with
  | 0x00 => if absent && n % 4096 == 0 then s.modQueue t q (fun x => { x with cmdBase := v }) else s.logQueue t q
  | 0x08 => if absent && n % 4096 == 0 then s.modQueue t q (fun x => { x with cplBase := v }) else s.logQueue t q
  | 0x10 =>
    if absent && n &&& 0x3F1F == n && 4 ≤ bits n 0 5 && bits n 0 5 ≤ 16 && bits n 8 6 ≤ 62 then
      s.modQueue t q (fun x => { x with config := BitVec.ofNat 32 n })
    else s.logQueue t q
  | 0x14 =>
    match n with
    | 1 => s.createQueue t q
    | 2 => s.deleteQueue t q
    | 3 => s.resumeQueue t q
    | _ => s.logQueue t q
  | _ => s.logQueue t q

/-- The width of a queue block register; none for a reserved offset. -/
def queueRegWidth (off : Nat) : Option Nat :=
  match off with
  | 0x00 => some 8
  | 0x08 => some 8
  | 0x10 => some 4
  | 0x14 => some 4
  | 0x18 => some 4
  | 0x1C => some 4
  | 0x20 => some 8
  | _ => none

/-- The code of a queue's state. -/
def QState.code : QState → Nat
  | .absent => 0
  | .active => 1
  | .halted => 2
  | .deleting => 3

/-- A read of a queue block register. -/
def Queue.readReg (x : Queue) (off : Nat) : Option Nat :=
  match off with
  | 0x00 => some x.cmdBase.toNat
  | 0x08 => some x.cplBase.toNat
  | 0x10 => some x.config.toNat
  | 0x18 => some (x.state.code + 256 * x.qepoch.toNat)
  | 0x1C => some x.head
  | 0x20 => some x.fence
  | _ => none

/-! ### Doorbells (R286) -/

/-- Whether a CMD_TAIL value is taken. -/
def Queue.tailOk (x : Queue) (tail : Nat) : Bool :=
  let e := x.entries
  (x.state == .active || x.state == .halted) && tail < e && (x.tail + e - x.head) % e ≤ (tail + e - x.head) % e

/-- CPL_HEAD: completion entries before the index are free. -/
def State.completionHead (s : State) (t : Fin 4) (q : Fin 64) (head : Nat) : State :=
  let x := s.queue t q
  let e := x.entries
  if x.state == .absent || e ≤ head then s.logQueue t q
  else s.modQueue t q (fun x => { x with cplFreed := x.cplFreed + (head + e - x.cplFreed % e) % e })

/-- CPL_HEAD. -/
def execCplHead (t : Fin 4) (q : Fin 64) (head : Nat) (s : State) : Host.Outcome State Fault Refusal :=
  s.onPort t (fun s => s.completionHead t q head)

/-! ### Port registers (R279) -/

/-- Clears cause bits. -/
def State.clearCause (s : State) (t : Fin 4) (v : W32) : State :=
  s.modPort t (fun p => { p with eventCause := p.eventCause &&& ~~~v })

/-- EVENT_CAUSE, write 1 to clear. -/
def execEventCause (t : Fin 4) (v : W32) (s : State) : Host.Outcome State Fault Refusal :=
  s.onPort t (fun s => s.clearCause t v)

/-- Refuses a BAR0 access. -/
def State.refuseBar0 (s : State) (t : Fin 4) (offset : Nat) : State := s.logAccess t 3 Config.errBarAccess offset

/-- Starts a mailbox request (R299). -/
def State.startMailbox (s : State) (t : Fin 4) (v : W32) : State :=
  let n := v.toNat
  if s.ports[t].mbxBusy || n = 0 || 16384 < n then s.refuseBar0 t 0x24
  else s.modPort t (fun p => { p with mbxBusy := true, mbxLen := n })

/-- MBX_CTRL. -/
def execMbxCtrl (t : Fin 4) (v : W32) (s : State) : Host.Outcome State Fault Refusal :=
  s.onPort t (fun s => s.startMailbox t v)

/-- Clears READY; BUSY and the response length ignore writes. -/
def State.clearReady (s : State) (t : Fin 4) (v : W32) : State :=
  if v.getLsbD 30 then s.modPort t (fun p => { p with mbxReady := false }) else s

/-- MBX_STATUS. -/
def execMbxStatus (t : Fin 4) (v : W32) (s : State) : Host.Outcome State Fault Refusal :=
  s.onPort t (fun s => s.clearReady t v)

/-- Writes dword i of the MSI-X table; a vector that is unmasked sends its pending message (R292). -/
def State.writeMsix (s : State) (t : Fin 4) (i : Nat) (v : W32) : State :=
  let s := s.modPort t (fun p => { p with msixTable := kset p.msixTable i v })
  let n := i / 4
  if s.ports[t].msixPending.getLsbD n && !s.ports[t].masked n then
    (s.modPort t (fun p => { p with msixPending := p.msixPending &&& ~~~(1#64 <<< n) })).sendMsix t n
  else s

/-- The mask of WINDOW_BASE. -/
abbrev windowMask : W64 := 0x000FFFFFFFE00000

/-- The queue of an offset of the queue blocks. -/
def queueOf (off : Nat) : Fin 64 := Fin.ofNat 64 ((off - 0x4000) / 64)

/-- A write to BAR0 outside the doorbell CMD_TAIL, whose entries come with its own command. -/
def State.writeBar0 (s : State) (t : Fin 4) (off width : Nat) (v : W64) : State :=
  let lo : W32 := v.setWidth 32
  if off < 0x40 then
    match off, width with
    | 0x10, 8 => s.modPort t (fun p => { p with windowBase := v &&& windowMask })
    | 0x18, 4 => s.clearCause t lo
    | 0x1C, 4 => s.withCause t (fun p => { p with eventMask := lo &&& 0x1F })
    | 0x24, 4 => s.startMailbox t lo
    | 0x28, 4 => s.clearReady t lo
    | _, _ => s.refuseBar0 t off
  else if 0x1000 ≤ off ∧ off < 0x1400 then
    let q : Fin 64 := Fin.ofNat 64 ((off - 0x1000) / 16)
    if width ≠ 4 then s.refuseBar0 t off
    else if off % 16 = 4 then s.completionHead t q lo.toNat
    else if off % 16 = 0 then (if (s.queue t q).tailOk lo.toNat then s else s.logQueue t q)
    else s.refuseBar0 t off
  else if 0x2000 ≤ off ∧ off < 0x2400 then
    let s := s.writeMsix t ((off - 0x2000) / 4) lo
    if width = 8 then s.writeMsix t ((off - 0x2000) / 4 + 1) ((v >>> 32).setWidth 32) else s
  else if 0x4000 ≤ off ∧ off < 0x5000 then
    if queueRegWidth (off % 64) = some width then
      s.writeQueueBlock t (queueOf off) (off % 64) (if width = 4 then lo.setWidth 64 else v)
    else s.logQueue t (queueOf off)
  else if 0x8000 ≤ off ∧ off < 0xC000 then
    s.modPort t (fun p => { p with mbxReq := splice p.mbxReq (off - 0x8000) (leBytes width v.toNat) })
  else s.refuseBar0 t off

/-- REGISTER_WRITE: a write to BAR0; a refused one to a queue block is logged by R284. -/
def execRegisterWrite (t : Fin 4) (offset width : Nat) (value : W64) (s : State) : Host.Outcome State Fault Refusal :=
  s.onPort t (fun s =>
    if (width = 4 ∨ width = 8) ∧ offset % width = 0 ∧ offset + width ≤ 65536 then s.writeBar0 t offset width value
    else if 0x4000 ≤ offset ∧ offset < 0x5000 then s.logQueue t (queueOf offset)
    else s.refuseBar0 t offset)

/-- The bytes of an error log entry (R293); an entry never written reads as zero. -/
def errBytes (e : Option ErrEntry) : List Byte :=
  match e with
  | none => List.replicate 32 0
  | some e =>
    leBytes 4 e.strand ++ leBytes 4 e.seq ++ leBytes 8 e.tick ++ leBytes 8 e.address.toNat ++
      leBytes 2 e.index ++ leBytes 1 e.gen ++ leBytes 1 e.queue ++ leBytes 1 e.qepoch ++ leBytes 1 e.kind ++
      leBytes 2 e.code

/-- A read of BAR0; none where it is refused. -/
def State.readBar0 (s : State) (t : Fin 4) (off width : Nat) : Option Nat :=
  let p := s.ports[t]
  if off < 0x40 then
    match off, width with
    | 0x00, 8 => some (s.moduleId * 2 ^ 32 + 0x4300 + t.val)
    | 0x08, 8 => some s.tick.count
    | 0x10, 8 => some p.windowBase.toNat
    | 0x18, 4 => some p.eventCause.toNat
    | 0x1C, 4 => some p.eventMask.toNat
    | 0x20, 4 => some p.errlogSeq.toNat
    | 0x28, 4 => some ((if p.mbxBusy then 2 ^ 31 else 0) + (if p.mbxReady then 2 ^ 30 else 0) + p.mbxRespLen)
    | 0x30, 8 => some (s.haltedMask t)
    | _, _ => none
  else if 0x2000 ≤ off ∧ off < 0x2400 then
    let i := (off - 0x2000) / 4
    some ((p.msixWord i).toNat + (if width = 8 then (p.msixWord (i + 1)).toNat * 2 ^ 32 else 0))
  else if 0x3000 ≤ off ∧ off < 0x3008 then some (bits p.msixPending.toNat (8 * (off - 0x3000)) (8 * width))
  else if 0x4000 ≤ off ∧ off < 0x5000 then
    if queueRegWidth (off % 64) = some width then (s.queue t (Fin.ofNat 64 ((off - 0x4000) / 64))).readReg (off % 64)
    else none
  else if 0x6000 ≤ off ∧ off < 0x8000 then
    some (leAt (errBytes (kget p.errlog ((off - 0x6000) / 32))) (off % 32) width)
  else if 0x8000 ≤ off ∧ off < 0xC000 then some (leAt p.mbxReq (off - 0x8000) width)
  else if 0xC000 ≤ off ∧ off < 0x10000 then some (leAt p.mbxResp (off - 0xC000) width)
  else none

/-- BAR0_READ: a refused read returns all ones and is logged. -/
def execBar0Read (t : Fin 4) (offset width : Nat) (s : State) : Host.Outcome State Fault Refusal :=
  s.onPort t (fun s =>
    let ok : Bool := (width = 4 ∨ width = 8) ∧ offset % width = 0 ∧ offset + width ≤ 65536
    match (if ok then s.readBar0 t offset width else none) with
    | some n => s.emit (.bar0 t (BitVec.ofNat 64 n))
    | none => (s.refuseBar0 t offset).emit (.bar0 t (BitVec.ofNat 64 (2 ^ (8 * width) - 1))))

/-! ### BAR2 (R37, R38, R280) -/

/-- Why a BAR2 access to a page is refused. -/
def State.bar2Error (s : State) (t : Fin 4) (write : Bool) (v : Nat) : Option Nat :=
  if inModelWindow v && write then some Config.errPageForeign
  else
    match s.reachCommitted t v with
    | .frame _ => none
    | .error e => some (if e = Config.errModelAbsent then Config.errPageUnmapped else e)

/-- Whether a range of Tt meets a locked shadow copy: a directory (R140), or an augmentation table (R249). -/
def State.shadowLocked (s : State) (t : Fin 4) (a n : Nat) : Bool :=
  let meets := fun (b len : Nat) => decide (a < b + len ∧ b < a + n)
  s.mem.dirBusy.any (fun x => x.1 == t.val &&
    (match s.seqAt t x.2 with
     | .ok q => meets q.shadowDir (8 * q.heads * q.slots)
     | .error _ => false)) ||
  s.ingest.any (fun x => x.2.owner == t && x.2.augCommit != .idle &&
    meets (wbits (nth x.2.words (if x.2.augB then 4 else 5) 0) 0 52) (32 * wbits (nth x.2.words 0 0) 28 12))

/-- Logs a refused BAR2 access, once for each page, kind and tick (R280). -/
def State.refuseBar2 (s : State) (t : Fin 4) (kind code a : Nat) : State :=
  let key := (pageOf a, kind)
  if s.ports[t].refused.contains key then s.bump 0x902B (1 + 16 * t.val) 1
  else (s.modPort t (fun p => { p with refused := p.refused ++ [key] })).logAccess t kind code a

/-- A BAR2 read of count bytes: the committed state. -/
def State.bar2Load (s : State) (t : Fin 4) (a n : Nat) : Except Fault State :=
  match (pagesOf a n).findSome? (s.bar2Error t false) with
  | some e => .ok ((s.refuseBar2 t 1 e a).emit (.bar2 t (List.replicate n 0xFF)))
  | none =>
    match (pagesOf a n).find? (fun v => match s.reachCommitted t v with
      | .frame f => Config.stacksEnd ≤ f * Config.pageBytes
      | .error _ => false) with
    | some v => .error (.noMemory (v * Config.pageBytes))
    | none => .ok (s.emit (.bar2 t (s.readT t a n)))

/-- A BAR2 write: it takes effect at once, in the home frame and every copy of it (R38, R171). -/
def State.bar2Store (s : State) (t : Fin 4) (a : Nat) (bs : List Byte) : Except Fault State :=
  match (pagesOf a bs.length).findSome? (s.bar2Error t true) with
  | some e => .ok (s.refuseBar2 t 2 e a)
  | none =>
    if s.shadowLocked t a bs.length then .ok (s.refuseBar2 t 2 Config.errTableBusy a)
    else
      let frameOf := fun v => match s.reachCommitted t v with
        | .frame f => some f
        | .error _ => none
      match (pagesOf a bs.length).find? (fun v => Config.stacksEnd ≤ (frameOf v).getD 0 * Config.pageBytes) with
      | some v => .error (.noMemory (v * Config.pageBytes))
      | none => .ok ((s.writeVia frameOf a bs).narrow frameOf a bs.length)

/-- The device-virtual address of a BAR2 offset: by the WINDOW_BASE that stands when the access reaches the module. -/
def State.bar2Addr (s : State) (t : Fin 4) (offset : Nat) : Nat := s.ports[t].windowBase.toNat + offset

/-- Performs an access, which holds its device-virtual address. -/
def State.bar2Do (s : State) (t : Fin 4) (x : HeldAccess) : Except Fault State :=
  match x with
  | .read a n => s.bar2Load t a n
  | .write a bs => s.bar2Store t a bs

/-- Performs a list of accesses in order. -/
def State.bar2All (s : State) (t : Fin 4) : List HeldAccess → Except Fault State
  | [] => .ok s
  | x :: r => (s.bar2Do t x).bind (fun s => s.bar2All t r)

/-- Releases the held accesses of a port, then performs one more (R37). -/
def State.bar2Release (s : State) (t : Fin 4) (more : List HeldAccess) : Except Fault State :=
  let l := s.ports[t].held
  (s.modPort t (fun p => { p with held := [] })).bar2All t (l ++ more)

/-- A BAR2 access: held while the sluice lasts. -/
def State.bar2Access (s : State) (t : Fin 4) (atNs : Nat) (x : HeldAccess) : Except Fault State :=
  if !s.portOpen t then .ok s
  else if atNs < s.tick.sluiceLen then .ok (s.modPort t (fun p => { p with held := p.held ++ [x] }))
  else s.bar2Release t [x]

/-- Does what a port holds before something that it must precede (R282): a doorbell, the next sluice. An access that can
reach no memory is dropped. -/
def State.bar2Flush (s : State) (t : Fin 4) : State :=
  match s.bar2Release t [] with
  | .ok s => s
  | .error _ => s.modPort t (fun p => { p with held := [] })

/-- The answer of an access. -/
def accessed (x : Except Fault State) : Host.Outcome State Fault Refusal :=
  match x with
  | .ok s => noted s
  | .error f => .fault f

/-- BAR2_READ. -/
def execBar2Read (t : Fin 4) (offset count atNs : Nat) (s : State) : Host.Outcome State Fault Refusal :=
  accessed (s.bar2Access t atNs (.read (s.bar2Addr t offset) count))

/-- BAR2_WRITE. -/
def execBar2Write (t : Fin 4) (offset : Nat) (bytes : List Byte) (atNs : Nat) (s : State) :
    Host.Outcome State Fault Refusal :=
  accessed (s.bar2Access t atNs (.write (s.bar2Addr t offset) bytes))

/-- BAR2_HOLD_RELEASE: the sluice has ended. -/
def execBar2HoldRelease (t : Fin 4) (s : State) : Host.Outcome State Fault Refusal :=
  accessed (if s.portOpen t then s.bar2Release t [] else .ok s)

/-! ### CMD_TAIL -/

/-- The commands up to a new tail become available. -/
def State.ringTailTo (s : State) (t : Fin 4) (q : Fin 64) (tail atNs : Nat) (entries : List (List W64)) : State :=
  let x := s.queue t q
  let e := x.entries
  if !x.tailOk tail then s.logQueue t q
  else
    let n := (tail + e - x.tail) % e
    let new := (List.range n).map (fun i =>
      { words := nth entries i (List.replicate 16 0), tick := s.tick.count, ns := atNs : Avail })
    (s.modQueue t q (fun x => { x with tail := tail, avail := x.avail ++ new })).bump 0x902B (2 + 16 * t.val) n

/-- CMD_TAIL: the commands up to the new tail become available; `entries` are those that the module reads. The BAR2
accesses that reached the module before it are done first, once the sluice has ended (R37, R282). -/
def execCmdTail (t : Fin 4) (q : Fin 64) (tail atNs : Nat) (entries : List (List W64)) (s : State) :
    Host.Outcome State Fault Refusal :=
  s.onPort t (fun s =>
    (if atNs < s.tick.sluiceLen then s else s.bar2Flush t).ringTailTo t q tail atNs entries)

/-! ### Port resets (R297) -/

/-- Kills every slice of Tt that runs in this tick, and every pan, codec and ingest command of it. -/
def State.killTenancy (s : State) (t : Fin 4) : State :=
  let refs := allQ.flatMap (fun q =>
    ((((s.run t q).map (·.slices)).getD []).filter (·.inTick)).map (fun sl => SliceRef.mk t q sl.idx))
  (s.each refs State.kill).dropStrands (fun r => r.t == t)

/-- A reset event of port Ht. -/
def State.portReset (s : State) (t : Fin 4) : State :=
  if !s.power.running then s
  else
    let s := s.killTenancy t
    let s := s.modPort t (fun p =>
      { p with inReset := true, held := [], mbxBusy := false, mbxReady := false, mbxLen := 0 })
    { s with od := { s.od with deferred := s.od.deferred.filter (fun d => d.src != .mailbox t) } }

/-- PERST_ASSERT. -/
def execPerstAssert (t : Fin 4) (s : State) : Host.Outcome State Fault Refusal :=
  noted ((s.portReset t).modPort t (fun p => { p with perst := true }))

/-- PERST_DEASSERT. -/
def execPerstDeassert (t : Fin 4) (s : State) : Host.Outcome State Fault Refusal :=
  noted (s.modPort t (fun p => { p with perst := false }))

/-- HOT_RESET. -/
def execHotReset (t : Fin 4) (s : State) : Host.Outcome State Fault Refusal := noted (s.portReset t)

/-- LINK_DISABLE. -/
def execLinkDisable (t : Fin 4) (s : State) : Host.Outcome State Fault Refusal := noted (s.portReset t)

/-- DATA_LINK_LOSS. -/
def execDataLinkLoss (t : Fin 4) (s : State) : Host.Outcome State Fault Refusal := noted (s.portReset t)

/-- FUNCTION_LEVEL_RESET. -/
def execFunctionLevelReset (t : Fin 4) (s : State) : Host.Outcome State Fault Refusal := noted (s.portReset t)

/-- D3HOT_TO_D0. -/
def execD3hotToD0 (t : Fin 4) (s : State) : Host.Outcome State Fault Refusal := noted (s.portReset t)

end Sys2Proof.Machine
end

