-- ==== Sys2Proof/Machine/Power.lean ====
section
/-! DEFINITION. The input, module reset and start-up (R377, R389, R398 to R401), trips (R404), the sidebands and the SMBus
target (R413 to R419), PTP and PPS sources (R28, R417). -/
namespace Sys2Proof.Machine

open Sys2Proof

/-! ### Module reset (R398, R401) -/

/-- The flash as a reset leaves it: what was being written is not valid. -/
def State.cutFlash (s : State) : FlashSt :=
  let f := if s.od.storeState = 1 then
      (if s.flash.newestIsB then { s.flash with storeA := { s.flash.storeA with intact := false } }
       else { s.flash with storeB := { s.flash.storeB with intact := false } })
    else s.flash
  if s.install.fwActive then (if s.install.fwSlotB then { f with imageB := [] } else { f with imageA := [] }) else f

/-- Everything that R398 does not keep is lost; the inputs of the outside, and the model's own fields, stay. -/
def State.cleared (s : State) : State :=
  let fresh : State := State.reset
  { fresh with
    pending := s.pending
    free := s.free
    out := s.out
    fuses := s.fuses
    flash := s.cutFlash
    power := { s.power with running := false, blocked := false, clockMHz := 2000, ptp := 0, ppsUse := false,
                            ppsBad := 0, ppsGood := 0 }
    ports := Vector.ofFn (fun i => { HostPort.reset with perst := s.ports[i].perst })
    od := { OdSt.reset with nonceCount := s.od.nonceCount } }

/-- A module reset: every transmitter is off. -/
def State.moduleReset (s : State) : State := if s.power.running then s.cleared.emit .transmittersOff else s.cleared

/-- Changes the power values. -/
def State.modPower (s : State) (f : PowerSt → PowerSt) : State := { s with power := f s.power }

/-- Whether the flash group is granted to a programmer (R419). -/
def State.grantFlash (s : State) : State :=
  s.modPower (fun p => { p with flashGranted := p.flashSel && (!p.input54 || p.modReset) })

/-- THERM_ALERT_N follows the hottest sensor outside a trip, in reset too (R403). -/
def State.alert (s : State) : State :=
  s.modPower (fun p => { p with thermAlert := p.input54 && decide (100000 ≤ s.hottest) })

/-- MOD_RESET_N is asserted: a module reset begins, and a trip no longer holds the module. -/
def execModResetN (s : State) : Host.Outcome State Fault Refusal :=
  .next (s.moduleReset.modPower (fun p => { p with modReset := true, tripHold := false })).alert.grantFlash

/-- PWR_GOOD_LOSS. -/
def execPwrGoodLoss (s : State) : Host.Outcome State Fault Refusal :=
  .next (s.moduleReset.modPower (fun p => { p with pwrGood := false }))

/-- INPUT_APPLY: the input has reached 48 V and the rails are in regulation. -/
def execInputApply (s : State) : Host.Outcome State Fault Refusal :=
  .next (if s.power.input54 then s.modPower (fun p => { p with pwrGood := true })
    else (s.modPower (fun p => { p with input54 := true, pwrGood := true })).alert.grantFlash)

/-- INPUT_REMOVE: nothing is left but the flash and the fuses. -/
def execInputRemove (s : State) : Host.Outcome State Fault Refusal :=
  .next (s.moduleReset.modPower (fun p => { p with
    input54 := false, pwrGood := false, tripHold := false, noImage := false, thermAlert := false,
    bootModuleId := none })).grantFlash

/-! ### Start-up (R399) -/

/-- FW_VERSION of an image. -/
def imageVersion (img : List Byte) : Nat := leAt img 4 4

/-- ROLLBACK_LEVEL of an image. -/
def imageRollback (img : List Byte) : Nat := leAt img 8 2

/-- The image that starts: 0 A, 1 B; none where neither is valid (R377). -/
def State.bootImage (s : State) : Option Nat :=
  let a := s.firmwareOk s.flash.imageA
  let b := s.firmwareOk s.flash.imageB
  if a && b then some (if imageVersion s.flash.imageA < imageVersion s.flash.imageB then 1 else 0)
  else if a then some 0
  else if b then some 1
  else none

/-- Blows fuse bits, the lowest first, until n of the 64 are set. -/
def blowBits : Nat → Nat → BitVec 64 → BitVec 64
  | 0, _, f => f
  | k + 1, n, f =>
    if n ≤ popcount f.toNat 0 64 then f
    else
      match (List.range 64).find? (fun i => !f.getLsbD i) with
      | some i => blowBits k n (f ||| (1#64 <<< i))
      | none => f

/-- The fuses after both images were found valid: the counter reaches the lesser ROLLBACK_LEVEL. -/
def State.advanceRollback (s : State) : State :=
  if s.firmwareOk s.flash.imageA && s.firmwareOk s.flash.imageB then
    let n := min (imageRollback s.flash.imageA) (imageRollback s.flash.imageB)
    { s with fuses := { s.fuses with rollback := blowBits 64 n s.fuses.rollback } }
  else s

/-- Takes the image that starts. -/
def State.startImage (s : State) (b : Nat) : State :=
  let img := if b = 1 then s.flash.imageB else s.flash.imageA
  { s with fwImage := b, fwVersion := imageVersion img, fwDigest := (shake256 (img.take 56)).take 32 }

/-- One stored value, taken when it is in range. -/
def State.loadValue (s : State) (x : Nat × OdVal) : State :=
  if s.valueOk (x.1 / 256) (x.1 % 256) x.2 then { s with od := { s.od with live := kset s.od.live x.1 x.2 } } else s

/-- Loads the stored values: the module's own address and the class limits first, since the ranges of others depend on
them. -/
def State.loadStored (s : State) : State :=
  let l := if s.flash.newest.intact then s.flash.newest.values else []
  let early := fun (x : Nat × OdVal) => x.1 / 256 == 0x1000 || x.1 / 256 == 0x2010
  (s.each (l.filter early) State.loadValue).each (l.filter (fun x => !early x)) State.loadValue

/-- The installation state that the journal gives (R381, R389). The scrub that R389 asks for after INSTALLING finds every frame
empty: nothing in memory outlives a reset (R398). -/
def State.loadJournal (s : State) : State :=
  let f := s.flash
  let s := if f.journalState = 1 ∨ f.journalState = 3 then
      { s with install := { s.install with state := 3, phase := f.journalPhase, bytes := f.journalBytes } }
    else if f.journalState = 4 then
      { s with install := { s.install with state := 4, phase := f.journalPhase, bytes := f.journalBytes } }
    else s
  if f.journalState = 1 then s.journal else s

/-- Whether the checks of the start-up have found a stack, a die or the function ROM at fault (R122, R400). -/
def State.checksFailed (s : State) : Bool :=
  s.health.failedStacks ≠ 0 || s.health.failedDies ≠ 0 || s.power.blocked

/-- The fault that the start-up reports: a failed check, an invalid image, or the fault record, once. -/
def State.startFault (s : State) : State :=
  let a := s.firmwareOk s.flash.imageA
  let b := s.firmwareOk s.flash.imageB
  let w := if s.checksFailed then s.health.hwFault
    else if !b then faultWord 8 1 else if !a then faultWord 8 0 else s.flash.faultRecord
  { s with health := { s.health with hwFault := w }, flash := { s.flash with faultRecord := 0 } }

/-- The ports of links that OD 0x5002 disables stay so. -/
def State.startLinks (s : State) : State :=
  { s with net := { s.net with
      ports := Vector.ofFn (fun p => if s.linkEnabled p then LPort.reset else { LPort.reset with state := .disabled })
      pond := [s.moduleId], tickMaster := s.moduleId, systemMaster := s.moduleId } }

/-- The module at boundary 0 with image b. -/
def State.startUp (s : State) (b : Nat) : State :=
  let s := (s.startFault.advanceRollback.startImage b).loadStored.loadJournal.startLinks
  let n := s.odn 0x2000 1
  let s := { s with tick := { s.tick with periodN := n } }
  let cores := s.coresUp.length
  let s := { s with tick := { s.tick with coresN := cores, capacity := capacityOf n cores 2000 } }
  let s := (s.scaleQuota).redigest
  s.modPower (fun p => { p with
    running := true, noImage := false, bootModuleId := some s.moduleId, thermAlert := decide (100000 ≤ s.hottest) })

/-- RESET_RELEASE: the module takes the flash bus back and starts, unless a trip or PWR_GOOD holds it, or no image is
valid. -/
def execResetRelease (s : State) : Host.Outcome State Fault Refusal :=
  .next (let s := s.modPower (fun p => { p with modReset := false, flashGranted := p.flashSel && !p.input54 })
    if !s.power.input54 || !s.power.pwrGood || s.power.tripHold || s.power.running then s
    else
      match s.bootImage with
      | some b => s.startUp b
      | none => { s.modPower (fun p => { p with noImage := true }) with
                    health := { s.health with hwFault := faultWord 8 1 } })

/-! ### Trips (R404) -/

/-- The fault of a trip. -/
def tripFault (c : TripCause) : BitVec 16 :=
  match c with
  | .thermal i => if i.val < 5 then faultWord 6 i.val else faultWord 6 (0x100 + (i.val - 5))
  | .under => faultWord 7 0
  | .over => faultWord 7 1

/-- TRIP: the fault record is written, and the module resets itself and stays in reset. -/
def execTrip (c : TripCause) (s : State) : Host.Outcome State Fault Refusal :=
  .next (if !s.power.input54 || !s.power.pwrGood then s
    else
      let s := s.moduleReset
      let s := { s with flash := { s.flash with faultRecord := tripFault c } }
      s.alert.modPower (fun p => { p with
        tripHold := true
        pwrGood := (match c with | .under => false | _ => true)
        thermAlert := (match c with | .thermal _ => true | _ => p.thermAlert) }))

/-- Whether a thermal trip holds the module. -/
def State.thermalTrip (s : State) : Bool := s.power.tripHold && s.flash.faultRecord.toNat / 4096 == 6

/-- THERMAL_ALERT: a sensor has a new value; THERM_ALERT_N follows the hottest (R403). -/
def execThermalAlert (sensor : Fin 29) (milliC : Int) (s : State) : Host.Outcome State Fault Refusal :=
  .next (let s := s.modPower (fun p => { p with sensors := modNth p.sensors sensor.val (fun _ => milliC) })
    if s.power.input54 then
      s.modPower (fun p => { p with thermAlert := decide (100000 ≤ s.hottest) || s.thermalTrip })
    else s)

/-! ### The flash group (R419) -/

/-- FLASH_SEL_N is asserted. -/
def execFlashSelN (s : State) : Host.Outcome State Fault Refusal :=
  .next (s.modPower (fun p => { p with flashSel := true })).grantFlash

/-- FLASH_SEL_N is released. -/
def execFlashSelNRelease (s : State) : Host.Outcome State Fault Refusal :=
  .next (s.modPower (fun p => { p with flashSel := false })).grantFlash

/-! ### PTP and PPS (R28, R417) -/

/-- An edge that is discarded or missing. -/
def PowerSt.badEdge (p : PowerSt) : PowerSt :=
  let n := p.ppsBad + 1
  { p with ppsBad := n, ppsGood := 0, ppsUse := p.ppsUse && decide (n < 3) }

/-- An edge within 1 µs of the PTP second. -/
def PowerSt.goodEdge (p : PowerSt) : PowerSt :=
  if p.ppsUse then { p with ppsBad := 0 }
  else
    let n := p.ppsGood + 1
    { p with ppsBad := 0, ppsGood := n, ppsUse := decide (16 ≤ n) }

/-- PPS_IN: a rising edge at a distance from the nearest PTP second. -/
def execPpsIn (offset : Int) (s : State) : Host.Outcome State Fault Refusal :=
  .next (if s.power.ptp = 0 then s
    else if 1000 < offset || offset < -1000 then s.modPower PowerSt.badEdge
    else s.modPower PowerSt.goodEdge)

/-- PPS_EDGE_MISSING. -/
def execPpsEdgeMissing (s : State) : Host.Outcome State Fault Refusal :=
  .next (if s.power.ptp = 0 then s else s.modPower PowerSt.badEdge)

/-- PTP_SOURCE_CHANGE: the synchronisation state follows while the module disciplines its own timebase (R28). -/
def execPtpSourceChange (sources : BitVec 3) (s : State) : Host.Outcome State Fault Refusal :=
  noted (if !s.power.running then s
    else
      let had := s.power.ptp != 0
      let has_ := sources != 0
      let s := s.modPower (fun p => { p with ptp := sources })
      let s := if had == has_ then s
        else s.modPower (fun p => { p with ppsUse := has_, ppsBad := 0, ppsGood := 0 })
      let n := b2n has_
      if s.tick.sync = 2 ∨ s.tick.sync = n then s
      else { s with tick := { s.tick with sync := n, anchorDue := true } })

/-! ### SMBus (R418) -/

/-- Sends the bytes of an SMBus read; the target answers while PWR_GOOD is high. -/
def State.smbus (s : State) (bs : List Byte) : Host.Outcome State Fault Refusal :=
  .next (if s.power.pwrGood then s.emit (.smb bs) else s)

/-- A temperature in units of 1/128 °C. -/
def smbTemp (milliC : Int) : List Byte := u16b ((BitVec.ofInt 16 (milliC * 128 / 1000)).toNat)

/-- SMB_STATUS: boundary 0 reached, alert, in reset, no valid image. -/
def execSmbStatus (s : State) : Host.Outcome State Fault Refusal :=
  s.smbus (leBytes 1 (b2n s.power.running + 2 * b2n s.power.thermAlert +
    4 * b2n (s.power.modReset || s.power.tripHold) + 8 * b2n s.power.noImage))

/-- SMB_STEPPING: the stepping letter. -/
def execSmbStepping (s : State) : Host.Outcome State Fault Refusal := s.smbus [0x43]

/-- SMB_SERIAL. -/
def execSmbSerial (s : State) : Host.Outcome State Fault Refusal := s.smbus (u64b s.fuses.serial.toNat)

/-- SMB_MODULE_ID: of the last start-up. -/
def execSmbModuleId (s : State) : Host.Outcome State Fault Refusal := s.smbus (u16b (s.power.bootModuleId.getD 0xFFFF))

/-- SMB_HOTTEST. -/
def execSmbHottest (s : State) : Host.Outcome State Fault Refusal := s.smbus (smbTemp s.hottest)

/-- SMB_HW_FAULT. -/
def execSmbHwFault (s : State) : Host.Outcome State Fault Refusal := s.smbus (u16b s.health.hwFault.toNat)

/-- SMB_SENSORS: 29 sensors, 0x8000 for those that are not read. -/
def execSmbSensors (s : State) : Host.Outcome State Fault Refusal :=
  s.smbus ((List.range 29).flatMap (fun i => if s.sensorUp i then smbTemp (nth s.power.sensors i 0) else u16b 0x8000))

end Sys2Proof.Machine
end

