-- ==== Sys2Proof/Machine/Scalar.lean ====
section
/-! DEFINITION. Control and scalar instructions (R68): one meaning for each, over the shared issue. TWAIT,
MARK and END stand with the strands. -/
namespace Sys2Proof.Machine

open Sys2Proof

/-- A Format A instruction that writes s[SD]. -/
def scalarOp (c : CtxId) (op : Nat) (f : Strand → Slice → W64 → W64) (s : State) : State :=
  pureOp c op (fun st sl w => st.setS (fSD w) (f st sl w)) s

/-- NOP: nothing but the next instruction. -/
def execNop (c : CtxId) (s : State) : Host.Outcome State Fault Refusal := .next (pureOp c 0x00 (fun st _ _ => st) s)

/-- The condition of BR (R65). -/
def brCond (cond : Nat) (a b : W64) : Bool :=
  match cond with
  | 0 => true
  | 1 => a == b
  | 2 => a != b
  | 3 => a.slt b
  | 4 => !a.slt b
  | 5 => a.ult b
  | _ => !a.ult b

/-- BR. -/
def execBr (c : CtxId) (s : State) : Host.Outcome State Fault Refusal :=
  .next (issueOp c 0x02 (fun st _ w s =>
    s.setStrand c (if brCond (fCond w) st.s[fBSA w] st.s[fBSB w] then { st with pc := fTarget w } else st.next)) s)

/-- LOOP. -/
def execLoop (c : CtxId) (s : State) : Host.Outcome State Fault Refusal :=
  .next (issueOp c 0x03 (fun st _ w s =>
    let v := st.s[fBSA w] - 1
    let st := st.setS (fBSA w) v
    s.setStrand c (if v ≠ 0 then { st with pc := fTarget w } else st.next)) s)

/-- The item of RDSYS. -/
def sysItem (st : Strand) (sl : Slice) (n : Nat) : W64 :=
  match n with
  | 0 => BitVec.ofNat 64 st.strand
  | 1 => BitVec.ofNat 64 (st.strand - sl.strandBase)
  | 2 => BitVec.ofNat 64 sl.strandCount
  | _ => BitVec.ofNat 64 sl.idx

/-- RDSYS. -/
def execRdsys (c : CtxId) (s : State) : Host.Outcome State Fault Refusal :=
  .next (scalarOp c 0x06 (fun st sl w => sysItem st sl (fImm w).toNat) s)

/-- RDLEN. -/
def execRdlen (c : CtxId) (s : State) : Host.Outcome State Fault Refusal :=
  .next (scalarOp c 0x07 (fun _ sl w => BitVec.ofNat 64 (nth sl.lens (fImm w).toNat 0 % 2 ^ 32)) s)

/-- LI. -/
def execLi (c : CtxId) (s : State) : Host.Outcome State Fault Refusal :=
  .next (scalarOp c 0x10 (fun _ _ w => fImmS w) s)

/-- LIH. -/
def execLih (c : CtxId) (s : State) : Host.Outcome State Fault Refusal :=
  .next (scalarOp c 0x11 (fun st _ w => fImm w ++ (st.s[fSD w]).extractLsb' 0 32) s)

/-- ADD. -/
def execAdd (c : CtxId) (s : State) : Host.Outcome State Fault Refusal :=
  .next (scalarOp c 0x12 (fun st _ w => st.s[fSA w] + st.s[fSB w] + fImmS w) s)

/-- SUB. -/
def execSub (c : CtxId) (s : State) : Host.Outcome State Fault Refusal :=
  .next (scalarOp c 0x13 (fun st _ w => st.s[fSA w] - st.s[fSB w]) s)

/-- MUL. -/
def execMul (c : CtxId) (s : State) : Host.Outcome State Fault Refusal :=
  .next (scalarOp c 0x14 (fun st _ w => st.s[fSA w] * st.s[fSB w]) s)

/-- MULI. -/
def execMuli (c : CtxId) (s : State) : Host.Outcome State Fault Refusal :=
  .next (scalarOp c 0x15 (fun st _ w => st.s[fSA w] * fImmS w) s)

/-- AND. -/
def execAnd (c : CtxId) (s : State) : Host.Outcome State Fault Refusal :=
  .next (scalarOp c 0x16 (fun st _ w => st.s[fSA w] &&& st.s[fSB w]) s)

/-- OR. -/
def execOr (c : CtxId) (s : State) : Host.Outcome State Fault Refusal :=
  .next (scalarOp c 0x17 (fun st _ w => st.s[fSA w] ||| st.s[fSB w]) s)

/-- XOR. -/
def execXor (c : CtxId) (s : State) : Host.Outcome State Fault Refusal :=
  .next (scalarOp c 0x18 (fun st _ w => st.s[fSA w] ^^^ st.s[fSB w]) s)

/-- The amount of a shift: (s[SB] + IMM) mod 64. -/
def shiftAmt (st : Strand) (w : W64) : Nat := (st.s[fSB w] + fImmS w).toNat % 64

/-- SHL. -/
def execShl (c : CtxId) (s : State) : Host.Outcome State Fault Refusal :=
  .next (scalarOp c 0x19 (fun st _ w => st.s[fSA w] <<< shiftAmt st w) s)

/-- SHR. -/
def execShr (c : CtxId) (s : State) : Host.Outcome State Fault Refusal :=
  .next (scalarOp c 0x1A (fun st _ w => st.s[fSA w] >>> shiftAmt st w) s)

/-- SRA. -/
def execSra (c : CtxId) (s : State) : Host.Outcome State Fault Refusal :=
  .next (scalarOp c 0x1B (fun st _ w => (st.s[fSA w]).sshiftRight (shiftAmt st w)) s)

/-- MIN: signed. -/
def execMin (c : CtxId) (s : State) : Host.Outcome State Fault Refusal :=
  .next (scalarOp c 0x1C (fun st _ w => if (st.s[fSA w]).slt st.s[fSB w] then st.s[fSA w] else st.s[fSB w]) s)

/-- MAX: signed. -/
def execMax (c : CtxId) (s : State) : Host.Outcome State Fault Refusal :=
  .next (scalarOp c 0x1D (fun st _ w => if (st.s[fSA w]).slt st.s[fSB w] then st.s[fSB w] else st.s[fSA w]) s)

/-- DIVUI: the divisor is IMM zero-extended; IMM = 0 never reaches execution (R65). -/
def execDivui (c : CtxId) (s : State) : Host.Outcome State Fault Refusal :=
  .next (scalarOp c 0x1E (fun st _ w => st.s[fSA w] / (fImm w).zeroExtend 64) s)

/-- REMUI. -/
def execRemui (c : CtxId) (s : State) : Host.Outcome State Fault Refusal :=
  .next (scalarOp c 0x1F (fun st _ w => st.s[fSA w] % (fImm w).zeroExtend 64) s)

/-! ### Descriptors and keys in registers and the window (R68) -/

/-- The window offset of a Format T instruction: s[SA] + IMM, IMM an unsigned 22-bit offset. -/
def winOffA (st : Strand) (w : W64) : Nat := (st.s[fTSA w]).toNat + fTImm w

/-- TDLD: checks the range, then the descriptor (R63, R67). -/
def execTdld (c : CtxId) (s : State) : Host.Outcome State Fault Refusal :=
  .next (issueOp c 0x20 (fun st sl w s =>
    let a := winOffA st w
    withRange c st sl a 64 64 (fun s =>
      let d := BitVec.ofNat 512 (ofLe (winRead s.free st.win a 64))
      if descValid d then s.setStrand c (st.setT (fTA w) d).next
      else s.raisePc c st Config.errDescriptorInvalid) s) s)

/-- TDST. -/
def execTdst (c : CtxId) (s : State) : Host.Outcome State Fault Refusal :=
  .next (issueOp c 0x21 (fun st sl w s =>
    let a := winOffA st w
    withRange c st sl a 64 64 (fun s =>
      s.setStrand c (st.store a (leBytes 64 (st.t[fTA w]).toNat)).next) s) s)

/-- A descriptor with another BASE. -/
def setBase (d : BitVec 512) (b : Nat) : BitVec 512 :=
  BitVec.ofNat 512 (d.toNat - dBase d + b % 2 ^ 52)

/-- A descriptor with another SIZE of dimension n. -/
def setSize (d : BitVec 512) (n v : Nat) : BitVec 512 :=
  let lo := 64 * (2 + n / 2) + 32 * (n % 2)
  BitVec.ofNat 512 (d.toNat - bits d.toNat lo 32 * 2 ^ lo + v % 2 ^ 32 * 2 ^ lo)

/-- TDOFF: a sum of 2^52 or more, or a descriptor that then fails the check, faults and changes nothing. -/
def execTdoff (c : CtxId) (s : State) : Host.Outcome State Fault Refusal :=
  .next (issueOp c 0x22 (fun st _ w s =>
    let d := st.t[fTB w]
    let b := (BitVec.ofNat 64 (dBase d) + st.s[fTSA w]).toNat
    let d' := setBase d b
    if 2 ^ 52 ≤ b || !descValid d' then s.raisePc c st Config.errDescriptorInvalid
    else s.setStrand c (st.setT (fTA w) d').next) s)

/-- TDSZ. -/
def execTdsz (c : CtxId) (s : State) : Host.Outcome State Fault Refusal :=
  .next (issueOp c 0x23 (fun st _ w s =>
    let d' := setSize st.t[fTA w] (fTImm w % 4) ((st.s[fTSA w]).toNat % 2 ^ 32)
    if descValid d' then s.setStrand c (st.setT (fTA w) d').next
    else s.raisePc c st Config.errDescriptorInvalid) s)

/-- The key register that TA [1:0] names. -/
def fKey (w : W64) : Fin 4 := (w.extractLsb' 52 2).toFin

/-- KLD. -/
def execKld (c : CtxId) (s : State) : Host.Outcome State Fault Refusal :=
  .next (issueOp c 0x2B (fun st sl w s =>
    let a := winOffA st w
    withRange c st sl a 16 16 (fun s =>
      s.setStrand c (st.setK (fKey w) (BitVec.ofNat 128 (ofLe (winRead s.free st.win a 16)))).next) s) s)

/-- KST. -/
def execKst (c : CtxId) (s : State) : Host.Outcome State Fault Refusal :=
  .next (issueOp c 0x2C (fun st sl w s =>
    let a := winOffA st w
    withRange c st sl a 16 16 (fun s =>
      s.setStrand c (st.store a (leBytes 16 (st.k[fKey w]).toNat)).next) s) s)

end Sys2Proof.Machine
end

