-- ==== Sys2Proof/Machine/Latch.lean ====
section
/-! DEFINITION. Steps 1 and 2 of the sluice (R36): the latch, the charges of the ended tick (R271, made at step 10), the failures that the
ended tick leaves (R80, R275, R409), and the discard of what does not commit (R42, R44, R45, R103, R111, R195, R297). -/
namespace Sys2Proof.Machine

open Sys2Proof

/-! ### Step 1: latch -/

/-- The tick counter becomes k; the time base advances by the period that has ended (R24, R25, R28). -/
def State.latchTick (s : State) (env : SluiceEnv) : State :=
  let s := { s with tick := { s.tick with lastCount := s.tick.count, lastN := s.tick.periodN } }
  let s := if s.net.jumpAt ≠ 0 && s.net.jumpAt = s.tick.count + 1 then s.jump else s
  let s := { s with
    tick := { s.tick with
      count := s.tick.count + 1
      localNs := s.tick.localNs + s.tick.periodN * 125000
      sluiceLen := env.lengthNs
      sluiceMax := max s.tick.sluiceMax env.lengthNs
      ptpSec := env.ptpSec
      ptpNs := env.ptpNs }
    net := { s.net with
      noTick := s.net.noTick + 1
      routeInput := s.newRoutes
      ports := s.net.ports.map (fun (x : LPort) => { x with retries := 0, uncorrectable := 0 }) }
    cores := { s.cores with lab := [] } }
  let s := s.bump 0x9020 7 (if 3000 < env.lengthNs then 1 else 0)
  if s.net.pondAt ≠ 0 && s.net.pondAt = s.tick.count then s.formPond else s

/-- A module that follows no other renews its anchor when it is due (R28): the time of this boundary in PTP, or from its
own clock while it has no source. -/
def State.renewAnchor (s : State) : State :=
  if s.tick.anchorDue && s.tick.sync ≠ 2 then
    let free := s.tick.sync = 0
    { s with tick := { s.tick with
        anchorDue := false
        anchorTick := s.tick.count
        anchorS := if free then s.tick.localNs / 1000000000 else s.tick.ptpSec
        anchorNs := if free then s.tick.localNs % 1000000000 else s.tick.ptpNs } }
  else { s with tick := { s.tick with anchorDue := false } }

/-- Time that counts for securing (R364), in eighths of a millisecond; refusals of BAR2 are logged anew (R280). -/
def State.latchPorts (s : State) : State :=
  s.each allT (fun s t =>
    (s.modSecure t (fun x => { x with elapsed := x.elapsed + s.tick.periodN })).modPort t (fun p => { p with refused := [] }))

/-- The state of quiescing follows QUIESCE (R275). -/
def State.latchQuiesce (s : State) : State :=
  let new := if s.odn 0x2012 1 = 0 then 0 else max 1 s.od.quiesceState
  if new = s.od.quiesceState then s
  else (({ s with od := { s.od with quiesceState := new } } : State).each allT (fun s t => s.setCause t 4)).noteChanges

/-- A pan, codec or ingest command whose work is done has finished. -/
def State.finishOps (s : State) : State :=
  s.each allTQ (fun s x => s.modRun x.1 x.2 (fun r =>
    if r.isOp && r.opDone && r.fail.isNone then
      { r with slices := r.slices.map (fun sl =>
          if sl.state == .admitted && !sl.killed then { sl with state := .finished } else sl) }
    else r))

/-- The slices that ran in the ended tick, but for commands that are not cut into slices, and ring steps of an earlier
boundary. -/
def State.ranNow (s : State) : List (SliceRef × Slice) :=
  s.allSlices.filter (fun x => x.2.inTick && !((s.run x.1.t x.1.q).map (·.isOp)).getD false &&
    (!x.2.ringStep || x.2.admittedAt = s.tick.lastCount))

/-- The charges of the ended tick, which step 10 makes: tenancy, effective class and cost of each slice that ran and was not
killed, and of each ring step of a transfer (R271, R369). -/
def State.chargesDue (s : State) : List (Fin 4 × Nat × Nat) :=
  (s.ranNow.filter (fun x => !x.2.killed)).map (fun x => (x.1.t, x.2.effClass, x.2.offerCost)) ++
    s.wireSteps s.tick.lastCount

/-- The faults of the ended tick end their commands, each with the fault of the lowest slice and strand (R80, R81). -/
def State.latchFaults (s : State) : State :=
  s.each allTQ (fun s x =>
    match (s.run x.1 x.2).bind (fun r => worstFault r.faults) with
    | some f => s.failCmd x.1 x.2 f.code f.address f.strand
    | none => s)

/-- QUIESCE 2 ends every begun, uncompleted command (R275). -/
def State.latchAborts (s : State) : State :=
  if s.odn 0x2012 1 = 2 then
    s.each (s.queuesWith (fun _ _ r => r.begun && !r.ended)) (fun s x => s.failOpen x.1 x.2 Config.errQuiesced)
  else s

/-- A failed die ends the head command of every queue (R409, class 3). -/
def State.dieFaults (s : State) : State :=
  if s.health.failedDies ≠ 0 then
    s.each (s.queuesWith (fun _ _ r => !r.ended)) (fun s x => s.faultCmd x.1 x.2)
  else s

/-- The working cells of the slices that have finished are merged and folded, in the order of admission (R193). -/
def State.mergeTick (s : State) : State :=
  s.each (sortBy (fun (a b : SliceRef × Slice) => decide (a.2.admOrder < b.2.admOrder))
    (s.allSlices.filter (fun x => x.2.state == .finished && !x.2.killed && x.2.lastSegment &&
      ((s.run x.1.t x.1.q).map (·.fail.isNone)).getD false))) (fun s x => s.mergeSlice x.1 x.2)

/-- The page entry at which the remnants that step 3 is to make for a finished slice pass its KV_PAGES (R145, R148; DESIGN
CHOICE, log entry 62). -/
def State.remnantShort (s : State) (t : Fin 4) (sl : Slice) : Option Nat :=
  let new := sl.taken.filter (fun k =>
    match s.seqAt t k.desc with
    | .ok q => q.fmt = 8 && k.top % 32 ≠ 0 && ((s.kvRec k.frame).bind (·.remnant)).isNone
    | .error _ => false)
  ((new.drop (sl.kvPages - sl.kvUsed)).head?).map (·.pe)

/-- Slices that have finished with more remnants than their KV_PAGES hold fail their commands. -/
def State.remnantFaults (s : State) : State :=
  s.each (s.allSlices.filter (fun x => x.2.state == .finished && !x.2.killed && x.2.lastSegment && !x.2.taken.isEmpty)) (fun s x =>
    match s.remnantShort x.1.t x.2 with
    | none => s
    | some pe => s.modRun x.1.t x.1.q (fun r => { r with faults := r.faults ++
        [{ slice := x.1.idx, strand := Config.noStrand, code := Config.errPageUnmapped, address := BitVec.ofNat 64 pe }] }))

/-- The groups with a collective. -/
def State.groupsNow (s : State) : List Nat := s.coll.colls.map (·.1)

/-- Step 1. -/
def State.latch (s : State) (env : SluiceEnv) : State :=
  let s := ((((s.latchTick env).renewAnchor).latchPorts).latchQuiesce).finishOps
  let s := (s.mergeTick).remnantFaults
  let s := ((s.latchFaults).latchAborts).dieFaults
  let s := s.each s.groupsNow State.ringVerdict
  s.each s.groupsNow State.waveTimeout

/-! ### Step 2: discard -/

/-- Nothing runs while the sluice lasts. -/
def State.stopArrays (s : State) : State :=
  { s with cores := { s.cores with ctxs := [], deques := Vector.replicate 32 [] } }

/-- Puts a slice behind those that have been re-queued before. -/
def State.requeue (s : State) (ref : SliceRef) (f : Slice → Slice) : State :=
  let s := { s with tick := { s.tick with admSeq := s.tick.admSeq + 1 } }
  s.modSlice ref (fun sl => { f sl with state := .waiting, killed := false, requeued := some s.tick.admSeq })

/-- Restores a wide shadow to what it was. -/
def State.restoreShadow (s : State) (x : Nat × List WideBlock) : State :=
  if x.2.isEmpty then s.dropShadow x.1
  else
    let own := (s.mem.shadowOwner.filter (fun y => y.2 == x.1)).map (·.1)
    let extra := own.drop (shadowFrames x.2)
    let s := s.each extra State.freeFrame
    { s with mem := { s.mem with
        shadows := kset s.mem.shadows x.1 x.2
        shadowOwner := s.mem.shadowOwner.filter (fun y => !extra.contains y.1) } }

/-- Restores a range of physical memory, by its address and length, to the bytes that it listed. -/
def State.restoreBytes (s : State) (x : Nat × Nat × List Host.Cell) : State :=
  let m := memZero s.mem.mem x.1 (x.1 + x.2.1)
  { s with mem := { s.mem with mem := x.2.2.foldl (fun m c => memWrite m c.1 c.2) m } }

/-- A discarded segment after the first: what its slice holds returns to the state at the mark before it (R45). -/
def State.restoreSegment (s : State) (ref : SliceRef) (sl : Slice) (st : SegStart) : State :=
  let s := s.dropStrands (· == ref)
  let s := s.releaseKv (sl.taken.filter (fun k => !st.taken.any (fun y => y.frame == k.frame)))
  let s := s.each st.mem State.restoreBytes
  let s := s.each st.shadows State.restoreShadow
  s.modRun ref.t ref.q (fun r =>
    { (r.modSlice ref.idx (fun sl => { sl with
        working := st.working, brine := st.brine, taken := st.taken, kvUsed := st.kvUsed, start := none })) with
      staged := r.staged.filter (fun x => x.slice != ref.idx) ++ st.staged })

/-- Drops every effect of a slice of the ended tick. -/
def State.discard (s : State) (ref : SliceRef) (sl : Slice) : State :=
  match sl.start with
  | some st => s.restoreSegment ref sl st
  | none => s.releaseWork ref

/-- ADDRESS of ERR_TICK_OVERRUN: the slice and the mark at which the segment began (R47). -/
def overrunAddress (sl : Slice) : Nat := sl.idx * 2 ^ 32 + sl.segStart % 2 ^ 16

/-- An overrun slice (R44). -/
def State.overrun (s : State) (ref : SliceRef) (sl : Slice) : State :=
  let s := (s.discard ref sl).bump 0x9020 1 1
  if s.tick.lostCapacity then s.requeue ref id
  else if sl.segment.isSome then
    if sl.exclusive then
      let a := BitVec.ofNat 64 (overrunAddress sl)
      (s.failCmd ref.t ref.q Config.errTickOverrun a Config.noStrand).modRun ref.t ref.q
        (fun r => { r with result0 := a, result1 := 0 })
    else s.requeue ref (fun sl => { sl with exclusive := true })
  else if sl.overruns = 0 then (s.requeue ref (fun sl => { sl with overruns := 1 })).bump 0x9020 2 1
  else (s.modSlice ref (fun sl => { sl with overruns := sl.overruns + 1, state := .waiting, killed := false })).split ref

/-- A segment that has finished, before the last: its marks are saved, and the next segment waits (R44, R45). -/
def State.segmentDone (s : State) (ref : SliceRef) (j : Nat) : State :=
  s.requeue ref (fun sl => { sl with
    segment := some (j + 1)
    segStart := j
    exclusive := false
    start := none
    saved := sl.saved.filter (fun x => x.1 % 2 == j % 2) })

/-- A slice of the ended tick that does not commit now. -/
def State.settleSlice (s : State) (x : SliceRef × Slice) : State :=
  let ref := x.1
  let sl := x.2
  if sl.killed then (s.discard ref sl).requeue ref id
  else if sl.state == .admitted then s.overrun ref sl
  else if sl.lastSegment then s
  else s.segmentDone ref (sl.segment.getD 0)

/-- What a failed or reset command has done that no frame holds: contexts and streams that it was opening, its codec job
and batch, the pending directory, the record that it was closing. -/
def State.dropEffects (s : State) (t : Fin 4) (q : Fin 64) : State :=
  match s.run t q with
  | none => s
  | some r =>
    let s := s.each r.effects (fun s e =>
      match e with
      | .codecOpen c => { s with codec := kdel s.codec c }
      | .ingestOpen n => s.closeStream n
      | .dirPending d =>
        let s := s.setDir t d 0 none
        { s with mem := { s.mem with dirBusy := s.mem.dirBusy.filter (· != (t.val, d)) } }
      | .recordClose => s.modTen t (fun x => { x with record := x.record.map (fun g => { g with closing := false }) })
      | _ => s)
    let s := { s with codec := s.codec.map (fun (x : Nat × CodecCtx) =>
      (x.1, if (x.2.job.map (fun (j : CodecJob) => j.t == t && j.q == q)).getD false then { x.2 with job := none } else x.2)) }
    s.each (s.ingest.filter (fun (x : Nat × Stream) => (x.2.batch.map (fun (b : Batch) => b.t == t && b.q == q)).getD false))
      (fun s x => s.dropBatch x.1)

/-- A failed command gives back everything that it holds uncommitted (R22, R103, R195). -/
def State.dropFailed (s : State) (t : Fin 4) (q : Fin 64) : State := (s.dropEffects t q).releaseRun t q

/-- A rerun at a wider width: every effect of the command is dropped, and it begins anew from its first slice (R111). -/
def State.rerun (s : State) (t : Fin 4) (q : Fin 64) (width : Nat) : State :=
  match s.run t q with
  | none => s
  | some r =>
    let s := s.each r.slices (fun s sl => s.releaseSlice ⟨t, q, sl.idx⟩)
    let s := s.releaseFresh r.prepared
    let s := s.each r.copies (fun s c => (s.dropShadow c.frame).freeFrame c.frame)
    let s := s.modRun t q (fun r =>
      { r with
        held := [], prepared := [], staged := [], copies := [], tiles := [], lastSlice := none, rerunReq := none
        wideStart := width
        reruns := r.reruns + 1
        slices := r.slices.map (fun sl => { sl with segment := none, segStart := 0, overruns := 0, exclusive := false }) })
    let s := { s with coll := { colls := s.coll.colls.map (fun (x : Nat × Coll) =>
      (x.1, if x.2.use == CollUse.command && x.2.t == t && x.2.q == q then { x.2 with localImages := [] } else x.2)) } }
    let s := s.each r.slices (fun s sl => s.requeue ⟨t, q, sl.idx⟩ id)
    s.bump 0x9022 8 1

/-- The reset of a tenancy at step 2: its collectives end, its commands end without completion, every queue is ABSENT
(R297). -/
def State.dropTenancy (s : State) (t : Fin 4) : State :=
  let s := s.each (s.coll.colls.filter (fun x => x.2.t == t && !x.2.ended)) (fun s x => s.endColl x.1)
  let s := s.each allQ (fun s q => (s.dropFailed t q).modQueue t q (fun _ => Queue.reset))
  s.modSecure t (fun x => { x with waiting := false, transferring := false })

/-- The ring: decisions are applied, and the collectives that do not belong to a COLLECTIVE tell what they were for. -/
def State.settleRings (s : State) : State :=
  let s := s.each s.groupsNow State.ringStep2
  s.each s.coll.colls (fun s x =>
    if x.2.ended then s
    else if x.2.use == .command then
      match x.2.failed with
      | some (code, a) => s.failAt x.2.t x.2.q (code, a.toNat)
      | none => s
    else s.useSettled x.2)

/-- The slices of the ended tick that the step settles, in the order of their admission. -/
def State.toSettle (s : State) : List (SliceRef × Slice) :=
  sortBy (fun (a b : SliceRef × Slice) => decide (a.2.admOrder < b.2.admOrder))
    (s.allSlices.filter (fun x => x.2.inTick && !x.2.ringStep &&
      ((s.run x.1.t x.1.q).map (fun r => !r.isOp && r.fail.isNone)).getD false))

/-- Step 2. -/
def State.discardStep (s : State) : State :=
  let s := s.stopArrays
  let s := s.each (allT.filter (fun t => s.ports[t].inReset)) State.dropTenancy
  let s := s.settleRings
  let s := s.each (s.queuesWith (fun _ _ r => r.fail.isSome)) (fun s x => s.dropFailed x.1 x.2)
  let s := s.each allTQ (fun s x =>
    match s.run x.1 x.2 with
    | some r => (match r.rerunReq, r.fail with
      | some w, none => s.rerun x.1 x.2 w
      | _, _ => s)
    | none => s)
  let s := s.each s.toSettle State.settleSlice
  let s := s.each (s.queuesWith (fun _ _ r => (r.fail.map (fun f => f.code == Config.errTickOverrun)).getD false))
    (fun s x => s.dropFailed x.1 x.2)
  { s with tick := { s.tick with lostCapacity := false } }

end Sys2Proof.Machine
end

