-- ==== Sys2Proof/Machine/Remap.lean ====
section
/-! DEFINITION. Steps 3 to 7 of the sluice (R36): the brine (R147 to R150), folds (R194, R348), staged accumulations (R40,
R201), the remap with the commands that commit there (R165, R169, R173, R261, R264, R284), and the settling (R151, R170,
R175, R297). -/
namespace Sys2Proof.Machine

open Sys2Proof

/-! ### Which slices commit -/

/-- Whether a slice is that of a ring step whose group has not decided on the step before it. -/
def State.ringUndecided (s : State) (ref : SliceRef) : Bool :=
  s.coll.colls.any (fun x => x.2.use == .command && x.2.t == ref.t && x.2.q == ref.q &&
    (x.2.cur.map (fun r => decide ((s.ringRef x.2 r.step).idx = ref.idx))).getD false)

/-- The slices that commit in this sluice, in the order of their admission. -/
def State.committing (s : State) : List (SliceRef × Slice) :=
  sortBy (fun (a b : SliceRef × Slice) => decide (a.2.admOrder < b.2.admOrder))
    (s.allSlices.filter (fun x => x.2.state == .finished && ((s.run x.1.t x.1.q).map (·.fail.isNone)).getD false &&
      !(x.2.ringStep && s.ringUndecided x.1)))

/-- Whether every slice of a command has committed, or commits now, and its collective is done. -/
def State.commandDone (s : State) (t : Fin 4) (q : Fin 64) : Bool :=
  match s.run t q with
  | none => false
  | some r =>
    r.begun && r.fail.isNone && !r.ended &&
    r.slices.all (fun sl => sl.state == .finished || sl.state == .committed) &&
    (if cOp r.words = 0x02 then
      (r.coll.bind s.collOf).elim false (fun c => c.done && c.failed.isNone && !c.ended && c.cellsHeld.isEmpty)
    else !r.slices.isEmpty)

/-- The slices whose effects become visible in this sluice: those that commit, but for slices of a fallback command, which
wait until all its slices have. -/
def State.showing (s : State) : List (SliceRef × Slice) :=
  sortBy (fun (a b : SliceRef × Slice) => decide (a.2.admOrder < b.2.admOrder))
    ((s.committing.filter (fun x => x.2.ringStep || !((s.run x.1.t x.1.q).map (·.asUnit)).getD false)) ++
     s.allSlices.filter (fun x => !x.2.ringStep && ((s.run x.1.t x.1.q).map (·.asUnit)).getD false &&
      s.commandDone x.1.t x.1.q))

/-! ### Step 3: brine -/

/-- The group of a page that a slice has appended to, or an empty one. -/
def Slice.brineGroup (sl : Slice) (k : KvTaken) (g : Nat) : BrineGroup :=
  (sl.brine.find? (fun x => x.desc == k.desc && x.head == k.head && x.page == k.page && x.group == g)).getD
    { desc := k.desc, head := k.head, page := k.page, group := g, tokens := [], core := 0, spilled := false }

/-- The tokens of the incomplete last group of a page, for its remnant (R148). -/
def remnantTokens (q : Seq) (k : KvTaken) (toks old : List BrineToken) : List BrineToken :=
  let first := k.top / 32 * 32
  (List.range (k.top % 32)).map (fun i =>
    let pos := k.page * q.tpp + first + i
    ((tokenAt toks pos).orElse (fun _ => tokenAt old pos)).getD (zeroToken pos q.dim))

/-- The slot of the remnant of a KV frame: the one it has, else a free one, else the frame's own number. -/
def State.remnantSlot (s : State) (t : Fin 4) (old : Option Remnant) (frame : Nat) : Nat × State :=
  match old with
  | some o => (o.slot, s)
  | none => (s.takeSlot t (kvStack frame)).getD (frame, s)

/-- A frame that a committing slice took is padded and summarised, with its remnant. -/
def State.flushFrame (s : State) (ref : SliceRef) (sl : Slice) (k : KvTaken) : State :=
  match s.seqAt ref.t k.desc with
  | .error _ => s
  | .ok q =>
    let old := (s.kvRec k.frame).bind (·.remnant)
    let gs := ((List.range (ceilDiv k.top 32)).filter (fun g => k.base / 32 ≤ g)).map (sl.brineGroup k)
    let s := if k.top ≤ k.base then s else s.writeGroups q k (gs.filter (fun g => !g.complete))
    let bs := kvMask q k.top (memReadN s.mem.mem (kvPhys k.frame) Config.kvFrameBytes)
    let s := s.pwrite (kvPhys k.frame) bs
    let s := s.modKv k.frame (fun f => { f with summary := kvSummary q k.top bs, remnant := none })
    if q.fmt = 8 && k.top % 32 ≠ 0 then
      let toks := remnantTokens q k ((sl.brineGroup k (k.top / 32)).tokens) ((old.map (·.tokens)).getD [])
      let r := s.remnantSlot ref.t old k.frame
      r.2.modKv k.frame (fun f => { f with remnant := some { slot := r.1, tokens := toks } })
    else s.trimArenas ref.t

/-- Step 3. -/
def State.brineStep (s : State) : State :=
  s.each s.committing (fun s x => s.each x.2.taken (fun s k => s.flushFrame x.1 x.2 k))

/-! ### Page frames that are replaced -/

/-- The wide shadow of a frame goes with its contents to another frame. -/
def State.moveShadow (s : State) (src dst : Nat) : State :=
  match kget s.mem.shadows src with
  | none => s
  | some l => { s with mem := { s.mem with
      shadows := kset (kdel s.mem.shadows src) dst l
      shadowOwner := s.mem.shadowOwner.map (fun (y : Nat × Nat) => (y.1, if y.2 = src then dst else y.2)) } }

/-- A page gets a new home frame: the old one is freed at step 7, a migration of it is abandoned, ordinary copies are
dropped, and those of a die pin are taken from the new frame, which was written through (R170, R171). -/
def State.replaceHome (s : State) (t : Fin 4) (v f : Nat) : State :=
  match s.page t v with
  | none => s
  | some e =>
    let s := if e.gone then s else (s.useFrame e.home .old).dropShadow e.home
    let s := match e.migrateTo with
      | some g => s.freeFrame g
      | none => s
    let s := s.dropDie (fun _ u => u == .copy t v)
    let s := s.useFrame f (.page t v)
    let wide := (kget s.mem.shadows f).isSome
    s.modPage t v (fun e => { e with
      evicted := false, lost := false, wide := wide, home := f, migrateTo := none, migrated := false, lastUse := s.tick.count,
      staged := dieBits (s.diesOf (.pin t v)) })

/-- The same, with a copy of the page that takes the page's wide shadow along. -/
def State.switchCopy (s : State) (t : Fin 4) (v f : Nat) : State :=
  match s.page t v with
  | none => s.freeFrame f
  | some e => (s.moveShadow e.home f).replaceHome t v f

/-! ### Step 4: fold -/

/-- Whether a command's prepared copies switch now: a fallback command's wait for its last slice (R196). -/
def State.foldsNow (s : State) (t : Fin 4) (q : Fin 64) : Bool :=
  match s.run t q with
  | none => false
  | some r => r.fail.isNone && !r.prepared.isEmpty && (!r.asUnit || s.commandDone t q)

/-- Prepared copies into which nothing was folded in this sluice give their frames back. -/
def State.dropUnfolded (s : State) (t : Fin 4) (q : Fin 64) : State :=
  match s.run t q with
  | none => s
  | some r =>
    (s.releaseFresh (r.prepared.filter (fun p => !p.stored && !p.whole))).modRun t q (fun r =>
      { r with prepared := r.prepared.filter (fun p => p.stored || p.whole) })

/-- A fallback command's held copies of pages that were prepared anew give way to the new ones. -/
def State.renewPrepared (s : State) (t : Fin 4) (q : Fin 64) : State :=
  match s.run t q with
  | none => s
  | some r =>
    let new := r.prepared.filter (fun p => !p.stored)
    let old := r.prepared.filter (fun p => p.stored && (freshOf new p.vpage).isSome)
    let s := s.each old (fun s p => (s.dropShadow p.frame).freeFrame p.frame)
    s.modRun t q (fun r => { r with prepared :=
      (r.prepared.filter (fun p => !p.stored || (freshOf new p.vpage).isNone)).map (fun p => { p with stored := true }) })

/-- Step 4. -/
def State.foldStep (s : State) : State :=
  let s := s.each s.groupsNow State.foldImages
  let s := s.each allTQ (fun s x => (s.dropUnfolded x.1 x.2).renewPrepared x.1 x.2)
  s.each allTQ (fun s x =>
    if s.foldsNow x.1 x.2 then
      let l := ((s.run x.1 x.2).map (·.prepared)).getD []
      (s.each l (fun s p => s.switchCopy x.1 p.vpage p.frame)).modRun x.1 x.2 (fun r => { r with prepared := [] })
    else s)

/-- Commands whose last slice commits while a held cell lacks contributions, with the lowest such DEST (R194). -/
def State.shortCells (s : State) : List (Fin 4 × Fin 64 × Nat) :=
  allTQ.filterMap (fun x =>
    match s.run x.1 x.2 with
    | none => none
    | some r =>
      if s.commandDone x.1 x.2 then (((r.held.filter (fun k => !k.folded)).map (·.dest)).min?).map (fun a => (x.1, x.2, a)) else none)

/-! ### Step 5: staged accumulations -/

/-- The contributions of the slices that commit now may be applied; a fallback command's with its last slice. -/
def State.markStaged (s : State) : State :=
  let refs := s.showing.map (·.1)
  s.each allTQ (fun s x => s.modRun x.1 x.2 (fun r =>
    { r with staged := r.staged.map (fun y =>
        if refs.contains ⟨x.1, x.2, y.slice⟩ then { y with committed := true } else y) }))

/-- A page is switched to the copy in which the pan has applied contributions, once their slices have committed. -/
def State.switchStaged (s : State) (t : Fin 4) (q : Fin 64) (c : StagedCopy) : State :=
  match s.run t q with
  | none => s
  | some r =>
    let done := (r.stagedTo c.vpage).take c.n
    if done.all (·.committed) then
      let s := s.switchCopy t c.vpage c.frame
      let s := s.modRun t q (fun r =>
        { r with staged := (r.stagedTo c.vpage).drop c.n ++ r.staged.filter (fun x => x.vpage != c.vpage)
                 copies := r.copies.filter (fun x => x.frame != c.frame) })
      s.bump 0x9026 0xA c.n
    else s

/-- The contributions of a fallback command that completes are applied in this sluice, in the order of SLICE_INDEX (R103). -/
def State.applyHeld (s : State) (t : Fin 4) (q : Fin 64) : State :=
  match s.run t q with
  | none => s
  | some r =>
    if !(r.asUnit && s.commandDone t q) then s
    else
      s.each ((r.staged.map (·.vpage)).eraseDups) (fun s v =>
        match s.reachCommitted t v with
        | .error _ => s
        | .frame home =>
          match (s.makeRoom 1).takeFrame (stackOfFrame home) (.fresh t v) with
          | none => s
          | some (f, s) =>
            let l := sortBy (fun (a b : Staged) => decide (a.slice < b.slice)) (r.staged.filter (fun x => x.vpage == v))
            let s := (s.copyFrame home f).each l (fun s x => s.applyStaged f x)
            let s := (s.switchCopy t v f).bump 0x9026 0xA l.length
            s.modRun t q (fun r => { r with staged := r.staged.filter (fun x => x.vpage != v) }))

/-- Step 5. -/
def State.panStep (s : State) : State :=
  let s := s.markStaged
  let s := s.each allTQ (fun s x =>
    s.each (((s.run x.1 x.2).map (·.copies)).getD []) (fun s c => s.switchStaged x.1 x.2 c))
  s.each allTQ (fun s x => s.applyHeld x.1 x.2)

/-! ### Step 6: remap -/

/-- A fresh page of a slice becomes the page's home; one that only accumulated leaves the page as step 5 made it. -/
def State.showPage (s : State) (t : Fin 4) (sl : Slice) (p : FreshPage) : State :=
  if sl.accum && !p.stored then s.releaseFresh [p]
  else if (s.page t p.vpage).isSome then s.replaceHome t p.vpage p.frame
  else s

/-- A page entry names another frame. -/
def State.renameKv (s : State) (pe old new : Nat) (evictable : Bool) : State :=
  let s := s.modKv old (fun k => { k with names := k.names.filter (fun x => x.1 != pe) })
  s.modKv new (fun k => { k with names := k.names.filter (fun x => x.1 != pe) ++ [(pe, evictable)] })

/-- Writes a page entry of a sequence, keeping the frames' names. -/
def State.putEntry (s : State) (t : Fin 4) (evictable : Bool) (pe : Nat) (e : W64) : State :=
  let old := BitVec.ofNat 64 (s.numT t pe 8)
  let s := if peValid old && !peEvicted old then
      s.modKv (peFrame old) (fun k => { k with names := k.names.filter (fun x => x.1 != pe) })
    else s
  let s := if peValid e then
      s.modKv (peFrame e) (fun k => { k with names := k.names.filter (fun x => x.1 != pe) ++ [(pe, evictable)]
                                             lastUse := s.tick.count })
    else s
  s.putT t pe (leBytes 8 e.toNat)

/-- Sets LENGTH in a descriptor. -/
def State.setLength (s : State) (t : Fin 4) (desc n : Nat) : State :=
  let w := s.numT t (desc + 16) 8
  s.putT t (desc + 16) (leBytes 8 (w / 2 ^ 25 * 2 ^ 25 + n % 2 ^ 25))

/-- One more than the highest present position of any head. -/
def State.presentLength (s : State) (t : Fin 4) (desc : Nat) (q : Seq) : Nat :=
  (headPages q 0 (q.slots * 512)).foldl (fun m hp =>
    match s.peAt t desc q hp with
    | some (_, e) => if peValid e then max m (hp.2 * q.tpp + peCount e) else m
    | none => m) 0

/-- The page entries of the pages that a slice appended to. -/
def State.showKv (s : State) (t : Fin 4) (k : KvTaken) : State :=
  match s.seqAt t k.desc with
  | .error _ => s
  | .ok q =>
    let rem := ((s.kvRec k.frame).bind (·.remnant)).isSome
    let s := s.putEntry t q.evictable k.pe (mkPe rem k.top (kvStack k.frame) k.frame false)
    s.setLength t k.desc (max q.length (k.page * q.tpp + k.top))

/-- Tries to begin the copy of a page that is pinned to a stack (R169): the page itself is not evicted for it. -/
def State.startMigration (s : State) (t : Fin 4) (v : Nat) : State :=
  match s.page t v with
  | none => s
  | some e =>
    if e.pinKind ≠ 1 || e.gone || e.migrateTo.isSome || stackOfFrame e.home = e.pinTarget then s
    else
      let held := s.modPage t v (fun e => { e with readPin := true })
      let s' := if (s.freeOn e.pinTarget).isSome && s.stackNow t 1 then s
        else (held.roomFor t 1).modPage t v (fun x => { x with readPin := e.readPin })
      match (if s'.stackNow t 1 then s'.freeOn e.pinTarget else none) with
      | none => s
      | some f => (s'.useFrame f (.migrate t v)).modPage t v (fun e => { e with migrateTo := some f, migrated := false })

/-- Tries to begin the copy of a page that is pinned to a die. -/
def State.startDiePin (s : State) (t : Fin 4) (v : Nat) : State :=
  match s.page t v with
  | none => s
  | some e =>
    if e.pinKind ≠ 2 || !e.dieWait || e.gone then s
    else
      let take := fun (s : State) => s.freeTenDie e.pinTarget
      let s' := if (take s).isSome then s else s.evictDie e.pinTarget
      match take s' with
      | none => s
      | some k => ({ s' with mem := { s'.mem with dieUse := kset s'.mem.dieUse k (.pin t v) } } : State).modPage t v
          (fun e => { e with dieWait := false })

/-- A page is mapped. -/
def State.commitMap (s : State) (t : Fin 4) (v f : Nat) (ev : Bool) (kind target : Nat) : State :=
  let e : PageEntry :=
    { evicted := false, lost := false, evictable := ev, wide := false, pinKind := kind, pinTarget := target, staged := 0,
      dieWait := kind = 2, migrateTo := none, migrated := false, home := f, lastUse := s.tick.count, readPin := false }
  (s.useFrame f (.page t v)).setPage t v e

/-- A page is released. -/
def State.commitUnmap (s : State) (t : Fin 4) (v : Nat) : State :=
  match s.page t v with
  | none => s
  | some e =>
    let s := if e.gone then s else (s.useFrame e.home .old).dropShadow e.home
    let s := match e.migrateTo with
      | some g => s.freeFrame g
      | none => s
    (s.dropDie (fun _ u => u == .pin t v || u == .copy t v)).delPage t v

/-- Die-store frames of one use take another. -/
def State.reuseDie (s : State) (p : Nat → DieUse → Bool) (u : DieUse) : State :=
  { s with mem := { s.mem with dieUse := s.mem.dieUse.map (fun (x : Nat × DieUse) => (x.1, if p x.1 x.2 then u else x.2)) } }

/-- A pin is recorded: copies that another die pin held become ordinary, one on the new die is held; a migration to
another stack is abandoned. -/
def State.commitPin (s : State) (t : Fin 4) (v kind target : Nat) : State :=
  match s.page t v with
  | none => s
  | some e =>
    let on := fun (k : Nat) => kind = 2 && k / Config.dieFrames = target
    let s := s.reuseDie (fun k u => u == .pin t v && !on k) (.copy t v)
    let s := s.reuseDie (fun k u => u == .copy t v && on k && e.staged.getLsbD target) (.pin t v)
    let keep := kind = 1 && (e.migrateTo.map (fun f => stackOfFrame f == target)).getD false
    let s := match e.migrateTo with
      | some g => if keep then s else s.freeFrame g
      | none => s
    let held := !(s.diesOf (.pin t v)).isEmpty
    s.modPage t v (fun e => { e with
      pinKind := kind, pinTarget := target, dieWait := decide (kind = 2) && !held,
      migrateTo := if keep then e.migrateTo else none, migrated := keep && e.migrated })

/-- What a command that is not cut into slices does at its commit, but for MEM_QUERY. -/
def State.commitEffect (s : State) (t : Fin 4) (q : Fin 64) (e : Effect) : State :=
  match e with
  | .map v f ev kind target => s.commitMap t v f ev kind target
  | .unmap v => s.commitUnmap t v
  | .pin v kind target => s.commitPin t v kind target
  | .query _ _ _ => s
  | .kvEntry desc a w =>
    (match s.seqAt t desc with
     | .ok x => s.putEntry t x.evictable a w
     | .error _ => s)
  | .kvLength desc n =>
    (match s.seqAt t desc with
     | .ok x => s.setLength t desc (n.getD (s.presentLength t desc x))
     | .error _ => s)
  | .dirPending _ => s
  | .codecOpen c => s.modCodec c (fun x => { x with visible := true })
  | .codecClose c => { s with codec := kdel s.codec c }
  | .codecCommit c => s.modCodec c CodecCtx.commit
  | .ingestOpen n => s.showStream n
  | .ingestClose n => s.closeStream n
  | .ingestCommit n => s.commitIngest n
  | .recordOpen g => s.modTen t (fun x => { x with record := some g })
  | .recordClose => s.modTen t (fun x => { x with record := none })
  | .secured step slot => s.snapshotCommit t q step slot
  | .restored _ => s

/-- MEM_QUERY writes the page entries as they stand after the remap. -/
def State.commitQuery (s : State) (t : Fin 4) (e : Effect) : State :=
  match e with
  | .query base n d =>
    s.putT t d ((List.range n).flatMap (fun i => leBytes 8 (s.pageWord t (pageOf base + i)).toNat))
  | _ => s

/-- Whether a page is bound by cells, or holds staged contributions that are not applied: it carries a read pin until they
have gone (R192, R201). -/
def State.pageKept (s : State) (t : Fin 4) (v : Nat) : Bool := s.anyRun t (fun r => r.binds v || r.stages v)

/-- Migrations whose copies are complete switch (R169), but for pages that may not move. -/
def State.switchMigrated (s : State) (t : Fin 4) : State :=
  s.each (s.mem.pages[t].filter (fun x => x.2.migrated && !s.pageKept t x.1)) (fun s x =>
    match x.2.migrateTo with
    | none => s
    | some f =>
      let s := (s.copyFrame x.2.home f).moveShadow x.2.home f
      let s := (s.useFrame x.2.home .old).useFrame f (.page t x.1)
      (s.modPage t x.1 (fun e => { e with home := f, migrateTo := none, migrated := false })).bump 0x9025 0xB 1)

/-- Pins that wait are tried again. -/
def State.retryPins (s : State) (t : Fin 4) : State :=
  s.each (s.mem.pages[t].filter (fun x => x.2.pinKind ≠ 0)) (fun s x => (s.startMigration t x.1).startDiePin t x.1)

/-- Copies the bytes of a KV frame to another. -/
def State.copyKvBytes (s : State) (f g : Nat) : State :=
  { s with mem := { s.mem with mem := memCopy s.mem.mem (kvPhys f) (kvPhys g) Config.kvFrameBytes } }

/-- Moves a KV frame to a free slot of its stack: FRAME changes in every entry that names it. -/
def State.moveKv (s : State) (f g : Nat) : State :=
  match s.kvRec f with
  | none => s
  | some k =>
    let s := s.copyKvBytes f g
    let s := { s with mem := { s.mem with kv := kset (kdel s.mem.kv f) g k } }
    let s := s.reuseDie (fun _ u => u == .kv k.t f) (.kv k.t g)
    let s := s.each k.names (fun s x =>
      let w := s.numT k.t x.1 8
      s.putT k.t x.1 (leBytes 8 (w / 2 ^ 32 * 2 ^ 32 + g % 2 ^ 32)))
    s.bump 0x9025 6 1

/-- A frame that an append has taken. -/
def State.kvTakenBySlice (s : State) (f : Nat) : Bool :=
  s.allSlices.any (fun x => x.2.taken.any (fun k => k.frame == f))

/-- Moves KV frames together while their arenas exceed the tenancy's reservation (R173). -/
def State.compactArenas (s : State) (t : Fin 4) : State :=
  let arenas := (s.mem.frameUse.filter (fun x => x.2 == .arena t)).length
  if arenas ≤ ceilDiv (s.quota t 3) 30 + 24 then s
  else
    let movable := (s.mem.kv.filter (fun x => x.2.t == t && !x.2.pin && !x.2.names.isEmpty && !s.kvTakenBySlice x.1 &&
      !s.opPins (2 ^ 40 + x.1))).map (·.1)
    (s.each movable.reverse (fun s f =>
      match ((s.arenas t (kvStack f)).filter (fun a => a < f / 32)).findSome? s.freeSlot with
      | some g => s.moveKv f g
      | none => s)).trimArenas t

/-- The transfers that have committed (R366). -/
def State.commitTransfers (s : State) : State :=
  s.each s.coll.colls (fun s x =>
    if x.2.use == .transfer && x.2.done && x.2.failed.isNone && !x.2.ended then s.transferDone x.2.t x.2 else s)

/-- The highest SLICE_INDEX that commits now of a command whose completion reports it. -/
def CmdRun.newLast (r : CmdRun) (t : Fin 4) (q : Fin 64) (l : List SliceRef) : Option Nat :=
  if slicedOp (cOp r.words) || cOp r.words = 0x02 then
    (((l.filter (fun x => x.t == t && x.q == q)).map (·.idx)).max?).orElse (fun _ => r.lastSlice)
  else r.lastSlice

/-- The slices that commit are committed; what has become visible is no longer held. -/
def State.settleCommitted (s : State) (done shown : List SliceRef) : State :=
  s.each allTQ (fun s x =>
    match s.run x.1 x.2 with
    | none => s
    | some r =>
      let s := s.each (r.slices.filter (fun sl => done.contains ⟨x.1, x.2, sl.idx⟩)) (fun s sl =>
        s.each sl.saveFrames State.freeFrame)
      s.modRun x.1 x.2 (fun r =>
        { r with
          lastSlice := r.newLast x.1 x.2 done
          slices := r.slices.map (fun sl =>
            let ref : SliceRef := ⟨x.1, x.2, sl.idx⟩
            let sl := if done.contains ref then { sl with state := .committed, requeued := none, start := none, saved := [], saveFrames := [] }
              else sl
            if shown.contains ref then sl.empty else sl) }))

/-- Completed commands move their queues' fences (R261); those whose cells fell short do not. -/
def State.fenceStep (s : State) (short : List (Fin 4 × Fin 64 × Nat)) : State :=
  s.each allTQ (fun s x =>
    match s.run x.1 x.2 with
    | none => s
    | some r =>
      if s.commandDone x.1 x.2 && r.staged.isEmpty && !short.any (fun y => y.1 == x.1 && y.2.1 == x.2) then
        (s.modRun x.1 x.2 (fun r => { r with ended := true })).modQueue x.1 x.2 (fun y => { y with fence := r.n })
      else s)

/-- CREATE and RESUME take effect (R264, R284). -/
def State.queueControl (s : State) : State :=
  s.each allTQ (fun s x => s.modQueue x.1 x.2 (fun y =>
    if y.createPending then
      { y with createPending := false, state := .active, qepoch := y.qepoch + 1, ended := 0, fence := 0, tail := 0,
               cplFreed := 0, avail := [], run := none }
    else if y.resumePending then
      { y with resumePending := false, state := .active, ended := y.ended + 1, fence := y.ended + 1, avail := y.avail.drop 1 }
    else y))

/-- Step 6. -/
def State.remapStep (s : State) : State :=
  let done := s.committing
  let shown := s.showing
  let short := s.shortCells
  let effects := shown.flatMap (fun x =>
    match s.run x.1.t x.1.q with
    | some r => if r.isOp then r.effects.map (fun e => (x.1, e)) else []
    | none => [])
  let s := s.each shown (fun s x => s.each x.2.fresh (fun s p => s.showPage x.1.t x.2 p))
  let s := s.each shown (fun s x => s.each x.2.taken (fun s k => s.showKv x.1.t k))
  let s := s.each effects (fun s y => s.commitEffect y.1.t y.1.q y.2)
  let s := s.commitTransfers
  let s := s.each allT (fun s t => (s.switchMigrated t).retryPins t)
  let s := s.each allT State.compactArenas
  let s := (((s.allocStaging).endDigest).sealModel).removeModel
  let s := s.settleEvictions
  let s := s.each effects (fun s y => s.commitQuery y.1.t y.2)
  let s := s.settleCommitted (done.map (·.1)) (shown.map (·.1))
  (s.fenceStep short).queueControl

/-! ### Step 7: settle -/

/-- No page and no KV frame is read-pinned any more, but for pages that are bound or wait for contributions. -/
def State.clearReads (s : State) : State :=
  { s with mem := { s.mem with
      pages := Vector.ofFn (fun (t : Fin 4) => s.mem.pages[t].map (fun (x : Nat × PageEntry) =>
        (x.1, { x.2 with readPin := x.2.readPin && s.pageKept t x.1 })))
      kv := s.mem.kv.map (fun (x : Nat × KvFrame) => (x.1, { x.2 with pin := false })) } }

/-- The pins of the ended tick are released, and those of the commands that have completed. -/
def State.releasePins (s : State) : State :=
  (s.each allTQ (fun s x => s.modRun x.1 x.2 (fun r => if r.ended then { r with pinned := [] } else r))).clearReads

/-- Replaced frames that nothing reads return to the free list, and KV frames that no entry names. -/
def State.freeOld (s : State) : State :=
  let old := (s.mem.frameUse.filter (fun x => x.2 == .old && !s.opPins x.1)).map (·.1)
  let s := s.each old State.freeFrame
  let kv := (s.mem.kv.filter (fun x => x.2.names.isEmpty && !s.kvTakenBySlice x.1 && !s.opPins (2 ^ 40 + x.1))).map (·.1)
  s.each kv State.dropKv

/-- SHARED and LOC of the page entries that name a frame. -/
def State.markShared (s : State) (x : Nat × KvFrame) : State :=
  let shared := decide (1 < x.2.names.length)
  let loc := match x.2.staged with
    | some d => 32 + d.val
    | none => kvStack x.1
  s.each x.2.names (fun s y =>
    let w := BitVec.ofNat 64 (s.numT x.2.t y.1 8)
    let new := (w &&& ~~~(BitVec.ofNat 64 (2 ^ 61 + 63 * 2 ^ 32))) |||
      BitVec.ofNat 64 ((if shared then 2 ^ 61 else 0) + loc * 2 ^ 32)
    if new = w then s else s.putT x.2.t y.1 (leBytes 8 new.toNat))

/-- Whether a page entry lies in a table of a sequence. -/
def State.inSequence (s : State) (t : Fin 4) (desc pe : Nat) : Bool :=
  match s.seqAt t desc with
  | .error _ => false
  | .ok q => (s.dirTables t q q.dir).any (fun x => x.2.2 ≤ pe && pe < x.2.2 + 4096)

/-- Drops the copies of a released schedule entry that no active entry covers (R175). -/
def State.releaseEntry (s : State) (en : SchedEntry) : State :=
  let active := s.mem.model.sched.filter (·.active)
  if en.kind = 1 then
    s.each en.pages (fun s v =>
      let die := s.schedDie en v
      if active.any (fun a => a.kind == 1 && a.pages.contains v && s.schedDie a v == die) then s
      else
        let s := s.dropDie (fun k u => u == .model v && k / Config.dieFrames == die)
        { s with mem := { s.mem with model := { s.mem.model with
            staged := kmod s.mem.model.staged v (fun (m : BitVec 4) => m &&& ~~~(1#4 <<< die)) } } })
  else
    s.each allT (fun s t =>
      let desc := s.odt t 0xA080 (en.base % 64 + 1)
      if desc = 0 || active.any (fun a => a.kind == 2 && s.odt t 0xA080 (a.base % 64 + 1) == desc) then s
      else
        let mine := s.mem.kv.filter (fun x => x.2.t == t && s.mem.dieUse.any (fun y => y.2 == .kv t x.1) &&
          x.2.names.any (fun y => s.inSequence t desc y.1))
        s.each mine (fun s x =>
          (s.dropDie (fun _ u => u == .kv t x.1)).modKv x.1 (fun k => { k with staged := none })))

/-- The schedule entries that were released give their copies back. -/
def State.releaseSchedule (s : State) : State :=
  let s := s.each (s.mem.model.sched.filter (·.releasing)) State.releaseEntry
  { s with mem := { s.mem with model := { s.mem.model with
      sched := s.mem.model.sched.map (fun (en : SchedEntry) => { en with releasing := false }) } } }

/-- Frames whose scrub is done are free. -/
def State.freeScrubbed (s : State) : State :=
  let l := s.mem.scrubbed.filter (fun f => kget s.mem.frameUse f == some .scrub)
  let s := s.each l State.freeFrame
  { s with mem := { s.mem with scrubbed := [] } }

/-- Whether a frame belongs to a tenancy. -/
def FrameUse.isOf (t : Fin 4) : FrameUse → Bool
  | .page u _ => u == t
  | .fresh u _ => u == t
  | .arena u => u == t
  | .save u => u == t
  | .shadow u => u == t
  | .migrate u _ => u == t
  | _ => false

/-- Whether a die-store frame belongs to a tenancy. -/
def DieUse.isOf (t : Fin 4) : DieUse → Bool
  | .pin u _ => u == t
  | .copy u _ => u == t
  | .kv u _ => u == t
  | .model _ => false

/-- The memory of a tenancy that is reset goes to the pans for scrubbing (R297). -/
def State.scrubTenancy (s : State) (t : Fin 4) : State :=
  let mine := (s.mem.frameUse.filter (fun x => x.2.isOf t)).map (·.1)
  let s := s.each mine (fun s f => s.useFrame f .scrub)
  { s with mem := { s.mem with
      pages := s.mem.pages.set t []
      kv := s.mem.kv.filter (fun x => x.2.t != t)
      dieUse := s.mem.dieUse.filter (fun x => !x.2.isOf t)
      shadows := s.mem.shadows.filter (fun x => !mine.contains x.1)
      shadowOwner := s.mem.shadowOwner.filter (fun x => !mine.contains x.1)
      dirBusy := s.mem.dirBusy.filter (fun x => x.1 != t.val)
      dirSynced := s.mem.dirSynced.filter (fun x => x.1 != t.val)
      stageReq := s.mem.stageReq.filter (fun x => x.t != t) } }

/-- Step 7. -/
def State.settleStep (s : State) : State :=
  let s := (s.releasePins).freeOld
  let s := s.each s.mem.kv State.markShared
  let s := (s.releaseSchedule).freeScrubbed
  s.each (allT.filter (fun t => s.ports[t].inReset)) State.scrubTenancy

/-- Commands whose cells fell short fail; their last effects stay visible (R194). -/
def State.failShort (s : State) (l : List (Fin 4 × Fin 64 × Nat)) : State :=
  s.each l (fun s x => s.failAt x.1 x.2.1 (Config.errCellRange, x.2.2))

/-- Steps 3 to 8. -/
def State.commitSteps (s : State) : State :=
  let s := (s.brineStep).foldStep
  let short := s.shortCells
  ((((s.panStep).remapStep).settleStep.releaseCells).failShort short)

end Sys2Proof.Machine
end

