-- ==== Sys2Proof/Machine/Swap.lean ====
section
/-! DEFINITION. Steps 9 and 10 of the sluice (R36): the double-buffered tables (R48, R49, R140, R154, R178, R239, R249,
R340), values that take effect there (R10, R24, R316, R333, R337, R359), and the account of the ended tick (R271). -/
namespace Sys2Proof.Machine

open Sys2Proof

/-- A command that has completed at step 6 and waits for its record at step 12. -/
structure Completed where
  t : Fin 4
  q : Fin 64
  r : CmdRun
deriving DecidableEq, Repr

/-- Takes a completed command off the head of its queue: the next one is its head (R260, R262). -/
def State.detach (s : State) : List Completed × State :=
  let l := allTQ.filterMap (fun x =>
    match s.run x.1 x.2 with
    | some r => if r.ended then some { t := x.1, q := x.2, r := r : Completed } else none
    | none => none)
  (l, s.each l (fun s x => s.modQueue x.t x.q (fun y =>
    { y with run := none, ended := x.r.n, avail := y.avail.drop 1 })))

/-! ### Step 9: tables -/

/-- A commit entry at the swap. -/
def CommitState.swapped (c : CommitState) : CommitState := if c = .pending then .syncing else c

/-- The shadow values of the indices that a test names become live. -/
def State.takeShadow (s : State) (p : Nat → Bool) : State :=
  let new := s.od.shadow.filter (fun x => p (x.1 / 256))
  { s with od := { s.od with
      live := new.foldl (fun m x => kset m x.1 x.2) s.od.live
      shadow := s.od.shadow.filter (fun x => !p (x.1 / 256)) } }

/-- The new EPOCH of a group whose entry was written (R340). -/
def State.newEpoch (s : State) (g : Nat) : Nat :=
  let next := s.odn (0x5100 + g) 2
  if next ≤ 255 then next else (s.groupEpoch g + 1) % 256

/-- The group table. -/
def State.swapGroups (s : State) : State :=
  if s.od.groupCommit ≠ .pending then s
  else
    let l := s.od.groupWritten.map (fun g => (g, s.newEpoch g))
    let s := s.takeShadow (fun i => 0x5100 ≤ i && i ≤ 0x51FF)
    let s := s.each l (fun s x => { s with od := { s.od with
      groupEpoch := kset s.od.groupEpoch x.1 x.2
      groupNextSeq := kset s.od.groupNextSeq x.1 0
      live := kset s.od.live (odKey (0x5100 + x.1) 2) (.num 0x100) } })
    { s with od := { s.od with groupWritten := [], groupCommit := .syncing } }

/-- The quota table: made live when it is valid and covers the usage (R178). -/
def State.swapQuota (s : State) : State :=
  if s.od.quotaCommit ≠ .pending then s
  else
    let why := s.quotaReason
    if why ≠ 0 then
      { s with od := { s.od with quotaCommit := .idle, quotaReject := why } }.bump 0x9025 8 1
    else
      let s := s.takeShadow (fun i => 0x3100 ≤ i && i ≤ 0x3103)
      { s with od := { s.od with quotaCommit := .syncing, quotaReject := 0, quotaScaled := false } }

/-- The skip thresholds and the quantiser table of Tt. -/
def State.swapTenancy (s : State) (t : Fin 4) : State :=
  let s := if s.od.skipCommit[t] = .pending then
      let s := s.takeShadow (fun i => i == 0xA070 + 256 * t.val || i == 0xA071 + 256 * t.val)
      { s with od := { s.od with skipCommit := s.od.skipCommit.set t .syncing } }
    else s
  if s.od.quantCommit[t] = .pending then
    let s := s.takeShadow (fun i => i == 0xA0A0 + 256 * t.val)
    { s with od := { s.od with quantCommit := s.od.quantCommit.set t .syncing } }
  else s

/-- The augmentation tables (R249). -/
def State.swapAugmentation (s : State) : State :=
  { s with ingest := s.ingest.map (fun (x : Nat × Stream) =>
      (x.1, if x.2.augCommit = .pending then { x.2 with augB := !x.2.augB, augCommit := .syncing } else x.2)) }

/-- The page directories whose copies are complete are IDLE; those that the completed commands have committed are swapped
(R140): LIVE flips, and DIR_STATE is SYNCING. -/
def State.swapDirectories (s : State) (l : List Completed) : State :=
  let synced := s.mem.dirSynced
  let s := { s with mem := { s.mem with dirSynced := [] } }
  let s := s.each (synced.flatMap (fun x => (allT.filter (fun t => t.val = x.1)).map (fun t => (t, x.2))))
    (fun s x => s.syncDirectory x.1 x.2)
  s.each (l.flatMap (fun x => x.r.effects.map (fun e => (x.t, e)))) (fun s x =>
    match x.2 with
    | .dirPending d => s.setDir x.1 d 2 (some (!(s.numT x.1 (d + 8) 8).testBit 61))
    | _ => s)

/-- Values written for the next sluice take effect (R10). -/
def State.takeWritten (s : State) : State :=
  let l := s.od.rwt
  let s := { s with od := { s.od with rwt := [] } }
  let s := s.each l (fun s x =>
    if x.1 = odKey 0x2000 1 then s.setPeriod x.2.toNat
    else { s with od := { s.od with live := kset s.od.live x.1 x.2 } })
  if s.net.changeAt ≠ 0 && s.net.changeAt = s.tick.count then s.changePeriod else s

/-- Whether this sluice changes an arithmetic-relevant value (R316). -/
def State.arithDue (s : State) : Bool :=
  s.od.rwt.any (fun x => 0x4100 ≤ x.1 / 256 && x.1 / 256 ≤ 0x41FE) ||
    allT.any (fun t => decide (s.od.skipCommit[t] = .pending ∨ s.od.quantCommit[t] = .pending))

/-- Step 9. -/
def State.swapStep (s : State) (l : List Completed) : State :=
  let arith := s.arithDue
  let s := s.swapGroups.swapQuota
  let s := s.each allT State.swapTenancy
  let s := ((s.swapAugmentation).swapDirectories l).takeWritten
  let s := s.swapRoutes
  let s := s.each s.groupsNow State.routeCheck
  if arith then s.redigest else s

/-! ### Step 10: account -/

/-- The newest entries of a window of 1,024 ticks. -/
def windowed {α : Type} (l : List α) : List α := l.drop (l.length - 1024)

/-- The charges of the ended tick go into the windows and the counters (R268, R271). -/
def State.accountTenancy (s : State) (t : Fin 4) : State :=
  let k := s.tens[t].tickCharge
  let s := s.modTen t (fun x => { x with
    charges := windowed (x.charges ++ [(k[0], k[1], k[2], k[3])]), tickCharge := Vector.replicate 4 0 })
  let s := s.bumpT t 0xA0C0 1 (k[0] + k[1] + k[2] + k[3])
  s.each (List.finRange 4) (fun s i => s.bumpT t 0xA0C1 (i.val + 1) k[i])

/-- What the sensors and the power meter read (R403), and RISK after each whole second (R408). -/
def State.measure (s : State) (env : SluiceEnv) : State :=
  let s := s.modPower (fun p => { p with
    sensors := if env.sensors.length = 29 then env.sensors else p.sensors, inputPower := env.powerW })
  let second := s.tick.localNs / 1000000000
  if second = s.health.lastSecond then s else (s.modHealth (fun h => { h with lastSecond := second })).updateRisk

/-- Charges one slice of the ended tick, by the weight that is live (R271). -/
def State.charge (s : State) (t : Fin 4) (cls cost : Nat) : State :=
  let w := s.weight t
  let c := classIx cls
  s.modTen t (fun x => { x with
    vUsage := if w = 0 then x.vUsage else x.vUsage.set c (x.vUsage[c] + cost / w)
    tickCharge := x.tickCharge.set c (x.tickCharge[c] + cost) })

/-- Step 10, with the charges of the ended tick. -/
def State.accountStep (s : State) (env : SluiceEnv) (due : List (Fin 4 × Nat × Nat)) : State :=
  let s := s.each due (fun s x => s.charge x.1 x.2.1 x.2.2)
  let s := s.each allT State.accountTenancy
  let s := { s with tick := { s.tick with capWindow := windowed (s.tick.capWindow ++ [s.tick.capacity]) } }
  s.measure env

end Sys2Proof.Machine
end

