-- ==== Sys2Proof/Machine/Boundary.lean ====
section
/-! DEFINITION. Step 11 of the sluice (R36): the clock and the capacity of the tick (R31, R403), self-test and withdrawn
cores (R405, R406), fence failures (R265, R266), frames and digest of an installation (R383, R385), collectives and their
ring steps (R349 to R352), and the admission (R32). -/
namespace Sys2Proof.Machine

open Sys2Proof

/-! ### Fences that can never be met (R265, R266) -/

/-- The open waits of a head command that has not been admitted. -/
def State.headWaits (s : State) (t : Fin 4) (q : Fin 64) : List (Fin 64) :=
  match s.run t q with
  | none => []
  | some r =>
    if (s.queue t q).state == .active && !r.begun && r.fail.isNone && !r.ended then (s.openWaits t q r.n r.words).map (·.1) else []

/-- The queues of Tt with open waits, and what they wait on. -/
def State.waitGraph (s : State) (t : Fin 4) : List (Fin 64 × List (Fin 64)) :=
  (allQ.map (fun q => (q, s.headWaits t q))).filter (fun x => !x.2.isEmpty)

/-- The queues that some queues reach, over queues from `lo` on. -/
def reachQueues (g : List (Fin 64 × List (Fin 64))) (lo : Fin 64) : Nat → List (Fin 64) → List (Fin 64)
  | 0, l => l
  | n + 1, l =>
    let more := ((g.filter (fun x => l.contains x.1)).flatMap (·.2)).filter (fun q => lo ≤ q && !l.contains q)
    if more.isEmpty then l else reachQueues g lo n (l ++ more.eraseDups)

/-- For a queue that is the lowest of a cycle, the queue there that its head waits on. -/
def cycleWait (g : List (Fin 64 × List (Fin 64))) (x : Fin 64 × List (Fin 64)) : Option (Fin 64) :=
  x.2.find? (fun r => x.1 ≤ r && (reachQueues g x.1 64 [r]).contains x.1)

/-- Breaks the wait cycles of Tt, each at its lowest queue (R266). -/
def State.breakCycles (s : State) (t : Fin 4) : State :=
  let g := s.waitGraph t
  s.each (g.filterMap (fun x => (cycleWait g x).map (fun r => (x.1, r)))) (fun s x =>
    (s.failAt t x.1 (Config.errFenceCycle, x.2.val)).bump 0x902A 4 1)

/-- Whether a queue is HALTED, or its head command has failed and it halts in this sluice. -/
def State.haltedNow (s : State) (t : Fin 4) (q : Fin 64) : Bool :=
  (s.queue t q).state == .halted || ((s.run t q).map (·.fail.isSome)).getD false

/-- Fails the head commands of Tt that wait on a halted queue, until no more do (R265). -/
def State.haltChain (s : State) (t : Fin 4) : Nat → State
  | 0 => s
  | n + 1 =>
    match (s.waitGraph t).findSome? (fun x => (x.2.find? (s.haltedNow t ·)).map (fun r => (x.1, r))) with
    | none => s
    | some (q, r) => ((s.failAt t q (Config.errFenceHalted, r.val)).bump 0x902A 3 1).haltChain t n

/-- Fence failures, cycles first. -/
def State.fenceFailures (s : State) : State :=
  s.each allT (fun s t => (s.breakCycles t).haltChain t 64)

/-! ### Clock, cores, capacity -/

/-- f of the coming tick (R403). -/
def State.nextClock (s : State) : Nat :=
  let f := s.power.clockMHz
  let limit := s.odn 0x8000 2
  let p := s.power.inputPower
  if limit < p || 95000 ≤ s.hottest then max 800 (f - 100)
  else if p + 150 ≤ limit && s.hottest < 92000 then min 2000 (f + 100)
  else f

/-- Sets f, THERM_ALERT_N, and the cores withdrawn after a failure. -/
def State.setClock (s : State) : State :=
  let f := s.nextClock
  let s := s.modPower (fun p => { p with clockMHz := f, thermAlert := decide (100000 ≤ s.hottest) })
  let new := s.health.failing.filter (fun c => !s.cores.failed.contains c)
  { s with cores := { s.cores with failed := s.cores.failed ++ new }, health := { s.health with failing := [] } }

/-- The self-test round of the tick (R405): a round begins when it is due; it pauses in a tick that is too short or
belongs to an exclusive segment. -/
def State.testCores (s : State) (exclusive : Bool) : State :=
  let s := s.startRound
  match s.health.roundTick with
  | none => { s with cores := { s.cores with testing := [] } }
  | some j =>
    if exclusive || s.tick.periodN * 125000 < 110000 * 2000 / s.power.clockMHz + 4000 then
      { s with cores := { s.cores with testing := [] } }
    else
      { s with
        cores := { s.cores with testing := (List.range 32).map (fun g => 16 * g + j) }
        health := { s.health with roundTick := if j < 15 then some (j + 1) else none } }

/-- N and C of the tick (R31). -/
def State.setCapacity (s : State) (exclusive : Bool) : State :=
  let n := s.coresUp.length
  let s := { s with tick := { s.tick with
    coresN := n, capacity := capacityOf s.tick.periodN n s.power.clockMHz, exclusiveTick := exclusive } }
  s.bump 0x9020 4 (if exclusive then 1 else 0)

/-- A stack whose full recalibration has found no quiet boundary within QUIET_WAIT ticks is forced (R407). -/
def State.forceStacks (s : State) : State :=
  s.each (s.health.recalRequest.filter (fun x => x.2 + s.odn 0x8000 1 + 1 ≤ s.tick.count)) (fun s x => s.forceQuiet x.1)

/-! ### Admission -/

/-- What begins before the slices: collectives, transfers, group slots, ring steps. -/
def State.admitColls (s : State) (exclusive : Bool) : State :=
  let s := s.each allT State.startTransfer
  let heads := allTQ.filter (fun x => !exclusive && s.isCandidate x.1 x.2 &&
    ((s.run x.1 x.2).map (fun r => cOp r.words == 0x02)).getD false)
  let s := s.each heads (fun s x => s.offerColl x.1 x.2)
  let s := s.each s.groupsNow State.statsReady
  (s.giveSlots).admitRings exclusive

/-- Step 11. -/
def State.admitStep11 (s : State) : State :=
  let s := (s.latchClasses).each allTQ (fun s x => s.ensureHead x.1 x.2 0)
  let s := s.dieFaults
  let s := s.each allTQ (fun s x => s.collHeadCheck x.1 x.2)
  let s := s.fenceFailures
  let s := (s.each (s.ingest.map (·.1)) State.streamBoundary).lazyRoom
  let s := (s.setClock).forceStacks
  let s := (s.takeInstallFrames.startImageDigest).stageActive
  let ex := if s.barred then none else s.exclusiveNow s.items
  let s := (s.testCores ex.isSome).setCapacity ex.isSome
  if s.barred then s.admitRings true
  else
    let s := s.each allTQ (fun s x => s.readSlices x.1 x.2)
    let s := s.admitColls ex.isSome
    s.admitAll s.items ex

end Sys2Proof.Machine
end

