-- ==== Sys2Proof/Machine/Finish.lean ====
section
/-! DEFINITION. Steps 12 and 13 of the sluice (R36): the ends of commands (R22, R261, R264, R287, R291 to R293, R360), stream
advance (R101), the fallback storm (R114), recorded commands (R115, R395), quiescing (R275), the completion of a tenancy
reset (R297), and the start of the tick. -/
namespace Sys2Proof.Machine

open Sys2Proof

/-! ### What a completed command leaves -/

/-- The tile entries of a command's final run. -/
def CmdRun.finalTiles (r : CmdRun) : List TileEntry := r.tiles.eraseDups

/-- The fallback code (R115): 0 nothing widened, 1 none beyond FP8, 2 to BF16, 3 the command was rerun. -/
def CmdRun.fallbackCode (r : CmdRun) : Nat :=
  if r.reruns ≠ 0 then 3 else min 2 (r.finalTiles.foldl (fun m x => max m x.width) 0)

/-- Changes the entry of a recorded command. -/
def State.modRecorded (s : State) (t : Fin 4) (q : Fin 64) (r : CmdRun) (f : RecEntry → RecEntry) : State :=
  match r.recorded with
  | none => s
  | some n => s.modTen t (fun x => { x with record := x.record.map (fun g =>
      { g with cmds := g.cmds.map (fun c => if c.queue = q.val ∧ c.ordinal = n then f c else c) }) })

/-- PASS of each stream that the command names advances (R101). -/
def State.advancePass (s : State) (t : Fin 4) (ws : List W64) : State :=
  if !cAdvance ws then s
  else
    let l := (((List.range 4).map (cKeyStream ws)).filter (· < 64)).eraseDups
    s.each l (fun s n =>
      let k := odKey (0xA060 + 256 * t.val) (2 * n + 2)
      { s with od := { s.od with live := kset s.od.live k (.num ((s.odt t 0xA060 (2 * n + 2) + 1) % 2 ^ 32)) } })

/-- The PASS value of the k0 stream that a command loaded. -/
def CmdRun.pass0 (r : CmdRun) : Nat := bits (r.keys[0].toNat) 32 32

/-- Layers per pass (R114). -/
def State.passLayers (s : State) : Nat := if s.odn 0x4001 2 = 0 then s.mem.model.layers else s.odn 0x4001 2

/-- Notes a widened layer of a pass; the storm event fires once for a tenancy and a pass value (R114). -/
def State.noteStorm (s : State) (t : Fin 4) (r : CmdRun) : State :=
  let layer := cLayer r.words
  if layer = 0xFF || !r.finalTiles.any (fun x => x.width ≠ 0) then s
  else
    let entry := (t.val, r.pass0, layer)
    let wide := if s.od.stormWide.contains entry then s.od.stormWide else s.od.stormWide ++ [entry]
    let s := { s with od := { s.od with stormWide := wide } }
    let n := (wide.filter (fun x => x.1 == t.val && x.2.1 == r.pass0)).length
    if s.odn 0x4001 1 * s.passLayers < n * 100 && !s.od.stormFired.contains (t.val, r.pass0) then
      ({ s with od := { s.od with
          stormFired := s.od.stormFired ++ [(t.val, r.pass0)], stormTick := s.tick.count, stormTenancy := t.val } }).bump
        0x9022 0xA 1
    else s

/-- The fallback history of the tenancy's securing (R363). -/
def State.noteHistory (s : State) (t : Fin 4) (r : CmdRun) : State :=
  let layer := cLayer r.words
  let code := r.fallbackCode
  if layer = 0xFF || code = 0 then s
  else if code = 3 then s.modSecure t (fun x => { x with rerun := kset x.rerun layer (((kget x.rerun layer).getD 0 + 1) % 2 ^ 32) })
  else s.modSecure t (fun x => { x with widened := kset x.widened layer (((kget x.widened layer).getD 0 + 1) % 2 ^ 32) })

/-- The collective of a command, while it is the command's. -/
def State.ownColl (s : State) (t : Fin 4) (q : Fin 64) (r : CmdRun) : Option (Nat × Coll) :=
  match r.coll with
  | none => none
  | some g => (s.collOf g).bind (fun c => if c.use == .command && c.t == t && c.q == q && !c.ended then some (g, c) else none)

/-- RESULT0 and RESULT1 of a command that ends. -/
def State.endResults (s : State) (t : Fin 4) (q : Fin 64) (r : CmdRun) : W64 × W64 :=
  let op := cOp r.words
  if op = 0x02 then
    match s.ownColl t q r with
    | some x => (BitVec.ofNat 64 x.2.results.1, BitVec.ofNat 64 x.2.results.2)
    | none => (0, 0)
  else
    match r.fail with
    | none => (r.result0, r.result1)
    | some f => if op = 0x48 || op = 0x49 || f.code = Config.errTickOverrun then (r.result0, r.result1) else (0, 0)

/-- The number that the record of a command writes as its fence, and its status. -/
def State.endingOf (s : State) (t : Fin 4) (q : Fin 64) (r : CmdRun) : Ending :=
  let x := s.endResults t q r
  match r.fail with
  | none => { status := 0, address := 0, strand := Config.noStrand, lastSlice := r.lastSlice, result0 := x.1, result1 := x.2,
              fence := r.n }
  | some f => { status := f.code, address := f.address, strand := f.strand, lastSlice := r.lastSlice, result0 := x.1,
                result1 := x.2, fence := r.n - 1 }

/-- A command has completed: its streams advance, what it widened is counted, its record is written. -/
def State.finishDone (s : State) (c : Completed) : State :=
  let r := c.r
  let s := s.each r.effects (fun s e => match e with
    | .restored h => s.applyRestored c.t h
    | _ => s)
  let s := ((s.advancePass c.t r.words).noteStorm c.t r).noteHistory c.t r
  let s := s.modRecorded c.t c.q r (fun e =>
    { e with done := true, lastTick := s.tick.count, fallback := r.fallbackCode, tiles := r.finalTiles })
  let s := (s.complete c.t c.q r.n r.words (s.endingOf c.t c.q r)).bumpT c.t 0xA0C0 6 1
  match s.ownColl c.t c.q r with
  | some x => (s.advanceSeq x.1).removeColl x.1
  | none => s

/-- The collectives that a failed command leaves end. -/
def State.endColls (s : State) (t : Fin 4) (q : Fin 64) (r : CmdRun) : State :=
  let s := match s.ownColl t q r with
    | some x => s.endColl x.1
    | none => (match r.coll with
      | some g => if cOp r.words = 0x02 && (s.collOf g).isNone then s.advanceSeq g else s
      | none => s)
  let mine := s.coll.colls.filter (fun x => !x.2.ended && x.2.t == t && x.2.q == q &&
    (x.2.use == .vote || x.2.use == .restore || x.2.use == .verify))
  s.each mine (fun s x => s.endColl x.1)

/-- A command has ended with an error: error log, record, halt (R264, R293). -/
def State.finishFailed (s : State) (t : Fin 4) (q : Fin 64) (r : CmdRun) : State :=
  let s := s.dropFailed t q
  let s := s.modRecorded t q r (fun e => { e with done := true, failed := true, lastTick := s.tick.count })
  let e := s.endingOf t q r
  let s := if s.hostOpen t then s.logCommand t q r.n r.words e else s
  let s := (s.complete t q r.n r.words e).endColls t q r
  let s := (s.modQueue t q (fun x =>
    { x with run := none, state := if x.state == .deleting then .deleting else .halted })).bumpT t 0xA0C0 7 1
  s.setCause t 1

/-- A STATE_SECURE that takes no snapshot completes at the sluice that has decided so (R364, R365). -/
def State.finishSecure (s : State) (t : Fin 4) (q : Fin 64) (r : CmdRun) : State :=
  let s := (s.dropFailed t q).modQueue t q (fun x =>
    { x with run := none, ended := r.n, fence := r.n, avail := x.avail.drop 1 })
  s.finishDone { t := t, q := q, r := { r with effects := [] } }

/-- Whether a command is a STATE_SECURE that completes without a snapshot. -/
def CmdRun.noSnapshot (r : CmdRun) : Bool := cOp r.words == 0x48 && r.phase == 4 && r.fail.isNone && r.begun

/-- The commands that end in this sluice, as (tenancy, queue, entry), in the order of tenancies and queues. -/
def State.endedNow (s : State) (l : List Completed) : List (Fin 4 × Fin 64 × List W64) :=
  allTQ.flatMap (fun x =>
    ((l.filter (fun y => y.t == x.1 && y.q == x.2)).map (fun y => (x.1, x.2, y.r.words))) ++
    (match s.run x.1 x.2 with
     | some r => if r.fail.isSome || r.noSnapshot then [(x.1, x.2, r.words)] else []
     | none => []))

/-- Ends the commands of one queue: the one that completed, then a head that failed or takes no snapshot. -/
def State.finishQueue (s : State) (l : List Completed) (x : Fin 4 × Fin 64) : State :=
  let s := s.each (l.filter (fun y => y.t == x.1 && y.q == x.2)) State.finishDone
  match s.run x.1 x.2 with
  | none => s
  | some r =>
    if r.fail.isSome then s.finishFailed x.1 x.2 r
    else if r.noSnapshot then s.finishSecure x.1 x.2 r
    else s

/-- One message on each vector that received a record with IRQ set (R292). -/
def State.signal (s : State) (ended : List (Fin 4 × Fin 64 × List W64)) : State :=
  s.each allT (fun s t =>
    let vs := (ended.filter (fun x => x.1 == t && cIrq x.2.2)).map (fun x => (s.queue t x.2.1).vector)
    s.each ((List.range 63).filter (fun v => vs.contains v)) (fun s v => s.msix t v))

/-! ### Collectives, queues, quiescing -/

/-- Collectives that serve no COLLECTIVE end; a collective that still sends FAIL counts its ticks. -/
def State.finishColls (s : State) : State :=
  let s := s.each s.coll.colls (fun s x =>
    if x.2.use == .command || x.2.ended then s
    else if x.2.failed.isSome then s.endColl x.1
    else if x.2.done then (s.advanceSeq x.1).removeColl x.1
    else s)
  s.each s.groupsNow State.ringTail

/-- A queue that was deleted is ABSENT once its begun command has ended (R284); its fence and HEAD stay until it is created
again (R261). -/
def State.finishDeletes (s : State) : State :=
  s.each allTQ (fun s x => s.modQueue x.1 x.2 (fun y =>
    if y.state == .deleting && !((y.run.map (·.begun)).getD false) then
      { y with state := .absent, createPending := false, resumePending := false, avail := [], run := none }
    else y))

/-- Quiesced once no begun command is uncompleted (R275). -/
def State.finishQuiesce (s : State) : State :=
  if s.od.quiesceState = 1 && (s.queuesWith (fun _ _ r => r.begun)).isEmpty then
    ((({ s with od := { s.od with quiesceState := 2 } } : State).bump 0x902A 7 1)).each allT (fun s t => s.setCause t 4)
  else s

/-! ### The completion of a tenancy reset (R297) -/

/-- The values of a dictionary map outside the range of Tt. -/
def outsideRange {α : Type} (t : Fin 4) (m : KMap α) : KMap α := m.filter (fun x => x.1 / 65536 ≠ 0xA0 + t.val)

/-- The range of Tt takes its stored or default values (R313). -/
def State.reloadRange (s : State) (t : Fin 4) : State :=
  let s := { s with od := { s.od with
    live := outsideRange t s.od.live
    rwt := outsideRange t s.od.rwt
    rwb := outsideRange t s.od.rwb
    shadow := outsideRange t s.od.shadow
    counters := outsideRange t s.od.counters
    skipCommit := s.od.skipCommit.set t .idle
    quantCommit := s.od.quantCommit.set t .idle } }
  let stored := if s.flash.newest.intact then s.flash.newest.values else []
  s.each (stored.filter (fun x => x.1 / 65536 = 0xA0 + t.val)) State.loadValue

/-- Closes the codec contexts and the ingest streams of Tt; step 7 has given their reassembly areas to the pans. -/
def State.closeUnits (s : State) (t : Fin 4) : State :=
  let s := s.each (s.ingest.filter (fun (x : Nat × Stream) => x.2.owner == t)) (fun s x =>
    (s.modStream x.1 (fun y => { y with rxFrames := [] })).closeStream x.1)
  { s with codec := s.codec.filter (fun (x : Nat × CodecCtx) => x.2.owner != t) }

/-- The last step of a tenancy reset. -/
def State.finishReset (s : State) (t : Fin 4) : State :=
  let s := ((s.closeUnits t).reloadRange t).redigest
  let s := { s with od := { s.od with mbxSubs := s.od.mbxSubs.set t [], mbxPend := s.od.mbxPend.set t [] } }
  let s := s.modTen t (fun _ => Tenancy.reset)
  let s := s.modPort t (fun p => { HostPort.reset with perst := p.perst })
  s.bump (0x902B) (4 + 16 * t.val) 1

/-! ### Steps 12 and 13 -/

/-- The images of the STATE_SECURE commands admitted in this sluice take what step 12 has left (R363). -/
def State.patchImages (s : State) : State :=
  s.each (s.queuesWith (fun _ _ r => cOp r.words == 0x48 && r.begun && r.firstTick == s.tick.count && !r.blob.isEmpty))
    (fun s x => s.modRun x.1 x.2 (fun r => { r with blob := s.patchImage x.1 r.blob }))

/-- Remnants held at this sluice (OD 0x9024:09). -/
def State.countRemnants (s : State) : State :=
  let n := (s.mem.kv.filter (fun (x : Nat × KvFrame) => x.2.remnant.isSome)).length
  { s with od := { s.od with counters := kset s.od.counters (odKey 0x9024 9) n } }

/-- Step 12. -/
def State.completeStep (s : State) (l : List Completed) : State :=
  let ended := s.endedNow l
  let s := s.each allTQ (fun s x => s.finishQueue l x)
  let s := (s.finishColls).patchImages
  let s := ((s.signal ended).finishDeletes).finishQuiesce
  (s.each (allT.filter (fun t => s.ports[t].inReset)) State.finishReset).countRemnants

/-- Whether a frame, or the arena of a pinned KV frame, lies on a stack. -/
def frameOn (stack f : Nat) : Bool := stackOfFrame (if 2 ^ 40 ≤ f then (f - 2 ^ 40) / 32 else f) == stack

/-- Whether an admitted slice or command names a frame of a stack in its output page list, or pins one (R407). -/
def State.stackBusy (s : State) (stack : Nat) : Bool :=
  s.allSlices.any (fun x =>
    x.2.inTick &&
      ((x.2.fresh.map (·.frame) ++ x.2.outs.filterMap (fun o => (s.page x.1.t o.1).map (·.home))).any (frameOn stack) ||
       ((s.run x.1.t x.1.q).map (fun r => r.pinned.any (frameOn stack))).getD false))

/-- Full recalibrations start at a quiet boundary, and at a forced one (R407). -/
def State.startRecal (s : State) : State :=
  s.each s.health.recalRequest (fun s x =>
    if s.health.recalForce.contains x.1 || !s.stackBusy x.1 then
      s.modHealth (fun h => { h with
        recalRequest := kdel h.recalRequest x.1, recalForce := h.recalForce.filter (· != x.1),
        recalRunning := h.recalRunning.filter (· != x.1) ++ [x.1] })
    else s)

/-- Step 13: the tick runs; TICK goes to the followers (R335). -/
def State.startStep (s : State) : State :=
  let s := (s.boundaryTick).startRings
  (s.each allTQ (fun s x => s.secureStep x.1 x.2)).startRecal

end Sys2Proof.Machine
end

