-- ==== Sys2Proof/Machine/Sluice.lean ====
section
/-! DEFINITION. SLUICE: the steps of the sluice in their order (R36). -/
namespace Sys2Proof.Machine

open Sys2Proof

/-- Steps 9 to 13, with the charges of the ended tick and the commands that completed at step 6. -/
def State.boundarySteps (s : State) (env : SluiceEnv) (due : List (Fin 4 × Nat × Nat)) (l : List Completed) : State :=
  ((((s.swapStep l).accountStep env due).admitStep11).completeStep l).startStep

/-- The sluice of the next boundary; the accesses held in the one before it have been done. -/
def State.sluice (s : State) (env : SluiceEnv) : State :=
  let s := (s.each allT State.bar2Flush).latch env
  let due := s.chargesDue
  let d := ((s.discardStep).commitSteps).detach
  d.2.boundarySteps env due d.1

/-- SLUICE: the boundary comes while the module runs. -/
def execSluice (env : SluiceEnv) (s : State) : Host.Outcome State Fault Refusal :=
  noted (if s.power.running then s.sluice env else s)

end Sys2Proof.Machine
end

