-- ==== Sys2Proof/Machine/Strand.lean ====
section
/-! DEFINITION. Strands: how a context takes one (R55, R56, R61, R76), MARK (R74 to R76, R110) and END (R68, R74,
R43), with the strands of the built-in programs (R211, R343). -/
namespace Sys2Proof.Machine

open Sys2Proof

/-! ### The beginning of a strand (R61) -/

/-- The initial strand state. -/
def Strand.init (ref : SliceRef) (sl : Slice) (keys : Vector (BitVec 128) 4) (i : Nat) : Strand :=
  let s0 : Vector W64 32 := Vector.replicate 32 0
  { ref := ref, strand := i, rom := sl.rom, pc := 64,
    s := (s0.set 0 (BitVec.ofNat 64 i)).set 1 (BitVec.ofNat 64 (i - sl.strandBase)),
    v := Vector.replicate 32 (Vector.replicate 64 0),
    t := Vector.ofFn (fun j => nth sl.descs j.val 0),
    k := keys, tagEmpty := 0, async := [], waiting := 0, accA := Vector.replicate 64 [],
    accB := Vector.replicate 64 [], bankB := false, win := [], marks := 0, ordinal := 0, links := [], stopped := false }

/-- Where a save area holds a strand's state at the mark that ends segment j: two copies, used in turn, so that a
segment that is discarded can begin anew from the mark before it (R45, R76). -/
def saveKey (strand j : Nat) : Nat := 2 * strand + j % 2

/-- The strand that a context begins: from its start, or resumed from the state saved at the mark before its
segment (R76). -/
def Slice.begin (sl : Slice) (ref : SliceRef) (keys : Vector (BitVec 128) 4) (i : Nat) : Strand :=
  match sl.segment with
  | none => Strand.init ref sl keys i
  | some 0 => Strand.init ref sl keys i
  | some (j + 1) => (kget sl.saved (saveKey i j)).getD (Strand.init ref sl keys i)

/-! ### Deques (R54, R55) -/

/-- Strands in a deque. -/
def dequeSize (d : List Range) : Nat := (d.map (fun r => r.hi - r.lo)).sum

/-- The deque of a cluster. -/
def State.deque (s : State) (g : Nat) : List Range := if h : g < 32 then s.cores.deques[g] else []

/-- Replaces the deque of a cluster. -/
def State.setDeque (s : State) (g : Nat) (d : List Range) : State :=
  if h : g < 32 then { s with cores := { s.cores with deques := s.cores.deques.set g d } } else s

/-- The contexts of a core that hold a strand. -/
def State.busy (s : State) (core : Nat) : List (Nat × Strand) := s.cores.ctxs.filter (fun x => x.1 / 16 == core)

/-- Takes the lowest-numbered strand from the front of a deque. -/
def frontStrand : List Range → Option (SliceRef × Nat × List Range)
  | [] => none
  | r :: rest =>
    if r.lo < r.hi then some (r.ref, r.lo, if r.lo + 1 < r.hi then { r with lo := r.lo + 1 } :: rest else rest)
    else frontStrand rest

/-- The order in which a core tries the other clusters of a die (R55). -/
def clusterOrder : List Nat := [1, 7, 2, 6, 3, 5, 4]

/-- The victims of a core of cluster g, each with the strands that it must hold. -/
def stealVictims (g : Nat) : List Nat × List Nat :=
  let d := g / 8
  let c := g % 8
  let own := clusterOrder.map (fun o => 8 * d + (c + o) % 8)
  let far := [1, 2, 3].flatMap (fun x =>
    (0 :: clusterOrder).map (fun o => 8 * ((BitVec.ofNat 2 d ^^^ BitVec.ofNat 2 x).toNat) + (c + o) % 8))
  (own, far)

/-- The victim that a core of cluster g steals from: within its die, else in another. -/
def State.victim (s : State) (g : Nat) : Option Nat :=
  let v := stealVictims g
  ((v.1.find? (fun x => 2 ≤ dequeSize (s.deque x))).orElse (fun _ =>
    v.2.find? (fun x => 16 ≤ dequeSize (s.deque x))))

/-- The back half, rounded up, of the last range of a deque; the rest stays. -/
def backHalf (d : List Range) : Option (Range × List Range) :=
  match d.reverse with
  | [] => none
  | r :: rest =>
    let n := (r.hi - r.lo + 1) / 2
    let keep := r.hi - n
    some ({ r with lo := keep }, rest.reverse ++ (if r.lo < keep then [{ r with hi := keep }] else []))

/-- Steals for cluster g (R55). -/
def State.steal (s : State) (g : Nat) : State :=
  match s.victim g with
  | none => s
  | some x =>
    match backHalf (s.deque x) with
    | none => s
    | some (r, rest) =>
      let s := (s.setDeque x rest).setDeque g (s.deque g ++ [r])
      s.bump 0x9021 (if x / 8 = g / 8 then 2 else 3) (r.hi - r.lo)

/-- Whether a context may begin a strand of a slice: the core runs one slice at a time, in at most 2^CTX_LOG2
contexts (R56). -/
def State.mayBegin (s : State) (c : CtxId) (ref : SliceRef) (sl : Slice) : Bool :=
  let b := s.busy c.core.val
  b.all (fun x => x.2.ref == ref) && b.length < 2 ^ sl.ctxLog2 && c.ctx.val < 2 ^ sl.ctxLog2

/-- Begins the strand at the front of the deque of the context's cluster. -/
def State.beginFront (s : State) (c : CtxId) : State :=
  let g := clusterOf c.core.val
  match frontStrand (s.deque g) with
  | none => s
  | some (ref, i, rest) =>
    match s.slice ref, s.run ref.t ref.q with
    | some sl, some r =>
      if s.mayBegin c ref sl then
        let s := s.setDeque g rest
        let other := kget s.cores.coreSlice c.core.val != some ref
        let s := if other then
            -- another slice's program is loaded; the look-aside buffer is cleared (R142)
            { s with cores := { s.cores with coreSlice := kset s.cores.coreSlice c.core.val ref,
                                             lab := kdel s.cores.lab c.core.val } }
          else s
        s.setStrand c (sl.begin ref r.keys i)
      else s
    | _, _ => s.setDeque g rest

/-- Whether a core may steal: it runs nothing of another slice (DEDUCED, log entry 12). -/
def State.maySteal (s : State) (c : CtxId) : Bool :=
  match s.victim (clusterOf c.core.val) with
  | none => false
  | some x =>
    match backHalf (s.deque x) with
    | none => false
    | some (r, _) => (s.busy c.core.val).all (fun y => y.2.ref == r.ref)

/-- STRAND_TAKE: an idle context of an available core takes the lowest-numbered remaining strand of its cluster's
deque; when that is empty, its core steals first. -/
def execStrandTake (c : CtxId) (s : State) : Host.Outcome State Fault Refusal :=
  .next (if (s.strand c).isSome || !s.coreUp c.core.val then s
    else
      let g := clusterOf c.core.val
      if (frontStrand (s.deque g)).isSome then s.beginFront c
      else if s.maySteal c then ((s.setDeque g []).steal g).beginFront c
      else s)

/-! ### The end of a strand -/

/-- A strand of a slice has retired: its context is idle; with the last one of a slice that has nothing to
prepare, the slice has finished (R43). -/
def State.retire (s : State) (c : CtxId) (ref : SliceRef) : State :=
  let s := s.freeCtx c
  s.modSlice ref (fun sl =>
    let sl := { sl with remaining := sl.remaining - 1 }
    if sl.remaining = 0 && sl.state == .admitted && (sl.working.isEmpty || !sl.lastSegment) then
      { sl with state := .finished }
    else sl)

/-- END of a strand of an imaging program: it writes what it computes (DEDUCED, log entry 24), or stops with a fault. -/
def State.endImage (s : State) (c : CtxId) (st : Strand) (sl : Slice) : State :=
  match s.imgStrand st.ref st.strand sl.programOffset with
  | .error e => s.raise c st e.1 (BitVec.ofNat 64 e.2)
  | .ok s =>
    let s := if sl.lastSegment then s.bump 0x9021 1 1
      else (s.bump 0x9021 7 1).modSlice st.ref (fun sl =>
        { sl with saved := kset sl.saved (saveKey st.strand (sl.segment.getD 0)) (Strand.init st.ref sl st.k st.strand) })
    s.retire c st.ref

/-- END of a strand of a ring step: once it has sent and received; the last one writes the step's results. -/
def State.endRing (s : State) (c : CtxId) (st : Strand) (sl : Slice) : State :=
  if st.ringDone then
    let s := if sl.remaining = 1 then s.finishStep st.ref else s
    (s.bump 0x9021 1 1).retire c st.ref
  else s

/-- END. A strand of a built-in program, whose words the spec does not give, ends with its work done. -/
def execEndStrand (c : CtxId) (s : State) : Host.Outcome State Fault Refusal :=
  .next (match s.strand c with
    | none => s
    | some st =>
      if st.rom then
        if st.stopped then s
        else
          match s.slice st.ref with
          | none => s
          | some sl => if sl.ringStep then s.endRing c st sl else s.endImage c st sl
      else
        issueOp c 0x01 (fun st sl _ s =>
          if st.marks = sl.marks.length then (s.bump 0x9021 1 1).retire c st.ref
          else s.raisePc c st Config.errMarkMismatch) s)

/-! ### MARK -/

/-- Whether byte a of a window lies in a live region (R75). -/
def liveByte (live : BitVec 38) (storeBytes a : Nat) : Bool :=
  a < storeBytes && live.getLsbD (30 + a / max 1 (storeBytes / 8))

/-- What survives a mark (R75, R76, R110). -/
def Strand.survive (st : Strand) (live : BitVec 38) (storeBytes : Nat) : Strand :=
  let active := live.getLsbD 21
  let inactive := live.getLsbD 20
  let keepA := if st.bankB then inactive else active
  let keepB := if st.bankB then active else inactive
  { st with
    v := Vector.ofFn (fun i => if live.getLsbD (22 + i.val / 4) then st.v[i] else Vector.replicate 64 0)
    t := Vector.ofFn (fun i => if live.getLsbD (4 + i.val) then st.t[i] else 0)
    k := Vector.ofFn (fun i => if live.getLsbD i.val then st.k[i] else 0)
    accA := if keepA then st.accA else Vector.replicate 64 []
    accB := if keepB then st.accB else Vector.replicate 64 []
    win := st.win.filter (fun x => liveByte live storeBytes x.1)
    links := st.links.filter (fun l => (List.range l.len).all (fun i => liveByte live storeBytes (l.start + i)))
    tagEmpty := 0, async := [], waiting := 0 }

/-- MARK: checks the index BASE + s[SA], a sum that does not wrap (DESIGN CHOICE, log entry 65); in a segment that this
mark ends, saves the live state and stops the strand. -/
def execMark (c : CtxId) (s : State) : Host.Outcome State Fault Refusal :=
  .next (issueOp c 0x04 (fun st sl w s =>
    let j := fMBase w + (st.s[fMSA w]).toNat
    let ok := j < sl.marks.length && ((sl.marks[j]?).map (·.pc)).getD 0 == st.pc && st.marks == j
    if !ok then s.raisePc c st Config.errMarkMismatch
    else
      let st' := { st.next with marks := st.marks + 1 }
      if sl.segment = some j then
        let kept := st'.survive (fLive w) sl.storeBytes
        let s := s.modSlice st.ref (fun sl => { sl with saved := kset sl.saved (saveKey st.strand j) kept })
        (s.bump 0x9021 7 1).retire c st.ref
      else s.setStrand c st') s)

end Sys2Proof.Machine
end

