-- ==== Sys2Proof/Machine/Dispatch.lean ====
section
/-! DEFINITION. One arm for each command: the direct call of its meaning. -/
namespace Sys2Proof.Machine

open Sys2Proof

/-- The effect of a command on everything but the queue of waiting commands. -/
def exec (i : Instr) (s : State) : Host.Outcome State Fault Refusal :=
  match i with
  | .sluice env => Sys2Proof.Machine.execSluice env s
  | .nop c => Sys2Proof.Machine.execNop c s
  | .endStrand c => Sys2Proof.Machine.execEndStrand c s
  | .br c => Sys2Proof.Machine.execBr c s
  | .loop c => Sys2Proof.Machine.execLoop c s
  | .mark c => Sys2Proof.Machine.execMark c s
  | .twait c => Sys2Proof.Machine.execTwait c s
  | .rdsys c => Sys2Proof.Machine.execRdsys c s
  | .rdlen c => Sys2Proof.Machine.execRdlen c s
  | .li c => Sys2Proof.Machine.execLi c s
  | .lih c => Sys2Proof.Machine.execLih c s
  | .add c => Sys2Proof.Machine.execAdd c s
  | .sub c => Sys2Proof.Machine.execSub c s
  | .mul c => Sys2Proof.Machine.execMul c s
  | .muli c => Sys2Proof.Machine.execMuli c s
  | .and c => Sys2Proof.Machine.execAnd c s
  | .or c => Sys2Proof.Machine.execOr c s
  | .xor c => Sys2Proof.Machine.execXor c s
  | .shl c => Sys2Proof.Machine.execShl c s
  | .shr c => Sys2Proof.Machine.execShr c s
  | .sra c => Sys2Proof.Machine.execSra c s
  | .min c => Sys2Proof.Machine.execMin c s
  | .max c => Sys2Proof.Machine.execMax c s
  | .divui c => Sys2Proof.Machine.execDivui c s
  | .remui c => Sys2Proof.Machine.execRemui c s
  | .tdld c => Sys2Proof.Machine.execTdld c s
  | .tdst c => Sys2Proof.Machine.execTdst c s
  | .tdoff c => Sys2Proof.Machine.execTdoff c s
  | .tdsz c => Sys2Proof.Machine.execTdsz c s
  | .tload c => Sys2Proof.Machine.execTload c s
  | .tloadDone c which => Sys2Proof.Machine.execTloadDone c which s
  | .tstore c => Sys2Proof.Machine.execTstore c s
  | .tacc c => Sys2Proof.Machine.execTacc c s
  | .kld c => Sys2Proof.Machine.execKld c s
  | .kst c => Sys2Proof.Machine.execKst c s
  | .mma c => Sys2Proof.Machine.execMma c s
  | .aclr c => Sys2Proof.Machine.execAclr c s
  | .aswap c => Sys2Proof.Machine.execAswap c s
  | .drain c => Sys2Proof.Machine.execDrain c s
  | .vld c => Sys2Proof.Machine.execVld c s
  | .vst c => Sys2Proof.Machine.execVst c s
  | .vbc c => Sys2Proof.Machine.execVbc c s
  | .vidx c => Sys2Proof.Machine.execVidx c s
  | .vext c => Sys2Proof.Machine.execVext c s
  | .vadd c => Sys2Proof.Machine.execVadd c s
  | .vsub c => Sys2Proof.Machine.execVsub c s
  | .vmul c => Sys2Proof.Machine.execVmul c s
  | .vfma c => Sys2Proof.Machine.execVfma c s
  | .vmax c => Sys2Proof.Machine.execVmax c s
  | .vmin c => Sys2Proof.Machine.execVmin c s
  | .vun c => Sys2Proof.Machine.execVun c s
  | .vcmp c => Sys2Proof.Machine.execVcmp c s
  | .vsel c => Sys2Proof.Machine.execVsel c s
  | .vred c => Sys2Proof.Machine.execVred c s
  | .vexp2 c => Sys2Proof.Machine.execVexp2 c s
  | .vlog2 c => Sys2Proof.Machine.execVlog2 c s
  | .vcvt c => Sys2Proof.Machine.execVcvt c s
  | .smx c => Sys2Proof.Machine.execSmx c s
  | .xadd c => Sys2Proof.Machine.execXadd c s
  | .xbind c => Sys2Proof.Machine.execXbind c s
  | .kvapp c => Sys2Proof.Machine.execKvapp c s
  | .kvwalk c => Sys2Proof.Machine.execKvwalk c s
  | .kvskip c => Sys2Proof.Machine.execKvskip c s
  | .lsend c => Sys2Proof.Machine.execLsend c s
  | .lrecv c => Sys2Proof.Machine.execLrecv c s
  | .strandTake c => Sys2Proof.Machine.execStrandTake c s
  | .slicePrepare t q idx => Sys2Proof.Machine.execSlicePrepare t q idx s
  | .breakIn j => Sys2Proof.Machine.execBreakIn j s
  | .emergencyThrottle tauNs => Sys2Proof.Machine.execEmergencyThrottle tauNs s
  | .trip cause => Sys2Proof.Machine.execTrip cause s
  | .selftestRound => Sys2Proof.Machine.execSelftestRound s
  | .selftestResult core pass => Sys2Proof.Machine.execSelftestResult core pass s
  | .hbmRecalibrationRequest stack => Sys2Proof.Machine.execHbmRecalibrationRequest stack s
  | .quietWaitExpiry stack => Sys2Proof.Machine.execQuietWaitExpiry stack s
  | .hbmRecalibrationDone stack => Sys2Proof.Machine.execHbmRecalibrationDone stack s
  | .riskUpdate => Sys2Proof.Machine.execRiskUpdate s
  | .sramUncorrectableError site => Sys2Proof.Machine.execSramUncorrectableError site s
  | .hardwareFault cls unit => Sys2Proof.Machine.execHardwareFault cls unit s
  | .pinMigrationCopyDone t vpage => Sys2Proof.Machine.execPinMigrationCopyDone t vpage s
  | .stagedAccumulationDone t vpage => Sys2Proof.Machine.execStagedAccumulationDone t vpage s
  | .stagingCopyDone die ref => Sys2Proof.Machine.execStagingCopyDone die ref s
  | .panWorkDone t q => Sys2Proof.Machine.execPanWorkDone t q s
  | .tableSyncDone table => Sys2Proof.Machine.execTableSyncDone table s
  | .commandNop t q => Sys2Proof.Machine.execCommandNop t q s
  | .compute t q => Sys2Proof.Machine.execCompute t q s
  | .collective t q => Sys2Proof.Machine.execCollective t q s
  | .memMap t q => Sys2Proof.Machine.execMemMap t q s
  | .memUnmap t q => Sys2Proof.Machine.execMemUnmap t q s
  | .memPin t q => Sys2Proof.Machine.execMemPin t q s
  | .memQuery t q => Sys2Proof.Machine.execMemQuery t q s
  | .kvShare t q => Sys2Proof.Machine.execKvShare t q s
  | .kvRelease t q => Sys2Proof.Machine.execKvRelease t q s
  | .kvCommitDir t q => Sys2Proof.Machine.execKvCommitDir t q s
  | .panFill t q => Sys2Proof.Machine.execPanFill t q s
  | .panCopy t q => Sys2Proof.Machine.execPanCopy t q s
  | .panConvert t q => Sys2Proof.Machine.execPanConvert t q s
  | .panGather t q => Sys2Proof.Machine.execPanGather t q s
  | .panDigest t q => Sys2Proof.Machine.execPanDigest t q s
  | .imgConv t q => Sys2Proof.Machine.execImgConv t q s
  | .imgResize t q => Sys2Proof.Machine.execImgResize t q s
  | .imgPyramid t q => Sys2Proof.Machine.execImgPyramid t q s
  | .imgDetect t q => Sys2Proof.Machine.execImgDetect t q s
  | .codecOpen t q => Sys2Proof.Machine.execCodecOpen t q s
  | .codecDecode t q => Sys2Proof.Machine.execCodecDecode t q s
  | .codecEncode t q => Sys2Proof.Machine.execCodecEncode t q s
  | .codecClose t q => Sys2Proof.Machine.execCodecClose t q s
  | .codecFrameDone unit engine => Sys2Proof.Machine.execCodecFrameDone unit engine s
  | .ingestOpen t q => Sys2Proof.Machine.execIngestOpen t q s
  | .ingestBatch t q hostList => Sys2Proof.Machine.execIngestBatch t q hostList s
  | .ingestClose t q => Sys2Proof.Machine.execIngestClose t q s
  | .recordOpen t q => Sys2Proof.Machine.execRecordOpen t q s
  | .recordClose t q => Sys2Proof.Machine.execRecordClose t q s
  | .stateSecure t q => Sys2Proof.Machine.execStateSecure t q s
  | .stateRestore t q => Sys2Proof.Machine.execStateRestore t q s
  | .secureTransfer t => Sys2Proof.Machine.execSecureTransfer t s
  | .storageAck t datagram => Sys2Proof.Machine.execStorageAck t datagram s
  | .storageResendTimeout t => Sys2Proof.Machine.execStorageResendTimeout t s
  | .storageFailTimeout t => Sys2Proof.Machine.execStorageFailTimeout t s
  | .ready g m => Sys2Proof.Machine.execReady g m s
  | .start g m => Sys2Proof.Machine.execStart g m s
  | .piece g m => Sys2Proof.Machine.execPiece g m s
  | .counts g m => Sys2Proof.Machine.execCounts g m s
  | .verdict g m => Sys2Proof.Machine.execVerdict g m s
  | .decide g m => Sys2Proof.Machine.execDecide g m s
  | .verdictWaveTimeout g => Sys2Proof.Machine.execVerdictWaveTimeout g s
  | .collWaitExpiry t q => Sys2Proof.Machine.execCollWaitExpiry t q s
  | .inDoubtExpiry g => Sys2Proof.Machine.execInDoubtExpiry g s
  | .laneLockLoss p lane => Sys2Proof.Machine.execLaneLockLoss p lane s
  | .errorCountRetrain p => Sys2Proof.Machine.execErrorCountRetrain p s
  | .linkTrained p lanes nextSeq => Sys2Proof.Machine.execLinkTrained p lanes nextSeq s
  | .signalLoss p => Sys2Proof.Machine.execSignalLoss p s
  | .retrainTimer p => Sys2Proof.Machine.execRetrainTimer p s
  | .laneTestPass p lanes => Sys2Proof.Machine.execLaneTestPass p lanes s
  | .data p flit => Sys2Proof.Machine.execData p flit s
  | .control p flit => Sys2Proof.Machine.execControl p flit s
  | .retry p flit => Sys2Proof.Machine.execRetry p flit s
  | .idle p flit => Sys2Proof.Machine.execIdle p flit s
  | .retryRepeatTimer p => Sys2Proof.Machine.execRetryRepeatTimer p s
  | .idleTimer p => Sys2Proof.Machine.execIdleTimer p s
  | .ackTimeout p => Sys2Proof.Machine.execAckTimeout p s
  | .hello p m => Sys2Proof.Machine.execHello p m s
  | .helloTimer => Sys2Proof.Machine.execHelloTimer s
  | .neighbours p entries => Sys2Proof.Machine.execNeighbours p entries s
  | .neighboursTimer => Sys2Proof.Machine.execNeighboursTimer s
  | .view p viewSeq members => Sys2Proof.Machine.execView p viewSeq members s
  | .pondFormation => Sys2Proof.Machine.execPondFormation s
  | .tick p m => Sys2Proof.Machine.execTick p m s
  | .tickLoss => Sys2Proof.Machine.execTickLoss s
  | .offer p masterId distance port => Sys2Proof.Machine.execOffer p masterId distance port s
  | .delayReq p t1 nowNs => Sys2Proof.Machine.execDelayReq p t1 nowNs s
  | .delayReqTimer nowNs => Sys2Proof.Machine.execDelayReqTimer nowNs s
  | .delayResp p t1 t2 t3 t4 => Sys2Proof.Machine.execDelayResp p t1 t2 t3 t4 s
  | .credit p group count => Sys2Proof.Machine.execCredit p group count s
  | .countUp p tickCount => Sys2Proof.Machine.execCountUp p tickCount s
  | .tickPeriodChange => Sys2Proof.Machine.execTickPeriodChange s
  | .tickJump => Sys2Proof.Machine.execTickJump s
  | .cmdTail t q tail atNs entries => Sys2Proof.Machine.execCmdTail t q tail atNs entries s
  | .cplHead t q head => Sys2Proof.Machine.execCplHead t q head s
  | .create t q => Sys2Proof.Machine.execCreate t q s
  | .delete t q => Sys2Proof.Machine.execDelete t q s
  | .resume t q => Sys2Proof.Machine.execResume t q s
  | .eventCause t value => Sys2Proof.Machine.execEventCause t value s
  | .mbxCtrl t value => Sys2Proof.Machine.execMbxCtrl t value s
  | .mbxStatus t value => Sys2Proof.Machine.execMbxStatus t value s
  | .registerWrite t offset width value => Sys2Proof.Machine.execRegisterWrite t offset width value s
  | .bar2Read t offset count atNs => Sys2Proof.Machine.execBar2Read t offset count atNs s
  | .bar2Write t offset bytes atNs => Sys2Proof.Machine.execBar2Write t offset bytes atNs s
  | .bar2HoldRelease t => Sys2Proof.Machine.execBar2HoldRelease t s
  | .perstAssert t => Sys2Proof.Machine.execPerstAssert t s
  | .hotReset t => Sys2Proof.Machine.execHotReset t s
  | .linkDisable t => Sys2Proof.Machine.execLinkDisable t s
  | .dataLinkLoss t => Sys2Proof.Machine.execDataLinkLoss t s
  | .functionLevelReset t => Sys2Proof.Machine.execFunctionLevelReset t s
  | .d3hotToD0 t => Sys2Proof.Machine.execD3hotToD0 t s
  | .request src frame atNs => Sys2Proof.Machine.execRequest src frame atNs s
  | .storeDone ok => Sys2Proof.Machine.execStoreDone ok s
  | .jdpOpen src frame atNs => Sys2Proof.Machine.execJdpOpen src frame atNs s
  | .close src frame atNs => Sys2Proof.Machine.execClose src frame atNs s
  | .poll src frame atNs => Sys2Proof.Machine.execPoll src frame atNs s
  | .sessionIdleExpiry session => Sys2Proof.Machine.execSessionIdleExpiry session s
  | .frameDeferredApply => Sys2Proof.Machine.execFrameDeferredApply s
  | .notify => Sys2Proof.Machine.execNotify s
  | .installOpen port addr datagram => Sys2Proof.Machine.execInstallOpen port addr datagram s
  | .installData port addr datagram => Sys2Proof.Machine.execInstallData port addr datagram s
  | .installAckTimer => Sys2Proof.Machine.execInstallAckTimer s
  | .installDigestDone => Sys2Proof.Machine.execInstallDigestDone s
  | .installSignatureDone => Sys2Proof.Machine.execInstallSignatureDone s
  | .installStatus port addr datagram => Sys2Proof.Machine.execInstallStatus port addr datagram s
  | .abort port addr datagram => Sys2Proof.Machine.execAbort port addr datagram s
  | .remove port addr datagram => Sys2Proof.Machine.execRemove port addr datagram s
  | .attest port addr datagram => Sys2Proof.Machine.execAttest port addr datagram s
  | .fwOpen port addr datagram => Sys2Proof.Machine.execFwOpen port addr datagram s
  | .ingestDatagram port datagram => Sys2Proof.Machine.execIngestDatagram port datagram s
  | .hostSampleReadDone stream slot bytes => Sys2Proof.Machine.execHostSampleReadDone stream slot bytes s
  | .decodeBudgetExpiry stream => Sys2Proof.Machine.execDecodeBudgetExpiry stream s
  | .arrivalWaitExpiry stream => Sys2Proof.Machine.execArrivalWaitExpiry stream s
  | .modResetN => Sys2Proof.Machine.execModResetN s
  | .pwrGoodLoss => Sys2Proof.Machine.execPwrGoodLoss s
  | .inputApply => Sys2Proof.Machine.execInputApply s
  | .inputRemove => Sys2Proof.Machine.execInputRemove s
  | .resetRelease => Sys2Proof.Machine.execResetRelease s
  | .ppsIn offsetNs => Sys2Proof.Machine.execPpsIn offsetNs s
  | .flashSelN => Sys2Proof.Machine.execFlashSelN s
  | .smbStatus => Sys2Proof.Machine.execSmbStatus s
  | .smbStepping => Sys2Proof.Machine.execSmbStepping s
  | .smbSerial => Sys2Proof.Machine.execSmbSerial s
  | .smbModuleId => Sys2Proof.Machine.execSmbModuleId s
  | .smbHottest => Sys2Proof.Machine.execSmbHottest s
  | .smbHwFault => Sys2Proof.Machine.execSmbHwFault s
  | .smbSensors => Sys2Proof.Machine.execSmbSensors s
  | .perstDeassert t => Sys2Proof.Machine.execPerstDeassert t s
  | .bar0Read t offset width => Sys2Proof.Machine.execBar0Read t offset width s
  | .ptpSourceChange sources => Sys2Proof.Machine.execPtpSourceChange sources s
  | .ppsEdgeMissing => Sys2Proof.Machine.execPpsEdgeMissing s
  | .scrubDone => Sys2Proof.Machine.execScrubDone s
  | .diePinCopyDone t vpage => Sys2Proof.Machine.execDiePinCopyDone t vpage s
  | .correctedError site => Sys2Proof.Machine.execCorrectedError site s
  | .inputExcursion => Sys2Proof.Machine.execInputExcursion s
  | .thermalAlert sensor milliC => Sys2Proof.Machine.execThermalAlert sensor milliC s
  | .flashSelNRelease => Sys2Proof.Machine.execFlashSelNRelease s

end Sys2Proof.Machine
end

