-- ==== Sys2Proof/Safety.lean ====
section
/-! DEFINITION. What the statements call safe: the canonical memory, fuses that only grow, and the three facts that every
command keeps whatever it does (`State.Good`). -/
namespace Sys2Proof.Machine

open Sys2Proof

/-- Physical memory is in canonical form: addresses strictly rising, no entry equal to what an unlisted address reads. -/
def State.MemWf (s : State) : Prop := memWf s.mem.mem = true

/-- The fuses g are the fuses f, or f with further ROLLBACK bits blown: a blown bit stays, and everything else that the
part was made with stays (R375, R377, R398). -/
def FuseSt.Grew (f g : FuseSt) : Prop :=
  g.rootDigest = f.rootDigest ∧ g.identitySeed = f.identitySeed ∧ g.serial = f.serial ∧ g.issued = f.issued ∧
  g.certSignature = f.certSignature ∧ f.rollback &&& g.rollback = f.rollback

/-- The fuses have grown from f, P holds of the commands that wait and of the tick count, and memory is canonical. -/
def State.Good (f : FuseSt) (P : List Instr → Nat → Prop) (s : State) : Prop :=
  f.Grew s.fuses ∧ P s.pending s.tick.count ∧ s.MemWf

/-- The number of the coming boundary: one more than the last, or the number of an announced jump that falls due (R25,
R338). -/
def State.nextBoundary (s : State) : Nat :=
  (if s.net.jumpAt ≠ 0 && s.net.jumpAt = s.tick.count + 1 then max s.tick.count (s.net.jumpTo - 1) else s.tick.count) + 1

/-- Context c issues the instruction word w, whose opcode is op, of its strand st of the slice sl (R52, R65). -/
def State.Issues (s : State) (c : CtxId) (op : Nat) (st : Strand) (sl : Slice) (w : W64) : Prop :=
  s.issue c = .exec st sl w ∧ fOp w = op

/-- s after an instruction of context c has left it the strand st, and nothing else has changed but the model's own count
of free values. -/
def State.after (s : State) (c : CtxId) (st : Strand) : State := { s with free := s.free + 1 }.setStrand c st

/-- A window range is aligned and lies in the window of a slice (R61, R67). -/
def Slice.Fits (sl : Slice) (a n align : Nat) : Prop := a % align = 0 ∧ a + n ≤ sl.storeBytes

/-- What an instruction of context c may change when it goes on: the strand of c, and counters. -/
def State.SameBut (s t : State) (c : CtxId) (st : Strand) : Prop :=
  t.strand c = some st ∧ (∀ d, d ≠ c → t.strand d = s.strand d) ∧ t.mem = s.mem ∧ t.tens = s.tens ∧ t.ports = s.ports ∧
  t.tick = s.tick ∧ t.coll = s.coll ∧ t.net = s.net ∧ t.codec = s.codec ∧ t.ingest = s.ingest ∧ t.out = s.out

/-- The instructions that only control, or only work on scalar registers, descriptors and keys. -/
def scalarInstrs (c : CtxId) : List Instr :=
  [.nop c, .br c, .loop c, .twait c, .rdsys c, .rdlen c, .li c, .lih c, .add c, .sub c, .mul c, .muli c, .and c, .or c] ++
  [.xor c, .shl c, .shr c, .sra c, .min c, .max c, .divui c, .remui c, .tdld c, .tdst c, .tdoff c, .tdsz c, .kld c, .kst c]

/-- The instructions on vectors, accumulators and the window. -/
def vectorInstrs (c : CtxId) : List Instr :=
  [.mma c, .aclr c, .aswap c, .drain c, .vld c, .vst c, .vbc c, .vidx c, .vext c, .vadd c, .vsub c, .vmul c, .vfma c] ++
  [.vmax c, .vmin c, .vun c, .vcmp c, .vsel c, .vred c, .vexp2 c, .vlog2 c, .vcvt c, .smx c]

/-- The instructions that reach memory, cells or KV sequences, and MARK. -/
def memoryInstrs (c : CtxId) : List Instr :=
  [.mark c, .tload c, .tstore c, .tacc c, .xadd c, .xbind c, .kvapp c, .kvwalk c, .kvskip c]

/-- The head command r of queue q of Tt has the opcode op and passes the checks that every command's first admission makes: it
is a candidate, nothing bars admission, its unit has not failed, its record is open, and no operand addresses an absent model
(R32, R122, R262, R289, R290, R390, R395, R400, R409). u is the state in which it has become the head. -/
def State.Offered (s : State) (t : Fin 4) (q : Fin 64) (op : Nat) (u : State) (r : CmdRun) : Prop :=
  s.ensureHead t q 0 = u ∧ u.run t q = some r ∧ cOp r.words = op ∧ u.isCandidate t q = true ∧ u.barred = false ∧ u.unitDown t q r = false ∧
  u.recordError t q r = none ∧ u.absentOperand r.words = none

/-- The head command of queue q of Tt has been admitted in u: it is running, the effects fx are staged for its commit, its
result words are a and b, and `done` says whether its work is done when the tick ends (R203, R289). -/
def State.Admitted (u : State) (t : Fin 4) (q : Fin 64) (fx : List Effect) (a b : W64) (done : Bool) (v : State) : Prop :=
  ∃ r sl, v.run t q = some r ∧ r.begun = true ∧ r.fail = none ∧ r.effects = fx ∧ r.result0 = a ∧ r.result1 = b ∧
    r.opDone = done ∧ r.firstTick = u.tick.count ∧ v.slice (opRef t q) = some sl ∧ sl.state = .admitted ∧
    sl.admittedAt = u.tick.count

/-- A command that has failed with a code, an address and RESULT1. -/
def State.Failed (v : State) (t : Fin 4) (q : Fin 64) (code address reason : Nat) : Prop :=
  ∃ r, v.run t q = some r ∧ r.fail = some ⟨code, BitVec.ofNat 64 address, Config.noStrand, 0⟩ ∧
    r.result1 = BitVec.ofNat 64 reason

/-- The output pages of a command can be claimed now: its tenancy's quotas could supply them, no other work names them, and
the frames for them, and for the wide shadows they copy, are free (R33, R34, R109, R201, R426). -/
def State.ClaimOk (u : State) (t : Fin 4) (q : Fin 64) (outs : List (Nat × Bool)) : Prop :=
  u.stackPossible t outs.length = true ∧ u.outsFree t q 0 true (outs.map (·.1)) = true ∧
  u.stackAllowed t outs.length = true ∧
  u.shadowShort (opRef t q) outs.length 0 outs = none ∧
  (let w := ((u.putOpSlice t q outs).pinOuts t outs).roomFor t outs.length
   (w.takeFreshes (opRef t q) (w.auxStack t outs) outs).isSome = true)

/-- A slice whose image has been read passes the other checks of its admission: its output pages have no error and their wide
shadows fit the reserve, no other work names them, its demands are met, and its command's record can take it (R32 to R34, R109,
R395). The frames themselves are those of `State.takeFrames`. -/
def State.SliceReady (s : State) (ref : SliceRef) (sl : Slice) : Prop :=
  (sl.fresh ≠ [] ∨ (sl.outs.findSome? (s.outError ref.t) = none ∧ s.shadowShort ref sl.pageDemand 0 sl.outs = none)) ∧
  s.outsFree ref.t ref.q ref.idx false (sl.outs.map (·.1)) = true ∧ s.demandsMet ref.t sl = true ∧
  ∀ r, s.run ref.t ref.q = some r → r.begun = true ∨ s.recordError ref.t ref.q r = none

/-- The state in which the candidates of the j-th break-in point have been found: every queue has its head, and the commands of
class 3 have their slices (R272). -/
def State.atBreakIn (s : State) (j : Nat) : State :=
  let s := { s with tick := { s.tick with breakingIn := true } }
  let s := s.each allTQ (fun s x => s.ensureHead x.1 x.2 (j * 125000))
  s.each allTQ (fun s x => if s.effClassOf x.1 x.2 0 = 3 then s.readSlices x.1 x.2 else s)

/-- The pages that a codec, ingest or securing command may write: none has an error, and no other work names them. -/
def State.LazyOk (u : State) (t : Fin 4) (q : Fin 64) (pages : List Nat) : Prop :=
  (pages.eraseDups.map (fun v => (v, false))).findSome? (u.outError t) = none ∧
  u.outsFree t q 0 true pages.eraseDups = true

/-- The commands that are offered whole, with their opcodes and the checks of their first admission (R289). -/
def offeredCommands (t : Fin 4) (q : Fin 64) : List (Nat × Instr × OpCheck) :=
  [(0x00, .commandNop t q, nopCheck), (0x10, .memMap t q, memMapCheck), (0x11, .memUnmap t q, memUnmapCheck),
   (0x12, .memPin t q, memPinCheck), (0x13, .memQuery t q, memQueryCheck), (0x18, .kvShare t q, kvShareCheck),
   (0x19, .kvRelease t q, kvReleaseCheck), (0x1A, .kvCommitDir t q, kvCommitDirCheck)] ++
  [(0x20, .panFill t q, panFillCheck), (0x21, .panCopy t q, panCopyCheck), (0x22, .panConvert t q, panConvertCheck),
   (0x23, .panGather t q, panGatherCheck), (0x24, .panDigest t q, panDigestCheck), (0x30, .codecOpen t q, codecOpenCheck),
   (0x31, .codecDecode t q, codecDecodeCheck), (0x32, .codecEncode t q, codecEncodeCheck)] ++
  [(0x33, .codecClose t q, codecCloseCheck), (0x38, .ingestOpen t q, ingestOpenCheck),
   (0x3A, .ingestClose t q, ingestCloseCheck), (0x40, .recordOpen t q, recordOpenCheck),
   (0x41, .recordClose t q, recordCloseCheck), (0x48, .stateSecure t q, stateSecureCheck),
   (0x49, .stateRestore t q, stateRestoreCheck)]

end Sys2Proof.Machine
end

