-- ==== Sys2Proof/Certificates/Slice0/Obligations.lean ====
section
/-! DEFINITION. The statements for the provers: what a step of the block does, command by command, and what every step keeps.
Each says which rules of the specification it follows; where it rests on a choice of the model it names the log entry. -/

open Sys2Proof Sys2Proof.Machine

/-! ### The machine -/

/-- A step takes the command at the front of the queue and is exec of it with the queue's rest (the block's interface). -/
def Obligations.StepRunsFrontCommand : Prop :=
  ∀ (c : Instr) (rest : List Instr) (s : State), s.pending = c :: rest → step s = exec c { s with pending := rest }

/-- The queue of waiting commands is first in, first out: a step removes the front command and no command adds, drops or
reorders another. A step on an empty queue idles (both are the form of the model, log entry 4). -/
def Obligations.StepKeepsQueueOrder : Prop :=
  (∀ (c : Instr) (rest : List Instr) (s s' : State), s.pending = c :: rest → step s = .next s' → s'.pending = rest) ∧
  (∀ s : State, s.pending = [] → step s = .next s)

/-- Every step keeps physical memory in its canonical form, whatever the command (R159 to R168: the memory that all commands
share). -/
def Obligations.StepKeepsMemoryCanonical : Prop :=
  ∀ s s' : State, s.MemWf → step s = .next s' → s'.MemWf

/-- No step changes what is blown in the fuses but for blowing further bits of ROLLBACK: the root key's digest, the identity
seed, the serial number and the identity certificate stay, and a blown bit stays blown (R371, R375, R377). -/
def Obligations.StepNeverUnblowsFuses : Prop :=
  ∀ s s' : State, step s = .next s' → s.fuses.Grew s'.fuses

/-- Reset meets what every step keeps: memory is canonical, no command waits, no ROLLBACK bit is blown (the last is log entry
7). -/
def Obligations.ResetMeetsInvariants : Prop :=
  State.reset.MemWf ∧ State.reset.pending = [] ∧ State.reset.fuses.rollback = 0

/-- The tick count never decreases, whatever the command, but for those that reset the module and so lose it (R25, R338,
R401). -/
def Obligations.TickCountNeverDecreases : Prop :=
  ∀ (i : Instr) (s s' : State), i ≠ .modResetN → i ≠ .pwrGoodLoss → i ≠ .inputRemove → (∀ c, i ≠ .trip c) →
    exec i s = .next s' → s.tick.count ≤ s'.tick.count

/-! ### Scalar and control instructions -/

/-- The scalar instructions write s[SD] and go on with the next word; nothing else changes (R66, R68). -/
def Obligations.ScalarResults : Prop :=
  ∀ (s : State) (c : CtxId) (op : Nat) (st : Strand) (sl : Slice) (w : W64), s.Issues c op st sl w →
    let put := fun (v : W64) => Host.Outcome.next (s.after c (st.setS (fSD w) v).next)
    let a := st.s[fSA w]
    let b := st.s[fSB w]
    let sh := (b + fImmS w).toNat % 64
    (op = 0x06 → exec (.rdsys c) s = put (match (fImm w).toNat with
      | 0 => BitVec.ofNat 64 st.strand
      | 1 => BitVec.ofNat 64 (st.strand - sl.strandBase)
      | 2 => BitVec.ofNat 64 sl.strandCount
      | _ => BitVec.ofNat 64 sl.idx)) ∧
    (op = 0x07 → exec (.rdlen c) s = put (BitVec.ofNat 64 (nth sl.lens (fImm w).toNat 0 % 2 ^ 32))) ∧
    (op = 0x10 → exec (.li c) s = put (fImmS w)) ∧
    (op = 0x11 → exec (.lih c) s = put (fImm w ++ (st.s[fSD w]).extractLsb' 0 32)) ∧
    (op = 0x12 → exec (.add c) s = put (a + b + fImmS w)) ∧
    (op = 0x13 → exec (.sub c) s = put (a - b)) ∧
    (op = 0x14 → exec (.mul c) s = put (a * b)) ∧
    (op = 0x15 → exec (.muli c) s = put (a * fImmS w)) ∧
    (op = 0x16 → exec (.and c) s = put (a &&& b)) ∧
    (op = 0x17 → exec (.or c) s = put (a ||| b)) ∧
    (op = 0x18 → exec (.xor c) s = put (a ^^^ b)) ∧
    (op = 0x19 → exec (.shl c) s = put (a <<< sh)) ∧
    (op = 0x1A → exec (.shr c) s = put (a >>> sh)) ∧
    (op = 0x1B → exec (.sra c) s = put (a.sshiftRight sh)) ∧
    (op = 0x1C → exec (.min c) s = put (if a.toInt < b.toInt then a else b)) ∧
    (op = 0x1D → exec (.max c) s = put (if a.toInt < b.toInt then b else a)) ∧
    (op = 0x1E → exec (.divui c) s = put (a / (fImm w).zeroExtend 64)) ∧
    (op = 0x1F → exec (.remui c) s = put (a % (fImm w).zeroExtend 64))

/-- NOP goes on; BR goes to TARGET when its condition holds, else on; LOOP takes 1 from s[SA] and goes to TARGET unless it is
then 0 (R65, R68). TWAIT makes its context wait for exactly those loads in progress whose tags IMM names (R66, R68). -/
def Obligations.ControlAndWaitResults : Prop :=
  (∀ (s : State) (c : CtxId) (op : Nat) (st : Strand) (sl : Slice) (w : W64), s.Issues c op st sl w →
      let a := st.s[fBSA w]
      let b := st.s[fBSB w]
      let taken : Prop := match fCond w with
        | 0 => True
        | 1 => a = b
        | 2 => a ≠ b
        | 3 => a.toInt < b.toInt
        | 4 => b.toInt ≤ a.toInt
        | 5 => a.toNat < b.toNat
        | _ => b.toNat ≤ a.toNat
      (op = 0x00 → exec (.nop c) s = .next (s.after c st.next)) ∧
      (op = 0x02 → taken → exec (.br c) s = .next (s.after c { st with pc := fTarget w })) ∧
      (op = 0x02 → ¬ taken → exec (.br c) s = .next (s.after c st.next)) ∧
      (op = 0x03 → a ≠ 1 → exec (.loop c) s = .next (s.after c { st.setS (fBSA w) (a - 1) with pc := fTarget w })) ∧
      (op = 0x03 → a = 1 → exec (.loop c) s = .next (s.after c (st.setS (fBSA w) 0).next))) ∧
  (∀ (s : State) (c : CtxId) (st : Strand) (sl : Slice) (w : W64), s.Issues c 0x05 st sl w →
      ∃ st', exec (.twait c) s = .next (s.after c st') ∧ st'.pc = st.pc + 8 ∧ st'.s = st.s ∧ st'.v = st.v ∧ st'.t = st.t ∧
        st'.k = st.k ∧ st'.async = st.async ∧ st'.win = st.win ∧
        ∀ i : Fin 16, st'.waiting.getLsbD i = ((fImm w).getLsbD i && st.async.any (fun a => a.tag == i.val)))

/-- A context that waits, that is stopped, or that holds no strand issues nothing: the commands of instructions change nothing
(R52, R80; the model's log entry 11). -/
def Obligations.WaitingContextIssuesNothing : Prop :=
  ∀ (s : State) (c : CtxId), (∀ st, s.strand c = some st → st.waiting ≠ 0 ∨ st.stopped = true) →
    ∀ i ∈ scalarInstrs c ++ vectorInstrs c ++ memoryInstrs c, exec i s = .next s

/-! ### Descriptors, keys and the window -/

/-- The instructions on descriptors and keys complete when their window range is aligned and lies in the window, and when the
descriptor that they leave passes the descriptor check; a byte of the window that nothing has written reads as a free value
(R61, R63, R67, R68). -/
def Obligations.DescriptorAndKeyResults : Prop :=
  ∀ (s : State) (c : CtxId) (op : Nat) (st : Strand) (sl : Slice) (w : W64), s.Issues c op st sl w →
    let a := (st.s[fTSA w]).toNat + fTImm w
    let d := BitVec.ofNat 512 (ofLe (winRead (s.free + 1) st.win a 64))
    let moved := setBase st.t[fTB w] (BitVec.ofNat 64 (dBase st.t[fTB w]) + st.s[fTSA w]).toNat
    let sized := setSize st.t[fTA w] (fTImm w % 4) ((st.s[fTSA w]).toNat % 2 ^ 32)
    (op = 0x20 → sl.Fits a 64 64 → descValid d = true →
      exec (.tdld c) s = .next (s.after c (st.setT (fTA w) d).next)) ∧
    (op = 0x21 → sl.Fits a 64 64 →
      exec (.tdst c) s = .next (s.after c (st.store a (leBytes 64 (st.t[fTA w]).toNat)).next)) ∧
    (op = 0x22 → (BitVec.ofNat 64 (dBase st.t[fTB w]) + st.s[fTSA w]).toNat < 2 ^ 52 → descValid moved = true →
      exec (.tdoff c) s = .next (s.after c (st.setT (fTA w) moved).next)) ∧
    (op = 0x23 → descValid sized = true → exec (.tdsz c) s = .next (s.after c (st.setT (fTA w) sized).next)) ∧
    (op = 0x2B → sl.Fits a 16 16 →
      exec (.kld c) s = .next (s.after c (st.setK ((w.extractLsb' 52 2).toFin)
        (BitVec.ofNat 128 (ofLe (winRead (s.free + 1) st.win a 16)))).next)) ∧
    (op = 0x2C → sl.Fits a 16 16 →
      exec (.kst c) s = .next (s.after c (st.store a (leBytes 16 (st.k[((w.extractLsb' 52 2).toFin : Fin 4)]).toNat)).next))

/-- An instruction that reaches the window at a misaligned range raises ERR_ILLEGAL_INSTRUCTION, and at a range that leaves
the window ERR_STORE_OVERFLOW; the fault reports the instruction's place, the strand leaves its context, and memory stays
(R55, R67, R79, R80). -/
def Obligations.WindowFaults : Prop :=
  ∀ (s : State) (c : CtxId) (op : Nat) (st : Strand) (sl : Slice) (w : W64), s.Issues c op st sl w →
    let a := (st.s[fTSA w]).toNat + fTImm w
    let n := if op = 0x20 ∨ op = 0x21 then 64 else 16
    ¬ sl.Fits a n n →
    ∀ i ∈ ([(0x20, .tdld c), (0x21, .tdst c), (0x2B, .kld c), (0x2C, .kst c)] : List (Nat × Instr)), i.1 = op →
      ∃ t r, exec i.2 s = .next t ∧ t.strand c = none ∧ t.mem = s.mem ∧ t.run st.ref.t st.ref.q = some r ∧
        r.faults.getLast? = some ⟨st.ref.idx, st.strand,
          if a % n ≠ 0 then Config.errIllegalInstruction else Config.errStoreOverflow, locPc st.ref.idx st.pc⟩

/-! ### Vectors -/

/-- The lane-wise vector instructions write v[VD] and go on; nothing else changes. Lane i of the result comes from lane i of
the operands (R68, R87). -/
def Obligations.VectorLaneResults : Prop :=
  ∀ (s : State) (c : CtxId) (op : Nat) (st : Strand) (sl : Slice) (w : W64), s.Issues c op st sl w →
    let put := fun (f : Fin 64 → W32) => Host.Outcome.next (s.after c (st.setV (fSD w) (Vector.ofFn f)).next)
    let a := fun (i : Fin 64) => (st.v[fSA w])[i]
    let b := fun (i : Fin 64) => (st.v[fSB w])[i]
    let d := fun (i : Fin 64) => (st.v[fVC w])[i]
    let test := fun (x y : FVal) => match fFN w with
      | 0 => x.eqv y
      | 1 => x.lt y
      | 2 => x.le y
      | _ => !x.eqv y
    (op = 0x42 → exec (.vbc c) s = put (fun _ =>
      let x := (st.s[fTSA w]).setWidth 32
      if isNan32 x then nan32 else x)) ∧
    (op = 0x43 → exec (.vidx c) s = put (fun i => intF32 (st.s[fTSA w] + BitVec.ofNat 64 i.val).toInt)) ∧
    (op = 0x48 → exec (.vadd c) s = put (fun i => f32add (a i) (b i))) ∧
    (op = 0x49 → exec (.vsub c) s = put (fun i => f32sub (a i) (b i))) ∧
    (op = 0x4A → exec (.vmul c) s = put (fun i => f32mul (a i) (b i))) ∧
    (op = 0x4B → exec (.vfma c) s = put (fun i => f32fma (a i) (b i) (d i))) ∧
    (op = 0x4C → exec (.vmax c) s = put (fun i => f32max (a i) (b i))) ∧
    (op = 0x4D → exec (.vmin c) s = put (fun i => f32min (a i) (b i))) ∧
    (op = 0x4E → exec (.vun c) s = put (fun i => match fFN w with
      | 0 => f32abs (a i)
      | 1 => f32neg (a i)
      | _ => if isNan32 (a i) then nan32 else a i)) ∧
    (op = 0x50 → exec (.vcmp c) s = put (fun i => if test (f32v (a i)) (f32v (b i)) then one32 else 0)) ∧
    (op = 0x51 → exec (.vsel c) s = put (fun i => if (f32v (d i)).isZero then b i else a i)) ∧
    (op = 0x44 → ∀ (k : Fin 64), k.val = wbits w 0 6 →
      exec (.vext c) s = .next (s.after c (st.setS (fTSA w) ((a k).setWidth 64)).next))

/-- VRED reduces the 64 lanes in a balanced tree and writes lane 0, the other lanes as +0.0; VEXP2 and VLOG2 apply exp2 and
log2 to each lane and count under 9023:04 the NaN results of lanes that were not NaN (R68, R114 to R122). VLD widens 64
elements of the window exactly to FP32 lanes; VST converts the 64 lanes in two blocks of 32 by R88 and writes their elements
to the window; VCVT converts the lanes likewise and keeps the values as FP32. VLD, VST and VCVT go on and leave memory, queues
and tenancies as they were (R68, R85, R88, R99). -/
def Obligations.VectorReduceUnitAndConversionResults : Prop :=
  (∀ (s : State) (c : CtxId) (op : Nat) (st : Strand) (sl : Slice) (w : W64), s.Issues c op st sl w →
      let x := (st.v[fSA w]).toList
      let made := fun (f : W32 → W32) => (x.filter (fun v => !isNan32 v && isNan32 (f v))).length
      let unit := fun (f : W32 → W32) =>
        Host.Outcome.next ((s.after c (st.setV (fSD w) ((st.v[fSA w]).map f)).next).bump 0x9023 4 (made f))
      (op = 0x52 → exec (.vred c) s = .next (s.after c (st.setV (fSD w) (Vector.ofFn (fun (i : Fin 64) =>
        if i.val = 0 then
          (match fFN w with
            | 0 => tree64 f32add x
            | 1 => tree64 f32max x
            | _ => tree64 f32min x)
        else 0))).next)) ∧
      (op = 0x54 → exec (.vexp2 c) s = unit exp2F) ∧
      (op = 0x55 → exec (.vlog2 c) s = unit log2F)) ∧
  (∀ (s : State) (c : CtxId) (op : Nat) (st : Strand) (sl : Slice) (w : W64), s.Issues c op st sl w →
      let f := fFN w
      let n := fmtBits f / 8
      let a := (st.s[fTSA w]).toNat + fOff w
      let codes := unpackN (fmtBits f) (winRead (s.free + 1) st.win a (64 * n)) 64
      let plain := (chunks 32 2 (st.v[fSA w]).toList).map (fun l => convertBlock f (l.map f32v) (fun _ => none))
      let random := (chunks 32 2 (st.v[fSA w]).toList).mapIdx (fun k l => convertBlock f (l.map f32v) (fun i =>
        if w.getLsbD 40 then
          some (rngRand st.k[((w.extractLsb' 36 2).toFin : Fin 4)] (dTensorId st.t[freg4 w 41]) 0
            (st.s[fTSA w] + BitVec.ofNat 64 (32 * k + i)))
        else none))
      (op = 0x40 → sl.Fits a (64 * n) n → ∃ t, exec (.vld c) s = .next t ∧
        s.SameBut t c (st.setV (fSD w) (Vector.ofFn (fun (i : Fin 64) => round32 (decodeElem f (nth codes i 0))))).next) ∧
      (op = 0x41 → sl.Fits a (64 * n) 1 → ∃ t, exec (.vst c) s = .next t ∧
        s.SameBut t c (st.store a (packN (fmtBits f) (plain.flatMap (·.codes)))).next) ∧
      (op = 0x56 → ∃ t, exec (.vcvt c) s = .next t ∧
        s.SameBut t c (st.setV (fSD w) (Vector.ofFn (fun (i : Fin 64) =>
          nth (random.flatMap (fun b => b.codes.map (fun e =>
            round32 (applyScale (decodeElem f e) (if fmtScaled f || b.nanBlocks ≠ 0 then b.scale else 127))))) i 0))).next))

/-! ### The matrix engine -/

/-- ACLR completes with N columns of the bank that it names, from column CB on, cleared to +0.0, and ASWAP with the two banks
exchanged; each goes on with the next word and changes nothing else (R68, R70). MMA with a tag whose load was empty changes no
bank and counts under 9021:06. MMA whose window ranges are in order and whose sums all stay in range replaces exactly the
columns CB to CB + N − 1 of the 64 rows of the active bank by the sums, and only those; the inactive bank, the scalar and
vector registers, the window and memory stay (R68, R69, R92 to R96). -/
def Obligations.BankAndMmaResults : Prop :=
  (∀ (s : State) (c : CtxId) (op : Nat) (st : Strand) (sl : Slice) (w : W64), s.Issues c op st sl w →
      (op = 0x31 → exec (.aclr c) s = .next (s.after c (st.setBank (!fFlag w 32) (Vector.ofFn (fun (i : Fin 64) =>
        rowWrite (st.bank (!fFlag w 32))[i] (fCB w) (List.replicate (fN w) 0)))).next)) ∧
      (op = 0x32 → exec (.aswap c) s = .next (s.after c { st with bankB := !st.bankB, pc := st.pc + 8 }) ∧
        ({ st with bankB := !st.bankB } : Strand).bank true = st.bank false ∧
        ({ st with bankB := !st.bankB } : Strand).bank false = st.bank true)) ∧
  (∀ (s : State) (c : CtxId) (st : Strand) (sl : Slice) (w : W64), s.Issues c 0x30 st sl w →
      let n := fN w
      let k := fK w
      let fa := fFA w
      let fb := wbits w 36 4
      let a0 := readOperand (s.free + 1) st fa 64 k (st.s[fTSA w]).toNat
      let b0 := readOperand (s.free + 1) st fb n k (st.s[fTSB w]).toNat
      let a := (promote a0 (max a0.width b0.width)).1
      let b := (promote b0 (max a0.width b0.width)).1
      let cell := fun (i j : Nat) => accElem (decide (a.fmt = 1)) (a.e5m2 || b.e5m2)
        (if fFlag w 35 then 0 else nth (rowRead (nth (st.bank true).toList i []) (fCB w) n) j 0)
        (nth (operandRows a) i []) (nth (operandRows b) j [])
      let empty : Bool := (fTC w).val ≠ 0 && st.tagEmpty.getLsbD (fTC w).val
      (empty = true → ∃ t, exec (.mma c) s = .next t ∧ s.SameBut t c st.next ∧
        counter t.od 0x9021 6 = (counter s.od 0x9021 6 + 1) % 2 ^ 64) ∧
      (empty = false → sl.Fits (st.s[fTSA w]).toNat (matBytes fa 64 k) 64 → sl.Fits (st.s[fTSB w]).toNat (matBytes fb n k) 64 →
        (∀ i < 64, ∀ j < n, (cell i j).ovf = false) →
        ∃ t st', exec (.mma c) s = .next t ∧ s.SameBut t c st' ∧ st'.pc = st.pc + 8 ∧ st'.s = st.s ∧ st'.v = st.v ∧
          st'.win = st.win ∧ st'.bank false = st.bank false ∧
          ∀ i : Fin 64, (st'.bank true)[i] =
            rowWrite (st.bank true)[i] (fCB w) ((List.range n).map (fun j => (cell i.val j).val))))

/-- R94. An MMA of two BF16 tiles without links adds the exact products to each accumulator element one at a time, for k from
0 to K − 1, with one rounding to FP32 per step; the 64 × N sums replace the columns CB to CB + N − 1 of the active bank, as
long as no rounding of finite operands leaves the FP32 range (R96). -/
def Obligations.Bf16MmaSumsInOrder : Prop :=
  ∀ (s : State) (c : CtxId) (st : Strand) (sl : Slice) (w : W64), s.Issues c 0x30 st sl w →
    let n := fN w
    let k := fK w
    let offA := (st.s[fTSA w]).toNat
    let offB := (st.s[fTSB w]).toNat
    let elem := fun (off rows i j : Nat) =>
      decodeElem 1 (nth (unpackN 16 (winRead (s.free + 1) st.win off (2 * rows * k)) (rows * k)) (i * k + j) 0)
    let product := fun (i j m : Nat) => (elem offA 64 i m).mul (elem offB n j m)
    let start := fun (i j : Nat) =>
      if fFlag w 35 then 0 else nth (rowRead (nth (st.bank true).toList i []) (fCB w) n) j 0
    let acc := fun (i j m : Nat) =>
      (List.range m).foldl (fun x m => round32 ((f32v x).add (product i j m))) (start i j)
    fFA w = 1 → wbits w 36 4 = 1 → st.links = [] → ((fTC w).val = 0 ∨ st.tagEmpty.getLsbD (fTC w).val = false) →
    sl.Fits offA (matBytes 1 64 k) 64 → sl.Fits offB (matBytes 1 n k) 64 →
    (∀ i < 64, ∀ j < n, ∀ m < k, (f32v (acc i j m)).isFin = true → (product i j m).isFin = true →
      (f32v (acc i j (m + 1))).isFin = true) →
    ∃ t st', exec (.mma c) s = .next t ∧ s.SameBut t c st' ∧ st'.pc = st.pc + 8 ∧ st'.bank false = st.bank false ∧
      ∀ i : Fin 64, (st'.bank true)[i] = rowWrite (st.bank true)[i] (fCB w) ((List.range n).map (fun j => acc i.val j k))

/-- DRAIN takes N columns of the inactive bank from CB on, applies SCALE, BIAS and the activation, and writes the converted 64
× N tile to the window. Outside a fallback command the tile is converted as it is; in a fallback command its narrow form is
written, without the elements that the outlier path takes. The registers, the banks, memory and every other strand stay (R68,
R105, R106, R127). -/
def Obligations.DrainResults : Prop :=
  ∀ (s : State) (c : CtxId) (st : Strand) (sl : Slice) (w : W64), s.Issues c 0x33 st sl w →
    let n := fN w
    let f := fFA w
    let bias := fFlag w 39
    let scale := fFlag w 38
    let nv := (if bias then n else 0) + (if scale then n else 0)
    let off := (st.s[fTSA w]).toNat
    let src := (st.s[fTSB w]).toNat
    let param := fun (i : Nat) => BitVec.ofNat 32 (nth (unpackN 32 (winRead (s.free + 1) st.win src (4 * nv)) nv) i 0)
    let out := (List.finRange 64).map (fun i => (List.range n).map (fun j =>
      let a := nth (rowRead (st.bank false)[i] (fCB w) n) j 0
      let v := if bias && scale then f32fma a (param (n + j)) (param j)
        else if scale then f32mul a (param j)
        else if bias then f32add a (param j)
        else a
      activation (fTA w).val v))
    let rnd := fun (i j : Nat) =>
      if fFlag w 37 then
        some (rngRand st.k[((w.extractLsb' 35 2).toFin : Fin 4)] (dTensorId st.t[fTC w])
          (BitVec.ofNat 64 (64 * st.strand) + BitVec.ofNat 64 i) (st.s[((fTSB w) ||| 1 : Fin 32)] + BitVec.ofNat 64 j))
      else none
    sl.Fits off (matBytes f 64 n) 1 → (nv ≠ 0 → sl.Fits src (4 * nv) 1) →
    ((∀ r, s.run st.ref.t st.ref.q = some r → r.fallback = none) →
      ∃ t, exec (.drain c) s = .next t ∧
        s.SameBut t c { (st.store off (tileBytesOf f (convertTile f out rnd))).next with ordinal := st.ordinal + 1 }) ∧
    (∀ r p, s.run st.ref.t st.ref.q = some r → r.fallback = some p → f ∈ [2, 3, 4, 5, 8, 10] →
      ∃ t st', exec (.drain c) s = .next t ∧ t.strand c = some st' ∧ (∀ d, d ≠ c → t.strand d = s.strand d) ∧
        t.mem = s.mem ∧ st'.pc = st.pc + 8 ∧ st'.ordinal = st.ordinal + 1 ∧ st'.s = st.s ∧ st'.v = st.v ∧ st'.t = st.t ∧
        st'.k = st.k ∧ st'.accA = st.accA ∧ st'.accB = st.accB ∧ st'.bankB = st.bankB ∧
        st'.win = winWrite st.win off (tileBytesOf f (widen p r.wideStart f n out rnd).narrow))

/-- SMX steps the soft maximum of each row of the inactive bank: m becomes the largest of the old m and the row's admissible
scaled elements, the correction 2 to the power of old m less new m, l is taken over the converted terms, and the converted
tile goes to the window; a NaN or +infinity makes the row NaN. The banks, the scalar registers and memory stay (R128, R129).
-/
def Obligations.SmxResults : Prop :=
  ∀ (s : State) (c : CtxId) (st : Strand) (sl : Slice) (w : W64), s.Issues c 0x58 st sl w →
    let f := fFN w
    let n := fSmxN w
    let off := (st.s[fTSA w]).toNat
    let sigma := (st.s[fSmxSigma w]).setWidth 32
    let mOld := fun (i : Fin 64) => (st.v[fSD w])[i]
    let lOld := fun (i : Fin 64) => (st.v[fSB w])[i]
    let accs := fun (i : Fin 64) => rowRead (st.bank false)[i] (fSmxCB w) n
    let terms := fun (i : Fin 64) => ((accs i).mapIdx (fun j a =>
      if (FVal.ofInt j 0).lt (f32v (st.v[fSA w])[i]) then some (f32mul a sigma) else none)).filterMap id
    let bad := fun (i : Fin 64) => (terms i ++ [mOld i]).any (fun x => isNan32 x || x == inf32)
    let mNew := fun (i : Fin 64) => if bad i then nan32 else (terms i).foldl f32max (mOld i)
    let corr := fun (i : Fin 64) => if bad i then nan32 else if mNew i = ninf32 then one32 else exp2F (f32sub (mOld i) (mNew i))
    let row := fun (i : Fin 64) => smxRow f (accs i) (st.v[fSA w])[i] sigma (mOld i) (lOld i)
    sl.Fits off (matBytes f 64 n) 1 →
    ∃ t st', exec (.smx c) s = .next t ∧ s.SameBut t c st' ∧ st'.pc = st.pc + 8 ∧ st'.s = st.s ∧ st'.t = st.t ∧
      st'.k = st.k ∧ st'.accA = st.accA ∧ st'.accB = st.accB ∧ st'.bankB = st.bankB ∧
      st'.v[fVC w] = Vector.ofFn corr ∧
      (fSB w ≠ fVC w → st'.v[fSB w] = Vector.ofFn (fun i => (row i).l)) ∧
      (fSD w ≠ fSB w → fSD w ≠ fVC w → st'.v[fSD w] = Vector.ofFn mNew) ∧
      (∀ r : Fin 32, r ≠ fSD w → r ≠ fSB w → r ≠ fVC w → st'.v[r] = st.v[r]) ∧
      (∀ i : Fin 64, bad i = false → mNew i ≠ ninf32 →
        (row i).l = f32fma (lOld i) (corr i) ((chunks 64 (n / 64) ((row i).blocks.flatMap (blockValues f))).foldl
          (fun acc g => f32add acc (tree64 f32add g)) 0)) ∧
      st'.win = winWrite st.win off (tileBytesOf f ((List.finRange 64).flatMap (fun i => (row i).blocks)))

/-! ### Marks and the end of a strand -/

/-- A MARK that is due passes: the strand goes on, or, where the segment ends at it, its live state is saved and the strand
leaves its context. END after the last mark retires the strand and counts under 9021:01; with the last strand of a slice
without cells the slice has finished. A mark out of turn, and END before the last mark, raise ERR_MARK_MISMATCH (R43, R68, R74
to R76). -/
def Obligations.MarkAndEndResults : Prop :=
  ∀ (s : State) (c : CtxId) (op : Nat) (st : Strand) (sl : Slice) (w : W64), s.Issues c op st sl w →
    let j := fMBase w + (st.s[fMSA w]).toNat
    let due : Prop := j < sl.marks.length ∧ ((sl.marks[j]?).map (·.pc)).getD 0 = st.pc ∧ st.marks = j
    let less : Slice := { sl with remaining := sl.remaining - 1 }
    let done : Slice := if less.remaining = 0 ∧ sl.state = .admitted ∧ (sl.working = [] ∨ sl.lastSegment = false)
      then { less with state := .finished } else less
    (op = 0x04 → due → sl.segment ≠ some j → exec (.mark c) s = .next (s.after c { st.next with marks := st.marks + 1 })) ∧
    (op = 0x04 → due → sl.segment = some j → ∃ t sl', exec (.mark c) s = .next t ∧ t.strand c = none ∧ t.mem = s.mem ∧
      t.slice st.ref = some sl' ∧ sl'.remaining = sl.remaining - 1 ∧
      kget sl'.saved (saveKey st.strand j) =
        some ({ st.next with marks := st.marks + 1 }.survive (fLive w) sl.storeBytes)) ∧
    (op = 0x04 → ¬ due → ∃ t r, exec (.mark c) s = .next t ∧ t.strand c = none ∧ t.mem = s.mem ∧
      t.run st.ref.t st.ref.q = some r ∧
      r.faults.getLast? = some ⟨st.ref.idx, st.strand, Config.errMarkMismatch, locPc st.ref.idx st.pc⟩) ∧
    (op = 0x01 → st.marks = sl.marks.length → ∃ t, exec (.endStrand c) s = .next t ∧ t.strand c = none ∧
      (∀ d, d ≠ c → t.strand d = s.strand d) ∧ t.mem = s.mem ∧ t.tens = s.tens ∧ t.slice st.ref = some done ∧
      counter t.od 0x9021 1 = (counter s.od 0x9021 1 + 1) % 2 ^ 64) ∧
    (op = 0x01 → st.marks ≠ sl.marks.length → ∃ t r, exec (.endStrand c) s = .next t ∧ t.strand c = none ∧ t.mem = s.mem ∧
      t.run st.ref.t st.ref.q = some r ∧
      r.faults.getLast? = some ⟨st.ref.idx, st.strand, Config.errMarkMismatch, locPc st.ref.idx st.pc⟩)

/-! ### Tiles -/

/-- A TLOAD of a tile that its slice can reach starts an asynchronous load with the tile's bytes and goes on; a tile wholly
beyond the effective sizes starts an empty one and reads nothing. The tag's empty flag is that of its most recent TLOAD. When
a load is ready TLOAD_DONE writes its bytes to the window and lets the strand go on once nothing that it waits for is in
progress. No byte of memory changes (R66, R68, R73). -/
def Obligations.TloadResults : Prop :=
  (∀ (s : State) (c : CtxId) (st : Strand) (sl : Slice) (w : W64), s.Issues c 0x28 st sl w →
    let x := tileRef st w
    let u := { s with free := s.free + 1 }
    descValid x.d = true → (fmtScaled (dFmt x.d) = true → x.o.1 % 32 = 0) → sl.Fits x.off x.bytes 64 →
    (x.beyond sl.lens = true → ∃ t, exec (.tload c) s = .next t ∧ s.SameBut t c
      { st.next.noteEmpty (fTC w).val true with async := st.async ++ [⟨(fTC w).val, x.off, [], true, none, none⟩] }) ∧
    (x.beyond sl.lens = false → checkRanges (u.reachSlice st.ref) (x.ranges sl.lens) = none →
      ∃ t a, exec (.tload c) s = .next t ∧ t.strand c = some { st.next.noteEmpty (fTC w).val false with async := st.async ++ [a] } ∧
        (∀ d, d ≠ c → t.strand d = s.strand d) ∧ t.mem.mem = s.mem.mem ∧ t.coll = s.coll ∧ t.net = s.net ∧ t.out = s.out ∧
        a.tag = (fTC w).val ∧ a.dest = x.off ∧ a.bytes = (u.loadTile st.ref sl.lens x).1 ∧ a.ready = true)) ∧
  (∀ (s : State) (c : CtxId) (i : Nat) (st : Strand) (a : AsyncLoad), s.strand c = some st → st.async[i]? = some a →
    a.ready = true →
    ∃ st', exec (.tloadDone c i) s = .next (s.setStrand c st') ∧ st'.async = st.async.eraseIdx i ∧ st'.pc = st.pc ∧
      st'.s = st.s ∧ st'.v = st.v ∧ st'.t = st.t ∧ st'.k = st.k ∧ st'.accA = st.accA ∧ st'.accB = st.accB ∧
      st'.win = (if a.bytes = [] then st.win else winWrite st.win a.dest a.bytes) ∧
      st'.waiting = (st.waiting &&& st'.busyTags) ∧ st'.tagEmpty = st.tagEmpty)

/-- A TSTORE whose rows lie in fresh output pages of its slice writes those rows, and no other byte of memory changes: the
address of a stored byte is the row's address of the tile plus the byte's place, in the frame of the slice's own page. Where
wide blocks are involved the shadow must find its frames. A tile wholly beyond the effective sizes stores nothing (R68, R73,
R109). A stored tile of one row within one page reads back: the bytes of its row are the row's bytes before, with the codes of
the valid elements put in from the window (R68, R73). -/
def Obligations.TstoreResults : Prop :=
  (∀ (s : State) (c : CtxId) (st : Strand) (sl : Slice) (w : W64), s.Issues c 0x29 st sl w →
      let x := tileRef st w
      let u := { s with free := s.free + 1 }
      let link := st.links.find? (fun l => l.start == x.off && l.len == x.bytes)
      let stored : Nat → Prop := fun p =>
        ∃ r < x.vrows sl.lens, ∃ a f, sl.outFrame (pageOf a) = some f ∧ p = phys f a ∧
          ((x.rowAddr r ≤ a ∧ a < x.rowAddr r + ceilDiv (x.vcols sl.lens * x.b) 8) ∨
           (x.sc = true ∧ x.scaleAddr r ≤ a ∧ a < x.scaleAddr r + ceilDiv (x.vcols sl.lens) 32))
      descValid x.d = true → (fmtScaled (dFmt x.d) = true → x.o.1 % 32 = 0) → sl.Fits x.off x.bytes 64 →
      (x.beyond sl.lens = true → exec (.tstore c) s = .next (s.after c st.next)) ∧
      (x.beyond sl.lens = false → u.foreignAddr sl (x.ranges sl.lens) = none → link = none →
        (∀ v f, sl.outFrame v = some f → kget s.mem.shadows f = none) →
        ∃ t, exec (.tstore c) s = .next t ∧ t.strand c = some st.next ∧ (∀ d, d ≠ c → t.strand d = s.strand d) ∧
          t.tens = s.tens ∧ t.out = s.out ∧ ∀ p, ¬ stored p → t.pbyte p = s.pbyte p) ∧
      (∀ v, x.beyond sl.lens = false → u.foreignAddr sl (x.ranges sl.lens) = none → u.storeShadow st.ref sl x link = .ok v →
        ∃ t, exec (.tstore c) s = .next t ∧ t.strand c = some st.next ∧ (∀ d, d ≠ c → t.strand d = s.strand d) ∧
          (∀ p, ¬ stored p → t.pbyte p = v.pbyte p) ∧ ∀ p, v.pbyte p = s.pbyte p ∨ v.pbyte p = 0)) ∧
  (∀ (s : State) (c : CtxId) (st : Strand) (sl : Slice) (w : W64), s.Issues c 0x29 st sl w →
      let x := tileRef st w
      let u := { s with free := s.free + 1 }
      let n := ceilDiv (x.vcols sl.lens * x.b) 8
      ∀ f v, descValid x.d = true → fmtScaled (dFmt x.d) = false → sl.Fits x.off x.bytes 64 → x.beyond sl.lens = false →
      u.foreignAddr sl (x.ranges sl.lens) = none → x.vrows sl.lens = 1 → sl.outFrame (pageOf (x.rowAddr 0)) = some f →
      pageOf (x.rowAddr 0) = pageOf (x.rowAddr 0 + n - 1) →
      u.storeShadow st.ref sl x (st.links.find? (fun l => l.start == x.off && l.len == x.bytes)) = .ok v →
      ∃ t, exec (.tstore c) s = .next t ∧ ∀ i < n, t.pbyte (phys f (x.rowAddr 0) + i) =
        nth (mergeRow x.b (v.readVia (u.reachSlice st.ref) (x.rowAddr 0) n)
          (unpackN x.b (winRead (s.free + 1) st.win x.off (tileBytes (dFmt x.d) 1 x.cols)) (x.vcols sl.lens))) i 0)

/-- A TACC without a conflict stages its valid elements for the pages that they lie in, each at its address, and changes no
memory; a page that another command has staged to, or that a cell is bound to, raises ERR_ACCUM_CONFLICT (R40, R68, R73,
R201). -/
def Obligations.TaccResults : Prop :=
  ∀ (s : State) (c : CtxId) (st : Strand) (sl : Slice) (w : W64), s.Issues c 0x2A st sl w →
    let x := tileRef st w
    let u := { s with free := s.free + 1 }
    let n := x.b / 8
    let rowBytes := tileBytes (dFmt x.d) 1 x.cols
    let elems := (List.range (x.vrows sl.lens)).flatMap (fun r =>
      (unpackN x.b (winRead u.free st.win (x.off + r * rowBytes) (x.vcols sl.lens * n)) (x.vcols sl.lens)).mapIdx
        (fun j code => (x.rowAddr r + j * n, BitVec.ofNat 32 code)))
    let pages := rangePages (x.ranges sl.lens)
    let busy := fun v => s.otherRun st.ref.t st.ref.q (·.stages v) || s.anyRun st.ref.t (·.binds v)
    descValid x.d = true → dFmt x.d < 2 → sl.Fits x.off x.bytes 64 →
    (x.beyond sl.lens = true → exec (.tacc c) s = .next (s.after c st.next)) ∧
    (x.beyond sl.lens = false → u.foreignAddr sl (x.ranges sl.lens) = none → (∀ v ∈ pages, busy v = false) →
      ∀ r, s.run st.ref.t st.ref.q = some r →
      ∃ t, exec (.tacc c) s = .next t ∧ t.strand c = some st.next ∧ (∀ d, d ≠ c → t.strand d = s.strand d) ∧
        t.mem.mem = s.mem.mem ∧ t.run st.ref.t st.ref.q = some { r with staged := pages.foldl (fun l v =>
          addStaged l st.ref.idx v (dFmt x.d) (elems.filter (fun e => pageOf e.1 == v))) r.staged }) ∧
    (x.beyond sl.lens = false → u.foreignAddr sl (x.ranges sl.lens) = none → ∀ v, pages.find? busy = some v →
      ∃ t r, exec (.tacc c) s = .next t ∧ t.mem = s.mem ∧ t.run st.ref.t st.ref.q = some r ∧
        r.faults.getLast? = some ⟨st.ref.idx, st.strand, Config.errAccumConflict,
          BitVec.ofNat 64 (v * Config.pageBytes)⟩)

/-! ### Cells -/

/-- XADD adds its lanes, in lane order, to the working cells that it names and goes on; XBIND binds the N working cells from
FIRST on to consecutive destinations and goes on. Neither changes memory. A cell beyond the slice's working cells raises
ERR_CELL_RANGE (R68, R190 to R192). -/
def Obligations.CellInstructionResults : Prop :=
  ∀ (s : State) (c : CtxId) (op : Nat) (st : Strand) (sl : Slice) (w : W64), s.Issues c op st sl w →
    let first := (st.s[fTSA w]).toNat
    let lanes := (List.finRange 64).filterMap (fun i =>
      xaddLane (fFN w) first (wbits w 0 16) i.val (st.v[fSA w])[i] (st.v[fSB w])[i])
    let n := fTImm w
    let width := cellWidth (fFA w)
    let dests := (List.range n).map (fun m => (st.s[fTSB w]).toNat + m * width)
    (op = 0x60 → (∀ a ∈ lanes, a.1 < sl.working.length) →
      ∃ t, exec (.xadd c) s = .next t ∧ t.strand c = some st.next ∧ (∀ d, d ≠ c → t.strand d = s.strand d) ∧
        t.mem = s.mem ∧ t.tens = s.tens ∧
        t.slice st.ref = some { sl with working := lanes.foldl (fun l a => modNth l a.1 a.2) sl.working }) ∧
    (op = 0x60 → (∃ a ∈ lanes, sl.working.length ≤ a.1) →
      ∃ t r, exec (.xadd c) s = .next t ∧ t.mem = s.mem ∧ t.run st.ref.t st.ref.q = some r ∧
        r.faults.getLast? = some ⟨st.ref.idx, st.strand, Config.errCellRange, locPc st.ref.idx st.pc⟩) ∧
    (op = 0x61 → first + n ≤ sl.working.length → (∀ k ∈ (sl.working.drop first).take n, k.bound = false) →
      (st.s[fTSB w]).toNat % width = 0 → s.statsError st.ref.t st.ref.q (fFlag w 39) (fFA w) dests = none →
      s.bindError st.ref.t st.ref.q dests = none →
      ∃ t sl', exec (.xbind c) s = .next t ∧ t.strand c = some st.next ∧ (∀ d, d ≠ c → t.strand d = s.strand d) ∧
        t.mem.mem = s.mem.mem ∧ t.slice st.ref = some sl' ∧ sl'.working.length = sl.working.length ∧
        ∀ i k, sl.working[i]? = some k → sl'.working[i]? = some
          (if first ≤ i ∧ i < first + n then
            { k with bound := true, add := fFlag w 39, fmt := fFA w, expect := wbits w 44 12,
                     dest := (st.s[fTSB w]).toNat + (i - first) * width }
          else k))

/-! ### KV sequences -/

/-- A KVWALK that finds its page present starts an asynchronous load with the frame's bytes, the tokens at or beyond the valid
count zeroed, and with IMM [0] the page summary behind; a KVSKIP writes 0 or 1 to s[TA]: 1 exactly where skipping is enabled,
the page is not the block's own, and every row of the record bounds below its anchor less T. Neither changes a byte of memory
(R135, R141, R155, R156). -/
def Obligations.KvReadResults : Prop :=
  ∀ (s : State) (c : CtxId) (op : Nat) (st : Strand) (sl : Slice) (w : W64), s.Issues c op st sl w →
    let u := { s with free := s.free + 1 }
    let t0 := st.ref.t
    let desc := (st.s[fTSA w]).toNat
    let h := (st.s[(fTSA w + 1 : Fin 32)]).toNat
    let pos := (st.s[(fTSA w + 2 : Fin 32)]).toNat
    let off := (st.s[fTSB w]).toNat
    let answer := fun (n : Nat) => (st.setS ((fTA w).castLE (by decide)) (BitVec.ofNat 64 n)).next
    (op = 0x69 → ∀ q pe e0 v, u.walk c.core.val t0 desc h pos = .ok (q, pe, e0, v) →
      let e := v.heldEntry st.ref pe e0
      let more := if w.getLsbD 0 then 4 * q.dim else 0
      sl.Fits off Config.kvFrameBytes 1 → sl.Fits off (Config.kvFrameBytes + more) 1 → peValid e = true →
      peEvicted e = false → (s.frameFailed (peFrame e / 32) = false ∨ ((s.kvRec (peFrame e)).bind (·.staged)).isSome = true) →
      ∃ t a, exec (.kvwalk c) s = .next t ∧ t.strand c = some { st.next with async := st.async ++ [a] } ∧
        (∀ d, d ≠ c → t.strand d = s.strand d) ∧ t.mem.mem = s.mem.mem ∧ t.tens = s.tens ∧ t.ports = s.ports ∧
        a.tag = (fTC w).val ∧ a.dest = off ∧ a.ready = true ∧
        a.bytes = kvMask q (peCount e) (memReadN s.mem.mem (kvPhys (peFrame e)) Config.kvFrameBytes) ++
          (if more = 0 then [] else (((s.kvRec (peFrame e)).map (·.summary)).getD []).flatMap (fun x => leBytes 4 x.toNat))) ∧
    (op = 0x6A → ∀ q, s.seqAt t0 desc = .ok q →
      let g := headGroup q desc h
      let rec_ := winRead u.free st.win off (320 + 64 * g.1 * q.dim * 4)
      let cfg := ((s.run t0 st.ref.q).map (fun r => nth r.skip q.skipIndex (0, 0))).getD (0, 0)
      let words := (unpackN 32 rec_ ((320 + 64 * g.1 * q.dim * 4) / 4)).map (BitVec.ofNat 32)
      sl.Fits off (320 + 64 * g.1 * q.dim * 4) 64 →
      (cfg.1 = 0 → exec (.kvskip c) s = .next (s.after c (answer 0))) ∧
      (cfg.1 ≠ 0 → leAt rec_ 260 4 / q.tpp = pos / q.tpp →
        ∃ t, exec (.kvskip c) s = .next t ∧ s.SameBut t c (answer 0)) ∧
      (cfg.1 ≠ 0 → leAt rec_ 260 4 / q.tpp ≠ pos / q.tpp → ∀ q' pe e0 v, u.walk c.core.val t0 desc h pos = .ok (q', pe, e0, v) →
        let e := v.heldEntry st.ref pe e0
        let rows := (List.range 64).map (fun i => (nth words i 0, (words.drop (80 + (i * g.1 + g.2) * q.dim)).take q.dim))
        let sum := ((s.kvRec (peFrame e)).map (·.summary)).getD []
        let skip := skipRows rows sum (nth words 64 0) (BitVec.ofNat 32 cfg.2)
        peValid e = true →
        ∃ t, exec (.kvskip c) s = .next t ∧ s.SameBut t c (answer (if peEvicted e = false ∧ skip = true then 1 else 0))))

/-- KVAPP completes when its window range lies in the window, no page of the append faults (its entries are walked, no token
lies below a valid count or in an evicted page, no other slice has taken the page in this tick, KV_PAGES covers what it takes)
and the arenas of its tenancy have two free KV pages for each page: it goes on with every appended token in the brine of its
slice, at its position, with the keys and values of the window. Only arena frames and the frames that the slice has taken
change (R141, R144 to R149). -/
def Obligations.KvappResults : Prop :=
  ∀ (s : State) (c : CtxId) (st : Strand) (sl : Slice) (w : W64), s.Issues c 0x68 st sl w →
    let u := { s with free := s.free + 1 }
    let t0 := st.ref.t
    let desc := (st.s[fTSA w]).toNat
    let h := (st.s[(fTSA w + 1 : Fin 32)]).toNat
    let pos := (st.s[(fTSA w + 2 : Fin 32)]).toNat
    let n := wbits w 0 7
    let off := (st.s[fTSB w]).toNat
    ∀ q pe0 e0, u.resolve t0 desc h pos = .ok (q, pe0, e0) → sl.Fits off (n * q.dim * 8) 1 → pos + n ≤ 2 ^ 24 →
    let pages := ((List.range n).map (fun i => (pos + i) / q.tpp)).eraseDups
    let found := u.walkPages c.core.val t0 desc h q.tpp pages
    let words := (unpackN 32 (winRead u.free st.win off (n * q.dim * 8)) (2 * n * q.dim)).map (fun v => canon32 (BitVec.ofNat 32 v))
    u.appendFault st.ref sl desc h pos sl.kvUsed found.1 = none →
    (∃ free : List Nat, free.Nodup ∧ 2 * pages.length ≤ free.length ∧ ∀ f ∈ free, u.kvSlotUsed f = false ∧ f % 32 < 30 ∧
      ∃ k ∈ u.stacks, f / 32 ∈ u.arenas t0 k) →
    ∃ t sl', exec (.kvapp c) s = .next t ∧ t.strand c = some st.next ∧ (∀ d, d ≠ c → t.strand d = s.strand d) ∧
      t.slice st.ref = some sl' ∧
      (∀ i < n, ∃ g ∈ sl'.brine, g.desc = desc ∧ g.head = h ∧ g.page = (pos + i) / q.tpp ∧ g.group = (pos + i) % q.tpp / 32 ∧
        ∃ k ∈ g.tokens, k.pos = pos + i ∧ k.keys = (words.drop (i * q.dim)).take q.dim ∧
          k.values = (words.drop ((n + i) * q.dim)).take q.dim) ∧
      (∀ p, t.pbyte p ≠ s.pbyte p → kget t.mem.frameUse (p / Config.pageBytes) = some (.arena t0) ∨
        ∃ k ∈ sl'.taken, kvPhys k.frame ≤ p ∧ p < kvPhys k.frame + Config.kvFrameBytes)

/-! ### Built-in programs, and how strands begin and slices finish -/

/-- A strand of a ring step's ROM program sends once: LSEND notes its part, and with the last strand's part the chunk
has left. LRECV begins to receive once, asynchronously, ready when the piece has come in (R66, R345; where its program
takes these steps is log entry 31). In any other program LSEND sends the bytes of its word from the window as its piece,
and LRECV begins to receive its piece into the window (R68; a slice of no running ring step sends and receives nothing,
log entry 31). An idle context of an available core takes the lowest-numbered strand at the front of its cluster's
deque; where that deque is empty, it takes the first of the strands that its core steals from the back of its victim's.
A strand that is not resumed begins with s[0] its number, s[1] its number less STRAND_BASE, the slice's descriptors and
the command's keys, everything else 0, at the program's first instruction (R54 to R56, R61). -/
def Obligations.StrandBeginAndRingResults : Prop :=
  (∀ (s : State) (c : CtxId) (st : Strand) (g : Nat) (k : Coll) (r : RingRun), s.strand c = some st → st.rom = true →
      st.stopped = false → s.ringGroup st.ref = some (g, k, r) → s.collOf g = some k →
      (st.marks = 0 → ∀ sl, s.slice st.ref = some sl →
        ∃ t k', exec (.lsend c) s = .next t ∧ t.strand c = some { st with marks := 1 } ∧
          (∀ d, d ≠ c → t.strand d = s.strand d) ∧ t.mem = s.mem ∧ t.tens = s.tens ∧ t.collOf g = some k' ∧
          k'.cur = some { r with sends := r.sends + 1, sent := r.sent || decide (r.sends + 1 = sl.strandCount) }) ∧
      (st.ordinal = 0 → exec (.lrecv c) s = .next (s.setStrand c { st with
        ordinal := 1, async := [⟨1, 0, [], r.gotPiece k, none, some (g, r.step)⟩] }))) ∧
  (∀ (s : State) (c : CtxId) (op : Nat) (st : Strand) (sl : Slice) (w : W64), s.Issues c op st sl w →
      let off := (st.s[fTSA w]).toNat
      let n := 256 * wbits w 0 16
      let body := winRead (s.free + 1) st.win off n
      (∀ g k r, s.ringGroup st.ref = some (g, k, r) →
        let mine := (st.s[fTSB w]).toNat == (k.plan r.step).recv
        (op = 0x70 → sl.Fits off n 1 → exec (.lsend c) s = .next (({ s with free := s.free + 1 } : State).tell g k 1 r.step
          r.attempt (st.s[fTSB w]).toNat body |>.setStrand c st.next)) ∧
        (op = 0x71 → sl.Fits off (k.recvLen r.step) 1 → exec (.lrecv c) s = .next (s.after c { st.next with
          async := st.async ++ [⟨(fTC w).val, off, r.arrived.getD [], mine && r.gotPiece k, none,
            if mine then some (g, r.step) else none⟩] }))) ∧
      (s.ringGroup st.ref = none →
        (op = 0x70 → sl.Fits off n 1 → exec (.lsend c) s = .next (s.after c st.next)) ∧
        (op = 0x71 → exec (.lrecv c) s = .next (s.after c st.next)))) ∧
  (∀ (s : State) (c : CtxId) (ref : SliceRef) (sl : Slice) (r : CmdRun) (i : Nat), s.strand c = none →
      s.coreUp c.core.val = true → s.slice ref = some sl → s.run ref.t ref.q = some r → s.mayBegin c ref sl = true →
      let g := clusterOf c.core.val
      let taken := fun (t : State) => ∃ st, t.strand c = some st ∧ (∀ d, d ≠ c → t.strand d = s.strand d) ∧ t.mem = s.mem ∧
        t.tens = s.tens ∧ t.ports = s.ports ∧ st = sl.begin ref r.keys i ∧
        (sl.segment = none → st.pc = 64 ∧ st.strand = i ∧ st.ref = ref ∧ st.s[0] = BitVec.ofNat 64 i ∧
          st.s[1] = BitVec.ofNat 64 (i - sl.strandBase) ∧ (∀ n : Fin 32, 2 ≤ n.val → st.s[n] = 0) ∧
          (∀ (n : Fin 32) (m : Fin 64), (st.v[n])[m] = 0) ∧ (∀ n : Fin 16, st.t[n] = nth sl.descs n.val 0) ∧
          st.k = r.keys ∧ st.win = [] ∧ (∀ n : Fin 64, st.accA[n] = [] ∧ st.accB[n] = []) ∧ st.async = [] ∧ st.waiting = 0)
      (∀ rest, frontStrand (s.deque g) = some (ref, i, rest) →
        ∃ t, exec (.strandTake c) s = .next t ∧ taken t ∧ t.deque g = rest) ∧
      (∀ x b rest, frontStrand (s.deque g) = none → s.victim g = some x → backHalf (s.deque x) = some (b, rest) →
        (∀ y ∈ s.busy c.core.val, y.2.ref = b.ref) → b.ref = ref → b.lo = i → b.lo < b.hi →
        ∃ t, exec (.strandTake c) s = .next t ∧ taken t ∧ t.deque x = rest ∧
          dequeSize (t.deque g) + 1 = b.hi - b.lo))

/-- SLICE_PREPARE completes on an admitted slice whose last strand has retired, when the frames of its prepared copies are to
be had: it takes those frames and the slice has finished. A slice without cells, or in a segment before its last, finishes as
it is and changes nothing else (R43, R193, R196). BREAK_IN completes at a point of a tick that is not exclusive with one
waiting candidate of class 3, whose check has been made, whose pages, demands and frames are free, and for which the victims
make room: the candidate is admitted, and each victim, of a lower class and not finished, is killed (R272, R273). -/
def Obligations.PrepareAndBreakInResults : Prop :=
  (∀ (s : State) (t : Fin 4) (q : Fin 64) (i : Nat) (sl : Slice), s.slice ⟨t, q, i⟩ = some sl → sl.state = .admitted →
    sl.remaining = 0 → sl.killed = false →
    (∀ v, s.takePrepared t q (s.foldPages t q sl) = some v → ∃ y,
      exec (.slicePrepare t q i) s = .next (v.modSlice ⟨t, q, i⟩ (fun x => { x with state := .finished })) ∧
      (v.modSlice ⟨t, q, i⟩ (fun x => { x with state := .finished })).slice ⟨t, q, i⟩ = some y ∧ y.state = .finished) ∧
    (sl.lastSegment = false ∨ sl.working = [] → ∃ u, exec (.slicePrepare t q i) s = .next u ∧ u.mem = s.mem ∧
      u.cores = s.cores ∧ u.tens = s.tens ∧ u.slice ⟨t, q, i⟩ = some { sl with state := .finished })) ∧
  (∀ (s : State) (j : Nat) (it : Item) (r : CmdRun) (sl : Slice) (kills : List (SliceRef × Slice)),
    let u := (s.atBreakIn j).noteFirst [it]
    let rem := (u.tick.periodN * 125000 - j * 125000) * u.tick.coresN * u.power.clockMHz / 2000
    1 ≤ j → j < s.tick.periodN → s.tick.exclusiveTick = false → s.barred = false →
    (s.atBreakIn j).items.filter (fun x => x.cls == 3) = [it] → it.op = false → it.promoted = false → it.requeued = none →
    it.passed < 8 → u.run it.ref.t it.ref.q = some r → r.fail = none → u.slice it.ref = some sl → sl.state = .waiting →
    sl.exclusive = false → sl.checked = true → u.SliceReady it.ref sl →
    victimsFor u.victims ((u.unfinished.map (fun x => x.2.offerCost)).sum + sl.offerCost - rem) = some kills →
    (u.takeFrames it.ref sl).isSome = true →
    ∃ t y, exec (.breakIn j) s = .next t ∧ t.slice it.ref = some y ∧ y.inTick = true ∧
      ∀ k ∈ kills, k.2.effClass < 3 ∧ k.2.state = .admitted ∧
        ∀ x, t.slice k.1 = some x → x.killed = true)

/-- END of a strand of a built-in imaging program writes what the strand computes and retires it; an input page that cannot be
read, or a sum that overflows, stops it with the error and its address (R55, R210, R211; that the writes happen at END is log
entry 24). -/
def Obligations.ImagingStrandResults : Prop :=
  ∀ (s : State) (c : CtxId) (st : Strand) (sl : Slice), s.strand c = some st → st.rom = true → st.stopped = false →
    s.slice st.ref = some sl → sl.ringStep = false →
    (∀ u, s.imgStrand st.ref st.strand sl.programOffset = .ok u → ∃ t, exec (.endStrand c) s = .next t ∧
      t.strand c = none ∧ t.mem = u.mem ∧ t.tick = u.tick ∧ t.net = u.net) ∧
    (∀ e a, s.imgStrand st.ref st.strand sl.programOffset = .error (e, a) →
      ∃ t r, exec (.endStrand c) s = .next t ∧ t.strand c = none ∧ t.mem = s.mem ∧ t.run st.ref.t st.ref.q = some r ∧
        r.faults.getLast? = some ⟨st.ref.idx, st.strand, e, BitVec.ofNat 64 a⟩)

/-- R214. The vector of a convolution reads, at index ((kt × KH + kh) × KW + kw) × Cin + ci, the input element at the position
that R215 names. Outside the input it is +0.0 with PAD_MODE 0; with PAD_MODE 1 each coordinate is clamped to its dimension.
(The elements are those of the committed input; one that a wide shadow holds is read at its width, R216.) -/
def Obligations.ConvolutionPadding : Prop :=
  ∀ (s : State) (ref : SliceRef) (ps : List W64) (d : BitVec 512) (t h w kt kh kw ci : Nat),
    let f := pf ps
    let posT := ((t * f 4 48 4 + kt * f 4 36 4 : Nat) : Int) - f 5 24 8
    let posH := ((h * f 4 44 4 + kh * f 4 32 4 : Nat) : Int) - f 5 8 8
    let posW := ((w * f 4 40 4 + kw * f 4 28 4 : Nat) : Int) - f 5 0 8
    let clamp := fun (i : Nat) (x : Int) => (max 0 (min x ((i : Int) - 1))).toNat
    let inside : Prop := (0 ≤ posT ∧ posT < dSize d 2) ∧ (0 ≤ posH ∧ posH < dSize d 1) ∧ 0 ≤ posW ∧ posW < dSize d 0
    let value := (s.convVector ref ps d t h w)[((kt * f 4 56 4 + kh) * f 4 52 4 + kw) * dSize d 3 + ci]?
    let element := fun (a b e : Nat) => s.elemWide ref d e b a ci = none →
      value = some (s.elemVal (s.reachSlice ref) d e b a ci, 0)
    kt < f 4 60 4 → kh < f 4 56 4 → kw < f 4 52 4 → ci < dSize d 3 →
    (inside → element posT.toNat posH.toNat posW.toNat) ∧
    (f 4 8 2 = 0 → ¬ inside → value = some (FVal.zero, 0)) ∧
    (f 4 8 2 = 1 → 1 ≤ dSize d 2 → 1 ≤ dSize d 1 → 1 ≤ dSize d 0 →
      element (clamp (dSize d 2) posT) (clamp (dSize d 1) posH) (clamp (dSize d 0) posW))

/-! ### Queue commands -/

/-- R263. When a command becomes the head of its queue, a wait on its own queue for its own number or more fails it at once,
with ERR_FENCE_INVALID and the queue's index; without such a wait none of its waits on its own queue is open, whatever the
fence. -/
def Obligations.OwnQueueWaits : Prop :=
  ∀ (s : State) (t : Fin 4) (q : Fin 64) (a : Avail) (rest : List Avail),
    let x := s.queue t q
    let n := x.ended + 1
    let own := fun (i : Nat) => i < 4 ∧ cWaitEn a.words i = true ∧ cWaitQ a.words i = q.val
    x.state = .active → x.run = none → x.avail = a :: rest → s.doorbellOk a 0 = true → x.commandOk n a.words = true →
    ((∃ i, own i ∧ n ≤ cWaitV a.words i) → ∀ y ∈ offeredCommands t q, cOp a.words = y.1 →
      ∃ w r, exec y.2.1 s = .next w ∧ w.run t q = some r ∧ r.n = n ∧ r.begun = false ∧
        r.fail = some ⟨Config.errFenceInvalid, BitVec.ofNat 64 q.val, Config.noStrand, 0⟩) ∧
    ((∀ i, own i → cWaitV a.words i < n) →
      ∃ r, (s.ensureHead t q 0).run t q = some r ∧ r.n = n ∧ r.fail = none ∧ r.words = a.words ∧
        ∀ v, (q, v) ∉ (s.ensureHead t q 0).openWaits t q n r.words)

/-- A command that is offered whole does what its check answers: admitted, its slice starts and its staged work runs; failed,
it reports the code, the address and RESULT1 that the check found; passed over, the count of its passes rises; held, nothing
changes (R32, R78, R203, R289). -/
def Obligations.OfferedCommandsFollowTheirChecks : Prop :=
  ∀ (s u : State) (t : Fin 4) (q : Fin 64) (r : CmdRun), ∀ x ∈ offeredCommands t q, s.Offered t q x.1 u r →
    (∀ v done, x.2.2 u t q r = .admitted v done → exec x.2.1 s = .next (v.admitOp t q done)) ∧
    (∀ code address reason, x.2.2 u t q r = .fail code address reason →
      ∃ w, exec x.2.1 s = .next w ∧ w.Failed t q code address reason ∧ w.mem = u.mem ∧ w.cores = u.cores) ∧
    (x.2.2 u t q r = .pass → ∃ w, exec x.2.1 s = .next w ∧ w.mem = u.mem ∧ w.cores = u.cores ∧
      ∀ sl, u.slice (opRef t q) = some sl → w.slice (opRef t q) = some { sl with passed := sl.passed + 1 }) ∧
    (x.2.2 u t q r = .hold → exec x.2.1 s = .next u)

/-- The commands complete. NOP is admitted and stages nothing. MEM_MAP of unmapped pages within the quotas, with home frames to
be had, stages one mapping for each page in page order; MEM_UNMAP stages an unmapping for each mapped page; MEM_PIN stages the
pin for each page that is mapped and not evicted; MEM_QUERY claims its destination and stages the query (R165, R166, R289,
R426). -/
def Obligations.MappingCommandsAreAdmitted : Prop :=
  ∀ (s u : State) (t : Fin 4) (q : Fin 64) (op : Nat) (r : CmdRun), s.Offered t q op u r →
    let a := cwn r.words 8
    let n := cwn r.words 9
    let ev := (cw r.words 10).getLsbD 0
    let kind := wbits (cw r.words 10) 1 2
    let target := wbits (cw r.words 10) 4 5
    let pages := (List.range n).map (fun i => i + a / Config.pageBytes)
    let valid := a % Config.pageBytes = 0 ∧ 1 ≤ n ∧ n ≤ 65536 ∧ a + n * Config.pageBytes ≤ Config.modelBase
    let free := u.outsFree t q 0 true pages = true
    (op = 0x00 → ∃ v, exec (.commandNop t q) s = .next v ∧ u.Admitted t q r.effects r.result0 r.result1 true v ∧
      v.mem.mem = u.mem.mem ∧ v.cores = u.cores) ∧
    (op = 0x10 → valid → (∀ p ∈ pages, u.page t p = none) → u.pinOk kind target = true → (kind = 2 → ev = false) →
      (ev = false → n ≤ u.quota t 2 - u.stackedFixed t) → u.stackPossible t n = true →
      (kind = 2 → u.diePinned t + n ≤ u.quota t 1) → free → u.stackAllowed t n = true →
      (((u.putOpSlice t q (pages.map (fun v => (v, true)))).roomFor t n).takeHomes t kind target pages).isSome = true →
      ∃ fresh : List FreshPage, fresh.map (·.vpage) = pages ∧ ∃ v, exec (.memMap t q) s = .next v ∧
        u.Admitted t q (r.effects ++ fresh.map (fun p => .map p.vpage p.frame ev kind target)) r.result0 r.result1 true v) ∧
    (op = 0x11 → valid → (∀ p ∈ pages, (u.page t p).isSome = true) → free → ∃ v, exec (.memUnmap t q) s = .next v ∧
      u.Admitted t q (r.effects ++ pages.map .unmap) r.result0 r.result1 true v ∧ v.mem.mem = u.mem.mem) ∧
    (op = 0x12 → (∀ p ∈ pages, ∃ e, u.page t p = some e ∧ e.gone = false ∧ (kind = 2 → e.evictable = false)) →
      u.pinOk kind target = true →
      (kind = 2 → u.diePinned t + (pages.filter (fun p => ((u.page t p).map (fun e => e.pinKind != 2)).getD true)).length ≤
        u.quota t 1) → free → ∃ v, exec (.memPin t q) s = .next v ∧
      u.Admitted t q (r.effects ++ pages.map (fun p => .pin p kind target)) r.result0 r.result1 true v ∧ v.mem.mem = u.mem.mem) ∧
    (op = 0x13 → a % Config.pageBytes = 0 → 1 ≤ n → n ≤ 262144 → a + n * Config.pageBytes ≤ 2 ^ 52 →
      (cwn r.words 10) % 8 = 0 → cwn r.words 10 + 8 * n ≤ 2 ^ 52 →
      (partOuts (cwn r.words 10) (8 * n)).findSome? (u.outError t) = none → u.ClaimOk t q (partOuts (cwn r.words 10) (8 * n)) →
      ∃ v, exec (.memQuery t q) s = .next v ∧
        u.Admitted t q (r.effects ++ [.query a n (cwn r.words 10)]) r.result0 r.result1 true v)

/-- The KV commands complete. KV_SHARE stages, for each page of the range, the destination's entry: the source's frame, shared,
with the tokens that it shares, and pins those frames; KV_RELEASE stages an empty entry for each valid one; both then stage the
new LENGTH. KV_COMMIT_DIR of a settled directory whose shadow passes stages the commit and names the directory busy (R140,
R151, R152). None writes a page of the model window (R163). -/
def Obligations.KvCommandsAreAdmitted : Prop :=
  ∀ (s u : State) (t : Fin 4) (c : Fin 64) (op : Nat) (r : CmdRun), s.Offered t c op u r →
    let desc := cwn r.words 8
    let free := fun (l : List (Nat × W64)) (d : Nat) =>
      (∀ v ∈ pageOf d :: l.map (fun x => pageOf x.1), inModelWindow v = false) ∧
      u.outsFree t c 0 true (pageOf d :: l.map (fun x => pageOf x.1)).eraseDups = true
    (op = 0x18 → ∀ a b, u.seqAt t desc = .ok a → u.seqAt t (cwn r.words 9) = .ok b →
      let n := cwn r.words 10
      let last := (n - 1) / a.tpp
      let hps := headPages a 0 (last + 1)
      a.fmt = b.fmt → a.dcode = b.dcode → a.heads = b.heads → n ≤ b.slots * 512 * b.tpp → 1 ≤ n → n ≤ a.length →
      (a.fmt = 8 → n % 32 = 0 ∨ n = a.length) →
      ∀ from_ to_ : Nat × Nat → Nat × W64,
      (∀ hp ∈ hps, u.peAt t desc a hp = some (from_ hp) ∧ peValid (from_ hp).2 = true ∧ peEvicted (from_ hp).2 = false) →
      (∀ hp ∈ hps, u.peAt t (cwn r.words 9) b hp = some (to_ hp) ∧ peValid (to_ hp).2 = false) →
      let new := hps.map (fun hp => ((to_ hp).1, mkPe (peRemnant (from_ hp).2 && (hp.2 != last || n == a.length))
        (if hp.2 = last then n - a.tpp * last else peCount (from_ hp).2) (kvStack (peFrame (from_ hp).2)) (peFrame (from_ hp).2) true))
      free new (cwn r.words 9) →
      ∃ v, exec (.kvShare t c) s = .next v ∧ u.Admitted t c
        (r.effects ++ new.map (fun x => .kvEntry (cwn r.words 9) x.1 x.2) ++ [.kvLength (cwn r.words 9) none])
        r.result0 r.result1 true v ∧ v.mem.mem = u.mem.mem ∧
        ∀ k, v.run t c = some k → ∀ x ∈ new, peValid x.2 = true → 2 ^ 40 + peFrame x.2 ∈ k.pinned) ∧
    (op = 0x19 → ∀ q, u.seqAt t desc = .ok q → cwn r.words 9 + cwn r.words 10 ≤ q.slots * 512 →
      let l := (headPages q (cwn r.words 9) (cwn r.words 10)).filterMap (fun hp =>
        ((u.peAt t desc q hp).filter (fun x => peValid x.2)).map (fun x => (x.1, (0 : W64))))
      free l desc →
      ∃ v, exec (.kvRelease t c) s = .next v ∧ u.Admitted t c
        (r.effects ++ l.map (fun x => .kvEntry desc x.1 0) ++ [.kvLength desc none]) r.result0 r.result1 true v ∧
        v.mem.mem = u.mem.mem) ∧
    (op = 0x1A → ∀ q, u.seqAt t desc = .ok q → q.dirState = 0 → (t.val, desc) ∉ u.mem.dirBusy → u.badShadow t q = none →
      inModelWindow (pageOf desc) = false → u.outsFree t c 0 true [pageOf desc] = true →
      ∃ v, exec (.kvCommitDir t c) s = .next v ∧ u.Admitted t c (r.effects ++ [.dirPending desc]) r.result0 r.result1 true v ∧
        (t.val, desc) ∈ v.mem.dirBusy)

/-- The pan commands complete: their operands and ranges in order and their output pages to be had, they are admitted with
those pages and work until the pans report. PAN_FILL's pages are zero; PAN_GATHER's RESULT0 is the bytes that its gather has
written, at most its limit. PAN_WORK_DONE marks a running command as done; where the read-back of a PAN_FILL that scrubs finds
a byte that is not zero the command fails with ERR_MEMORY_FAILED and the byte's address (R203 to R207). -/
def Obligations.PanCommandsAreAdmitted : Prop :=
  (∀ (s u : State) (t : Fin 4) (q : Fin 64) (op : Nat) (r : CmdRun), s.Offered t q op u r →
    let a := cwn r.words 8
    let d := cwn r.words 9
    let n := cwn r.words 10
    let whole := fun (l : List Nat) => l.map (fun v => (v, true))
    (op = 0x20 → a % Config.pageBytes = 0 → 1 ≤ d → d ≤ 65536 → u.panDest t false (pagesFrom a d) = .ok → n ≤ 1 →
      u.ClaimOk t q (whole (pagesFrom a d)) →
      ∃ v sl, exec (.panFill t q) s = .next v ∧ u.Admitted t q r.effects r.result0 r.result1 false v ∧
        v.slice (opRef t q) = some sl ∧ sl.fresh.map (·.vpage) = pagesFrom a d ∧
        ∀ p ∈ sl.fresh, ∀ i < Config.pageBytes, v.pbyte (p.frame * Config.pageBytes + i) = 0) ∧
    (op = 0x21 → a % Config.pageBytes = 0 → d % Config.pageBytes = 0 → 1 ≤ n → n ≤ 65536 →
      u.panSource t (pagesFrom a n) = .ok → (a + n * Config.pageBytes ≤ d ∨ d + n * Config.pageBytes ≤ a) →
      u.panDest t true (pagesFrom d n) = .ok → (u.pinReads t q (pagesFrom a n)).ClaimOk t q (whole (pagesFrom d n)) →
      ∃ v sl, exec (.panCopy t q) s = .next v ∧ u.Admitted t q r.effects r.result0 r.result1 false v ∧
        v.slice (opRef t q) = some sl ∧ sl.fresh.map (·.vpage) = pagesFrom d n) ∧
    (op = 0x22 → (∀ p ∈ [a, d], (pagesOf p 64).any u.modelGone = false ∧ p % 64 = 0 ∧ u.checkT t p 64 = none) →
      let x := BitVec.ofNat 512 (u.numT t a 64)
      let y := BitVec.ofNat 512 (u.numT t d 64)
      descValid x = true → descValid y = true → dLenEn x = false → dLenEn y = false → dRank x = dRank y →
      (∀ i < 4, dSize x i = dSize y i) → convertPair (dFmt x) (dFmt y) = true →
      u.panSource t (pagesOfRanges (tensorRanges x)) = .ok → u.panDest t false (pagesOfRanges (tensorRanges y)) = .ok →
      (u.pinReads t q (pagesOfRanges (tensorRanges x))).ClaimOk t q
        ((pagesOfRanges (tensorRanges y)).map (fun v => (v, false))) →
      ∃ v sl, exec (.panConvert t q) s = .next v ∧ u.Admitted t q r.effects r.result0 r.result1 false v ∧
        v.slice (opRef t q) = some sl ∧ sl.fresh.map (·.vpage) = pagesOfRanges (tensorRanges y)) ∧
    (op = 0x23 → ∀ z, u.seqAt t a = .ok z →
      let h0 := wbits (cw r.words 9) 48 16
      let p0 := wbits (cw r.words 9) 0 32
      let hps := (List.range (wbits (cw r.words 9) 32 16)).flatMap (fun i => (List.range n).map (fun j => (h0 + i, p0 + j)))
      let pes := hps.map (fun hp => (hp, u.peAt t a z hp))
      let g := u.gather z (cwn r.words 12) h0 p0 pes
      let outs := partOuts (cwn r.words 11) g.bytes.length
      h0 + wbits (cw r.words 9) 32 16 ≤ z.heads → p0 < z.slots * 512 → p0 + n ≤ z.slots * 512 → cwn r.words 11 % 64 = 0 →
      (∀ x ∈ pes, ∀ y, x.2 = some y → peValid y.2 = true →
        peEvicted y.2 = false ∧ u.frameFailed (peFrame y.2 / 32) = false) →
      u.panDest t false (outs.map (·.1)) = .ok → (u.pinFrames t q (kvPins pes)).ClaimOk t q outs →
      g.bytes.length ≤ cwn r.words 12 ∧ ∃ v, exec (.panGather t q) s = .next v ∧
        u.Admitted t q r.effects (BitVec.ofNat 64 g.bytes.length) (BitVec.ofNat 64 (g.head * 2 ^ 48 + g.page)) false v) ∧
    (op = 0x24 → d ≤ 2 ^ 40 → (d ≠ 0 → u.checkT t a d = none) → cwn r.words 11 % 32 = 0 → cwn r.words 12 % 32 = 0 →
      let leaves := if cwn r.words 12 = 0 then [] else partOuts (cwn r.words 12) (32 * ceilDiv d 1048576)
      u.panDest t false ((partOuts (cwn r.words 11) 32).map (·.1)) = .ok → u.panDest t false (leaves.map (·.1)) = .ok →
      (u.pinReads t q (pagesOf a d)).ClaimOk t q (partOuts (cwn r.words 11) 32 ++ leaves).eraseDups →
      ∃ v, exec (.panDigest t q) s = .next v ∧ u.Admitted t q r.effects r.result0 r.result1 false v)) ∧
  (∀ (s : State) (t : Fin 4) (q : Fin 64) (r : CmdRun), s.run t q = some r → r.begun = true → r.isOp = true →
    r.onPans = true →
    (r.scrubs = false ∨ s.dirtyByte (r.slices.flatMap (·.fresh)) = none →
      ∃ v, exec (.panWorkDone t q) s = .next v ∧ v.run t q = some { r with opDone := true } ∧ v.mem = s.mem ∧
        v.cores = s.cores ∧ v.tens = s.tens) ∧
    (∀ a, r.scrubs = true → r.fail = none → s.dirtyByte (r.slices.flatMap (·.fresh)) = some a →
      ∃ v, exec (.panWorkDone t q) s = .next v ∧ v.mem = s.mem ∧ v.run t q = some { r with
        opDone := true
        fail := some { code := Config.errMemoryFailed, address := BitVec.ofNat 64 a, strand := Config.noStrand, lastMark := 0 } }))

/-- The codec and ingest commands complete, their parameter block in order and the pages that they may write free. CODEC_OPEN
takes the lowest free context and a unit with room, and answers its number; CODEC_DECODE puts its job on its idle context, and
ends at once where a stop holds at once; CODEC_ENCODE puts its job on its idle context; INGEST_OPEN takes the lowest free
stream and answers its number; INGEST_BATCH of an idle stream whose inputs can be read gives the stream its batch; CODEC_CLOSE
and INGEST_CLOSE of an idle one stage the close (R226 to R232, R237, R240, R243, R248, R252). -/
def Obligations.CodecAndIngestCommandsAreAdmitted : Prop :=
  ∀ (s u : State) (t : Fin 4) (q : Fin 64) (op : Nat) (r : CmdRun), s.Offered t q op u r →
    let n := cwn r.words 8
    let begun := fun (w : State) (fx : List Effect) => ∃ k, w.run t q = some k ∧ k.begun = true ∧ k.effects = r.effects ++ fx
    (∀ ps, u.paramBlock t (if op / 8 = 6 then Config.errCodecInvalid else Config.errIngestInvalid) n = .ok ps →
      let m := pf ps 0 58 6
      (op = 0x30 → openWords ps = none → ∀ bufs k e, u.readPool t Config.errCodecInvalid (openOf ps) = .ok bufs →
        u.codecEngine (openOf ps) = some e → u.codecNumber (openOf ps).encode = some k →
        ∃ w, exec (.codecOpen t q) s = .next w ∧ w.mem.mem = u.mem.mem ∧
          u.Admitted t q (r.effects ++ [.codecOpen k]) (BitVec.ofNat 64 k) 0 true w ∧ kget u.codec k = none ∧
          kget w.codec k = some (newCtx t none (openOf ps) bufs e ps)) ∧
      (op = 0x31 → decodeWords ps = none → ∀ c, u.ownCtx t m (some false) = some c → u.ctxBusy t m c = false →
        u.checkT t (pf ps 0 0 52) (pf ps 1 32 32) = none →
        let marks := pf ps 4 0 52
        let pages := c.pages ++ pagesOf (pf ps 3 0 52) (32 * pf ps 1 0 16) ++ (if marks = 0 then [] else pagesOf marks 128)
        let v := (u.lazyClaimed t q pages).pinReads t q (pagesOf (pf ps 0 0 52) (pf ps 1 32 32))
        let j := c.newJob t q ps [(v.readT t (pf ps 0 0 52) (pf ps 1 32 32), 0)]
        let job := { j with buffers := j.buffers.mapIdx (fun i b =>
          if (pw ps 2).getLsbD i then { b with mark := b.mark &&& 0x7FFF } else b) }
        u.LazyOk t q pages → (marks = 0 ∨ v.decodeStop c job = none) →
        ∃ w x, exec (.codecDecode t q) s = .next w ∧ begun w [.codecCommit m] ∧ kget w.codec m = some x ∧
          x.job = some { job with stop := v.decodeStop c job }) ∧
      (op = 0x32 → encodeWords ps = none → ∀ c, u.ownCtx t m (some true) = some c → u.ctxBusy t m c = false →
        let da := pf ps 0 0 52
        let d := BitVec.ofNat 512 (u.numT t da 64)
        u.checkT t da 64 = none → da % 64 = 0 → planarOk d = true → dSize d 3 = 3 → dFmt d ≤ 3 → dSize d 0 = c.maxW →
        dSize d 1 = c.maxH → pf ps 1 32 32 + pf ps 1 16 16 ≤ dSize d 2 →
        (∀ p ∈ tensorPages d, u.checkT t (p * Config.pageBytes) 1 = none) →
        u.LazyOk t q (c.pages ++ pagesOf (pf ps 2 0 52) (pf ps 3 32 32) ++ pagesOf (pf ps 4 0 52) (16 * pf ps 1 16 16)) →
        ∃ w x j, exec (.codecEncode t q) s = .next w ∧ begun w [.codecCommit m] ∧ kget w.codec m = some x ∧
          x.job = some j ∧ j.t = t ∧ j.q = q ∧ j.params = ps ∧ j.input.length = pf ps 1 16 16) ∧
      (op = 0x38 → ingestWords ps = none → ∀ i bufs ctx y,
        let coded := decide (pf ps 0 56 4 ≠ 2)
        (List.range 16).find? (fun n => (kget u.ingest n).isNone) = some i →
        (coded = true → u.readPool t Config.errIngestInvalid (streamOpen ps) = .ok bufs) → (coded = false → bufs = []) →
        u.streamCtx t i coded bufs ps = some (ctx, y) → y.stackPossible t (pf ps 3 52 12) = true →
        y.stackAllowed t (pf ps 3 52 12) = true →
        ((y.roomFor t (pf ps 3 52 12)).takeSave t y.stack0 (pf ps 3 52 12)).isSome = true →
        ∃ w x, exec (.ingestOpen t q) s = .next w ∧
          u.Admitted t q (r.effects ++ [.ingestOpen i]) (BitVec.ofNat 64 i) 0 true w ∧ kget u.ingest i = none ∧
          kget w.ingest i = some x ∧ x.owner = t ∧ x.words = ps ∧ x.codecCtx = ctx ∧ x.visible = false ∧ x.batch = none ∧
          x.position = (nth ps 7 0).toNat) ∧
      (op = 0x39 → ∀ l x, u.ownStream t (pf ps 0 60 4) = some x → batchWords x ps = none →
        u.streamBusy t (pf ps 0 60 4) x = false → ∀ z, u.batchInputs t x (pf ps 0 60 4) ps = .ok z →
        u.LazyOk t q ((List.range x.slotN).flatMap (fun j => pagesOf (pf ps 0 0 52 + j * pf ps 1 0 48) x.imageSize) ++
          pagesOf (pf ps 2 0 52) (64 + 64 * x.slotN) ++ (((x.codecCtx.bind (kget u.codec)).map (·.pages)).getD [])) →
        ∃ w y b, exec (.ingestBatch t q l) s = .next w ∧ begun w [.ingestCommit (pf ps 0 60 4)] ∧
          kget w.ingest (pf ps 0 60 4) = some y ∧ y.batch = some b ∧ b.t = t ∧ b.q = q ∧ b.params = ps ∧
          b.admitted = u.tick.count)) ∧
    (op = 0x33 → ∀ c, u.ownCtx t n none = some c → u.ctxBusy t n c = false → ∃ w, exec (.codecClose t q) s = .next w ∧
      u.Admitted t q (r.effects ++ [.codecClose n]) r.result0 r.result1 true w ∧ w.codec = u.codec) ∧
    (op = 0x3A → ∀ x, u.ownStream t n = some x → u.streamBusy t n x = false → ∃ w, exec (.ingestClose t q) s = .next w ∧
      u.Admitted t q (r.effects ++ [.ingestClose n]) r.result0 r.result1 true w ∧ w.ingest = u.ingest)

/-- The record and securing commands complete. RECORD_OPEN answers the area that its record takes; with an address it stages a
record that holds no command yet. RECORD_CLOSE of a record whose commands have all finished writes it, signed, and answers its
bytes and its commands. STATE_SECURE that is not due and does not vote takes no snapshot; one that is due or votes goes on with
the image of its ranges. STATE_RESTORE goes on with the image that it has found, or waits for its transfer (R361 to R365, R372,
R394 to R397). -/
def Obligations.RecordAndSecureCommandsAreAdmitted : Prop :=
  ∀ (s u : State) (t : Fin 4) (q : Fin 64) (op : Nat) (r : CmdRun), s.Offered t q op u r →
    let c := cwn r.words
    let o := secOps r.words
    let outs := if c 14 = 0 then [] else partOuts (c 14) 3568
    let ranges := if c 8 = 0 then [] else u.rangeList t (c 10) (c 11)
    let begun := fun (w : State) (k : CmdRun) => w.run t q = some k ∧ k.begun = true ∧ k.fail = none ∧ k.opDone = false ∧
      k.effects = r.effects
    (op = 0x40 → c 14 % 64 = 0 → (c 12 ≠ 0 → u.checkT t (c 12) 32 = none) → outs.findSome? (u.outError t) = none →
      (u.pinReads t q (pagesOfRanges ranges)).ClaimOk t q outs →
      (c 8 = 0 → ∃ w, exec (.recordOpen t q) s = .next w ∧
        u.Admitted t q r.effects (BitVec.ofNat 64 (recordArea (c 13))) 0 false w) ∧
      (c 8 ≠ 0 → u.recordOpenError t r.words = none → u.mem.model.sealedNow = true →
        ∃ w g, exec (.recordOpen t q) s = .next w ∧
          u.Admitted t q (r.effects ++ [.recordOpen g]) (BitVec.ofNat 64 (recordArea (c 13))) 0 false w ∧ g.area = c 8 ∧
          g.cap = c 13 ∧ g.cmds = [] ∧ g.closing = false ∧ g.modelDigest = u.mem.model.digest ∧ g.inputs.length = c 11)) ∧
    (op = 0x41 → ∀ g, u.tens[t].record = some g → g.closing = false → (∀ x ∈ g.cmds, x.done = true ∧ x.failed = false) →
      c 9 ≤ 64 → u.listError t (c 8) (c 9) 1 = none →
      let l := u.rangeList t (c 8) (c 9)
      let n := (u.recordBytes t g (u.rangeTable t 0x100 l)).length + 3312
      (partOuts g.area n).findSome? (u.outError t) = none →
      (u.pinReads t q (pagesOfRanges l)).ClaimOk t q (partOuts g.area n) →
      ∃ w, exec (.recordClose t q) s = .next w ∧
        u.Admitted t q (r.effects ++ [.recordClose]) (BitVec.ofNat 64 n) (BitVec.ofNat 64 g.cmds.length) false w) ∧
    (op = 0x48 →
      let x := u.tens[t].secure
      let bound := u.odt t 0xA0E0 1
      let y := x.admitted o.step u.tick.localNs bound u.health.risk
      let due := y.due (secMode r.words == 1) o.step bound u.health.risk
      let l := u.stateList t o
      let pages := pagesOf (o.area + u.freeImageSlot t o * o.slotBytes) (imageSize l)
      x.transferState = 0 → u.secureError t r.words = none →
      (due = false → secVote r.words = false → ∃ w k, exec (.stateSecure t q) s = .next w ∧ begun w k ∧ k.phase = 4 ∧
        k.result1 = BitVec.ofNat 64 y.sSec ∧ w.tens[t].secure = y ∧ w.mem.mem = u.mem.mem) ∧
      ((due = true ∨ secVote r.words = true) → (due = true → x.lastFailed = false ∨ x.prevFailed = false) →
        u.stackPossible t pages.length = true → u.LazyOk t q pages →
        ∃ w k, exec (.stateSecure t q) s = .next w ∧ begun w k ∧ k.phase = (if secVote r.words then 1 else 2) ∧
          k.params = [if due then 1 else 0] ∧ w.tens[t].secure = y)) ∧
    (op = 0x49 → u.restoreControlOk t r.words = true →
      u.secOpsError t o (restoreMoves r.words || o.partner ≠ 0) = none →
      let pages := pagesOfRanges (u.stateList t o)
      u.stackPossible t pages.length = true → u.LazyOk t q pages →
      let goes := fun (img : List Byte) => ∃ w k, exec (.stateRestore t q) s = .next w ∧ begun w k ∧
        k.phase = (if restoreMoves r.words then 1 else 2) ∧ k.blob = img
      let sound := fun (a : Nat) (img : List Byte) => u.imageError t o img a none = none ∧ badDigest img = none
      let a2 := u.readImage t o.image (2 ^ 40 + 2 ^ 21)
      (secMode r.words = 0 → ∀ a, u.imageIn t o.area o.slotBytes o.step true = some a →
        sound a (u.readImage t a o.slotBytes) → goes (u.readImage t a o.slotBytes)) ∧
      (secMode r.words = 1 → goes []) ∧
      (secMode r.words = 2 → u.checkT t o.image (max 4096 (min (2 ^ 40 + 2 ^ 21) (u.numT t (o.image + 40) 8))) = none →
        sound o.image a2 → goes a2))

/-- COMPUTE and the imaging commands complete: the head command that nothing bars gets its slices, read from its table or made
by the built-in program, and an eligible slice that passes its first checks, and whose capacity, demands, pages and frames are
met, is admitted and its command has begun (R32 to R34, R44, R54, R210, R211). A COMPUTE whose table cannot be read fails with
the error and the address that the reading finds (R425). -/
def Obligations.SlicedCommandsAreAdmitted : Prop :=
  ∀ (s : State) (t : Fin 4) (q : Fin 64),
    let u := s.ensureHead t q 0
    u.barred = false →
    (∀ x ∈ ([(0x01, .compute t q), (0x28, .imgConv t q), (0x29, .imgResize t q), (0x2A, .imgPyramid t q),
        (0x2B, .imgDetect t q)] : List (Nat × Instr)), ∀ r0, u.run t q = some r0 → cOp r0.words = x.1 →
      let v := u.readSlices t q
      ∀ r sl, v.run t q = some r → r.slices = [sl] → r.fail = none → r.ended = false →
        (r.begun = true ∨ v.isCandidate t q = true) → sl.state = .waiting → sl.deps = [] → sl.ringStep = false →
        sl.exclusive = false → sl.segment = none → sl.cost ≤ v.tick.capacity →
        let n := v.noteFirst (v.queueItems t q)
        let ref : SliceRef := ⟨t, q, sl.idx⟩
        ∀ sl', n.slice ref = some sl' → (sl'.checked = true ∨ n.impossible t sl' = none) → sl'.offerCost ≤ n.left →
          n.demandsMet t sl' = true →
        ∀ m x', n.ensureRead ref sl' = .ok (m, x') → m.SliceReady ref x' → ∀ y, m.takeFrames ref x' = some y →
          ∃ w z k, exec x.2 s = .next w ∧ w = (y.startSlice ref (n.baseClass t q)).begin t q ∧ w.slice ref = some z ∧
            z.inTick = true ∧ w.run t q = some k ∧ k.begun = true) ∧
    (∀ r, u.run t q = some r → cOp r.words = 0x01 → r.slices = [] → r.begun = false → u.isCandidate t q = true →
      ∀ e, u.slicesOf t (cwn r.words 8) (cwn r.words 9) = .error e →
      ∃ w, exec (.compute t q) s = .next w ∧ w.mem = u.mem ∧ ∃ k, w.run t q = some k ∧
        k.fail = some ⟨e.1, BitVec.ofNat 64 e.2, Config.noStrand, 0⟩)

/-- A COLLECTIVE of its group's tenancy whose SEQ is the group's next, on a free group, begins where its words and ranges pass
the checks of R343: a STATS command with the slices of its table and CELLS cells, any other with its SRC and its COUNT, direct
or read. Its collective holds the group, its SEQ and the members' list, and has not started. One whose SEQ has passed fails
with ERR_COLL_SEQUENCE; one whose SEQ is still to come, or whose group is taken, waits (R341, R343, R349). -/
def Obligations.CollectiveBeginsInSequence : Prop :=
  ∀ (s u : State) (t : Fin 4) (q : Fin 64) (r : CmdRun), s.ensureHead t q 0 = u → u.run t q = some r → cOp r.words = 0x02 →
    u.isCandidate t q = true →
    let c := cwn r.words
    let g := wbits (cw r.words 8) 48 8
    let seq := wbits (cw r.words 8) 0 16
    let kind := wbits (cw r.words 8) 56 8
    let fmt := wbits (cw r.words 8) 44 4
    let dyn := (cw r.words 8).getLsbD 39
    let ahead := (seq + 65536 - u.nextSeq g) % 65536
    let v := u.modRun t q (fun r => { r with coll := some g })
    let begins := fun (e : GroupEntry) (cells count src : Nat) (l : List Slice) =>
      ∃ w r' k, exec (.collective t q) s = .next w ∧ w.collOf g = some k ∧ k.t = t ∧ k.q = q ∧ k.use = .command ∧ k.seq = seq ∧
        k.kind = kind ∧ k.fmt = fmt ∧ k.members = e.members ∧ k.dst = c 10 ∧ k.cells = cells ∧ k.count = count ∧ k.src = src ∧
        k.started = false ∧ w.run t q = some r' ∧ r'.begun = true ∧ r'.coll = some g ∧ r'.slices = l ∧ w.mem.mem = u.mem.mem
    ∀ e, u.group g = some e → e.tenancy = t.val →
    (ahead = 0 → u.collOf g = none → u.recordError t q r = none →
      collControlOk kind fmt (wbits (cw r.words 8) 40 4) dyn = true → c 10 % 256 = 0 →
      (kind = 4 → c 9 % 64 = 0 → 1 ≤ c 11 → c 11 ≤ 1048576 → 1 ≤ c 13 → c 13 ≤ 2 ^ 24 →
        v.destCheck t (c 10) (c 11 * cellWidth fmt) = .ok () → ∀ l, v.slicesOf t (c 9) (c 13) = .ok l → begins e (c 11) 0 0 l) ∧
      (kind ≠ 4 → c 9 % 256 = 0 → (dyn = true → c 12 % 4 = 0 ∧ v.sourceCheck t (c 12) 4 = .ok ()) →
        let n := if dyn then v.numT t (c 12) 4 else c 11
        let w := if kind = 3 then 1 else if fmt = 1 then 2 else 4
        let len := if kind = 3 then (if dyn then c 13 else e.members.length * n) else n * w
        (if kind = 3 then n % 256 = 0 else 1 ≤ n) → (kind = 3 → dyn = false → e.members.length * n ≤ c 13) →
        (n * w = 0 ∨ len = 0 ∨ c 10 + len ≤ c 9 ∨ c 9 + n * w ≤ c 10 ∨ (kind ≠ 3 ∧ c 9 = c 10)) →
        v.sourceCheck t (c 9) (n * w) = .ok () → v.destCheck t (c 10) len = .ok () → begins e 0 n (c 9) [])) ∧
    (ahead < 32768 → 0 < ahead ∨ u.collOf g ≠ none → exec (.collective t q) s = .next u) ∧
    (32768 ≤ ahead → ∃ w, exec (.collective t q) s = .next w ∧ ∃ r', w.run t q = some r' ∧
      r'.fail = some ⟨Config.errCollSequence, BitVec.ofNat 64 g, Config.noStrand, 0⟩)

/-! ### The tick, the input and the sidebands -/

/-- SLUICE of a running module opens the next boundary: the tick count becomes its number, one more than the last unless an
announced jump falls due (R25, R36, R338). -/
def Obligations.SluiceOpensTheNextBoundary : Prop :=
  ∀ (s : State) (env : SluiceEnv), s.power.running = true →
    ∃ t, exec (.sluice env) s = .next t ∧ t.tick.count = s.nextBoundary ∧
      (s.net.jumpAt ≠ s.tick.count + 1 → t.tick.count = s.tick.count + 1)

/-- A module reset loses everything but the fuses and the flash, whose images, stored values and journal stay unless they were
being written; a trip also writes the fault record, and then holds the module. INPUT_APPLY brings the input and PWR_GOOD and
changes nothing else (R398, R401, R404). -/
def Obligations.ModuleResetKeepsOnlyFusesAndFlash : Prop :=
  ∀ s : State,
    let lost := fun (t : State) => t.fuses = s.fuses ∧ t.pending = s.pending ∧ t.tick.count = 0 ∧ t.mem = MemSt.reset ∧
      t.cores = CoreSt.reset ∧ t.codec = [] ∧ t.ingest = [] ∧ t.coll.colls = [] ∧ t.net = NetSt.reset ∧
      t.health = HealthSt.reset ∧ t.od.live = [] ∧ t.od.sessions = [] ∧ (∀ u q, t.queue u q = Queue.reset) ∧
      (∀ u : Fin 4, t.tens[u] = Tenancy.reset) ∧ t.power.running = false ∧
      t.out = s.out ++ (if s.power.running then [.transmittersOff] else []) ∧
      t.flash.journalState = s.flash.journalState ∧
      (s.install.fwActive = false → t.flash.imageA = s.flash.imageA ∧ t.flash.imageB = s.flash.imageB) ∧
      (s.od.storeState ≠ 1 → t.flash.storeA = s.flash.storeA ∧ t.flash.storeB = s.flash.storeB)
    (∃ t, exec .modResetN s = .next t ∧ lost t ∧ t.power.modReset = true ∧ t.power.tripHold = false) ∧
    (∃ t, exec .pwrGoodLoss s = .next t ∧ lost t ∧ t.power.pwrGood = false) ∧
    (∃ t, exec .inputRemove s = .next t ∧ lost t ∧ t.power.input54 = false ∧ t.power.pwrGood = false) ∧
    (∀ c, s.power.input54 = true → s.power.pwrGood = true → ∃ t, exec (.trip c) s = .next t ∧ lost t ∧
      t.power.tripHold = true ∧ t.power.pwrGood = (match c with | .under => false | _ => true) ∧
      t.flash.faultRecord = (match c with
        | .thermal i => BitVec.ofNat 16 (0x6000 + (if i.val < 5 then i.val else 0x100 + (i.val - 5)))
        | .under => 0x7000
        | .over => 0x7001)) ∧
    (∃ t, exec .inputApply s = .next t ∧ t = { s with power := t.power } ∧ t.power.input54 = true ∧ t.power.pwrGood = true ∧
      t.power.running = s.power.running)

/-- RESET_RELEASE starts a module that neither a trip, the input nor PWR_GOOD holds: from the valid image, of two valid ones
from that with the higher FW_VERSION, the lower slot where they are equal; with none, the module answers only on SMBus (R377,
R389, R399, R418). -/
def Obligations.ReleaseStartsTheNewestValidImage : Prop :=
  ∀ s : State,
    let a := s.firmwareOk s.flash.imageA
    let b := s.firmwareOk s.flash.imageB
    let start := fun (n : Nat) (img : List Byte) => ∃ t, exec .resetRelease s = .next t ∧ t.power.running = true ∧
      t.power.modReset = false ∧ t.power.noImage = false ∧ t.fwImage = n ∧ t.fwVersion = imageVersion img ∧
      t.mem = s.mem ∧ s.fuses.Grew t.fuses ∧ t.ports = s.ports
    (s.power.input54 = false ∨ s.power.pwrGood = false ∨ s.power.tripHold = true → ∃ t, exec .resetRelease s = .next t ∧
      t = { s with power := t.power } ∧ t.power.running = s.power.running ∧ t.power.modReset = false) ∧
    (s.power.input54 = true → s.power.pwrGood = true → s.power.tripHold = false → s.power.running = false →
      (a = true → (b = true → imageVersion s.flash.imageB ≤ imageVersion s.flash.imageA) → start 0 s.flash.imageA) ∧
      (b = true → (a = true → imageVersion s.flash.imageA < imageVersion s.flash.imageB) → start 1 s.flash.imageB) ∧
      (a = false → b = false → ∃ t, exec .resetRelease s = .next t ∧ t.power.running = false ∧ t.power.noImage = true ∧
        t.health.hwFault = 0x8001 ∧ t.mem = s.mem))

/-- FLASH_SEL_N grants the flash to the programmer while the input is off or the module is in reset, and its release takes the
grant back; the SMBus reads answer while PWR_GOOD is high and change nothing (R418, R419). An edge of PPS_IN counts only while
a PTP source is received. One more than 1 µs off, or missing, counts against it, and the third in a row ends its use; sixteen
in a row within 1 µs bring it back. A running module that follows no other takes its synchronisation state from the sources
that it receives (R28, R417). -/
def Obligations.SidebandAndTimeSourceResults : Prop :=
  (∀ s : State,
      exec .flashSelN s = .next { s with power :=
        { s.power with flashSel := true, flashGranted := !s.power.input54 || s.power.modReset } } ∧
      exec .flashSelNRelease s = .next { s with power := { s.power with flashSel := false, flashGranted := false } } ∧
      (s.power.pwrGood = true →
        exec .smbStatus s = .next (s.emit (.smb [BitVec.ofNat 8 ((if s.power.running then 1 else 0) +
          (if s.power.thermAlert then 2 else 0) + (if s.power.modReset || s.power.tripHold then 4 else 0) +
          (if s.power.noImage then 8 else 0))])) ∧
        exec .smbStepping s = .next (s.emit (.smb [0x43])) ∧
        exec .smbSerial s = .next (s.emit (.smb (u64b s.fuses.serial.toNat))) ∧
        exec .smbModuleId s = .next (s.emit (.smb (u16b (s.power.bootModuleId.getD 0xFFFF)))) ∧
        exec .smbHottest s = .next (s.emit (.smb (smbTemp s.hottest))) ∧
        exec .smbHwFault s = .next (s.emit (.smb (u16b s.health.hwFault.toNat))) ∧
        exec .smbSensors s = .next (s.emit (.smb ((List.range 29).flatMap (fun i =>
          if s.sensorUp i then smbTemp (nth s.power.sensors i 0) else u16b 0x8000))))) ∧
      (s.power.pwrGood = false → ∀ i ∈ [Instr.smbStatus, .smbStepping, .smbSerial, .smbModuleId, .smbHottest, .smbHwFault,
        .smbSensors], exec i s = .next s)) ∧
  (∀ s : State,
      let bad : State := { s with power := { s.power with
        ppsBad := s.power.ppsBad + 1, ppsGood := 0, ppsUse := s.power.ppsUse && decide (s.power.ppsBad + 1 < 3) } }
      (s.power.ptp ≠ 0 → exec .ppsEdgeMissing s = .next bad) ∧
      (s.power.ptp = 0 → exec .ppsEdgeMissing s = .next s ∧ ∀ x, exec (.ppsIn x) s = .next s) ∧
      (∀ x : Int, s.power.ptp ≠ 0 → (x < -1000 ∨ 1000 < x) → exec (.ppsIn x) s = .next bad) ∧
      (∀ x : Int, s.power.ptp ≠ 0 → -1000 ≤ x → x ≤ 1000 → exec (.ppsIn x) s = .next { s with power :=
        { s.power with ppsBad := 0, ppsGood := if s.power.ppsUse then s.power.ppsGood else s.power.ppsGood + 1,
                       ppsUse := s.power.ppsUse || decide (16 ≤ s.power.ppsGood + 1) } }) ∧
      (∀ src : BitVec 3, s.power.running = true → ∃ t, exec (.ptpSourceChange src) s = .next t ∧ t.power.ptp = src ∧
        (s.tick.sync = 2 → t.tick.sync = 2) ∧ (s.tick.sync ≠ 2 → t.tick.sync = (if src = 0 then 0 else 1)) ∧ t.mem = s.mem))

/-! ### Health -/

/-- The emergency throttle halves the array clock, to a multiple of 100 MHz and at least 800 MHz, and marks the tick as one of
lost capacity; where the slices that run fit into what is left of the tick, none is killed (R404). The rows that observe and
schedule: a self-test round begins when it is due; a core that fails its test is withdrawn from the next sluice on and
reported; a recalibration is requested, forced when QUIET_WAIT has run out, and ends; an error, an excursion and a sensor's
value are noted for RISK; a scrub ends for every frame that waits for it (R388, R403 to R408). -/
def Obligations.ThrottleAndHealthRowResults : Prop :=
  (∀ (s : State) (tau : Nat), s.power.running = true →
      let f := max 800 (s.power.clockMHz / 200 * 100)
      let rem := (s.tick.periodN * 125000 - tau) * s.tick.coresN * f / 2000
      ((s.unfinished.map (fun x => x.2.offerCost)).sum ≤ rem → exec (.emergencyThrottle tau) s = .next
        ({ s with power := { s.power with clockMHz := f }, tick := { s.tick with lostCapacity := true } } : State).noteChanges) ∧
      ∃ t, exec (.emergencyThrottle tau) s = .next t ∧ t.power.clockMHz = f ∧ t.tick.lostCapacity = true) ∧
  (∀ s : State,
      (s.power.running = true → s.odn 0x8000 4 = 1 → s.health.roundTick = none → s.health.roundDue ≤ s.tick.localNs →
        exec .selftestRound s = .next { s with health := { s.health with
          roundTick := some 0, roundDue := s.tick.localNs + 60000000000 } }) ∧
      (∀ core : Fin 512, core.val ∈ s.cores.testing → exec (.selftestResult core true) s = .next s.noteChanges ∧
        exec (.selftestResult core false) s = .next ({ s with health := { s.health with
          failing := s.health.failing.filter (· != core.val) ++ [core.val]
          hwFault := BitVec.ofNat 16 (0x1000 + core.val) } } : State).noteChanges) ∧
      (∀ stack : Fin 24, s.power.running = true → stack.val ∈ s.stacks → kget s.health.recalRequest stack.val = none →
        stack.val ∉ s.health.recalRunning → exec (.hbmRecalibrationRequest stack) s = .next { s with health := { s.health with
          recalRequest := kset s.health.recalRequest stack.val s.tick.count } }) ∧
      (∀ (stack : Fin 24) (k : Nat), kget s.health.recalRequest stack.val = some k → k + s.odn 0x8000 1 ≤ s.tick.count →
        exec (.quietWaitExpiry stack) s = .next { s with health := { s.health with
          recalForce := s.health.recalForce.filter (· != stack.val) ++ [stack.val] } }) ∧
      (∀ stack : Fin 24, exec (.hbmRecalibrationDone stack) s = .next { s with health := { s.health with
          recalRunning := s.health.recalRunning.filter (· != stack.val) } }) ∧
      (∀ site : CorrectedSite, exec (.correctedError site) s = .next { s with health := (match site with
        | .hbm => { s.health with corrHbm := s.health.corrHbm ++ [s.tick.localNs] }
        | .sram => { s.health with corrSram := s.health.corrSram ++ [s.tick.localNs] }) }) ∧
      exec .inputExcursion s = .next { s with health := { s.health with
        excursions := s.health.excursions ++ [s.tick.localNs] } } ∧
      (∀ (sensor : Fin 29) (m : Int), ∃ t, exec (.thermalAlert sensor m) s = .next t ∧ t = { s with power := t.power } ∧
        t.power.sensors = modNth s.power.sensors sensor.val (fun _ => m) ∧ t.power.clockMHz = s.power.clockMHz) ∧
      exec .scrubDone s = .next ({ s with mem := { s.mem with
        scrubbed := (s.mem.frameUse.filter (fun x => x.2 == .scrub)).map (·.1) } } : State).noteChanges)

/-- RISK is the sum of its points, at most 255: 4 for each degree of the hottest sensor above 85 degrees, 20 for each degree
that it has risen within 60 s, points for corrected and uncorrected errors, retrainings and excursions within their windows,
64 for each withdrawn core, and 255 once a stack or a die has failed (R408). -/
def Obligations.RiskIsTheSumOfItsPoints : Prop :=
  ∀ s : State, s.power.running = true → ∃ t, exec .riskUpdate s = .next t ∧
    let n := fun (seconds : Nat) (l : List Nat) => (l.filter (fun x => s.tick.localNs ≤ x + seconds * 1000000000)).length
    let c := fun (k : Nat) => 8 * Nat.log2 (1 + k)
    t.health.risk = min 255 (min 80 (4 * ((s.hottest - 85000) / 1000).toNat) +
      min 60 (20 * ((s.hottest - s.tempBefore) / 1000).toNat) + min 64 (c (n 60 s.health.corrHbm)) +
      min 32 (c (n 60 s.health.corrSram)) + min 48 (4 * n 3600 s.health.retrains) +
      min 96 (32 * n 3600 s.health.uncorrected) + min 32 (16 * n 3600 s.health.excursions) +
      64 * ((s.health.failing.filter (fun x => !s.cores.failed.contains x)).length + s.cores.failed.length) +
      (if s.health.failedStacks ≠ 0 ∨ s.health.failedDies ≠ 0 then 255 else 0)) ∧
    t.mem = s.mem ∧ t.cores = s.cores

/-- HARDWARE_FAULT of a class with a unit reports it in HW_FAULT and marks what fails: a core is withdrawn, a stack, a die or
a unit is marked failed, the function ROM bars every admission (R406, R409). -/
def Obligations.HardwareFaultsAreReported : Prop :=
  ∀ (s : State) (cls unit : Nat), s.power.running = true →
    let done := fun (p : State → Prop) => ∃ t, exec (.hardwareFault cls unit) s = .next t ∧ t.mem = s.mem ∧
      t.health.hwFault = BitVec.ofNat 16 (cls * 4096 + unit) ∧ p t
    (cls = 1 → unit < 512 → done (fun t => t.health.failing = s.health.failing.filter (· != unit) ++ [unit])) ∧
    (cls = 2 → unit < 24 → done (fun t => t.health.failedStacks = s.health.failedStacks ||| (1#24 <<< unit))) ∧
    (cls = 3 → unit < 4 → done (fun t => t.health.failedDies = s.health.failedDies ||| (1#4 <<< unit))) ∧
    (cls = 4 → unit < 64 → done (fun t => ∀ u q r, s.run u q = some r → r.inBank unit = false →
      s.collInBank u q unit = false → t.run u q = some r)) ∧
    (cls = 5 → unit = 0 → done (fun t => t.power.blocked = true)) ∧
    (cls = 9 → unit < 6 → done (fun t => t.health.failedUnits = s.health.failedUnits.filter (· != unit) ++ [unit]))

/-- An uncorrectable error in a core discards the slices whose data it holds, in a brine buffer those whose tokens it
holds; they stay of this tick and are killed. One in a die-store copy drops the copy, of a tenancy's page or of a page
of the model. None of these fails or ends a command or writes memory. One in a home frame or a cell of a pan ends its
command with ERR_MEMORY_FAILED, and one that is not tied to a unit ends it with ERR_INTERNAL (R298, R410). -/
def Obligations.UncorrectableErrorResults : Prop :=
  ∀ s : State,
    let fails := fun (t : State) (u : Fin 4) (q : Fin 64) (f : Failure → Prop) =>
      ∃ r x, t.run u q = some r ∧ r.fail = some x ∧ f x
    let killed := fun (t : State) (refs : List SliceRef) => ∀ ref ∈ refs, ∀ sl, s.slice ref = some sl →
      (t.slice ref = some { sl with killed := true }) ∧ ∀ c st, t.strand c = some st → st.ref ≠ ref
    let spared := fun (t : State) => ∀ u q r, s.run u q = some r →
      ∃ r', t.run u q = some r' ∧ r'.fail = r.fail ∧ r'.ended = r.ended ∧ r'.words = r.words
    (∀ c : Fin 512, ∃ t, exec (.sramUncorrectableError (.coreStore c)) s = .next t ∧ killed t (s.strandOwners c.val) ∧
      spared t ∧ t.mem = s.mem) ∧
    (∀ c : Fin 512, ∃ t, exec (.sramUncorrectableError (.accumulator c)) s = .next t ∧ killed t (s.strandOwners c.val) ∧
      spared t ∧ t.mem = s.mem) ∧
    (∀ c : Fin 512, ∃ t, exec (.sramUncorrectableError (.brine c)) s = .next t ∧ killed t (s.brineOwners c.val) ∧
      spared t ∧ t.mem = s.mem) ∧
    (∀ (u : Fin 4) (v : Nat) (die : Fin 4) (e : PageEntry), inModelWindow v = false → s.page u v = some e → ∃ t,
      exec (.sramUncorrectableError (.dieCopy u v die)) s = .next t ∧ t.mem.mem = s.mem.mem ∧
      t.page u v = some { e with staged := e.staged &&& ~~~(1#4 <<< die.val) } ∧ t.ports.map (·.queues) = s.ports.map (·.queues)) ∧
    (∀ (u : Fin 4) (v : Nat) (die : Fin 4), inModelWindow v = true → ∃ t,
      exec (.sramUncorrectableError (.dieCopy u v die)) s = .next t ∧ t.mem.mem = s.mem.mem ∧
      kget t.mem.model.staged (v - Config.modelPage0) = (kget s.mem.model.staged (v - Config.modelPage0)).map
        (fun m => m &&& ~~~(1#4 <<< die.val)) ∧ t.ports.map (·.queues) = s.ports.map (·.queues)) ∧
    (∀ (u : Fin 4) (q : Fin 64) (a : Nat) (r : CmdRun), s.run u q = some r → r.fail = none →
      (∃ t, exec (.sramUncorrectableError (.homeFrame u q a)) s = .next t ∧ t.mem = s.mem ∧
        fails t u q (fun x => x.code = Config.errMemoryFailed ∧ x.address = BitVec.ofNat 64 a)) ∧
      (s.panCellAt u q a ≠ none → ∃ t, exec (.sramUncorrectableError (.panCell u q a)) s = .next t ∧ t.mem = s.mem ∧
        fails t u q (fun x => x.code = Config.errMemoryFailed ∧ x.address = BitVec.ofNat 64 a)) ∧
      (∃ t, exec (.sramUncorrectableError (.transient u q)) s = .next t ∧ t.mem = s.mem ∧
        fails t u q (fun x => x.code = Config.errInternal)))

/-! ### Work beside the commands -/

/-- Copies complete: a page that migrates is marked for its switch; a die pin's copy, and a copy that the schedule made, may
be read from then on; the pan adds the next staged contribution to its copy of the page, which it first makes on the page's
own stack (R169, R175, R201). A swapped table has been copied into its new shadow: its commit entry returns to IDLE, and a
stream's table is written as the live one stands; a page directory's is marked, and the sluice then writes it as the live one
stands (R49, R137, R140, R249). -/
def Obligations.CopiesAndTableSyncsComplete : Prop :=
  (∀ (s : State) (t : Fin 4) (v : Nat),
      (∀ e, s.page t v = some e → e.migrateTo ≠ none → ∃ w, exec (.pinMigrationCopyDone t v) s = .next w ∧
        w.page t v = some { e with migrated := true } ∧ (∀ x, x ≠ v → w.page t x = s.page t x) ∧ w.mem.mem = s.mem.mem) ∧
      (∀ e, s.page t v = some e → ∃ w x, exec (.diePinCopyDone t v) s = .next w ∧ w.page t v = some x ∧
        x = { e with staged := x.staged } ∧ w.mem.mem = s.mem.mem ∧
        ∀ d : Fin 4, x.staged.getLsbD d.val = (e.staged.getLsbD d.val ||
          s.mem.dieUse.any (fun y => y.2 == .pin t v && y.1 / Config.dieFrames == d.val))) ∧
      (∀ (d : Fin 4) (p : Nat), d.val ∈ s.diesOf (.model p) → exec (.stagingCopyDone d (.model p)) s = 
        let copies := kset s.mem.model.staged p (((kget s.mem.model.staged p).getD 0) ||| (1#4 <<< d.val))
        .next ({ s with mem := { s.mem with model := { s.mem.model with staged := copies } } } : State).noteChanges) ∧
      (∀ (d : Fin 4) (f : Nat) (k : KvFrame), d.val ∈ s.diesOf (.kv t f) → kget s.mem.kv f = some k →
        ∃ w, exec (.stagingCopyDone d (.kv f)) s = .next w ∧ kget w.mem.kv f = some { k with staged := some d } ∧
          w.mem.mem = s.mem.mem) ∧
      (∀ q r x e, s.stagedNext t v = some (q, r, x) → s.page t v = some e →
        (∀ c, r.copies.find? (fun c => c.vpage == v) = some c → ∃ w y, exec (.stagedAccumulationDone t v) s = .next w ∧
          w.mem.mem = (s.applyStaged c.frame x).mem.mem ∧ w.run t q = some y ∧
          y.copies.find? (fun c => c.vpage == v) = some { c with n := c.n + 1 }) ∧
        (∀ f, r.copies.find? (fun c => c.vpage == v) = none → s.freeOn (stackOfFrame e.home) = some f →
          ∃ w y, exec (.stagedAccumulationDone t v) s = .next w ∧ kget w.mem.frameUse f = some (.fresh t v) ∧
            w.mem.mem = (((s.useFrame f (.fresh t v)).copyFrame e.home f).applyStaged f x).mem.mem ∧ w.run t q = some y ∧
            y.copies.find? (fun c => c.vpage == v) = some ⟨v, f, 1⟩))) ∧
  (∀ s : State,
      let idle := fun (c : CommitState) => if c = .syncing then CommitState.idle else c
      exec (.tableSyncDone .group) s = .next ({ s with od := { s.od with groupCommit := idle s.od.groupCommit } } : State).noteChanges ∧
      exec (.tableSyncDone .quota) s = .next ({ s with od := { s.od with quotaCommit := idle s.od.quotaCommit } } : State).noteChanges ∧
      (∀ t : Fin 4, exec (.tableSyncDone (.skip t)) s =
        .next ({ s with od := { s.od with skipCommit := s.od.skipCommit.set t (idle s.od.skipCommit[t]) } } : State).noteChanges ∧
        exec (.tableSyncDone (.quantiser t)) s = .next ({ s with od := { s.od with
          quantCommit := s.od.quantCommit.set t (idle s.od.quantCommit[t]) } } : State).noteChanges) ∧
      (∀ (t : Fin 4) (desc : Nat), (t.val, desc) ∈ s.mem.dirBusy → (t.val, desc) ∉ s.mem.dirSynced →
        exec (.tableSyncDone (.directory t desc)) s = .next ({ s with mem := { s.mem with
          dirSynced := s.mem.dirSynced ++ [(t.val, desc)] } } : State).noteChanges) ∧
      (∀ (t : Fin 4) (desc : Nat) (q : Seq), s.seqAt t desc = .ok q → q.dirState = 2 →
        let w := s.syncDirectory t desc
        (t.val, desc) ∉ w.mem.dirBusy ∧
          w.mem.mem = ((s.putT t q.shadowDir (s.readT t q.dir (8 * q.heads * q.slots))).setDir t desc 0 none).mem.mem) ∧
      (∀ (n : Fin 16) (x : Stream), kget s.ingest n.val = some x → x.augCommit = .syncing →
        let table := fun (b : Bool) => wbits (nth x.words (if b then 5 else 4) 0) 0 52
        ∃ w, exec (.tableSyncDone (.augmentation n)) s = .next w ∧ kget w.ingest n.val = some { x with augCommit := .idle } ∧
          w.mem.mem = (s.putT x.owner (table (!x.augB)) (s.readT x.owner (table x.augB)
            (32 * wbits (nth x.words 0 0) 28 12))).mem.mem))

/-- A committed snapshot begins its transfer when its group is the tenancy's and free: the group's collective carries the
image of the slot. A group that is no longer the tenancy's fails it. Storage: an acknowledgement advances, a full one ends the
transfer with DONE; after 10 ms without one the transfer goes back to the acknowledged offset, after 5 s it has failed (R366,
R369, R371). -/
def Obligations.SecuringTransferResults : Prop :=
  ∀ (s : State) (t : Fin 4),
    let x := s.tens[t].secure
    let y := x.storage
    (x.waiting = true → s.ownGroup t x.group = true → s.collOf x.group = none → ∀ e, s.group x.group = some e →
      ∃ w c, exec (.secureTransfer t) s = .next w ∧ w.collOf x.group = some c ∧ c.use = .transfer ∧ c.t = t ∧
        c.seq = s.nextSeq x.group ∧ c.members = e.members ∧ c.eligible = some s.tick.count ∧ c.started = false ∧
        (0 < x.imageBytes → c.localImages = [(0, s.readT t x.slotAddr x.imageBytes)]) ∧ c.entry = u64b x.imageBytes ∧
        w.tens[t].secure = { x with waiting := false, transferring := true } ∧ w.mem = s.mem) ∧
    (x.waiting = true → s.ownGroup t x.group = false → exec (.secureTransfer t) s = .next (s.modSecure t (fun x =>
      { x with waiting := false, transferring := false, prevFailed := x.lastFailed, lastFailed := true })).noteChanges) ∧
    (∀ d : List Byte, s.ackOk t d = true → y.acked < leAt d 16 8 → leAt d 16 8 ≤ y.sent →
      (leAt d 16 8 = y.bytes → exec (.storageAck t d) s = .next (((s.emit (.egress y.port y.addr y.udp
        (egressBytes 3 y.key s.moduleId y.position y.step 0 []))).modSecure t (fun z =>
        { z with storage := { z.storage with acked := y.bytes, active := false } })).noteChanges)) ∧
      (leAt d 16 8 ≠ y.bytes → ∃ w, exec (.storageAck t d) s = .next w ∧ w.tens[t].secure.storage =
        { y with acked := leAt d 16 8, sent := max y.sent (min y.bytes (leAt d 16 8 + 67108864)) } ∧ w.mem = s.mem)) ∧
    (y.active = true →
      (∃ w, exec (.storageResendTimeout t) s = .next w ∧
        w.tens[t].secure.storage = { y with sent := max y.acked (min y.bytes (y.acked + 67108864)) } ∧ w.mem = s.mem ∧
        (y.acked < y.bytes → w.out.length = s.out.length + ceilDiv (min (y.bytes - y.acked) 67108864) 8192)) ∧
      exec (.storageFailTimeout t) s = .next (s.modSecure t (fun z =>
        { z with storageFailed := true, storage := { z.storage with active := false } })).noteChanges)

/-! ### Collectives -/

/-- Messages of the group's epoch that match act on its collective. READY of an equal descriptor starts it, two boundaries on,
on the leader, which sends START, and goes on from another member; START sets the boundary or fails a mismatch, and goes on
unless the successor is the leader; PIECE is taken by the running step, and one of another length fails the collective with its
origin's member; COUNTS is added to and passed on, and taken once complete; VERDICT is decided by the leader and merged and
passed on by another member; DECIDE is recorded, and an ABORT kills the later step that runs (R42, R347, R351, R353, R354). A
message of another epoch is dropped and counted; the leader whose wave has not come back in time decides ABORT; a collective
that has waited for COLL_WAIT_TICKS without a step, and one whose step has been in doubt for 4 ticks, fail (R351, R354, R356,
R358). -/
def Obligations.CollectiveMessagesAndTimeouts : Prop :=
  (∀ (s : State) (g : Fin 256) (m : CollMsg) (c : Coll), s.collOf g.val = some c → m.epoch = s.groupEpoch g.val →
      m.seq = c.seq →
      let becomes := fun (i : Instr) (d : Coll) => ∃ w, exec i s = .next w ∧ w.collOf g.val = some d ∧ w.mem = s.mem ∧
        w.cores = s.cores ∧ (∀ h, h ≠ g.val → w.collOf h = s.collOf h)
      let decides := fun (i : Instr) (d : Nat) (k : Coll) => ∃ w, exec i s = .next w ∧ w.collOf g.val = some k ∧ w.mem = s.mem ∧
        (∀ h, h ≠ g.val → w.collOf h = s.collOf h) ∧ (d ≠ 1 → w.cores = s.cores) ∧
        (d = 1 → c.slices = true → ∀ y, c.cur = some y → ∀ sl, s.slice (s.ringRef c y.step) = some sl →
          (sl.state = .admitted ∨ sl.state = .finished) →
          w.slice (s.ringRef c y.step) = some { sl with killed := true })
      let passed := fun (k mis : Nat) =>
        if (c.pos + 1) % max 1 c.size = 0 then s else s.tell g.val c 4 0 0 0 (u64b k ++ u16b mis)
      let starts : Nat → Host.Outcome State Fault Refusal := fun k =>
        .next ((passed k noPos).modColl g.val (fun c => { c with startAt := some k, due := some k }))
      (c.startAt = none → c.ended = false →
        (c.slot = true → m.body = c.descriptor ++ u16b noPos →
          (c.pos = 0 → exec (.ready g m) s = starts (s.tick.count + 2)) ∧
          (c.pos ≠ 0 → exec (.ready g m) s = .next ((s.tell g.val c 3 0 0 0 (c.descriptor ++ u16b noPos)).modColl g.val
            (fun c => { c with readySent := true, readyIn := none })))) ∧
        (∀ b mis, c.pos ≠ 0 → b < 2 ^ 64 → mis < 2 ^ 16 → m.body = u64b b ++ u16b mis →
          (mis = noPos → exec (.start g m) s = starts b) ∧
          (mis ≠ noPos → c.failed = none → becomes (.start g m)
            { c with failed := some (Config.errCollSequence, BitVec.ofNat 64 (c.member mis)) }))) ∧
      (∀ r, c.cur = some r → r.step = m.step → r.attempt = m.attempt →
        ((c.plan r.step).exchange = false → m.piece = (c.plan r.step).recv →
          m.origin = (c.pos + c.size - 1) % max 1 c.size →
          (m.body.length = c.recvLen r.step → exec (.piece g m) s = .next ((s.modColl g.val (fun c =>
            { c with cur := c.cur.map (fun r => { r with arrived := some m.body }) })).pieceReady g.val r.step m.body)) ∧
          (m.body.length ≠ c.recvLen r.step → c.fail = none →
            becomes (.piece g m) { c with fail := some (Config.errGroupInvalid, c.member m.origin) })) ∧
        ((c.plan r.step).exchange = true →
          (m.body.length = c.entryLen * c.pos → c.pos < c.size → exec (.counts g m) s =
            .next (s.tell g.val c 2 r.step r.attempt 0 (m.body ++ c.entry))) ∧
          (m.body.length = c.entryLen * c.size → c.pos ≠ 0 ∨ r.laps = 0 → r.vector = [] → exec (.counts g m) s = .next
            (((s.modColl g.val (fun c => (c.takeVector (splitBytes c.entryLen c.size m.body)).modCur (fun r =>
              { r with vector := splitBytes c.entryLen c.size m.body, laps := r.laps + 1, sent := true, arrived := some [] }))
              ).pieceReady g.val r.step []).tell g.val c 2 r.step r.attempt 0 m.body)))) ∧
      (∀ r a code who, c.prev = some r → r.step = m.step → r.attempt = m.attempt → r.decision = none →
        a < 2 ^ 16 → code < 2 ^ 16 → who < 2 ^ 16 →
        (m.body = u16b a ++ u16b code ++ u16b who →
          (c.pos = 0 → let d := (if code ≠ 0 then 2 else if a ≠ noPos then 1 else 0, a, code, who)
            decides (.verdict g m) d.1 { c with prev := some { r with decision := some d } }) ∧
          (c.pos ≠ 0 → r.waveOut = false →
            becomes (.verdict g m) { c with prev := some { r with waveIn := some (a, code, who), waveOut := true } })) ∧
        (∀ d, d < 3 → c.pos ≠ 0 → m.body = leBytes 1 d ++ u16b a ++ u16b code ++ u16b who →
          decides (.decide g m) d { c with prev := some { r with decision := some (d, a, code, who) } }))) ∧
  (∀ (s : State) (g : Fin 256) (c : Coll), s.collOf g.val = some c →
      let becomes := fun (i : Instr) (d : Coll) => ∃ w, exec i s = .next w ∧ w.collOf g.val = some d ∧ w.mem = s.mem ∧
        w.cores = s.cores
      (∀ m : CollMsg, m.epoch ≠ s.groupEpoch g.val →
        ∀ i ∈ [Instr.ready g m, .start g m, .piece g m, .counts g m, .verdict g m, .decide g m],
          becomes i { c with dropped := c.dropped + 1 }) ∧
      (∀ r, c.prev = some r → r.decision = none →
        (c.pos = 0 → r.boundary + 1 ≤ s.tick.count →
          becomes (.verdictWaveTimeout g) { c with prev := some { r with decision := some (1, noPos, 0, 0) } }) ∧
        (4 ≤ r.doubt → c.failed = none → becomes (.inDoubtExpiry g)
          { c with failed := some (Config.errLinkDown, BitVec.ofNat 64 (s.lostNeighbour c)) })) ∧
      (∀ k, c.eligible = some k → k + s.odn 0x5000 2 ≤ s.tick.count → c.started = false → c.ended = false →
        c.failed = none → (∀ x ∈ s.coll.colls, x.1 = g.val → x.2 = c) → becomes (.collWaitExpiry c.t c.q)
          { c with failed := some (Config.errCollStalled, BitVec.ofNat 64 g.val) }))

/-! ### Laniak -/

/-- Training. A trained port that loses lock on a lane of its set, that has 17 uncorrectable codewords in a tick, or whose
wider set has passed its test, retrains with its buffers kept; loss of signal and a flit that stays unacknowledged take it down
with its buffers lost, but for the messages that wait whole; a down port tries again. Training ends on the widest set of lanes
that pass, the lowest of equals, or with the port down, and sends on each lane of the set its number, the lanes that passed, the
port and the next SEQ that it expects (R320 to R323, R327). -/
def Obligations.TrainingMovesThePort : Prop :=
  ∀ (s : State) (p : Fin 18),
    let x := s.lport p
    let becomes := fun (i : Instr) (y : LPort) => ∃ w, exec i s = .next w ∧ w.lport p = y ∧ w.mem = s.mem ∧ w.coll = s.coll
    let down : LPort := { x with
      state := .down, lanes := 0, retryBuf := [], rxMsg := [], rxUsed := [], credits := [], shared := 0, peer := none
      held := false, gap := false, goodTicks := 0, delayNs := none, queue := wholeMessages x.queue [] }
    (x.state = .trained →
      (∀ lane : Fin 8, x.lanes.getLsbD lane.val = true → becomes (.laneLockLoss p lane) { x with state := .training }) ∧
      becomes (.errorCountRetrain p) { x with state := .training, uncorrectable := max 17 x.uncorrectable } ∧
      (∀ lanes m, pickLanes (lanes ||| x.lanes) = some m → popcount x.lanes.toNat 0 8 < popcount m.toNat 0 8 →
        (∀ k, x.lastWiden = some k → k + 10000 ≤ s.tick.count) →
        becomes (.laneTestPass p lanes) { x with state := .training, lastWiden := some s.tick.count })) ∧
    (s.linkEnabled p = true →
      becomes (.signalLoss p) down ∧
      (x.state = .down → becomes (.retrainTimer p) { x with state := .training }) ∧
      (x.state ≠ .trained → s.power.running = true → ∀ lanes n,
        (pickLanes lanes = none → becomes (.linkTrained p lanes n) down) ∧
        (∀ m, pickLanes lanes = some m → ∃ w, exec (.linkTrained p lanes n) s = .next w ∧ (w.lport p).state = .trained ∧
          (w.lport p).lanes = m ∧ (w.lport p).rxSeq = x.rxSeq ∧ (w.lport p).peer = x.peer ∧ w.mem = s.mem ∧
          ∀ i : Fin 8, m.getLsbD i.val = true → .training p.val i.val lanes x.rxSeq ∈ w.out))) ∧
    ((∃ f ∈ x.retryBuf, f.tick + 2 ≤ s.tick.count) → becomes (.ackTimeout p) down)

/-- Flits on a trained port. The header of a good one acknowledges flits, which leave the retry buffer, and returns credits. The
expected DATA or CONTROL flit is taken and what it carries is handled, DATA on a port that carries it and on a held port HELLO
only; any other, and one whose CRC or header is bad, is dropped and asked for once, and the port retrains after more than 64
such requests in a tick. RETRY resends from the SEQ that it names; while a gap lasts RETRY is repeated, and IDLE carries what is
due (R321, R324 to R326, R330). -/
def Obligations.FlitsAreTakenInOrder : Prop :=
  ∀ (s : State) (p : Fin 18) (flit : List Byte), (s.lport p).state = .trained →
    let x := s.lport p
    let dropped := fun (i : Instr) =>
      (x.gap = true → x.uncorrectable ≤ 16 → x.retries ≤ 64 → exec i s = .next s.noteChanges) ∧
      (x.gap = false → ∃ w, exec i s = .next w ∧ (w.lport p).gap = true ∧ (w.lport p).retries = x.retries + 1 ∧
        (w.lport p).rxSeq = x.rxSeq ∧ w.coll = s.coll ∧ s.out.length < w.out.length ∧
        (w.lport p).state = (if 16 < x.uncorrectable ∨ 64 ≤ x.retries then .training else .trained))
    (parseFlit flit = none → ∀ i ∈ [Instr.data p flit, .control p flit, .retry p flit, .idle p flit], dropped i) ∧
    (∀ h body, parseFlit flit = some (h, body) →
      let u := s.takeHead p h
      let v := (s.modL p (fun y => { y with rxSeq := (y.rxSeq + 1) % 4096, gap := false })).takeHead p h
      (h.type = 1 → h.seq = x.rxSeq → exec (.data p flit) s =
        .next (if v.carriesData p then v.takeData p h body else v).noteChanges) ∧
      (h.type = 2 → h.seq = x.rxSeq → exec (.control p flit) s =
        .next (if v.heldPort p = true ∧ body.head? ≠ some 1 then v else v.recvControl p body).noteChanges) ∧
      (h.seq ≠ x.rxSeq → (h.type = 1 → dropped (.data p flit)) ∧ (h.type = 2 → dropped (.control p flit))) ∧
      (h.type = 3 → exec (.retry p flit) s = .next (u.resendFrom p (leAt body 0 2 % 4096)).noteChanges) ∧
      (h.type = 0 → exec (.idle p flit) s = .next u.noteChanges ∧ (x.queue = [] →
        (∀ pre f post, x.retryBuf = pre ++ f :: post → f.seq = h.ack → (∀ e ∈ pre, e.seq ≠ h.ack) →
          (u.lport p).retryBuf = post) ∧
        (h.crCount ≠ 0 → crGet (u.lport p).credits (crKey h.crGroup h.crHop) =
          min 16 (crGet x.credits (crKey h.crGroup h.crHop) + h.crCount)) ∧
        (h.crShared ≠ 0 → (u.lport p).shared = min 1008 (x.shared + h.crShared))))) ∧
    (x.gap = true → exec (.retryRepeatTimer p) s = .next (s.sendPlain p 3 (leBytes 2 x.rxSeq)).noteChanges) ∧
    exec (.idleTimer p) s = .next (s.sendPlain p 0 []).noteChanges

/-- Discovery. HELLO names the neighbour, and holds a port that joins two of one identifier or two of different roles, whose
outer neighbour is of the pond, or whose link is longer than 1 µs; of two with one identifier the one with the higher serial
number holds all its ports. NEIGHBOURS and VIEW of a confirmed neighbour are kept. The pond is formed at its boundary with its
lowest member as tick master, whom the others take as parent, and what was announced is over where the view has not changed. The
timers send what is due (R329 to R331, R334). -/
def Obligations.DiscoveryResults : Prop :=
  ∀ (s : State) (p : Fin 18),
    let x := s.lport p
    (∀ m : HelloMsg, x.state = .trained → m.moduleId ≤ 4095 → m.port ≤ 17 → m.version = 1 → 1 ≤ m.tickN → m.tickN ≤ 128 →
      ∃ w, exec (.hello p m) s = .next w ∧ w.mem = s.mem ∧ w.coll = s.coll ∧
        (w.lport p).peer = some ⟨m.moduleId, m.serial, m.port, m.outer, m.tickCount⟩ ∧
        ((w.lport p).held = true ↔ m.moduleId = s.moduleId ∨ m.outer ≠ outerPort p ∨
          (outerPort p = true ∧ m.moduleId ∈ s.net.pond) ∨ ∃ d, x.delayNs = some d ∧ 1000 < d) ∧
        (w.net.heldAll = true ↔ s.net.heldAll = true ∨ m.moduleId = s.moduleId ∧ m.serial < s.fuses.serial.toNat)) ∧
    (∀ e, s.confirmed p = true → x.peer = some e →
      (∀ l, l.length ≤ 18 → ∃ w, exec (.neighbours p l) s = .next w ∧
        kget w.net.neighbours e.moduleId = some l ∧ w.mem = s.mem ∧ w.coll = s.coll) ∧
      (∀ n l, outerPort p = false → 1 ≤ l.length → l.length ≤ 8 → rising l = true → ∃ w, exec (.view p n l) s = .next w ∧
        kget w.net.views e.moduleId = some l ∧ w.net.ports = s.net.ports ∧ w.mem = s.mem ∧ w.coll = s.coll)) ∧
    (s.net.pondAt ≠ 0 → s.net.pondAt = s.tick.count ∨ s.net.pondAt = s.tick.count + 1 →
      ∀ a l, s.net.nextPond = a :: l → ∃ w, exec .pondFormation s = .next w ∧ w.net.pond = a :: l ∧ w.net.tickMaster = a ∧
        (s.pondView = a :: l → w.net.pondAt = 0 ∧ w.net.nextPond = []) ∧
        (a ≠ s.moduleId → w.net.parent = w.portToward a) ∧ w.mem = s.mem) ∧
    exec .helloTimer s = .next (s.each (allP.filter (fun r => (s.lport r).up)) (fun s r =>
      s.sendControl r (s.helloBytes r))).noteChanges ∧
    exec .neighboursTimer s = .next (s.sendAll (fun r => (s.lport r).up) s.neighbourBytes).noteChanges

/-- The distribution of ticks. A module follows a TICK of its tick parent: its synchronisation state becomes 2, the anchor and
the announcements are taken over. One that joins takes the parent's period and the higher of the two counts, and cuts its tick
short; where the parent's count is higher and a jump is announced, it waits. After 16 boundaries without one a tick master of a
pond without offers runs on its own. OFFER is kept; DELAY_REQ is answered, DELAY_RESP gives the link's delay; CREDIT reaches the
source of a relayed route, for 16 flits at most; COUNT_UP goes to the parent, or makes the system tick master announce a jump at
least 16 boundaries on; an announced period or jump takes force at its boundary (R325, R328, R334 to R338). -/
def Obligations.TickDistributionResults : Prop :=
  ∀ (s : State) (p : Fin 18),
    let x := s.lport p
    (∀ e, s.confirmed p = true → x.peer = some e →
      (∀ m : TickMsg, outerPort p = false → s.fromParent p = true → 1 ≤ m.tickN → m.tickN ≤ 128 → 1 ≤ m.nextN →
        m.nextN ≤ 128 → m.masterState ≤ 1 → m.masterId ≤ 4095 →
        let taken := fun (w : State) (ahead : Nat) => exec (.tick p m) s = .next w ∧ w.mem = s.mem ∧
          w.tick.sync = 2 ∧ w.tick.anchorTick = m.anchorTick + ahead ∧ w.tick.anchorS = m.anchorS ∧
          w.tick.anchorNs = m.anchorNs ∧ w.net.systemMaster = m.masterId ∧ w.net.distance = m.distance + 1 ∧
          w.net.noTick = 0 ∧ w.net.parent = some p.val ∧ w.net.ahead = ahead ∧
          (m.changeAt ≠ 0 → w.net.changeAt = m.changeAt + ahead ∧ w.net.nextN = m.nextN) ∧
          (m.jumpAt ≠ 0 → w.net.jumpAt = m.jumpAt + ahead ∧ w.net.jumpTo = m.jumpTo)
        (s.tick.sync = 2 → (m.boundary + s.net.ahead = s.tick.count ∨ m.boundary + s.net.ahead = s.tick.count + 1) →
          ∃ w, taken w s.net.ahead ∧ w.tick.count = s.tick.count ∧ w.tick.periodN = s.tick.periodN ∧
            (m.changeAt = 0 → s.net.changeAt = 0 → m.tickN ≠ s.tick.periodN →
              w.net.changeAt = s.tick.count + 1 ∧ w.net.nextN = m.tickN)) ∧
        (s.tick.sync ≠ 2 → s.tick.count < m.boundary → m.jumpAt ≠ 0 → exec (.tick p m) s = .next ({ s with net :=
          { s.net with parent := some p.val, noTick := 0 } } : State).noteChanges) ∧
        (s.tick.sync ≠ 2 → m.boundary ≤ s.tick.count ∨ m.jumpAt = 0 → ∃ w, taken w (s.tick.count - m.boundary) ∧
          w.tick.count = max s.tick.count m.boundary ∧ w.tick.periodN = m.tickN ∧ w.tick.lostCapacity = true)) ∧
      (∀ a d n, outerPort p = false → s.isPondMaster = true → a ≤ 4095 → n ≤ 17 → ∃ w, exec (.offer p a d n) s = .next w ∧
        (⟨a, d, e.moduleId, n⟩ : Offer) ∈ w.net.offers ∧ w.net.ports = s.net.ports ∧ w.mem = s.mem) ∧
      (∀ g n c r, s.collOf g = some c → s.route c.succ = some r → r.relay ≠ none → p.val ∈ r.ports →
        exec (.credit p g n) s = .next ((({ s with net := { s.net with
          endCredits := kset s.net.endCredits g (min 16 (crGet s.net.endCredits g + n)) } } : State).each allP
            (fun s r => s.flush r)).noteChanges)) ∧
      (∀ n, (s.tick.sync = 2 → exec (.countUp p n) s =
          .next (s.sendAll (fun y => s.net.parent == some y.val) (countUpBytes n)).noteChanges) ∧
        (s.tick.sync ≠ 2 → s.tick.count < n →
          let high := if s.net.jumpAt = 0 then n else max n (s.net.jumpTo - (s.net.jumpAt - s.tick.count))
          exec (.countUp p n) s = .next ({ s with net := { s.net with
            highest := high, jumpAt := s.tick.count + 17, jumpTo := high + 17 } } : State).noteChanges))) ∧
    (s.tick.sync = 2 → 16 ≤ s.net.noTick → s.isPondMaster = true → s.net.offers = [] → ∃ w, exec .tickLoss s = .next w ∧
      w.net.parent = none ∧ w.net.systemMaster = s.moduleId ∧ w.net.distance = 0 ∧ w.tick.anchorDue = true ∧
      w.tick.sync = s.ownSync ∧ w.tick.count = s.tick.count ∧ w.mem = s.mem) ∧
    (∀ t1 now, exec (.delayReq p t1 now) s = .next (s.sendControl p (delayRespBytes t1 now now)).noteChanges) ∧
    (∀ now, exec (.delayReqTimer now) s = .next (s.sendAll (fun r => (s.lport r).up) (delayReqBytes now)).noteChanges) ∧
    (∀ t1 t2 t3 t4 : Nat, x.state = .trained → s.heldPort p = false →
      let d := ((((t4 : Int) - t1) - ((t3 : Int) - t2)) / 2).toNat
      ∃ w, exec (.delayResp p t1 t2 t3 t4) s = .next w ∧ (w.lport p).delayNs = some d ∧
        (w.lport p).held = decide (1000 < d) ∧ w.mem = s.mem ∧ w.coll = s.coll) ∧
    (s.net.changeAt = s.tick.count + 1 → exec .tickPeriodChange s = .next ({ s with
      od := { s.od with rwt := kset s.od.rwt (odKey 0x2000 1) (.num s.net.nextN) }
      net := { s.net with changeAt := 0 } } : State).noteChanges) ∧
    (s.net.jumpAt = s.tick.count + 1 → 
      let moved := fun (k : Nat) => if k ≠ 0 ∧ s.net.jumpAt ≤ k then k + (s.net.jumpTo - s.net.jumpAt) else k
      exec .tickJump s = .next ({ s with
        tick := { s.tick with count := max s.tick.count (s.net.jumpTo - 1) }
        net := { s.net with jumpAt := 0, jumpTo := 0, highest := 0, ahead := 0, changeAt := moved s.net.changeAt
                            pondAt := moved s.net.pondAt } } : State).noteChanges)

/-! ### Host ports -/

/-- Queue control and doorbells of an open port. CREATE of an absent queue of 2^4 to 2^16 entries, DELETE of an active
or halted one, RESUME of a halted one, a CMD_TAIL that moves the tail on within the ring, and a CPL_HEAD within it take
effect; every other is logged with ERR_QUEUE_INVALID and the queue's index, and changes nothing else; a CMD_TAIL outside
the sluice does the BAR2 accesses that the port holds first (R282 to R286). The registers of an open port. EVENT_CAUSE
clears what is written as 1; MBX_CTRL starts a request of 1 to 16,384 bytes; MBX_STATUS clears READY; a write reaches
WINDOW_BASE, EVENT_MASK, a queue block that allows it, and the request area. A read answers the register (R279, R283,
R284, R292, R299). -/
def Obligations.QueueControlAndPortRegisterResults : Prop :=
  (∀ (s : State) (t : Fin 4) (q : Fin 64), s.portOpen t = true →
      let x := s.queue t q
      let log2 := bits x.config.toNat 0 5
      let puts := fun (f : Queue → Queue) => Host.Outcome.next (s.modQueue t q f).noteChanges
      let begun := (x.run.map (·.begun)).getD false
      let refused := fun (i : Instr) => ∃ w, exec i s = .next w ∧ w.ports[t].errlogSeq = s.ports[t].errlogSeq + 1 ∧
        w.queue t q = x ∧ w.mem = s.mem ∧ ∃ e, kget w.ports[t].errlog (s.ports[t].errlogSeq.toNat % 256) = some e ∧
          e.code = Config.errQueueInvalid ∧ e.address = BitVec.ofNat 64 q.val ∧ e.queue = q.val ∧ e.tick = s.tick.count
      (x.state = .absent → 4 ≤ log2 → log2 ≤ 16 → exec (.create t q) s = puts (fun x => { x with createPending := true })) ∧
      (x.state ≠ .absent ∨ log2 < 4 ∨ 16 < log2 → refused (.create t q)) ∧
      (x.state = .active ∨ x.state = .halted → exec (.delete t q) s = puts (fun x => { x with
        state := .deleting, resumePending := false, avail := if begun then x.avail.take 1 else []
        run := if begun then x.run else none })) ∧
      (x.state = .absent ∨ x.state = .deleting → refused (.delete t q)) ∧
      (x.state = .halted → exec (.resume t q) s = puts (fun x => { x with resumePending := true })) ∧
      (x.state ≠ .halted → refused (.resume t q)) ∧
      (∀ tail atNs entries,
        let e := 2 ^ (x.config.toNat % 32)
        let n := (tail + e - x.tail) % e
        let new := (List.range n).map (fun i => (⟨nth entries i (List.replicate 16 0), s.tick.count, atNs⟩ : Avail))
        let now := s.tick.sluiceLen ≤ atNs → s.ports[t].held = []
        (s.tick.sluiceLen ≤ atNs → exec (.cmdTail t q tail atNs entries) s = exec (.cmdTail t q tail atNs entries) (s.bar2Flush t)) ∧
        (now → x.state = .active ∨ x.state = .halted → tail < e →
          (x.tail + e - x.ended % e) % e ≤ (tail + e - x.ended % e) % e → exec (.cmdTail t q tail atNs entries) s = .next
            ((s.modQueue t q (fun x => { x with tail := tail, avail := x.avail ++ new })).bump 0x902B (2 + 16 * t.val) n
              ).noteChanges) ∧
        (now → x.state = .absent ∨ x.state = .deleting ∨ e ≤ tail ∨
          (tail + e - x.ended % e) % e < (x.tail + e - x.ended % e) % e → refused (.cmdTail t q tail atNs entries))) ∧
      (∀ head,
        let e := 2 ^ (x.config.toNat % 32)
        (x.state ≠ .absent → head < e → exec (.cplHead t q head) s =
          puts (fun x => { x with cplFreed := x.cplFreed + (head + e - x.cplFreed % e) % e })) ∧
        (x.state = .absent ∨ e ≤ head → refused (.cplHead t q head)))) ∧
  (∀ (s : State) (t : Fin 4), s.portOpen t = true →
      let p := s.ports[t]
      let puts := fun (f : HostPort → HostPort) => Host.Outcome.next (s.modPort t f).noteChanges
      let reads := fun (offset width n : Nat) =>
        exec (.bar0Read t offset width) s = .next (s.emit (.bar0 t (BitVec.ofNat 64 n))).noteChanges
      (∀ v : W32, exec (.eventCause t v) s = puts (fun p => { p with eventCause := p.eventCause &&& ~~~v }) ∧
        exec (.registerWrite t 0x18 4 (v.setWidth 64)) s = puts (fun p => { p with eventCause := p.eventCause &&& ~~~v }) ∧
        exec (.registerWrite t 0x1C 4 (v.setWidth 64)) s =
          .next (s.withCause t (fun p => { p with eventMask := v &&& 0x1F })).noteChanges ∧
        (p.mbxBusy = false → 1 ≤ v.toNat → v.toNat ≤ 16384 →
          exec (.mbxCtrl t v) s = puts (fun p => { p with mbxBusy := true, mbxLen := v.toNat })) ∧
        (v.getLsbD 30 = true → exec (.mbxStatus t v) s = puts (fun p => { p with mbxReady := false })) ∧
        (v.getLsbD 30 = false → exec (.mbxStatus t v) s = .next s.noteChanges)) ∧
      (∀ v : W64, exec (.registerWrite t 0x10 8 v) s = puts (fun p => { p with windowBase := v &&& 0x000FFFFFFFE00000 }) ∧
        (∀ i, 8 * i + 8 ≤ 16384 → exec (.registerWrite t (0x8000 + 8 * i) 8 v) s =
          puts (fun p => { p with mbxReq := splice p.mbxReq (8 * i) (leBytes 8 v.toNat) })) ∧
        (∀ q : Fin 64, (s.queue t q).state = .absent → v.toNat % 4096 = 0 →
          exec (.registerWrite t (0x4000 + 64 * q.val) 8 v) s =
            .next (s.modQueue t q (fun x => { x with cmdBase := v })).noteChanges ∧
          exec (.registerWrite t (0x4008 + 64 * q.val) 8 v) s =
            .next (s.modQueue t q (fun x => { x with cplBase := v })).noteChanges)) ∧
      reads 0x00 8 (s.moduleId * 2 ^ 32 + 0x4300 + t.val) ∧ reads 0x08 8 s.tick.count ∧ reads 0x10 8 p.windowBase.toNat ∧
      reads 0x18 4 p.eventCause.toNat ∧ reads 0x1C 4 p.eventMask.toNat ∧ reads 0x20 4 p.errlogSeq.toNat ∧
      reads 0x28 4 ((if p.mbxBusy then 2 ^ 31 else 0) + (if p.mbxReady then 2 ^ 30 else 0) + p.mbxRespLen) ∧
      reads 0x30 8 (s.haltedMask t) ∧
      (∀ q : Fin 64,
        let x := s.queue t q
        let b := 0x4000 + 64 * q.val
        reads b 8 x.cmdBase.toNat ∧ reads (b + 8) 8 x.cplBase.toNat ∧ reads (b + 0x10) 4 x.config.toNat ∧
        reads (b + 0x18) 4 (x.state.code + 256 * x.qepoch.toNat) ∧ reads (b + 0x1C) 4 (x.ended % 2 ^ (x.config.toNat % 32)) ∧
        reads (b + 0x20) 8 x.fence))

/-- An access to BAR0 at a reserved offset, of a wrong width or misaligned is refused with ERR_BAR_ACCESS: a read returns all
ones, a write changes nothing. A write of that kind to a queue block is refused with ERR_QUEUE_INVALID and the queue's index. It
is logged: the entry with SEQ s lies at 0x6000 + 32 * (s mod 256), over the oldest; ERRLOG_SEQ goes on and EVENT_CAUSE bit 0 is
set (R279, R284, R293, R294). -/
def Obligations.RefusedBar0AccessIsLogged : Prop :=
  ∀ (s : State) (t : Fin 4) (offset width : Nat) (v : W64), s.portOpen t = true →
    let n := s.ports[t].errlogSeq.toNat
    let logged := fun (w : State) (address detail : Nat) => w.ports[t].errlogSeq = s.ports[t].errlogSeq + 1 ∧
      w.ports[t].eventCause.getLsbD 0 = true ∧ w.mem = s.mem ∧ (∀ q, w.queue t q = s.queue t q) ∧
      w.readBar0 t (0x6000 + 32 * (n % 256)) 4 = some 0xFFFFFFFF ∧
      w.readBar0 t (0x6004 + 32 * (n % 256)) 4 = some n ∧
      w.readBar0 t (0x6008 + 32 * (n % 256)) 8 = some (s.tick.count % 2 ^ 64) ∧
      w.readBar0 t (0x6010 + 32 * (n % 256)) 8 = some (address % 2 ^ 64) ∧
      w.readBar0 t (0x6018 + 32 * (n % 256)) 8 = some detail ∧
      ∀ i, i < 256 → i ≠ n % 256 → kget w.ports[t].errlog i = kget s.ports[t].errlog i
    let access := 3 * 2 ^ 40 + Config.errBarAccess * 2 ^ 48
    let bad := ¬ (width = 4 ∨ width = 8) ∨ offset % width ≠ 0 ∨ 65536 < offset + width
    let q : Fin 64 := Fin.ofNat 64 ((offset - 0x4000) / 64)
    (bad ∨ s.readBar0 t offset width = none →
      ∃ w, exec (.bar0Read t offset width) s = .next w ∧ logged w offset access ∧
        .bar0 t (BitVec.ofNat 64 (2 ^ (8 * width) - 1)) ∈ w.out) ∧
    ((bad ∧ (offset < 0x4000 ∨ 0x5000 ≤ offset)) ∨ (0xC000 ≤ offset ∧ offset < 65536) →
      ∃ w, exec (.registerWrite t offset width v) s = .next w ∧ logged w offset access) ∧
    (0x4000 ≤ offset → offset < 0x5000 → bad ∨ queueRegWidth (offset % 64) ≠ some width →
      ∃ w, exec (.registerWrite t offset width v) s = .next w ∧ logged w q.val
        (q.val * 2 ^ 24 + (s.queue t q).qepoch.toNat * 2 ^ 32 + 4 * 2 ^ 40 + Config.errQueueInvalid * 2 ^ 48))

/-- BAR2. An access during the sluice is held, in order, at the address that WINDOW_BASE gives it when it comes. Outside
it a read of pages that the host may read answers the committed bytes, and a write of pages that it may write stores its
bytes at once, at their home frames, and nothing else; an access that a page refuses is refused whole: a read answers
all ones, a write stores nothing. The end of the sluice releases what was held (R37, R38, R280). -/
def Obligations.Bar2AccessResults : Prop :=
  ∀ (s : State) (t : Fin 4) (offset atNs : Nat), s.portOpen t = true →
    let p := s.ports[t]
    let a := p.windowBase.toNat + offset
    let free : State := s.modPort t (fun p => { p with held := [] })
    let inside := fun (v : Nat) => ∀ f, s.reachCommitted t v = .frame f → f * Config.pageBytes < Config.stacksEnd
    (atNs < s.tick.sluiceLen → ∀ n bs,
      exec (.bar2Read t offset n atNs) s = .next (s.modPort t (fun p => { p with held := p.held ++ [.read a n] })).noteChanges ∧
      exec (.bar2Write t offset bs atNs) s =
        .next (s.modPort t (fun p => { p with held := p.held ++ [.write a bs] })).noteChanges) ∧
    (s.tick.sluiceLen ≤ atNs → p.held = [] → ∀ n,
      ((∀ v ∈ pagesOf a n, s.bar2Error t false v = none ∧ inside v) →
        exec (.bar2Read t offset n atNs) s = .next (free.emit (.bar2 t (s.readT t a n))).noteChanges) ∧
      (∀ e, (pagesOf a n).findSome? (s.bar2Error t false) = some e → ∃ w, exec (.bar2Read t offset n atNs) s = .next w ∧
        .bar2 t (List.replicate n 0xFF) ∈ w.out ∧ w.mem = s.mem)) ∧
    (s.tick.sluiceLen ≤ atNs → p.held = [] → ∀ bs,
      ((∀ v ∈ pagesOf a bs.length, s.bar2Error t true v = none ∧ inside v) → s.shadowLocked t a bs.length = false →
        ∃ w, exec (.bar2Write t offset bs atNs) s = .next w ∧ w.mem.mem = (s.putT t a bs).mem.mem ∧
          ∀ x, (∀ i f, i < bs.length → s.reachCommitted t (pageOf (a + i)) = .frame f → x ≠ phys f (a + i)) →
            memRead w.mem.mem x = memRead s.mem.mem x) ∧
      (∀ e, (pagesOf a bs.length).findSome? (s.bar2Error t true) = some e →
        ∃ w, exec (.bar2Write t offset bs atNs) s = .next w ∧ w.mem = s.mem)) ∧
    (p.held = [] → exec (.bar2HoldRelease t) s = .next free.noteChanges) ∧
    (∀ b n, p.held = [.read b n] → (∀ v ∈ pagesOf b n, s.bar2Error t false v = none ∧ inside v) →
      exec (.bar2HoldRelease t) s = .next (free.emit (.bar2 t (s.readT t b n))).noteChanges)

/-- A reset event of a port kills every slice of its tenancy that runs, frees its contexts, stops its mailbox and its held
accesses, and closes the port until the sluice has reset the tenancy; nothing of another tenancy and no memory changes.
PERSTt_N also stays asserted until it is deasserted (R297). -/
def Obligations.PortResetKillsTheTenancy : Prop :=
  ∀ (s : State) (t : Fin 4), s.power.running = true →
    (∀ i ∈ [Instr.hotReset t, .linkDisable t, .dataLinkLoss t, .functionLevelReset t, .d3hotToD0 t, .perstAssert t],
      ∃ w, exec i s = .next w ∧ w.mem = s.mem ∧ w.ports[t].inReset = true ∧ w.ports[t].held = [] ∧
        w.ports[t].mbxBusy = false ∧ w.ports[t].mbxReady = false ∧ w.ports[t].mbxLen = 0 ∧
        w.ports[t].perst = (s.ports[t].perst || i == .perstAssert t) ∧
        (∀ c st, w.strand c = some st → st.ref.t ≠ t) ∧
        (∀ c st, s.strand c = some st → st.ref.t ≠ t → w.strand c = some st) ∧
        (∀ q idx sl, s.slice ⟨t, q, idx⟩ = some sl → sl.inTick = true →
          w.slice ⟨t, q, idx⟩ = some { sl with killed := true }) ∧
        (∀ u, u ≠ t → ∀ q, w.queue u q = s.queue u q)) ∧
    exec (.perstDeassert t) s = .next (s.modPort t (fun p => { p with perst := false })).noteChanges

/-! ### Dictionary frames, installation, ingest and codec units -/

/-- A frame that arrives during a sluice waits, and the frames that wait are applied in order after it. Outside one it is
checked and answered: what breaks the layout with status 1, a good REQUEST without a session by applying its records, OPEN
with a new session, CLOSE by closing it, POLL with the records that wait; what is no frame is discarded (R299, R301, R303,
R305, R315). The oldest frame that waits is applied; a session that has been idle is closed; a store that ends writes the area
that does not hold the newest values, which stay; NOTIFY sends every session what waits for it (R303, R305, R313 to R315). -/
def Obligations.DictionaryFrameAndServiceResults : Prop :=
  (∀ (s : State) (src : Transport) (f : List Byte) (atNs : Nat), s.carries src f = true →
      let i : Instr := if ownRow f then
          (if jType f = 4 then .jdpOpen src f atNs else if jType f = 6 then .close src f atNs else .poll src f atNs)
        else .request src f atNs
      let type := jType f
      let frame := 32 ≤ f.length ∧ leAt f 0 1 = 1 ∧ s.jdpOn src = true ∧ (type = 1 ∨ type = 4 ∨ type = 6 ∨ type = 7)
      let good := frame ∧ jHeadOk f = true ∧ jTypeOk src type = true
      let plain := jSession f = 0 ∧ jSigned f = false
      let u := s.bump 0x902C 1 1
      (atNs < s.tick.sluiceLen → exec i s = .next ({ s with od := { s.od with
        deferred := s.od.deferred ++ [⟨src, f⟩] } } : State).noteChanges) ∧
      (s.tick.sluiceLen ≤ atNs → s.od.deferred = [] →
        (¬ frame → ∀ e, src = .ethernet e → exec i s = .next (u.bump 0x902C 2 1).noteChanges) ∧
        (frame → jHeadOk f = false ∨ jTypeOk src type = false ∨ jRecs f = none →
          exec i s = .next (u.refuseFrame src f 1).noteChanges) ∧
        (∀ recs, good → plain → type = 1 → jRecs f = some recs →
          exec i s = .next (u.applyRequest ⟨src, none, none⟩ f recs).noteChanges) ∧
        (∀ e, src = .ethernet e → good → plain → type = 4 → jRecs f = some [] → s.od.sessions.length < 16 →
          ∃ w x, exec i s = .next w ∧ w.od.sessions.length = s.od.sessions.length + 1 ∧ w.od.sessions.getLast? = some x ∧
            x.addr = e.addr ∧ x.peer = e ∧ x.seenNs = s.tick.localNs ∧ 1 ≤ x.number ∧ x.number < 2 ^ 32 ∧ x.lastSeq = 0 ∧ x.subs = [] ∧ w.mem = s.mem ∧
            ∃ resp, .jdp src resp ∈ w.out) ∧
        (∀ x, good → type = 6 → jRecs f = some [] → jSigned f = false → s.sessionOf src f = some x → x.lastFrame ≠ f →
          x.lastSeq < jSeq f → s.install.session ≠ jSession f → ∃ w, exec i s = .next w ∧
            (∀ y ∈ w.od.sessions, y.number ≠ jSession f) ∧ w.mem = s.mem ∧ ∃ resp, .jdp src resp ∈ w.out) ∧
        (∀ t, src = .mailbox t → good → plain → type = 7 → jRecs f = some [] → ∃ w, exec i s = .next w ∧
          w.ports[t].mbxBusy = false ∧ w.ports[t].mbxReady = true ∧ w.ports[t].eventCause.getLsbD 2 = true ∧ w.mem = s.mem ∧
          (s.od.mbxPend[t] = [] → w.ports[t].mbxRespLen = 32)))) ∧
  (∀ s : State,
      (∀ d rest, s.od.deferred = d :: rest → exec .frameDeferredApply s =
        .next (({ s with od := { s.od with deferred := rest } } : State).receiveFrame d.src d.frame).noteChanges) ∧
      (s.od.deferred = [] → exec .frameDeferredApply s = .next s.noteChanges) ∧
      (∀ x ∈ s.od.sessions, s.sessionIdle x = true → s.install.session ≠ x.number → ∃ w, exec (.sessionIdleExpiry x.number) s = .next w ∧
        (∀ y ∈ w.od.sessions, y.number ≠ x.number) ∧ w.mem = s.mem ∧ w.install = s.install) ∧
      (s.od.storeState = 1 → ∀ ok : Bool,
        let area : StoreArea := ⟨s.flash.newest.serial + 1, ok, s.od.storeTaken⟩
        ∃ w, exec (.storeDone ok) s = .next w ∧ w.od.storeState = (if ok then 0 else 2) ∧ w.mem = s.mem ∧
          w.flash.storeCount = (if ok then (s.flash.storeCount + 1) % 2 ^ 32 else s.flash.storeCount) ∧
          (if s.flash.newestIsB then w.flash.storeA = area ∧ w.flash.storeB = s.flash.storeB
            else w.flash.storeB = area ∧ w.flash.storeA = s.flash.storeA)) ∧
      ∃ w, exec .notify s = .next w ∧ (∀ y ∈ w.od.sessions, y.pend = []) ∧ w.mem = s.mem ∧ w.install = s.install)

/-- The control datagrams of the installation port, from a signed session with the INSTALL right: OPEN begins an installation
of this APN while no model is sealed and nothing is in progress; ABORT ends it and scrubs its frames; REMOVE is taken only
while quiesced; FW_OPEN begins an update of the slot that does not run. STATUS is answered; ATTEST is answered with a report
(R378 to R383, R388, R391, R393). The course of an installation: DATA of the session is stored once, at its offset, and phase
2 follows the last byte; the timer repeats the ACK; a finished digest commits in the sluice, where the one that the header
claims ends phase 2 and another ends the installation; the publisher's signature and a well-formed image bring the seal (R384 to R386, R388). -/
def Obligations.InstallationResults : Prop :=
  (∀ (s : State) (port : Fin 3) (addr : UdpAddrs) (d : List Byte) (x : Session),
      let src : Endpoint := { addr with port := port }
      s.sessionOf (.ethernet src) d = some x → x.instFrame ≠ d → jSigned d = true → s.signatureOk x d = true →
      x.instSeq < jSeq d → ((s.rightsOf d).getD 0).testBit 0 = true →
      let b := iBody d
      (s.instArrives src d 1 = true → openBodyOk b = true → s.mem.model.sealedNow = false → s.install.busy = false →
        (leAt b 8 2 = 3 → ∃ w, exec (.installOpen port addr d) s = .next w ∧ w.install.state = 1 ∧ w.install.phase = 0 ∧
          w.install.bytes = 0 ∧ w.install.framesDue = true ∧ w.install.imageBytes = leAt b 0 8 ∧ w.install.session = jSession d ∧ w.install.src = src ∧
          w.install.claimed = Machine.slice b 16 32 ∧ w.mem = s.mem) ∧
        (leAt b 8 2 ≠ 3 → ∃ w, exec (.installOpen port addr d) s = .next w ∧ w.install = s.install ∧ w.mem = s.mem)) ∧
      (s.instArrives src d 5 = true → iLength d = 0 → s.install.state = 1 → ∃ w, exec (.abort port addr d) s = .next w ∧
        w.install.state = 0 ∧ w.install.phase = s.install.phase ∧ w.install.frames = [] ∧ w.mem.mem = s.mem.mem ∧
        w.flash.journalState = 0 ∧ ∀ f ∈ s.install.frames, kget w.mem.frameUse f = some .scrub) ∧
      (s.instArrives src d 6 = true → iLength d = 0 → ∃ w, exec (.remove port addr d) s = .next w ∧ w.mem = s.mem ∧
        w.install = (if s.od.quiesceState = 2 then { s.install with removeDue := s.mem.model.sealedNow } else s.install)) ∧
      (s.instArrives src d 9 = true → fwHeaderOk b = true → s.install.busy = false →
        ∃ w, exec (.fwOpen port addr d) s = .next w ∧ w.install.fwActive = true ∧ w.install.fwSlotB = (s.fwImage == 0) ∧
          w.install.fwBytes = 8192 + leAt b 16 8 ∧ w.mem = s.mem ∧
          (if s.fwImage = 0 then w.flash.imageB = b ∧ w.flash.imageA = s.flash.imageA
            else w.flash.imageA = b ∧ w.flash.imageB = s.flash.imageB)) ∧
      ∀ e : List Byte,
        (s.instArrives src e 4 = true → jSigned e = false → iLength e = 0 → exec (.installStatus port addr e) s =
          .next (s.instReply src e (if s.install.state = 1 then s.install.bytes else 0) 0)) ∧
        (s.instArrives src e 7 = true → iLength e = 32 → 5 ∉ s.health.failedUnits →
          ∃ w y, exec (.attest port addr e) s = .next w ∧ w.mem = s.mem ∧ w.install = s.install ∧
            w.out = s.out ++ [.install src y])) ∧
  (∀ s : State,
      let x := s.install
      (∀ (port : Fin 3) (addr : UdpAddrs) (d : List Byte),
        let src : Endpoint := { addr with port := port }
        s.instArrives src d 2 = true → jSession d = x.session →
        src.addr = x.src.addr → (s.sessionOf (.ethernet src) d).isSome = true → x.state = 1 → x.phase = 1 →
        dataShape d x.imageBytes = true → hasRange x.received (iOffset d) (iOffset d + iLength d) = false →
        ∃ w, exec (.installData port addr d) s = .next w ∧
          w.mem.mem = (s.writeVia (fun v => x.frames[v]?) (iOffset d) (iBody d)).mem.mem ∧
          w.install.received = addRange (iOffset d) (iOffset d + iLength d) x.received ∧
          w.install.bytes = gapless w.install.received ∧
          w.install.phase = (if w.install.bytes = x.imageBytes then 2 else 1) ∧ w.install.state = 1) ∧
      (x.state = 1 → x.phase = 1 → exec .installAckTimer s = .next s.sendAck) ∧
      (x.digestRun = true → exec .installDigestDone s = .next { s with install :=
        { s.install with digestRun := false, digestEnd := true } }) ∧
      (x.digestEnd = true → let w := s.endDigest
        w.mem.mem = s.mem.mem ∧ w.install.digestEnd = false ∧
        (if treeDigest (s.imageBytesAt 0 x.imageBytes) 1 = x.claimed
          then w.install.phase = 3 ∧ w.install.state = x.state ∧ w.install.frames = x.frames
          else w.install.state = 4 ∧ w.install.frames = [] ∧ ∀ f ∈ x.frames, kget w.mem.frameUse f = some .scrub)) ∧
      (x.state = 1 → x.phase = 3 →
        let ok := Config.mldsaVerify x.publisherKey s.publisherMessage x.publisherSig
        ∃ w, exec .installSignatureDone s = .next w ∧ w.mem.mem = s.mem.mem ∧
          (if ok = true ∧ s.placeImage.isSome = true
            then w.install.phase = 5 ∧ w.install.state = 1 ∧ w.install.sealDue = true ∧ w.install.frames = x.frames
            else w.install.state = 4 ∧ w.install.frames = [] ∧ w.install.sealDue = false)))

/-- An INGEST_DATAGRAM whose header keeps its ranges adds its bytes to the sample at its position; one of no stream is counted
and dropped. A host read that fails decides its slot as UNREADABLE, one that succeeds completes the slot's sample; a spent
budget abandons the sample that is being decoded; once WAIT_TICKS have passed every undecided slot without a sample is ABSENT
(R245 to R247, R252, R253). CODEC_FRAME_DONE of a unit that works serves the next context in its round. A decode unit ends a
frame of a command: what it writes is stored, its record among it, and the command's counts go on. An encode unit whose
attempt is too large for the rate tries again with a higher quantiser, at most 3 times (R228, R233, R234, R240). -/
def Obligations.IngestAndCodecUnitResults : Prop :=
  (∀ s : State,
      (∀ (port : Fin 3) (d : List Byte), port.val ≠ 2 → 4 ∉ s.health.failedUnits →
        let f := leAt d
        let len := d.length - 48
        (kget s.ingest (f 1 1) = none → exec (.ingestDatagram port d) s = .next (s.bump 0x9029 9 1)) ∧
        (∀ x, kget s.ingest (f 1 1) = some x → x.batch = none → 48 ≤ d.length → f 0 1 = 1 → f 1 1 ≤ 15 → x.visible = true →
          x.source ≠ 0 → f 2 2 = pf x.words 4 52 12 → x.position ≤ f 8 8 → f 8 8 < x.position + 4 * x.slotN →
          f 28 4 + len ≤ f 24 4 → 1 ≤ f 24 4 → (x.samples.map (·.total)).sum + f 24 4 ≤ x.rxBytes → x.sample (f 8 8) = none →
          ∃ w z y, exec (.ingestDatagram port d) s = .next w ∧ kget w.ingest (f 1 1) = some z ∧ z.position = x.position ∧
            y ∈ z.samples ∧ y.position = f 8 8 ∧ y.sampleId = BitVec.ofNat 64 (f 16 8) ∧ y.total = f 24 4 ∧ y.frames = f 6 2 ∧
            (∀ i, i < len → kget y.bytes (f 28 4 + i) = (d.drop 48)[i]?) ∧ y.bytes.length = len ∧
            (∀ u ∈ x.samples, u ∈ z.samples) ∧ w.mem = s.mem)) ∧
      (∀ (n : Fin 16) (x : Stream) (b : Batch), kget s.ingest n.val = some x → x.batch = some b →
        (∀ slot sl, x.source = 0 → b.slots[slot]? = some sl → sl.reason = none → x.sample sl.position = none →
          exec (.hostSampleReadDone n slot none) s = .next ((s.decideSlot n.val b slot 4 (fun sl =>
            { sl with sampleId := nth ((b.hostList[slot]?).getD []) 1 0 })).writeBatch n.val) ∧
          ∀ desc, b.hostList[slot]? = some desc → ∀ bs, ∃ y : Sample, y.position = sl.position ∧ y.sampleId = nth desc 1 0 ∧ y.total = wbits (nth desc 2 0) 32 32 ∧
            y.frames = wbits (nth desc 2 0) 16 16 ∧ y.completeTick = some s.tick.count ∧ y.result = none ∧
            y.bytes.length = y.total ∧ exec (.hostSampleReadDone n slot (some bs)) s =
              .next ((s.modStream n.val (fun x => { x with samples := x.samples ++ [y] })).advanceBatch n.val)) ∧
        (∀ pos, x.decodePos s.tick.count = some pos → b.replay = false → exec (.decodeBudgetExpiry n) s =
          .next ((s.modSample n.val pos (fun y => { y with result := some 2 })).advanceBatch n.val)) ∧
        (x.source = 1 → b.replay = false → b.admitted + x.wait ≤ s.tick.count → x.samples = [] →
          (∀ sl ∈ b.slots, sl.reason = none ∧ sl.expect = none) →
          ∃ w z c, exec (.arrivalWaitExpiry n) s = .next w ∧ kget w.ingest n.val = some z ∧ z.batch = some c ∧
            c.slots.length = b.slots.length ∧ (∀ sl ∈ c.slots, sl.reason = some 3) ∧ w.codec = s.codec))) ∧
  (∀ (s : State) (engine : Fin 4) (n : Nat) (c : CodecCtx) (j : CodecJob), engine.val ∉ s.health.failedUnits →
      kget s.codec n = some c → c.stream = none → c.job = some j →
      (s.nextCtx false engine.val engine.val = some (n, c) → c.encode = false →
        let o := s.decodeFrame (s.reachSlice (opRef j.t j.q)) (c.decIn j)
        let record := (pf j.params 3 0 52 + 32 * j.written, o.record)
        let k : CodecJob := { j with
          consumed := j.consumed + o.bytes
          frames := j.frames + (if o.decoded then 1 else 0)
          written := j.written + 1
          input := [((((j.input.head?).map (·.1)).getD []).drop o.bytes, 0)]
          buffers := o.buffers
          decodeIndex := j.decodeIndex + 1
          history := j.history ++ (((j.input.head?).map (·.1)).getD []).take o.bytes }
        ∃ w, exec (.codecFrameDone .decode engine) s = .next w ∧
          ∀ u, s.opWrites j.t j.q (o.writes ++ [record]) = some u → (u.countFrame o).decodeStop c k = none →
            kget w.codec n = some { c with job := some k } ∧ kget w.lastServed engine.val = some n ∧ w.mem.mem = u.mem.mem) ∧
      (s.nextCtx true engine.val (4 + engine.val) = some (n, c) → c.encode = true →
        let key := j.key c
        let e := quantOf (((s.run j.t j.q).map (·.quant)).getD []) c.quality
        let qp := if j.attempt = 0 then (if key then e.2.1 else e.1) else j.qp
        let frame := nth j.input j.frames ([], 0)
        let unit := c.temporalUnit j.history (bufferBytesOf s (s.reachSlice (opRef j.t j.q)) (c.encIn j [])) frame.1 qp key
        c.maxKbps ≠ 0 → j.allowed c < ((8 * unit.length : Nat) : Int) → qp ≠ 255 → j.attempt ≠ 3 →
          exec (.codecFrameDone .encode engine) s = .next { (s.bump 0x9028 8 1).modCodec n (fun c =>
            { c with job := some { j with attempt := j.attempt + 1, qp := min 255 (qp + e.2.2 * 2 ^ j.attempt) } }) with
            lastServed := kset s.lastServed (4 + engine.val) n }))
end

