-- ==== Sys2Proof/Laws/Memory.lean ====
section
/-! SUPPORT. Sparse maps and canonical memory: what a read finds after a write, and that every memory operation keeps the
canonical form. -/
namespace Sys2Proof.Machine

open Sys2Proof

/-- The keys of a map rise strictly. -/
def kRising {β : Type} (m : KMap β) : Prop := m.Pairwise (fun x y => x.1 < y.1)

theorem kget_cons_eq {β : Type} (k : Nat) (v : β) (m : KMap β) : kget ((k, v) :: m) k = some v := by simp [kget]

/-- A key that lies below every listed key is not listed. -/
theorem kget_none_of_lt {β : Type} {m : KMap β} {k : Nat} (h : ∀ x ∈ m, k < x.1) : kget m k = none := by
  induction m with
  | nil => rfl
  | cons x r ih =>
    obtain ⟨a, b⟩ := x
    have h1 : k < a := h (a, b) (by simp)
    have h2 : kget r k = none := ih (fun x hx => h x (by simp [hx]))
    simp [kget, Nat.ne_of_gt h1, h2]

/-- What a key reads after a set. -/
theorem kget_kset {β : Type} (m : KMap β) (k j : Nat) (v : β) :
    kget (kset m k v) j = if j = k then some v else kget m j := by
  induction m with
  | nil => simp [kset, kget, eq_comm]
  | cons x r ih =>
    obtain ⟨a, b⟩ := x
    unfold kset
    split
    · simp [kget, eq_comm]
    · split
      · rename_i _ e
        subst e
        by_cases h : j = k
        · simp [kget, h]
        · simp [kget, h, Ne.symm h]
      · simp only [kget, ih]
        split
        · subst_vars
          rename_i h1 h2
          simp [h2, eq_comm]
        · rfl

/-- What a key reads after a delete. -/
theorem kget_kdel {β : Type} (m : KMap β) (k j : Nat) : kget (kdel m k) j = if j = k then none else kget m j := by
  induction m with
  | nil => simp [kdel, kget]
  | cons x r ih =>
    obtain ⟨a, b⟩ := x
    unfold kdel at ih ⊢
    by_cases h : a = k
    · subst h
      simp only [List.filter_cons, bne_self_eq_false, Bool.false_eq_true, if_false, ih, kget]
      by_cases hj : j = a <;> simp [hj, eq_comm]
    · simp only [List.filter_cons, bne_iff_ne, ne_eq, h, not_false_eq_true, if_true, kget, ih]
      by_cases hj : a = j
      · subst hj; simp [h]
      · simp [hj]

theorem mem_kset {β : Type} {m : KMap β} {k : Nat} {v : β} {x : Nat × β} (h : x ∈ kset m k v) : x = (k, v) ∨ x ∈ m := by
  induction m with
  | nil => simpa [kset] using h
  | cons y r ih =>
    obtain ⟨a, b⟩ := y
    unfold kset at h
    split at h
    · simpa using h
    · split at h
      · rcases List.mem_cons.mp h with h | h
        · exact Or.inl h
        · exact Or.inr (List.mem_cons_of_mem _ h)
      · rcases List.mem_cons.mp h with h | h
        · exact Or.inr (h ▸ List.mem_cons_self)
        · rcases ih h with h | h
          · exact Or.inl h
          · exact Or.inr (List.mem_cons_of_mem _ h)

theorem kset_rising {β : Type} {m : KMap β} (k : Nat) (v : β) (h : kRising m) : kRising (kset m k v) := by
  induction m with
  | nil => simp [kset, kRising]
  | cons y r ih =>
    obtain ⟨a, b⟩ := y
    unfold kRising at h ih ⊢
    rw [List.pairwise_cons] at h
    unfold kset
    split
    · rename_i hk
      rw [List.pairwise_cons]
      refine ⟨?_, List.pairwise_cons.mpr h⟩
      intro z hz
      simp only [List.mem_cons] at hz
      rcases hz with rfl | hz
      · exact hk
      · exact Nat.lt_trans hk (h.1 z hz)
    · split
      · subst_vars
        exact List.pairwise_cons.mpr h
      · rename_i h1 h2
        rw [List.pairwise_cons]
        refine ⟨?_, ih h.2⟩
        intro z hz
        rcases mem_kset hz with rfl | hz
        · simp only; omega
        · exact h.1 z hz

theorem kdel_rising {β : Type} {m : KMap β} (k : Nat) (h : kRising m) : kRising (kdel m k) := h.filter _

/-- The canonical form, in terms of lists. -/
theorem memWf_iff (m : List Host.Cell) : memWf m = true ↔ kRising (β := Byte) m ∧ ∀ x ∈ m, x.2 ≠ 0 := by
  induction m with
  | nil => simp [memWf, kRising]
  | cons x r ih =>
    obtain ⟨a, b⟩ := x
    cases r with
    | nil => simp [memWf, kRising]
    | cons y r =>
      obtain ⟨a', b'⟩ := y
      simp only [memWf, Bool.and_eq_true, bne_iff_ne, ne_eq, decide_eq_true_eq, ih]
      unfold kRising
      constructor
      · rintro ⟨⟨hb, ha⟩, hp, hn⟩
        refine ⟨List.pairwise_cons.mpr ⟨?_, hp⟩, ?_⟩
        · intro z hz
          rcases List.mem_cons.mp hz with rfl | hz
          · exact ha
          · exact Nat.lt_trans ha ((List.pairwise_cons.mp hp).1 z hz)
        · intro z hz
          rcases List.mem_cons.mp hz with rfl | hz
          · exact hb
          · exact hn z hz
      · rintro ⟨hp, hn⟩
        have hp' := List.pairwise_cons.mp hp
        exact ⟨⟨hn (a, b) (by simp), hp'.1 (a', b') (by simp)⟩, hp'.2, fun z hz => hn z (by simp [hz])⟩

theorem memWf_filter {m : List Host.Cell} (p : Host.Cell → Bool) (h : memWf m = true) : memWf (m.filter p) = true := by
  rw [memWf_iff] at h ⊢
  exact ⟨h.1.filter _, fun x hx => h.2 x (List.mem_filter.mp hx).1⟩

/-- Writing one byte keeps the canonical form. -/
theorem memWrite_wf {m : List Host.Cell} (a : Nat) (b : Byte) (h : memWf m = true) : memWf (memWrite m a b) = true := by
  unfold memWrite
  split
  · exact memWf_filter _ h
  · rename_i hb
    rw [memWf_iff] at h ⊢
    refine ⟨kset_rising _ _ h.1, fun x hx => ?_⟩
    rcases mem_kset hx with rfl | hx
    · exact hb
    · exact h.2 x hx

/-- Writing bytes keeps the canonical form. -/
theorem memWriteN_wf {m : List Host.Cell} (a : Nat) (bs : List Byte) (h : memWf m = true) :
    memWf (memWriteN m a bs) = true := by
  induction bs generalizing m a with
  | nil => exact h
  | cons b r ih => exact ih _ (memWrite_wf _ _ h)

/-- Zeroing a range keeps the canonical form. -/
theorem memZero_wf {m : List Host.Cell} (lo hi : Nat) (h : memWf m = true) : memWf (memZero m lo hi) = true :=
  memWf_filter _ h

theorem foldl_memWrite_wf {α : Type} (l : List α) (f : α → Nat) (g : α → Byte) {m : List Host.Cell} (h : memWf m = true) :
    memWf (l.foldl (fun acc x => memWrite acc (f x) (g x)) m) = true := by
  induction l generalizing m with
  | nil => exact h
  | cons x r ih => exact ih (memWrite_wf _ _ h)

/-- Copying a range keeps the canonical form. -/
theorem memCopy_wf {m : List Host.Cell} (src dst n : Nat) (h : memWf m = true) : memWf (memCopy m src dst n) = true :=
  foldl_memWrite_wf _ _ _ (memZero_wf _ _ h)

/-- What an address reads after a byte is written. -/
theorem memRead_memWrite (m : List Host.Cell) (a j : Nat) (b : Byte) :
    memRead (memWrite m a b) j = if j = a then b else memRead m j := by
  unfold memRead memWrite
  split
  · rw [kget_kdel]
    split
    · subst_vars; rfl
    · rfl
  · rw [kget_kset]
    split <;> rfl

/-- Bytes written leave every other address as it was. -/
theorem memRead_memWriteN_out (m : List Host.Cell) (a j : Nat) (bs : List Byte) (h : j < a ∨ a + bs.length ≤ j) :
    memRead (memWriteN m a bs) j = memRead m j := by
  induction bs generalizing m a with
  | nil => rfl
  | cons b r ih =>
    simp only [List.length_cons] at h
    rw [memWriteN, ih _ _ (by omega), memRead_memWrite, if_neg (by omega)]

/-- Bytes written are read back. -/
theorem memRead_memWriteN_in (m : List Host.Cell) (a : Nat) (bs : List Byte) (i : Nat) (h : i < bs.length) :
    memRead (memWriteN m a bs) (a + i) = bs[i] := by
  induction bs generalizing m a i with
  | nil => simp at h
  | cons b r ih =>
    rw [memWriteN]
    cases i with
    | zero =>
      rw [memRead_memWriteN_out _ _ _ _ (by omega), memRead_memWrite]
      simp
    | succ i =>
      have := ih (memWrite m a b) (a + 1) i (by simpa using h)
      rw [show a + (i + 1) = a + 1 + i by omega, this]
      rfl

/-- A zeroed range reads 0, and every other address as before. -/
theorem memRead_memZero (m : List Host.Cell) (lo hi j : Nat) :
    memRead (memZero m lo hi) j = if lo ≤ j ∧ j < hi then 0 else memRead m j := by
  unfold memRead memZero
  induction m with
  | nil => simp [kget]
  | cons x r ih =>
    obtain ⟨a, b⟩ := x
    simp only [List.filter_cons]
    split
    · rename_i h
      simp only [Bool.or_eq_true, decide_eq_true_eq] at h
      simp only [kget]
      by_cases ha : a = j
      · subst ha
        simp only [if_true]
        rw [if_neg (by omega)]
      · simp only [ha, if_false]; exact ih
    · rename_i h
      simp only [Bool.or_eq_true, decide_eq_true_eq, not_or, Nat.not_lt, Nat.not_le] at h
      rw [ih]
      by_cases ha : a = j
      · subst ha
        rw [if_pos (by omega), if_pos (by omega)]
      · simp [kget, ha]

end Sys2Proof.Machine
end

