-- ==== Sys2Proof/Laws/State.lean ====
section
/-! SUPPORT. The updates of State: one lemma for each field that an update leaves, and what the read of a strand, a queue,
a command or a counter finds after an update. -/
namespace Sys2Proof.Machine

open Sys2Proof

@[simp] theorem State.bump_pending (s : State) (index sub n : Nat) : (s.bump index sub n).pending = s.pending := rfl
@[simp] theorem State.bump_free (s : State) (index sub n : Nat) : (s.bump index sub n).free = s.free := rfl
@[simp] theorem State.bump_out (s : State) (index sub n : Nat) : (s.bump index sub n).out = s.out := rfl
@[simp] theorem State.bump_tick (s : State) (index sub n : Nat) : (s.bump index sub n).tick = s.tick := rfl
@[simp] theorem State.bump_power (s : State) (index sub n : Nat) : (s.bump index sub n).power = s.power := rfl
@[simp] theorem State.bump_fuses (s : State) (index sub n : Nat) : (s.bump index sub n).fuses = s.fuses := rfl
@[simp] theorem State.bump_flash (s : State) (index sub n : Nat) : (s.bump index sub n).flash = s.flash := rfl
@[simp] theorem State.bump_fwImage (s : State) (index sub n : Nat) : (s.bump index sub n).fwImage = s.fwImage := rfl
@[simp] theorem State.bump_fwVersion (s : State) (index sub n : Nat) : (s.bump index sub n).fwVersion = s.fwVersion := rfl
@[simp] theorem State.bump_fwDigest (s : State) (index sub n : Nat) : (s.bump index sub n).fwDigest = s.fwDigest := rfl
@[simp] theorem State.bump_ports (s : State) (index sub n : Nat) : (s.bump index sub n).ports = s.ports := rfl
@[simp] theorem State.bump_mem (s : State) (index sub n : Nat) : (s.bump index sub n).mem = s.mem := rfl
@[simp] theorem State.bump_cores (s : State) (index sub n : Nat) : (s.bump index sub n).cores = s.cores := rfl
@[simp] theorem State.bump_tens (s : State) (index sub n : Nat) : (s.bump index sub n).tens = s.tens := rfl
@[simp] theorem State.bump_codec (s : State) (index sub n : Nat) : (s.bump index sub n).codec = s.codec := rfl
@[simp] theorem State.bump_lastServed (s : State) (index sub n : Nat) : (s.bump index sub n).lastServed = s.lastServed := rfl
@[simp] theorem State.bump_ingest (s : State) (index sub n : Nat) : (s.bump index sub n).ingest = s.ingest := rfl
@[simp] theorem State.bump_ingestPos (s : State) (index sub n : Nat) : (s.bump index sub n).ingestPos = s.ingestPos := rfl
@[simp] theorem State.bump_install (s : State) (index sub n : Nat) : (s.bump index sub n).install = s.install := rfl
@[simp] theorem State.bump_net (s : State) (index sub n : Nat) : (s.bump index sub n).net = s.net := rfl
@[simp] theorem State.bump_coll (s : State) (index sub n : Nat) : (s.bump index sub n).coll = s.coll := rfl
@[simp] theorem State.bump_health (s : State) (index sub n : Nat) : (s.bump index sub n).health = s.health := rfl

@[simp] theorem State.bumpT_pending (s : State) (t : Fin 4) (index sub n : Nat) : (s.bumpT t index sub n).pending = s.pending := rfl
@[simp] theorem State.bumpT_free (s : State) (t : Fin 4) (index sub n : Nat) : (s.bumpT t index sub n).free = s.free := rfl
@[simp] theorem State.bumpT_out (s : State) (t : Fin 4) (index sub n : Nat) : (s.bumpT t index sub n).out = s.out := rfl
@[simp] theorem State.bumpT_tick (s : State) (t : Fin 4) (index sub n : Nat) : (s.bumpT t index sub n).tick = s.tick := rfl
@[simp] theorem State.bumpT_power (s : State) (t : Fin 4) (index sub n : Nat) : (s.bumpT t index sub n).power = s.power := rfl
@[simp] theorem State.bumpT_fuses (s : State) (t : Fin 4) (index sub n : Nat) : (s.bumpT t index sub n).fuses = s.fuses := rfl
@[simp] theorem State.bumpT_flash (s : State) (t : Fin 4) (index sub n : Nat) : (s.bumpT t index sub n).flash = s.flash := rfl
@[simp] theorem State.bumpT_fwImage (s : State) (t : Fin 4) (index sub n : Nat) : (s.bumpT t index sub n).fwImage = s.fwImage := rfl
@[simp] theorem State.bumpT_fwVersion (s : State) (t : Fin 4) (index sub n : Nat) : (s.bumpT t index sub n).fwVersion = s.fwVersion := rfl
@[simp] theorem State.bumpT_fwDigest (s : State) (t : Fin 4) (index sub n : Nat) : (s.bumpT t index sub n).fwDigest = s.fwDigest := rfl
@[simp] theorem State.bumpT_ports (s : State) (t : Fin 4) (index sub n : Nat) : (s.bumpT t index sub n).ports = s.ports := rfl
@[simp] theorem State.bumpT_mem (s : State) (t : Fin 4) (index sub n : Nat) : (s.bumpT t index sub n).mem = s.mem := rfl
@[simp] theorem State.bumpT_cores (s : State) (t : Fin 4) (index sub n : Nat) : (s.bumpT t index sub n).cores = s.cores := rfl
@[simp] theorem State.bumpT_tens (s : State) (t : Fin 4) (index sub n : Nat) : (s.bumpT t index sub n).tens = s.tens := rfl
@[simp] theorem State.bumpT_codec (s : State) (t : Fin 4) (index sub n : Nat) : (s.bumpT t index sub n).codec = s.codec := rfl
@[simp] theorem State.bumpT_lastServed (s : State) (t : Fin 4) (index sub n : Nat) : (s.bumpT t index sub n).lastServed = s.lastServed := rfl
@[simp] theorem State.bumpT_ingest (s : State) (t : Fin 4) (index sub n : Nat) : (s.bumpT t index sub n).ingest = s.ingest := rfl
@[simp] theorem State.bumpT_ingestPos (s : State) (t : Fin 4) (index sub n : Nat) : (s.bumpT t index sub n).ingestPos = s.ingestPos := rfl
@[simp] theorem State.bumpT_install (s : State) (t : Fin 4) (index sub n : Nat) : (s.bumpT t index sub n).install = s.install := rfl
@[simp] theorem State.bumpT_net (s : State) (t : Fin 4) (index sub n : Nat) : (s.bumpT t index sub n).net = s.net := rfl
@[simp] theorem State.bumpT_coll (s : State) (t : Fin 4) (index sub n : Nat) : (s.bumpT t index sub n).coll = s.coll := rfl
@[simp] theorem State.bumpT_health (s : State) (t : Fin 4) (index sub n : Nat) : (s.bumpT t index sub n).health = s.health := rfl

@[simp] theorem State.emit_pending (s : State) (o : Out) : (s.emit o).pending = s.pending := rfl
@[simp] theorem State.emit_free (s : State) (o : Out) : (s.emit o).free = s.free := rfl
@[simp] theorem State.emit_tick (s : State) (o : Out) : (s.emit o).tick = s.tick := rfl
@[simp] theorem State.emit_power (s : State) (o : Out) : (s.emit o).power = s.power := rfl
@[simp] theorem State.emit_fuses (s : State) (o : Out) : (s.emit o).fuses = s.fuses := rfl
@[simp] theorem State.emit_flash (s : State) (o : Out) : (s.emit o).flash = s.flash := rfl
@[simp] theorem State.emit_fwImage (s : State) (o : Out) : (s.emit o).fwImage = s.fwImage := rfl
@[simp] theorem State.emit_fwVersion (s : State) (o : Out) : (s.emit o).fwVersion = s.fwVersion := rfl
@[simp] theorem State.emit_fwDigest (s : State) (o : Out) : (s.emit o).fwDigest = s.fwDigest := rfl
@[simp] theorem State.emit_od (s : State) (o : Out) : (s.emit o).od = s.od := rfl
@[simp] theorem State.emit_ports (s : State) (o : Out) : (s.emit o).ports = s.ports := rfl
@[simp] theorem State.emit_mem (s : State) (o : Out) : (s.emit o).mem = s.mem := rfl
@[simp] theorem State.emit_cores (s : State) (o : Out) : (s.emit o).cores = s.cores := rfl
@[simp] theorem State.emit_tens (s : State) (o : Out) : (s.emit o).tens = s.tens := rfl
@[simp] theorem State.emit_codec (s : State) (o : Out) : (s.emit o).codec = s.codec := rfl
@[simp] theorem State.emit_lastServed (s : State) (o : Out) : (s.emit o).lastServed = s.lastServed := rfl
@[simp] theorem State.emit_ingest (s : State) (o : Out) : (s.emit o).ingest = s.ingest := rfl
@[simp] theorem State.emit_ingestPos (s : State) (o : Out) : (s.emit o).ingestPos = s.ingestPos := rfl
@[simp] theorem State.emit_install (s : State) (o : Out) : (s.emit o).install = s.install := rfl
@[simp] theorem State.emit_net (s : State) (o : Out) : (s.emit o).net = s.net := rfl
@[simp] theorem State.emit_coll (s : State) (o : Out) : (s.emit o).coll = s.coll := rfl
@[simp] theorem State.emit_health (s : State) (o : Out) : (s.emit o).health = s.health := rfl

@[simp] theorem State.modPort_pending (s : State) (t : Fin 4) (f : HostPort → HostPort) : (s.modPort t f).pending = s.pending := rfl
@[simp] theorem State.modPort_free (s : State) (t : Fin 4) (f : HostPort → HostPort) : (s.modPort t f).free = s.free := rfl
@[simp] theorem State.modPort_out (s : State) (t : Fin 4) (f : HostPort → HostPort) : (s.modPort t f).out = s.out := rfl
@[simp] theorem State.modPort_tick (s : State) (t : Fin 4) (f : HostPort → HostPort) : (s.modPort t f).tick = s.tick := rfl
@[simp] theorem State.modPort_power (s : State) (t : Fin 4) (f : HostPort → HostPort) : (s.modPort t f).power = s.power := rfl
@[simp] theorem State.modPort_fuses (s : State) (t : Fin 4) (f : HostPort → HostPort) : (s.modPort t f).fuses = s.fuses := rfl
@[simp] theorem State.modPort_flash (s : State) (t : Fin 4) (f : HostPort → HostPort) : (s.modPort t f).flash = s.flash := rfl
@[simp] theorem State.modPort_fwImage (s : State) (t : Fin 4) (f : HostPort → HostPort) : (s.modPort t f).fwImage = s.fwImage := rfl
@[simp] theorem State.modPort_fwVersion (s : State) (t : Fin 4) (f : HostPort → HostPort) : (s.modPort t f).fwVersion = s.fwVersion := rfl
@[simp] theorem State.modPort_fwDigest (s : State) (t : Fin 4) (f : HostPort → HostPort) : (s.modPort t f).fwDigest = s.fwDigest := rfl
@[simp] theorem State.modPort_od (s : State) (t : Fin 4) (f : HostPort → HostPort) : (s.modPort t f).od = s.od := rfl
@[simp] theorem State.modPort_mem (s : State) (t : Fin 4) (f : HostPort → HostPort) : (s.modPort t f).mem = s.mem := rfl
@[simp] theorem State.modPort_cores (s : State) (t : Fin 4) (f : HostPort → HostPort) : (s.modPort t f).cores = s.cores := rfl
@[simp] theorem State.modPort_tens (s : State) (t : Fin 4) (f : HostPort → HostPort) : (s.modPort t f).tens = s.tens := rfl
@[simp] theorem State.modPort_codec (s : State) (t : Fin 4) (f : HostPort → HostPort) : (s.modPort t f).codec = s.codec := rfl
@[simp] theorem State.modPort_lastServed (s : State) (t : Fin 4) (f : HostPort → HostPort) : (s.modPort t f).lastServed = s.lastServed := rfl
@[simp] theorem State.modPort_ingest (s : State) (t : Fin 4) (f : HostPort → HostPort) : (s.modPort t f).ingest = s.ingest := rfl
@[simp] theorem State.modPort_ingestPos (s : State) (t : Fin 4) (f : HostPort → HostPort) : (s.modPort t f).ingestPos = s.ingestPos := rfl
@[simp] theorem State.modPort_install (s : State) (t : Fin 4) (f : HostPort → HostPort) : (s.modPort t f).install = s.install := rfl
@[simp] theorem State.modPort_net (s : State) (t : Fin 4) (f : HostPort → HostPort) : (s.modPort t f).net = s.net := rfl
@[simp] theorem State.modPort_coll (s : State) (t : Fin 4) (f : HostPort → HostPort) : (s.modPort t f).coll = s.coll := rfl
@[simp] theorem State.modPort_health (s : State) (t : Fin 4) (f : HostPort → HostPort) : (s.modPort t f).health = s.health := rfl

@[simp] theorem State.modQueue_pending (s : State) (t : Fin 4) (q : Fin 64) (f : Queue → Queue) : (s.modQueue t q f).pending = s.pending := rfl
@[simp] theorem State.modQueue_free (s : State) (t : Fin 4) (q : Fin 64) (f : Queue → Queue) : (s.modQueue t q f).free = s.free := rfl
@[simp] theorem State.modQueue_out (s : State) (t : Fin 4) (q : Fin 64) (f : Queue → Queue) : (s.modQueue t q f).out = s.out := rfl
@[simp] theorem State.modQueue_tick (s : State) (t : Fin 4) (q : Fin 64) (f : Queue → Queue) : (s.modQueue t q f).tick = s.tick := rfl
@[simp] theorem State.modQueue_power (s : State) (t : Fin 4) (q : Fin 64) (f : Queue → Queue) : (s.modQueue t q f).power = s.power := rfl
@[simp] theorem State.modQueue_fuses (s : State) (t : Fin 4) (q : Fin 64) (f : Queue → Queue) : (s.modQueue t q f).fuses = s.fuses := rfl
@[simp] theorem State.modQueue_flash (s : State) (t : Fin 4) (q : Fin 64) (f : Queue → Queue) : (s.modQueue t q f).flash = s.flash := rfl
@[simp] theorem State.modQueue_fwImage (s : State) (t : Fin 4) (q : Fin 64) (f : Queue → Queue) : (s.modQueue t q f).fwImage = s.fwImage := rfl
@[simp] theorem State.modQueue_fwVersion (s : State) (t : Fin 4) (q : Fin 64) (f : Queue → Queue) : (s.modQueue t q f).fwVersion = s.fwVersion := rfl
@[simp] theorem State.modQueue_fwDigest (s : State) (t : Fin 4) (q : Fin 64) (f : Queue → Queue) : (s.modQueue t q f).fwDigest = s.fwDigest := rfl
@[simp] theorem State.modQueue_od (s : State) (t : Fin 4) (q : Fin 64) (f : Queue → Queue) : (s.modQueue t q f).od = s.od := rfl
@[simp] theorem State.modQueue_mem (s : State) (t : Fin 4) (q : Fin 64) (f : Queue → Queue) : (s.modQueue t q f).mem = s.mem := rfl
@[simp] theorem State.modQueue_cores (s : State) (t : Fin 4) (q : Fin 64) (f : Queue → Queue) : (s.modQueue t q f).cores = s.cores := rfl
@[simp] theorem State.modQueue_tens (s : State) (t : Fin 4) (q : Fin 64) (f : Queue → Queue) : (s.modQueue t q f).tens = s.tens := rfl
@[simp] theorem State.modQueue_codec (s : State) (t : Fin 4) (q : Fin 64) (f : Queue → Queue) : (s.modQueue t q f).codec = s.codec := rfl
@[simp] theorem State.modQueue_lastServed (s : State) (t : Fin 4) (q : Fin 64) (f : Queue → Queue) : (s.modQueue t q f).lastServed = s.lastServed := rfl
@[simp] theorem State.modQueue_ingest (s : State) (t : Fin 4) (q : Fin 64) (f : Queue → Queue) : (s.modQueue t q f).ingest = s.ingest := rfl
@[simp] theorem State.modQueue_ingestPos (s : State) (t : Fin 4) (q : Fin 64) (f : Queue → Queue) : (s.modQueue t q f).ingestPos = s.ingestPos := rfl
@[simp] theorem State.modQueue_install (s : State) (t : Fin 4) (q : Fin 64) (f : Queue → Queue) : (s.modQueue t q f).install = s.install := rfl
@[simp] theorem State.modQueue_net (s : State) (t : Fin 4) (q : Fin 64) (f : Queue → Queue) : (s.modQueue t q f).net = s.net := rfl
@[simp] theorem State.modQueue_coll (s : State) (t : Fin 4) (q : Fin 64) (f : Queue → Queue) : (s.modQueue t q f).coll = s.coll := rfl
@[simp] theorem State.modQueue_health (s : State) (t : Fin 4) (q : Fin 64) (f : Queue → Queue) : (s.modQueue t q f).health = s.health := rfl

@[simp] theorem State.modRun_pending (s : State) (t : Fin 4) (q : Fin 64) (f : CmdRun → CmdRun) : (s.modRun t q f).pending = s.pending := rfl
@[simp] theorem State.modRun_free (s : State) (t : Fin 4) (q : Fin 64) (f : CmdRun → CmdRun) : (s.modRun t q f).free = s.free := rfl
@[simp] theorem State.modRun_out (s : State) (t : Fin 4) (q : Fin 64) (f : CmdRun → CmdRun) : (s.modRun t q f).out = s.out := rfl
@[simp] theorem State.modRun_tick (s : State) (t : Fin 4) (q : Fin 64) (f : CmdRun → CmdRun) : (s.modRun t q f).tick = s.tick := rfl
@[simp] theorem State.modRun_power (s : State) (t : Fin 4) (q : Fin 64) (f : CmdRun → CmdRun) : (s.modRun t q f).power = s.power := rfl
@[simp] theorem State.modRun_fuses (s : State) (t : Fin 4) (q : Fin 64) (f : CmdRun → CmdRun) : (s.modRun t q f).fuses = s.fuses := rfl
@[simp] theorem State.modRun_flash (s : State) (t : Fin 4) (q : Fin 64) (f : CmdRun → CmdRun) : (s.modRun t q f).flash = s.flash := rfl
@[simp] theorem State.modRun_fwImage (s : State) (t : Fin 4) (q : Fin 64) (f : CmdRun → CmdRun) : (s.modRun t q f).fwImage = s.fwImage := rfl
@[simp] theorem State.modRun_fwVersion (s : State) (t : Fin 4) (q : Fin 64) (f : CmdRun → CmdRun) : (s.modRun t q f).fwVersion = s.fwVersion := rfl
@[simp] theorem State.modRun_fwDigest (s : State) (t : Fin 4) (q : Fin 64) (f : CmdRun → CmdRun) : (s.modRun t q f).fwDigest = s.fwDigest := rfl
@[simp] theorem State.modRun_od (s : State) (t : Fin 4) (q : Fin 64) (f : CmdRun → CmdRun) : (s.modRun t q f).od = s.od := rfl
@[simp] theorem State.modRun_mem (s : State) (t : Fin 4) (q : Fin 64) (f : CmdRun → CmdRun) : (s.modRun t q f).mem = s.mem := rfl
@[simp] theorem State.modRun_cores (s : State) (t : Fin 4) (q : Fin 64) (f : CmdRun → CmdRun) : (s.modRun t q f).cores = s.cores := rfl
@[simp] theorem State.modRun_tens (s : State) (t : Fin 4) (q : Fin 64) (f : CmdRun → CmdRun) : (s.modRun t q f).tens = s.tens := rfl
@[simp] theorem State.modRun_codec (s : State) (t : Fin 4) (q : Fin 64) (f : CmdRun → CmdRun) : (s.modRun t q f).codec = s.codec := rfl
@[simp] theorem State.modRun_lastServed (s : State) (t : Fin 4) (q : Fin 64) (f : CmdRun → CmdRun) : (s.modRun t q f).lastServed = s.lastServed := rfl
@[simp] theorem State.modRun_ingest (s : State) (t : Fin 4) (q : Fin 64) (f : CmdRun → CmdRun) : (s.modRun t q f).ingest = s.ingest := rfl
@[simp] theorem State.modRun_ingestPos (s : State) (t : Fin 4) (q : Fin 64) (f : CmdRun → CmdRun) : (s.modRun t q f).ingestPos = s.ingestPos := rfl
@[simp] theorem State.modRun_install (s : State) (t : Fin 4) (q : Fin 64) (f : CmdRun → CmdRun) : (s.modRun t q f).install = s.install := rfl
@[simp] theorem State.modRun_net (s : State) (t : Fin 4) (q : Fin 64) (f : CmdRun → CmdRun) : (s.modRun t q f).net = s.net := rfl
@[simp] theorem State.modRun_coll (s : State) (t : Fin 4) (q : Fin 64) (f : CmdRun → CmdRun) : (s.modRun t q f).coll = s.coll := rfl
@[simp] theorem State.modRun_health (s : State) (t : Fin 4) (q : Fin 64) (f : CmdRun → CmdRun) : (s.modRun t q f).health = s.health := rfl

@[simp] theorem State.modTen_pending (s : State) (t : Fin 4) (f : Tenancy → Tenancy) : (s.modTen t f).pending = s.pending := rfl
@[simp] theorem State.modTen_free (s : State) (t : Fin 4) (f : Tenancy → Tenancy) : (s.modTen t f).free = s.free := rfl
@[simp] theorem State.modTen_out (s : State) (t : Fin 4) (f : Tenancy → Tenancy) : (s.modTen t f).out = s.out := rfl
@[simp] theorem State.modTen_tick (s : State) (t : Fin 4) (f : Tenancy → Tenancy) : (s.modTen t f).tick = s.tick := rfl
@[simp] theorem State.modTen_power (s : State) (t : Fin 4) (f : Tenancy → Tenancy) : (s.modTen t f).power = s.power := rfl
@[simp] theorem State.modTen_fuses (s : State) (t : Fin 4) (f : Tenancy → Tenancy) : (s.modTen t f).fuses = s.fuses := rfl
@[simp] theorem State.modTen_flash (s : State) (t : Fin 4) (f : Tenancy → Tenancy) : (s.modTen t f).flash = s.flash := rfl
@[simp] theorem State.modTen_fwImage (s : State) (t : Fin 4) (f : Tenancy → Tenancy) : (s.modTen t f).fwImage = s.fwImage := rfl
@[simp] theorem State.modTen_fwVersion (s : State) (t : Fin 4) (f : Tenancy → Tenancy) : (s.modTen t f).fwVersion = s.fwVersion := rfl
@[simp] theorem State.modTen_fwDigest (s : State) (t : Fin 4) (f : Tenancy → Tenancy) : (s.modTen t f).fwDigest = s.fwDigest := rfl
@[simp] theorem State.modTen_od (s : State) (t : Fin 4) (f : Tenancy → Tenancy) : (s.modTen t f).od = s.od := rfl
@[simp] theorem State.modTen_ports (s : State) (t : Fin 4) (f : Tenancy → Tenancy) : (s.modTen t f).ports = s.ports := rfl
@[simp] theorem State.modTen_mem (s : State) (t : Fin 4) (f : Tenancy → Tenancy) : (s.modTen t f).mem = s.mem := rfl
@[simp] theorem State.modTen_cores (s : State) (t : Fin 4) (f : Tenancy → Tenancy) : (s.modTen t f).cores = s.cores := rfl
@[simp] theorem State.modTen_codec (s : State) (t : Fin 4) (f : Tenancy → Tenancy) : (s.modTen t f).codec = s.codec := rfl
@[simp] theorem State.modTen_lastServed (s : State) (t : Fin 4) (f : Tenancy → Tenancy) : (s.modTen t f).lastServed = s.lastServed := rfl
@[simp] theorem State.modTen_ingest (s : State) (t : Fin 4) (f : Tenancy → Tenancy) : (s.modTen t f).ingest = s.ingest := rfl
@[simp] theorem State.modTen_ingestPos (s : State) (t : Fin 4) (f : Tenancy → Tenancy) : (s.modTen t f).ingestPos = s.ingestPos := rfl
@[simp] theorem State.modTen_install (s : State) (t : Fin 4) (f : Tenancy → Tenancy) : (s.modTen t f).install = s.install := rfl
@[simp] theorem State.modTen_net (s : State) (t : Fin 4) (f : Tenancy → Tenancy) : (s.modTen t f).net = s.net := rfl
@[simp] theorem State.modTen_coll (s : State) (t : Fin 4) (f : Tenancy → Tenancy) : (s.modTen t f).coll = s.coll := rfl
@[simp] theorem State.modTen_health (s : State) (t : Fin 4) (f : Tenancy → Tenancy) : (s.modTen t f).health = s.health := rfl

@[simp] theorem State.modSlice_pending (s : State) (ref : SliceRef) (f : Slice → Slice) : (s.modSlice ref f).pending = s.pending := rfl
@[simp] theorem State.modSlice_free (s : State) (ref : SliceRef) (f : Slice → Slice) : (s.modSlice ref f).free = s.free := rfl
@[simp] theorem State.modSlice_out (s : State) (ref : SliceRef) (f : Slice → Slice) : (s.modSlice ref f).out = s.out := rfl
@[simp] theorem State.modSlice_tick (s : State) (ref : SliceRef) (f : Slice → Slice) : (s.modSlice ref f).tick = s.tick := rfl
@[simp] theorem State.modSlice_power (s : State) (ref : SliceRef) (f : Slice → Slice) : (s.modSlice ref f).power = s.power := rfl
@[simp] theorem State.modSlice_fuses (s : State) (ref : SliceRef) (f : Slice → Slice) : (s.modSlice ref f).fuses = s.fuses := rfl
@[simp] theorem State.modSlice_flash (s : State) (ref : SliceRef) (f : Slice → Slice) : (s.modSlice ref f).flash = s.flash := rfl
@[simp] theorem State.modSlice_fwImage (s : State) (ref : SliceRef) (f : Slice → Slice) : (s.modSlice ref f).fwImage = s.fwImage := rfl
@[simp] theorem State.modSlice_fwVersion (s : State) (ref : SliceRef) (f : Slice → Slice) : (s.modSlice ref f).fwVersion = s.fwVersion := rfl
@[simp] theorem State.modSlice_fwDigest (s : State) (ref : SliceRef) (f : Slice → Slice) : (s.modSlice ref f).fwDigest = s.fwDigest := rfl
@[simp] theorem State.modSlice_od (s : State) (ref : SliceRef) (f : Slice → Slice) : (s.modSlice ref f).od = s.od := rfl
@[simp] theorem State.modSlice_mem (s : State) (ref : SliceRef) (f : Slice → Slice) : (s.modSlice ref f).mem = s.mem := rfl
@[simp] theorem State.modSlice_cores (s : State) (ref : SliceRef) (f : Slice → Slice) : (s.modSlice ref f).cores = s.cores := rfl
@[simp] theorem State.modSlice_tens (s : State) (ref : SliceRef) (f : Slice → Slice) : (s.modSlice ref f).tens = s.tens := rfl
@[simp] theorem State.modSlice_codec (s : State) (ref : SliceRef) (f : Slice → Slice) : (s.modSlice ref f).codec = s.codec := rfl
@[simp] theorem State.modSlice_lastServed (s : State) (ref : SliceRef) (f : Slice → Slice) : (s.modSlice ref f).lastServed = s.lastServed := rfl
@[simp] theorem State.modSlice_ingest (s : State) (ref : SliceRef) (f : Slice → Slice) : (s.modSlice ref f).ingest = s.ingest := rfl
@[simp] theorem State.modSlice_ingestPos (s : State) (ref : SliceRef) (f : Slice → Slice) : (s.modSlice ref f).ingestPos = s.ingestPos := rfl
@[simp] theorem State.modSlice_install (s : State) (ref : SliceRef) (f : Slice → Slice) : (s.modSlice ref f).install = s.install := rfl
@[simp] theorem State.modSlice_net (s : State) (ref : SliceRef) (f : Slice → Slice) : (s.modSlice ref f).net = s.net := rfl
@[simp] theorem State.modSlice_coll (s : State) (ref : SliceRef) (f : Slice → Slice) : (s.modSlice ref f).coll = s.coll := rfl
@[simp] theorem State.modSlice_health (s : State) (ref : SliceRef) (f : Slice → Slice) : (s.modSlice ref f).health = s.health := rfl

@[simp] theorem State.setStrand_pending (s : State) (c : CtxId) (st : Strand) : (s.setStrand c st).pending = s.pending := rfl
@[simp] theorem State.setStrand_free (s : State) (c : CtxId) (st : Strand) : (s.setStrand c st).free = s.free := rfl
@[simp] theorem State.setStrand_out (s : State) (c : CtxId) (st : Strand) : (s.setStrand c st).out = s.out := rfl
@[simp] theorem State.setStrand_tick (s : State) (c : CtxId) (st : Strand) : (s.setStrand c st).tick = s.tick := rfl
@[simp] theorem State.setStrand_power (s : State) (c : CtxId) (st : Strand) : (s.setStrand c st).power = s.power := rfl
@[simp] theorem State.setStrand_fuses (s : State) (c : CtxId) (st : Strand) : (s.setStrand c st).fuses = s.fuses := rfl
@[simp] theorem State.setStrand_flash (s : State) (c : CtxId) (st : Strand) : (s.setStrand c st).flash = s.flash := rfl
@[simp] theorem State.setStrand_fwImage (s : State) (c : CtxId) (st : Strand) : (s.setStrand c st).fwImage = s.fwImage := rfl
@[simp] theorem State.setStrand_fwVersion (s : State) (c : CtxId) (st : Strand) : (s.setStrand c st).fwVersion = s.fwVersion := rfl
@[simp] theorem State.setStrand_fwDigest (s : State) (c : CtxId) (st : Strand) : (s.setStrand c st).fwDigest = s.fwDigest := rfl
@[simp] theorem State.setStrand_od (s : State) (c : CtxId) (st : Strand) : (s.setStrand c st).od = s.od := rfl
@[simp] theorem State.setStrand_ports (s : State) (c : CtxId) (st : Strand) : (s.setStrand c st).ports = s.ports := rfl
@[simp] theorem State.setStrand_mem (s : State) (c : CtxId) (st : Strand) : (s.setStrand c st).mem = s.mem := rfl
@[simp] theorem State.setStrand_tens (s : State) (c : CtxId) (st : Strand) : (s.setStrand c st).tens = s.tens := rfl
@[simp] theorem State.setStrand_codec (s : State) (c : CtxId) (st : Strand) : (s.setStrand c st).codec = s.codec := rfl
@[simp] theorem State.setStrand_lastServed (s : State) (c : CtxId) (st : Strand) : (s.setStrand c st).lastServed = s.lastServed := rfl
@[simp] theorem State.setStrand_ingest (s : State) (c : CtxId) (st : Strand) : (s.setStrand c st).ingest = s.ingest := rfl
@[simp] theorem State.setStrand_ingestPos (s : State) (c : CtxId) (st : Strand) : (s.setStrand c st).ingestPos = s.ingestPos := rfl
@[simp] theorem State.setStrand_install (s : State) (c : CtxId) (st : Strand) : (s.setStrand c st).install = s.install := rfl
@[simp] theorem State.setStrand_net (s : State) (c : CtxId) (st : Strand) : (s.setStrand c st).net = s.net := rfl
@[simp] theorem State.setStrand_coll (s : State) (c : CtxId) (st : Strand) : (s.setStrand c st).coll = s.coll := rfl
@[simp] theorem State.setStrand_health (s : State) (c : CtxId) (st : Strand) : (s.setStrand c st).health = s.health := rfl

@[simp] theorem State.freeCtx_pending (s : State) (c : CtxId) : (s.freeCtx c).pending = s.pending := rfl
@[simp] theorem State.freeCtx_free (s : State) (c : CtxId) : (s.freeCtx c).free = s.free := rfl
@[simp] theorem State.freeCtx_out (s : State) (c : CtxId) : (s.freeCtx c).out = s.out := rfl
@[simp] theorem State.freeCtx_tick (s : State) (c : CtxId) : (s.freeCtx c).tick = s.tick := rfl
@[simp] theorem State.freeCtx_power (s : State) (c : CtxId) : (s.freeCtx c).power = s.power := rfl
@[simp] theorem State.freeCtx_fuses (s : State) (c : CtxId) : (s.freeCtx c).fuses = s.fuses := rfl
@[simp] theorem State.freeCtx_flash (s : State) (c : CtxId) : (s.freeCtx c).flash = s.flash := rfl
@[simp] theorem State.freeCtx_fwImage (s : State) (c : CtxId) : (s.freeCtx c).fwImage = s.fwImage := rfl
@[simp] theorem State.freeCtx_fwVersion (s : State) (c : CtxId) : (s.freeCtx c).fwVersion = s.fwVersion := rfl
@[simp] theorem State.freeCtx_fwDigest (s : State) (c : CtxId) : (s.freeCtx c).fwDigest = s.fwDigest := rfl
@[simp] theorem State.freeCtx_od (s : State) (c : CtxId) : (s.freeCtx c).od = s.od := rfl
@[simp] theorem State.freeCtx_ports (s : State) (c : CtxId) : (s.freeCtx c).ports = s.ports := rfl
@[simp] theorem State.freeCtx_mem (s : State) (c : CtxId) : (s.freeCtx c).mem = s.mem := rfl
@[simp] theorem State.freeCtx_tens (s : State) (c : CtxId) : (s.freeCtx c).tens = s.tens := rfl
@[simp] theorem State.freeCtx_codec (s : State) (c : CtxId) : (s.freeCtx c).codec = s.codec := rfl
@[simp] theorem State.freeCtx_lastServed (s : State) (c : CtxId) : (s.freeCtx c).lastServed = s.lastServed := rfl
@[simp] theorem State.freeCtx_ingest (s : State) (c : CtxId) : (s.freeCtx c).ingest = s.ingest := rfl
@[simp] theorem State.freeCtx_ingestPos (s : State) (c : CtxId) : (s.freeCtx c).ingestPos = s.ingestPos := rfl
@[simp] theorem State.freeCtx_install (s : State) (c : CtxId) : (s.freeCtx c).install = s.install := rfl
@[simp] theorem State.freeCtx_net (s : State) (c : CtxId) : (s.freeCtx c).net = s.net := rfl
@[simp] theorem State.freeCtx_coll (s : State) (c : CtxId) : (s.freeCtx c).coll = s.coll := rfl
@[simp] theorem State.freeCtx_health (s : State) (c : CtxId) : (s.freeCtx c).health = s.health := rfl

@[simp] theorem State.dropStrands_pending (s : State) (p : SliceRef → Bool) : (s.dropStrands p).pending = s.pending := rfl
@[simp] theorem State.dropStrands_free (s : State) (p : SliceRef → Bool) : (s.dropStrands p).free = s.free := rfl
@[simp] theorem State.dropStrands_out (s : State) (p : SliceRef → Bool) : (s.dropStrands p).out = s.out := rfl
@[simp] theorem State.dropStrands_tick (s : State) (p : SliceRef → Bool) : (s.dropStrands p).tick = s.tick := rfl
@[simp] theorem State.dropStrands_power (s : State) (p : SliceRef → Bool) : (s.dropStrands p).power = s.power := rfl
@[simp] theorem State.dropStrands_fuses (s : State) (p : SliceRef → Bool) : (s.dropStrands p).fuses = s.fuses := rfl
@[simp] theorem State.dropStrands_flash (s : State) (p : SliceRef → Bool) : (s.dropStrands p).flash = s.flash := rfl
@[simp] theorem State.dropStrands_fwImage (s : State) (p : SliceRef → Bool) : (s.dropStrands p).fwImage = s.fwImage := rfl
@[simp] theorem State.dropStrands_fwVersion (s : State) (p : SliceRef → Bool) : (s.dropStrands p).fwVersion = s.fwVersion := rfl
@[simp] theorem State.dropStrands_fwDigest (s : State) (p : SliceRef → Bool) : (s.dropStrands p).fwDigest = s.fwDigest := rfl
@[simp] theorem State.dropStrands_od (s : State) (p : SliceRef → Bool) : (s.dropStrands p).od = s.od := rfl
@[simp] theorem State.dropStrands_ports (s : State) (p : SliceRef → Bool) : (s.dropStrands p).ports = s.ports := rfl
@[simp] theorem State.dropStrands_mem (s : State) (p : SliceRef → Bool) : (s.dropStrands p).mem = s.mem := rfl
@[simp] theorem State.dropStrands_tens (s : State) (p : SliceRef → Bool) : (s.dropStrands p).tens = s.tens := rfl
@[simp] theorem State.dropStrands_codec (s : State) (p : SliceRef → Bool) : (s.dropStrands p).codec = s.codec := rfl
@[simp] theorem State.dropStrands_lastServed (s : State) (p : SliceRef → Bool) : (s.dropStrands p).lastServed = s.lastServed := rfl
@[simp] theorem State.dropStrands_ingest (s : State) (p : SliceRef → Bool) : (s.dropStrands p).ingest = s.ingest := rfl
@[simp] theorem State.dropStrands_ingestPos (s : State) (p : SliceRef → Bool) : (s.dropStrands p).ingestPos = s.ingestPos := rfl
@[simp] theorem State.dropStrands_install (s : State) (p : SliceRef → Bool) : (s.dropStrands p).install = s.install := rfl
@[simp] theorem State.dropStrands_net (s : State) (p : SliceRef → Bool) : (s.dropStrands p).net = s.net := rfl
@[simp] theorem State.dropStrands_coll (s : State) (p : SliceRef → Bool) : (s.dropStrands p).coll = s.coll := rfl
@[simp] theorem State.dropStrands_health (s : State) (p : SliceRef → Bool) : (s.dropStrands p).health = s.health := rfl

@[simp] theorem State.stopStrands_pending (s : State) (t : Fin 4) (q : Fin 64) : (s.stopStrands t q).pending = s.pending := rfl
@[simp] theorem State.stopStrands_free (s : State) (t : Fin 4) (q : Fin 64) : (s.stopStrands t q).free = s.free := rfl
@[simp] theorem State.stopStrands_out (s : State) (t : Fin 4) (q : Fin 64) : (s.stopStrands t q).out = s.out := rfl
@[simp] theorem State.stopStrands_tick (s : State) (t : Fin 4) (q : Fin 64) : (s.stopStrands t q).tick = s.tick := rfl
@[simp] theorem State.stopStrands_power (s : State) (t : Fin 4) (q : Fin 64) : (s.stopStrands t q).power = s.power := rfl
@[simp] theorem State.stopStrands_fuses (s : State) (t : Fin 4) (q : Fin 64) : (s.stopStrands t q).fuses = s.fuses := rfl
@[simp] theorem State.stopStrands_flash (s : State) (t : Fin 4) (q : Fin 64) : (s.stopStrands t q).flash = s.flash := rfl
@[simp] theorem State.stopStrands_fwImage (s : State) (t : Fin 4) (q : Fin 64) : (s.stopStrands t q).fwImage = s.fwImage := rfl
@[simp] theorem State.stopStrands_fwVersion (s : State) (t : Fin 4) (q : Fin 64) : (s.stopStrands t q).fwVersion = s.fwVersion := rfl
@[simp] theorem State.stopStrands_fwDigest (s : State) (t : Fin 4) (q : Fin 64) : (s.stopStrands t q).fwDigest = s.fwDigest := rfl
@[simp] theorem State.stopStrands_od (s : State) (t : Fin 4) (q : Fin 64) : (s.stopStrands t q).od = s.od := rfl
@[simp] theorem State.stopStrands_ports (s : State) (t : Fin 4) (q : Fin 64) : (s.stopStrands t q).ports = s.ports := rfl
@[simp] theorem State.stopStrands_mem (s : State) (t : Fin 4) (q : Fin 64) : (s.stopStrands t q).mem = s.mem := rfl
@[simp] theorem State.stopStrands_tens (s : State) (t : Fin 4) (q : Fin 64) : (s.stopStrands t q).tens = s.tens := rfl
@[simp] theorem State.stopStrands_codec (s : State) (t : Fin 4) (q : Fin 64) : (s.stopStrands t q).codec = s.codec := rfl
@[simp] theorem State.stopStrands_lastServed (s : State) (t : Fin 4) (q : Fin 64) : (s.stopStrands t q).lastServed = s.lastServed := rfl
@[simp] theorem State.stopStrands_ingest (s : State) (t : Fin 4) (q : Fin 64) : (s.stopStrands t q).ingest = s.ingest := rfl
@[simp] theorem State.stopStrands_ingestPos (s : State) (t : Fin 4) (q : Fin 64) : (s.stopStrands t q).ingestPos = s.ingestPos := rfl
@[simp] theorem State.stopStrands_install (s : State) (t : Fin 4) (q : Fin 64) : (s.stopStrands t q).install = s.install := rfl
@[simp] theorem State.stopStrands_net (s : State) (t : Fin 4) (q : Fin 64) : (s.stopStrands t q).net = s.net := rfl
@[simp] theorem State.stopStrands_coll (s : State) (t : Fin 4) (q : Fin 64) : (s.stopStrands t q).coll = s.coll := rfl
@[simp] theorem State.stopStrands_health (s : State) (t : Fin 4) (q : Fin 64) : (s.stopStrands t q).health = s.health := rfl

@[simp] theorem State.raise_pending (s : State) (c : CtxId) (st : Strand) (code : Nat) (address : W64) : (s.raise c st code address).pending = s.pending := rfl
@[simp] theorem State.raise_free (s : State) (c : CtxId) (st : Strand) (code : Nat) (address : W64) : (s.raise c st code address).free = s.free := rfl
@[simp] theorem State.raise_out (s : State) (c : CtxId) (st : Strand) (code : Nat) (address : W64) : (s.raise c st code address).out = s.out := rfl
@[simp] theorem State.raise_tick (s : State) (c : CtxId) (st : Strand) (code : Nat) (address : W64) : (s.raise c st code address).tick = s.tick := rfl
@[simp] theorem State.raise_power (s : State) (c : CtxId) (st : Strand) (code : Nat) (address : W64) : (s.raise c st code address).power = s.power := rfl
@[simp] theorem State.raise_fuses (s : State) (c : CtxId) (st : Strand) (code : Nat) (address : W64) : (s.raise c st code address).fuses = s.fuses := rfl
@[simp] theorem State.raise_flash (s : State) (c : CtxId) (st : Strand) (code : Nat) (address : W64) : (s.raise c st code address).flash = s.flash := rfl
@[simp] theorem State.raise_fwImage (s : State) (c : CtxId) (st : Strand) (code : Nat) (address : W64) : (s.raise c st code address).fwImage = s.fwImage := rfl
@[simp] theorem State.raise_fwVersion (s : State) (c : CtxId) (st : Strand) (code : Nat) (address : W64) : (s.raise c st code address).fwVersion = s.fwVersion := rfl
@[simp] theorem State.raise_fwDigest (s : State) (c : CtxId) (st : Strand) (code : Nat) (address : W64) : (s.raise c st code address).fwDigest = s.fwDigest := rfl
@[simp] theorem State.raise_mem (s : State) (c : CtxId) (st : Strand) (code : Nat) (address : W64) : (s.raise c st code address).mem = s.mem := rfl
@[simp] theorem State.raise_tens (s : State) (c : CtxId) (st : Strand) (code : Nat) (address : W64) : (s.raise c st code address).tens = s.tens := rfl
@[simp] theorem State.raise_codec (s : State) (c : CtxId) (st : Strand) (code : Nat) (address : W64) : (s.raise c st code address).codec = s.codec := rfl
@[simp] theorem State.raise_lastServed (s : State) (c : CtxId) (st : Strand) (code : Nat) (address : W64) : (s.raise c st code address).lastServed = s.lastServed := rfl
@[simp] theorem State.raise_ingest (s : State) (c : CtxId) (st : Strand) (code : Nat) (address : W64) : (s.raise c st code address).ingest = s.ingest := rfl
@[simp] theorem State.raise_ingestPos (s : State) (c : CtxId) (st : Strand) (code : Nat) (address : W64) : (s.raise c st code address).ingestPos = s.ingestPos := rfl
@[simp] theorem State.raise_install (s : State) (c : CtxId) (st : Strand) (code : Nat) (address : W64) : (s.raise c st code address).install = s.install := rfl
@[simp] theorem State.raise_net (s : State) (c : CtxId) (st : Strand) (code : Nat) (address : W64) : (s.raise c st code address).net = s.net := rfl
@[simp] theorem State.raise_coll (s : State) (c : CtxId) (st : Strand) (code : Nat) (address : W64) : (s.raise c st code address).coll = s.coll := rfl
@[simp] theorem State.raise_health (s : State) (c : CtxId) (st : Strand) (code : Nat) (address : W64) : (s.raise c st code address).health = s.health := rfl

@[simp] theorem State.raisePc_pending (s : State) (c : CtxId) (st : Strand) (code : Nat) : (s.raisePc c st code).pending = s.pending := rfl
@[simp] theorem State.raisePc_free (s : State) (c : CtxId) (st : Strand) (code : Nat) : (s.raisePc c st code).free = s.free := rfl
@[simp] theorem State.raisePc_out (s : State) (c : CtxId) (st : Strand) (code : Nat) : (s.raisePc c st code).out = s.out := rfl
@[simp] theorem State.raisePc_tick (s : State) (c : CtxId) (st : Strand) (code : Nat) : (s.raisePc c st code).tick = s.tick := rfl
@[simp] theorem State.raisePc_power (s : State) (c : CtxId) (st : Strand) (code : Nat) : (s.raisePc c st code).power = s.power := rfl
@[simp] theorem State.raisePc_fuses (s : State) (c : CtxId) (st : Strand) (code : Nat) : (s.raisePc c st code).fuses = s.fuses := rfl
@[simp] theorem State.raisePc_flash (s : State) (c : CtxId) (st : Strand) (code : Nat) : (s.raisePc c st code).flash = s.flash := rfl
@[simp] theorem State.raisePc_fwImage (s : State) (c : CtxId) (st : Strand) (code : Nat) : (s.raisePc c st code).fwImage = s.fwImage := rfl
@[simp] theorem State.raisePc_fwVersion (s : State) (c : CtxId) (st : Strand) (code : Nat) : (s.raisePc c st code).fwVersion = s.fwVersion := rfl
@[simp] theorem State.raisePc_fwDigest (s : State) (c : CtxId) (st : Strand) (code : Nat) : (s.raisePc c st code).fwDigest = s.fwDigest := rfl
@[simp] theorem State.raisePc_mem (s : State) (c : CtxId) (st : Strand) (code : Nat) : (s.raisePc c st code).mem = s.mem := rfl
@[simp] theorem State.raisePc_tens (s : State) (c : CtxId) (st : Strand) (code : Nat) : (s.raisePc c st code).tens = s.tens := rfl
@[simp] theorem State.raisePc_codec (s : State) (c : CtxId) (st : Strand) (code : Nat) : (s.raisePc c st code).codec = s.codec := rfl
@[simp] theorem State.raisePc_lastServed (s : State) (c : CtxId) (st : Strand) (code : Nat) : (s.raisePc c st code).lastServed = s.lastServed := rfl
@[simp] theorem State.raisePc_ingest (s : State) (c : CtxId) (st : Strand) (code : Nat) : (s.raisePc c st code).ingest = s.ingest := rfl
@[simp] theorem State.raisePc_ingestPos (s : State) (c : CtxId) (st : Strand) (code : Nat) : (s.raisePc c st code).ingestPos = s.ingestPos := rfl
@[simp] theorem State.raisePc_install (s : State) (c : CtxId) (st : Strand) (code : Nat) : (s.raisePc c st code).install = s.install := rfl
@[simp] theorem State.raisePc_net (s : State) (c : CtxId) (st : Strand) (code : Nat) : (s.raisePc c st code).net = s.net := rfl
@[simp] theorem State.raisePc_coll (s : State) (c : CtxId) (st : Strand) (code : Nat) : (s.raisePc c st code).coll = s.coll := rfl
@[simp] theorem State.raisePc_health (s : State) (c : CtxId) (st : Strand) (code : Nat) : (s.raisePc c st code).health = s.health := rfl

@[simp] theorem State.failCmd_pending (s : State) (t : Fin 4) (q : Fin 64) (code : Nat) (address : W64) (strand : Nat) : (s.failCmd t q code address strand).pending = s.pending := rfl
@[simp] theorem State.failCmd_free (s : State) (t : Fin 4) (q : Fin 64) (code : Nat) (address : W64) (strand : Nat) : (s.failCmd t q code address strand).free = s.free := rfl
@[simp] theorem State.failCmd_out (s : State) (t : Fin 4) (q : Fin 64) (code : Nat) (address : W64) (strand : Nat) : (s.failCmd t q code address strand).out = s.out := rfl
@[simp] theorem State.failCmd_tick (s : State) (t : Fin 4) (q : Fin 64) (code : Nat) (address : W64) (strand : Nat) : (s.failCmd t q code address strand).tick = s.tick := rfl
@[simp] theorem State.failCmd_power (s : State) (t : Fin 4) (q : Fin 64) (code : Nat) (address : W64) (strand : Nat) : (s.failCmd t q code address strand).power = s.power := rfl
@[simp] theorem State.failCmd_fuses (s : State) (t : Fin 4) (q : Fin 64) (code : Nat) (address : W64) (strand : Nat) : (s.failCmd t q code address strand).fuses = s.fuses := rfl
@[simp] theorem State.failCmd_flash (s : State) (t : Fin 4) (q : Fin 64) (code : Nat) (address : W64) (strand : Nat) : (s.failCmd t q code address strand).flash = s.flash := rfl
@[simp] theorem State.failCmd_fwImage (s : State) (t : Fin 4) (q : Fin 64) (code : Nat) (address : W64) (strand : Nat) : (s.failCmd t q code address strand).fwImage = s.fwImage := rfl
@[simp] theorem State.failCmd_fwVersion (s : State) (t : Fin 4) (q : Fin 64) (code : Nat) (address : W64) (strand : Nat) : (s.failCmd t q code address strand).fwVersion = s.fwVersion := rfl
@[simp] theorem State.failCmd_fwDigest (s : State) (t : Fin 4) (q : Fin 64) (code : Nat) (address : W64) (strand : Nat) : (s.failCmd t q code address strand).fwDigest = s.fwDigest := rfl
@[simp] theorem State.failCmd_od (s : State) (t : Fin 4) (q : Fin 64) (code : Nat) (address : W64) (strand : Nat) : (s.failCmd t q code address strand).od = s.od := rfl
@[simp] theorem State.failCmd_mem (s : State) (t : Fin 4) (q : Fin 64) (code : Nat) (address : W64) (strand : Nat) : (s.failCmd t q code address strand).mem = s.mem := rfl
@[simp] theorem State.failCmd_cores (s : State) (t : Fin 4) (q : Fin 64) (code : Nat) (address : W64) (strand : Nat) : (s.failCmd t q code address strand).cores = s.cores := rfl
@[simp] theorem State.failCmd_tens (s : State) (t : Fin 4) (q : Fin 64) (code : Nat) (address : W64) (strand : Nat) : (s.failCmd t q code address strand).tens = s.tens := rfl
@[simp] theorem State.failCmd_codec (s : State) (t : Fin 4) (q : Fin 64) (code : Nat) (address : W64) (strand : Nat) : (s.failCmd t q code address strand).codec = s.codec := rfl
@[simp] theorem State.failCmd_lastServed (s : State) (t : Fin 4) (q : Fin 64) (code : Nat) (address : W64) (strand : Nat) : (s.failCmd t q code address strand).lastServed = s.lastServed := rfl
@[simp] theorem State.failCmd_ingest (s : State) (t : Fin 4) (q : Fin 64) (code : Nat) (address : W64) (strand : Nat) : (s.failCmd t q code address strand).ingest = s.ingest := rfl
@[simp] theorem State.failCmd_ingestPos (s : State) (t : Fin 4) (q : Fin 64) (code : Nat) (address : W64) (strand : Nat) : (s.failCmd t q code address strand).ingestPos = s.ingestPos := rfl
@[simp] theorem State.failCmd_install (s : State) (t : Fin 4) (q : Fin 64) (code : Nat) (address : W64) (strand : Nat) : (s.failCmd t q code address strand).install = s.install := rfl
@[simp] theorem State.failCmd_net (s : State) (t : Fin 4) (q : Fin 64) (code : Nat) (address : W64) (strand : Nat) : (s.failCmd t q code address strand).net = s.net := rfl
@[simp] theorem State.failCmd_coll (s : State) (t : Fin 4) (q : Fin 64) (code : Nat) (address : W64) (strand : Nat) : (s.failCmd t q code address strand).coll = s.coll := rfl
@[simp] theorem State.failCmd_health (s : State) (t : Fin 4) (q : Fin 64) (code : Nat) (address : W64) (strand : Nat) : (s.failCmd t q code address strand).health = s.health := rfl

@[simp] theorem State.kill_pending (s : State) (ref : SliceRef) : (s.kill ref).pending = s.pending := rfl
@[simp] theorem State.kill_free (s : State) (ref : SliceRef) : (s.kill ref).free = s.free := rfl
@[simp] theorem State.kill_out (s : State) (ref : SliceRef) : (s.kill ref).out = s.out := rfl
@[simp] theorem State.kill_tick (s : State) (ref : SliceRef) : (s.kill ref).tick = s.tick := rfl
@[simp] theorem State.kill_power (s : State) (ref : SliceRef) : (s.kill ref).power = s.power := rfl
@[simp] theorem State.kill_fuses (s : State) (ref : SliceRef) : (s.kill ref).fuses = s.fuses := rfl
@[simp] theorem State.kill_flash (s : State) (ref : SliceRef) : (s.kill ref).flash = s.flash := rfl
@[simp] theorem State.kill_fwImage (s : State) (ref : SliceRef) : (s.kill ref).fwImage = s.fwImage := rfl
@[simp] theorem State.kill_fwVersion (s : State) (ref : SliceRef) : (s.kill ref).fwVersion = s.fwVersion := rfl
@[simp] theorem State.kill_fwDigest (s : State) (ref : SliceRef) : (s.kill ref).fwDigest = s.fwDigest := rfl
@[simp] theorem State.kill_mem (s : State) (ref : SliceRef) : (s.kill ref).mem = s.mem := rfl
@[simp] theorem State.kill_tens (s : State) (ref : SliceRef) : (s.kill ref).tens = s.tens := rfl
@[simp] theorem State.kill_codec (s : State) (ref : SliceRef) : (s.kill ref).codec = s.codec := rfl
@[simp] theorem State.kill_lastServed (s : State) (ref : SliceRef) : (s.kill ref).lastServed = s.lastServed := rfl
@[simp] theorem State.kill_ingest (s : State) (ref : SliceRef) : (s.kill ref).ingest = s.ingest := rfl
@[simp] theorem State.kill_ingestPos (s : State) (ref : SliceRef) : (s.kill ref).ingestPos = s.ingestPos := rfl
@[simp] theorem State.kill_install (s : State) (ref : SliceRef) : (s.kill ref).install = s.install := rfl
@[simp] theorem State.kill_net (s : State) (ref : SliceRef) : (s.kill ref).net = s.net := rfl
@[simp] theorem State.kill_coll (s : State) (ref : SliceRef) : (s.kill ref).coll = s.coll := rfl
@[simp] theorem State.kill_health (s : State) (ref : SliceRef) : (s.kill ref).health = s.health := rfl

@[simp] theorem State.useFrame_pending (s : State) (f : Nat) (u : FrameUse) : (s.useFrame f u).pending = s.pending := rfl
@[simp] theorem State.useFrame_free (s : State) (f : Nat) (u : FrameUse) : (s.useFrame f u).free = s.free := rfl
@[simp] theorem State.useFrame_out (s : State) (f : Nat) (u : FrameUse) : (s.useFrame f u).out = s.out := rfl
@[simp] theorem State.useFrame_tick (s : State) (f : Nat) (u : FrameUse) : (s.useFrame f u).tick = s.tick := rfl
@[simp] theorem State.useFrame_power (s : State) (f : Nat) (u : FrameUse) : (s.useFrame f u).power = s.power := rfl
@[simp] theorem State.useFrame_fuses (s : State) (f : Nat) (u : FrameUse) : (s.useFrame f u).fuses = s.fuses := rfl
@[simp] theorem State.useFrame_flash (s : State) (f : Nat) (u : FrameUse) : (s.useFrame f u).flash = s.flash := rfl
@[simp] theorem State.useFrame_fwImage (s : State) (f : Nat) (u : FrameUse) : (s.useFrame f u).fwImage = s.fwImage := rfl
@[simp] theorem State.useFrame_fwVersion (s : State) (f : Nat) (u : FrameUse) : (s.useFrame f u).fwVersion = s.fwVersion := rfl
@[simp] theorem State.useFrame_fwDigest (s : State) (f : Nat) (u : FrameUse) : (s.useFrame f u).fwDigest = s.fwDigest := rfl
@[simp] theorem State.useFrame_od (s : State) (f : Nat) (u : FrameUse) : (s.useFrame f u).od = s.od := rfl
@[simp] theorem State.useFrame_ports (s : State) (f : Nat) (u : FrameUse) : (s.useFrame f u).ports = s.ports := rfl
@[simp] theorem State.useFrame_cores (s : State) (f : Nat) (u : FrameUse) : (s.useFrame f u).cores = s.cores := rfl
@[simp] theorem State.useFrame_tens (s : State) (f : Nat) (u : FrameUse) : (s.useFrame f u).tens = s.tens := rfl
@[simp] theorem State.useFrame_codec (s : State) (f : Nat) (u : FrameUse) : (s.useFrame f u).codec = s.codec := rfl
@[simp] theorem State.useFrame_lastServed (s : State) (f : Nat) (u : FrameUse) : (s.useFrame f u).lastServed = s.lastServed := rfl
@[simp] theorem State.useFrame_ingest (s : State) (f : Nat) (u : FrameUse) : (s.useFrame f u).ingest = s.ingest := rfl
@[simp] theorem State.useFrame_ingestPos (s : State) (f : Nat) (u : FrameUse) : (s.useFrame f u).ingestPos = s.ingestPos := rfl
@[simp] theorem State.useFrame_install (s : State) (f : Nat) (u : FrameUse) : (s.useFrame f u).install = s.install := rfl
@[simp] theorem State.useFrame_net (s : State) (f : Nat) (u : FrameUse) : (s.useFrame f u).net = s.net := rfl
@[simp] theorem State.useFrame_coll (s : State) (f : Nat) (u : FrameUse) : (s.useFrame f u).coll = s.coll := rfl
@[simp] theorem State.useFrame_health (s : State) (f : Nat) (u : FrameUse) : (s.useFrame f u).health = s.health := rfl

@[simp] theorem State.freeFrame_pending (s : State) (f : Nat) : (s.freeFrame f).pending = s.pending := rfl
@[simp] theorem State.freeFrame_free (s : State) (f : Nat) : (s.freeFrame f).free = s.free := rfl
@[simp] theorem State.freeFrame_out (s : State) (f : Nat) : (s.freeFrame f).out = s.out := rfl
@[simp] theorem State.freeFrame_tick (s : State) (f : Nat) : (s.freeFrame f).tick = s.tick := rfl
@[simp] theorem State.freeFrame_power (s : State) (f : Nat) : (s.freeFrame f).power = s.power := rfl
@[simp] theorem State.freeFrame_fuses (s : State) (f : Nat) : (s.freeFrame f).fuses = s.fuses := rfl
@[simp] theorem State.freeFrame_flash (s : State) (f : Nat) : (s.freeFrame f).flash = s.flash := rfl
@[simp] theorem State.freeFrame_fwImage (s : State) (f : Nat) : (s.freeFrame f).fwImage = s.fwImage := rfl
@[simp] theorem State.freeFrame_fwVersion (s : State) (f : Nat) : (s.freeFrame f).fwVersion = s.fwVersion := rfl
@[simp] theorem State.freeFrame_fwDigest (s : State) (f : Nat) : (s.freeFrame f).fwDigest = s.fwDigest := rfl
@[simp] theorem State.freeFrame_od (s : State) (f : Nat) : (s.freeFrame f).od = s.od := rfl
@[simp] theorem State.freeFrame_ports (s : State) (f : Nat) : (s.freeFrame f).ports = s.ports := rfl
@[simp] theorem State.freeFrame_cores (s : State) (f : Nat) : (s.freeFrame f).cores = s.cores := rfl
@[simp] theorem State.freeFrame_tens (s : State) (f : Nat) : (s.freeFrame f).tens = s.tens := rfl
@[simp] theorem State.freeFrame_codec (s : State) (f : Nat) : (s.freeFrame f).codec = s.codec := rfl
@[simp] theorem State.freeFrame_lastServed (s : State) (f : Nat) : (s.freeFrame f).lastServed = s.lastServed := rfl
@[simp] theorem State.freeFrame_ingest (s : State) (f : Nat) : (s.freeFrame f).ingest = s.ingest := rfl
@[simp] theorem State.freeFrame_ingestPos (s : State) (f : Nat) : (s.freeFrame f).ingestPos = s.ingestPos := rfl
@[simp] theorem State.freeFrame_install (s : State) (f : Nat) : (s.freeFrame f).install = s.install := rfl
@[simp] theorem State.freeFrame_net (s : State) (f : Nat) : (s.freeFrame f).net = s.net := rfl
@[simp] theorem State.freeFrame_coll (s : State) (f : Nat) : (s.freeFrame f).coll = s.coll := rfl
@[simp] theorem State.freeFrame_health (s : State) (f : Nat) : (s.freeFrame f).health = s.health := rfl

@[simp] theorem State.zeroFrame_pending (s : State) (f : Nat) : (s.zeroFrame f).pending = s.pending := rfl
@[simp] theorem State.zeroFrame_free (s : State) (f : Nat) : (s.zeroFrame f).free = s.free := rfl
@[simp] theorem State.zeroFrame_out (s : State) (f : Nat) : (s.zeroFrame f).out = s.out := rfl
@[simp] theorem State.zeroFrame_tick (s : State) (f : Nat) : (s.zeroFrame f).tick = s.tick := rfl
@[simp] theorem State.zeroFrame_power (s : State) (f : Nat) : (s.zeroFrame f).power = s.power := rfl
@[simp] theorem State.zeroFrame_fuses (s : State) (f : Nat) : (s.zeroFrame f).fuses = s.fuses := rfl
@[simp] theorem State.zeroFrame_flash (s : State) (f : Nat) : (s.zeroFrame f).flash = s.flash := rfl
@[simp] theorem State.zeroFrame_fwImage (s : State) (f : Nat) : (s.zeroFrame f).fwImage = s.fwImage := rfl
@[simp] theorem State.zeroFrame_fwVersion (s : State) (f : Nat) : (s.zeroFrame f).fwVersion = s.fwVersion := rfl
@[simp] theorem State.zeroFrame_fwDigest (s : State) (f : Nat) : (s.zeroFrame f).fwDigest = s.fwDigest := rfl
@[simp] theorem State.zeroFrame_od (s : State) (f : Nat) : (s.zeroFrame f).od = s.od := rfl
@[simp] theorem State.zeroFrame_ports (s : State) (f : Nat) : (s.zeroFrame f).ports = s.ports := rfl
@[simp] theorem State.zeroFrame_cores (s : State) (f : Nat) : (s.zeroFrame f).cores = s.cores := rfl
@[simp] theorem State.zeroFrame_tens (s : State) (f : Nat) : (s.zeroFrame f).tens = s.tens := rfl
@[simp] theorem State.zeroFrame_codec (s : State) (f : Nat) : (s.zeroFrame f).codec = s.codec := rfl
@[simp] theorem State.zeroFrame_lastServed (s : State) (f : Nat) : (s.zeroFrame f).lastServed = s.lastServed := rfl
@[simp] theorem State.zeroFrame_ingest (s : State) (f : Nat) : (s.zeroFrame f).ingest = s.ingest := rfl
@[simp] theorem State.zeroFrame_ingestPos (s : State) (f : Nat) : (s.zeroFrame f).ingestPos = s.ingestPos := rfl
@[simp] theorem State.zeroFrame_install (s : State) (f : Nat) : (s.zeroFrame f).install = s.install := rfl
@[simp] theorem State.zeroFrame_net (s : State) (f : Nat) : (s.zeroFrame f).net = s.net := rfl
@[simp] theorem State.zeroFrame_coll (s : State) (f : Nat) : (s.zeroFrame f).coll = s.coll := rfl
@[simp] theorem State.zeroFrame_health (s : State) (f : Nat) : (s.zeroFrame f).health = s.health := rfl

@[simp] theorem State.copyFrame_pending (s : State) (src dst : Nat) : (s.copyFrame src dst).pending = s.pending := rfl
@[simp] theorem State.copyFrame_free (s : State) (src dst : Nat) : (s.copyFrame src dst).free = s.free := rfl
@[simp] theorem State.copyFrame_out (s : State) (src dst : Nat) : (s.copyFrame src dst).out = s.out := rfl
@[simp] theorem State.copyFrame_tick (s : State) (src dst : Nat) : (s.copyFrame src dst).tick = s.tick := rfl
@[simp] theorem State.copyFrame_power (s : State) (src dst : Nat) : (s.copyFrame src dst).power = s.power := rfl
@[simp] theorem State.copyFrame_fuses (s : State) (src dst : Nat) : (s.copyFrame src dst).fuses = s.fuses := rfl
@[simp] theorem State.copyFrame_flash (s : State) (src dst : Nat) : (s.copyFrame src dst).flash = s.flash := rfl
@[simp] theorem State.copyFrame_fwImage (s : State) (src dst : Nat) : (s.copyFrame src dst).fwImage = s.fwImage := rfl
@[simp] theorem State.copyFrame_fwVersion (s : State) (src dst : Nat) : (s.copyFrame src dst).fwVersion = s.fwVersion := rfl
@[simp] theorem State.copyFrame_fwDigest (s : State) (src dst : Nat) : (s.copyFrame src dst).fwDigest = s.fwDigest := rfl
@[simp] theorem State.copyFrame_od (s : State) (src dst : Nat) : (s.copyFrame src dst).od = s.od := rfl
@[simp] theorem State.copyFrame_ports (s : State) (src dst : Nat) : (s.copyFrame src dst).ports = s.ports := rfl
@[simp] theorem State.copyFrame_cores (s : State) (src dst : Nat) : (s.copyFrame src dst).cores = s.cores := rfl
@[simp] theorem State.copyFrame_tens (s : State) (src dst : Nat) : (s.copyFrame src dst).tens = s.tens := rfl
@[simp] theorem State.copyFrame_codec (s : State) (src dst : Nat) : (s.copyFrame src dst).codec = s.codec := rfl
@[simp] theorem State.copyFrame_lastServed (s : State) (src dst : Nat) : (s.copyFrame src dst).lastServed = s.lastServed := rfl
@[simp] theorem State.copyFrame_ingest (s : State) (src dst : Nat) : (s.copyFrame src dst).ingest = s.ingest := rfl
@[simp] theorem State.copyFrame_ingestPos (s : State) (src dst : Nat) : (s.copyFrame src dst).ingestPos = s.ingestPos := rfl
@[simp] theorem State.copyFrame_install (s : State) (src dst : Nat) : (s.copyFrame src dst).install = s.install := rfl
@[simp] theorem State.copyFrame_net (s : State) (src dst : Nat) : (s.copyFrame src dst).net = s.net := rfl
@[simp] theorem State.copyFrame_coll (s : State) (src dst : Nat) : (s.copyFrame src dst).coll = s.coll := rfl
@[simp] theorem State.copyFrame_health (s : State) (src dst : Nat) : (s.copyFrame src dst).health = s.health := rfl

@[simp] theorem State.dropDie_pending (s : State) (p : Nat → DieUse → Bool) : (s.dropDie p).pending = s.pending := rfl
@[simp] theorem State.dropDie_free (s : State) (p : Nat → DieUse → Bool) : (s.dropDie p).free = s.free := rfl
@[simp] theorem State.dropDie_out (s : State) (p : Nat → DieUse → Bool) : (s.dropDie p).out = s.out := rfl
@[simp] theorem State.dropDie_tick (s : State) (p : Nat → DieUse → Bool) : (s.dropDie p).tick = s.tick := rfl
@[simp] theorem State.dropDie_power (s : State) (p : Nat → DieUse → Bool) : (s.dropDie p).power = s.power := rfl
@[simp] theorem State.dropDie_fuses (s : State) (p : Nat → DieUse → Bool) : (s.dropDie p).fuses = s.fuses := rfl
@[simp] theorem State.dropDie_flash (s : State) (p : Nat → DieUse → Bool) : (s.dropDie p).flash = s.flash := rfl
@[simp] theorem State.dropDie_fwImage (s : State) (p : Nat → DieUse → Bool) : (s.dropDie p).fwImage = s.fwImage := rfl
@[simp] theorem State.dropDie_fwVersion (s : State) (p : Nat → DieUse → Bool) : (s.dropDie p).fwVersion = s.fwVersion := rfl
@[simp] theorem State.dropDie_fwDigest (s : State) (p : Nat → DieUse → Bool) : (s.dropDie p).fwDigest = s.fwDigest := rfl
@[simp] theorem State.dropDie_od (s : State) (p : Nat → DieUse → Bool) : (s.dropDie p).od = s.od := rfl
@[simp] theorem State.dropDie_ports (s : State) (p : Nat → DieUse → Bool) : (s.dropDie p).ports = s.ports := rfl
@[simp] theorem State.dropDie_cores (s : State) (p : Nat → DieUse → Bool) : (s.dropDie p).cores = s.cores := rfl
@[simp] theorem State.dropDie_tens (s : State) (p : Nat → DieUse → Bool) : (s.dropDie p).tens = s.tens := rfl
@[simp] theorem State.dropDie_codec (s : State) (p : Nat → DieUse → Bool) : (s.dropDie p).codec = s.codec := rfl
@[simp] theorem State.dropDie_lastServed (s : State) (p : Nat → DieUse → Bool) : (s.dropDie p).lastServed = s.lastServed := rfl
@[simp] theorem State.dropDie_ingest (s : State) (p : Nat → DieUse → Bool) : (s.dropDie p).ingest = s.ingest := rfl
@[simp] theorem State.dropDie_ingestPos (s : State) (p : Nat → DieUse → Bool) : (s.dropDie p).ingestPos = s.ingestPos := rfl
@[simp] theorem State.dropDie_install (s : State) (p : Nat → DieUse → Bool) : (s.dropDie p).install = s.install := rfl
@[simp] theorem State.dropDie_net (s : State) (p : Nat → DieUse → Bool) : (s.dropDie p).net = s.net := rfl
@[simp] theorem State.dropDie_coll (s : State) (p : Nat → DieUse → Bool) : (s.dropDie p).coll = s.coll := rfl
@[simp] theorem State.dropDie_health (s : State) (p : Nat → DieUse → Bool) : (s.dropDie p).health = s.health := rfl

@[simp] theorem State.setPage_pending (s : State) (t : Fin 4) (v : Nat) (e : PageEntry) : (s.setPage t v e).pending = s.pending := rfl
@[simp] theorem State.setPage_free (s : State) (t : Fin 4) (v : Nat) (e : PageEntry) : (s.setPage t v e).free = s.free := rfl
@[simp] theorem State.setPage_out (s : State) (t : Fin 4) (v : Nat) (e : PageEntry) : (s.setPage t v e).out = s.out := rfl
@[simp] theorem State.setPage_tick (s : State) (t : Fin 4) (v : Nat) (e : PageEntry) : (s.setPage t v e).tick = s.tick := rfl
@[simp] theorem State.setPage_power (s : State) (t : Fin 4) (v : Nat) (e : PageEntry) : (s.setPage t v e).power = s.power := rfl
@[simp] theorem State.setPage_fuses (s : State) (t : Fin 4) (v : Nat) (e : PageEntry) : (s.setPage t v e).fuses = s.fuses := rfl
@[simp] theorem State.setPage_flash (s : State) (t : Fin 4) (v : Nat) (e : PageEntry) : (s.setPage t v e).flash = s.flash := rfl
@[simp] theorem State.setPage_fwImage (s : State) (t : Fin 4) (v : Nat) (e : PageEntry) : (s.setPage t v e).fwImage = s.fwImage := rfl
@[simp] theorem State.setPage_fwVersion (s : State) (t : Fin 4) (v : Nat) (e : PageEntry) : (s.setPage t v e).fwVersion = s.fwVersion := rfl
@[simp] theorem State.setPage_fwDigest (s : State) (t : Fin 4) (v : Nat) (e : PageEntry) : (s.setPage t v e).fwDigest = s.fwDigest := rfl
@[simp] theorem State.setPage_od (s : State) (t : Fin 4) (v : Nat) (e : PageEntry) : (s.setPage t v e).od = s.od := rfl
@[simp] theorem State.setPage_ports (s : State) (t : Fin 4) (v : Nat) (e : PageEntry) : (s.setPage t v e).ports = s.ports := rfl
@[simp] theorem State.setPage_cores (s : State) (t : Fin 4) (v : Nat) (e : PageEntry) : (s.setPage t v e).cores = s.cores := rfl
@[simp] theorem State.setPage_tens (s : State) (t : Fin 4) (v : Nat) (e : PageEntry) : (s.setPage t v e).tens = s.tens := rfl
@[simp] theorem State.setPage_codec (s : State) (t : Fin 4) (v : Nat) (e : PageEntry) : (s.setPage t v e).codec = s.codec := rfl
@[simp] theorem State.setPage_lastServed (s : State) (t : Fin 4) (v : Nat) (e : PageEntry) : (s.setPage t v e).lastServed = s.lastServed := rfl
@[simp] theorem State.setPage_ingest (s : State) (t : Fin 4) (v : Nat) (e : PageEntry) : (s.setPage t v e).ingest = s.ingest := rfl
@[simp] theorem State.setPage_ingestPos (s : State) (t : Fin 4) (v : Nat) (e : PageEntry) : (s.setPage t v e).ingestPos = s.ingestPos := rfl
@[simp] theorem State.setPage_install (s : State) (t : Fin 4) (v : Nat) (e : PageEntry) : (s.setPage t v e).install = s.install := rfl
@[simp] theorem State.setPage_net (s : State) (t : Fin 4) (v : Nat) (e : PageEntry) : (s.setPage t v e).net = s.net := rfl
@[simp] theorem State.setPage_coll (s : State) (t : Fin 4) (v : Nat) (e : PageEntry) : (s.setPage t v e).coll = s.coll := rfl
@[simp] theorem State.setPage_health (s : State) (t : Fin 4) (v : Nat) (e : PageEntry) : (s.setPage t v e).health = s.health := rfl

@[simp] theorem State.delPage_pending (s : State) (t : Fin 4) (v : Nat) : (s.delPage t v).pending = s.pending := rfl
@[simp] theorem State.delPage_free (s : State) (t : Fin 4) (v : Nat) : (s.delPage t v).free = s.free := rfl
@[simp] theorem State.delPage_out (s : State) (t : Fin 4) (v : Nat) : (s.delPage t v).out = s.out := rfl
@[simp] theorem State.delPage_tick (s : State) (t : Fin 4) (v : Nat) : (s.delPage t v).tick = s.tick := rfl
@[simp] theorem State.delPage_power (s : State) (t : Fin 4) (v : Nat) : (s.delPage t v).power = s.power := rfl
@[simp] theorem State.delPage_fuses (s : State) (t : Fin 4) (v : Nat) : (s.delPage t v).fuses = s.fuses := rfl
@[simp] theorem State.delPage_flash (s : State) (t : Fin 4) (v : Nat) : (s.delPage t v).flash = s.flash := rfl
@[simp] theorem State.delPage_fwImage (s : State) (t : Fin 4) (v : Nat) : (s.delPage t v).fwImage = s.fwImage := rfl
@[simp] theorem State.delPage_fwVersion (s : State) (t : Fin 4) (v : Nat) : (s.delPage t v).fwVersion = s.fwVersion := rfl
@[simp] theorem State.delPage_fwDigest (s : State) (t : Fin 4) (v : Nat) : (s.delPage t v).fwDigest = s.fwDigest := rfl
@[simp] theorem State.delPage_od (s : State) (t : Fin 4) (v : Nat) : (s.delPage t v).od = s.od := rfl
@[simp] theorem State.delPage_ports (s : State) (t : Fin 4) (v : Nat) : (s.delPage t v).ports = s.ports := rfl
@[simp] theorem State.delPage_cores (s : State) (t : Fin 4) (v : Nat) : (s.delPage t v).cores = s.cores := rfl
@[simp] theorem State.delPage_tens (s : State) (t : Fin 4) (v : Nat) : (s.delPage t v).tens = s.tens := rfl
@[simp] theorem State.delPage_codec (s : State) (t : Fin 4) (v : Nat) : (s.delPage t v).codec = s.codec := rfl
@[simp] theorem State.delPage_lastServed (s : State) (t : Fin 4) (v : Nat) : (s.delPage t v).lastServed = s.lastServed := rfl
@[simp] theorem State.delPage_ingest (s : State) (t : Fin 4) (v : Nat) : (s.delPage t v).ingest = s.ingest := rfl
@[simp] theorem State.delPage_ingestPos (s : State) (t : Fin 4) (v : Nat) : (s.delPage t v).ingestPos = s.ingestPos := rfl
@[simp] theorem State.delPage_install (s : State) (t : Fin 4) (v : Nat) : (s.delPage t v).install = s.install := rfl
@[simp] theorem State.delPage_net (s : State) (t : Fin 4) (v : Nat) : (s.delPage t v).net = s.net := rfl
@[simp] theorem State.delPage_coll (s : State) (t : Fin 4) (v : Nat) : (s.delPage t v).coll = s.coll := rfl
@[simp] theorem State.delPage_health (s : State) (t : Fin 4) (v : Nat) : (s.delPage t v).health = s.health := rfl

@[simp] theorem State.modPage_pending (s : State) (t : Fin 4) (v : Nat) (f : PageEntry → PageEntry) : (s.modPage t v f).pending = s.pending := rfl
@[simp] theorem State.modPage_free (s : State) (t : Fin 4) (v : Nat) (f : PageEntry → PageEntry) : (s.modPage t v f).free = s.free := rfl
@[simp] theorem State.modPage_out (s : State) (t : Fin 4) (v : Nat) (f : PageEntry → PageEntry) : (s.modPage t v f).out = s.out := rfl
@[simp] theorem State.modPage_tick (s : State) (t : Fin 4) (v : Nat) (f : PageEntry → PageEntry) : (s.modPage t v f).tick = s.tick := rfl
@[simp] theorem State.modPage_power (s : State) (t : Fin 4) (v : Nat) (f : PageEntry → PageEntry) : (s.modPage t v f).power = s.power := rfl
@[simp] theorem State.modPage_fuses (s : State) (t : Fin 4) (v : Nat) (f : PageEntry → PageEntry) : (s.modPage t v f).fuses = s.fuses := rfl
@[simp] theorem State.modPage_flash (s : State) (t : Fin 4) (v : Nat) (f : PageEntry → PageEntry) : (s.modPage t v f).flash = s.flash := rfl
@[simp] theorem State.modPage_fwImage (s : State) (t : Fin 4) (v : Nat) (f : PageEntry → PageEntry) : (s.modPage t v f).fwImage = s.fwImage := rfl
@[simp] theorem State.modPage_fwVersion (s : State) (t : Fin 4) (v : Nat) (f : PageEntry → PageEntry) : (s.modPage t v f).fwVersion = s.fwVersion := rfl
@[simp] theorem State.modPage_fwDigest (s : State) (t : Fin 4) (v : Nat) (f : PageEntry → PageEntry) : (s.modPage t v f).fwDigest = s.fwDigest := rfl
@[simp] theorem State.modPage_od (s : State) (t : Fin 4) (v : Nat) (f : PageEntry → PageEntry) : (s.modPage t v f).od = s.od := rfl
@[simp] theorem State.modPage_ports (s : State) (t : Fin 4) (v : Nat) (f : PageEntry → PageEntry) : (s.modPage t v f).ports = s.ports := rfl
@[simp] theorem State.modPage_cores (s : State) (t : Fin 4) (v : Nat) (f : PageEntry → PageEntry) : (s.modPage t v f).cores = s.cores := rfl
@[simp] theorem State.modPage_tens (s : State) (t : Fin 4) (v : Nat) (f : PageEntry → PageEntry) : (s.modPage t v f).tens = s.tens := rfl
@[simp] theorem State.modPage_codec (s : State) (t : Fin 4) (v : Nat) (f : PageEntry → PageEntry) : (s.modPage t v f).codec = s.codec := rfl
@[simp] theorem State.modPage_lastServed (s : State) (t : Fin 4) (v : Nat) (f : PageEntry → PageEntry) : (s.modPage t v f).lastServed = s.lastServed := rfl
@[simp] theorem State.modPage_ingest (s : State) (t : Fin 4) (v : Nat) (f : PageEntry → PageEntry) : (s.modPage t v f).ingest = s.ingest := rfl
@[simp] theorem State.modPage_ingestPos (s : State) (t : Fin 4) (v : Nat) (f : PageEntry → PageEntry) : (s.modPage t v f).ingestPos = s.ingestPos := rfl
@[simp] theorem State.modPage_install (s : State) (t : Fin 4) (v : Nat) (f : PageEntry → PageEntry) : (s.modPage t v f).install = s.install := rfl
@[simp] theorem State.modPage_net (s : State) (t : Fin 4) (v : Nat) (f : PageEntry → PageEntry) : (s.modPage t v f).net = s.net := rfl
@[simp] theorem State.modPage_coll (s : State) (t : Fin 4) (v : Nat) (f : PageEntry → PageEntry) : (s.modPage t v f).coll = s.coll := rfl
@[simp] theorem State.modPage_health (s : State) (t : Fin 4) (v : Nat) (f : PageEntry → PageEntry) : (s.modPage t v f).health = s.health := rfl

@[simp] theorem State.pwrite_pending (s : State) (a : Nat) (bs : List Byte) : (s.pwrite a bs).pending = s.pending := rfl
@[simp] theorem State.pwrite_free (s : State) (a : Nat) (bs : List Byte) : (s.pwrite a bs).free = s.free := rfl
@[simp] theorem State.pwrite_out (s : State) (a : Nat) (bs : List Byte) : (s.pwrite a bs).out = s.out := rfl
@[simp] theorem State.pwrite_tick (s : State) (a : Nat) (bs : List Byte) : (s.pwrite a bs).tick = s.tick := rfl
@[simp] theorem State.pwrite_power (s : State) (a : Nat) (bs : List Byte) : (s.pwrite a bs).power = s.power := rfl
@[simp] theorem State.pwrite_fuses (s : State) (a : Nat) (bs : List Byte) : (s.pwrite a bs).fuses = s.fuses := rfl
@[simp] theorem State.pwrite_flash (s : State) (a : Nat) (bs : List Byte) : (s.pwrite a bs).flash = s.flash := rfl
@[simp] theorem State.pwrite_fwImage (s : State) (a : Nat) (bs : List Byte) : (s.pwrite a bs).fwImage = s.fwImage := rfl
@[simp] theorem State.pwrite_fwVersion (s : State) (a : Nat) (bs : List Byte) : (s.pwrite a bs).fwVersion = s.fwVersion := rfl
@[simp] theorem State.pwrite_fwDigest (s : State) (a : Nat) (bs : List Byte) : (s.pwrite a bs).fwDigest = s.fwDigest := rfl
@[simp] theorem State.pwrite_od (s : State) (a : Nat) (bs : List Byte) : (s.pwrite a bs).od = s.od := rfl
@[simp] theorem State.pwrite_ports (s : State) (a : Nat) (bs : List Byte) : (s.pwrite a bs).ports = s.ports := rfl
@[simp] theorem State.pwrite_cores (s : State) (a : Nat) (bs : List Byte) : (s.pwrite a bs).cores = s.cores := rfl
@[simp] theorem State.pwrite_tens (s : State) (a : Nat) (bs : List Byte) : (s.pwrite a bs).tens = s.tens := rfl
@[simp] theorem State.pwrite_codec (s : State) (a : Nat) (bs : List Byte) : (s.pwrite a bs).codec = s.codec := rfl
@[simp] theorem State.pwrite_lastServed (s : State) (a : Nat) (bs : List Byte) : (s.pwrite a bs).lastServed = s.lastServed := rfl
@[simp] theorem State.pwrite_ingest (s : State) (a : Nat) (bs : List Byte) : (s.pwrite a bs).ingest = s.ingest := rfl
@[simp] theorem State.pwrite_ingestPos (s : State) (a : Nat) (bs : List Byte) : (s.pwrite a bs).ingestPos = s.ingestPos := rfl
@[simp] theorem State.pwrite_install (s : State) (a : Nat) (bs : List Byte) : (s.pwrite a bs).install = s.install := rfl
@[simp] theorem State.pwrite_net (s : State) (a : Nat) (bs : List Byte) : (s.pwrite a bs).net = s.net := rfl
@[simp] theorem State.pwrite_coll (s : State) (a : Nat) (bs : List Byte) : (s.pwrite a bs).coll = s.coll := rfl
@[simp] theorem State.pwrite_health (s : State) (a : Nat) (bs : List Byte) : (s.pwrite a bs).health = s.health := rfl

@[simp] theorem State.touch_pending (s : State) (t : Fin 4) (v : Nat) : (s.touch t v).pending = s.pending := rfl
@[simp] theorem State.touch_free (s : State) (t : Fin 4) (v : Nat) : (s.touch t v).free = s.free := rfl
@[simp] theorem State.touch_out (s : State) (t : Fin 4) (v : Nat) : (s.touch t v).out = s.out := rfl
@[simp] theorem State.touch_tick (s : State) (t : Fin 4) (v : Nat) : (s.touch t v).tick = s.tick := rfl
@[simp] theorem State.touch_power (s : State) (t : Fin 4) (v : Nat) : (s.touch t v).power = s.power := rfl
@[simp] theorem State.touch_fuses (s : State) (t : Fin 4) (v : Nat) : (s.touch t v).fuses = s.fuses := rfl
@[simp] theorem State.touch_flash (s : State) (t : Fin 4) (v : Nat) : (s.touch t v).flash = s.flash := rfl
@[simp] theorem State.touch_fwImage (s : State) (t : Fin 4) (v : Nat) : (s.touch t v).fwImage = s.fwImage := rfl
@[simp] theorem State.touch_fwVersion (s : State) (t : Fin 4) (v : Nat) : (s.touch t v).fwVersion = s.fwVersion := rfl
@[simp] theorem State.touch_fwDigest (s : State) (t : Fin 4) (v : Nat) : (s.touch t v).fwDigest = s.fwDigest := rfl
@[simp] theorem State.touch_od (s : State) (t : Fin 4) (v : Nat) : (s.touch t v).od = s.od := rfl
@[simp] theorem State.touch_ports (s : State) (t : Fin 4) (v : Nat) : (s.touch t v).ports = s.ports := rfl
@[simp] theorem State.touch_cores (s : State) (t : Fin 4) (v : Nat) : (s.touch t v).cores = s.cores := rfl
@[simp] theorem State.touch_tens (s : State) (t : Fin 4) (v : Nat) : (s.touch t v).tens = s.tens := rfl
@[simp] theorem State.touch_codec (s : State) (t : Fin 4) (v : Nat) : (s.touch t v).codec = s.codec := rfl
@[simp] theorem State.touch_lastServed (s : State) (t : Fin 4) (v : Nat) : (s.touch t v).lastServed = s.lastServed := rfl
@[simp] theorem State.touch_ingest (s : State) (t : Fin 4) (v : Nat) : (s.touch t v).ingest = s.ingest := rfl
@[simp] theorem State.touch_ingestPos (s : State) (t : Fin 4) (v : Nat) : (s.touch t v).ingestPos = s.ingestPos := rfl
@[simp] theorem State.touch_install (s : State) (t : Fin 4) (v : Nat) : (s.touch t v).install = s.install := rfl
@[simp] theorem State.touch_net (s : State) (t : Fin 4) (v : Nat) : (s.touch t v).net = s.net := rfl
@[simp] theorem State.touch_coll (s : State) (t : Fin 4) (v : Nat) : (s.touch t v).coll = s.coll := rfl
@[simp] theorem State.touch_health (s : State) (t : Fin 4) (v : Nat) : (s.touch t v).health = s.health := rfl

@[simp] theorem State.setKv_pending (s : State) (f : Nat) (k : KvFrame) : (s.setKv f k).pending = s.pending := rfl
@[simp] theorem State.setKv_free (s : State) (f : Nat) (k : KvFrame) : (s.setKv f k).free = s.free := rfl
@[simp] theorem State.setKv_out (s : State) (f : Nat) (k : KvFrame) : (s.setKv f k).out = s.out := rfl
@[simp] theorem State.setKv_tick (s : State) (f : Nat) (k : KvFrame) : (s.setKv f k).tick = s.tick := rfl
@[simp] theorem State.setKv_power (s : State) (f : Nat) (k : KvFrame) : (s.setKv f k).power = s.power := rfl
@[simp] theorem State.setKv_fuses (s : State) (f : Nat) (k : KvFrame) : (s.setKv f k).fuses = s.fuses := rfl
@[simp] theorem State.setKv_flash (s : State) (f : Nat) (k : KvFrame) : (s.setKv f k).flash = s.flash := rfl
@[simp] theorem State.setKv_fwImage (s : State) (f : Nat) (k : KvFrame) : (s.setKv f k).fwImage = s.fwImage := rfl
@[simp] theorem State.setKv_fwVersion (s : State) (f : Nat) (k : KvFrame) : (s.setKv f k).fwVersion = s.fwVersion := rfl
@[simp] theorem State.setKv_fwDigest (s : State) (f : Nat) (k : KvFrame) : (s.setKv f k).fwDigest = s.fwDigest := rfl
@[simp] theorem State.setKv_od (s : State) (f : Nat) (k : KvFrame) : (s.setKv f k).od = s.od := rfl
@[simp] theorem State.setKv_ports (s : State) (f : Nat) (k : KvFrame) : (s.setKv f k).ports = s.ports := rfl
@[simp] theorem State.setKv_cores (s : State) (f : Nat) (k : KvFrame) : (s.setKv f k).cores = s.cores := rfl
@[simp] theorem State.setKv_tens (s : State) (f : Nat) (k : KvFrame) : (s.setKv f k).tens = s.tens := rfl
@[simp] theorem State.setKv_codec (s : State) (f : Nat) (k : KvFrame) : (s.setKv f k).codec = s.codec := rfl
@[simp] theorem State.setKv_lastServed (s : State) (f : Nat) (k : KvFrame) : (s.setKv f k).lastServed = s.lastServed := rfl
@[simp] theorem State.setKv_ingest (s : State) (f : Nat) (k : KvFrame) : (s.setKv f k).ingest = s.ingest := rfl
@[simp] theorem State.setKv_ingestPos (s : State) (f : Nat) (k : KvFrame) : (s.setKv f k).ingestPos = s.ingestPos := rfl
@[simp] theorem State.setKv_install (s : State) (f : Nat) (k : KvFrame) : (s.setKv f k).install = s.install := rfl
@[simp] theorem State.setKv_net (s : State) (f : Nat) (k : KvFrame) : (s.setKv f k).net = s.net := rfl
@[simp] theorem State.setKv_coll (s : State) (f : Nat) (k : KvFrame) : (s.setKv f k).coll = s.coll := rfl
@[simp] theorem State.setKv_health (s : State) (f : Nat) (k : KvFrame) : (s.setKv f k).health = s.health := rfl

@[simp] theorem State.modKv_pending (s : State) (f : Nat) (g : KvFrame → KvFrame) : (s.modKv f g).pending = s.pending := rfl
@[simp] theorem State.modKv_free (s : State) (f : Nat) (g : KvFrame → KvFrame) : (s.modKv f g).free = s.free := rfl
@[simp] theorem State.modKv_out (s : State) (f : Nat) (g : KvFrame → KvFrame) : (s.modKv f g).out = s.out := rfl
@[simp] theorem State.modKv_tick (s : State) (f : Nat) (g : KvFrame → KvFrame) : (s.modKv f g).tick = s.tick := rfl
@[simp] theorem State.modKv_power (s : State) (f : Nat) (g : KvFrame → KvFrame) : (s.modKv f g).power = s.power := rfl
@[simp] theorem State.modKv_fuses (s : State) (f : Nat) (g : KvFrame → KvFrame) : (s.modKv f g).fuses = s.fuses := rfl
@[simp] theorem State.modKv_flash (s : State) (f : Nat) (g : KvFrame → KvFrame) : (s.modKv f g).flash = s.flash := rfl
@[simp] theorem State.modKv_fwImage (s : State) (f : Nat) (g : KvFrame → KvFrame) : (s.modKv f g).fwImage = s.fwImage := rfl
@[simp] theorem State.modKv_fwVersion (s : State) (f : Nat) (g : KvFrame → KvFrame) : (s.modKv f g).fwVersion = s.fwVersion := rfl
@[simp] theorem State.modKv_fwDigest (s : State) (f : Nat) (g : KvFrame → KvFrame) : (s.modKv f g).fwDigest = s.fwDigest := rfl
@[simp] theorem State.modKv_od (s : State) (f : Nat) (g : KvFrame → KvFrame) : (s.modKv f g).od = s.od := rfl
@[simp] theorem State.modKv_ports (s : State) (f : Nat) (g : KvFrame → KvFrame) : (s.modKv f g).ports = s.ports := rfl
@[simp] theorem State.modKv_cores (s : State) (f : Nat) (g : KvFrame → KvFrame) : (s.modKv f g).cores = s.cores := rfl
@[simp] theorem State.modKv_tens (s : State) (f : Nat) (g : KvFrame → KvFrame) : (s.modKv f g).tens = s.tens := rfl
@[simp] theorem State.modKv_codec (s : State) (f : Nat) (g : KvFrame → KvFrame) : (s.modKv f g).codec = s.codec := rfl
@[simp] theorem State.modKv_lastServed (s : State) (f : Nat) (g : KvFrame → KvFrame) : (s.modKv f g).lastServed = s.lastServed := rfl
@[simp] theorem State.modKv_ingest (s : State) (f : Nat) (g : KvFrame → KvFrame) : (s.modKv f g).ingest = s.ingest := rfl
@[simp] theorem State.modKv_ingestPos (s : State) (f : Nat) (g : KvFrame → KvFrame) : (s.modKv f g).ingestPos = s.ingestPos := rfl
@[simp] theorem State.modKv_install (s : State) (f : Nat) (g : KvFrame → KvFrame) : (s.modKv f g).install = s.install := rfl
@[simp] theorem State.modKv_net (s : State) (f : Nat) (g : KvFrame → KvFrame) : (s.modKv f g).net = s.net := rfl
@[simp] theorem State.modKv_coll (s : State) (f : Nat) (g : KvFrame → KvFrame) : (s.modKv f g).coll = s.coll := rfl
@[simp] theorem State.modKv_health (s : State) (f : Nat) (g : KvFrame → KvFrame) : (s.modKv f g).health = s.health := rfl

@[simp] theorem State.modL_pending (s : State) (p : Fin 18) (f : LPort → LPort) : (s.modL p f).pending = s.pending := rfl
@[simp] theorem State.modL_free (s : State) (p : Fin 18) (f : LPort → LPort) : (s.modL p f).free = s.free := rfl
@[simp] theorem State.modL_out (s : State) (p : Fin 18) (f : LPort → LPort) : (s.modL p f).out = s.out := rfl
@[simp] theorem State.modL_tick (s : State) (p : Fin 18) (f : LPort → LPort) : (s.modL p f).tick = s.tick := rfl
@[simp] theorem State.modL_power (s : State) (p : Fin 18) (f : LPort → LPort) : (s.modL p f).power = s.power := rfl
@[simp] theorem State.modL_fuses (s : State) (p : Fin 18) (f : LPort → LPort) : (s.modL p f).fuses = s.fuses := rfl
@[simp] theorem State.modL_flash (s : State) (p : Fin 18) (f : LPort → LPort) : (s.modL p f).flash = s.flash := rfl
@[simp] theorem State.modL_fwImage (s : State) (p : Fin 18) (f : LPort → LPort) : (s.modL p f).fwImage = s.fwImage := rfl
@[simp] theorem State.modL_fwVersion (s : State) (p : Fin 18) (f : LPort → LPort) : (s.modL p f).fwVersion = s.fwVersion := rfl
@[simp] theorem State.modL_fwDigest (s : State) (p : Fin 18) (f : LPort → LPort) : (s.modL p f).fwDigest = s.fwDigest := rfl
@[simp] theorem State.modL_od (s : State) (p : Fin 18) (f : LPort → LPort) : (s.modL p f).od = s.od := rfl
@[simp] theorem State.modL_ports (s : State) (p : Fin 18) (f : LPort → LPort) : (s.modL p f).ports = s.ports := rfl
@[simp] theorem State.modL_mem (s : State) (p : Fin 18) (f : LPort → LPort) : (s.modL p f).mem = s.mem := rfl
@[simp] theorem State.modL_cores (s : State) (p : Fin 18) (f : LPort → LPort) : (s.modL p f).cores = s.cores := rfl
@[simp] theorem State.modL_tens (s : State) (p : Fin 18) (f : LPort → LPort) : (s.modL p f).tens = s.tens := rfl
@[simp] theorem State.modL_codec (s : State) (p : Fin 18) (f : LPort → LPort) : (s.modL p f).codec = s.codec := rfl
@[simp] theorem State.modL_lastServed (s : State) (p : Fin 18) (f : LPort → LPort) : (s.modL p f).lastServed = s.lastServed := rfl
@[simp] theorem State.modL_ingest (s : State) (p : Fin 18) (f : LPort → LPort) : (s.modL p f).ingest = s.ingest := rfl
@[simp] theorem State.modL_ingestPos (s : State) (p : Fin 18) (f : LPort → LPort) : (s.modL p f).ingestPos = s.ingestPos := rfl
@[simp] theorem State.modL_install (s : State) (p : Fin 18) (f : LPort → LPort) : (s.modL p f).install = s.install := rfl
@[simp] theorem State.modL_coll (s : State) (p : Fin 18) (f : LPort → LPort) : (s.modL p f).coll = s.coll := rfl
@[simp] theorem State.modL_health (s : State) (p : Fin 18) (f : LPort → LPort) : (s.modL p f).health = s.health := rfl

@[simp] theorem State.setColl_pending (s : State) (g : Nat) (c : Coll) : (s.setColl g c).pending = s.pending := rfl
@[simp] theorem State.setColl_free (s : State) (g : Nat) (c : Coll) : (s.setColl g c).free = s.free := rfl
@[simp] theorem State.setColl_out (s : State) (g : Nat) (c : Coll) : (s.setColl g c).out = s.out := rfl
@[simp] theorem State.setColl_tick (s : State) (g : Nat) (c : Coll) : (s.setColl g c).tick = s.tick := rfl
@[simp] theorem State.setColl_power (s : State) (g : Nat) (c : Coll) : (s.setColl g c).power = s.power := rfl
@[simp] theorem State.setColl_fuses (s : State) (g : Nat) (c : Coll) : (s.setColl g c).fuses = s.fuses := rfl
@[simp] theorem State.setColl_flash (s : State) (g : Nat) (c : Coll) : (s.setColl g c).flash = s.flash := rfl
@[simp] theorem State.setColl_fwImage (s : State) (g : Nat) (c : Coll) : (s.setColl g c).fwImage = s.fwImage := rfl
@[simp] theorem State.setColl_fwVersion (s : State) (g : Nat) (c : Coll) : (s.setColl g c).fwVersion = s.fwVersion := rfl
@[simp] theorem State.setColl_fwDigest (s : State) (g : Nat) (c : Coll) : (s.setColl g c).fwDigest = s.fwDigest := rfl
@[simp] theorem State.setColl_od (s : State) (g : Nat) (c : Coll) : (s.setColl g c).od = s.od := rfl
@[simp] theorem State.setColl_ports (s : State) (g : Nat) (c : Coll) : (s.setColl g c).ports = s.ports := rfl
@[simp] theorem State.setColl_mem (s : State) (g : Nat) (c : Coll) : (s.setColl g c).mem = s.mem := rfl
@[simp] theorem State.setColl_cores (s : State) (g : Nat) (c : Coll) : (s.setColl g c).cores = s.cores := rfl
@[simp] theorem State.setColl_tens (s : State) (g : Nat) (c : Coll) : (s.setColl g c).tens = s.tens := rfl
@[simp] theorem State.setColl_codec (s : State) (g : Nat) (c : Coll) : (s.setColl g c).codec = s.codec := rfl
@[simp] theorem State.setColl_lastServed (s : State) (g : Nat) (c : Coll) : (s.setColl g c).lastServed = s.lastServed := rfl
@[simp] theorem State.setColl_ingest (s : State) (g : Nat) (c : Coll) : (s.setColl g c).ingest = s.ingest := rfl
@[simp] theorem State.setColl_ingestPos (s : State) (g : Nat) (c : Coll) : (s.setColl g c).ingestPos = s.ingestPos := rfl
@[simp] theorem State.setColl_install (s : State) (g : Nat) (c : Coll) : (s.setColl g c).install = s.install := rfl
@[simp] theorem State.setColl_net (s : State) (g : Nat) (c : Coll) : (s.setColl g c).net = s.net := rfl
@[simp] theorem State.setColl_health (s : State) (g : Nat) (c : Coll) : (s.setColl g c).health = s.health := rfl

@[simp] theorem State.modColl_pending (s : State) (g : Nat) (f : Coll → Coll) : (s.modColl g f).pending = s.pending := rfl
@[simp] theorem State.modColl_free (s : State) (g : Nat) (f : Coll → Coll) : (s.modColl g f).free = s.free := rfl
@[simp] theorem State.modColl_out (s : State) (g : Nat) (f : Coll → Coll) : (s.modColl g f).out = s.out := rfl
@[simp] theorem State.modColl_tick (s : State) (g : Nat) (f : Coll → Coll) : (s.modColl g f).tick = s.tick := rfl
@[simp] theorem State.modColl_power (s : State) (g : Nat) (f : Coll → Coll) : (s.modColl g f).power = s.power := rfl
@[simp] theorem State.modColl_fuses (s : State) (g : Nat) (f : Coll → Coll) : (s.modColl g f).fuses = s.fuses := rfl
@[simp] theorem State.modColl_flash (s : State) (g : Nat) (f : Coll → Coll) : (s.modColl g f).flash = s.flash := rfl
@[simp] theorem State.modColl_fwImage (s : State) (g : Nat) (f : Coll → Coll) : (s.modColl g f).fwImage = s.fwImage := rfl
@[simp] theorem State.modColl_fwVersion (s : State) (g : Nat) (f : Coll → Coll) : (s.modColl g f).fwVersion = s.fwVersion := rfl
@[simp] theorem State.modColl_fwDigest (s : State) (g : Nat) (f : Coll → Coll) : (s.modColl g f).fwDigest = s.fwDigest := rfl
@[simp] theorem State.modColl_od (s : State) (g : Nat) (f : Coll → Coll) : (s.modColl g f).od = s.od := rfl
@[simp] theorem State.modColl_ports (s : State) (g : Nat) (f : Coll → Coll) : (s.modColl g f).ports = s.ports := rfl
@[simp] theorem State.modColl_mem (s : State) (g : Nat) (f : Coll → Coll) : (s.modColl g f).mem = s.mem := rfl
@[simp] theorem State.modColl_cores (s : State) (g : Nat) (f : Coll → Coll) : (s.modColl g f).cores = s.cores := rfl
@[simp] theorem State.modColl_tens (s : State) (g : Nat) (f : Coll → Coll) : (s.modColl g f).tens = s.tens := rfl
@[simp] theorem State.modColl_codec (s : State) (g : Nat) (f : Coll → Coll) : (s.modColl g f).codec = s.codec := rfl
@[simp] theorem State.modColl_lastServed (s : State) (g : Nat) (f : Coll → Coll) : (s.modColl g f).lastServed = s.lastServed := rfl
@[simp] theorem State.modColl_ingest (s : State) (g : Nat) (f : Coll → Coll) : (s.modColl g f).ingest = s.ingest := rfl
@[simp] theorem State.modColl_ingestPos (s : State) (g : Nat) (f : Coll → Coll) : (s.modColl g f).ingestPos = s.ingestPos := rfl
@[simp] theorem State.modColl_install (s : State) (g : Nat) (f : Coll → Coll) : (s.modColl g f).install = s.install := rfl
@[simp] theorem State.modColl_net (s : State) (g : Nat) (f : Coll → Coll) : (s.modColl g f).net = s.net := rfl
@[simp] theorem State.modColl_health (s : State) (g : Nat) (f : Coll → Coll) : (s.modColl g f).health = s.health := rfl

@[simp] theorem State.modCodec_pending (s : State) (n : Nat) (f : CodecCtx → CodecCtx) : (s.modCodec n f).pending = s.pending := rfl
@[simp] theorem State.modCodec_free (s : State) (n : Nat) (f : CodecCtx → CodecCtx) : (s.modCodec n f).free = s.free := rfl
@[simp] theorem State.modCodec_out (s : State) (n : Nat) (f : CodecCtx → CodecCtx) : (s.modCodec n f).out = s.out := rfl
@[simp] theorem State.modCodec_tick (s : State) (n : Nat) (f : CodecCtx → CodecCtx) : (s.modCodec n f).tick = s.tick := rfl
@[simp] theorem State.modCodec_power (s : State) (n : Nat) (f : CodecCtx → CodecCtx) : (s.modCodec n f).power = s.power := rfl
@[simp] theorem State.modCodec_fuses (s : State) (n : Nat) (f : CodecCtx → CodecCtx) : (s.modCodec n f).fuses = s.fuses := rfl
@[simp] theorem State.modCodec_flash (s : State) (n : Nat) (f : CodecCtx → CodecCtx) : (s.modCodec n f).flash = s.flash := rfl
@[simp] theorem State.modCodec_fwImage (s : State) (n : Nat) (f : CodecCtx → CodecCtx) : (s.modCodec n f).fwImage = s.fwImage := rfl
@[simp] theorem State.modCodec_fwVersion (s : State) (n : Nat) (f : CodecCtx → CodecCtx) : (s.modCodec n f).fwVersion = s.fwVersion := rfl
@[simp] theorem State.modCodec_fwDigest (s : State) (n : Nat) (f : CodecCtx → CodecCtx) : (s.modCodec n f).fwDigest = s.fwDigest := rfl
@[simp] theorem State.modCodec_od (s : State) (n : Nat) (f : CodecCtx → CodecCtx) : (s.modCodec n f).od = s.od := rfl
@[simp] theorem State.modCodec_ports (s : State) (n : Nat) (f : CodecCtx → CodecCtx) : (s.modCodec n f).ports = s.ports := rfl
@[simp] theorem State.modCodec_mem (s : State) (n : Nat) (f : CodecCtx → CodecCtx) : (s.modCodec n f).mem = s.mem := rfl
@[simp] theorem State.modCodec_cores (s : State) (n : Nat) (f : CodecCtx → CodecCtx) : (s.modCodec n f).cores = s.cores := rfl
@[simp] theorem State.modCodec_tens (s : State) (n : Nat) (f : CodecCtx → CodecCtx) : (s.modCodec n f).tens = s.tens := rfl
@[simp] theorem State.modCodec_lastServed (s : State) (n : Nat) (f : CodecCtx → CodecCtx) : (s.modCodec n f).lastServed = s.lastServed := rfl
@[simp] theorem State.modCodec_ingest (s : State) (n : Nat) (f : CodecCtx → CodecCtx) : (s.modCodec n f).ingest = s.ingest := rfl
@[simp] theorem State.modCodec_ingestPos (s : State) (n : Nat) (f : CodecCtx → CodecCtx) : (s.modCodec n f).ingestPos = s.ingestPos := rfl
@[simp] theorem State.modCodec_install (s : State) (n : Nat) (f : CodecCtx → CodecCtx) : (s.modCodec n f).install = s.install := rfl
@[simp] theorem State.modCodec_net (s : State) (n : Nat) (f : CodecCtx → CodecCtx) : (s.modCodec n f).net = s.net := rfl
@[simp] theorem State.modCodec_coll (s : State) (n : Nat) (f : CodecCtx → CodecCtx) : (s.modCodec n f).coll = s.coll := rfl
@[simp] theorem State.modCodec_health (s : State) (n : Nat) (f : CodecCtx → CodecCtx) : (s.modCodec n f).health = s.health := rfl

@[simp] theorem State.modStream_pending (s : State) (n : Nat) (f : Stream → Stream) : (s.modStream n f).pending = s.pending := rfl
@[simp] theorem State.modStream_free (s : State) (n : Nat) (f : Stream → Stream) : (s.modStream n f).free = s.free := rfl
@[simp] theorem State.modStream_out (s : State) (n : Nat) (f : Stream → Stream) : (s.modStream n f).out = s.out := rfl
@[simp] theorem State.modStream_tick (s : State) (n : Nat) (f : Stream → Stream) : (s.modStream n f).tick = s.tick := rfl
@[simp] theorem State.modStream_power (s : State) (n : Nat) (f : Stream → Stream) : (s.modStream n f).power = s.power := rfl
@[simp] theorem State.modStream_fuses (s : State) (n : Nat) (f : Stream → Stream) : (s.modStream n f).fuses = s.fuses := rfl
@[simp] theorem State.modStream_flash (s : State) (n : Nat) (f : Stream → Stream) : (s.modStream n f).flash = s.flash := rfl
@[simp] theorem State.modStream_fwImage (s : State) (n : Nat) (f : Stream → Stream) : (s.modStream n f).fwImage = s.fwImage := rfl
@[simp] theorem State.modStream_fwVersion (s : State) (n : Nat) (f : Stream → Stream) : (s.modStream n f).fwVersion = s.fwVersion := rfl
@[simp] theorem State.modStream_fwDigest (s : State) (n : Nat) (f : Stream → Stream) : (s.modStream n f).fwDigest = s.fwDigest := rfl
@[simp] theorem State.modStream_od (s : State) (n : Nat) (f : Stream → Stream) : (s.modStream n f).od = s.od := rfl
@[simp] theorem State.modStream_ports (s : State) (n : Nat) (f : Stream → Stream) : (s.modStream n f).ports = s.ports := rfl
@[simp] theorem State.modStream_mem (s : State) (n : Nat) (f : Stream → Stream) : (s.modStream n f).mem = s.mem := rfl
@[simp] theorem State.modStream_cores (s : State) (n : Nat) (f : Stream → Stream) : (s.modStream n f).cores = s.cores := rfl
@[simp] theorem State.modStream_tens (s : State) (n : Nat) (f : Stream → Stream) : (s.modStream n f).tens = s.tens := rfl
@[simp] theorem State.modStream_codec (s : State) (n : Nat) (f : Stream → Stream) : (s.modStream n f).codec = s.codec := rfl
@[simp] theorem State.modStream_lastServed (s : State) (n : Nat) (f : Stream → Stream) : (s.modStream n f).lastServed = s.lastServed := rfl
@[simp] theorem State.modStream_ingestPos (s : State) (n : Nat) (f : Stream → Stream) : (s.modStream n f).ingestPos = s.ingestPos := rfl
@[simp] theorem State.modStream_install (s : State) (n : Nat) (f : Stream → Stream) : (s.modStream n f).install = s.install := rfl
@[simp] theorem State.modStream_net (s : State) (n : Nat) (f : Stream → Stream) : (s.modStream n f).net = s.net := rfl
@[simp] theorem State.modStream_coll (s : State) (n : Nat) (f : Stream → Stream) : (s.modStream n f).coll = s.coll := rfl
@[simp] theorem State.modStream_health (s : State) (n : Nat) (f : Stream → Stream) : (s.modStream n f).health = s.health := rfl

@[simp] theorem State.modPower_pending (s : State) (f : PowerSt → PowerSt) : (s.modPower f).pending = s.pending := rfl
@[simp] theorem State.modPower_free (s : State) (f : PowerSt → PowerSt) : (s.modPower f).free = s.free := rfl
@[simp] theorem State.modPower_out (s : State) (f : PowerSt → PowerSt) : (s.modPower f).out = s.out := rfl
@[simp] theorem State.modPower_tick (s : State) (f : PowerSt → PowerSt) : (s.modPower f).tick = s.tick := rfl
@[simp] theorem State.modPower_fuses (s : State) (f : PowerSt → PowerSt) : (s.modPower f).fuses = s.fuses := rfl
@[simp] theorem State.modPower_flash (s : State) (f : PowerSt → PowerSt) : (s.modPower f).flash = s.flash := rfl
@[simp] theorem State.modPower_fwImage (s : State) (f : PowerSt → PowerSt) : (s.modPower f).fwImage = s.fwImage := rfl
@[simp] theorem State.modPower_fwVersion (s : State) (f : PowerSt → PowerSt) : (s.modPower f).fwVersion = s.fwVersion := rfl
@[simp] theorem State.modPower_fwDigest (s : State) (f : PowerSt → PowerSt) : (s.modPower f).fwDigest = s.fwDigest := rfl
@[simp] theorem State.modPower_od (s : State) (f : PowerSt → PowerSt) : (s.modPower f).od = s.od := rfl
@[simp] theorem State.modPower_ports (s : State) (f : PowerSt → PowerSt) : (s.modPower f).ports = s.ports := rfl
@[simp] theorem State.modPower_mem (s : State) (f : PowerSt → PowerSt) : (s.modPower f).mem = s.mem := rfl
@[simp] theorem State.modPower_cores (s : State) (f : PowerSt → PowerSt) : (s.modPower f).cores = s.cores := rfl
@[simp] theorem State.modPower_tens (s : State) (f : PowerSt → PowerSt) : (s.modPower f).tens = s.tens := rfl
@[simp] theorem State.modPower_codec (s : State) (f : PowerSt → PowerSt) : (s.modPower f).codec = s.codec := rfl
@[simp] theorem State.modPower_lastServed (s : State) (f : PowerSt → PowerSt) : (s.modPower f).lastServed = s.lastServed := rfl
@[simp] theorem State.modPower_ingest (s : State) (f : PowerSt → PowerSt) : (s.modPower f).ingest = s.ingest := rfl
@[simp] theorem State.modPower_ingestPos (s : State) (f : PowerSt → PowerSt) : (s.modPower f).ingestPos = s.ingestPos := rfl
@[simp] theorem State.modPower_install (s : State) (f : PowerSt → PowerSt) : (s.modPower f).install = s.install := rfl
@[simp] theorem State.modPower_net (s : State) (f : PowerSt → PowerSt) : (s.modPower f).net = s.net := rfl
@[simp] theorem State.modPower_coll (s : State) (f : PowerSt → PowerSt) : (s.modPower f).coll = s.coll := rfl
@[simp] theorem State.modPower_health (s : State) (f : PowerSt → PowerSt) : (s.modPower f).health = s.health := rfl

@[simp] theorem State.putOpSlice_pending (s : State) (t : Fin 4) (q : Fin 64) (outs : List (Nat × Bool)) : (s.putOpSlice t q outs).pending = s.pending := rfl
@[simp] theorem State.putOpSlice_free (s : State) (t : Fin 4) (q : Fin 64) (outs : List (Nat × Bool)) : (s.putOpSlice t q outs).free = s.free := rfl
@[simp] theorem State.putOpSlice_out (s : State) (t : Fin 4) (q : Fin 64) (outs : List (Nat × Bool)) : (s.putOpSlice t q outs).out = s.out := rfl
@[simp] theorem State.putOpSlice_tick (s : State) (t : Fin 4) (q : Fin 64) (outs : List (Nat × Bool)) : (s.putOpSlice t q outs).tick = s.tick := rfl
@[simp] theorem State.putOpSlice_power (s : State) (t : Fin 4) (q : Fin 64) (outs : List (Nat × Bool)) : (s.putOpSlice t q outs).power = s.power := rfl
@[simp] theorem State.putOpSlice_fuses (s : State) (t : Fin 4) (q : Fin 64) (outs : List (Nat × Bool)) : (s.putOpSlice t q outs).fuses = s.fuses := rfl
@[simp] theorem State.putOpSlice_flash (s : State) (t : Fin 4) (q : Fin 64) (outs : List (Nat × Bool)) : (s.putOpSlice t q outs).flash = s.flash := rfl
@[simp] theorem State.putOpSlice_fwImage (s : State) (t : Fin 4) (q : Fin 64) (outs : List (Nat × Bool)) : (s.putOpSlice t q outs).fwImage = s.fwImage := rfl
@[simp] theorem State.putOpSlice_fwVersion (s : State) (t : Fin 4) (q : Fin 64) (outs : List (Nat × Bool)) : (s.putOpSlice t q outs).fwVersion = s.fwVersion := rfl
@[simp] theorem State.putOpSlice_fwDigest (s : State) (t : Fin 4) (q : Fin 64) (outs : List (Nat × Bool)) : (s.putOpSlice t q outs).fwDigest = s.fwDigest := rfl
@[simp] theorem State.putOpSlice_od (s : State) (t : Fin 4) (q : Fin 64) (outs : List (Nat × Bool)) : (s.putOpSlice t q outs).od = s.od := rfl
@[simp] theorem State.putOpSlice_mem (s : State) (t : Fin 4) (q : Fin 64) (outs : List (Nat × Bool)) : (s.putOpSlice t q outs).mem = s.mem := rfl
@[simp] theorem State.putOpSlice_cores (s : State) (t : Fin 4) (q : Fin 64) (outs : List (Nat × Bool)) : (s.putOpSlice t q outs).cores = s.cores := rfl
@[simp] theorem State.putOpSlice_tens (s : State) (t : Fin 4) (q : Fin 64) (outs : List (Nat × Bool)) : (s.putOpSlice t q outs).tens = s.tens := rfl
@[simp] theorem State.putOpSlice_codec (s : State) (t : Fin 4) (q : Fin 64) (outs : List (Nat × Bool)) : (s.putOpSlice t q outs).codec = s.codec := rfl
@[simp] theorem State.putOpSlice_lastServed (s : State) (t : Fin 4) (q : Fin 64) (outs : List (Nat × Bool)) : (s.putOpSlice t q outs).lastServed = s.lastServed := rfl
@[simp] theorem State.putOpSlice_ingest (s : State) (t : Fin 4) (q : Fin 64) (outs : List (Nat × Bool)) : (s.putOpSlice t q outs).ingest = s.ingest := rfl
@[simp] theorem State.putOpSlice_ingestPos (s : State) (t : Fin 4) (q : Fin 64) (outs : List (Nat × Bool)) : (s.putOpSlice t q outs).ingestPos = s.ingestPos := rfl
@[simp] theorem State.putOpSlice_install (s : State) (t : Fin 4) (q : Fin 64) (outs : List (Nat × Bool)) : (s.putOpSlice t q outs).install = s.install := rfl
@[simp] theorem State.putOpSlice_net (s : State) (t : Fin 4) (q : Fin 64) (outs : List (Nat × Bool)) : (s.putOpSlice t q outs).net = s.net := rfl
@[simp] theorem State.putOpSlice_coll (s : State) (t : Fin 4) (q : Fin 64) (outs : List (Nat × Bool)) : (s.putOpSlice t q outs).coll = s.coll := rfl
@[simp] theorem State.putOpSlice_health (s : State) (t : Fin 4) (q : Fin 64) (outs : List (Nat × Bool)) : (s.putOpSlice t q outs).health = s.health := rfl

@[simp] theorem State.stage_pending (s : State) (t : Fin 4) (q : Fin 64) (l : List Effect) : (s.stage t q l).pending = s.pending := rfl
@[simp] theorem State.stage_free (s : State) (t : Fin 4) (q : Fin 64) (l : List Effect) : (s.stage t q l).free = s.free := rfl
@[simp] theorem State.stage_out (s : State) (t : Fin 4) (q : Fin 64) (l : List Effect) : (s.stage t q l).out = s.out := rfl
@[simp] theorem State.stage_tick (s : State) (t : Fin 4) (q : Fin 64) (l : List Effect) : (s.stage t q l).tick = s.tick := rfl
@[simp] theorem State.stage_power (s : State) (t : Fin 4) (q : Fin 64) (l : List Effect) : (s.stage t q l).power = s.power := rfl
@[simp] theorem State.stage_fuses (s : State) (t : Fin 4) (q : Fin 64) (l : List Effect) : (s.stage t q l).fuses = s.fuses := rfl
@[simp] theorem State.stage_flash (s : State) (t : Fin 4) (q : Fin 64) (l : List Effect) : (s.stage t q l).flash = s.flash := rfl
@[simp] theorem State.stage_fwImage (s : State) (t : Fin 4) (q : Fin 64) (l : List Effect) : (s.stage t q l).fwImage = s.fwImage := rfl
@[simp] theorem State.stage_fwVersion (s : State) (t : Fin 4) (q : Fin 64) (l : List Effect) : (s.stage t q l).fwVersion = s.fwVersion := rfl
@[simp] theorem State.stage_fwDigest (s : State) (t : Fin 4) (q : Fin 64) (l : List Effect) : (s.stage t q l).fwDigest = s.fwDigest := rfl
@[simp] theorem State.stage_od (s : State) (t : Fin 4) (q : Fin 64) (l : List Effect) : (s.stage t q l).od = s.od := rfl
@[simp] theorem State.stage_mem (s : State) (t : Fin 4) (q : Fin 64) (l : List Effect) : (s.stage t q l).mem = s.mem := rfl
@[simp] theorem State.stage_cores (s : State) (t : Fin 4) (q : Fin 64) (l : List Effect) : (s.stage t q l).cores = s.cores := rfl
@[simp] theorem State.stage_tens (s : State) (t : Fin 4) (q : Fin 64) (l : List Effect) : (s.stage t q l).tens = s.tens := rfl
@[simp] theorem State.stage_codec (s : State) (t : Fin 4) (q : Fin 64) (l : List Effect) : (s.stage t q l).codec = s.codec := rfl
@[simp] theorem State.stage_lastServed (s : State) (t : Fin 4) (q : Fin 64) (l : List Effect) : (s.stage t q l).lastServed = s.lastServed := rfl
@[simp] theorem State.stage_ingest (s : State) (t : Fin 4) (q : Fin 64) (l : List Effect) : (s.stage t q l).ingest = s.ingest := rfl
@[simp] theorem State.stage_ingestPos (s : State) (t : Fin 4) (q : Fin 64) (l : List Effect) : (s.stage t q l).ingestPos = s.ingestPos := rfl
@[simp] theorem State.stage_install (s : State) (t : Fin 4) (q : Fin 64) (l : List Effect) : (s.stage t q l).install = s.install := rfl
@[simp] theorem State.stage_net (s : State) (t : Fin 4) (q : Fin 64) (l : List Effect) : (s.stage t q l).net = s.net := rfl
@[simp] theorem State.stage_coll (s : State) (t : Fin 4) (q : Fin 64) (l : List Effect) : (s.stage t q l).coll = s.coll := rfl
@[simp] theorem State.stage_health (s : State) (t : Fin 4) (q : Fin 64) (l : List Effect) : (s.stage t q l).health = s.health := rfl

@[simp] theorem State.results_pending (s : State) (t : Fin 4) (q : Fin 64) (a b : Nat) : (s.results t q a b).pending = s.pending := rfl
@[simp] theorem State.results_free (s : State) (t : Fin 4) (q : Fin 64) (a b : Nat) : (s.results t q a b).free = s.free := rfl
@[simp] theorem State.results_out (s : State) (t : Fin 4) (q : Fin 64) (a b : Nat) : (s.results t q a b).out = s.out := rfl
@[simp] theorem State.results_tick (s : State) (t : Fin 4) (q : Fin 64) (a b : Nat) : (s.results t q a b).tick = s.tick := rfl
@[simp] theorem State.results_power (s : State) (t : Fin 4) (q : Fin 64) (a b : Nat) : (s.results t q a b).power = s.power := rfl
@[simp] theorem State.results_fuses (s : State) (t : Fin 4) (q : Fin 64) (a b : Nat) : (s.results t q a b).fuses = s.fuses := rfl
@[simp] theorem State.results_flash (s : State) (t : Fin 4) (q : Fin 64) (a b : Nat) : (s.results t q a b).flash = s.flash := rfl
@[simp] theorem State.results_fwImage (s : State) (t : Fin 4) (q : Fin 64) (a b : Nat) : (s.results t q a b).fwImage = s.fwImage := rfl
@[simp] theorem State.results_fwVersion (s : State) (t : Fin 4) (q : Fin 64) (a b : Nat) : (s.results t q a b).fwVersion = s.fwVersion := rfl
@[simp] theorem State.results_fwDigest (s : State) (t : Fin 4) (q : Fin 64) (a b : Nat) : (s.results t q a b).fwDigest = s.fwDigest := rfl
@[simp] theorem State.results_od (s : State) (t : Fin 4) (q : Fin 64) (a b : Nat) : (s.results t q a b).od = s.od := rfl
@[simp] theorem State.results_mem (s : State) (t : Fin 4) (q : Fin 64) (a b : Nat) : (s.results t q a b).mem = s.mem := rfl
@[simp] theorem State.results_cores (s : State) (t : Fin 4) (q : Fin 64) (a b : Nat) : (s.results t q a b).cores = s.cores := rfl
@[simp] theorem State.results_tens (s : State) (t : Fin 4) (q : Fin 64) (a b : Nat) : (s.results t q a b).tens = s.tens := rfl
@[simp] theorem State.results_codec (s : State) (t : Fin 4) (q : Fin 64) (a b : Nat) : (s.results t q a b).codec = s.codec := rfl
@[simp] theorem State.results_lastServed (s : State) (t : Fin 4) (q : Fin 64) (a b : Nat) : (s.results t q a b).lastServed = s.lastServed := rfl
@[simp] theorem State.results_ingest (s : State) (t : Fin 4) (q : Fin 64) (a b : Nat) : (s.results t q a b).ingest = s.ingest := rfl
@[simp] theorem State.results_ingestPos (s : State) (t : Fin 4) (q : Fin 64) (a b : Nat) : (s.results t q a b).ingestPos = s.ingestPos := rfl
@[simp] theorem State.results_install (s : State) (t : Fin 4) (q : Fin 64) (a b : Nat) : (s.results t q a b).install = s.install := rfl
@[simp] theorem State.results_net (s : State) (t : Fin 4) (q : Fin 64) (a b : Nat) : (s.results t q a b).net = s.net := rfl
@[simp] theorem State.results_coll (s : State) (t : Fin 4) (q : Fin 64) (a b : Nat) : (s.results t q a b).coll = s.coll := rfl
@[simp] theorem State.results_health (s : State) (t : Fin 4) (q : Fin 64) (a b : Nat) : (s.results t q a b).health = s.health := rfl

@[simp] theorem State.passSlice_pending (s : State) (ref : SliceRef) : (s.passSlice ref).pending = s.pending := rfl
@[simp] theorem State.passSlice_free (s : State) (ref : SliceRef) : (s.passSlice ref).free = s.free := rfl
@[simp] theorem State.passSlice_out (s : State) (ref : SliceRef) : (s.passSlice ref).out = s.out := rfl
@[simp] theorem State.passSlice_tick (s : State) (ref : SliceRef) : (s.passSlice ref).tick = s.tick := rfl
@[simp] theorem State.passSlice_power (s : State) (ref : SliceRef) : (s.passSlice ref).power = s.power := rfl
@[simp] theorem State.passSlice_fuses (s : State) (ref : SliceRef) : (s.passSlice ref).fuses = s.fuses := rfl
@[simp] theorem State.passSlice_flash (s : State) (ref : SliceRef) : (s.passSlice ref).flash = s.flash := rfl
@[simp] theorem State.passSlice_fwImage (s : State) (ref : SliceRef) : (s.passSlice ref).fwImage = s.fwImage := rfl
@[simp] theorem State.passSlice_fwVersion (s : State) (ref : SliceRef) : (s.passSlice ref).fwVersion = s.fwVersion := rfl
@[simp] theorem State.passSlice_fwDigest (s : State) (ref : SliceRef) : (s.passSlice ref).fwDigest = s.fwDigest := rfl
@[simp] theorem State.passSlice_mem (s : State) (ref : SliceRef) : (s.passSlice ref).mem = s.mem := rfl
@[simp] theorem State.passSlice_cores (s : State) (ref : SliceRef) : (s.passSlice ref).cores = s.cores := rfl
@[simp] theorem State.passSlice_tens (s : State) (ref : SliceRef) : (s.passSlice ref).tens = s.tens := rfl
@[simp] theorem State.passSlice_codec (s : State) (ref : SliceRef) : (s.passSlice ref).codec = s.codec := rfl
@[simp] theorem State.passSlice_lastServed (s : State) (ref : SliceRef) : (s.passSlice ref).lastServed = s.lastServed := rfl
@[simp] theorem State.passSlice_ingest (s : State) (ref : SliceRef) : (s.passSlice ref).ingest = s.ingest := rfl
@[simp] theorem State.passSlice_ingestPos (s : State) (ref : SliceRef) : (s.passSlice ref).ingestPos = s.ingestPos := rfl
@[simp] theorem State.passSlice_install (s : State) (ref : SliceRef) : (s.passSlice ref).install = s.install := rfl
@[simp] theorem State.passSlice_net (s : State) (ref : SliceRef) : (s.passSlice ref).net = s.net := rfl
@[simp] theorem State.passSlice_coll (s : State) (ref : SliceRef) : (s.passSlice ref).coll = s.coll := rfl
@[simp] theorem State.passSlice_health (s : State) (ref : SliceRef) : (s.passSlice ref).health = s.health := rfl
/-! ### What a read finds after an update -/

theorem cid_inj {c d : CtxId} (h : cid c = cid d) : c = d := by
  obtain ⟨⟨a, ha⟩, ⟨b, hb⟩⟩ := c
  obtain ⟨⟨a', ha'⟩, ⟨b', hb'⟩⟩ := d
  simp only [cid] at h
  simp only [CtxId.mk.injEq, Fin.mk.injEq]
  omega

@[simp] theorem State.strand_setStrand (s : State) (c : CtxId) (st : Strand) : (s.setStrand c st).strand c = some st := by
  simp [State.strand, State.setStrand, kget_kset]

theorem State.strand_setStrand_ne (s : State) {c d : CtxId} (st : Strand) (h : d ≠ c) :
    (s.setStrand c st).strand d = s.strand d := by
  have h' : cid d ≠ cid c := fun e => h (cid_inj e)
  simp [State.strand, State.setStrand, kget_kset, h']

@[simp] theorem State.strand_freeCtx (s : State) (c : CtxId) : (s.freeCtx c).strand c = none := by
  simp [State.strand, State.freeCtx, kget_kdel]

theorem State.strand_freeCtx_ne (s : State) {c d : CtxId} (h : d ≠ c) : (s.freeCtx c).strand d = s.strand d := by
  have h' : cid d ≠ cid c := fun e => h (cid_inj e)
  simp [State.strand, State.freeCtx, kget_kdel, h']

@[simp] theorem State.queue_modQueue (s : State) (t : Fin 4) (q : Fin 64) (f : Queue → Queue) :
    (s.modQueue t q f).queue t q = f (s.queue t q) := by
  simp [State.queue, State.modQueue, State.modPort]

theorem State.queue_modQueue_ne (s : State) {t u : Fin 4} {q p : Fin 64} (f : Queue → Queue) (h : ¬(u = t ∧ p = q)) :
    (s.modQueue t q f).queue u p = s.queue u p := by
  simp only [State.queue, State.modQueue, State.modPort]
  by_cases hu : u = t
  · subst hu
    have hp : q ≠ p := fun e => h ⟨rfl, e.symm⟩
    have hp' : q.val ≠ p.val := fun e => hp (Fin.ext e)
    simp [hp']
  · have hu' : t.val ≠ u.val := fun e => hu (Fin.ext e.symm)
    simp [hu']

@[simp] theorem State.run_modRun (s : State) (t : Fin 4) (q : Fin 64) (f : CmdRun → CmdRun) :
    (s.modRun t q f).run t q = (s.run t q).map f := by
  simp [State.run, State.modRun]

theorem State.run_modRun_ne (s : State) {t u : Fin 4} {q p : Fin 64} (f : CmdRun → CmdRun) (h : ¬(u = t ∧ p = q)) :
    (s.modRun t q f).run u p = s.run u p := by
  simp only [State.run, State.modRun, State.queue_modQueue_ne s _ h]

@[simp] theorem State.run_bump (s : State) (i j n : Nat) (t : Fin 4) (q : Fin 64) : (s.bump i j n).run t q = s.run t q := rfl

@[simp] theorem State.page_setPage (s : State) (t : Fin 4) (v : Nat) (e : PageEntry) : (s.setPage t v e).page t v = some e := by
  simp [State.page, State.setPage, kget_kset]

@[simp] theorem State.page_delPage (s : State) (t : Fin 4) (v : Nat) : (s.delPage t v).page t v = none := by
  simp [State.page, State.delPage, kget_kdel]

end Sys2Proof.Machine
end

