-- ==== Sys2Proof/Laws/Admit.lean ====
section
/-! SUPPORT. What the offer of a queue command answers (R289): the proofs about single commands cite these lemmas and do not
unfold the offer. -/
namespace Sys2Proof.Machine

open Sys2Proof

/-- The slice of a command after a change of its slices. -/
theorem CmdRun.slice_modSlice (r : CmdRun) (i : Nat) (f : Slice → Slice) (hf : ∀ x, (f x).idx = x.idx) :
    (r.modSlice i f).slice i = (r.slice i).map f := by
  simp only [CmdRun.slice, CmdRun.modSlice]
  induction r.slices with
  | nil => rfl
  | cons x l ih =>
    simp only [List.map_cons, List.find?_cons]
    by_cases h : x.idx = i
    · simp [h, hf]
    · have h1 : (x.idx == i) = false := by simpa using h
      simp only [h, if_false, h1]
      exact ih

/-- The slice of a state after a change of it. -/
theorem State.slice_modSlice (s : State) (ref : SliceRef) (f : Slice → Slice) (hf : ∀ x, (f x).idx = x.idx) :
    (s.modSlice ref f).slice ref = (s.slice ref).map f := by
  simp only [State.slice, State.modSlice, State.run_modRun]
  cases s.run ref.t ref.q with
  | none => rfl
  | some r => exact CmdRun.slice_modSlice r ref.idx f hf

theorem State.stageModel_ports (s : State) (die v : Nat) : (s.stageModel die v).ports = s.ports := by
  unfold State.stageModel
  dsimp only
  split
  · rfl
  · split <;> rfl

theorem State.each_keep {α β : Type} (g : State → β) (l : List α) (f : State → α → State) (h : ∀ s a, g (f s a) = g s)
    (s : State) : g (s.each l f) = g s := by
  unfold State.each
  induction l generalizing s with
  | nil => rfl
  | cons a l ih => rw [List.foldl_cons, ih, h]

theorem State.stageActive_ports (s : State) : s.stageActive.ports = s.ports := by
  unfold State.stageActive
  refine State.each_keep State.ports _ _ (fun s en => ?_) s
  exact State.each_keep State.ports _ _ (fun s v => State.stageModel_ports s _ v) s

theorem State.schedule_ports (s : State) (layer : Nat) : (s.schedule layer).ports = s.ports := by
  unfold State.schedule
  dsimp only
  split
  · rfl
  · exact State.stageActive_ports _

theorem State.schedule_run (s : State) (layer : Nat) (t : Fin 4) (q : Fin 64) : (s.schedule layer).run t q = s.run t q := by
  simp only [State.run, State.queue, State.schedule_ports]

theorem State.noteRecord_run (s : State) (t u : Fin 4) (q p : Fin 64) (r : CmdRun) :
    (s.noteRecord t q r).run u p = s.run u p := by
  unfold State.noteRecord
  dsimp only
  split <;> rfl

theorem State.noteRecord_tick (s : State) (t : Fin 4) (q : Fin 64) (r : CmdRun) : (s.noteRecord t q r).tick = s.tick := by
  unfold State.noteRecord
  dsimp only
  split <;> rfl

/-- The run of a command after its first admission. -/
theorem State.begin_run {s : State} {t : Fin 4} {q : Fin 64} {r : CmdRun} (h : s.run t q = some r) (hb : r.begun = false) :
    ∃ r', (s.begin t q).run t q = some r' ∧ r'.begun = true ∧ r'.fail = r.fail ∧ r'.effects = r.effects ∧
      r'.result0 = r.result0 ∧ r'.result1 = r.result1 ∧ r'.slices = r.slices ∧ r'.firstTick = s.tick.count ∧
      r'.words = r.words := by
  have key : ∀ (u : State), u.run t q = some r → u.tick.count = s.tick.count → ∀ rc,
      ∃ r', (u.modRun t q (u.readOnce t rc)).run t q = some r' ∧ r'.begun = true ∧ r'.fail = r.fail ∧
        r'.effects = r.effects ∧ r'.result0 = r.result0 ∧ r'.result1 = r.result1 ∧ r'.slices = r.slices ∧
        r'.firstTick = s.tick.count ∧ r'.words = r.words := by
    intro u hu ht rc
    refine ⟨u.readOnce t rc r, ?_, rfl, rfl, rfl, rfl, rfl, rfl, ht, rfl⟩
    rw [State.run_modRun, hu]
    rfl
  have htk : (s.noteRecord t q r).tick.count = s.tick.count := by rw [State.noteRecord_tick]
  have hk := key { s.noteRecord t q r with tick := { (s.noteRecord t q r).tick with
      admSeq := (s.noteRecord t q r).tick.admSeq + 1 } } ((State.noteRecord_run s t t q q r).trans h) htk
      ((s.openRecord t r).map (fun _ => recordOrdinal (s.openRecord t r) q))
  unfold State.begin
  rw [h]
  simp only [hb, Bool.false_eq_true, if_false]
  split
  · exact hk
  · obtain ⟨r', h1, h2⟩ := hk
    exact ⟨r', (State.schedule_run _ _ _ _).trans h1, h2⟩

theorem State.stageModel_tick (s : State) (die v : Nat) : (s.stageModel die v).tick = s.tick := by
  unfold State.stageModel
  dsimp only
  split
  · rfl
  · split <;> rfl

theorem State.schedule_tick (s : State) (layer : Nat) : (s.schedule layer).tick = s.tick := by
  unfold State.schedule
  dsimp only
  split
  · rfl
  · refine (State.each_keep State.tick _ _ (fun s en => ?_) _ : State.tick _ = _)
    exact State.each_keep State.tick _ _ (fun s v => State.stageModel_tick s _ v) s

/-- A first admission does not count ticks. -/
theorem State.begin_tick (s : State) (t : Fin 4) (q : Fin 64) : (s.begin t q).tick.count = s.tick.count := by
  unfold State.begin
  split
  · rfl
  · dsimp only
    split
    · rfl
    · split
      · show (s.noteRecord t q _).tick.count = _
        rw [State.noteRecord_tick]
      · rw [State.schedule_tick]
        show (s.noteRecord t q _).tick.count = _
        rw [State.noteRecord_tick]

/-- A command's own slice exists after it has been put. -/
theorem State.putOpSlice_slice {s : State} {t : Fin 4} {q : Fin 64} {r : CmdRun} (h : s.run t q = some r)
    (outs : List (Nat × Bool)) : ((s.putOpSlice t q outs).slice (opRef t q)).isSome = true := by
  simp only [State.slice, State.putOpSlice, opRef, State.run_modRun, h]
  rfl

/-- The run of a command after its slice has been put. -/
theorem State.putOpSlice_run {s : State} {t : Fin 4} {q : Fin 64} {r : CmdRun} (h : s.run t q = some r)
    (outs : List (Nat × Bool)) : ∃ r', (s.putOpSlice t q outs).run t q = some r' ∧ r'.begun = r.begun ∧ r'.fail = r.fail ∧
      r'.effects = r.effects ∧ r'.result0 = r.result0 ∧ r'.result1 = r.result1 ∧ (r'.slice 0).isSome = true ∧
      r'.words = r.words := by
  refine ⟨_, (State.run_modRun _ _ _ _).trans (congrArg (Option.map _) h), rfl, rfl, rfl, rfl, rfl, rfl, rfl⟩

/-- The run and the slice of a command that is admitted. -/
theorem State.admitOp_run {v : State} {t : Fin 4} {q : Fin 64} {rv : CmdRun} {done : Bool} (hv : v.run t q = some rv)
    (hb : rv.begun = false) : ∃ r sl, (v.admitOp t q done).run t q = some r ∧ r.begun = true ∧ r.fail = rv.fail ∧
      r.effects = rv.effects ∧ r.result0 = rv.result0 ∧ r.result1 = rv.result1 ∧ r.opDone = done ∧
      r.firstTick = v.tick.count ∧ r.words = rv.words ∧ (v.admitOp t q done).slice (opRef t q) = some sl ∧
      sl.state = .admitted ∧ sl.admittedAt = v.tick.count := by
  -- the slice of the command
  have hs : ∃ w rw, (if (v.slice (opRef t q)).isSome then v else v.putOpSlice t q []) = w ∧ w.run t q = some rw ∧
      rw.begun = false ∧ rw.fail = rv.fail ∧ rw.effects = rv.effects ∧ rw.result0 = rv.result0 ∧ rw.result1 = rv.result1 ∧
      (rw.slice 0).isSome = true ∧ rw.words = rv.words ∧ w.tick.count = v.tick.count := by
    by_cases hsl : (v.slice (opRef t q)).isSome = true
    · refine ⟨v, rv, by rw [if_pos hsl], hv, hb, rfl, rfl, rfl, rfl, ?_, rfl, rfl⟩
      simpa [State.slice, opRef, hv] using hsl
    · obtain ⟨r', k1, k2, k3, k4, k5, k6, k7, k8⟩ := State.putOpSlice_run hv []
      exact ⟨v.putOpSlice t q [], r', by rw [if_neg hsl], k1, k2.trans hb, k3, k4, k5, k6, k7, k8, rfl⟩
  obtain ⟨w, rw_, hw, hr, hb', hf', e1, e2, e3, hsl, e4, htk⟩ := hs
  obtain ⟨r', k1, k2, k3, k4, k5, k6, k7, k8, k9⟩ := State.begin_run hr hb'
  have htb : (w.begin t q).tick.count = w.tick.count := State.begin_tick w t q
  unfold State.admitOp
  rw [hw]
  dsimp only
  generalize w.begin t q = x at k1 htb
  obtain ⟨sl, hsl'⟩ := Option.isSome_iff_exists.mp hsl
  have h0 : r'.slice 0 = some sl := by simpa [CmdRun.slice, k7] using hsl'
  generalize x.tick.admSeq + 1 = seq
  have key : ∀ (y : State) (cls : Nat), y.run t q = some r' →
      (((y.modSlice (opRef t q) (fun sl => sl.started x.tick.count seq cls)).modRun t q
        (fun r => { r with opDone := done })).bumpT t 0xA0C0 3 1).run t q =
      some { r'.modSlice 0 (fun sl => sl.started x.tick.count seq cls) with opDone := done } := by
    intro y cls hy
    have h1 : (y.modSlice (opRef t q) (fun sl => sl.started x.tick.count seq cls)).run t q =
        some (r'.modSlice 0 (fun sl => sl.started x.tick.count seq cls)) :=
      (State.run_modRun y t q _).trans (congrArg (Option.map _) hy)
    rw [State.bumpT, State.run_bump, State.run_modRun, h1]
    rfl
  have hk := key { x with tick := { x.tick with admSeq := seq } }
    (State.baseClass { x with tick := { x.tick with admSeq := seq } } t q) k1
  generalize (((State.modSlice { x with tick := { x.tick with admSeq := seq } } (opRef t q) _).modRun t q _).bumpT t
    0xA0C0 3 1) = z at hk ⊢
  generalize State.baseClass _ t q = cls at hk
  refine ⟨{ r'.modSlice 0 (fun sl => sl.started x.tick.count seq cls) with opDone := done }, sl.started x.tick.count seq cls, hk, k2, k3.trans hf', k4.trans e1, k5.trans e2, k6.trans e3, rfl,
    k8.trans htk, k9.trans e4, ?_, rfl, htb.trans htk⟩
  refine (congrArg (fun o : Option CmdRun => o.bind (·.slice 0)) hk).trans ?_
  have hm := CmdRun.slice_modSlice r' 0 (fun sl => sl.started x.tick.count seq cls) (fun _ => rfl)
  rw [h0] at hm
  exact hm

/-- A command whose check passes is admitted. -/
theorem State.offerRow_of_admitted {s u v : State} {t : Fin 4} {q : Fin 64} {op : Nat} {r : CmdRun} {f : OpCheck} {done : Bool}
    (h : s.Offered t q op u r) (hf : f u t q r = .admitted v done) : s.offerRow t q op f = v.admitOp t q done := by
  obtain ⟨h1, h2, h3, h4, hb, h5, h6, h7⟩ := h
  subst h1
  unfold State.offerRow
  simp only [h2, h3, h4, hb, Bool.not_false, Bool.and_true, decide_true, if_true]
  unfold State.offerOp
  simp only [h2, h5, h6, h7, hf, Bool.false_eq_true, if_false]

/-- A command whose check passes is running, with what its check has staged. -/
theorem State.offerRow_admitted {s u v : State} {t : Fin 4} {q : Fin 64} {op : Nat} {r rv : CmdRun} {f : OpCheck} {done : Bool}
    (h : s.Offered t q op u r) (hf : f u t q r = .admitted v done) (hv : v.run t q = some rv) (hb : rv.begun = false)
    (hfail : rv.fail = none) (ht : v.tick.count = u.tick.count) :
    u.Admitted t q rv.effects rv.result0 rv.result1 done (s.offerRow t q op f) := by
  rw [State.offerRow_of_admitted h hf]
  obtain ⟨r', sl, k1, k2, k3, k4, k5, k6, k7, k8, -, k10, k11, k12⟩ := State.admitOp_run (done := done) hv hb
  exact ⟨r', sl, k1, k2, k3.trans hfail, k4, k5, k6, k7, k8.trans ht, k10, k11, k12.trans ht⟩

/-- The head of a queue that may be admitted has done nothing yet. -/
theorem State.Offered.fresh {s u : State} {t : Fin 4} {q : Fin 64} {op : Nat} {r : CmdRun} (h : s.Offered t q op u r) :
    r.begun = false ∧ r.fail = none := by
  obtain ⟨-, h2, -, h4, -⟩ := h
  simp only [State.isCandidate, h2, Bool.and_eq_true, Bool.not_eq_true', Option.isNone_iff_eq_none] at h4
  exact ⟨h4.1.1.1.1.1.1.1, h4.1.1.1.1.1.1.2⟩

end Sys2Proof.Machine
end

