-- ==== Sys2Proof/Laws/Good.lean ====
section
/-! SUPPORT. The changes of a state that keep State.Good, for the lemmas of the Good files. -/
namespace Sys2Proof.Machine

open Sys2Proof

/-- A predicate of the queue and the tick count that a higher count still meets. -/
def Rises (P : List Instr → Nat → Prop) : Prop := ∀ p m n, m ≤ n → P p m → P p n

/-- A predicate of the queue and the tick count that a count begun again meets. -/
def Restarts (P : List Instr → Nat → Prop) : Prop := ∀ p n, P p n → P p 0

variable {FZ : FuseSt} {PQ : List Instr → Nat → Prop}

/-- A change of anything but the fuses, the queue, the timebase and memory. -/
@[simp] theorem good_keep {s : State} {a b d e f g h i j k l m n o q r t u} :
    State.Good FZ PQ ⟨s.pending, a, b, s.tick, d, s.fuses, e, f, g, h, i, j, s.mem, k, l, m, n, o, q, r, t, u, v⟩ =
      State.Good FZ PQ s := rfl

/-- The same, with a change of the timebase but for the count. -/
@[simp] theorem good_time {s : State} {a b d e f g h i j k l m n o q r t u}
    {c1 c2 c3 c4 c5 c6 c7 c8 c9 c10 c11 c12 c13 c14 c15 c16 c17 c18 c19 c20} :
    State.Good FZ PQ ⟨s.pending, a, b,
      ⟨s.tick.count, c1, c2, c3, c4, c5, c6, c7, c8, c9, c10, c11, c12, c13, c14, c15, c16, c17, c18, c19, c20⟩,
      d, s.fuses, e, f, g, h, i, j, s.mem, k, l, m, n, o, q, r, t, u, v⟩ = State.Good FZ PQ s := rfl

/-- The same, with a change of the memory system but for the bytes. -/
@[simp] theorem good_tables {s : State} {a b d e f g h i j k l m n o q r t u v m1 m2 m3 m4 m5 m6 m7 m8 m9 m10 m11 m12} :
    State.Good FZ PQ ⟨s.pending, a, b, s.tick, d, s.fuses, e, f, g, h, i, j,
      ⟨s.mem.mem, m1, m2, m3, m4, m5, m6, m7, m8, m9, m10, m11, m12⟩, k, l, m, n, o, q, r, t, u, v⟩ = State.Good FZ PQ s := rfl

@[simp] theorem good_each {α : Type} {s : State} {l : List α} {f : State → α → State} (hs : State.Good FZ PQ s)
    (hf : ∀ s x, State.Good FZ PQ s → State.Good FZ PQ (f s x)) : State.Good FZ PQ (s.each l f) := by
  unfold State.each
  induction l generalizing s with
  | nil => exact hs
  | cons x r ih => exact ih (hf s x hs)

@[simp] theorem good_foldl {α : Type} {s : State} {l : List α} {f : State → α → State} (hs : State.Good FZ PQ s)
    (hf : ∀ s x, State.Good FZ PQ s → State.Good FZ PQ (f s x)) : State.Good FZ PQ (l.foldl f s) := good_each hs hf

@[simp] theorem good_ite {c : Prop} [Decidable c] {s t : State} (h1 : c → State.Good FZ PQ s) (h2 : ¬c → State.Good FZ PQ t) :
    State.Good FZ PQ (if c then s else t) := by
  split
  · exact h1 ‹_›
  · exact h2 ‹_›

/-- A fold keeps what its function keeps. -/
theorem foldl_keeps {α β : Type} {P : β → Prop} {l : List α} {f : β → α → β} {b : β} (hb : P b)
    (hf : ∀ b x, P b → P (f b x)) : P (l.foldl f b) := by
  induction l generalizing b with
  | nil => exact hb
  | cons x r ih => exact ih (hf b x hb)

/-- A change of the bytes of memory to another canonical memory. -/
theorem good_mem {s : State} {m : List Host.Cell} (hs : State.Good FZ PQ s) (hm : memWf m = true) :
    State.Good FZ PQ { s with mem := { s.mem with mem := m } } := ⟨hs.1, hs.2.1, hm⟩

/-- The memory of a good state is canonical. -/
theorem good_wf {s : State} (hs : State.Good FZ PQ s) : memWf s.mem.mem = true := hs.2.2

end Sys2Proof.Machine
end

