-- ==== Sys2Proof/Laws/GoodOps.lean ====
section
/-! SUPPORT. What Machine/Ops.lean keeps: the fuses, the queue, the tick count and the canonical form of memory (State.Good). -/
set_option linter.unusedSimpArgs false

namespace Sys2Proof.Machine

open Sys2Proof

variable {FZ : FuseSt} {PQ : List Instr → Nat → Prop}

@[simp] theorem State.bump_good (s : State) (index sub n : Nat) (hs : State.Good FZ PQ s) : State.Good FZ PQ (State.bump s index sub n) := by
  unfold State.bump
  simp [hs]

@[simp] theorem State.bumpT_good (s : State) (t : Fin 4) (index sub n : Nat) (hs : State.Good FZ PQ s) : State.Good FZ PQ (State.bumpT s t index sub n) := by
  unfold State.bumpT
  simp [hs]

@[simp] theorem State.emit_good (s : State) (o : Out) (hs : State.Good FZ PQ s) : State.Good FZ PQ (State.emit s o) := by
  unfold State.emit
  simp [hs]

@[simp] theorem State.modPort_good (s : State) (t : Fin 4) (f : HostPort → HostPort) (hs : State.Good FZ PQ s) : State.Good FZ PQ (State.modPort s t f) := by
  unfold State.modPort
  simp [hs]

@[simp] theorem State.modQueue_good (s : State) (t : Fin 4) (q : Fin 64) (f : Queue → Queue) (hs : State.Good FZ PQ s) : State.Good FZ PQ (State.modQueue s t q f) := by
  unfold State.modQueue
  simp [hs]

@[simp] theorem State.modRun_good (s : State) (t : Fin 4) (q : Fin 64) (f : CmdRun → CmdRun) (hs : State.Good FZ PQ s) : State.Good FZ PQ (State.modRun s t q f) := by
  unfold State.modRun
  simp [hs]

@[simp] theorem State.modTen_good (s : State) (t : Fin 4) (f : Tenancy → Tenancy) (hs : State.Good FZ PQ s) : State.Good FZ PQ (State.modTen s t f) := by
  unfold State.modTen
  simp [hs]

@[simp] theorem State.modSlice_good (s : State) (ref : SliceRef) (f : Slice → Slice) (hs : State.Good FZ PQ s) : State.Good FZ PQ (State.modSlice s ref f) := by
  unfold State.modSlice
  simp [hs]

@[simp] theorem State.setStrand_good (s : State) (c : CtxId) (st : Strand) (hs : State.Good FZ PQ s) : State.Good FZ PQ (State.setStrand s c st) := by
  unfold State.setStrand
  simp [hs]

@[simp] theorem State.freeCtx_good (s : State) (c : CtxId) (hs : State.Good FZ PQ s) : State.Good FZ PQ (State.freeCtx s c) := by
  unfold State.freeCtx
  simp [hs]

@[simp] theorem State.dropStrands_good (s : State) (p : SliceRef → Bool) (hs : State.Good FZ PQ s) : State.Good FZ PQ (State.dropStrands s p) := by
  unfold State.dropStrands
  simp [hs]

@[simp] theorem State.stopStrands_good (s : State) (t : Fin 4) (q : Fin 64) (hs : State.Good FZ PQ s) : State.Good FZ PQ (State.stopStrands s t q) := by
  unfold State.stopStrands
  simp [hs]

@[simp] theorem State.raise_good (s : State) (c : CtxId) (st : Strand) (code : Nat) (address : W64) (hs : State.Good FZ PQ s) : State.Good FZ PQ (State.raise s c st code address) := by
  unfold State.raise
  repeat' first | with_reducible assumption | with_reducible apply State.bump_good | with_reducible apply State.modRun_good | with_reducible apply State.freeCtx_good | simp only [good_keep, good_time] | intro _ | dsimp only

@[simp] theorem State.raisePc_good (s : State) (c : CtxId) (st : Strand) (code : Nat) (hs : State.Good FZ PQ s) : State.Good FZ PQ (State.raisePc s c st code) := by
  unfold State.raisePc
  simp [hs]

@[simp] theorem State.failCmd_good (s : State) (t : Fin 4) (q : Fin 64) (code : Nat) (address : W64) (strand : Nat) (hs : State.Good FZ PQ s) : State.Good FZ PQ (State.failCmd s t q code address strand) := by
  unfold State.failCmd
  simp [hs]

@[simp] theorem State.kill_good (s : State) (ref : SliceRef) (hs : State.Good FZ PQ s) : State.Good FZ PQ (State.kill s ref) := by
  unfold State.kill
  simp (maxDischargeDepth := 60) [hs]

end Sys2Proof.Machine
end

