-- ==== Sys2Proof/Laws/GoodFlags.lean ====
section
/-! SUPPORT. What Machine/Flags.lean keeps: the fuses, the queue, the tick count and the canonical form of memory (State.Good). -/
set_option linter.unusedSimpArgs false

namespace Sys2Proof.Machine

open Sys2Proof

variable {FZ : FuseSt} {PQ : List Instr → Nat → Prop}

@[simp] theorem State.sendMsix_good (s : State) (t : Fin 4) (v : Nat) (hs : State.Good FZ PQ s) : State.Good FZ PQ (State.sendMsix s t v) := by
  unfold State.sendMsix
  simp [hs]

@[simp] theorem State.msix_good (s : State) (t : Fin 4) (v : Nat) (hs : State.Good FZ PQ s) : State.Good FZ PQ (State.msix s t v) := by
  unfold State.msix
  repeat' split
  all_goals simp [hs]

@[simp] theorem State.withCause_good (s : State) (t : Fin 4) (f : HostPort → HostPort) (hs : State.Good FZ PQ s) : State.Good FZ PQ (State.withCause s t f) := by
  unfold State.withCause
  simp (maxDischargeDepth := 60) [hs]

@[simp] theorem State.setCause_good (s : State) (t : Fin 4) (bit : Nat) (hs : State.Good FZ PQ s) : State.Good FZ PQ (State.setCause s t bit) := by
  unfold State.setCause
  simp [hs]

@[simp] theorem State.logError_good (s : State) (t : Fin 4) (e : ErrEntry) (hs : State.Good FZ PQ s) : State.Good FZ PQ (State.logError s t e) := by
  unfold State.logError
  simp [hs]

@[simp] theorem State.logAccess_good (s : State) (t : Fin 4) (kind code : Nat) (address : Nat) (hs : State.Good FZ PQ s) : State.Good FZ PQ (State.logAccess s t kind code address) := by
  unfold State.logAccess
  simp [hs]

@[simp] theorem State.logQueue_good (s : State) (t : Fin 4) (q : Fin 64) (hs : State.Good FZ PQ s) : State.Good FZ PQ (State.logQueue s t q) := by
  unfold State.logQueue
  simp [hs]

@[simp] theorem State.complete_good (s : State) (t : Fin 4) (q : Fin 64) (n : Nat) (ws : List W64) (e : Ending) (hs : State.Good FZ PQ s) : State.Good FZ PQ (State.complete s t q n ws e) := by
  unfold State.complete
  simp [hs]

@[simp] theorem State.logCommand_good (s : State) (t : Fin 4) (q : Fin 64) (n : Nat) (ws : List W64) (e : Ending) (hs : State.Good FZ PQ s) : State.Good FZ PQ (State.logCommand s t q n ws e) := by
  unfold State.logCommand
  simp [hs]

end Sys2Proof.Machine
end

