-- ==== Sys2Proof/Laws/GoodMem.lean ====
section
/-! SUPPORT. What Machine/Mem.lean keeps: the fuses, the queue, the tick count and the canonical form of memory (State.Good). -/
set_option linter.unusedSimpArgs false

namespace Sys2Proof.Machine

open Sys2Proof

variable {FZ : FuseSt} {PQ : List Instr → Nat → Prop}

@[simp] theorem State.useFrame_good (s : State) (f : Nat) (u : FrameUse) (hs : State.Good FZ PQ s) : State.Good FZ PQ (State.useFrame s f u) := by
  unfold State.useFrame
  simp [hs]

@[simp] theorem State.freeFrame_good (s : State) (f : Nat) (hs : State.Good FZ PQ s) : State.Good FZ PQ (State.freeFrame s f) := by
  unfold State.freeFrame
  simp [hs]

@[simp] theorem State.zeroFrame_good (s : State) (f : Nat) (hs : State.Good FZ PQ s) : State.Good FZ PQ (s.zeroFrame f) :=
  good_mem hs (memZero_wf _ _ (good_wf hs))

@[simp] theorem State.copyFrame_good (s : State) (src dst : Nat) (hs : State.Good FZ PQ s) :
    State.Good FZ PQ (s.copyFrame src dst) :=
  good_mem hs (memCopy_wf _ _ _ (good_wf hs))

theorem State.takeFrame_some {s : State} {stack : Nat} {u : FrameUse} {f : Nat} {s' : State}
    (h : s.takeFrame stack u = some (f, s')) (hs : State.Good FZ PQ s) : State.Good FZ PQ s' := by
  simp only [State.takeFrame, Option.ite_none_left_eq_some, Option.map_eq_some_iff, Prod.mk.injEq] at h
  obtain ⟨-, x, -, -, rfl⟩ := h
  simp (maxDischargeDepth := 60) [hs]

@[simp] theorem State.dropDie_good (s : State) (p : Nat → DieUse → Bool) (hs : State.Good FZ PQ s) : State.Good FZ PQ (State.dropDie s p) := by
  unfold State.dropDie
  simp [hs]

@[simp] theorem State.setPage_good (s : State) (t : Fin 4) (v : Nat) (e : PageEntry) (hs : State.Good FZ PQ s) : State.Good FZ PQ (State.setPage s t v e) := by
  unfold State.setPage
  simp [hs]

@[simp] theorem State.delPage_good (s : State) (t : Fin 4) (v : Nat) (hs : State.Good FZ PQ s) : State.Good FZ PQ (State.delPage s t v) := by
  unfold State.delPage
  simp [hs]

@[simp] theorem State.modPage_good (s : State) (t : Fin 4) (v : Nat) (f : PageEntry → PageEntry) (hs : State.Good FZ PQ s) : State.Good FZ PQ (State.modPage s t v f) := by
  unfold State.modPage
  simp [hs]

@[simp] theorem State.dropShadow_good (s : State) (frame : Nat) (hs : State.Good FZ PQ s) : State.Good FZ PQ (State.dropShadow s frame) := by
  unfold State.dropShadow
  repeat' first | with_reducible assumption | with_reducible apply State.freeFrame_good | with_reducible refine good_each ?_ (fun _ _ _ => ?_) | simp only [good_keep, good_time, good_tables] | intro _ | dsimp only

@[simp] theorem State.evictPage_good (s : State) (t : Fin 4) (v : Nat) (hs : State.Good FZ PQ s) : State.Good FZ PQ (State.evictPage s t v) := by
  unfold State.evictPage
  repeat' first | with_reducible assumption | with_reducible apply State.bump_good | with_reducible apply State.freeFrame_good | with_reducible apply State.dropDie_good | with_reducible apply State.modPage_good | with_reducible apply State.dropShadow_good | intro _ | split | dsimp only

@[simp] theorem State.settleEvictions_good (s : State) (hs : State.Good FZ PQ s) : State.Good FZ PQ (State.settleEvictions s) := by
  unfold State.settleEvictions
  repeat' first | with_reducible assumption | simp only [good_keep, good_time, good_tables] | intro _
  all_goals simp (maxDischargeDepth := 60) +contextual [*]

@[simp] theorem State.pwrite_good (s : State) (a : Nat) (bs : List Byte) (hs : State.Good FZ PQ s) :
    State.Good FZ PQ (s.pwrite a bs) :=
  good_mem hs (memWriteN_wf _ _ (good_wf hs))

@[simp] theorem State.writeVia_good (s : State) (frameOf : Nat → Option Nat) (a : Nat) (bs : List Byte)
    (hs : State.Good FZ PQ s) : State.Good FZ PQ (s.writeVia frameOf a bs) := by
  induction bs generalizing s a with
  | nil => exact hs
  | cons b r ih =>
    unfold State.writeVia
    apply ih
    split
    · exact good_mem hs (memWrite_wf _ _ (good_wf hs))
    · exact hs

@[simp] theorem State.narrowPage_good (s : State) (f v a n : Nat) (hs : State.Good FZ PQ s) : State.Good FZ PQ (State.narrowPage s f v a n) := by
  unfold State.narrowPage
  repeat' first | with_reducible assumption | with_reducible apply State.dropShadow_good | simp only [good_keep, good_time, good_tables] | intro _ | split | dsimp only

@[simp] theorem State.narrow_good (s : State) (frameOf : Nat → Option Nat) (a n : Nat) (hs : State.Good FZ PQ s) : State.Good FZ PQ (State.narrow s frameOf a n) := by
  unfold State.narrow
  repeat' first | with_reducible assumption | with_reducible apply State.narrowPage_good | with_reducible refine good_each ?_ (fun _ _ _ => ?_) | intro _ | split

@[simp] theorem State.touch_good (s : State) (t : Fin 4) (v : Nat) (hs : State.Good FZ PQ s) : State.Good FZ PQ (State.touch s t v) := by
  unfold State.touch
  simp [hs]

@[simp] theorem State.touchRange_good (s : State) (t : Fin 4) (a n : Nat) (hs : State.Good FZ PQ s) : State.Good FZ PQ (State.touchRange s t a n) := by
  unfold State.touchRange
  repeat' first | with_reducible assumption | with_reducible apply State.touch_good | with_reducible refine good_each ?_ (fun _ _ _ => ?_)

@[simp] theorem State.countReads_good (s : State) (t : Fin 4) (core : Nat) (pages : List Nat) (hs : State.Good FZ PQ s) : State.Good FZ PQ (State.countReads s t core pages) := by
  unfold State.countReads
  repeat' first | with_reducible assumption | with_reducible apply State.bump_good | with_reducible refine good_each ?_ (fun _ _ _ => ?_) | intro _ | split | dsimp only

@[simp] theorem State.setKv_good (s : State) (f : Nat) (k : KvFrame) (hs : State.Good FZ PQ s) : State.Good FZ PQ (State.setKv s f k) := by
  unfold State.setKv
  simp [hs]

@[simp] theorem State.modKv_good (s : State) (f : Nat) (g : KvFrame → KvFrame) (hs : State.Good FZ PQ s) : State.Good FZ PQ (State.modKv s f g) := by
  unfold State.modKv
  simp [hs]

@[simp] theorem State.trimArenas_good (s : State) (t : Fin 4) (hs : State.Good FZ PQ s) : State.Good FZ PQ (State.trimArenas s t) := by
  unfold State.trimArenas
  repeat' first | with_reducible assumption | with_reducible apply State.freeFrame_good | with_reducible refine good_each ?_ (fun _ _ _ => ?_) | intro _ | split | dsimp only

@[simp] theorem State.dropKv_good (s : State) (f : Nat) (hs : State.Good FZ PQ s) : State.Good FZ PQ (State.dropKv s f) := by
  unfold State.dropKv
  repeat' first | with_reducible assumption | with_reducible apply State.bump_good | with_reducible apply State.dropDie_good | with_reducible apply State.trimArenas_good | simp only [good_keep, good_time, good_tables] | intro _ | split | dsimp only

@[simp] theorem State.evictKv_good (s : State) (f : Nat) (hs : State.Good FZ PQ s) : State.Good FZ PQ (s.evictKv f) := by
  unfold State.evictKv
  split
  · exact hs
  · apply State.bump_good
    apply State.dropKv_good
    apply good_each hs
    intro s x hs
    split <;> simp (maxDischargeDepth := 60) [hs]

theorem State.evictOne_some {s s' : State} (h : s.evictOne = some s') (hs : State.Good FZ PQ s) : State.Good FZ PQ s' := by
  simp only [State.evictOne, Option.ite_none_left_eq_some, Option.map_eq_some_iff] at h
  obtain ⟨-, x, -, rfl⟩ := h
  split <;> simp (maxDischargeDepth := 60) [hs]

@[simp] theorem State.evictFor_good (s : State) (n k : Nat) (hs : State.Good FZ PQ s) :
    State.Good FZ PQ (s.evictFor n k) := by
  induction k generalizing s with
  | zero => exact hs
  | succ k ih =>
    unfold State.evictFor
    split
    · exact hs
    · split
      · exact ih _ (State.evictOne_some (by assumption) hs)
      · exact hs

@[simp] theorem State.makeRoom_good (s : State) (n : Nat) (hs : State.Good FZ PQ s) : State.Good FZ PQ (State.makeRoom s n) := by
  unfold State.makeRoom
  simp [hs]

@[simp] theorem State.evictPool_good (s : State) (n k : Nat) (hs : State.Good FZ PQ s) :
    State.Good FZ PQ (s.evictPool n k) := by
  induction k generalizing s with
  | zero => exact hs
  | succ k ih =>
    unfold State.evictPool
    split
    · exact hs
    · split
      · exact ih _ (State.evictOne_some (by assumption) hs)
      · exact hs

@[simp] theorem State.roomFor_good (s : State) (t : Fin 4) (n : Nat) (hs : State.Good FZ PQ s) : State.Good FZ PQ (State.roomFor s t n) := by
  unfold State.roomFor
  simp (maxDischargeDepth := 60) [hs]

@[simp] theorem State.kvRoom_good (s : State) (t : Fin 4) (n : Nat) (hs : State.Good FZ PQ s) : State.Good FZ PQ (State.kvRoom s t n) := by
  unfold State.kvRoom
  simp [hs]

@[simp] theorem State.evictDie_good (s : State) (die : Nat) (hs : State.Good FZ PQ s) : State.Good FZ PQ (State.evictDie s die) := by
  unfold State.evictDie
  repeat' first | with_reducible assumption | with_reducible apply State.bump_good | with_reducible apply State.dropDie_good | with_reducible apply State.modPage_good | with_reducible apply State.modKv_good | intro _ | split | dsimp only

end Sys2Proof.Machine
end

