-- ==== Sys2Proof/Laws/GoodIssue.lean ====
section
/-! SUPPORT. What Machine/Issue.lean keeps: the fuses, the queue, the tick count and the canonical form of memory (State.Good). -/
set_option linter.unusedSimpArgs false

namespace Sys2Proof.Machine

open Sys2Proof

variable {FZ : FuseSt} {PQ : List Instr → Nat → Prop}

@[simp] theorem issueOp_good (c : CtxId) (op : Nat) (body : Strand → Slice → W64 → State → State) (s : State)
    (hs : State.Good FZ PQ s) (hf : ∀ st sl w s, State.Good FZ PQ s → State.Good FZ PQ (body st sl w s)) :
    State.Good FZ PQ (issueOp c op body s) := by
  unfold issueOp
  split
  · exact hs
  · simp (maxDischargeDepth := 60) [hs]
  · simp (maxDischargeDepth := 60) [hs]
  · split
    · exact hf _ _ _ _ (by simpa using hs)
    · exact hs

@[simp] theorem pureOp_good (c : CtxId) (op : Nat) (f : Strand → Slice → W64 → Strand) (s : State) (hs : State.Good FZ PQ s) : State.Good FZ PQ (pureOp c op f s) := by
  unfold pureOp
  repeat' first | with_reducible assumption | with_reducible apply issueOp_good | with_reducible apply State.setStrand_good | intro _

@[simp] theorem withRange_good (c : CtxId) (st : Strand) (sl : Slice) (a n align : Nat) (body : State → State) (s : State)
    (hs : State.Good FZ PQ s) (hf : State.Good FZ PQ (body s)) :
    State.Good FZ PQ (withRange c st sl a n align body s) := by
  unfold withRange
  split
  · simp (maxDischargeDepth := 60) [hs]
  · exact hf

end Sys2Proof.Machine
end

