-- ==== Sys2Proof/Laws/GoodVec.lean ====
section
/-! SUPPORT. What Machine/Vec.lean keeps: the fuses, the queue, the tick count and the canonical form of memory (State.Good). -/
set_option linter.unusedSimpArgs false

namespace Sys2Proof.Machine

open Sys2Proof

variable {FZ : FuseSt} {PQ : List Instr → Nat → Prop}

@[simp] theorem vectorOp_good (c : CtxId) (op : Nat) (f : Strand → W64 → Vector W32 64) (s : State) (hs : State.Good FZ PQ s) : State.Good FZ PQ (vectorOp c op f s) := by
  unfold vectorOp
  simp [hs]

theorem execVld_good (c : CtxId) (s : State) {s' : State} (h : execVld c s = .next s') (hs : State.Good FZ PQ s) : State.Good FZ PQ s' := by
  unfold execVld at h
  obtain rfl := Host.Outcome.next.inj h
  clear h
  repeat' first | with_reducible assumption | with_reducible apply issueOp_good | with_reducible apply withRange_good | with_reducible apply State.setStrand_good | intro _ | dsimp only

@[simp] theorem State.countBlocks_good (s : State) (f : Nat) (bs : List BlockConv) (hs : State.Good FZ PQ s) : State.Good FZ PQ (State.countBlocks s f bs) := by
  unfold State.countBlocks
  repeat' first | with_reducible assumption | with_reducible apply State.bump_good | intro _ | split | dsimp only
  all_goals simp (maxDischargeDepth := 60) +contextual [*]

theorem execVst_good (c : CtxId) (s : State) {s' : State} (h : execVst c s = .next s') (hs : State.Good FZ PQ s) : State.Good FZ PQ s' := by
  unfold execVst at h
  obtain rfl := Host.Outcome.next.inj h
  clear h
  repeat' first | with_reducible assumption | with_reducible apply issueOp_good | with_reducible apply withRange_good | with_reducible apply State.setStrand_good | with_reducible apply State.countBlocks_good | with_reducible apply State.countBlocks_good | intro _ | dsimp only
  all_goals simp (maxDischargeDepth := 60) +contextual [*]

theorem execVbc_good (c : CtxId) (s : State) {s' : State} (h : execVbc c s = .next s') (hs : State.Good FZ PQ s) : State.Good FZ PQ s' := by
  unfold execVbc at h
  obtain rfl := Host.Outcome.next.inj h
  clear h
  simp [hs]

theorem execVidx_good (c : CtxId) (s : State) {s' : State} (h : execVidx c s = .next s') (hs : State.Good FZ PQ s) : State.Good FZ PQ s' := by
  unfold execVidx at h
  obtain rfl := Host.Outcome.next.inj h
  clear h
  simp [hs]

theorem execVext_good (c : CtxId) (s : State) {s' : State} (h : execVext c s = .next s') (hs : State.Good FZ PQ s) : State.Good FZ PQ s' := by
  unfold execVext at h
  obtain rfl := Host.Outcome.next.inj h
  clear h
  simp [hs]

theorem execVadd_good (c : CtxId) (s : State) {s' : State} (h : execVadd c s = .next s') (hs : State.Good FZ PQ s) : State.Good FZ PQ s' := by
  unfold execVadd at h
  obtain rfl := Host.Outcome.next.inj h
  clear h
  simp [hs]

theorem execVsub_good (c : CtxId) (s : State) {s' : State} (h : execVsub c s = .next s') (hs : State.Good FZ PQ s) : State.Good FZ PQ s' := by
  unfold execVsub at h
  obtain rfl := Host.Outcome.next.inj h
  clear h
  simp [hs]

theorem execVmul_good (c : CtxId) (s : State) {s' : State} (h : execVmul c s = .next s') (hs : State.Good FZ PQ s) : State.Good FZ PQ s' := by
  unfold execVmul at h
  obtain rfl := Host.Outcome.next.inj h
  clear h
  simp [hs]

theorem execVfma_good (c : CtxId) (s : State) {s' : State} (h : execVfma c s = .next s') (hs : State.Good FZ PQ s) : State.Good FZ PQ s' := by
  unfold execVfma at h
  obtain rfl := Host.Outcome.next.inj h
  clear h
  simp [hs]

theorem execVmax_good (c : CtxId) (s : State) {s' : State} (h : execVmax c s = .next s') (hs : State.Good FZ PQ s) : State.Good FZ PQ s' := by
  unfold execVmax at h
  obtain rfl := Host.Outcome.next.inj h
  clear h
  simp [hs]

theorem execVmin_good (c : CtxId) (s : State) {s' : State} (h : execVmin c s = .next s') (hs : State.Good FZ PQ s) : State.Good FZ PQ s' := by
  unfold execVmin at h
  obtain rfl := Host.Outcome.next.inj h
  clear h
  simp [hs]

theorem execVun_good (c : CtxId) (s : State) {s' : State} (h : execVun c s = .next s') (hs : State.Good FZ PQ s) : State.Good FZ PQ s' := by
  unfold execVun at h
  obtain rfl := Host.Outcome.next.inj h
  clear h
  simp [hs]

theorem execVcmp_good (c : CtxId) (s : State) {s' : State} (h : execVcmp c s = .next s') (hs : State.Good FZ PQ s) : State.Good FZ PQ s' := by
  unfold execVcmp at h
  obtain rfl := Host.Outcome.next.inj h
  clear h
  simp [hs]

theorem execVsel_good (c : CtxId) (s : State) {s' : State} (h : execVsel c s = .next s') (hs : State.Good FZ PQ s) : State.Good FZ PQ s' := by
  unfold execVsel at h
  obtain rfl := Host.Outcome.next.inj h
  clear h
  simp [hs]

theorem execVred_good (c : CtxId) (s : State) {s' : State} (h : execVred c s = .next s') (hs : State.Good FZ PQ s) : State.Good FZ PQ s' := by
  unfold execVred at h
  obtain rfl := Host.Outcome.next.inj h
  clear h
  simp [hs]

@[simp] theorem unitOp_good (c : CtxId) (op : Nat) (f : W32 → W32) (s : State) (hs : State.Good FZ PQ s) : State.Good FZ PQ (unitOp c op f s) := by
  unfold unitOp
  repeat' first | with_reducible assumption | with_reducible apply issueOp_good | with_reducible apply State.bump_good | with_reducible apply State.setStrand_good | intro _ | dsimp only

theorem execVexp2_good (c : CtxId) (s : State) {s' : State} (h : execVexp2 c s = .next s') (hs : State.Good FZ PQ s) : State.Good FZ PQ s' := by
  unfold execVexp2 at h
  obtain rfl := Host.Outcome.next.inj h
  clear h
  simp [hs]

theorem execVlog2_good (c : CtxId) (s : State) {s' : State} (h : execVlog2 c s = .next s') (hs : State.Good FZ PQ s) : State.Good FZ PQ s' := by
  unfold execVlog2 at h
  obtain rfl := Host.Outcome.next.inj h
  clear h
  simp [hs]

theorem execVcvt_good (c : CtxId) (s : State) {s' : State} (h : execVcvt c s = .next s') (hs : State.Good FZ PQ s) : State.Good FZ PQ s' := by
  unfold execVcvt at h
  obtain rfl := Host.Outcome.next.inj h
  clear h
  repeat' first | with_reducible assumption | with_reducible apply issueOp_good | with_reducible apply State.setStrand_good | with_reducible apply State.countBlocks_good | with_reducible apply State.countBlocks_good | intro _ | split | dsimp only
  all_goals simp (maxDischargeDepth := 60) +contextual [*]

end Sys2Proof.Machine
end

