-- ==== Sys2Proof/Laws/GoodMatrix.lean ====
section
/-! SUPPORT. What Machine/Matrix.lean keeps: the fuses, the queue, the tick count and the canonical form of memory (State.Good). -/
set_option linter.unusedSimpArgs false

namespace Sys2Proof.Machine

open Sys2Proof

variable {FZ : FuseSt} {PQ : List Instr → Nat → Prop}

theorem execMma_good (c : CtxId) (s : State) {s' : State} (h : execMma c s = .next s') (hs : State.Good FZ PQ s) : State.Good FZ PQ s' := by
  unfold execMma at h
  obtain rfl := Host.Outcome.next.inj h
  clear h
  repeat' first | with_reducible assumption | with_reducible apply issueOp_good | with_reducible apply withRange_good | with_reducible apply State.bump_good | with_reducible apply State.setStrand_good | with_reducible apply State.raisePc_good | intro _ | split | dsimp only

theorem execAclr_good (c : CtxId) (s : State) {s' : State} (h : execAclr c s = .next s') (hs : State.Good FZ PQ s) : State.Good FZ PQ s' := by
  unfold execAclr at h
  obtain rfl := Host.Outcome.next.inj h
  clear h
  simp [hs]

theorem execAswap_good (c : CtxId) (s : State) {s' : State} (h : execAswap c s = .next s') (hs : State.Good FZ PQ s) : State.Good FZ PQ s' := by
  unfold execAswap at h
  obtain rfl := Host.Outcome.next.inj h
  clear h
  simp [hs]

theorem execDrain_good (c : CtxId) (s : State) {s' : State} (h : execDrain c s = .next s') (hs : State.Good FZ PQ s) : State.Good FZ PQ s' := by
  unfold execDrain at h
  obtain rfl := Host.Outcome.next.inj h
  clear h
  refine issueOp_good _ _ _ _ hs (fun st sl w s hs => ?_)
  have body : ∀ (f : State → State), (∀ s, State.Good FZ PQ s → State.Good FZ PQ (f s)) → ∀ (nv off len src : Nat) (b : Prop) [Decidable b],
      State.Good FZ PQ (withRange c st sl off len 1 (if b then f else withRange c st sl src (4 * nv) 1 f) s) := by
    intro f hf nv off len src b _
    refine withRange_good _ _ _ _ _ _ _ _ hs ?_
    split
    · exact hf _ hs
    · exact withRange_good _ _ _ _ _ _ _ _ hs (hf _ hs)
  refine body _ (fun s hs => ?_) _ _ _ _ _
  extract_lets vals bias scale bank accs post rows pre made sr key tid c1 c0 rnd s1 pol tile bs s2 st'
  have h1 : State.Good FZ PQ s1 := State.bump_good _ _ _ _ hs
  have h2 : State.Good FZ PQ s2 := State.countBlocks_good _ _ _ h1
  clear_value s2 s1 pol tile
  split
  · refine State.setStrand_good _ _ _ (State.modRun_good _ _ _ _ ?_)
    repeat' with_reducible apply State.bump_good
    exact State.countBlocks_good _ _ _ h1
  · exact State.setStrand_good _ _ _ h2

theorem execSmx_good (c : CtxId) (s : State) {s' : State} (h : execSmx c s = .next s') (hs : State.Good FZ PQ s) : State.Good FZ PQ s' := by
  unfold execSmx at h
  obtain rfl := Host.Outcome.next.inj h
  clear h
  repeat' first | with_reducible assumption | with_reducible apply issueOp_good | with_reducible apply withRange_good | with_reducible apply State.bump_good | with_reducible apply State.setStrand_good | with_reducible apply State.countBlocks_good | intro _ | dsimp only

end Sys2Proof.Machine
end

