-- ==== Sys2Proof/Laws/GoodTiles.lean ====
section
/-! SUPPORT. What Machine/Tiles.lean keeps: the fuses, the queue, the tick count and the canonical form of memory (State.Good). -/
set_option linter.unusedSimpArgs false

namespace Sys2Proof.Machine

open Sys2Proof

variable {FZ : FuseSt} {PQ : List Instr → Nat → Prop}

@[simp] theorem withTile_good (c : CtxId) (st : Strand) (sl : Slice) (x : TileRef) (body : State → State) (s : State)
    (hs : State.Good FZ PQ s) (hf : State.Good FZ PQ (body s)) : State.Good FZ PQ (withTile c st sl x body s) := by
  unfold withTile
  repeat' first | with_reducible assumption | with_reducible apply withRange_good | with_reducible apply State.raisePc_good | split
  all_goals simp (maxDischargeDepth := 60) [*]

@[simp] theorem State.noteReads_good (s : State) (c : CtxId) (ref : SliceRef) (pages : List Nat) (hs : State.Good FZ PQ s) : State.Good FZ PQ (State.noteReads s c ref pages) := by
  unfold State.noteReads
  repeat' first | with_reducible assumption | with_reducible apply State.bump_good | with_reducible apply State.modSlice_good | with_reducible apply State.touch_good | with_reducible refine good_each ?_ (fun _ _ _ => ?_) | simp only [good_keep, good_time] | intro _ | split | dsimp only

theorem execTload_good (c : CtxId) (s : State) {s' : State} (h : execTload c s = .next s') (hs : State.Good FZ PQ s) : State.Good FZ PQ s' := by
  unfold execTload at h
  obtain rfl := Host.Outcome.next.inj h
  clear h
  repeat' first | with_reducible assumption | with_reducible apply issueOp_good | with_reducible apply withTile_good | with_reducible apply State.bump_good | with_reducible apply State.setStrand_good | with_reducible apply State.raise_good | with_reducible apply State.noteReads_good | simp only [good_keep, good_time] | intro _ | split | dsimp only

theorem execTloadDone_good (c : CtxId) (which : Nat) (s : State) {s' : State} (h : execTloadDone c which s = .next s') (hs : State.Good FZ PQ s) : State.Good FZ PQ s' := by
  unfold execTloadDone at h
  obtain rfl := Host.Outcome.next.inj h
  clear h
  repeat' split
  all_goals simp [hs]

theorem execTwait_good (c : CtxId) (s : State) {s' : State} (h : execTwait c s = .next s') (hs : State.Good FZ PQ s) : State.Good FZ PQ s' := by
  unfold execTwait at h
  obtain rfl := Host.Outcome.next.inj h
  clear h
  simp [hs]

theorem State.growShadow_go {t : Fin 4} {frame stack k : Nat} {s s' : State}
    (h : State.growShadow.go t frame stack k s = some s') (hs : State.Good FZ PQ s) : State.Good FZ PQ s' := by
  induction k generalizing s with
  | zero => cases h; exact hs
  | succ k ih =>
    unfold State.growShadow.go at h
    split at h
    · cases h
    · split at h
      · cases h
      · exact ih h (by simpa using State.takeFrame_some ‹_› hs)

theorem State.growShadow_some {t : Fin 4} {frame need stack : Nat} {s s' : State}
    (h : s.growShadow t frame need stack = some s') (hs : State.Good FZ PQ s) : State.Good FZ PQ s' :=
  State.growShadow_go h hs

theorem State.putShadow_some {s s' : State} {ref : SliceRef} {sl : Slice} {news : List (Nat × Option WideBlock)}
    (h : s.putShadow ref sl news = .ok s') (hs : State.Good FZ PQ s) : State.Good FZ PQ s' := by
  unfold State.putShadow at h
  refine foldl_keeps (P := fun x : Except Nat State => ∀ s', x = .ok s' → State.Good FZ PQ s') ?_ ?_ s' h
  · intro s' e
    cases e
    exact hs
  · intro acc v ih s' e
    split at e
    · cases e
    · have hg := ih _ rfl
      dsimp only at e
      repeat' split at e
      · cases e; exact hg
      · cases e; simp (maxDischargeDepth := 60) [hg]
      · cases e
      · cases e; simpa using State.growShadow_some ‹_› hg

theorem State.storeShadow_some {s s' : State} {ref : SliceRef} {sl : Slice} {x : TileRef} {link : Option Link}
    (h : s.storeShadow ref sl x link = .ok s') (hs : State.Good FZ PQ s) : State.Good FZ PQ s' :=
  State.putShadow_some h hs

theorem execTstore_good (c : CtxId) (s : State) {s' : State} (h : execTstore c s = .next s') (hs : State.Good FZ PQ s) : State.Good FZ PQ s' := by
  unfold execTstore at h
  obtain rfl := Host.Outcome.next.inj h
  clear h
  repeat' first | with_reducible assumption | with_reducible apply State.writeVia_good | with_reducible apply issueOp_good | with_reducible apply withTile_good | with_reducible apply State.bump_good | with_reducible apply State.modSlice_good | with_reducible apply State.setStrand_good | with_reducible apply State.raise_good | with_reducible refine State.storeShadow_some (by with_reducible assumption) ?_ | with_reducible refine good_each ?_ (fun _ _ _ => ?_) | simp only [good_keep, good_time] | intro _ | split | dsimp only

theorem execTacc_good (c : CtxId) (s : State) {s' : State} (h : execTacc c s = .next s') (hs : State.Good FZ PQ s) : State.Good FZ PQ s' := by
  unfold execTacc at h
  obtain rfl := Host.Outcome.next.inj h
  clear h
  repeat' first | with_reducible assumption | with_reducible apply issueOp_good | with_reducible apply withTile_good | with_reducible apply State.modRun_good | with_reducible apply State.setStrand_good | with_reducible apply State.raise_good | with_reducible apply State.raisePc_good | with_reducible apply State.touch_good | with_reducible refine good_each ?_ (fun _ _ _ => ?_) | with_reducible refine good_foldl ?_ (fun _ _ _ => ?_) | intro _ | split | dsimp only

end Sys2Proof.Machine
end

