-- ==== Sys2Proof/Laws/GoodCrys.lean ====
section
/-! SUPPORT. What Machine/Crys.lean keeps: the fuses, the queue, the tick count and the canonical form of memory (State.Good). -/
set_option linter.unusedSimpArgs false

namespace Sys2Proof.Machine

open Sys2Proof

variable {FZ : FuseSt} {PQ : List Instr → Nat → Prop}

theorem execXadd_good (c : CtxId) (s : State) {s' : State} (h : execXadd c s = .next s') (hs : State.Good FZ PQ s) : State.Good FZ PQ s' := by
  unfold execXadd at h
  obtain rfl := Host.Outcome.next.inj h
  clear h
  repeat' first | with_reducible assumption | with_reducible apply issueOp_good | with_reducible apply State.bump_good | with_reducible apply State.modSlice_good | with_reducible apply State.setStrand_good | with_reducible apply State.raisePc_good | with_reducible refine good_foldl ?_ (fun _ _ _ => ?_) | simp only [good_keep, good_time] | intro _ | split | dsimp only

theorem execXbind_good (c : CtxId) (s : State) {s' : State} (h : execXbind c s = .next s') (hs : State.Good FZ PQ s) : State.Good FZ PQ s' := by
  unfold execXbind at h
  obtain rfl := Host.Outcome.next.inj h
  clear h
  repeat' first | with_reducible assumption | with_reducible apply issueOp_good | with_reducible apply State.modSlice_good | with_reducible apply State.setStrand_good | with_reducible apply State.raise_good | with_reducible apply State.raisePc_good | with_reducible apply State.touch_good | with_reducible refine good_each ?_ (fun _ _ _ => ?_) | simp only [good_keep, good_time] | intro _ | split | dsimp only

theorem State.takePrepared_some {s s' : State} {t : Fin 4} {q : Fin 64} {l : List Nat}
    (h : s.takePrepared t q l = some s') (hs : State.Good FZ PQ s) : State.Good FZ PQ s' := by
  induction l generalizing s with
  | nil => exact Option.some.inj h ▸ hs
  | cons v r ih =>
    unfold State.takePrepared at h
    split at h
    · exact ih h hs
    · dsimp only at h
      split at h
      · cases h
      · exact ih h (State.modRun_good _ _ _ _ (State.takeFrame_some ‹_› hs))

@[simp] theorem State.makePrepared_good (s : State) (t : Fin 4) (q : Fin 64) (home : Nat) (p : FreshPage) (hs : State.Good FZ PQ s) : State.Good FZ PQ (State.makePrepared s t q home p) := by
  unfold State.makePrepared
  repeat' first | with_reducible assumption | with_reducible apply State.copyFrame_good | with_reducible apply State.modRun_good | intro _ | split
  all_goals simp (maxDischargeDepth := 60) +contextual [*]

@[simp] theorem State.foldCell_good (s : State) (t : Fin 4) (q : Fin 64) (k : Cell) (hs : State.Good FZ PQ s) : State.Good FZ PQ (State.foldCell s t q k) := by
  unfold State.foldCell
  repeat' first | with_reducible assumption | with_reducible apply State.pwrite_good | with_reducible apply State.bump_good | with_reducible apply State.failCmd_good | with_reducible apply State.makePrepared_good | split | dsimp only
  all_goals simp (maxDischargeDepth := 60) +contextual [*]

@[simp] theorem State.cellDone_good (s : State) (t : Fin 4) (q : Fin 64) (k : Cell) (hs : State.Good FZ PQ s) : State.Good FZ PQ (State.cellDone s t q k) := by
  unfold State.cellDone
  repeat' split
  all_goals simp [hs]

@[simp] theorem State.prepareCell_good (s : State) (ref : SliceRef) (w : Cell) (hs : State.Good FZ PQ s) : State.Good FZ PQ (State.prepareCell s ref w) := by
  unfold State.prepareCell
  repeat' first | with_reducible assumption | with_reducible apply State.bump_good | with_reducible apply State.modRun_good | with_reducible apply State.modSlice_good | with_reducible apply State.cellDone_good | simp only [good_keep, good_time] | intro _ | split | dsimp only

@[simp] theorem State.mergeSlice_good (s : State) (ref : SliceRef) (sl : Slice) (hs : State.Good FZ PQ s) : State.Good FZ PQ (State.mergeSlice s ref sl) := by
  unfold State.mergeSlice
  repeat' first | with_reducible assumption | with_reducible apply State.prepareCell_good | with_reducible apply State.modSlice_good | with_reducible apply State.prepareCell_good | with_reducible refine good_each ?_ (fun _ _ _ => ?_) | simp only [good_keep, good_time] | intro _
  all_goals simp (maxDischargeDepth := 60) +contextual [*]

theorem execSlicePrepare_good (t : Fin 4) (q : Fin 64) (idx : Nat) (s : State) {s' : State} (h : execSlicePrepare t q idx s = .next s') (hs : State.Good FZ PQ s) : State.Good FZ PQ s' := by
  unfold execSlicePrepare at h
  obtain rfl := Host.Outcome.next.inj h
  clear h
  repeat' first | with_reducible assumption | with_reducible apply State.modSlice_good | with_reducible refine State.takePrepared_some (by with_reducible assumption) ?_ | simp only [good_keep, good_time] | intro _ | split
  all_goals simp (maxDischargeDepth := 60) +contextual [*]

@[simp] theorem State.releaseCells_good (s : State) (hs : State.Good FZ PQ s) : State.Good FZ PQ (State.releaseCells s) := by
  unfold State.releaseCells
  repeat' first | with_reducible assumption | with_reducible apply State.modRun_good | with_reducible refine good_each ?_ (fun _ _ _ => ?_) | simp only [good_keep, good_time] | intro _ | split

@[simp] theorem State.giveCells_good (s : State) (ref : SliceRef) (n : Nat) (hs : State.Good FZ PQ s) : State.Good FZ PQ (State.giveCells s ref n) := by
  unfold State.giveCells
  repeat' first | with_reducible assumption | with_reducible apply State.bump_good | with_reducible apply State.modSlice_good | simp only [good_keep, good_time, good_tables] | intro _ | split | dsimp only

@[simp] theorem State.applyStaged_good (s : State) (frame : Nat) (x : Staged) (hs : State.Good FZ PQ s) : State.Good FZ PQ (State.applyStaged s frame x) := by
  unfold State.applyStaged
  repeat' first | with_reducible assumption | with_reducible apply State.pwrite_good | with_reducible apply State.bump_good | with_reducible refine good_foldl ?_ (fun _ _ _ => ?_) | intro _ | split | dsimp only

end Sys2Proof.Machine
end

