-- ==== Sys2Proof/Laws/GoodKv.lean ====
section
/-! SUPPORT. What Machine/Kv.lean keeps: the fuses, the queue, the tick count and the canonical form of memory (State.Good). -/
set_option linter.unusedSimpArgs false

namespace Sys2Proof.Machine

open Sys2Proof

variable {FZ : FuseSt} {PQ : List Instr → Nat → Prop}

theorem State.takeSlot_some {s s' : State} {t : Fin 4} {stack f : Nat} (h : s.takeSlot t stack = some (f, s'))
    (hs : State.Good FZ PQ s) : State.Good FZ PQ s' := by
  have hf : ∀ g u, (s.takeFrame stack (.arena t)).map (fun x => (x.1 * 32, x.2)) = some (g, u) → State.Good FZ PQ u := by
    intro g u e
    obtain ⟨x, hx, e⟩ := Option.map_eq_some_iff.mp e
    cases e
    exact State.takeFrame_some hx hs
  simp only [State.takeSlot] at h
  split at h
  · cases h; exact hs
  · split at h
    · exact hf _ _ h
    · split at h
      · cases h; exact hs
      · exact hf _ _ (Option.ite_none_right_eq_some.mp h).2

theorem State.walk_some {s s' : State} {core : Nat} {t : Fin 4} {desc h pos : Nat} {q : Seq} {pe : Nat} {e : W64}
    (hw : s.walk core t desc h pos = .ok (q, pe, e, s')) (hs : State.Good FZ PQ s) : State.Good FZ PQ s' := by
  unfold State.walk at hw
  split at hw
  · cases hw
  · dsimp only at hw
    split at hw
    all_goals
      simp only [Except.ok.injEq, Prod.mk.injEq] at hw
      obtain ⟨-, -, -, rfl⟩ := hw
      first
        | (simp only [good_keep, good_time]; exact hs)
        | (apply State.bump_good; simp only [good_keep, good_time]; exact hs)

@[simp] theorem State.walkPages_good (s : State) (core : Nat) (t : Fin 4) (desc h tpp : Nat) (l : List Nat)
    (hs : State.Good FZ PQ s) : State.Good FZ PQ (s.walkPages core t desc h tpp l).2 := by
  induction l generalizing s with
  | nil => exact hs
  | cons p r ih =>
    unfold State.walkPages
    split
    · exact ih s hs
    · exact ih _ (State.walk_some ‹_› hs)

@[simp] theorem State.askStage_good (s : State) (t : Fin 4) (die f : Nat) (hs : State.Good FZ PQ s) : State.Good FZ PQ (State.askStage s t die f) := by
  unfold State.askStage
  repeat' first | with_reducible assumption | simp only [good_keep, good_time, good_tables] | split
  all_goals simp (maxDischargeDepth := 60) +contextual [*]

@[simp] theorem State.stageKv_good (s : State) (x : KvRequest) (hs : State.Good FZ PQ s) : State.Good FZ PQ (State.stageKv s x) := by
  unfold State.stageKv
  repeat' first | with_reducible assumption | with_reducible apply State.bump_good | with_reducible apply State.evictDie_good | simp only [good_keep, good_time, good_tables] | intro _ | split | dsimp only
  all_goals simp (maxDischargeDepth := 60) +contextual [*]

@[simp] theorem State.stageAhead_good (s : State) (t : Fin 4) (desc : Nat) (q : Seq) (h p : Nat) (hs : State.Good FZ PQ s) : State.Good FZ PQ (State.stageAhead s t desc q h p) := by
  unfold State.stageAhead
  repeat' first | with_reducible assumption | with_reducible apply State.askStage_good | with_reducible apply State.askStage_good | with_reducible refine good_each ?_ (fun _ _ _ => ?_) | intro _ | split | dsimp only
  all_goals simp (maxDischargeDepth := 60) +contextual [*]

@[simp] theorem State.allocStaging_good (s : State) (hs : State.Good FZ PQ s) : State.Good FZ PQ (State.allocStaging s) := by
  unfold State.allocStaging
  repeat' first | with_reducible assumption | with_reducible apply State.stageKv_good | with_reducible apply State.stageKv_good | with_reducible apply State.stageKv_good | with_reducible refine good_each ?_ (fun _ _ _ => ?_) | simp only [good_keep, good_time, good_tables] | dsimp only

@[simp] theorem State.noteKvRead_good (s : State) (c : CtxId) (ref : SliceRef) (f : Nat) (hs : State.Good FZ PQ s) : State.Good FZ PQ (State.noteKvRead s c ref f) := by
  unfold State.noteKvRead
  repeat' first | with_reducible assumption | with_reducible apply State.bump_good | with_reducible apply State.modSlice_good | simp only [good_keep, good_time] | intro _ | split | dsimp only
  all_goals simp (maxDischargeDepth := 60) +contextual [*]

theorem execKvwalk_good (c : CtxId) (s : State) {s' : State} (h : execKvwalk c s = .next s') (hs : State.Good FZ PQ s) : State.Good FZ PQ s' := by
  unfold execKvwalk at h
  obtain rfl := Host.Outcome.next.inj h
  clear h
  repeat' first | with_reducible assumption | with_reducible apply issueOp_good | with_reducible apply withRange_good | with_reducible apply State.setStrand_good | with_reducible apply State.raise_good | with_reducible apply State.stageAhead_good | with_reducible apply State.noteKvRead_good | with_reducible apply State.modKv_good | with_reducible apply State.stageAhead_good | with_reducible apply State.noteKvRead_good | with_reducible refine State.walk_some (by with_reducible assumption) ?_ | simp only [good_keep, good_time] | intro _ | split | dsimp only
  all_goals simp (maxDischargeDepth := 60) +contextual [*]

theorem State.takeKv_some {s s' : State} {ref : SliceRef} {q : Seq} {desc h p pe : Nat} {entry : W64}
    (hk : s.takeKv ref q desc h p pe entry = some s') (hs : State.Good FZ PQ s) : State.Good FZ PQ s' := by
  unfold State.takeKv at hk
  dsimp only at hk
  split at hk
  · cases hk
  · have h1 := State.takeSlot_some ‹_› hs
    simp only [Option.map_eq_some_iff] at hk
    obtain ⟨u, hu, rfl⟩ := hk
    have h2 : State.Good FZ PQ u := by
      split at hu
      · cases hu; simp (maxDischargeDepth := 60) [h1]
      · split at hu
        · cases hu
        · have h3 := State.takeSlot_some (FZ := FZ) (PQ := PQ) (by assumption) (by simp (maxDischargeDepth := 60) [h1])
          cases hu
          simp (maxDischargeDepth := 60) [h3]
    simp (maxDischargeDepth := 60) [h2]

@[simp] theorem State.writeGroups_good (s : State) (q : Seq) (k : KvTaken) (groups : List BrineGroup) (hs : State.Good FZ PQ s) : State.Good FZ PQ (State.writeGroups s q k groups) := by
  unfold State.writeGroups
  simp [hs]

theorem State.takePages_some {s s' : State} {ref : SliceRef} {q : Seq} {desc h : Nat} {found : List Walked}
    (ht : s.takePages ref q desc h found = some s') (hs : State.Good FZ PQ s) : State.Good FZ PQ s' := by
  unfold State.takePages at ht
  refine foldl_keeps (P := fun x : Option State => ∀ s', x = some s' → State.Good FZ PQ s') ?_ ?_ s' ht
  · intro s' e
    cases e
    exact hs
  · intro acc x ih s' e
    split at e
    · split at e
      · cases e; exact ih _ rfl
      · exact State.takeKv_some e (ih _ rfl)
    · exact ih _ e

@[simp] theorem State.putTokens_good (s : State) (c : CtxId) (ref : SliceRef) (q : Seq) (desc h : Nat) (toks : List BrineToken) (hs : State.Good FZ PQ s) : State.Good FZ PQ (State.putTokens s c ref q desc h toks) := by
  unfold State.putTokens
  repeat' first | with_reducible assumption | with_reducible apply State.bump_good | with_reducible apply State.modSlice_good | with_reducible apply State.writeGroups_good | with_reducible refine good_each ?_ (fun _ _ _ => ?_) | with_reducible refine good_foldl ?_ (fun _ _ _ => ?_) | simp only [good_keep, good_time] | intro _ | split | dsimp only

theorem execKvapp_good (c : CtxId) (s : State) {s' : State} (h : execKvapp c s = .next s') (hs : State.Good FZ PQ s) : State.Good FZ PQ s' := by
  unfold execKvapp at h
  obtain rfl := Host.Outcome.next.inj h
  clear h
  repeat' first | with_reducible assumption | with_reducible apply issueOp_good | with_reducible apply withRange_good | with_reducible apply State.setStrand_good | with_reducible apply State.walkPages_good | with_reducible apply State.raise_good | with_reducible apply State.putTokens_good | with_reducible refine State.walk_some (by with_reducible assumption) ?_ | with_reducible refine State.takePages_some (by with_reducible assumption) ?_ | simp only [good_keep, good_time] | intro _ | split | dsimp only

theorem execKvskip_good (c : CtxId) (s : State) {s' : State} (h : execKvskip c s = .next s') (hs : State.Good FZ PQ s) : State.Good FZ PQ s' := by
  unfold execKvskip at h
  obtain rfl := Host.Outcome.next.inj h
  clear h
  repeat' first | with_reducible assumption | with_reducible apply issueOp_good | with_reducible apply withRange_good | with_reducible apply State.bump_good | with_reducible apply State.setStrand_good | with_reducible apply State.raise_good | with_reducible refine State.walk_some (by with_reducible assumption) ?_ | intro _ | split | dsimp only

end Sys2Proof.Machine
end

