-- ==== Sys2Proof/Laws/GoodAdmit.lean ====
section
/-! SUPPORT. What Machine/Admit.lean keeps: the fuses, the queue, the tick count and the canonical form of memory (State.Good). -/
set_option linter.unusedSimpArgs false

namespace Sys2Proof.Machine

open Sys2Proof

variable {FZ : FuseSt} {PQ : List Instr → Nat → Prop}

/-- What a check of a command's admission answers keeps what a good state keeps. -/
def OpAnswer.Good (f : FuseSt) (p : List Instr → Nat → Prop) : OpAnswer → Prop
  | .admitted s _ => State.Good f p s
  | _ => True

@[simp] theorem OpAnswer.good_fail (code a r : Nat) : OpAnswer.Good FZ PQ (.fail code a r) := trivial

@[simp] theorem OpAnswer.good_pass : OpAnswer.Good FZ PQ .pass := trivial

@[simp] theorem OpAnswer.good_hold : OpAnswer.Good FZ PQ .hold := trivial

theorem OpAnswer.good_admitted {s : State} {d : Bool} (hs : State.Good FZ PQ s) : OpAnswer.Good FZ PQ (.admitted s d) := hs

theorem OpAnswer.good_some {a : OpAnswer} {s : State} {d : Bool} (h : a = .admitted s d) (ha : OpAnswer.Good FZ PQ a) :
    State.Good FZ PQ s := by
  subst h
  exact ha

@[simp] theorem State.ensureHead_good (s : State) (t : Fin 4) (q : Fin 64) (tauNs : Nat) (hs : State.Good FZ PQ s) : State.Good FZ PQ (State.ensureHead s t q tauNs) := by
  unfold State.ensureHead
  repeat' first | with_reducible assumption | with_reducible apply State.modQueue_good | intro _ | split | dsimp only

@[simp] theorem State.latchClasses_good (s : State) (hs : State.Good FZ PQ s) : State.Good FZ PQ (State.latchClasses s) := by
  unfold State.latchClasses
  repeat' first | with_reducible assumption | with_reducible apply State.modTen_good | with_reducible refine good_each ?_ (fun _ _ _ => ?_) | intro _
  all_goals simp (maxDischargeDepth := 60) +contextual [*]

@[simp] theorem State.failAt_good (s : State) (t : Fin 4) (q : Fin 64) (e : Bad) (hs : State.Good FZ PQ s) : State.Good FZ PQ (State.failAt s t q e) := by
  unfold State.failAt
  simp [hs]

@[simp] theorem State.failOpen_good (s : State) (t : Fin 4) (q : Fin 64) (code : Nat) (hs : State.Good FZ PQ s) : State.Good FZ PQ (State.failOpen s t q code) := by
  unfold State.failOpen
  simp [hs]

theorem State.copyShadow_some {s s' : State} {t : Fin 4} {stack src dst : Nat} (h : s.copyShadow t stack src dst = some s')
    (hs : State.Good FZ PQ s) : State.Good FZ PQ s' := by
  unfold State.copyShadow at h
  split at h
  · cases h; exact hs
  · simp only [Option.map_eq_some_iff] at h
    obtain ⟨a, h, rfl⟩ := h
    simp (maxDischargeDepth := 60) [State.growShadow_some h hs]

theorem State.takeFresh_some {s s' : State} {ref : SliceRef} {aux : Nat} {o : Nat × Bool} {p : FreshPage}
    (h : s.takeFresh ref aux o = some (p, s')) (hs : State.Good FZ PQ s) : State.Good FZ PQ s' := by
  unfold State.takeFresh at h
  dsimp only at h
  split at h
  · cases h
  · have h1 := State.takeFrame_some ‹_› hs
    split at h
    · simp only [Option.map_eq_some_iff, Prod.mk.injEq] at h
      obtain ⟨a, h, -, rfl⟩ := h
      exact State.copyShadow_some h (by simp (maxDischargeDepth := 60) [h1])
    · cases h; exact h1

theorem State.takeFreshes_some {s s' : State} {ref : SliceRef} {aux : Nat} {l : List (Nat × Bool)} {ps : List FreshPage}
    (h : s.takeFreshes ref aux l = some (ps, s')) (hs : State.Good FZ PQ s) : State.Good FZ PQ s' := by
  induction l generalizing s s' ps with
  | nil => cases h; exact hs
  | cons o r ih =>
    unfold State.takeFreshes at h
    split at h
    · cases h
    · simp only [Option.map_eq_some_iff, Prod.mk.injEq, Prod.exists] at h
      obtain ⟨a, b, h, -, rfl⟩ := h
      exact ih h (State.takeFresh_some ‹_› hs)

@[simp] theorem State.pinOuts_good (s : State) (t : Fin 4) (outs : List (Nat × Bool)) (hs : State.Good FZ PQ s) : State.Good FZ PQ (State.pinOuts s t outs) := by
  unfold State.pinOuts
  repeat' first | with_reducible assumption | with_reducible apply State.modPage_good | with_reducible refine good_each ?_ (fun _ _ _ => ?_) | intro _
  all_goals simp (maxDischargeDepth := 60) +contextual [*]

theorem State.takeSave_some {s s' : State} {t : Fin 4} {stack n : Nat} {l : List Nat}
    (h : s.takeSave t stack n = some (l, s')) (hs : State.Good FZ PQ s) : State.Good FZ PQ s' := by
  induction n generalizing s s' l with
  | zero => cases h; exact hs
  | succ n ih =>
    unfold State.takeSave at h
    split at h
    · cases h
    · simp only [Option.map_eq_some_iff, Prod.mk.injEq, Prod.exists] at h
      obtain ⟨a, b, h, -, rfl⟩ := h
      exact ih h (State.takeFrame_some ‹_› hs)

theorem State.kvHold_some {s s' : State} {t : Fin 4} {n : Nat} (h : s.kvHold t n = some s') (hs : State.Good FZ PQ s) :
    State.Good FZ PQ s' := by
  unfold State.kvHold at h
  dsimp only at h
  split at h
  · cases h; simp (maxDischargeDepth := 60) [hs]
  · cases h

@[simp] theorem State.stageModel_good (s : State) (die v : Nat) (hs : State.Good FZ PQ s) : State.Good FZ PQ (State.stageModel s die v) := by
  unfold State.stageModel
  repeat' first | with_reducible assumption | simp only [good_keep, good_time, good_tables] | intro _ | split | dsimp only

@[simp] theorem State.stageActive_good (s : State) (hs : State.Good FZ PQ s) : State.Good FZ PQ (State.stageActive s) := by
  unfold State.stageActive
  repeat' first | with_reducible assumption | with_reducible apply State.stageModel_good | with_reducible refine good_each ?_ (fun _ _ _ => ?_) | intro _

@[simp] theorem State.schedule_good (s : State) (layer : Nat) (hs : State.Good FZ PQ s) : State.Good FZ PQ (State.schedule s layer) := by
  unfold State.schedule
  repeat' first | with_reducible assumption | with_reducible apply State.bump_good | with_reducible apply State.stageActive_good | simp only [good_keep, good_time, good_tables] | intro _ | split | dsimp only

@[simp] theorem State.noteRecord_good (s : State) (t : Fin 4) (q : Fin 64) (r : CmdRun) (hs : State.Good FZ PQ s) : State.Good FZ PQ (State.noteRecord s t q r) := by
  unfold State.noteRecord
  repeat' first | with_reducible assumption | with_reducible apply State.modTen_good | intro _ | split | dsimp only
  all_goals simp (maxDischargeDepth := 60) +contextual [*]

@[simp] theorem State.begin_good (s : State) (t : Fin 4) (q : Fin 64) (hs : State.Good FZ PQ s) : State.Good FZ PQ (State.begin s t q) := by
  unfold State.begin
  repeat' first | with_reducible assumption | with_reducible apply State.modRun_good | with_reducible apply State.schedule_good | with_reducible apply State.noteRecord_good | simp only [good_keep, good_time] | intro _ | split | dsimp only

@[simp] theorem State.deal_good (s : State) (ref : SliceRef) (sl : Slice) (hs : State.Good FZ PQ s) : State.Good FZ PQ (State.deal s ref sl) := by
  unfold State.deal
  repeat' first | with_reducible assumption | with_reducible apply State.bump_good | with_reducible apply State.modSlice_good | simp only [good_keep, good_time] | intro _ | split | dsimp only

@[simp] theorem State.startSlice_good (s : State) (ref : SliceRef) (cls : Nat) (hs : State.Good FZ PQ s) : State.Good FZ PQ (State.startSlice s ref cls) := by
  unfold State.startSlice
  repeat' first | with_reducible assumption | with_reducible apply State.bumpT_good | with_reducible apply State.modSlice_good | with_reducible apply State.giveCells_good | with_reducible apply State.deal_good | simp only [good_keep, good_time] | intro _ | split | dsimp only

theorem State.takeFrames_some {s s' : State} {ref : SliceRef} {sl : Slice} (h : s.takeFrames ref sl = some s')
    (hs : State.Good FZ PQ s) : State.Good FZ PQ s' := by
  unfold State.takeFrames at h
  dsimp only at h
  split at h
  · cases h
  · rename_i fresh u hu
    have h1 : State.Good FZ PQ u := by
      split at hu
      · exact State.takeFreshes_some hu (by simp (maxDischargeDepth := 60) [hs])
      · cases hu; simp (maxDischargeDepth := 60) [hs]
    split at h
    · cases h
    · have h2 := State.takeSave_some ‹_› h1
      obtain ⟨v, hv, rfl⟩ := Option.map_eq_some_iff.mp h
      apply State.modSlice_good
      split at hv
      · cases hv; exact h2
      · exact State.kvHold_some hv h2

theorem State.tryAdmit_some {s s' : State} {ref : SliceRef} {sl : Slice} {cls : Nat}
    (h : s.tryAdmit ref sl cls = some s') (hs : State.Good FZ PQ s) : State.Good FZ PQ s' := by
  obtain ⟨u, hu, rfl⟩ := Option.map_eq_some_iff.mp h
  exact State.startSlice_good _ _ _ (State.takeFrames_some hu hs)

@[simp] theorem State.passSlice_good (s : State) (ref : SliceRef) (hs : State.Good FZ PQ s) : State.Good FZ PQ (State.passSlice s ref) := by
  unfold State.passSlice
  simp (maxDischargeDepth := 60) [hs]

@[simp] theorem State.putOpSlice_good (s : State) (t : Fin 4) (q : Fin 64) (outs : List (Nat × Bool)) (hs : State.Good FZ PQ s) : State.Good FZ PQ (State.putOpSlice s t q outs) := by
  unfold State.putOpSlice
  simp [hs]

theorem State.claim_good (s : State) (t : Fin 4) (q : Fin 64) (outs : List (Nat × Bool)) (next : State → OpAnswer)
    (hs : State.Good FZ PQ s) (hf : ∀ s, State.Good FZ PQ s → OpAnswer.Good FZ PQ (next s)) :
    OpAnswer.Good FZ PQ (s.claim t q outs next) := by
  unfold State.claim
  dsimp only
  repeat' split
  all_goals first | trivial | skip
  all_goals apply hf
  repeat' first
    | with_reducible assumption
    | with_reducible refine State.takeFreshes_some (by with_reducible assumption) ?_
    | with_reducible apply State.roomFor_good
    | with_reducible apply State.pinOuts_good
    | with_reducible apply State.putOpSlice_good
    | with_reducible apply State.modSlice_good
    | with_reducible refine good_each ?_ (fun _ _ _ => ?_)
    | with_reducible apply State.modPage_good

@[simp] theorem State.stage_good (s : State) (t : Fin 4) (q : Fin 64) (l : List Effect) (hs : State.Good FZ PQ s) : State.Good FZ PQ (State.stage s t q l) := by
  unfold State.stage
  simp [hs]

@[simp] theorem State.results_good (s : State) (t : Fin 4) (q : Fin 64) (a b : Nat) (hs : State.Good FZ PQ s) : State.Good FZ PQ (State.results s t q a b) := by
  unfold State.results
  simp [hs]

@[simp] theorem State.pinFrames_good (s : State) (t : Fin 4) (q : Fin 64) (frames : List Nat) (hs : State.Good FZ PQ s) : State.Good FZ PQ (State.pinFrames s t q frames) := by
  unfold State.pinFrames
  repeat' first | with_reducible assumption | with_reducible apply State.modRun_good | intro _
  all_goals simp (maxDischargeDepth := 60) +contextual [*]

@[simp] theorem State.pinReads_good (s : State) (t : Fin 4) (q : Fin 64) (pages : List Nat) (hs : State.Good FZ PQ s) : State.Good FZ PQ (State.pinReads s t q pages) := by
  unfold State.pinReads
  repeat' first | with_reducible assumption | with_reducible apply State.touch_good | with_reducible apply State.pinFrames_good | with_reducible refine good_each ?_ (fun _ _ _ => ?_) | intro _ | split | dsimp only
  all_goals simp (maxDischargeDepth := 60) +contextual [*]

@[simp] theorem State.admitOp_good (s : State) (t : Fin 4) (q : Fin 64) (done : Bool) (hs : State.Good FZ PQ s) :
    State.Good FZ PQ (s.admitOp t q done) := by
  unfold State.admitOp
  dsimp only
  repeat' first
    | with_reducible assumption
    | with_reducible apply State.bumpT_good
    | with_reducible apply State.modRun_good
    | with_reducible apply State.modSlice_good
    | simp only [good_keep, good_time]
    | with_reducible apply State.begin_good
    | with_reducible apply State.pinOuts_good
    | with_reducible apply State.putOpSlice_good
    | split
    | dsimp only

@[simp] theorem State.offerOp_good (s : State) (t : Fin 4) (q : Fin 64) (f : OpCheck) (hs : State.Good FZ PQ s)
    (hf : ∀ t q r s, State.Good FZ PQ s → OpAnswer.Good FZ PQ (f s t q r)) : State.Good FZ PQ (s.offerOp t q f) := by
  unfold State.offerOp
  split
  · exact hs
  · split
    · simp [hs]
    · split
      · dsimp only
        repeat' split
        all_goals simp (maxDischargeDepth := 60) [hs]
      · exact hs
      · split <;> simp [hs]
      · exact State.admitOp_good _ _ _ _ (OpAnswer.good_some (FZ := FZ) (PQ := PQ) ‹_› (by split <;> simp [hs, hf]))

@[simp] theorem State.offerRow_good (s : State) (t : Fin 4) (q : Fin 64) (op : Nat) (f : OpCheck) (hs : State.Good FZ PQ s)
    (hf : ∀ t q r s, State.Good FZ PQ s → OpAnswer.Good FZ PQ (f s t q r)) : State.Good FZ PQ (s.offerRow t q op f) := by
  unfold State.offerRow
  dsimp only
  split
  · simp [hs]
  · split <;> simp (maxDischargeDepth := 60) +contextual [hs, hf]

@[simp] theorem nopCheck_good (s : State) (t : Fin 4) (q : Fin 64) (r : CmdRun) (hs : State.Good FZ PQ s) : OpAnswer.Good FZ PQ (nopCheck s t q r) := by
  unfold nopCheck
  repeat' first | with_reducible exact OpAnswer.good_fail _ _ _ | with_reducible exact OpAnswer.good_pass | with_reducible exact OpAnswer.good_hold | with_reducible apply OpAnswer.good_admitted | with_reducible assumption | intro _

theorem execCommandNop_good (t : Fin 4) (q : Fin 64) (s : State) {s' : State} (h : execCommandNop t q s = .next s') (hs : State.Good FZ PQ s) : State.Good FZ PQ s' := by
  unfold execCommandNop at h
  obtain rfl := Host.Outcome.next.inj h
  clear h
  repeat' first | with_reducible assumption | with_reducible apply State.offerRow_good | with_reducible apply nopCheck_good
  all_goals simp (maxDischargeDepth := 60) +contextual [*]

end Sys2Proof.Machine
end

