-- ==== Sys2Proof/Laws/GoodNet.lean ====
section
/-! SUPPORT. What Machine/Net.lean keeps: the fuses, the queue, the tick count and the canonical form of memory (State.Good). -/
set_option linter.unusedSimpArgs false

namespace Sys2Proof.Machine

open Sys2Proof

variable {FZ : FuseSt} {PQ : List Instr → Nat → Prop}

@[simp] theorem State.modL_good (s : State) (p : Fin 18) (f : LPort → LPort) (hs : State.Good FZ PQ s) : State.Good FZ PQ (State.modL s p f) := by
  unfold State.modL
  simp [hs]

@[simp] theorem State.emitFlit_good (s : State) (p : Fin 18) (bs : List Byte) (hs : State.Good FZ PQ s) : State.Good FZ PQ (State.emitFlit s p bs) := by
  unfold State.emitFlit
  simp [hs]

@[simp] theorem State.sendPlain_good (s : State) (p : Fin 18) (type : Nat) (payload : List Byte) (hs : State.Good FZ PQ s) : State.Good FZ PQ (State.sendPlain s p type payload) := by
  unfold State.sendPlain
  simp [hs]

@[simp] theorem State.sendNumbered_good (s : State) (p : Fin 18) (h : FlitHead) (payload : List Byte) (hs : State.Good FZ PQ s) : State.Good FZ PQ (State.sendNumbered s p h payload) := by
  unfold State.sendNumbered
  simp [hs]

theorem State.sendWaiting_some {s s' : State} {p : Fin 18} {w : Waiting} (h : s.sendWaiting p w = some s')
    (hs : State.Good FZ PQ s) : State.Good FZ PQ s' := by
  unfold State.sendWaiting at h
  dsimp only at h
  repeat' split at h
  all_goals first | cases h; done | skip
  all_goals obtain rfl := Option.some.inj h
  all_goals repeat' first | with_reducible assumption | with_reducible apply State.sendNumbered_good | with_reducible apply State.modL_good | simp only [good_keep, good_time] | split

theorem State.serveFlits_good (p : Fin 18) (l : List Waiting) (s : State) (kept : List Waiting) (blocked : List Nat)
    (hs : State.Good FZ PQ s) : State.Good FZ PQ (State.serveFlits p l s kept blocked).1 := by
  induction l generalizing s kept blocked with
  | nil => exact hs
  | cons w r ih =>
    unfold State.serveFlits
    repeat' first | with_reducible assumption | with_reducible apply ih | with_reducible refine State.sendWaiting_some (by with_reducible assumption) ?_ | split | dsimp only

@[simp] theorem State.flush_good (s : State) (p : Fin 18) (hs : State.Good FZ PQ s) : State.Good FZ PQ (State.flush s p) := by
  unfold State.flush
  exact State.modL_good _ _ _ (State.serveFlits_good _ _ _ _ _ hs)

@[simp] theorem State.enqueue_good (s : State) (p : Fin 18) (h : FlitHead) (payload : List Byte) (dest : Nat) (via : Option (Fin 18)) (hs : State.Good FZ PQ s) : State.Good FZ PQ (State.enqueue s p h payload dest via) := by
  unfold State.enqueue
  repeat' first | with_reducible assumption | with_reducible apply State.modL_good | with_reducible apply State.flush_good | with_reducible apply State.modL_good | with_reducible apply State.flush_good | intro _ | split | dsimp only
  all_goals simp (maxDischargeDepth := 60) +contextual [*]

@[simp] theorem State.sendControl_good (s : State) (p : Fin 18) (payload : List Byte) (hs : State.Good FZ PQ s) : State.Good FZ PQ (State.sendControl s p payload) := by
  unfold State.sendControl
  repeat' first | with_reducible assumption | with_reducible apply State.enqueue_good | with_reducible apply State.enqueue_good | split | dsimp only
  all_goals simp (maxDischargeDepth := 60) +contextual [*]

@[simp] theorem State.resendFrom_good (s : State) (p : Fin 18) (seq : Nat) (hs : State.Good FZ PQ s) : State.Good FZ PQ (State.resendFrom s p seq) := by
  unfold State.resendFrom
  repeat' first | with_reducible assumption | with_reducible apply State.modL_good | with_reducible apply State.emitFlit_good | with_reducible refine good_foldl ?_ (fun _ _ _ => ?_) | intro _ | split | dsimp only

@[simp] theorem State.takeHead_good (s : State) (p : Fin 18) (h : FlitHead) (hs : State.Good FZ PQ s) : State.Good FZ PQ (State.takeHead s p h) := by
  unfold State.takeHead
  simp [hs]

@[simp] theorem State.askRetry_good (s : State) (p : Fin 18) (hs : State.Good FZ PQ s) : State.Good FZ PQ (State.askRetry s p) := by
  unfold State.askRetry
  simp (maxDischargeDepth := 60) [hs]

@[simp] theorem State.takeSeq_good (s : State) (p : Fin 18) (h : FlitHead) (hs : State.Good FZ PQ s) : State.Good FZ PQ (State.takeSeq s p h).2 := by
  unfold State.takeSeq
  repeat' split
  all_goals simp [hs]

theorem State.takeSeq_some {s : State} {p : Fin 18} {h : FlitHead} {x0 : Bool} {s' : State} (he : State.takeSeq s p h = (x0, s')) (hs : State.Good FZ PQ s) : State.Good FZ PQ s' := by
  have hg := State.takeSeq_good s p h hs
  rw [he] at hg
  exact hg

@[simp] theorem State.portDown_good (s : State) (p : Fin 18) (hs : State.Good FZ PQ s) : State.Good FZ PQ (State.portDown s p) := by
  unfold State.portDown
  repeat' first | with_reducible assumption | with_reducible apply State.modL_good | with_reducible apply State.modL_good | with_reducible refine good_each ?_ (fun _ _ _ => ?_) | intro _ | dsimp only
  all_goals simp (maxDischargeDepth := 60) +contextual [*]

@[simp] theorem State.retrain_good (s : State) (p : Fin 18) (hs : State.Good FZ PQ s) : State.Good FZ PQ (State.retrain s p) := by
  unfold State.retrain
  simp [hs]

@[simp] theorem State.sendAll_good (s : State) (sel : Fin 18 → Bool) (payload : List Byte) (hs : State.Good FZ PQ s) : State.Good FZ PQ (State.sendAll s sel payload) := by
  unfold State.sendAll
  repeat' first | with_reducible assumption | with_reducible apply State.sendControl_good | with_reducible refine good_each ?_ (fun _ _ _ => ?_) | intro _

@[simp] theorem State.sendMessage_good (s : State) (dest g : Nat) (bs : List Byte) (hs : State.Good FZ PQ s) : State.Good FZ PQ (State.sendMessage s dest g bs) := by
  unfold State.sendMessage
  repeat' first | with_reducible assumption | with_reducible apply State.enqueue_good | with_reducible apply State.enqueue_good | with_reducible refine good_each ?_ (fun _ _ _ => ?_) | intro _ | split
  all_goals simp (maxDischargeDepth := 60) +contextual [*]

@[simp] theorem State.reroute_good (s : State) (p : Fin 18) (w : Waiting) (hs : State.Good FZ PQ s) : State.Good FZ PQ (State.reroute s p w) := by
  unfold State.reroute
  repeat' first | with_reducible assumption | with_reducible apply State.modL_good | with_reducible apply State.enqueue_good | with_reducible apply State.modL_good | with_reducible apply State.enqueue_good | with_reducible apply State.modL_good | with_reducible apply State.enqueue_good | intro _ | split

@[simp] theorem State.swapRoutes_good (s : State) (hs : State.Good FZ PQ s) : State.Good FZ PQ (State.swapRoutes s) := by
  unfold State.swapRoutes
  repeat' first | with_reducible assumption | with_reducible apply State.modL_good | with_reducible apply State.modL_good | with_reducible apply State.reroute_good | with_reducible refine good_each ?_ (fun _ _ _ => ?_) | simp only [good_keep, good_time] | intro _ | dsimp only
  all_goals simp (maxDischargeDepth := 60) +contextual [*]

end Sys2Proof.Machine
end

