-- ==== Sys2Proof/Laws/GoodColl.lean ====
section
/-! SUPPORT. What Machine/Coll.lean keeps: the fuses, the queue, the tick count and the canonical form of memory (State.Good). -/
set_option linter.unusedSimpArgs false

namespace Sys2Proof.Machine

open Sys2Proof

variable {FZ : FuseSt} {PQ : List Instr → Nat → Prop}

@[simp] theorem State.setColl_good (s : State) (g : Nat) (c : Coll) (hs : State.Good FZ PQ s) : State.Good FZ PQ (State.setColl s g c) := by
  unfold State.setColl
  simp [hs]

@[simp] theorem State.modColl_good (s : State) (g : Nat) (f : Coll → Coll) (hs : State.Good FZ PQ s) : State.Good FZ PQ (State.modColl s g f) := by
  unfold State.modColl
  simp [hs]

@[simp] theorem State.tell_good (s : State) (g : Nat) (c : Coll) (kind step attempt piece : Nat) (body : List Byte) (hs : State.Good FZ PQ s) : State.Good FZ PQ (State.tell s g c kind step attempt piece body) := by
  unfold State.tell
  simp [hs]

@[simp] theorem State.sendReady_good (s : State) (g : Nat) (c : Coll) (mismatch : Nat) (hs : State.Good FZ PQ s) : State.Good FZ PQ (State.sendReady s g c mismatch) := by
  unfold State.sendReady
  simp [hs]

@[simp] theorem State.collStart_good (s : State) (g boundary mismatch : Nat) (hs : State.Good FZ PQ s) : State.Good FZ PQ (State.collStart s g boundary mismatch) := by
  unfold State.collStart
  simp [hs]

@[simp] theorem State.sendStart_good (s : State) (g : Nat) (c : Coll) (boundary mismatch : Nat) (hs : State.Good FZ PQ s) : State.Good FZ PQ (State.sendStart s g c boundary mismatch) := by
  unfold State.sendStart
  simp [hs]

@[simp] theorem State.passReady_good (s : State) (g : Nat) (c : Coll) (mismatch : Nat) (hs : State.Good FZ PQ s) : State.Good FZ PQ (State.passReady s g c mismatch) := by
  unfold State.passReady
  repeat' split
  all_goals simp [hs]

@[simp] theorem State.dropMessage_good (s : State) (g : Nat) (hs : State.Good FZ PQ s) : State.Good FZ PQ (State.dropMessage s g) := by
  unfold State.dropMessage
  simp [hs]

@[simp] theorem State.withMessage_good (s : State) (g : Nat) (m : CollMsg) (f : Coll → State) (hs : State.Good FZ PQ s)
    (hf : ∀ k, State.Good FZ PQ (f k)) : State.Good FZ PQ (s.withMessage g m f) := by
  unfold State.withMessage
  repeat' split
  all_goals simp [hs, hf]

@[simp] theorem State.recvReady_good (s : State) (g : Nat) (m : CollMsg) (hs : State.Good FZ PQ s) : State.Good FZ PQ (State.recvReady s g m) := by
  unfold State.recvReady
  simp (maxDischargeDepth := 60) [hs]

@[simp] theorem State.recvStart_good (s : State) (g : Nat) (m : CollMsg) (hs : State.Good FZ PQ s) : State.Good FZ PQ (State.recvStart s g m) := by
  unfold State.recvStart
  simp (maxDischargeDepth := 60) [hs]

@[simp] theorem State.pieceReady_good (s : State) (g step : Nat) (body : List Byte) (hs : State.Good FZ PQ s) : State.Good FZ PQ (State.pieceReady s g step body) := by
  unfold State.pieceReady
  repeat' first | with_reducible assumption | simp only [good_keep, good_time] | intro _ | split
  all_goals simp (maxDischargeDepth := 60) +contextual [*]

@[simp] theorem State.recvPiece_good (s : State) (g : Nat) (m : CollMsg) (hs : State.Good FZ PQ s) : State.Good FZ PQ (State.recvPiece s g m) := by
  unfold State.recvPiece
  repeat' first | with_reducible assumption | with_reducible apply State.withMessage_good | with_reducible apply State.modColl_good | with_reducible apply State.dropMessage_good | with_reducible apply State.pieceReady_good | with_reducible apply State.modColl_good | with_reducible apply State.dropMessage_good | with_reducible apply State.pieceReady_good | intro _ | split | dsimp only
  all_goals simp (maxDischargeDepth := 60) +contextual [*]

@[simp] theorem State.recvCounts_good (s : State) (g : Nat) (m : CollMsg) (hs : State.Good FZ PQ s) : State.Good FZ PQ (State.recvCounts s g m) := by
  unfold State.recvCounts
  repeat' first | with_reducible assumption | with_reducible apply State.withMessage_good | with_reducible apply State.complete_good | with_reducible apply State.modColl_good | with_reducible apply State.tell_good | with_reducible apply State.dropMessage_good | with_reducible apply State.pieceReady_good | with_reducible apply State.modColl_good | with_reducible apply State.tell_good | with_reducible apply State.dropMessage_good | with_reducible apply State.pieceReady_good | intro _ | split | dsimp only
  all_goals simp (maxDischargeDepth := 60) +contextual [*]

@[simp] theorem State.sendWave_good (s : State) (g : Nat) (c : Coll) (r : RingRun) (w : Nat × Nat × Nat) (hs : State.Good FZ PQ s) : State.Good FZ PQ (State.sendWave s g c r w) := by
  unfold State.sendWave
  simp [hs]

@[simp] theorem State.abortRunning_good (s : State) (g decision : Nat) (hs : State.Good FZ PQ s) : State.Good FZ PQ (State.abortRunning s g decision) := by
  unfold State.abortRunning
  repeat' first | with_reducible assumption | with_reducible apply State.kill_good | intro _ | split
  all_goals simp (maxDischargeDepth := 60) +contextual [*]

@[simp] theorem State.takeDecision_good (s : State) (g : Nat) (c : Coll) (r : RingRun) (d : Nat × Nat × Nat × Nat) (hs : State.Good FZ PQ s) : State.Good FZ PQ (State.takeDecision s g c r d) := by
  unfold State.takeDecision
  repeat' split
  all_goals simp [hs]

@[simp] theorem State.keepDecision_good (s : State) (g : Nat) (c : Coll) (r : RingRun) (d : Nat × Nat × Nat × Nat) (hs : State.Good FZ PQ s) : State.Good FZ PQ (State.keepDecision s g c r d) := by
  unfold State.keepDecision
  repeat' split
  all_goals simp [hs]

@[simp] theorem State.wave_good (s : State) (g : Nat) (c : Coll) (r : RingRun) (w : Nat × Nat × Nat) (hs : State.Good FZ PQ s) : State.Good FZ PQ (State.wave s g c r w) := by
  unfold State.wave
  repeat' split
  all_goals simp [hs]

@[simp] theorem State.recvVerdict_good (s : State) (g : Nat) (m : CollMsg) (hs : State.Good FZ PQ s) : State.Good FZ PQ (State.recvVerdict s g m) := by
  unfold State.recvVerdict
  repeat' first | with_reducible assumption | with_reducible apply State.withMessage_good | with_reducible apply State.modColl_good | with_reducible apply State.dropMessage_good | with_reducible apply State.wave_good | intro _ | split | dsimp only

@[simp] theorem State.recvDecide_good (s : State) (g : Nat) (m : CollMsg) (hs : State.Good FZ PQ s) : State.Good FZ PQ (State.recvDecide s g m) := by
  unfold State.recvDecide
  repeat' first | with_reducible assumption | with_reducible apply State.withMessage_good | with_reducible apply State.dropMessage_good | with_reducible apply State.abortRunning_good | with_reducible apply State.takeDecision_good | with_reducible apply State.keepDecision_good | with_reducible apply State.dropMessage_good | with_reducible apply State.abortRunning_good | with_reducible apply State.takeDecision_good | with_reducible apply State.keepDecision_good | with_reducible refine OpAnswer.good_some (by with_reducible assumption) ?_ | intro _ | split | dsimp only
  all_goals simp (maxDischargeDepth := 60) +contextual [*]

@[simp] theorem State.waveTimeout_good (s : State) (g : Nat) (hs : State.Good FZ PQ s) : State.Good FZ PQ (State.waveTimeout s g) := by
  unfold State.waveTimeout
  repeat' split
  all_goals simp [hs]

@[simp] theorem State.doubtExpired_good (s : State) (g : Nat) (hs : State.Good FZ PQ s) : State.Good FZ PQ (State.doubtExpired s g) := by
  unfold State.doubtExpired
  repeat' split
  all_goals simp [hs]

@[simp] theorem State.collWaitExpired_good (s : State) (t : Fin 4) (q : Fin 64) (hs : State.Good FZ PQ s) : State.Good FZ PQ (State.collWaitExpired s t q) := by
  unfold State.collWaitExpired
  repeat' first | with_reducible assumption | with_reducible apply State.modColl_good | with_reducible refine good_each ?_ (fun _ _ _ => ?_) | intro _ | split | dsimp only

@[simp] theorem State.deliver_good (s : State) (g : Nat) (bs : List Byte) (hs : State.Good FZ PQ s) : State.Good FZ PQ (State.deliver s g bs) := by
  unfold State.deliver
  repeat' first | with_reducible assumption | with_reducible apply State.dropMessage_good | with_reducible apply State.recvReady_good | with_reducible apply State.recvStart_good | with_reducible apply State.recvPiece_good | with_reducible apply State.recvCounts_good | with_reducible apply State.recvVerdict_good | with_reducible apply State.recvDecide_good | split | dsimp only

@[simp] theorem State.sendChunk_good (s : State) (g : Nat) (hs : State.Good FZ PQ s) : State.Good FZ PQ (State.sendChunk s g) := by
  unfold State.sendChunk
  repeat' first | with_reducible assumption | with_reducible apply State.modColl_good | with_reducible apply State.tell_good | intro _ | split | dsimp only

@[simp] theorem State.sendPart_good (s : State) (c : CtxId) (st : Strand) (hs : State.Good FZ PQ s) : State.Good FZ PQ (State.sendPart s c st) := by
  unfold State.sendPart
  repeat' first | with_reducible assumption | with_reducible apply State.setStrand_good | with_reducible apply State.modColl_good | with_reducible apply State.sendChunk_good | with_reducible apply State.modColl_good | with_reducible apply State.sendChunk_good | simp only [good_keep, good_time] | intro _ | split | dsimp only
  all_goals simp (maxDischargeDepth := 60) +contextual [*]

@[simp] theorem lsendWord_good (c : CtxId) (st : Strand) (sl : Slice) (w : W64) (s : State) (hs : State.Good FZ PQ s) : State.Good FZ PQ (lsendWord c st sl w s) := by
  unfold lsendWord
  repeat' first | with_reducible assumption | with_reducible apply withRange_good | with_reducible apply State.setStrand_good | with_reducible apply State.tell_good | with_reducible apply State.tell_good | intro _ | split | dsimp only
  all_goals simp (maxDischargeDepth := 60) +contextual [*]

theorem execLsend_good (c : CtxId) (s : State) {s' : State} (h : execLsend c s = .next s') (hs : State.Good FZ PQ s) : State.Good FZ PQ s' := by
  unfold execLsend at h
  obtain rfl := Host.Outcome.next.inj h
  clear h
  repeat' first | with_reducible assumption | with_reducible apply issueOp_good | with_reducible apply State.sendPart_good | with_reducible apply lsendWord_good | with_reducible apply State.sendPart_good | with_reducible apply lsendWord_good | intro _ | split
  all_goals simp (maxDischargeDepth := 60) +contextual [*]

@[simp] theorem State.recvPart_good (s : State) (c : CtxId) (st : Strand) (hs : State.Good FZ PQ s) : State.Good FZ PQ (State.recvPart s c st) := by
  unfold State.recvPart
  repeat' first | with_reducible assumption | with_reducible apply State.setStrand_good | simp only [good_keep, good_time] | split
  all_goals simp (maxDischargeDepth := 60) +contextual [*]

@[simp] theorem lrecvWord_good (c : CtxId) (st : Strand) (sl : Slice) (w : W64) (s : State) (hs : State.Good FZ PQ s) : State.Good FZ PQ (lrecvWord c st sl w s) := by
  unfold lrecvWord
  repeat' first | with_reducible assumption | with_reducible apply withRange_good | with_reducible apply State.setStrand_good | simp only [good_keep, good_time] | intro _ | split | dsimp only
  all_goals simp (maxDischargeDepth := 60) +contextual [*]

theorem execLrecv_good (c : CtxId) (s : State) {s' : State} (h : execLrecv c s = .next s') (hs : State.Good FZ PQ s) : State.Good FZ PQ s' := by
  unfold execLrecv at h
  obtain rfl := Host.Outcome.next.inj h
  clear h
  repeat' first | with_reducible assumption | with_reducible apply issueOp_good | with_reducible apply State.recvPart_good | with_reducible apply lrecvWord_good | with_reducible apply State.recvPart_good | with_reducible apply lrecvWord_good | intro _ | split
  all_goals simp (maxDischargeDepth := 60) +contextual [*]

@[simp] theorem State.finishStep_good (s : State) (ref : SliceRef) (hs : State.Good FZ PQ s) : State.Good FZ PQ (State.finishStep s ref) := by
  unfold State.finishStep
  repeat' first | with_reducible assumption | with_reducible apply State.writeVia_good | with_reducible apply State.modColl_good | with_reducible refine good_each ?_ (fun _ _ _ => ?_) | intro _ | split | dsimp only

theorem execReady_good (g : Fin 256) (m : CollMsg) (s : State) {s' : State} (h : execReady g m s = .next s') (hs : State.Good FZ PQ s) : State.Good FZ PQ s' := by
  unfold execReady at h
  obtain rfl := Host.Outcome.next.inj h
  clear h
  simp [hs]

theorem execStart_good (g : Fin 256) (m : CollMsg) (s : State) {s' : State} (h : execStart g m s = .next s') (hs : State.Good FZ PQ s) : State.Good FZ PQ s' := by
  unfold execStart at h
  obtain rfl := Host.Outcome.next.inj h
  clear h
  simp [hs]

theorem execPiece_good (g : Fin 256) (m : CollMsg) (s : State) {s' : State} (h : execPiece g m s = .next s') (hs : State.Good FZ PQ s) : State.Good FZ PQ s' := by
  unfold execPiece at h
  obtain rfl := Host.Outcome.next.inj h
  clear h
  simp [hs]

theorem execCounts_good (g : Fin 256) (m : CollMsg) (s : State) {s' : State} (h : execCounts g m s = .next s') (hs : State.Good FZ PQ s) : State.Good FZ PQ s' := by
  unfold execCounts at h
  obtain rfl := Host.Outcome.next.inj h
  clear h
  simp [hs]

theorem execVerdict_good (g : Fin 256) (m : CollMsg) (s : State) {s' : State} (h : execVerdict g m s = .next s') (hs : State.Good FZ PQ s) : State.Good FZ PQ s' := by
  unfold execVerdict at h
  obtain rfl := Host.Outcome.next.inj h
  clear h
  simp [hs]

theorem execDecide_good (g : Fin 256) (m : CollMsg) (s : State) {s' : State} (h : execDecide g m s = .next s') (hs : State.Good FZ PQ s) : State.Good FZ PQ s' := by
  unfold execDecide at h
  obtain rfl := Host.Outcome.next.inj h
  clear h
  simp [hs]

theorem execVerdictWaveTimeout_good (g : Fin 256) (s : State) {s' : State} (h : execVerdictWaveTimeout g s = .next s') (hs : State.Good FZ PQ s) : State.Good FZ PQ s' := by
  unfold execVerdictWaveTimeout at h
  obtain rfl := Host.Outcome.next.inj h
  clear h
  simp [hs]

theorem execCollWaitExpiry_good (t : Fin 4) (q : Fin 64) (s : State) {s' : State} (h : execCollWaitExpiry t q s = .next s') (hs : State.Good FZ PQ s) : State.Good FZ PQ s' := by
  unfold execCollWaitExpiry at h
  obtain rfl := Host.Outcome.next.inj h
  clear h
  simp [hs]

theorem execInDoubtExpiry_good (g : Fin 256) (s : State) {s' : State} (h : execInDoubtExpiry g s = .next s') (hs : State.Good FZ PQ s) : State.Good FZ PQ s' := by
  unfold execInDoubtExpiry at h
  obtain rfl := Host.Outcome.next.inj h
  clear h
  simp [hs]

end Sys2Proof.Machine
end

