-- ==== Sys2Proof/Laws/GoodOdRead.lean ====
section
/-! SUPPORT. What Machine/OdRead.lean keeps: the fuses, the queue, the tick count and the canonical form of memory (State.Good). -/
set_option linter.unusedSimpArgs false

namespace Sys2Proof.Machine

open Sys2Proof

variable {FZ : FuseSt} {PQ : List Instr → Nat → Prop}

@[simp] theorem State.redigest_good (s : State) (hs : State.Good FZ PQ s) : State.Good FZ PQ (State.redigest s) := by
  unfold State.redigest
  simp [hs]

@[simp] theorem State.noteKey_good (s : State) (key : Nat) (hs : State.Good FZ PQ s) : State.Good FZ PQ (State.noteKey s key) := by
  unfold State.noteKey
  repeat' first | with_reducible assumption | with_reducible apply State.bump_good | with_reducible apply State.setCause_good | with_reducible refine good_each ?_ (fun _ _ _ => ?_) | simp only [good_keep, good_time] | intro _ | split | dsimp only

@[simp] theorem State.noteChanges_good (s : State) (hs : State.Good FZ PQ s) : State.Good FZ PQ (State.noteChanges s) := by
  unfold State.noteChanges
  repeat' first | with_reducible assumption | with_reducible apply State.noteKey_good | with_reducible refine good_each ?_ (fun _ _ _ => ?_)

theorem noted_good (s : State) {s' : State} (h : noted s = .next s') (hs : State.Good FZ PQ s) : State.Good FZ PQ s' := by
  unfold noted at h
  obtain rfl := Host.Outcome.next.inj h
  clear h
  simp [hs]

end Sys2Proof.Machine
end

