-- ==== Sys2Proof/Laws/GoodImg.lean ====
section
/-! SUPPORT. What Machine/Img.lean keeps: the fuses, the queue, the tick count and the canonical form of memory (State.Good). -/
set_option linter.unusedSimpArgs false

namespace Sys2Proof.Machine

open Sys2Proof

variable {FZ : FuseSt} {PQ : List Instr → Nat → Prop}

@[simp] theorem State.writeRow_good (s : State) (ref : SliceRef) (sl : Slice) (d : BitVec 512) (x0 x1 x2 x3 : Nat) (blocks : List BlockConv) (hs : State.Good FZ PQ s) : State.Good FZ PQ (State.writeRow s ref sl d x0 x1 x2 x3 blocks) := by
  unfold State.writeRow
  repeat' split
  all_goals simp [hs]

@[simp] theorem State.putLines_good (s : State) (ref : SliceRef) (sl : Slice) (dout : BitVec 512) (w0 h t n : Nat) (chans : List Nat) (bs : List BlockConv) (hs : State.Good FZ PQ s) : State.Good FZ PQ (State.putLines s ref sl dout w0 h t n chans bs) := by
  unfold State.putLines
  repeat' first | with_reducible assumption | with_reducible apply State.writeRow_good | with_reducible refine good_each ?_ (fun _ _ _ => ?_) | intro _

theorem State.putWidened_some {s s' : State} {ref : SliceRef} {sl : Slice} {r : CmdRun} {p : Policy}
    {cb t h w0 n : Nat} {chans : List Nat} {rows : List (List W32)} {rnd : Nat → Nat → Option Nat}
    (hp : s.putWidened ref sl r p cb t h w0 n chans rows rnd = .ok s') (hs : State.Good FZ PQ s) :
    State.Good FZ PQ s' := by
  unfold State.putWidened at hp
  dsimp only at hp
  split at hp
  · cases hp
  · cases hp
    apply State.modRun_good
    refine State.putShadow_some ‹_› ?_
    repeat' first | with_reducible assumption | with_reducible apply State.bump_good | with_reducible apply State.modRun_good | with_reducible apply State.narrow_good | with_reducible apply State.countBlocks_good | with_reducible apply State.putLines_good | with_reducible refine State.putShadow_some (by with_reducible assumption) ?_ | simp only [good_keep, good_time] | intro _ | split | dsimp only

theorem State.convTile_some {s s' : State} {ref : SliceRef} {sl : Slice} {r : CmdRun} {cb t h w0 n : Nat}
    (hc : s.convTile ref sl r cb t h w0 n = .ok s') (hs : State.Good FZ PQ s) : State.Good FZ PQ s' := by
  unfold State.convTile at hc
  dsimp only at hc
  split at hc
  · cases hc
  · split at hc
    · cases hc
      repeat' first | with_reducible assumption | with_reducible apply State.bump_good | with_reducible apply State.countBlocks_good | with_reducible apply State.putLines_good | intro _ | split | dsimp only
    · split at hc
      · cases hc
        repeat' first | with_reducible assumption | with_reducible apply State.bump_good | with_reducible apply State.countBlocks_good | with_reducible apply State.putLines_good | intro _ | split | dsimp only
      · exact State.putWidened_some hc (State.bump_good _ _ _ _ hs)

@[simp] theorem State.resampleLine_good (s : State) (ref : SliceRef) (sl : Slice) (r : CmdRun) (part line w0 n : Nat) (hs : State.Good FZ PQ s) : State.Good FZ PQ (State.resampleLine s ref sl r part line w0 n) := by
  unfold State.resampleLine
  simp [hs]

@[simp] theorem State.detectFrame_good (s : State) (ref : SliceRef) (sl : Slice) (r : CmdRun) (fr : Nat) (hs : State.Good FZ PQ s) : State.Good FZ PQ (State.detectFrame s ref sl r fr) := by
  unfold State.detectFrame
  simp (maxDischargeDepth := 60) [hs]

theorem State.imgStrand_some {s s' : State} {ref : SliceRef} {i rom : Nat} (h : s.imgStrand ref i rom = .ok s')
    (hs : State.Good FZ PQ s) : State.Good FZ PQ s' := by
  unfold State.imgStrand at h
  split at h
  · extract_lets op part dout w x groups nb line at h
    clear_value groups line nb
    generalize checkRanges _ _ = o at h
    cases o with
    | some a => cases h
    | none =>
      dsimp only at h
      by_cases h1 : op = 0x2B
      · rw [if_pos h1] at h
        cases h
        exact State.detectFrame_good _ _ _ _ _ hs
      · rw [if_neg h1] at h
        refine foldl_keeps (P := fun x : Except (Nat × Nat) State => ∀ s', x = .ok s' → State.Good FZ PQ s') ?_ ?_ s' h
        · intro s' e
          cases e
          exact hs
        · intro acc g ih s' e
          split at e
          · cases e
          · split at e
            · exact State.convTile_some e (ih _ rfl)
            · cases e
              exact State.resampleLine_good _ _ _ _ _ _ _ _ (ih _ rfl)
  · cases h; exact hs

end Sys2Proof.Machine
end

