-- ==== Sys2Proof/Laws/GoodMemCmd.lean ====
section
/-! SUPPORT. What Machine/MemCmd.lean keeps: the fuses, the queue, the tick count and the canonical form of memory (State.Good). -/
set_option linter.unusedSimpArgs false

namespace Sys2Proof.Machine

open Sys2Proof

variable {FZ : FuseSt} {PQ : List Instr → Nat → Prop}

@[simp] theorem mapBad_good (a : Nat) : OpAnswer.Good FZ PQ (mapBad a) := trivial

theorem State.takeHomes_some {s s' : State} {t : Fin 4} {kind target : Nat} {l : List Nat} {ps : List FreshPage}
    (h : s.takeHomes t kind target l = some (ps, s')) (hs : State.Good FZ PQ s) : State.Good FZ PQ s' := by
  induction l generalizing s s' ps with
  | nil => cases h; exact hs
  | cons v r ih =>
    unfold State.takeHomes at h
    split at h
    · cases h
    · simp only [Option.map_eq_some_iff, Prod.mk.injEq, Prod.exists] at h
      obtain ⟨a, b, h, -, rfl⟩ := h
      exact ih h (State.takeFrame_some ‹_› hs)

@[simp] theorem memMapCheck_good (s : State) (t : Fin 4) (q : Fin 64) (r : CmdRun) (hs : State.Good FZ PQ s) : OpAnswer.Good FZ PQ (memMapCheck s t q r) := by
  unfold memMapCheck
  repeat' first | with_reducible exact OpAnswer.good_fail _ _ _ | with_reducible exact OpAnswer.good_pass | with_reducible exact OpAnswer.good_hold | with_reducible apply OpAnswer.good_admitted | with_reducible assumption | with_reducible apply State.modSlice_good | with_reducible apply State.roomFor_good | with_reducible apply State.putOpSlice_good | with_reducible apply State.stage_good | with_reducible apply mapBad_good | with_reducible refine State.takeHomes_some (by with_reducible assumption) ?_ | simp only [good_keep, good_time] | intro _ | split | dsimp only

theorem execMemMap_good (t : Fin 4) (q : Fin 64) (s : State) {s' : State} (h : execMemMap t q s = .next s') (hs : State.Good FZ PQ s) : State.Good FZ PQ s' := by
  unfold execMemMap at h
  obtain rfl := Host.Outcome.next.inj h
  clear h
  repeat' first | with_reducible assumption | with_reducible apply State.offerRow_good | with_reducible apply memMapCheck_good
  all_goals simp (maxDischargeDepth := 60) +contextual [*]

@[simp] theorem memUnmapCheck_good (s : State) (t : Fin 4) (q : Fin 64) (r : CmdRun) (hs : State.Good FZ PQ s) : OpAnswer.Good FZ PQ (memUnmapCheck s t q r) := by
  unfold memUnmapCheck
  repeat' first | with_reducible exact OpAnswer.good_fail _ _ _ | with_reducible exact OpAnswer.good_pass | with_reducible exact OpAnswer.good_hold | with_reducible apply OpAnswer.good_admitted | with_reducible assumption | with_reducible apply State.putOpSlice_good | with_reducible apply State.stage_good | with_reducible apply mapBad_good | intro _ | split | dsimp only

theorem execMemUnmap_good (t : Fin 4) (q : Fin 64) (s : State) {s' : State} (h : execMemUnmap t q s = .next s') (hs : State.Good FZ PQ s) : State.Good FZ PQ s' := by
  unfold execMemUnmap at h
  obtain rfl := Host.Outcome.next.inj h
  clear h
  repeat' first | with_reducible assumption | with_reducible apply State.offerRow_good | with_reducible apply memUnmapCheck_good
  all_goals simp (maxDischargeDepth := 60) +contextual [*]

@[simp] theorem memPinCheck_good (s : State) (t : Fin 4) (q : Fin 64) (r : CmdRun) (hs : State.Good FZ PQ s) : OpAnswer.Good FZ PQ (memPinCheck s t q r) := by
  unfold memPinCheck
  repeat' first | with_reducible exact OpAnswer.good_fail _ _ _ | with_reducible exact OpAnswer.good_pass | with_reducible exact OpAnswer.good_hold | with_reducible apply OpAnswer.good_admitted | with_reducible assumption | with_reducible apply State.putOpSlice_good | with_reducible apply State.stage_good | with_reducible apply mapBad_good | intro _ | split | dsimp only

theorem execMemPin_good (t : Fin 4) (q : Fin 64) (s : State) {s' : State} (h : execMemPin t q s = .next s') (hs : State.Good FZ PQ s) : State.Good FZ PQ s' := by
  unfold execMemPin at h
  obtain rfl := Host.Outcome.next.inj h
  clear h
  repeat' first | with_reducible assumption | with_reducible apply State.offerRow_good | with_reducible apply memPinCheck_good
  all_goals simp (maxDischargeDepth := 60) +contextual [*]

@[simp] theorem memQueryCheck_good (s : State) (t : Fin 4) (q : Fin 64) (r : CmdRun) (hs : State.Good FZ PQ s) : OpAnswer.Good FZ PQ (memQueryCheck s t q r) := by
  unfold memQueryCheck
  repeat' first | with_reducible exact OpAnswer.good_fail _ _ _ | with_reducible exact OpAnswer.good_pass | with_reducible exact OpAnswer.good_hold | with_reducible apply OpAnswer.good_admitted | with_reducible assumption | with_reducible apply State.claim_good | with_reducible apply State.stage_good | with_reducible apply mapBad_good | intro _ | split | dsimp only

theorem execMemQuery_good (t : Fin 4) (q : Fin 64) (s : State) {s' : State} (h : execMemQuery t q s = .next s') (hs : State.Good FZ PQ s) : State.Good FZ PQ s' := by
  unfold execMemQuery at h
  obtain rfl := Host.Outcome.next.inj h
  clear h
  repeat' first | with_reducible assumption | with_reducible apply State.offerRow_good | with_reducible apply memQueryCheck_good
  all_goals simp (maxDischargeDepth := 60) +contextual [*]

@[simp] theorem kvBad_good (a : Nat) : OpAnswer.Good FZ PQ (kvBad a) := trivial

@[simp] theorem State.admitKv_good (s : State) (t : Fin 4) (c : Fin 64) (desc : Nat) (l : List (Nat × W64)) (hs : State.Good FZ PQ s) : OpAnswer.Good FZ PQ (State.admitKv s t c desc l) := by
  unfold State.admitKv
  repeat' first | with_reducible exact OpAnswer.good_fail _ _ _ | with_reducible exact OpAnswer.good_pass | with_reducible exact OpAnswer.good_hold | with_reducible apply OpAnswer.good_admitted | with_reducible assumption | with_reducible apply State.modRun_good | with_reducible apply State.putOpSlice_good | with_reducible apply State.stage_good | intro _ | split | dsimp only
  all_goals simp (maxDischargeDepth := 60) +contextual [*]

@[simp] theorem kvShareCheck_good (s : State) (t : Fin 4) (q : Fin 64) (r : CmdRun) (hs : State.Good FZ PQ s) : OpAnswer.Good FZ PQ (kvShareCheck s t q r) := by
  unfold kvShareCheck
  repeat' first | with_reducible exact OpAnswer.good_fail _ _ _ | with_reducible exact OpAnswer.good_pass | with_reducible exact OpAnswer.good_hold | with_reducible apply OpAnswer.good_admitted | with_reducible assumption | with_reducible apply kvBad_good | with_reducible apply State.admitKv_good | intro _ | split | dsimp only

theorem execKvShare_good (t : Fin 4) (q : Fin 64) (s : State) {s' : State} (h : execKvShare t q s = .next s') (hs : State.Good FZ PQ s) : State.Good FZ PQ s' := by
  unfold execKvShare at h
  obtain rfl := Host.Outcome.next.inj h
  clear h
  repeat' first | with_reducible assumption | with_reducible apply State.offerRow_good | with_reducible apply kvShareCheck_good
  all_goals simp (maxDischargeDepth := 60) +contextual [*]

@[simp] theorem kvReleaseCheck_good (s : State) (t : Fin 4) (q : Fin 64) (r : CmdRun) (hs : State.Good FZ PQ s) : OpAnswer.Good FZ PQ (kvReleaseCheck s t q r) := by
  unfold kvReleaseCheck
  repeat' first | with_reducible exact OpAnswer.good_fail _ _ _ | with_reducible exact OpAnswer.good_pass | with_reducible exact OpAnswer.good_hold | with_reducible apply OpAnswer.good_admitted | with_reducible assumption | with_reducible apply kvBad_good | with_reducible apply State.admitKv_good | intro _ | split | dsimp only

theorem execKvRelease_good (t : Fin 4) (q : Fin 64) (s : State) {s' : State} (h : execKvRelease t q s = .next s') (hs : State.Good FZ PQ s) : State.Good FZ PQ s' := by
  unfold execKvRelease at h
  obtain rfl := Host.Outcome.next.inj h
  clear h
  repeat' first | with_reducible assumption | with_reducible apply State.offerRow_good | with_reducible apply kvReleaseCheck_good
  all_goals simp (maxDischargeDepth := 60) +contextual [*]

@[simp] theorem State.putT_good (s : State) (t : Fin 4) (a : Nat) (bs : List Byte) (hs : State.Good FZ PQ s) : State.Good FZ PQ (State.putT s t a bs) := by
  unfold State.putT
  simp [hs]

@[simp] theorem State.setDir_good (s : State) (t : Fin 4) (desc state : Nat) (live : Option Bool) (hs : State.Good FZ PQ s) : State.Good FZ PQ (State.setDir s t desc state live) := by
  unfold State.setDir
  simp [hs]

@[simp] theorem kvCommitDirCheck_good (s : State) (t : Fin 4) (q : Fin 64) (r : CmdRun) (hs : State.Good FZ PQ s) : OpAnswer.Good FZ PQ (kvCommitDirCheck s t q r) := by
  unfold kvCommitDirCheck
  repeat' first | with_reducible exact OpAnswer.good_fail _ _ _ | with_reducible exact OpAnswer.good_pass | with_reducible exact OpAnswer.good_hold | with_reducible apply OpAnswer.good_admitted | with_reducible assumption | with_reducible apply State.putOpSlice_good | with_reducible apply State.stage_good | with_reducible apply kvBad_good | with_reducible apply State.setDir_good | simp only [good_keep, good_time, good_tables] | intro _ | split | dsimp only

theorem execKvCommitDir_good (t : Fin 4) (q : Fin 64) (s : State) {s' : State} (h : execKvCommitDir t q s = .next s') (hs : State.Good FZ PQ s) : State.Good FZ PQ s' := by
  unfold execKvCommitDir at h
  obtain rfl := Host.Outcome.next.inj h
  clear h
  repeat' first | with_reducible assumption | with_reducible apply State.offerRow_good | with_reducible apply kvCommitDirCheck_good
  all_goals simp (maxDischargeDepth := 60) +contextual [*]

@[simp] theorem panBad_good (a : Nat) : OpAnswer.Good FZ PQ (panBad a) := trivial

theorem RangeCheck.then_good (x : RangeCheck) (operand : Nat) (next : OpAnswer) (hn : OpAnswer.Good FZ PQ next) :
    OpAnswer.Good FZ PQ (x.then operand next) := by
  unfold RangeCheck.then
  split
  · exact hn
  all_goals trivial

@[simp] theorem State.writeFresh_good (s : State) (t : Fin 4) (q : Fin 64) (a : Nat) (bs : List Byte) (hs : State.Good FZ PQ s) : State.Good FZ PQ (State.writeFresh s t q a bs) := by
  unfold State.writeFresh
  repeat' split
  all_goals simp [hs]

@[simp] theorem panFillCheck_good (s : State) (t : Fin 4) (q : Fin 64) (r : CmdRun) (hs : State.Good FZ PQ s) : OpAnswer.Good FZ PQ (panFillCheck s t q r) := by
  unfold panFillCheck
  repeat' first | with_reducible exact OpAnswer.good_fail _ _ _ | with_reducible exact OpAnswer.good_pass | with_reducible exact OpAnswer.good_hold | with_reducible apply OpAnswer.good_admitted | with_reducible assumption | with_reducible apply State.claim_good | with_reducible apply RangeCheck.then_good | with_reducible apply panBad_good | intro _ | split | dsimp only

theorem execPanFill_good (t : Fin 4) (q : Fin 64) (s : State) {s' : State} (h : execPanFill t q s = .next s') (hs : State.Good FZ PQ s) : State.Good FZ PQ s' := by
  unfold execPanFill at h
  obtain rfl := Host.Outcome.next.inj h
  clear h
  repeat' first | with_reducible assumption | with_reducible apply State.offerRow_good | with_reducible apply panFillCheck_good
  all_goals simp (maxDischargeDepth := 60) +contextual [*]

@[simp] theorem State.copyIn_good (s : State) (t : Fin 4) (q : Fin 64) (src dst : List Nat) (hs : State.Good FZ PQ s) : State.Good FZ PQ (State.copyIn s t q src dst) := by
  unfold State.copyIn
  repeat' first | with_reducible assumption | with_reducible apply State.copyFrame_good | with_reducible refine good_each ?_ (fun _ _ _ => ?_) | intro _ | split

@[simp] theorem panCopyCheck_good (s : State) (t : Fin 4) (q : Fin 64) (r : CmdRun) (hs : State.Good FZ PQ s) : OpAnswer.Good FZ PQ (panCopyCheck s t q r) := by
  unfold panCopyCheck
  repeat' first | with_reducible exact OpAnswer.good_fail _ _ _ | with_reducible exact OpAnswer.good_pass | with_reducible exact OpAnswer.good_hold | with_reducible apply OpAnswer.good_admitted | with_reducible assumption | with_reducible apply State.claim_good | with_reducible apply RangeCheck.then_good | with_reducible apply State.pinReads_good | with_reducible apply panBad_good | with_reducible apply State.copyIn_good | intro _ | split | dsimp only

theorem execPanCopy_good (t : Fin 4) (q : Fin 64) (s : State) {s' : State} (h : execPanCopy t q s = .next s') (hs : State.Good FZ PQ s) : State.Good FZ PQ s' := by
  unfold execPanCopy at h
  obtain rfl := Host.Outcome.next.inj h
  clear h
  repeat' first | with_reducible assumption | with_reducible apply State.offerRow_good | with_reducible apply panCopyCheck_good
  all_goals simp (maxDischargeDepth := 60) +contextual [*]

@[simp] theorem State.countT2_good (s : State) (t : Fin 4) (a : BitVec 512) (x : Nat × Nat × Nat) (hs : State.Good FZ PQ s) : State.Good FZ PQ (State.countT2 s t a x) := by
  unfold State.countT2
  repeat' first | with_reducible assumption | with_reducible apply State.bump_good | split | dsimp only
  all_goals simp (maxDischargeDepth := 60) +contextual [*]

@[simp] theorem State.convertRowTo_good (s : State) (t : Fin 4) (q : Fin 64) (a d : BitVec 512) (x : Nat × Nat × Nat) (hs : State.Good FZ PQ s) : State.Good FZ PQ (State.convertRowTo s t q a d x) := by
  unfold State.convertRowTo
  repeat' first | with_reducible assumption | with_reducible apply State.countBlocks_good | with_reducible apply State.writeFresh_good | with_reducible apply State.countT2_good | with_reducible apply State.writeFresh_good | with_reducible apply State.countT2_good | intro _ | split | dsimp only
  all_goals simp (maxDischargeDepth := 60) +contextual [*]

@[simp] theorem panConvertCheck_good (s : State) (t : Fin 4) (q : Fin 64) (r : CmdRun) (hs : State.Good FZ PQ s) : OpAnswer.Good FZ PQ (panConvertCheck s t q r) := by
  unfold panConvertCheck
  repeat' first | with_reducible exact OpAnswer.good_fail _ _ _ | with_reducible exact OpAnswer.good_pass | with_reducible exact OpAnswer.good_hold | with_reducible apply OpAnswer.good_admitted | with_reducible assumption | with_reducible apply State.claim_good | with_reducible apply RangeCheck.then_good | with_reducible apply State.pinReads_good | with_reducible apply panBad_good | with_reducible apply State.convertRowTo_good | with_reducible refine good_each ?_ (fun _ _ _ => ?_) | intro _ | split | dsimp only

theorem execPanConvert_good (t : Fin 4) (q : Fin 64) (s : State) {s' : State} (h : execPanConvert t q s = .next s') (hs : State.Good FZ PQ s) : State.Good FZ PQ s' := by
  unfold execPanConvert at h
  obtain rfl := Host.Outcome.next.inj h
  clear h
  repeat' first | with_reducible assumption | with_reducible apply State.offerRow_good | with_reducible apply panConvertCheck_good
  all_goals simp (maxDischargeDepth := 60) +contextual [*]

@[simp] theorem panGatherCheck_good (s : State) (t : Fin 4) (q : Fin 64) (r : CmdRun) (hs : State.Good FZ PQ s) : OpAnswer.Good FZ PQ (panGatherCheck s t q r) := by
  unfold panGatherCheck
  repeat' first | with_reducible exact OpAnswer.good_fail _ _ _ | with_reducible exact OpAnswer.good_pass | with_reducible exact OpAnswer.good_hold | with_reducible apply OpAnswer.good_admitted | with_reducible assumption | with_reducible apply State.claim_good | with_reducible apply RangeCheck.then_good | with_reducible apply State.results_good | with_reducible apply State.pinFrames_good | with_reducible apply panBad_good | with_reducible apply State.writeFresh_good | with_reducible apply panBad_good | with_reducible apply State.writeFresh_good | intro _ | split | dsimp only
  all_goals simp (maxDischargeDepth := 60) +contextual [*]

theorem execPanGather_good (t : Fin 4) (q : Fin 64) (s : State) {s' : State} (h : execPanGather t q s = .next s') (hs : State.Good FZ PQ s) : State.Good FZ PQ s' := by
  unfold execPanGather at h
  obtain rfl := Host.Outcome.next.inj h
  clear h
  repeat' first | with_reducible assumption | with_reducible apply State.offerRow_good | with_reducible apply panGatherCheck_good
  all_goals simp (maxDischargeDepth := 60) +contextual [*]

@[simp] theorem panDigestCheck_good (s : State) (t : Fin 4) (q : Fin 64) (r : CmdRun) (hs : State.Good FZ PQ s) : OpAnswer.Good FZ PQ (panDigestCheck s t q r) := by
  unfold panDigestCheck
  repeat' first | with_reducible exact OpAnswer.good_fail _ _ _ | with_reducible exact OpAnswer.good_pass | with_reducible exact OpAnswer.good_hold | with_reducible apply OpAnswer.good_admitted | with_reducible assumption | with_reducible apply State.claim_good | with_reducible apply RangeCheck.then_good | with_reducible apply State.pinReads_good | with_reducible apply panBad_good | with_reducible apply State.writeFresh_good | intro _ | split | dsimp only

theorem execPanDigest_good (t : Fin 4) (q : Fin 64) (s : State) {s' : State} (h : execPanDigest t q s = .next s') (hs : State.Good FZ PQ s) : State.Good FZ PQ s' := by
  unfold execPanDigest at h
  obtain rfl := Host.Outcome.next.inj h
  clear h
  repeat' first | with_reducible assumption | with_reducible apply State.offerRow_good | with_reducible apply panDigestCheck_good
  all_goals simp (maxDischargeDepth := 60) +contextual [*]

theorem execPanWorkDone_good (t : Fin 4) (q : Fin 64) (s : State) {s' : State} (h : execPanWorkDone t q s = .next s') (hs : State.Good FZ PQ s) : State.Good FZ PQ s' := by
  unfold execPanWorkDone at h
  obtain rfl := Host.Outcome.next.inj h
  clear h
  repeat' first | with_reducible assumption | with_reducible apply State.bump_good | with_reducible apply State.modRun_good | with_reducible apply State.failAt_good | intro _ | split | dsimp only
  all_goals simp (maxDischargeDepth := 60) +contextual [*]

end Sys2Proof.Machine
end

