-- ==== Sys2Proof/Laws/GoodCodecCmd.lean ====
section
/-! SUPPORT. What Machine/CodecCmd.lean keeps: the fuses, the queue, the tick count and the canonical form of memory (State.Good). -/
set_option linter.unusedSimpArgs false

namespace Sys2Proof.Machine

open Sys2Proof

variable {FZ : FuseSt} {PQ : List Instr → Nat → Prop}

@[simp] theorem codecBad_good (a : Nat) : OpAnswer.Good FZ PQ (codecBad a) := trivial

theorem State.withBlock_good (s : State) (t : Fin 4) (r : CmdRun) (code : Nat) (words : List W64 → Option Nat)
    (next : List W64 → OpAnswer) (hn : ∀ ps, OpAnswer.Good FZ PQ (next ps)) :
    OpAnswer.Good FZ PQ (s.withBlock t r code words next) := by
  unfold State.withBlock
  dsimp only
  repeat' split
  all_goals first | trivial | apply hn

theorem State.openCtx_some {s s' : State} {t : Fin 4} {stream : Option Nat} {o : CtxOpen} {buffers : List Buffer}
    {ps : List W64} {n : Nat} (h : s.openCtx t stream o buffers ps = some (n, s')) (hs : State.Good FZ PQ s) :
    State.Good FZ PQ s' := by
  unfold State.openCtx at h
  split at h
  · cases h
    simpa only [good_keep] using hs
  · cases h

@[simp] theorem State.modCodec_good (s : State) (n : Nat) (f : CodecCtx → CodecCtx) (hs : State.Good FZ PQ s) : State.Good FZ PQ (State.modCodec s n f) := by
  unfold State.modCodec
  simp [hs]

@[simp] theorem codecOpenCheck_good (s : State) (t : Fin 4) (q : Fin 64) (r : CmdRun) (hs : State.Good FZ PQ s) : OpAnswer.Good FZ PQ (codecOpenCheck s t q r) := by
  unfold codecOpenCheck
  repeat' first | with_reducible exact OpAnswer.good_fail _ _ _ | with_reducible exact OpAnswer.good_pass | with_reducible exact OpAnswer.good_hold | with_reducible apply OpAnswer.good_admitted | with_reducible assumption | with_reducible apply State.withBlock_good | with_reducible apply State.stage_good | with_reducible apply State.results_good | with_reducible refine State.openCtx_some (by with_reducible assumption) ?_ | intro _ | split | dsimp only

theorem execCodecOpen_good (t : Fin 4) (q : Fin 64) (s : State) {s' : State} (h : execCodecOpen t q s = .next s') (hs : State.Good FZ PQ s) : State.Good FZ PQ s' := by
  unfold execCodecOpen at h
  obtain rfl := Host.Outcome.next.inj h
  clear h
  repeat' first | with_reducible assumption | with_reducible apply State.offerRow_good | with_reducible apply codecOpenCheck_good
  all_goals simp (maxDischargeDepth := 60) +contextual [*]

@[simp] theorem codecCloseCheck_good (s : State) (t : Fin 4) (q : Fin 64) (r : CmdRun) (hs : State.Good FZ PQ s) : OpAnswer.Good FZ PQ (codecCloseCheck s t q r) := by
  unfold codecCloseCheck
  repeat' first | with_reducible exact OpAnswer.good_fail _ _ _ | with_reducible exact OpAnswer.good_pass | with_reducible exact OpAnswer.good_hold | with_reducible apply OpAnswer.good_admitted | with_reducible assumption | with_reducible apply State.stage_good | intro _ | split | dsimp only

theorem execCodecClose_good (t : Fin 4) (q : Fin 64) (s : State) {s' : State} (h : execCodecClose t q s = .next s') (hs : State.Good FZ PQ s) : State.Good FZ PQ s' := by
  unfold execCodecClose at h
  obtain rfl := Host.Outcome.next.inj h
  clear h
  repeat' first | with_reducible assumption | with_reducible apply State.offerRow_good | with_reducible apply codecCloseCheck_good
  all_goals simp (maxDischargeDepth := 60) +contextual [*]

@[simp] theorem State.lazyClaimed_good (s : State) (t : Fin 4) (q : Fin 64) (pages : List Nat) (hs : State.Good FZ PQ s) :
    State.Good FZ PQ (State.lazyClaimed s t q pages) := by
  unfold State.lazyClaimed
  simp [hs]

theorem State.claimLazy_good (s : State) (t : Fin 4) (q : Fin 64) (pages : List Nat) (next : State → OpAnswer)
    (hs : State.Good FZ PQ s) (hf : ∀ s, State.Good FZ PQ s → OpAnswer.Good FZ PQ (next s)) :
    OpAnswer.Good FZ PQ (s.claimLazy t q pages next) := by
  unfold State.claimLazy
  dsimp only
  repeat' split
  all_goals first | trivial | skip
  all_goals exact hf _ (by simp (maxDischargeDepth := 60) [hs])

theorem State.opWrite_some {s s' : State} {t : Fin 4} {q : Fin 64} {a : Nat} {bs : List Byte}
    (h : s.opWrite t q a bs = some s') (hs : State.Good FZ PQ s) : State.Good FZ PQ s' := by
  unfold State.opWrite at h
  dsimp only at h
  split at h
  · cases h; exact hs
  · split at h
    · cases h; exact State.failAt_good _ _ _ _ hs
    · split at h
      · cases h
      · obtain ⟨x, hx, rfl⟩ := Option.map_eq_some_iff.mp h
        have h1 := State.takeFreshes_some hx hs
        simp (maxDischargeDepth := 60) [h1]

@[simp] theorem State.lazyRoom_good (s : State) (hs : State.Good FZ PQ s) : State.Good FZ PQ (State.lazyRoom s) := by
  unfold State.lazyRoom
  repeat' first | with_reducible assumption | with_reducible apply State.roomFor_good | with_reducible refine good_each ?_ (fun _ _ _ => ?_) | intro _ | split | dsimp only
  all_goals simp (maxDischargeDepth := 60) +contextual [*]

theorem State.opWrites_some {s s' : State} {t : Fin 4} {q : Fin 64} {l : List (Nat × List Byte)}
    (h : s.opWrites t q l = some s') (hs : State.Good FZ PQ s) : State.Good FZ PQ s' := by
  induction l generalizing s with
  | nil => cases h; exact hs
  | cons x r ih =>
    obtain ⟨u, hu, h⟩ := Option.bind_eq_some_iff.mp h
    exact ih h (State.opWrite_some hu hs)

@[simp] theorem State.countFrame_good (s : State) (o : DecOut) (hs : State.Good FZ PQ s) : State.Good FZ PQ (State.countFrame s o) := by
  unfold State.countFrame
  simp (maxDischargeDepth := 60) [hs]

theorem State.endDecode_some {s s' : State} {n : Nat} {j : CodecJob} {stop : Nat} (h : s.endDecode n j stop = some s')
    (hs : State.Good FZ PQ s) : State.Good FZ PQ s' := by
  unfold State.endDecode at h
  obtain ⟨u, hu, rfl⟩ := Option.map_eq_some_iff.mp h
  clear h
  have h1 : State.Good FZ PQ u := by
    split at hu
    · cases hu; exact hs
    · exact State.opWrite_some hu hs
  repeat' first | with_reducible assumption | with_reducible apply State.modRun_good | with_reducible apply State.results_good | with_reducible apply State.modCodec_good | with_reducible refine State.opWrite_some (by with_reducible assumption) ?_ | intro _ | split | dsimp only

theorem State.putDecode_some {s s' : State} {n : Nat} {c : CodecCtx} {j : CodecJob} (h : s.putDecode n c j = some s')
    (hs : State.Good FZ PQ s) : State.Good FZ PQ s' := by
  unfold State.putDecode at h
  split at h
  · exact State.endDecode_some h hs
  · cases h
    exact State.modCodec_good _ _ _ hs

@[simp] theorem codecDecodeCheck_good (s : State) (t : Fin 4) (q : Fin 64) (r : CmdRun) (hs : State.Good FZ PQ s) : OpAnswer.Good FZ PQ (codecDecodeCheck s t q r) := by
  unfold codecDecodeCheck
  repeat' first | with_reducible exact OpAnswer.good_fail _ _ _ | with_reducible exact OpAnswer.good_pass | with_reducible exact OpAnswer.good_hold | with_reducible apply OpAnswer.good_admitted | with_reducible assumption | with_reducible apply State.claimLazy_good | with_reducible apply State.withBlock_good | with_reducible apply State.stage_good | with_reducible apply State.pinReads_good | with_reducible refine State.putDecode_some (by with_reducible assumption) ?_ | intro _ | split | dsimp only

theorem execCodecDecode_good (t : Fin 4) (q : Fin 64) (s : State) {s' : State} (h : execCodecDecode t q s = .next s') (hs : State.Good FZ PQ s) : State.Good FZ PQ s' := by
  unfold execCodecDecode at h
  obtain rfl := Host.Outcome.next.inj h
  clear h
  repeat' first | with_reducible assumption | with_reducible apply State.offerRow_good | with_reducible apply codecDecodeCheck_good
  all_goals simp (maxDischargeDepth := 60) +contextual [*]

theorem State.decodeNext_some {s s' : State} {n : Nat} {c : CodecCtx} {j : CodecJob} (h : s.decodeNext n c j = some s')
    (hs : State.Good FZ PQ s) : State.Good FZ PQ s' := by
  unfold State.decodeNext at h
  obtain ⟨u, hu, h⟩ := Option.bind_eq_some_iff.mp h
  exact State.putDecode_some h (State.countFrame_good _ _ (State.opWrites_some hu hs))

@[simp] theorem codecEncodeCheck_good (s : State) (t : Fin 4) (q : Fin 64) (r : CmdRun) (hs : State.Good FZ PQ s) : OpAnswer.Good FZ PQ (codecEncodeCheck s t q r) := by
  unfold codecEncodeCheck
  repeat' first | with_reducible exact OpAnswer.good_fail _ _ _ | with_reducible exact OpAnswer.good_pass | with_reducible exact OpAnswer.good_hold | with_reducible apply OpAnswer.good_admitted | with_reducible assumption | with_reducible apply State.claimLazy_good | with_reducible apply State.withBlock_good | with_reducible apply State.stage_good | with_reducible apply State.pinReads_good | with_reducible apply codecBad_good | with_reducible apply State.modCodec_good | intro _ | split | dsimp only

theorem execCodecEncode_good (t : Fin 4) (q : Fin 64) (s : State) {s' : State} (h : execCodecEncode t q s = .next s') (hs : State.Good FZ PQ s) : State.Good FZ PQ s' := by
  unfold execCodecEncode at h
  obtain rfl := Host.Outcome.next.inj h
  clear h
  repeat' first | with_reducible assumption | with_reducible apply State.offerRow_good | with_reducible apply codecEncodeCheck_good
  all_goals simp (maxDischargeDepth := 60) +contextual [*]

@[simp] theorem State.endEncode_good (s : State) (n : Nat) (j : CodecJob) (stop : Nat) (hs : State.Good FZ PQ s) : State.Good FZ PQ (State.endEncode s n j stop) := by
  unfold State.endEncode
  simp (maxDischargeDepth := 60) [hs]

theorem State.encodeNext_some {s s' : State} {n : Nat} {c : CodecCtx} {j : CodecJob} (h : s.encodeNext n c j = some s')
    (hs : State.Good FZ PQ s) : State.Good FZ PQ s' := by
  unfold State.encodeNext at h
  extract_lets at h
  split at h
  · cases h
    repeat' first | with_reducible assumption | with_reducible apply State.bump_good | with_reducible apply State.modCodec_good | with_reducible apply State.endEncode_good | with_reducible refine State.opWrites_some (by with_reducible assumption) ?_ | intro _ | split | dsimp only
  · split at h
    · cases h
      repeat' first | with_reducible assumption | with_reducible apply State.bump_good | with_reducible apply State.modCodec_good | with_reducible apply State.endEncode_good | with_reducible refine State.opWrites_some (by with_reducible assumption) ?_ | intro _ | split | dsimp only
    · obtain ⟨u, hu, rfl⟩ := Option.map_eq_some_iff.mp h
      have h1 := State.opWrites_some hu hs
      clear h hu
      repeat' first | with_reducible assumption | with_reducible apply State.bump_good | with_reducible apply State.modCodec_good | with_reducible apply State.endEncode_good | with_reducible refine State.opWrites_some (by with_reducible assumption) ?_ | intro _ | split | dsimp only

end Sys2Proof.Machine
end

