-- ==== Sys2Proof/Laws/GoodIngestCmd.lean ====
section
/-! SUPPORT. What Machine/IngestCmd.lean keeps: the fuses, the queue, the tick count and the canonical form of memory (State.Good). -/
set_option linter.unusedSimpArgs false

namespace Sys2Proof.Machine

open Sys2Proof

variable {FZ : FuseSt} {PQ : List Instr → Nat → Prop}

@[simp] theorem State.modStream_good (s : State) (n : Nat) (f : Stream → Stream) (hs : State.Good FZ PQ s) : State.Good FZ PQ (State.modStream s n f) := by
  unfold State.modStream
  simp [hs]

@[simp] theorem State.modBatch_good (s : State) (n : Nat) (f : Batch → Batch) (hs : State.Good FZ PQ s) : State.Good FZ PQ (State.modBatch s n f) := by
  unfold State.modBatch
  simp [hs]

@[simp] theorem State.modSample_good (s : State) (n pos : Nat) (f : Sample → Sample) (hs : State.Good FZ PQ s) : State.Good FZ PQ (State.modSample s n pos f) := by
  unfold State.modSample
  simp [hs]

theorem State.streamCtx_some {s s' : State} {t : Fin 4} {n : Nat} {coded : Bool} {buffers : List Buffer} {ps : List W64}
    {c : Option Nat} (h : s.streamCtx t n coded buffers ps = some (c, s')) (hs : State.Good FZ PQ s) :
    State.Good FZ PQ s' := by
  unfold State.streamCtx at h
  split at h
  · obtain ⟨x, hx, h⟩ := Option.map_eq_some_iff.mp h
    cases h
    exact State.openCtx_some hx hs
  · cases h; exact hs

@[simp] theorem ingestOpenCheck_good (s : State) (t : Fin 4) (q : Fin 64) (r : CmdRun) (hs : State.Good FZ PQ s) : OpAnswer.Good FZ PQ (ingestOpenCheck s t q r) := by
  unfold ingestOpenCheck
  repeat' first | with_reducible exact OpAnswer.good_fail _ _ _ | with_reducible exact OpAnswer.good_pass | with_reducible exact OpAnswer.good_hold | with_reducible apply OpAnswer.good_admitted | with_reducible assumption | with_reducible apply State.withBlock_good | with_reducible apply State.roomFor_good | with_reducible apply State.stage_good | with_reducible apply State.results_good | with_reducible refine State.takeSave_some (by with_reducible assumption) ?_ | with_reducible refine State.streamCtx_some (by with_reducible assumption) ?_ | simp only [good_keep, good_time] | intro _ | split | dsimp only

theorem execIngestOpen_good (t : Fin 4) (q : Fin 64) (s : State) {s' : State} (h : execIngestOpen t q s = .next s') (hs : State.Good FZ PQ s) : State.Good FZ PQ s' := by
  unfold execIngestOpen at h
  obtain rfl := Host.Outcome.next.inj h
  clear h
  repeat' first | with_reducible assumption | with_reducible apply State.offerRow_good | with_reducible apply ingestOpenCheck_good
  all_goals simp (maxDischargeDepth := 60) +contextual [*]

@[simp] theorem ingestCloseCheck_good (s : State) (t : Fin 4) (q : Fin 64) (r : CmdRun) (hs : State.Good FZ PQ s) : OpAnswer.Good FZ PQ (ingestCloseCheck s t q r) := by
  unfold ingestCloseCheck
  repeat' first | with_reducible exact OpAnswer.good_fail _ _ _ | with_reducible exact OpAnswer.good_pass | with_reducible exact OpAnswer.good_hold | with_reducible apply OpAnswer.good_admitted | with_reducible assumption | with_reducible apply State.stage_good | intro _ | split | dsimp only

theorem execIngestClose_good (t : Fin 4) (q : Fin 64) (s : State) {s' : State} (h : execIngestClose t q s = .next s') (hs : State.Good FZ PQ s) : State.Good FZ PQ s' := by
  unfold execIngestClose at h
  obtain rfl := Host.Outcome.next.inj h
  clear h
  repeat' first | with_reducible assumption | with_reducible apply State.offerRow_good | with_reducible apply ingestCloseCheck_good
  all_goals simp (maxDischargeDepth := 60) +contextual [*]

@[simp] theorem State.showStream_good (s : State) (n : Nat) (hs : State.Good FZ PQ s) : State.Good FZ PQ (State.showStream s n) := by
  unfold State.showStream
  repeat' first | with_reducible assumption | with_reducible apply State.modStream_good | with_reducible apply State.modCodec_good | with_reducible apply State.modStream_good | simp only [good_keep, good_time] | intro _ | split | dsimp only
  all_goals simp (maxDischargeDepth := 60) +contextual [*]

@[simp] theorem State.closeStream_good (s : State) (n : Nat) (hs : State.Good FZ PQ s) : State.Good FZ PQ (State.closeStream s n) := by
  unfold State.closeStream
  repeat' first | with_reducible assumption | with_reducible apply State.freeFrame_good | with_reducible refine good_each ?_ (fun _ _ _ => ?_) | simp only [good_keep, good_time] | split | dsimp only

@[simp] theorem State.precheck_good (s : State) (n : Nat) (x : Stream) (y : Sample) (hs : State.Good FZ PQ s) : State.Good FZ PQ (State.precheck s n x y) := by
  unfold State.precheck
  repeat' split
  all_goals simp [hs]

@[simp] theorem State.failBatch_good (s : State) (b : Batch) (code address : Nat) (hs : State.Good FZ PQ s) : State.Good FZ PQ (State.failBatch s b code address) := by
  unfold State.failBatch
  simp [hs]

@[simp] theorem State.decideSlot_good (s : State) (n : Nat) (b : Batch) (j reason : Nat) (f : SlotSt → SlotSt) (hs : State.Good FZ PQ s) : State.Good FZ PQ (State.decideSlot s n b j reason f) := by
  unfold State.decideSlot
  simp [hs]

@[simp] theorem State.settle_good (s : State) (n : Nat) (hs : State.Good FZ PQ s) : State.Good FZ PQ (State.settle s n) := by
  unfold State.settle
  repeat' first | with_reducible assumption | with_reducible apply State.precheck_good | with_reducible apply State.decideSlot_good | with_reducible refine good_each ?_ (fun _ _ _ => ?_) | simp only [good_keep, good_time] | intro _ | split | dsimp only

@[simp] theorem State.writeBatch_good (s : State) (n : Nat) (hs : State.Good FZ PQ s) : State.Good FZ PQ (State.writeBatch s n) := by
  unfold State.writeBatch
  repeat' first | with_reducible assumption | with_reducible apply State.bump_good | with_reducible apply State.modRun_good | with_reducible apply State.results_good | with_reducible apply State.modBatch_good | with_reducible refine State.opWrites_some (by with_reducible assumption) ?_ | with_reducible refine good_each ?_ (fun _ _ _ => ?_) | intro _ | split | dsimp only

@[simp] theorem State.advanceBatch_good (s : State) (n : Nat) (hs : State.Good FZ PQ s) : State.Good FZ PQ (State.advanceBatch s n) := by
  unfold State.advanceBatch
  simp [hs]

@[simp] theorem ingestBatchCheck_good (s : State) (t : Fin 4) (q : Fin 64) (r : CmdRun) (hs : State.Good FZ PQ s) : OpAnswer.Good FZ PQ (ingestBatchCheck s t q r) := by
  unfold ingestBatchCheck
  repeat' first | with_reducible exact OpAnswer.good_fail _ _ _ | with_reducible exact OpAnswer.good_pass | with_reducible exact OpAnswer.good_hold | with_reducible apply OpAnswer.good_admitted | with_reducible assumption | with_reducible apply State.claimLazy_good | with_reducible apply State.withBlock_good | with_reducible apply State.modStream_good | with_reducible apply State.advanceBatch_good | with_reducible apply State.stage_good | with_reducible apply State.pinReads_good | with_reducible apply State.modCodec_good | with_reducible apply State.modStream_good | with_reducible apply State.advanceBatch_good | intro _ | split | dsimp only
  all_goals simp (maxDischargeDepth := 60) +contextual [*]

@[simp] theorem State.giveList_good (s : State) (t : Fin 4) (q : Fin 64) (l : List (List W64)) (hs : State.Good FZ PQ s) : State.Good FZ PQ (State.giveList s t q l) := by
  unfold State.giveList
  repeat' first | with_reducible assumption | with_reducible apply State.modBatch_good | with_reducible apply State.failBatch_good | simp only [good_keep, good_time] | intro _ | split | dsimp only

theorem execIngestBatch_good (t : Fin 4) (q : Fin 64) (hostList : List (List W64)) (s : State) {s' : State} (h : execIngestBatch t q hostList s = .next s') (hs : State.Good FZ PQ s) : State.Good FZ PQ s' := by
  unfold execIngestBatch at h
  obtain rfl := Host.Outcome.next.inj h
  clear h
  repeat' first | with_reducible assumption | with_reducible apply State.offerRow_good | with_reducible apply ingestBatchCheck_good | with_reducible apply State.giveList_good
  all_goals simp (maxDischargeDepth := 60) +contextual [*]

theorem execHostSampleReadDone_good (stream : Fin 16) (slot : Nat) (bytes : Option (List Byte)) (s : State) {s' : State} (h : execHostSampleReadDone stream slot bytes s = .next s') (hs : State.Good FZ PQ s) : State.Good FZ PQ s' := by
  unfold execHostSampleReadDone at h
  obtain rfl := Host.Outcome.next.inj h
  clear h
  repeat' split
  all_goals simp [hs]

theorem execIngestDatagram_good (port : Fin 3) (datagram : List Byte) (s : State) {s' : State} (h : execIngestDatagram port datagram s = .next s') (hs : State.Good FZ PQ s) : State.Good FZ PQ s' := by
  unfold execIngestDatagram at h
  obtain rfl := Host.Outcome.next.inj h
  clear h
  repeat' first | with_reducible assumption | with_reducible apply State.bump_good | with_reducible apply State.complete_good | with_reducible apply State.modStream_good | with_reducible apply State.advanceBatch_good | intro _ | split | dsimp only

theorem State.ingestFrame_some {s s' : State} {n cn : Nat} {x : Stream} {c : CodecCtx} {j : CodecJob} {pos : Nat}
    (h : s.ingestFrame n cn x c j pos = some s') (hs : State.Good FZ PQ s) : State.Good FZ PQ s' := by
  unfold State.ingestFrame at h
  split at h
  · cases h; exact hs
  · extract_lets at h
    split at h
    · cases h
      repeat' first | with_reducible assumption | with_reducible apply State.modCodec_good | with_reducible apply State.countFrame_good | with_reducible apply State.modSample_good | with_reducible refine State.opWrites_some (by with_reducible assumption) ?_ | intro _ | split | dsimp only
    · obtain ⟨u, hu, rfl⟩ := Option.map_eq_some_iff.mp h
      have h1 := State.opWrites_some hu hs
      clear h hu
      repeat' first | with_reducible assumption | with_reducible apply State.modCodec_good | with_reducible apply State.countFrame_good | with_reducible apply State.modSample_good | with_reducible refine State.opWrites_some (by with_reducible assumption) ?_ | intro _ | split | dsimp only

theorem State.serve_some {s s' : State} {cn : Nat} {c : CodecCtx} (h : s.serve cn c = some s')
    (hs : State.Good FZ PQ s) : State.Good FZ PQ s' := by
  unfold State.serve at h
  split at h
  · cases h
  · split at h
    · split at h
      · cases h
      · split at h
        · cases h
        · obtain ⟨u, hu, rfl⟩ := Option.map_eq_some_iff.mp h
          exact State.advanceBatch_good _ _ (State.ingestFrame_some hu hs)
    · split at h
      · exact State.encodeNext_some h hs
      · exact State.decodeNext_some h hs

theorem execCodecFrameDone_good (unit : UnitKind) (engine : Fin 4) (s : State) {s' : State} (h : execCodecFrameDone unit engine s = .next s') (hs : State.Good FZ PQ s) : State.Good FZ PQ s' := by
  unfold execCodecFrameDone at h
  obtain rfl := Host.Outcome.next.inj h
  clear h
  repeat' first | with_reducible assumption | with_reducible refine State.serve_some (by with_reducible assumption) ?_ | simp only [good_keep, good_time] | split | dsimp only

theorem execDecodeBudgetExpiry_good (stream : Fin 16) (s : State) {s' : State} (h : execDecodeBudgetExpiry stream s = .next s') (hs : State.Good FZ PQ s) : State.Good FZ PQ s' := by
  unfold execDecodeBudgetExpiry at h
  obtain rfl := Host.Outcome.next.inj h
  clear h
  repeat' split
  all_goals simp [hs]

@[simp] theorem State.arrivalWait_good (s : State) (n : Nat) (hs : State.Good FZ PQ s) : State.Good FZ PQ (State.arrivalWait s n) := by
  unfold State.arrivalWait
  repeat' first | with_reducible assumption | with_reducible apply State.complete_good | with_reducible apply State.failBatch_good | with_reducible apply State.decideSlot_good | with_reducible apply State.writeBatch_good | with_reducible refine good_each ?_ (fun _ _ _ => ?_) | simp only [good_keep, good_time] | intro _ | split | dsimp only

theorem State.liveTake_some {s s' : State} {n : Nat} (h : s.liveTake n = some s') (hs : State.Good FZ PQ s) :
    State.Good FZ PQ s' := by
  unfold State.liveTake at h
  dsimp only at h
  repeat' split at h
  all_goals first | (cases h; done) | (cases h; simp (maxDischargeDepth := 60) [hs])

@[simp] theorem State.liveTakes_good (s : State) (n k : Nat) (hs : State.Good FZ PQ s) :
    State.Good FZ PQ (s.liveTakes n k) := by
  induction k generalizing s with
  | zero => exact hs
  | succ k ih =>
    unfold State.liveTakes
    split
    · exact ih _ (State.liveTake_some ‹_› hs)
    · exact hs

@[simp] theorem State.streamBoundary_good (s : State) (n : Nat) (hs : State.Good FZ PQ s) : State.Good FZ PQ (State.streamBoundary s n) := by
  unfold State.streamBoundary
  repeat' first | with_reducible assumption | with_reducible apply State.liveTakes_good | with_reducible apply State.precheck_good | with_reducible apply State.advanceBatch_good | with_reducible apply State.arrivalWait_good | with_reducible refine good_each ?_ (fun _ _ _ => ?_) | intro _ | split | dsimp only

theorem execArrivalWaitExpiry_good (stream : Fin 16) (s : State) {s' : State} (h : execArrivalWaitExpiry stream s = .next s') (hs : State.Good FZ PQ s) : State.Good FZ PQ s' := by
  unfold execArrivalWaitExpiry at h
  obtain rfl := Host.Outcome.next.inj h
  clear h
  simp [hs]

@[simp] theorem State.commitIngest_good (s : State) (n : Nat) (hs : State.Good FZ PQ s) : State.Good FZ PQ (State.commitIngest s n) := by
  unfold State.commitIngest
  repeat' first | with_reducible assumption | with_reducible apply State.modStream_good | with_reducible apply State.modCodec_good | with_reducible apply State.modStream_good | simp only [good_keep, good_time] | intro _ | split | dsimp only
  all_goals simp (maxDischargeDepth := 60) +contextual [*]

@[simp] theorem State.dropBatch_good (s : State) (n : Nat) (hs : State.Good FZ PQ s) : State.Good FZ PQ (State.dropBatch s n) := by
  unfold State.dropBatch
  repeat' split
  all_goals simp [hs]

end Sys2Proof.Machine
end

