-- ==== Sys2Proof/Laws/GoodRelease.lean ====
section
/-! SUPPORT. What Machine/Release.lean keeps: the fuses, the queue, the tick count and the canonical form of memory (State.Good). -/
set_option linter.unusedSimpArgs false

namespace Sys2Proof.Machine

open Sys2Proof

variable {FZ : FuseSt} {PQ : List Instr → Nat → Prop}

@[simp] theorem State.releaseFresh_good (s : State) (l : List FreshPage) (hs : State.Good FZ PQ s) : State.Good FZ PQ (State.releaseFresh s l) := by
  unfold State.releaseFresh
  repeat' first | with_reducible assumption | with_reducible apply State.freeFrame_good | with_reducible apply State.dropShadow_good | with_reducible refine good_each ?_ (fun _ _ _ => ?_) | intro _

@[simp] theorem State.releaseKv_good (s : State) (l : List KvTaken) (hs : State.Good FZ PQ s) : State.Good FZ PQ (State.releaseKv s l) := by
  unfold State.releaseKv
  repeat' first | with_reducible assumption | with_reducible apply State.dropKv_good | with_reducible refine good_each ?_ (fun _ _ _ => ?_) | intro _

@[simp] theorem State.releaseWork_good (s : State) (ref : SliceRef) (hs : State.Good FZ PQ s) : State.Good FZ PQ (State.releaseWork s ref) := by
  unfold State.releaseWork
  repeat' first | with_reducible assumption | with_reducible apply State.modRun_good | with_reducible apply State.modSlice_good | with_reducible apply State.dropStrands_good | with_reducible apply State.freeFrame_good | with_reducible apply State.dropShadow_good | with_reducible apply State.releaseFresh_good | with_reducible apply State.releaseKv_good | with_reducible apply State.releaseFresh_good | with_reducible apply State.releaseKv_good | with_reducible refine good_each ?_ (fun _ _ _ => ?_) | intro _ | split | dsimp only
  all_goals simp (maxDischargeDepth := 60) +contextual [*]

@[simp] theorem State.releaseSlice_good (s : State) (ref : SliceRef) (hs : State.Good FZ PQ s) : State.Good FZ PQ (State.releaseSlice s ref) := by
  unfold State.releaseSlice
  repeat' first | with_reducible assumption | with_reducible apply State.modSlice_good | with_reducible apply State.freeFrame_good | with_reducible apply State.releaseWork_good | with_reducible apply State.releaseWork_good | with_reducible refine good_each ?_ (fun _ _ _ => ?_) | dsimp only
  all_goals simp (maxDischargeDepth := 60) +contextual [*]

@[simp] theorem State.releaseRun_good (s : State) (t : Fin 4) (q : Fin 64) (hs : State.Good FZ PQ s) : State.Good FZ PQ (State.releaseRun s t q) := by
  unfold State.releaseRun
  repeat' first | with_reducible assumption | with_reducible apply State.modRun_good | with_reducible apply State.freeFrame_good | with_reducible apply State.dropShadow_good | with_reducible apply State.releaseFresh_good | with_reducible apply State.releaseSlice_good | with_reducible refine good_each ?_ (fun _ _ _ => ?_) | simp only [good_keep, good_time] | intro _ | split | dsimp only

end Sys2Proof.Machine
end

