-- ==== Sys2Proof/Laws/GoodCollCmd.lean ====
section
/-! SUPPORT. What Machine/CollCmd.lean keeps: the fuses, the queue, the tick count and the canonical form of memory (State.Good). -/
set_option linter.unusedSimpArgs false

namespace Sys2Proof.Machine

open Sys2Proof

variable {FZ : FuseSt} {PQ : List Instr → Nat → Prop}

@[simp] theorem State.offerColl_good (s : State) (t : Fin 4) (q : Fin 64) (hs : State.Good FZ PQ s) : State.Good FZ PQ (State.offerColl s t q) := by
  unfold State.offerColl
  repeat' first | with_reducible assumption | with_reducible apply State.modRun_good | with_reducible apply State.failAt_good | with_reducible apply State.begin_good | with_reducible apply State.setColl_good | intro _ | split | dsimp only

@[simp] theorem State.collHeadCheck_good (s : State) (t : Fin 4) (q : Fin 64) (hs : State.Good FZ PQ s) : State.Good FZ PQ (State.collHeadCheck s t q) := by
  unfold State.collHeadCheck
  repeat' split
  all_goals simp [hs]

theorem execCollective_good (t : Fin 4) (q : Fin 64) (s : State) {s' : State} (h : execCollective t q s = .next s') (hs : State.Good FZ PQ s) : State.Good FZ PQ s' := by
  unfold execCollective at h
  repeat' split at h
  all_goals simp only [Host.Outcome.next.injEq, reduceCtorEq] at h
  all_goals subst h
  repeat' split
  all_goals simp [hs]

@[simp] theorem State.ringVerdict_good (s : State) (g : Nat) (hs : State.Good FZ PQ s) : State.Good FZ PQ (State.ringVerdict s g) := by
  unfold State.ringVerdict
  repeat' split
  all_goals simp [hs]

@[simp] theorem State.dropRing_good (s : State) (c : Coll) (r : RingRun) (hs : State.Good FZ PQ s) : State.Good FZ PQ (State.dropRing s c r) := by
  unfold State.dropRing
  repeat' split
  all_goals simp [hs]

@[simp] theorem State.ringShift_good (s : State) (g : Nat) (hs : State.Good FZ PQ s) : State.Good FZ PQ (State.ringShift s g) := by
  unfold State.ringShift
  repeat' first | with_reducible assumption | with_reducible apply State.modSlice_good | with_reducible apply State.modColl_good | with_reducible apply State.sendWave_good | with_reducible apply State.wave_good | with_reducible apply State.dropRing_good | simp only [good_keep, good_time] | intro _ | split | dsimp only

@[simp] theorem State.ringCommit_good (s : State) (g : Nat) (c : Coll) (r : RingRun) (hs : State.Good FZ PQ s) : State.Good FZ PQ (State.ringCommit s g c r) := by
  unfold State.ringCommit
  repeat' split
  all_goals simp [hs]

@[simp] theorem State.ringAbort_good (s : State) (g : Nat) (c : Coll) (r : RingRun) (first : Nat) (hs : State.Good FZ PQ s) : State.Good FZ PQ (State.ringAbort s g c r first) := by
  unfold State.ringAbort
  repeat' first | with_reducible assumption | with_reducible apply State.modColl_good | with_reducible apply State.dropRing_good | intro _ | split | dsimp only

@[simp] theorem State.ringFail_good (s : State) (g : Nat) (c : Coll) (r : RingRun) (code member : Nat) (hs : State.Good FZ PQ s) : State.Good FZ PQ (State.ringFail s g c r code member) := by
  unfold State.ringFail
  repeat' first | with_reducible assumption | with_reducible apply State.modColl_good | with_reducible apply State.dropRing_good | intro _ | split | dsimp only

@[simp] theorem State.ringApply_good (s : State) (g : Nat) (hs : State.Good FZ PQ s) : State.Good FZ PQ (State.ringApply s g) := by
  unfold State.ringApply
  repeat' split
  all_goals simp [hs]

@[simp] theorem State.ringStep2_good (s : State) (g : Nat) (hs : State.Good FZ PQ s) : State.Good FZ PQ (State.ringStep2 s g) := by
  unfold State.ringStep2
  simp (maxDischargeDepth := 60) [hs]

@[simp] theorem State.dropCredits_good (s : State) (g : Nat) (hs : State.Good FZ PQ s) : State.Good FZ PQ (State.dropCredits s g) := by
  unfold State.dropCredits
  repeat' first | with_reducible assumption | with_reducible apply State.modL_good | with_reducible refine good_each ?_ (fun _ _ _ => ?_) | intro _ | dsimp only

@[simp] theorem State.removeColl_good (s : State) (g : Nat) (hs : State.Good FZ PQ s) : State.Good FZ PQ (State.removeColl s g) := by
  unfold State.removeColl
  simp [hs]

@[simp] theorem State.advanceSeq_good (s : State) (g : Nat) (hs : State.Good FZ PQ s) : State.Good FZ PQ (State.advanceSeq s g) := by
  unfold State.advanceSeq
  simp [hs]

@[simp] theorem State.endColl_good (s : State) (g : Nat) (hs : State.Good FZ PQ s) : State.Good FZ PQ (State.endColl s g) := by
  unfold State.endColl
  repeat' first | with_reducible assumption | with_reducible apply State.modColl_good | with_reducible apply State.dropRing_good | with_reducible apply State.removeColl_good | with_reducible apply State.advanceSeq_good | intro _ | split | dsimp only

@[simp] theorem State.ringTail_good (s : State) (g : Nat) (hs : State.Good FZ PQ s) : State.Good FZ PQ (State.ringTail s g) := by
  unfold State.ringTail
  repeat' split
  all_goals simp [hs]

@[simp] theorem State.routeCheck_good (s : State) (g : Nat) (hs : State.Good FZ PQ s) : State.Good FZ PQ (State.routeCheck s g) := by
  unfold State.routeCheck
  repeat' split
  all_goals simp [hs]

@[simp] theorem State.grantSlot_good (s : State) (g : Nat) (c : Coll) (hs : State.Good FZ PQ s) : State.Good FZ PQ (State.grantSlot s g c) := by
  unfold State.grantSlot
  repeat' first | with_reducible assumption | with_reducible apply State.modL_good | with_reducible apply State.sendAll_good | with_reducible refine good_each ?_ (fun _ _ _ => ?_) | intro _ | split | dsimp only

@[simp] theorem State.giveSlot_good (s : State) (g : Nat) (hs : State.Good FZ PQ s) : State.Good FZ PQ (State.giveSlot s g) := by
  unfold State.giveSlot
  repeat' first | with_reducible assumption | with_reducible apply State.modColl_good | with_reducible apply State.sendReady_good | with_reducible apply State.passReady_good | with_reducible apply State.grantSlot_good | intro _ | split | dsimp only

@[simp] theorem State.giveSlots_good (s : State) (hs : State.Good FZ PQ s) : State.Good FZ PQ (State.giveSlots s) := by
  unfold State.giveSlots
  repeat' first | with_reducible assumption | with_reducible apply State.modColl_good | with_reducible apply State.dropCredits_good | with_reducible apply State.giveSlot_good | with_reducible refine good_each ?_ (fun _ _ _ => ?_) | intro _ | split | dsimp only

@[simp] theorem State.takeImageCells_good (s : State) (g : Nat) (c : Coll) (hs : State.Good FZ PQ s) : State.Good FZ PQ (State.takeImageCells s g c) := by
  unfold State.takeImageCells
  repeat' first | with_reducible assumption | with_reducible apply State.bump_good | with_reducible apply State.modColl_good | simp only [good_keep, good_time, good_tables] | intro _ | split | dsimp only

@[simp] theorem State.startPieces_good (s : State) (g : Nat) (hs : State.Good FZ PQ s) : State.Good FZ PQ (State.startPieces s g) := by
  unfold State.startPieces
  repeat' first | with_reducible assumption | with_reducible apply State.modColl_good | intro _ | split
  all_goals simp (maxDischargeDepth := 60) +contextual [*]

@[simp] theorem State.admitStep_good (s : State) (barred : Bool) (g : Nat) (hs : State.Good FZ PQ s) : State.Good FZ PQ (State.admitStep s barred g) := by
  unfold State.admitStep
  repeat' first | with_reducible assumption | with_reducible apply State.modRun_good | with_reducible apply State.modColl_good | with_reducible apply State.takeImageCells_good | with_reducible refine State.tryAdmit_some (by with_reducible assumption) ?_ | simp only [good_keep, good_time] | intro _ | split | dsimp only

@[simp] theorem State.admitRings_good (s : State) (barred : Bool) (hs : State.Good FZ PQ s) : State.Good FZ PQ (State.admitRings s barred) := by
  unfold State.admitRings
  repeat' first | with_reducible assumption | with_reducible apply State.startPieces_good | with_reducible apply State.admitStep_good | with_reducible apply State.startPieces_good | with_reducible apply State.admitStep_good | with_reducible refine good_each ?_ (fun _ _ _ => ?_) | intro _
  all_goals simp (maxDischargeDepth := 60) +contextual [*]

@[simp] theorem State.startRings_good (s : State) (hs : State.Good FZ PQ s) : State.Good FZ PQ (State.startRings s) := by
  unfold State.startRings
  repeat' first | with_reducible assumption | with_reducible apply State.sendChunk_good | with_reducible refine good_each ?_ (fun _ _ _ => ?_) | intro _ | split

@[simp] theorem State.foldImages_good (s : State) (g : Nat) (hs : State.Good FZ PQ s) : State.Good FZ PQ (State.foldImages s g) := by
  unfold State.foldImages
  repeat' first | with_reducible assumption | with_reducible apply State.foldCell_good | with_reducible apply State.modColl_good | with_reducible apply State.makeRoom_good | with_reducible refine State.takePrepared_some (by with_reducible assumption) ?_ | with_reducible refine good_each ?_ (fun _ _ _ => ?_) | intro _ | split | dsimp only
  all_goals simp (maxDischargeDepth := 60) +contextual [*]

@[simp] theorem State.statsReady_good (s : State) (g : Nat) (hs : State.Good FZ PQ s) : State.Good FZ PQ (State.statsReady s g) := by
  unfold State.statsReady
  repeat' split
  all_goals simp [hs]

end Sys2Proof.Machine
end

