-- ==== Sys2Proof/Laws/GoodRecordCmd.lean ====
section
/-! SUPPORT. What Machine/RecordCmd.lean keeps: the fuses, the queue, the tick count and the canonical form of memory (State.Good). -/
set_option linter.unusedSimpArgs false

namespace Sys2Proof.Machine

open Sys2Proof

variable {FZ : FuseSt} {PQ : List Instr → Nat → Prop}

@[simp] theorem State.sign_good (s : State) (m : List Byte) (hs : State.Good FZ PQ s) : State.Good FZ PQ (State.sign s m).2 := by
  unfold State.sign
  simp [hs]

theorem State.sign_some {s : State} {m : List Byte} {x0 : List Byte} {s' : State} (he : State.sign s m = (x0, s')) (hs : State.Good FZ PQ s) : State.Good FZ PQ s' := by
  have hg := State.sign_good s m hs
  rw [he] at hg
  exact hg

@[simp] theorem State.report_good (s : State) (tenancy : Nat) (nonce : List Byte) (hs : State.Good FZ PQ s) : State.Good FZ PQ (State.report s tenancy nonce).2 := by
  unfold State.report
  simp [hs]

theorem State.report_some {s : State} {tenancy : Nat} {nonce : List Byte} {x0 : List Byte} {s' : State} (he : State.report s tenancy nonce = (x0, s')) (hs : State.Good FZ PQ s) : State.Good FZ PQ s' := by
  have hg := State.report_good s tenancy nonce hs
  rw [he] at hg
  exact hg

@[simp] theorem recBad_good (a : Nat) : OpAnswer.Good FZ PQ (recBad a) := trivial

@[simp] theorem recordOpenCheck_good (s : State) (t : Fin 4) (q : Fin 64) (r : CmdRun) (hs : State.Good FZ PQ s) : OpAnswer.Good FZ PQ (recordOpenCheck s t q r) := by
  unfold recordOpenCheck
  repeat' first | with_reducible exact OpAnswer.good_fail _ _ _ | with_reducible exact OpAnswer.good_pass | with_reducible exact OpAnswer.good_hold | with_reducible apply OpAnswer.good_admitted | with_reducible assumption | with_reducible apply State.claim_good | with_reducible apply State.stage_good | with_reducible apply State.results_good | with_reducible apply State.pinReads_good | with_reducible apply State.writeFresh_good | with_reducible apply State.report_good | with_reducible apply recBad_good | with_reducible refine State.report_some (by with_reducible assumption) ?_ | intro _ | split | dsimp only

theorem execRecordOpen_good (t : Fin 4) (q : Fin 64) (s : State) {s' : State} (h : execRecordOpen t q s = .next s') (hs : State.Good FZ PQ s) : State.Good FZ PQ s' := by
  unfold execRecordOpen at h
  obtain rfl := Host.Outcome.next.inj h
  clear h
  repeat' first | with_reducible assumption | with_reducible apply State.offerRow_good | with_reducible apply recordOpenCheck_good
  all_goals simp (maxDischargeDepth := 60) +contextual [*]

@[simp] theorem recordCloseCheck_good (s : State) (t : Fin 4) (q : Fin 64) (r : CmdRun) (hs : State.Good FZ PQ s) : OpAnswer.Good FZ PQ (recordCloseCheck s t q r) := by
  unfold recordCloseCheck
  repeat' first | with_reducible exact OpAnswer.good_fail _ _ _ | with_reducible exact OpAnswer.good_pass | with_reducible exact OpAnswer.good_hold | with_reducible apply OpAnswer.good_admitted | with_reducible assumption | with_reducible apply State.claim_good | with_reducible apply State.modTen_good | with_reducible apply State.stage_good | with_reducible apply State.results_good | with_reducible apply State.pinReads_good | with_reducible apply State.writeFresh_good | with_reducible apply State.sign_good | with_reducible apply recBad_good | with_reducible refine State.sign_some (by with_reducible assumption) ?_ | intro _ | split | dsimp only

theorem execRecordClose_good (t : Fin 4) (q : Fin 64) (s : State) {s' : State} (h : execRecordClose t q s = .next s') (hs : State.Good FZ PQ s) : State.Good FZ PQ s' := by
  unfold execRecordClose at h
  obtain rfl := Host.Outcome.next.inj h
  clear h
  repeat' first | with_reducible assumption | with_reducible apply State.offerRow_good | with_reducible apply recordCloseCheck_good
  all_goals simp (maxDischargeDepth := 60) +contextual [*]

end Sys2Proof.Machine
end

