-- ==== Sys2Proof/Laws/GoodSecureCmd.lean ====
section
/-! SUPPORT. What Machine/SecureCmd.lean keeps: the fuses, the queue, the tick count and the canonical form of memory (State.Good). -/
set_option linter.unusedSimpArgs false

namespace Sys2Proof.Machine

open Sys2Proof

variable {FZ : FuseSt} {PQ : List Instr → Nat → Prop}

@[simp] theorem State.modSecure_good (s : State) (t : Fin 4) (f : SecureSt → SecureSt) (hs : State.Good FZ PQ s) : State.Good FZ PQ (State.modSecure s t f) := by
  unfold State.modSecure
  simp [hs]

@[simp] theorem secBad_good (reason a : Nat) : OpAnswer.Good FZ PQ (secBad reason a) := trivial

@[simp] theorem State.setPhase_good (s : State) (t : Fin 4) (q : Fin 64) (n : Nat) (hs : State.Good FZ PQ s) : State.Good FZ PQ (State.setPhase s t q n) := by
  unfold State.setPhase
  simp [hs]

@[simp] theorem State.noSnapshot_good (s : State) (t : Fin 4) (q : Fin 64) (hs : State.Good FZ PQ s) : State.Good FZ PQ (State.noSnapshot s t q) := by
  unfold State.noSnapshot
  simp [hs]

@[simp] theorem stateSecureCheck_good (s : State) (t : Fin 4) (q : Fin 64) (r : CmdRun) (hs : State.Good FZ PQ s) : OpAnswer.Good FZ PQ (stateSecureCheck s t q r) := by
  unfold stateSecureCheck
  repeat' first | with_reducible exact OpAnswer.good_fail _ _ _ | with_reducible exact OpAnswer.good_pass | with_reducible exact OpAnswer.good_hold | with_reducible apply OpAnswer.good_admitted | with_reducible assumption | with_reducible apply State.claimLazy_good | with_reducible apply State.modRun_good | with_reducible apply State.pinReads_good | with_reducible apply State.hold_good | with_reducible apply State.modSecure_good | with_reducible apply secBad_good | with_reducible apply State.setPhase_good | with_reducible apply State.noSnapshot_good | simp only [good_keep, good_time] | intro _ | split | dsimp only

theorem execStateSecure_good (t : Fin 4) (q : Fin 64) (s : State) {s' : State} (h : execStateSecure t q s = .next s') (hs : State.Good FZ PQ s) : State.Good FZ PQ s' := by
  unfold execStateSecure at h
  obtain rfl := Host.Outcome.next.inj h
  clear h
  repeat' first | with_reducible assumption | with_reducible apply State.offerRow_good | with_reducible apply stateSecureCheck_good
  all_goals simp (maxDischargeDepth := 60) +contextual [*]

theorem State.beginUse_some {s s' : State} {t : Fin 4} {q : Fin 64} {cls : Nat} {use : CollUse} {g : Nat} {entry img : List Byte}
    (h : s.beginUse t q cls use g entry img = some s') (hs : State.Good FZ PQ s) : State.Good FZ PQ s' := by
  unfold State.beginUse at h
  split at h
  · cases h
  · split at h
    · cases h
    · cases h
      exact State.setColl_good _ _ _ hs

@[simp] theorem State.beginFor_good (s : State) (t : Fin 4) (q : Fin 64) (use : CollUse) (g : Nat) (entry img : List Byte) (hs : State.Good FZ PQ s) : State.Good FZ PQ (State.beginFor s t q use g entry img) := by
  unfold State.beginFor
  repeat' first | with_reducible assumption | with_reducible apply State.modRun_good | with_reducible apply State.failAt_good | with_reducible refine State.beginUse_some (by with_reducible assumption) ?_ | intro _ | split

@[simp] theorem State.voteDone_good (s : State) (t : Fin 4) (q : Fin 64) (c : Coll) (hs : State.Good FZ PQ s) : State.Good FZ PQ (State.voteDone s t q c) := by
  unfold State.voteDone
  repeat' first | with_reducible assumption | with_reducible apply State.modRun_good | with_reducible apply State.failAt_good | with_reducible apply State.setPhase_good | with_reducible apply State.noSnapshot_good | intro _ | split | dsimp only

@[simp] theorem State.egress_good (s : State) (t : Fin 4) (kind offset : Nat) (data : List Byte) (hs : State.Good FZ PQ s) : State.Good FZ PQ (State.egress s t kind offset data) := by
  unfold State.egress
  simp [hs]

@[simp] theorem State.storagePump_good (s : State) (t : Fin 4) (hs : State.Good FZ PQ s) : State.Good FZ PQ (State.storagePump s t) := by
  unfold State.storagePump
  repeat' first | with_reducible assumption | with_reducible apply State.modSecure_good | with_reducible apply State.egress_good | with_reducible refine good_each ?_ (fun _ _ _ => ?_) | intro _ | dsimp only

@[simp] theorem State.markSecured_good (s : State) (t : Fin 4) (hs : State.Good FZ PQ s) : State.Good FZ PQ (State.markSecured s t) := by
  unfold State.markSecured
  simp (maxDischargeDepth := 60) [hs]

@[simp] theorem State.snapshotCommit_good (s : State) (t : Fin 4) (q : Fin 64) (step slot : Nat) (hs : State.Good FZ PQ s) : State.Good FZ PQ (State.snapshotCommit s t q step slot) := by
  unfold State.snapshotCommit
  repeat' first | with_reducible assumption | with_reducible apply State.modRun_good | with_reducible apply State.modSecure_good | with_reducible apply State.markSecured_good | intro _ | split | dsimp only

@[simp] theorem State.transferFailed_good (s : State) (t : Fin 4) (hs : State.Good FZ PQ s) : State.Good FZ PQ (State.transferFailed s t) := by
  unfold State.transferFailed
  simp [hs]

@[simp] theorem State.startTransfer_good (s : State) (t : Fin 4) (hs : State.Good FZ PQ s) : State.Good FZ PQ (State.startTransfer s t) := by
  unfold State.startTransfer
  repeat' first | with_reducible assumption | with_reducible apply State.modSecure_good | with_reducible apply State.transferFailed_good | with_reducible refine State.beginUse_some (by with_reducible assumption) ?_ | intro _ | split | dsimp only

@[simp] theorem State.transferDone_good (s : State) (t : Fin 4) (c : Coll) (hs : State.Good FZ PQ s) : State.Good FZ PQ (State.transferDone s t c) := by
  unfold State.transferDone
  simp (maxDischargeDepth := 60) [hs]

theorem execSecureTransfer_good (t : Fin 4) (s : State) {s' : State} (h : execSecureTransfer t s = .next s') (hs : State.Good FZ PQ s) : State.Good FZ PQ s' := by
  unfold execSecureTransfer at h
  obtain rfl := Host.Outcome.next.inj h
  clear h
  simp [hs]

theorem execStorageAck_good (t : Fin 4) (datagram : List Byte) (s : State) {s' : State} (h : execStorageAck t datagram s = .next s') (hs : State.Good FZ PQ s) : State.Good FZ PQ s' := by
  unfold execStorageAck at h
  repeat' split at h
  all_goals try unfold noted at h
  all_goals simp only [Host.Outcome.next.injEq, reduceCtorEq] at h
  all_goals subst h
  simp (maxDischargeDepth := 60) [hs]

theorem execStorageResendTimeout_good (t : Fin 4) (s : State) {s' : State} (h : execStorageResendTimeout t s = .next s') (hs : State.Good FZ PQ s) : State.Good FZ PQ s' := by
  unfold execStorageResendTimeout at h
  obtain rfl := Host.Outcome.next.inj h
  clear h
  repeat' split
  all_goals simp [hs]

theorem execStorageFailTimeout_good (t : Fin 4) (s : State) {s' : State} (h : execStorageFailTimeout t s = .next s') (hs : State.Good FZ PQ s) : State.Good FZ PQ s' := by
  unfold execStorageFailTimeout at h
  unfold noted at h
  obtain rfl := Host.Outcome.next.inj h
  clear h
  simp (maxDischargeDepth := 60) [hs]

@[simp] theorem State.secFail_good (s : State) (t : Fin 4) (q : Fin 64) (e : SecErr) (hs : State.Good FZ PQ s) : State.Good FZ PQ (State.secFail s t q e) := by
  unfold State.secFail
  simp [hs]

@[simp] theorem State.haveImage_good (s : State) (t : Fin 4) (q : Fin 64) (img : List Byte) (addr : Nat) (pos : Option Nat) (hs : State.Good FZ PQ s) : State.Good FZ PQ (State.haveImage s t q img addr pos) := by
  unfold State.haveImage
  repeat' split
  all_goals simp [hs]

@[simp] theorem stateRestoreCheck_good (s : State) (t : Fin 4) (q : Fin 64) (r : CmdRun) (hs : State.Good FZ PQ s) : OpAnswer.Good FZ PQ (stateRestoreCheck s t q r) := by
  unfold stateRestoreCheck
  repeat' first | with_reducible exact OpAnswer.good_fail _ _ _ | with_reducible exact OpAnswer.good_pass | with_reducible exact OpAnswer.good_hold | with_reducible apply OpAnswer.good_admitted | with_reducible assumption | with_reducible apply State.claimLazy_good | with_reducible apply State.modRun_good | with_reducible apply State.setPhase_good | intro _ | split | dsimp only

theorem execStateRestore_good (t : Fin 4) (q : Fin 64) (s : State) {s' : State} (h : execStateRestore t q s = .next s') (hs : State.Good FZ PQ s) : State.Good FZ PQ s' := by
  unfold execStateRestore at h
  obtain rfl := Host.Outcome.next.inj h
  clear h
  repeat' first | with_reducible assumption | with_reducible apply State.offerRow_good | with_reducible apply stateRestoreCheck_good
  all_goals simp (maxDischargeDepth := 60) +contextual [*]

@[simp] theorem State.restoreMoved_good (s : State) (t : Fin 4) (q : Fin 64) (c : Coll) (hs : State.Good FZ PQ s) : State.Good FZ PQ (State.restoreMoved s t q c) := by
  unfold State.restoreMoved
  repeat' split
  all_goals simp [hs]

@[simp] theorem State.verified_good (s : State) (t : Fin 4) (q : Fin 64) (c : Coll) (hs : State.Good FZ PQ s) : State.Good FZ PQ (State.verified s t q c) := by
  unfold State.verified
  repeat' split
  all_goals simp [hs]

@[simp] theorem State.applyRestored_good (s : State) (t : Fin 4) (h : List Byte) (hs : State.Good FZ PQ s) : State.Good FZ PQ (State.applyRestored s t h) := by
  unfold State.applyRestored
  repeat' first | with_reducible assumption | with_reducible apply State.modSecure_good | with_reducible refine good_each ?_ (fun _ _ _ => ?_) | simp only [good_keep, good_time] | intro _ | split | dsimp only

@[simp] theorem State.secureStep_good (s : State) (t : Fin 4) (q : Fin 64) (hs : State.Good FZ PQ s) : State.Good FZ PQ (State.secureStep s t q) := by
  unfold State.secureStep
  repeat' first | with_reducible assumption | with_reducible apply State.modRun_good | with_reducible apply State.stage_good | with_reducible apply State.results_good | with_reducible apply State.setPhase_good | with_reducible apply State.beginFor_good | with_reducible refine State.opWrite_some (by with_reducible assumption) ?_ | with_reducible refine State.opWrites_some (by with_reducible assumption) ?_ | intro _ | split | dsimp only

@[simp] theorem State.useSettled_good (s : State) (c : Coll) (hs : State.Good FZ PQ s) : State.Good FZ PQ (State.useSettled s c) := by
  unfold State.useSettled
  repeat' split
  all_goals simp [hs]

end Sys2Proof.Machine
end

