-- ==== Sys2Proof/Laws/GoodSched.lean ====
section
/-! SUPPORT. What Machine/Sched.lean keeps: the fuses, the queue, the tick count and the canonical form of memory (State.Good). -/
set_option linter.unusedSimpArgs false

namespace Sys2Proof.Machine

open Sys2Proof

variable {FZ : FuseSt} {PQ : List Instr → Nat → Prop}

theorem opCheckOf_good (op : Nat) (t : Fin 4) (q : Fin 64) (r : CmdRun) (s : State) (hs : State.Good FZ PQ s) :
    OpAnswer.Good FZ PQ (opCheckOf op s t q r) := by
  unfold opCheckOf
  split <;> simp (maxDischargeDepth := 60) [hs]

@[simp] theorem State.readImaging_good (s : State) (t : Fin 4) (q : Fin 64) (r : CmdRun) (hs : State.Good FZ PQ s) : State.Good FZ PQ (State.readImaging s t q r) := by
  unfold State.readImaging
  repeat' first | with_reducible assumption | with_reducible apply State.modRun_good | with_reducible apply State.failAt_good | intro _ | split | dsimp only
  all_goals simp (maxDischargeDepth := 60) +contextual [*]

@[simp] theorem State.readSlices_good (s : State) (t : Fin 4) (q : Fin 64) (hs : State.Good FZ PQ s) : State.Good FZ PQ (State.readSlices s t q) := by
  unfold State.readSlices
  repeat' first | with_reducible assumption | with_reducible apply State.modRun_good | with_reducible apply State.failAt_good | with_reducible apply State.readImaging_good | intro _ | split | dsimp only
  all_goals simp (maxDischargeDepth := 60) +contextual [*]

@[simp] theorem State.noteFirst_good (s : State) (l : List Item) (hs : State.Good FZ PQ s) : State.Good FZ PQ (State.noteFirst s l) := by
  unfold State.noteFirst
  repeat' first | with_reducible assumption | with_reducible apply State.modSlice_good | with_reducible apply State.putOpSlice_good | with_reducible refine good_each ?_ (fun _ _ _ => ?_) | simp only [good_keep, good_time] | intro _ | split | dsimp only

@[simp] theorem weightedOffer_good (offer : Offer1) (n : Nat) (l : List Share) (s : State) (hs : State.Good FZ PQ s)
    (hf : ∀ s it, State.Good FZ PQ s → State.Good FZ PQ (offer s it).1) : State.Good FZ PQ (weightedOffer offer n l s) := by
  induction n generalizing l s with
  | zero => exact hs
  | succ n ih =>
    unfold weightedOffer
    split
    · exact hs
    · split
      · exact hs
      · exact ih _ _ (hf _ _ hs)

@[simp] theorem State.offerClass_good (s : State) (offer : Offer1) (l : List Item) (rotation : Fin 4 → Nat)
    (hs : State.Good FZ PQ s) (hf : ∀ s it, State.Good FZ PQ s → State.Good FZ PQ (offer s it).1) :
    State.Good FZ PQ (s.offerClass offer l rotation) := by
  unfold State.offerClass
  exact good_each (weightedOffer_good _ _ _ _ (good_each hs (fun s x h => hf s x h)) hf) (fun s x h => hf s x h)

@[simp] theorem State.levelV_good (s : State) (l : List Item) (hs : State.Good FZ PQ s) : State.Good FZ PQ (State.levelV s l) := by
  unfold State.levelV
  repeat' first | with_reducible assumption | with_reducible apply State.modTen_good | with_reducible refine good_each ?_ (fun _ _ _ => ?_) | intro _ | split | dsimp only

@[simp] theorem State.split_good (s : State) (ref : SliceRef) (hs : State.Good FZ PQ s) : State.Good FZ PQ (State.split s ref) := by
  unfold State.split
  repeat' first | with_reducible assumption | with_reducible apply State.bump_good | with_reducible apply State.modSlice_good | simp only [good_keep, good_time] | intro _ | dsimp only

theorem State.ensureRead_some {s s' : State} {ref : SliceRef} {sl x : Slice} (h : s.ensureRead ref sl = .ok (s', x))
    (hs : State.Good FZ PQ s) : State.Good FZ PQ s' := by
  unfold State.ensureRead at h
  split at h
  · cases h; exact hs
  · cases hr : s.readSlice ref.t sl with
    | error e => simp [hr, Except.map] at h
    | ok y =>
      simp only [hr, Except.map, Except.ok.injEq, Prod.mk.injEq] at h
      obtain ⟨rfl, -⟩ := h
      exact State.modSlice_good _ _ _ hs

@[simp] theorem State.admitSlice_good (s : State) (ref : SliceRef) (sl : Slice) (cls : Nat) (hs : State.Good FZ PQ s) : State.Good FZ PQ (State.admitSlice s ref sl cls) := by
  unfold State.admitSlice
  repeat' first | with_reducible assumption | with_reducible apply State.failAt_good | with_reducible apply State.begin_good | with_reducible apply State.passSlice_good | with_reducible refine State.tryAdmit_some (by with_reducible assumption) ?_ | with_reducible refine State.ensureRead_some (by with_reducible assumption) ?_ | intro _ | split

theorem State.cutLong_some {s s' : State} {ref : SliceRef} {sl x : Slice} (h : s.cutLong ref sl = .ok (s', x))
    (hs : State.Good FZ PQ s) : State.Good FZ PQ s' := by
  unfold State.cutLong at h
  split at h
  · cases hr : s.ensureRead ref sl with
    | error e => simp [hr, Except.map] at h
    | ok y =>
      simp only [hr, Except.map, Except.ok.injEq, Prod.mk.injEq] at h
      obtain ⟨rfl, -⟩ := h
      exact State.split_good _ _ (State.ensureRead_some (x := y.2) hr hs)
  · cases h; exact hs

@[simp] theorem State.offerSlice_good (s : State) (ref : SliceRef) (cls : Nat) (hs : State.Good FZ PQ s) : State.Good FZ PQ (State.offerSlice s ref cls) := by
  unfold State.offerSlice
  repeat' first | with_reducible assumption | with_reducible apply State.modSlice_good | with_reducible apply State.failAt_good | with_reducible apply State.passSlice_good | with_reducible apply State.admitSlice_good | with_reducible refine State.cutLong_some (by with_reducible assumption) ?_ | simp only [good_keep, good_time] | intro _ | split

@[simp] theorem State.offerItem_good (s : State) (it : Item) (hs : State.Good FZ PQ s) : State.Good FZ PQ (State.offerItem s it) := by
  unfold State.offerItem
  repeat' first | with_reducible assumption | with_reducible apply State.offerOp_good | with_reducible apply opCheckOf_good | with_reducible apply State.passSlice_good | with_reducible apply State.offerSlice_good | split | dsimp only

@[simp] theorem offerAtBoundary_good (s : State) (it : Item) (hs : State.Good FZ PQ s) : State.Good FZ PQ (offerAtBoundary s it).1 := by
  unfold offerAtBoundary
  simp [hs]

@[simp] theorem State.countClasses_good (s : State) (l : List Item) (hs : State.Good FZ PQ s) : State.Good FZ PQ (State.countClasses s l) := by
  unfold State.countClasses
  repeat' first | with_reducible assumption | with_reducible apply State.bump_good | with_reducible apply State.bumpT_good | with_reducible refine good_each ?_ (fun _ _ _ => ?_) | intro _ | dsimp only

@[simp] theorem State.admitAll_good (s : State) (l : List Item) (ex : Option Item) (hs : State.Good FZ PQ s) : State.Good FZ PQ (State.admitAll s l ex) := by
  unfold State.admitAll
  repeat' first | with_reducible assumption | with_reducible apply State.offerClass_good | with_reducible apply State.modTen_good | with_reducible apply State.noteFirst_good | with_reducible apply State.levelV_good | with_reducible apply State.admitSlice_good | with_reducible apply offerAtBoundary_good | with_reducible apply State.countClasses_good | with_reducible refine good_each ?_ (fun _ _ _ => ?_) | intro _ | split | dsimp only

@[simp] theorem State.offerSlices_good (s : State) (t : Fin 4) (q : Fin 64) (op : Nat) (hs : State.Good FZ PQ s) : State.Good FZ PQ (State.offerSlices s t q op) := by
  unfold State.offerSlices
  repeat' first | with_reducible assumption | with_reducible apply State.ensureHead_good | with_reducible apply State.readSlices_good | with_reducible apply State.noteFirst_good | with_reducible apply State.offerSlice_good | with_reducible refine good_each ?_ (fun _ _ _ => ?_) | intro _ | split | dsimp only

theorem execCompute_good (t : Fin 4) (q : Fin 64) (s : State) {s' : State} (h : execCompute t q s = .next s') (hs : State.Good FZ PQ s) : State.Good FZ PQ s' := by
  unfold execCompute at h
  obtain rfl := Host.Outcome.next.inj h
  clear h
  simp [hs]

theorem execImgConv_good (t : Fin 4) (q : Fin 64) (s : State) {s' : State} (h : execImgConv t q s = .next s') (hs : State.Good FZ PQ s) : State.Good FZ PQ s' := by
  unfold execImgConv at h
  obtain rfl := Host.Outcome.next.inj h
  clear h
  simp [hs]

theorem execImgResize_good (t : Fin 4) (q : Fin 64) (s : State) {s' : State} (h : execImgResize t q s = .next s') (hs : State.Good FZ PQ s) : State.Good FZ PQ s' := by
  unfold execImgResize at h
  obtain rfl := Host.Outcome.next.inj h
  clear h
  simp [hs]

theorem execImgPyramid_good (t : Fin 4) (q : Fin 64) (s : State) {s' : State} (h : execImgPyramid t q s = .next s') (hs : State.Good FZ PQ s) : State.Good FZ PQ s' := by
  unfold execImgPyramid at h
  obtain rfl := Host.Outcome.next.inj h
  clear h
  simp [hs]

theorem execImgDetect_good (t : Fin 4) (q : Fin 64) (s : State) {s' : State} (h : execImgDetect t q s = .next s') (hs : State.Good FZ PQ s) : State.Good FZ PQ s' := by
  unfold execImgDetect at h
  obtain rfl := Host.Outcome.next.inj h
  clear h
  simp [hs]

@[simp] theorem offerBreakIn_good (rem : Nat) (s : State) (it : Item) (hs : State.Good FZ PQ s) : State.Good FZ PQ (offerBreakIn rem s it).1 := by
  unfold offerBreakIn
  repeat' first | with_reducible assumption | with_reducible apply State.offerOp_good | with_reducible apply opCheckOf_good | with_reducible apply State.bump_good | with_reducible apply State.bumpT_good | with_reducible apply State.kill_good | with_reducible apply State.failAt_good | with_reducible apply State.passSlice_good | with_reducible apply State.admitSlice_good | with_reducible refine good_each ?_ (fun _ _ _ => ?_) | intro _ | split | dsimp only

/-- A change of the mark of a break-in keeps a good state. -/
theorem good_breakingIn (s : State) (b : Bool) (hs : State.Good FZ PQ s) :
    State.Good FZ PQ { s with tick := { s.tick with breakingIn := b } } := hs

theorem execBreakIn_good (j : Nat) (s : State) {s' : State} (h : execBreakIn j s = .next s') (hs : State.Good FZ PQ s) : State.Good FZ PQ s' := by
  unfold execBreakIn at h
  obtain rfl := Host.Outcome.next.inj h
  clear h
  refine good_ite (fun _ => hs) (fun _ => ?_)
  have h1 := good_breakingIn s true hs
  extract_lets tau a b c l rem d hits rot e
  have h2 : State.Good FZ PQ d := by
    apply State.noteFirst_good
    refine good_each (good_each h1 (fun _ _ h => ?_)) (fun _ _ h => ?_)
    · exact State.ensureHead_good _ _ _ _ h
    · exact good_ite (fun _ => State.readSlices_good _ _ _ h) (fun _ => h)
  have h3 : State.Good FZ PQ e := State.offerClass_good _ _ _ _ h2 (fun _ _ h => offerBreakIn_good _ _ _ h)
  clear_value e
  exact State.bump_good _ _ _ _ (good_breakingIn _ false h3)

end Sys2Proof.Machine
end

