-- ==== Sys2Proof/Laws/GoodHealth.lean ====
section
/-! SUPPORT. What Machine/Health.lean keeps: the fuses, the queue, the tick count and the canonical form of memory (State.Good). -/
set_option linter.unusedSimpArgs false

namespace Sys2Proof.Machine

open Sys2Proof

variable {FZ : FuseSt} {PQ : List Instr → Nat → Prop}

@[simp] theorem State.modHealth_good (s : State) (f : HealthSt → HealthSt) (hs : State.Good FZ PQ s) : State.Good FZ PQ (State.modHealth s f) := by
  unfold State.modHealth
  simp [hs]

@[simp] theorem State.reportFault_good (s : State) (cls unit : Nat) (hs : State.Good FZ PQ s) : State.Good FZ PQ (State.reportFault s cls unit) := by
  unfold State.reportFault
  simp [hs]

@[simp] theorem State.failCore_good (s : State) (core : Nat) (hs : State.Good FZ PQ s) : State.Good FZ PQ (State.failCore s core) := by
  unfold State.failCore
  simp [hs]

@[simp] theorem State.failStack_good (s : State) (stack : Nat) (hs : State.Good FZ PQ s) : State.Good FZ PQ (State.failStack s stack) := by
  unfold State.failStack
  simp [hs]

@[simp] theorem State.faultCmd_good (s : State) (t : Fin 4) (q : Fin 64) (hs : State.Good FZ PQ s) : State.Good FZ PQ (State.faultCmd s t q) := by
  unfold State.faultCmd
  simp [hs]

theorem execHardwareFault_good (cls unit : Nat) (s : State) {s' : State} (h : execHardwareFault cls unit s = .next s') (hs : State.Good FZ PQ s) : State.Good FZ PQ s' := by
  unfold execHardwareFault at h
  unfold noted at h
  obtain rfl := Host.Outcome.next.inj h
  clear h
  repeat' first | with_reducible assumption | with_reducible apply State.noteChanges_good | with_reducible apply State.modHealth_good | with_reducible apply State.reportFault_good | with_reducible apply State.failCore_good | with_reducible apply State.failStack_good | with_reducible apply State.faultCmd_good | with_reducible refine good_each ?_ (fun _ _ _ => ?_) | simp only [good_keep, good_time] | intro _ | split | dsimp only

@[simp] theorem State.discardSlice_good (s : State) (ref : SliceRef) (hs : State.Good FZ PQ s) : State.Good FZ PQ (State.discardSlice s ref) := by
  unfold State.discardSlice
  simp [hs]

@[simp] theorem State.noteUncorrected_good (s : State) (hs : State.Good FZ PQ s) : State.Good FZ PQ (State.noteUncorrected s) := by
  unfold State.noteUncorrected
  simp [hs]

@[simp] theorem State.coreError_good (s : State) (core : Nat) (owners : List SliceRef) (hs : State.Good FZ PQ s) : State.Good FZ PQ (State.coreError s core owners) := by
  unfold State.coreError
  repeat' first | with_reducible assumption | with_reducible apply State.modHealth_good | with_reducible apply State.failCore_good | with_reducible apply State.discardSlice_good | with_reducible apply State.noteUncorrected_good | with_reducible refine good_each ?_ (fun _ _ _ => ?_) | intro _ | split | dsimp only

@[simp] theorem State.stackError_good (s : State) (stack : Nat) (hs : State.Good FZ PQ s) : State.Good FZ PQ (State.stackError s stack) := by
  unfold State.stackError
  simp (maxDischargeDepth := 60) [hs]

@[simp] theorem State.dropCopy_good (s : State) (t : Fin 4) (v die : Nat) (hs : State.Good FZ PQ s) : State.Good FZ PQ (State.dropCopy s t v die) := by
  unfold State.dropCopy
  split
  · exact State.dropDie_good s (fun k u => k / Config.dieFrames == die && u == .model (v - Config.modelPage0)) hs
  · exact State.modPage_good _ _ _ _ (State.dropDie_good _ _ hs)

theorem execSramUncorrectableError_good (site : SramSite) (s : State) {s' : State} (h : execSramUncorrectableError site s = .next s') (hs : State.Good FZ PQ s) : State.Good FZ PQ s' := by
  unfold execSramUncorrectableError at h
  unfold noted at h
  obtain rfl := Host.Outcome.next.inj h
  clear h
  repeat' first | with_reducible assumption | with_reducible apply State.failAt_good | with_reducible apply State.failOpen_good | with_reducible apply State.noteChanges_good | with_reducible apply State.noteUncorrected_good | with_reducible apply State.coreError_good | with_reducible apply State.stackError_good | with_reducible apply State.dropCopy_good | split | dsimp only

theorem execCorrectedError_good (site : CorrectedSite) (s : State) {s' : State} (h : execCorrectedError site s = .next s') (hs : State.Good FZ PQ s) : State.Good FZ PQ s' := by
  unfold execCorrectedError at h
  obtain rfl := Host.Outcome.next.inj h
  clear h
  repeat' split
  all_goals simp [hs]

theorem execInputExcursion_good (s : State) {s' : State} (h : execInputExcursion s = .next s') (hs : State.Good FZ PQ s) : State.Good FZ PQ s' := by
  unfold execInputExcursion at h
  obtain rfl := Host.Outcome.next.inj h
  clear h
  simp [hs]

@[simp] theorem State.updateRisk_good (s : State) (hs : State.Good FZ PQ s) : State.Good FZ PQ (State.updateRisk s) := by
  unfold State.updateRisk
  simp [hs]

theorem execRiskUpdate_good (s : State) {s' : State} (h : execRiskUpdate s = .next s') (hs : State.Good FZ PQ s) : State.Good FZ PQ s' := by
  unfold execRiskUpdate at h
  unfold noted at h
  obtain rfl := Host.Outcome.next.inj h
  clear h
  repeat' split
  all_goals simp [hs]

@[simp] theorem State.startRound_good (s : State) (hs : State.Good FZ PQ s) : State.Good FZ PQ (State.startRound s) := by
  unfold State.startRound
  simp [hs]

theorem execSelftestRound_good (s : State) {s' : State} (h : execSelftestRound s = .next s') (hs : State.Good FZ PQ s) : State.Good FZ PQ s' := by
  unfold execSelftestRound at h
  obtain rfl := Host.Outcome.next.inj h
  clear h
  simp [hs]

theorem execSelftestResult_good (core : Fin 512) (pass : Bool) (s : State) {s' : State} (h : execSelftestResult core pass s = .next s') (hs : State.Good FZ PQ s) : State.Good FZ PQ s' := by
  unfold execSelftestResult at h
  unfold noted at h
  obtain rfl := Host.Outcome.next.inj h
  clear h
  repeat' split
  all_goals simp [hs]

theorem execHbmRecalibrationRequest_good (stack : Fin 24) (s : State) {s' : State} (h : execHbmRecalibrationRequest stack s = .next s') (hs : State.Good FZ PQ s) : State.Good FZ PQ s' := by
  unfold execHbmRecalibrationRequest at h
  obtain rfl := Host.Outcome.next.inj h
  clear h
  simp [hs]

@[simp] theorem State.forceQuiet_good (s : State) (stack : Nat) (hs : State.Good FZ PQ s) : State.Good FZ PQ (State.forceQuiet s stack) := by
  unfold State.forceQuiet
  simp [hs]

theorem execQuietWaitExpiry_good (stack : Fin 24) (s : State) {s' : State} (h : execQuietWaitExpiry stack s = .next s') (hs : State.Good FZ PQ s) : State.Good FZ PQ s' := by
  unfold execQuietWaitExpiry at h
  obtain rfl := Host.Outcome.next.inj h
  clear h
  simp [hs]

theorem execHbmRecalibrationDone_good (stack : Fin 24) (s : State) {s' : State} (h : execHbmRecalibrationDone stack s = .next s') (hs : State.Good FZ PQ s) : State.Good FZ PQ s' := by
  unfold execHbmRecalibrationDone at h
  obtain rfl := Host.Outcome.next.inj h
  clear h
  simp [hs]

theorem execEmergencyThrottle_good (tau : Nat) (s : State) {s' : State} (h : execEmergencyThrottle tau s = .next s') (hs : State.Good FZ PQ s) : State.Good FZ PQ s' := by
  unfold execEmergencyThrottle at h
  unfold noted at h
  obtain rfl := Host.Outcome.next.inj h
  clear h
  repeat' first | with_reducible assumption | with_reducible apply State.bumpT_good | with_reducible apply State.kill_good | with_reducible apply State.noteChanges_good | with_reducible refine good_each ?_ (fun _ _ _ => ?_) | simp only [good_keep, good_time] | intro _ | split | dsimp only

end Sys2Proof.Machine
end

