-- ==== Sys2Proof/Laws/GoodInstallOps.lean ====
section
/-! SUPPORT. What Machine/InstallOps.lean keeps: the fuses, the queue, the tick count and the canonical form of memory (State.Good). -/
set_option linter.unusedSimpArgs false

namespace Sys2Proof.Machine

open Sys2Proof

variable {FZ : FuseSt} {PQ : List Instr → Nat → Prop}

@[simp] theorem State.toInstaller_good (s : State) (d : List Byte) (hs : State.Good FZ PQ s) : State.Good FZ PQ (State.toInstaller s d) := by
  unfold State.toInstaller
  simp [hs]

@[simp] theorem State.reportInstall_good (s : State) (status : Nat) (hs : State.Good FZ PQ s) : State.Good FZ PQ (State.reportInstall s status) := by
  unfold State.reportInstall
  simp [hs]

@[simp] theorem State.sendAck_good (s : State) (hs : State.Good FZ PQ s) : State.Good FZ PQ (State.sendAck s) := by
  unfold State.sendAck
  simp [hs]

@[simp] theorem State.journal_good (s : State) (hs : State.Good FZ PQ s) : State.Good FZ PQ (State.journal s) := by
  unfold State.journal
  simp [hs]

@[simp] theorem State.endPhase_good (s : State) (n : Nat) (hs : State.Good FZ PQ s) : State.Good FZ PQ (State.endPhase s n) := by
  unfold State.endPhase
  repeat' first | with_reducible assumption | with_reducible apply State.reportInstall_good | with_reducible apply State.journal_good | simp only [good_keep, good_time]

@[simp] theorem State.endInstall_good (s : State) (state status : Nat) (hs : State.Good FZ PQ s) : State.Good FZ PQ (State.endInstall s state status) := by
  unfold State.endInstall
  repeat' first | with_reducible assumption | with_reducible apply State.useFrame_good | with_reducible apply State.verified_good | with_reducible apply State.reportInstall_good | with_reducible apply State.journal_good | with_reducible refine good_each ?_ (fun _ _ _ => ?_) | simp only [good_keep, good_time] | intro _ | dsimp only

@[simp] theorem State.endUpdate_good (s : State) (status : Nat) (hs : State.Good FZ PQ s) : State.Good FZ PQ (State.endUpdate s status) := by
  unfold State.endUpdate
  repeat' first | with_reducible assumption | with_reducible apply State.reportInstall_good | simp only [good_keep, good_time]

@[simp] theorem State.installerGone_good (s : State) (n : Nat) (hs : State.Good FZ PQ s) : State.Good FZ PQ (State.installerGone s n) := by
  unfold State.installerGone
  repeat' split
  all_goals simp [hs]

end Sys2Proof.Machine
end

