-- ==== Sys2Proof/Laws/GoodJdp.lean ====
section
/-! SUPPORT. What Machine/Jdp.lean keeps: the fuses, the queue, the tick count and the canonical form of memory (State.Good). -/
set_option linter.unusedSimpArgs false

namespace Sys2Proof.Machine

open Sys2Proof

variable {FZ : FuseSt} {PQ : List Instr → Nat → Prop}

@[simp] theorem State.commitTable_good (s : State) (i sub : Nat) (hs : State.Good FZ PQ s) : State.Good FZ PQ (State.commitTable s i sub) := by
  unfold State.commitTable
  repeat' split
  all_goals simp [hs]

@[simp] theorem State.startStore_good (s : State) (cmd : Nat) (hs : State.Good FZ PQ s) : State.Good FZ PQ (State.startStore s cmd) := by
  unfold State.startStore
  simp [hs]

@[simp] theorem State.endStore_good (s : State) (ok : Bool) (hs : State.Good FZ PQ s) : State.Good FZ PQ (State.endStore s ok) := by
  unfold State.endStore
  repeat' first | with_reducible assumption | with_reducible apply State.bump_good | simp only [good_keep, good_time] | split | dsimp only

theorem execStoreDone_good (ok : Bool) (s : State) {s' : State} (h : execStoreDone ok s = .next s') (hs : State.Good FZ PQ s) : State.Good FZ PQ s' := by
  unfold execStoreDone at h
  unfold noted at h
  obtain rfl := Host.Outcome.next.inj h
  clear h
  repeat' split
  all_goals simp [hs]

@[simp] theorem State.writeKeySlot_good (s : State) (k : Nat) (v : OdVal) (hs : State.Good FZ PQ s) : State.Good FZ PQ (State.writeKeySlot s k v) := by
  unfold State.writeKeySlot
  simp [hs]

@[simp] theorem State.modSubs_good (s : State) (c : Client) (f : List Nat → List Nat) (g : List Pending → List Pending) (hs : State.Good FZ PQ s) : State.Good FZ PQ (State.modSubs s c f g) := by
  unfold State.modSubs
  repeat' split
  all_goals simp [hs]

@[simp] theorem State.subscribe_good (s : State) (c : Client) (k : Nat) (hs : State.Good FZ PQ s) : State.Good FZ PQ (State.subscribe s c k) := by
  unfold State.subscribe
  repeat' first | with_reducible assumption | with_reducible apply State.modSubs_good | simp only [good_keep, good_time] | intro _ | split | dsimp only

@[simp] theorem State.writePeriod_good (s : State) (n : Nat) (hs : State.Good FZ PQ s) : State.Good FZ PQ (State.writePeriod s n) := by
  unfold State.writePeriod
  repeat' split
  all_goals simp [hs]

@[simp] theorem State.odWrite_good (s : State) (i sub : Nat) (v : OdVal) (hs : State.Good FZ PQ s) : State.Good FZ PQ (State.odWrite s i sub v) := by
  unfold State.odWrite
  repeat' split
  all_goals simp [hs]

@[simp] theorem State.opApply_good (s : State) (c : Client) (only : Bool) (r : OpRec) (hs : State.Good FZ PQ s) : State.Good FZ PQ (State.opApply s c only r).2.2 := by
  unfold State.opApply
  repeat' first | with_reducible assumption | with_reducible apply State.modSubs_good | with_reducible apply State.subscribe_good | with_reducible apply State.odWrite_good | intro _ | split | dsimp only
  all_goals simp (maxDischargeDepth := 60) +contextual [*]

theorem State.opApply_some {s : State} {c : Client} {only : Bool} {r : OpRec} {x0 : Nat} {x1 : List Byte} {s' : State} (he : State.opApply s c only r = (x0, x1, s')) (hs : State.Good FZ PQ s) : State.Good FZ PQ s' := by
  have hg := State.opApply_good s c only r hs
  rw [he] at hg
  exact hg

@[simp] theorem applyRecs_good (c : Client) (only : Bool) (l : List OpRec) (s : State) (size : Nat) (full : Bool)
    (hs : State.Good FZ PQ s) : State.Good FZ PQ (applyRecs c only l s size full).2 := by
  induction l generalizing s size full with
  | nil => exact hs
  | cons r rest ih =>
    unfold applyRecs
    exact ih _ _ _ (State.opApply_good _ _ _ _ hs)

@[simp] theorem State.answer_good (s : State) (src : Transport) (resp : List Byte) (hs : State.Good FZ PQ s) : State.Good FZ PQ (State.answer s src resp) := by
  unfold State.answer
  repeat' split
  all_goals simp [hs]

@[simp] theorem State.refuseFrame_good (s : State) (src : Transport) (f : List Byte) (status : Nat) (hs : State.Good FZ PQ s) : State.Good FZ PQ (State.refuseFrame s src f status) := by
  unfold State.refuseFrame
  simp (maxDischargeDepth := 60) [hs]

@[simp] theorem State.acceptFrame_good (s : State) (src : Transport) (f resp : List Byte) (hs : State.Good FZ PQ s) : State.Good FZ PQ (State.acceptFrame s src f resp) := by
  unfold State.acceptFrame
  repeat' split
  all_goals simp [hs]

@[simp] theorem State.applyRequest_good (s : State) (c : Client) (f : List Byte) (recs : List OpRec) (hs : State.Good FZ PQ s) : State.Good FZ PQ (State.applyRequest s c f recs) := by
  unfold State.applyRequest
  simp (maxDischargeDepth := 60) [hs]

@[simp] theorem State.applyOpen_good (s : State) (src : Transport) (f : List Byte) (hs : State.Good FZ PQ s) : State.Good FZ PQ (State.applyOpen s src f) := by
  unfold State.applyOpen
  repeat' first | with_reducible assumption | with_reducible apply State.answer_good | with_reducible apply State.refuseFrame_good | simp only [good_keep, good_time] | split | dsimp only

@[simp] theorem State.closeSession_good (s : State) (n : Nat) (hs : State.Good FZ PQ s) : State.Good FZ PQ (State.closeSession s n) := by
  unfold State.closeSession
  repeat' first | with_reducible assumption | with_reducible apply State.installerGone_good | simp only [good_keep, good_time] | intro _

@[simp] theorem State.notifySession_good (s : State) (x : Session) (hs : State.Good FZ PQ s) : State.Good FZ PQ (State.notifySession s x) := by
  unfold State.notifySession
  repeat' first | with_reducible assumption | with_reducible apply State.bump_good | with_reducible apply State.emit_good | with_reducible refine good_each ?_ (fun _ _ _ => ?_) | simp only [good_keep, good_time] | intro _ | split | dsimp only

theorem execNotify_good (s : State) {s' : State} (h : execNotify s = .next s') (hs : State.Good FZ PQ s) : State.Good FZ PQ s' := by
  unfold execNotify at h
  obtain rfl := Host.Outcome.next.inj h
  clear h
  repeat' first | with_reducible assumption | with_reducible apply State.notifySession_good | with_reducible refine good_each ?_ (fun _ _ _ => ?_) | intro _

@[simp] theorem State.applyPoll_good (s : State) (t : Fin 4) (f : List Byte) (hs : State.Good FZ PQ s) : State.Good FZ PQ (State.applyPoll s t f) := by
  unfold State.applyPoll
  repeat' first | with_reducible assumption | with_reducible apply State.bump_good | with_reducible apply State.setCause_good | with_reducible apply State.answer_good | simp only [good_keep, good_time] | split | dsimp only

@[simp] theorem State.dispatchFrame_good (s : State) (src : Transport) (session : Option Nat) (f : List Byte) (recs : List OpRec) (hs : State.Good FZ PQ s) : State.Good FZ PQ (State.dispatchFrame s src session f recs) := by
  unfold State.dispatchFrame
  repeat' split
  all_goals simp [hs]

@[simp] theorem State.applyFrame_good (s : State) (src : Transport) (f : List Byte) (hs : State.Good FZ PQ s) : State.Good FZ PQ (State.applyFrame s src f) := by
  unfold State.applyFrame
  repeat' split
  all_goals simp [hs]

@[simp] theorem State.receiveFrame_good (s : State) (src : Transport) (f : List Byte) (hs : State.Good FZ PQ s) : State.Good FZ PQ (State.receiveFrame s src f) := by
  unfold State.receiveFrame
  repeat' first | with_reducible assumption | with_reducible apply State.bump_good | with_reducible apply State.answer_good | with_reducible apply State.applyFrame_good | split | dsimp only

@[simp] theorem State.applyDeferred_good (s : State) (hs : State.Good FZ PQ s) : State.Good FZ PQ (State.applyDeferred s) := by
  unfold State.applyDeferred
  repeat' first | with_reducible assumption | with_reducible apply State.receiveFrame_good | simp only [good_keep, good_time] | split

@[simp] theorem State.frameIn_good (s : State) (src : Transport) (f : List Byte) (atNs : Nat) (hs : State.Good FZ PQ s) : State.Good FZ PQ (State.frameIn s src f atNs) := by
  unfold State.frameIn
  repeat' first | with_reducible assumption | with_reducible apply State.receiveFrame_good | with_reducible apply State.applyDeferred_good | with_reducible refine good_each ?_ (fun _ _ _ => ?_) | simp only [good_keep, good_time] | intro _ | split

theorem execRequest_good (src : Transport) (f : List Byte) (atNs : Nat) (s : State) {s' : State} (h : execRequest src f atNs s = .next s') (hs : State.Good FZ PQ s) : State.Good FZ PQ s' := by
  unfold execRequest at h
  unfold noted at h
  obtain rfl := Host.Outcome.next.inj h
  clear h
  repeat' split
  all_goals simp [hs]

theorem execJdpOpen_good (src : Transport) (f : List Byte) (atNs : Nat) (s : State) {s' : State} (h : execJdpOpen src f atNs s = .next s') (hs : State.Good FZ PQ s) : State.Good FZ PQ s' := by
  unfold execJdpOpen at h
  unfold noted at h
  obtain rfl := Host.Outcome.next.inj h
  clear h
  repeat' split
  all_goals simp [hs]

theorem execClose_good (src : Transport) (f : List Byte) (atNs : Nat) (s : State) {s' : State} (h : execClose src f atNs s = .next s') (hs : State.Good FZ PQ s) : State.Good FZ PQ s' := by
  unfold execClose at h
  unfold noted at h
  obtain rfl := Host.Outcome.next.inj h
  clear h
  repeat' split
  all_goals simp [hs]

theorem execPoll_good (src : Transport) (f : List Byte) (atNs : Nat) (s : State) {s' : State} (h : execPoll src f atNs s = .next s') (hs : State.Good FZ PQ s) : State.Good FZ PQ s' := by
  unfold execPoll at h
  unfold noted at h
  obtain rfl := Host.Outcome.next.inj h
  clear h
  repeat' split
  all_goals simp [hs]

theorem execFrameDeferredApply_good (s : State) {s' : State} (h : execFrameDeferredApply s = .next s') (hs : State.Good FZ PQ s) : State.Good FZ PQ s' := by
  unfold execFrameDeferredApply at h
  unfold noted at h
  obtain rfl := Host.Outcome.next.inj h
  clear h
  simp [hs]

theorem execSessionIdleExpiry_good (n : Nat) (s : State) {s' : State} (h : execSessionIdleExpiry n s = .next s') (hs : State.Good FZ PQ s) : State.Good FZ PQ s' := by
  unfold execSessionIdleExpiry at h
  unfold noted at h
  obtain rfl := Host.Outcome.next.inj h
  clear h
  repeat' split
  all_goals simp [hs]

end Sys2Proof.Machine
end

