-- ==== Sys2Proof/Laws/GoodQuota.lean ====
section
/-! SUPPORT. What Machine/Quota.lean keeps: the fuses, the queue, the tick count and the canonical form of memory (State.Good). -/
set_option linter.unusedSimpArgs false

namespace Sys2Proof.Machine

open Sys2Proof

variable {FZ : FuseSt} {PQ : List Instr → Nat → Prop}

@[simp] theorem State.scaleQuota_good (s : State) (hs : State.Good FZ PQ s) : State.Good FZ PQ (State.scaleQuota s) := by
  unfold State.scaleQuota
  repeat' first | with_reducible assumption | with_reducible refine good_each ?_ (fun _ _ _ => ?_) | simp only [good_keep, good_time] | intro _ | split | dsimp only

end Sys2Proof.Machine
end

