-- ==== Sys2Proof/Laws/GoodInstall.lean ====
section
/-! SUPPORT. What Machine/Install.lean keeps: the fuses, the queue, the tick count and the canonical form of memory (State.Good). -/
set_option linter.unusedSimpArgs false

namespace Sys2Proof.Machine

open Sys2Proof

variable {FZ : FuseSt} {PQ : List Instr → Nat → Prop}

@[simp] theorem State.instReply_good (s : State) (src : Endpoint) (d : List Byte) (offset status : Nat) (hs : State.Good FZ PQ s) : State.Good FZ PQ (State.instReply s src d offset status) := by
  unfold State.instReply
  repeat' first | with_reducible assumption | with_reducible apply State.emit_good
  all_goals simp (maxDischargeDepth := 60) +contextual [*]

@[simp] theorem State.control_good (s : State) (src : Endpoint) (d : List Byte) (bodyOk : Bool)
    (f : State → Nat × State) (hs : State.Good FZ PQ s) (hf : ∀ s, State.Good FZ PQ s → State.Good FZ PQ (f s).2) :
    State.Good FZ PQ (s.control src d bodyOk f) := by
  unfold State.control
  repeat' first | with_reducible assumption | with_reducible apply State.emit_good | with_reducible apply State.instReply_good | simp only [good_keep, good_time] | intro _ | split | dsimp only
  all_goals exact hf _ hs

@[simp] theorem State.openModel_good (s : State) (src : Endpoint) (session : Nat) (b : List Byte) (hs : State.Good FZ PQ s) : State.Good FZ PQ (State.openModel s src session b).2 := by
  unfold State.openModel
  repeat' first | with_reducible assumption | with_reducible apply State.verified_good | with_reducible apply State.reportInstall_good | simp only [good_keep, good_time] | split | dsimp only
  all_goals simp (maxDischargeDepth := 60) +contextual [*]

theorem State.openModel_some {s : State} {src : Endpoint} {session : Nat} {b : List Byte} {x0 : Nat} {s' : State} (he : State.openModel s src session b = (x0, s')) (hs : State.Good FZ PQ s) : State.Good FZ PQ s' := by
  have hg := State.openModel_good s src session b hs
  rw [he] at hg
  exact hg

theorem execInstallOpen_good (port : Fin 3) (addr : UdpAddrs) (d : List Byte) (s : State) {s' : State} (h : execInstallOpen port addr d s = .next s') (hs : State.Good FZ PQ s) : State.Good FZ PQ s' := by
  unfold execInstallOpen at h
  unfold noted at h
  obtain rfl := Host.Outcome.next.inj h
  clear h
  repeat' first | with_reducible assumption | with_reducible apply State.control_good | with_reducible apply State.noteChanges_good | with_reducible apply State.openModel_good | with_reducible refine State.openModel_some (by with_reducible assumption) ?_ | intro _ | split

@[simp] theorem State.poolRoom_good (s : State) (n k : Nat) (hs : State.Good FZ PQ s) :
    State.Good FZ PQ (s.poolRoom n k) := by
  induction k generalizing s with
  | zero => exact hs
  | succ k ih =>
    unfold State.poolRoom
    split
    · exact hs
    · split
      · exact ih _ (State.evictOne_some ‹_› hs)
      · exact hs

@[simp] theorem State.modelRoom_good (s : State) (n : Nat) (hs : State.Good FZ PQ s) : State.Good FZ PQ (State.modelRoom s n) := by
  unfold State.modelRoom
  simp [hs]

theorem State.takeModelPages_some {s s' : State} {k i : Nat} {l : List Nat} (h : s.takeModelPages k i = some (l, s'))
    (hs : State.Good FZ PQ s) : State.Good FZ PQ s' := by
  induction k generalizing s s' i l with
  | zero => cases h; exact hs
  | succ k ih =>
    unfold State.takeModelPages at h
    split at h
    · cases h
    · obtain ⟨y, hy, h⟩ := Option.map_eq_some_iff.mp h
      cases h
      exact ih hy (State.takeFrame_some ‹_› hs)

theorem State.modelPages_some {s s' : State} {n : Nat} {l : List Nat} (h : s.modelPages n = some (l, s'))
    (hs : State.Good FZ PQ s) : State.Good FZ PQ s' := by
  unfold State.modelPages at h
  split at h
  · exact State.takeModelPages_some h hs
  · cases h

@[simp] theorem State.takeInstallFrames_good (s : State) (hs : State.Good FZ PQ s) :
    State.Good FZ PQ s.takeInstallFrames := by
  unfold State.takeInstallFrames
  split
  · exact hs
  · split
    · exact State.endInstall_good _ _ _ (State.modelRoom_good _ _ hs)
    · apply State.endPhase_good
      simp only [good_keep, good_time]
      exact State.modelPages_some ‹_› (State.modelRoom_good _ _ hs)

@[simp] theorem State.storeImageData_good (s : State) (d : List Byte) (hs : State.Good FZ PQ s) : State.Good FZ PQ (State.storeImageData s d) := by
  unfold State.storeImageData
  repeat' first | with_reducible assumption | with_reducible apply State.writeVia_good | with_reducible apply State.sendAck_good | with_reducible apply State.journal_good | with_reducible apply State.endPhase_good | simp only [good_keep, good_time] | intro _ | split | dsimp only

@[simp] theorem State.setUpdateSlot_good (s : State) (b : List Byte) (hs : State.Good FZ PQ s) : State.Good FZ PQ (State.setUpdateSlot s b) := by
  unfold State.setUpdateSlot
  repeat' split
  all_goals simp [hs]

@[simp] theorem State.storeFirmware_good (s : State) (d : List Byte) (hs : State.Good FZ PQ s) : State.Good FZ PQ (State.storeFirmware s d) := by
  unfold State.storeFirmware
  repeat' first | with_reducible assumption | with_reducible apply State.endUpdate_good | with_reducible apply State.setUpdateSlot_good | simp only [good_keep, good_time] | split | dsimp only

@[simp] theorem State.seeInstaller_good (s : State) (hs : State.Good FZ PQ s) : State.Good FZ PQ (State.seeInstaller s) := by
  unfold State.seeInstaller
  repeat' first | with_reducible assumption | simp only [good_keep, good_time] | intro _ | split
  all_goals simp (maxDischargeDepth := 60) +contextual [*]

theorem execInstallData_good (port : Fin 3) (addr : UdpAddrs) (d : List Byte) (s : State) {s' : State} (h : execInstallData port addr d s = .next s') (hs : State.Good FZ PQ s) : State.Good FZ PQ s' := by
  unfold execInstallData at h
  unfold noted at h
  obtain rfl := Host.Outcome.next.inj h
  clear h
  apply State.noteChanges_good
  repeat' first
    | with_reducible assumption
    | with_reducible apply State.storeImageData_good
    | with_reducible apply State.storeFirmware_good
    | with_reducible apply State.seeInstaller_good
    | split

theorem execInstallAckTimer_good (s : State) {s' : State} (h : execInstallAckTimer s = .next s') (hs : State.Good FZ PQ s) : State.Good FZ PQ s' := by
  unfold execInstallAckTimer at h
  obtain rfl := Host.Outcome.next.inj h
  clear h
  simp [hs]

@[simp] theorem State.startImageDigest_good (s : State) (hs : State.Good FZ PQ s) : State.Good FZ PQ (State.startImageDigest s) := by
  unfold State.startImageDigest
  repeat' split
  all_goals simp [hs]

theorem execInstallDigestDone_good (s : State) {s' : State} (h : execInstallDigestDone s = .next s') (hs : State.Good FZ PQ s) : State.Good FZ PQ s' := by
  unfold execInstallDigestDone at h
  obtain rfl := Host.Outcome.next.inj h
  clear h
  repeat' first | with_reducible assumption | simp only [good_keep, good_time] | split
  all_goals simp (maxDischargeDepth := 60) +contextual [*]

@[simp] theorem State.endDigest_good (s : State) (hs : State.Good FZ PQ s) : State.Good FZ PQ (State.endDigest s) := by
  unfold State.endDigest
  repeat' first | with_reducible assumption | with_reducible apply State.endPhase_good | with_reducible apply State.endInstall_good | simp only [good_keep, good_time] | split | dsimp only
  all_goals simp (maxDischargeDepth := 60) +contextual [*]

theorem execInstallSignatureDone_good (s : State) {s' : State} (h : execInstallSignatureDone s = .next s') (hs : State.Good FZ PQ s) : State.Good FZ PQ s' := by
  unfold execInstallSignatureDone at h
  unfold noted at h
  obtain rfl := Host.Outcome.next.inj h
  clear h
  repeat' first | with_reducible assumption | with_reducible apply State.noteChanges_good | with_reducible apply State.verified_good | with_reducible apply State.endPhase_good | with_reducible apply State.endInstall_good | simp only [good_keep, good_time] | split | dsimp only

@[simp] theorem State.sealModel_good (s : State) (hs : State.Good FZ PQ s) : State.Good FZ PQ (State.sealModel s) := by
  unfold State.sealModel
  repeat' first | with_reducible assumption | with_reducible apply State.endPhase_good | with_reducible apply State.scaleQuota_good | simp only [good_keep, good_time, good_tables] | split | dsimp only

@[simp] theorem State.abortInstall_good (s : State) (hs : State.Good FZ PQ s) : State.Good FZ PQ (State.abortInstall s).2 := by
  unfold State.abortInstall
  repeat' split
  all_goals simp [hs]

theorem State.abortInstall_some {s : State} {x0 : Nat} {s' : State} (he : State.abortInstall s = (x0, s')) (hs : State.Good FZ PQ s) : State.Good FZ PQ s' := by
  have hg := State.abortInstall_good s hs
  rw [he] at hg
  exact hg

theorem execAbort_good (port : Fin 3) (addr : UdpAddrs) (d : List Byte) (s : State) {s' : State} (h : execAbort port addr d s = .next s') (hs : State.Good FZ PQ s) : State.Good FZ PQ s' := by
  unfold execAbort at h
  unfold noted at h
  obtain rfl := Host.Outcome.next.inj h
  clear h
  repeat' first | with_reducible assumption | with_reducible apply State.control_good | with_reducible apply State.noteChanges_good | with_reducible apply State.abortInstall_good | with_reducible refine State.abortInstall_some (by with_reducible assumption) ?_ | split

@[simp] theorem State.removeRequest_good (s : State) (hs : State.Good FZ PQ s) : State.Good FZ PQ (State.removeRequest s).2 := by
  unfold State.removeRequest
  repeat' split
  all_goals simp [hs]

theorem State.removeRequest_some {s : State} {x0 : Nat} {s' : State} (he : State.removeRequest s = (x0, s')) (hs : State.Good FZ PQ s) : State.Good FZ PQ s' := by
  have hg := State.removeRequest_good s hs
  rw [he] at hg
  exact hg

theorem execRemove_good (port : Fin 3) (addr : UdpAddrs) (d : List Byte) (s : State) {s' : State} (h : execRemove port addr d s = .next s') (hs : State.Good FZ PQ s) : State.Good FZ PQ s' := by
  unfold execRemove at h
  unfold noted at h
  obtain rfl := Host.Outcome.next.inj h
  clear h
  repeat' first | with_reducible assumption | with_reducible apply State.control_good | with_reducible apply State.noteChanges_good | with_reducible apply State.removeRequest_good | with_reducible refine State.removeRequest_some (by with_reducible assumption) ?_ | split

@[simp] theorem State.removeModel_good (s : State) (hs : State.Good FZ PQ s) : State.Good FZ PQ (State.removeModel s) := by
  unfold State.removeModel
  repeat' first | with_reducible assumption | with_reducible apply State.modTen_good | with_reducible apply State.useFrame_good | with_reducible apply State.dropDie_good | with_reducible apply State.reportInstall_good | with_reducible apply State.journal_good | with_reducible apply State.scaleQuota_good | with_reducible refine good_each ?_ (fun _ _ _ => ?_) | simp only [good_keep, good_time, good_tables] | intro _ | split | dsimp only

theorem execInstallStatus_good (port : Fin 3) (addr : UdpAddrs) (d : List Byte) (s : State) {s' : State} (h : execInstallStatus port addr d s = .next s') (hs : State.Good FZ PQ s) : State.Good FZ PQ s' := by
  unfold execInstallStatus at h
  repeat' split at h
  all_goals simp only [Host.Outcome.next.injEq, reduceCtorEq] at h
  all_goals subst h
  repeat' first | with_reducible assumption | with_reducible apply State.instReply_good | with_reducible apply State.instReply_good | split | dsimp only
  all_goals simp (maxDischargeDepth := 60) +contextual [*]

@[simp] theorem State.openFirmware_good (s : State) (src : Endpoint) (session : Nat) (b : List Byte) (hs : State.Good FZ PQ s) : State.Good FZ PQ (State.openFirmware s src session b).2 := by
  unfold State.openFirmware
  repeat' first | with_reducible assumption | with_reducible apply State.setUpdateSlot_good | with_reducible apply State.setUpdateSlot_good | simp only [good_keep, good_time] | split | dsimp only
  all_goals simp (maxDischargeDepth := 60) +contextual [*]

theorem State.openFirmware_some {s : State} {src : Endpoint} {session : Nat} {b : List Byte} {x0 : Nat} {s' : State} (he : State.openFirmware s src session b = (x0, s')) (hs : State.Good FZ PQ s) : State.Good FZ PQ s' := by
  have hg := State.openFirmware_good s src session b hs
  rw [he] at hg
  exact hg

theorem execFwOpen_good (port : Fin 3) (addr : UdpAddrs) (d : List Byte) (s : State) {s' : State} (h : execFwOpen port addr d s = .next s') (hs : State.Good FZ PQ s) : State.Good FZ PQ s' := by
  unfold execFwOpen at h
  unfold noted at h
  obtain rfl := Host.Outcome.next.inj h
  clear h
  repeat' first | with_reducible assumption | with_reducible apply State.control_good | with_reducible apply State.noteChanges_good | with_reducible apply State.openFirmware_good | with_reducible refine State.openFirmware_some (by with_reducible assumption) ?_ | intro _ | split

theorem execAttest_good (port : Fin 3) (addr : UdpAddrs) (d : List Byte) (s : State) {s' : State} (h : execAttest port addr d s = .next s') (hs : State.Good FZ PQ s) : State.Good FZ PQ s' := by
  unfold execAttest at h
  repeat' split at h
  all_goals simp only [Host.Outcome.next.injEq, reduceCtorEq] at h
  all_goals subst h
  repeat' first | with_reducible assumption | with_reducible apply State.emit_good | with_reducible apply State.report_good | with_reducible refine State.report_some (by with_reducible assumption) ?_ | split | dsimp only
  all_goals simp (maxDischargeDepth := 60) +contextual [*]

end Sys2Proof.Machine
end

