-- ==== Sys2Proof/Laws/GoodPower.lean ====
section
/-! SUPPORT. What Machine/Power.lean keeps: the fuses, the queue, the tick count and the canonical form of memory (State.Good). -/
set_option linter.unusedSimpArgs false

namespace Sys2Proof.Machine

open Sys2Proof

variable {FZ : FuseSt} {PQ : List Instr → Nat → Prop}

@[simp] theorem State.cleared_good (s : State) (h0 : Restarts PQ) (hs : State.Good FZ PQ s) : State.Good FZ PQ s.cleared :=
  ⟨hs.1, h0 _ _ hs.2.1, rfl⟩

@[simp] theorem State.moduleReset_good (s : State) (h0 : Restarts PQ) (hs : State.Good FZ PQ s) : State.Good FZ PQ (State.moduleReset s) := by
  unfold State.moduleReset
  repeat' split
  all_goals simp [hs, h0]

@[simp] theorem State.modPower_good (s : State) (f : PowerSt → PowerSt) (hs : State.Good FZ PQ s) : State.Good FZ PQ (State.modPower s f) := by
  unfold State.modPower
  simp [hs]

@[simp] theorem State.grantFlash_good (s : State) (hs : State.Good FZ PQ s) : State.Good FZ PQ (State.grantFlash s) := by
  unfold State.grantFlash
  simp [hs]

@[simp] theorem State.alert_good (s : State) (hs : State.Good FZ PQ s) : State.Good FZ PQ (State.alert s) := by
  unfold State.alert
  repeat' first | with_reducible assumption | with_reducible apply State.modPower_good | with_reducible apply State.modPower_good | intro _
  all_goals simp (maxDischargeDepth := 60) +contextual [*]

theorem execModResetN_good (s : State) (h0 : Restarts PQ) {s' : State} (h : execModResetN s = .next s') (hs : State.Good FZ PQ s) : State.Good FZ PQ s' := by
  unfold execModResetN at h
  obtain rfl := Host.Outcome.next.inj h
  clear h
  simp (maxDischargeDepth := 60) [hs, h0]

theorem execPwrGoodLoss_good (s : State) (h0 : Restarts PQ) {s' : State} (h : execPwrGoodLoss s = .next s') (hs : State.Good FZ PQ s) : State.Good FZ PQ s' := by
  unfold execPwrGoodLoss at h
  obtain rfl := Host.Outcome.next.inj h
  clear h
  simp [hs, h0]

theorem execInputApply_good (s : State) {s' : State} (h : execInputApply s = .next s') (hs : State.Good FZ PQ s) : State.Good FZ PQ s' := by
  unfold execInputApply at h
  obtain rfl := Host.Outcome.next.inj h
  clear h
  repeat' first | with_reducible assumption | with_reducible apply State.modPower_good | with_reducible apply State.grantFlash_good | with_reducible apply State.modPower_good | with_reducible apply State.grantFlash_good | with_reducible apply State.alert_good | intro _ | split
  all_goals simp (maxDischargeDepth := 60) +contextual [*]

theorem execInputRemove_good (s : State) (h0 : Restarts PQ) {s' : State} (h : execInputRemove s = .next s') (hs : State.Good FZ PQ s) : State.Good FZ PQ s' := by
  unfold execInputRemove at h
  obtain rfl := Host.Outcome.next.inj h
  clear h
  simp (maxDischargeDepth := 60) [hs, h0]

theorem blowBits_grew (k n : Nat) (f : BitVec 64) : f &&& blowBits k n f = f := by
  induction k generalizing f with
  | zero => simp [blowBits]
  | succ k ih =>
    unfold blowBits
    split
    · simp
    · split
      · rename_i i _
        have h := ih (f ||| 1#64 <<< i)
        have h1 : f &&& (f ||| 1#64 <<< i) = f := by ext j; simp; intro a; simp [a]
        calc f &&& blowBits k n (f ||| 1#64 <<< i)
            = (f &&& (f ||| 1#64 <<< i)) &&& blowBits k n (f ||| 1#64 <<< i) := by rw [h1]
          _ = f &&& ((f ||| 1#64 <<< i) &&& blowBits k n (f ||| 1#64 <<< i)) := BitVec.and_assoc _ _ _
          _ = f := by rw [h, h1]
      · simp

@[simp] theorem State.advanceRollback_good (s : State) (hs : State.Good FZ PQ s) :
    State.Good FZ PQ s.advanceRollback := by
  unfold State.advanceRollback
  split
  · obtain ⟨⟨h1, h2, h3, h4, h5, h6⟩, hp, hm⟩ := hs
    refine ⟨⟨h1, h2, h3, h4, h5, ?_⟩, hp, hm⟩
    have h := blowBits_grew 64 (min (imageRollback s.flash.imageA) (imageRollback s.flash.imageB)) s.fuses.rollback
    dsimp only
    rw [← h6, BitVec.and_assoc, h]
  · exact hs

@[simp] theorem State.startImage_good (s : State) (b : Nat) (hs : State.Good FZ PQ s) : State.Good FZ PQ (State.startImage s b) := by
  unfold State.startImage
  simp [hs]

@[simp] theorem State.loadValue_good (s : State) (x : Nat × OdVal) (hs : State.Good FZ PQ s) : State.Good FZ PQ (State.loadValue s x) := by
  unfold State.loadValue
  repeat' split
  all_goals simp [hs]

@[simp] theorem State.loadStored_good (s : State) (hs : State.Good FZ PQ s) : State.Good FZ PQ (State.loadStored s) := by
  unfold State.loadStored
  repeat' first | with_reducible assumption | with_reducible apply State.loadValue_good | with_reducible refine good_each ?_ (fun _ _ _ => ?_) | intro _ | split | dsimp only

@[simp] theorem State.loadJournal_good (s : State) (hs : State.Good FZ PQ s) : State.Good FZ PQ (State.loadJournal s) := by
  unfold State.loadJournal
  repeat' first | with_reducible assumption | with_reducible apply State.journal_good | simp only [good_keep, good_time] | split | dsimp only

@[simp] theorem State.startFault_good (s : State) (hs : State.Good FZ PQ s) : State.Good FZ PQ (State.startFault s) := by
  unfold State.startFault
  simp [hs]

@[simp] theorem State.startLinks_good (s : State) (hs : State.Good FZ PQ s) : State.Good FZ PQ (State.startLinks s) := by
  unfold State.startLinks
  simp [hs]

@[simp] theorem State.startUp_good (s : State) (b : Nat) (hs : State.Good FZ PQ s) : State.Good FZ PQ (State.startUp s b) := by
  unfold State.startUp
  repeat' first | with_reducible assumption | with_reducible apply State.advanceRollback_good | with_reducible apply State.redigest_good | with_reducible apply State.scaleQuota_good | with_reducible apply State.modPower_good | with_reducible apply State.startImage_good | with_reducible apply State.loadStored_good | with_reducible apply State.loadJournal_good | with_reducible apply State.startFault_good | with_reducible apply State.startLinks_good | simp only [good_keep, good_time] | intro _ | dsimp only

theorem execResetRelease_good (s : State) {s' : State} (h : execResetRelease s = .next s') (hs : State.Good FZ PQ s) : State.Good FZ PQ s' := by
  unfold execResetRelease at h
  obtain rfl := Host.Outcome.next.inj h
  clear h
  repeat' first | with_reducible assumption | with_reducible apply State.modPower_good | with_reducible apply State.startUp_good | simp only [good_keep, good_time] | intro _ | split | dsimp only

theorem execTrip_good (c : TripCause) (s : State) (h0 : Restarts PQ) {s' : State} (h : execTrip c s = .next s') (hs : State.Good FZ PQ s) : State.Good FZ PQ s' := by
  unfold execTrip at h
  obtain rfl := Host.Outcome.next.inj h
  clear h
  repeat' first | with_reducible assumption | with_reducible apply State.moduleReset_good | with_reducible apply State.modPower_good | with_reducible apply State.moduleReset_good | with_reducible apply State.modPower_good | with_reducible apply State.alert_good | simp only [good_keep, good_time] | intro _ | split | dsimp only
  all_goals simp (maxDischargeDepth := 60) +contextual [*]

theorem execThermalAlert_good (sensor : Fin 29) (milliC : Int) (s : State) {s' : State} (h : execThermalAlert sensor milliC s = .next s') (hs : State.Good FZ PQ s) : State.Good FZ PQ s' := by
  unfold execThermalAlert at h
  obtain rfl := Host.Outcome.next.inj h
  clear h
  simp (maxDischargeDepth := 60) [hs]

theorem execFlashSelN_good (s : State) {s' : State} (h : execFlashSelN s = .next s') (hs : State.Good FZ PQ s) : State.Good FZ PQ s' := by
  unfold execFlashSelN at h
  obtain rfl := Host.Outcome.next.inj h
  clear h
  simp [hs]

theorem execFlashSelNRelease_good (s : State) {s' : State} (h : execFlashSelNRelease s = .next s') (hs : State.Good FZ PQ s) : State.Good FZ PQ s' := by
  unfold execFlashSelNRelease at h
  obtain rfl := Host.Outcome.next.inj h
  clear h
  simp [hs]

theorem execPpsIn_good (offset : Int) (s : State) {s' : State} (h : execPpsIn offset s = .next s') (hs : State.Good FZ PQ s) : State.Good FZ PQ s' := by
  unfold execPpsIn at h
  obtain rfl := Host.Outcome.next.inj h
  clear h
  repeat' split
  all_goals simp [hs]

theorem execPpsEdgeMissing_good (s : State) {s' : State} (h : execPpsEdgeMissing s = .next s') (hs : State.Good FZ PQ s) : State.Good FZ PQ s' := by
  unfold execPpsEdgeMissing at h
  obtain rfl := Host.Outcome.next.inj h
  clear h
  simp [hs]

theorem execPtpSourceChange_good (sources : BitVec 3) (s : State) {s' : State} (h : execPtpSourceChange sources s = .next s') (hs : State.Good FZ PQ s) : State.Good FZ PQ s' := by
  unfold execPtpSourceChange at h
  unfold noted at h
  obtain rfl := Host.Outcome.next.inj h
  clear h
  repeat' first | with_reducible assumption | with_reducible apply State.noteChanges_good | with_reducible apply State.modPower_good | simp only [good_keep, good_time] | intro _ | split | dsimp only

theorem State.smbus_good (s : State) (bs : List Byte) {s' : State} (h : State.smbus s bs = .next s') (hs : State.Good FZ PQ s) : State.Good FZ PQ s' := by
  unfold State.smbus at h
  obtain rfl := Host.Outcome.next.inj h
  clear h
  simp [hs]

theorem execSmbStatus_good (s : State) {s' : State} (h : execSmbStatus s = .next s') (hs : State.Good FZ PQ s) : State.Good FZ PQ s' := by
  exact State.smbus_good _ _ h hs

theorem execSmbStepping_good (s : State) {s' : State} (h : execSmbStepping s = .next s') (hs : State.Good FZ PQ s) : State.Good FZ PQ s' := by
  exact State.smbus_good _ _ h hs

theorem execSmbSerial_good (s : State) {s' : State} (h : execSmbSerial s = .next s') (hs : State.Good FZ PQ s) : State.Good FZ PQ s' := by
  exact State.smbus_good _ _ h hs

theorem execSmbModuleId_good (s : State) {s' : State} (h : execSmbModuleId s = .next s') (hs : State.Good FZ PQ s) : State.Good FZ PQ s' := by
  exact State.smbus_good _ _ h hs

theorem execSmbHottest_good (s : State) {s' : State} (h : execSmbHottest s = .next s') (hs : State.Good FZ PQ s) : State.Good FZ PQ s' := by
  exact State.smbus_good _ _ h hs

theorem execSmbHwFault_good (s : State) {s' : State} (h : execSmbHwFault s = .next s') (hs : State.Good FZ PQ s) : State.Good FZ PQ s' := by
  exact State.smbus_good _ _ h hs

theorem execSmbSensors_good (s : State) {s' : State} (h : execSmbSensors s = .next s') (hs : State.Good FZ PQ s) : State.Good FZ PQ s' := by
  exact State.smbus_good _ _ h hs

end Sys2Proof.Machine
end

