-- ==== Sys2Proof/Laws/GoodDone.lean ====
section
/-! SUPPORT. What Machine/Done.lean keeps: the fuses, the queue, the tick count and the canonical form of memory (State.Good). -/
set_option linter.unusedSimpArgs false

namespace Sys2Proof.Machine

open Sys2Proof

variable {FZ : FuseSt} {PQ : List Instr → Nat → Prop}

theorem execPinMigrationCopyDone_good (t : Fin 4) (v : Nat) (s : State) {s' : State} (h : execPinMigrationCopyDone t v s = .next s') (hs : State.Good FZ PQ s) : State.Good FZ PQ s' := by
  unfold execPinMigrationCopyDone at h
  unfold noted at h
  obtain rfl := Host.Outcome.next.inj h
  clear h
  simp [hs]

theorem execDiePinCopyDone_good (t : Fin 4) (v : Nat) (s : State) {s' : State} (h : execDiePinCopyDone t v s = .next s') (hs : State.Good FZ PQ s) : State.Good FZ PQ s' := by
  unfold execDiePinCopyDone at h
  unfold noted at h
  obtain rfl := Host.Outcome.next.inj h
  clear h
  simp [hs]

theorem execStagingCopyDone_good (die : Fin 4) (ref : StagedRef) (s : State) {s' : State} (h : execStagingCopyDone die ref s = .next s') (hs : State.Good FZ PQ s) : State.Good FZ PQ s' := by
  unfold execStagingCopyDone at h
  unfold noted at h
  obtain rfl := Host.Outcome.next.inj h
  clear h
  repeat' first | with_reducible assumption | with_reducible apply State.modKv_good | with_reducible apply State.noteChanges_good | simp only [good_keep, good_time, good_tables] | intro _ | split

theorem execStagedAccumulationDone_good (t : Fin 4) (v : Nat) (s : State) {s' : State} (h : execStagedAccumulationDone t v s = .next s') (hs : State.Good FZ PQ s) : State.Good FZ PQ s' := by
  unfold execStagedAccumulationDone at h
  unfold noted at h
  obtain rfl := Host.Outcome.next.inj h
  clear h
  repeat' first | with_reducible assumption | with_reducible apply State.copyFrame_good | with_reducible apply State.modRun_good | with_reducible apply State.useFrame_good | with_reducible apply State.applyStaged_good | with_reducible apply State.noteChanges_good | intro _ | split | dsimp only

@[simp] theorem State.syncDirectory_good (s : State) (t : Fin 4) (desc : Nat) (hs : State.Good FZ PQ s) : State.Good FZ PQ (State.syncDirectory s t desc) := by
  unfold State.syncDirectory
  repeat' split
  all_goals simp [hs]

@[simp] theorem State.syncAugmentation_good (s : State) (n : Nat) (hs : State.Good FZ PQ s) : State.Good FZ PQ (State.syncAugmentation s n) := by
  unfold State.syncAugmentation
  repeat' split
  all_goals simp [hs]

theorem execTableSyncDone_good (table : TableId) (s : State) {s' : State} (h : execTableSyncDone table s = .next s') (hs : State.Good FZ PQ s) : State.Good FZ PQ s' := by
  unfold execTableSyncDone at h
  unfold noted at h
  obtain rfl := Host.Outcome.next.inj h
  clear h
  repeat' first | with_reducible assumption | with_reducible apply State.noteChanges_good | with_reducible apply State.syncDirectory_good | with_reducible apply State.syncAugmentation_good | simp only [good_keep, good_time, good_tables] | split

theorem execScrubDone_good (s : State) {s' : State} (h : execScrubDone s = .next s') (hs : State.Good FZ PQ s) : State.Good FZ PQ s' := by
  unfold execScrubDone at h
  unfold noted at h
  obtain rfl := Host.Outcome.next.inj h
  clear h
  repeat' first | with_reducible assumption | with_reducible apply State.noteChanges_good | simp only [good_keep, good_time, good_tables] | intro _

end Sys2Proof.Machine
end

