-- ==== Sys2Proof/Laws/GoodLinks.lean ====
section
/-! SUPPORT. What Machine/Links.lean keeps: the fuses, the queue, the tick count and the canonical form of memory (State.Good). -/
set_option linter.unusedSimpArgs false

namespace Sys2Proof.Machine

open Sys2Proof

variable {FZ : FuseSt} {PQ : List Instr → Nat → Prop}

@[simp] theorem State.announce_good (s : State) (before : State) (hs : State.Good FZ PQ s) : State.Good FZ PQ (State.announce s before) := by
  unfold State.announce
  repeat' first | with_reducible assumption | with_reducible apply State.sendAll_good | simp only [good_keep, good_time] | intro _ | split | dsimp only

@[simp] theorem State.agree_good (s : State) (hs : State.Good FZ PQ s) : State.Good FZ PQ (State.agree s) := by
  unfold State.agree
  repeat' first | with_reducible assumption | simp only [good_keep, good_time] | split | dsimp only

@[simp] theorem State.prune_good (s : State) (hs : State.Good FZ PQ s) : State.Good FZ PQ (State.prune s) := by
  unfold State.prune
  repeat' first | with_reducible assumption | simp only [good_keep, good_time] | intro _ | split | dsimp only
  all_goals simp (maxDischargeDepth := 60) +contextual [*]

@[simp] theorem State.settleNet_good (s : State) (before : State) (hs : State.Good FZ PQ s) : State.Good FZ PQ (State.settleNet s before) := by
  unfold State.settleNet
  repeat' first | with_reducible assumption | with_reducible apply State.announce_good | with_reducible apply State.agree_good | with_reducible apply State.announce_good | with_reducible apply State.agree_good | with_reducible apply State.prune_good
  all_goals simp (maxDischargeDepth := 60) +contextual [*]

@[simp] theorem State.countRetrain_good (s : State) (hs : State.Good FZ PQ s) : State.Good FZ PQ (State.countRetrain s) := by
  unfold State.countRetrain
  simp [hs]

@[simp] theorem State.retrainBad_good (s : State) (p : Fin 18) (hs : State.Good FZ PQ s) : State.Good FZ PQ (State.retrainBad s p) := by
  unfold State.retrainBad
  repeat' first | with_reducible assumption | with_reducible apply State.retrain_good | with_reducible apply State.countRetrain_good | with_reducible apply State.countRetrain_good | split | dsimp only
  all_goals simp (maxDischargeDepth := 60) +contextual [*]

theorem execLaneLockLoss_good (p : Fin 18) (lane : Fin 8) (s : State) {s' : State} (h : execLaneLockLoss p lane s = .next s') (hs : State.Good FZ PQ s) : State.Good FZ PQ s' := by
  unfold execLaneLockLoss at h
  repeat' split at h
  all_goals try unfold noted at h
  all_goals simp only [Host.Outcome.next.injEq, reduceCtorEq] at h
  all_goals subst h
  repeat' first | with_reducible assumption | with_reducible apply State.retrain_good | with_reducible apply State.noteChanges_good | with_reducible apply State.announce_good | with_reducible apply State.countRetrain_good | split | dsimp only

theorem execErrorCountRetrain_good (p : Fin 18) (s : State) {s' : State} (h : execErrorCountRetrain p s = .next s') (hs : State.Good FZ PQ s) : State.Good FZ PQ s' := by
  unfold execErrorCountRetrain at h
  unfold noted at h
  obtain rfl := Host.Outcome.next.inj h
  clear h
  simp (maxDischargeDepth := 60) [hs]

@[simp] theorem State.grantAll_good (s : State) (p : Fin 18) (hs : State.Good FZ PQ s) : State.Good FZ PQ (State.grantAll s p) := by
  unfold State.grantAll
  repeat' first | with_reducible assumption | with_reducible apply State.modL_good | with_reducible refine good_each ?_ (fun _ _ _ => ?_) | intro _

@[simp] theorem State.trainingRecords_good (s : State) (p : Fin 18) (passed set : BitVec 8) (hs : State.Good FZ PQ s) : State.Good FZ PQ (State.trainingRecords s p passed set) := by
  unfold State.trainingRecords
  repeat' first | with_reducible assumption | with_reducible apply State.emit_good | with_reducible refine good_each ?_ (fun _ _ _ => ?_) | intro _
  all_goals simp (maxDischargeDepth := 60) +contextual [*]

theorem execLinkTrained_good (p : Fin 18) (lanes : BitVec 8) (nextSeq : Nat) (s : State) {s' : State} (h : execLinkTrained p lanes nextSeq s = .next s') (hs : State.Good FZ PQ s) : State.Good FZ PQ s' := by
  unfold execLinkTrained at h
  repeat' split at h
  all_goals try unfold noted at h
  all_goals simp only [Host.Outcome.next.injEq, reduceCtorEq] at h
  all_goals subst h
  repeat' first | with_reducible assumption | with_reducible apply State.settleNet_good | with_reducible apply State.portDown_good | with_reducible apply State.trainingRecords_good | with_reducible apply State.emit_good | with_reducible apply State.modL_good | with_reducible apply State.flush_good | with_reducible apply State.sendControl_good | with_reducible apply State.resendFrom_good | with_reducible apply State.portDown_good | with_reducible apply State.noteChanges_good | with_reducible apply State.announce_good | with_reducible apply State.grantAll_good | intro _ | split | dsimp only

theorem execSignalLoss_good (p : Fin 18) (s : State) {s' : State} (h : execSignalLoss p s = .next s') (hs : State.Good FZ PQ s) : State.Good FZ PQ s' := by
  unfold execSignalLoss at h
  unfold noted at h
  obtain rfl := Host.Outcome.next.inj h
  clear h
  simp (maxDischargeDepth := 60) [hs]

theorem execRetrainTimer_good (p : Fin 18) (s : State) {s' : State} (h : execRetrainTimer p s = .next s') (hs : State.Good FZ PQ s) : State.Good FZ PQ s' := by
  unfold execRetrainTimer at h
  unfold noted at h
  obtain rfl := Host.Outcome.next.inj h
  clear h
  repeat' split
  all_goals simp [hs]

theorem execLaneTestPass_good (p : Fin 18) (lanes : BitVec 8) (s : State) {s' : State} (h : execLaneTestPass p lanes s = .next s') (hs : State.Good FZ PQ s) : State.Good FZ PQ s' := by
  unfold execLaneTestPass at h
  repeat' split at h
  all_goals try unfold noted at h
  all_goals simp only [Host.Outcome.next.injEq, reduceCtorEq] at h
  all_goals subst h
  simp (maxDischargeDepth := 60) [hs]

@[simp] theorem State.hold_good (s : State) (p : Fin 18) (hs : State.Good FZ PQ s) : State.Good FZ PQ (State.hold s p) := by
  unfold State.hold
  simp [hs]

@[simp] theorem State.recvHello_good (s : State) (p : Fin 18) (m : HelloMsg) (hs : State.Good FZ PQ s) : State.Good FZ PQ (State.recvHello s p m) := by
  unfold State.recvHello
  repeat' first | with_reducible assumption | with_reducible apply State.modL_good | with_reducible apply State.flush_good | with_reducible apply State.hold_good | with_reducible apply State.settleNet_good | with_reducible apply State.hold_good | simp only [good_keep, good_time] | intro _ | split | dsimp only
  all_goals simp (maxDischargeDepth := 60) +contextual [*]

@[simp] theorem State.recvNeighbours_good (s : State) (p : Fin 18) (l : List NeighbourEntry) (hs : State.Good FZ PQ s) : State.Good FZ PQ (State.recvNeighbours s p l) := by
  unfold State.recvNeighbours
  repeat' first | with_reducible assumption | with_reducible apply State.settleNet_good | simp only [good_keep, good_time] | split | dsimp only
  all_goals simp (maxDischargeDepth := 60) +contextual [*]

@[simp] theorem State.recvView_good (s : State) (p : Fin 18) (members : List Nat) (hs : State.Good FZ PQ s) : State.Good FZ PQ (State.recvView s p members) := by
  unfold State.recvView
  repeat' first | with_reducible assumption | with_reducible apply State.agree_good | simp only [good_keep, good_time] | split

@[simp] theorem State.addOffer_good (s : State) (o : Offer) (hs : State.Good FZ PQ s) : State.Good FZ PQ (State.addOffer s o) := by
  unfold State.addOffer
  simp [hs]

@[simp] theorem State.chooseParent_good (s : State) (hs : State.Good FZ PQ s) : State.Good FZ PQ (State.chooseParent s) := by
  unfold State.chooseParent
  repeat' split
  all_goals simp [hs]

@[simp] theorem State.sendTick_good (s : State) (m : TickMsg) (hs : State.Good FZ PQ s) : State.Good FZ PQ (State.sendTick s m) := by
  unfold State.sendTick
  repeat' first | with_reducible assumption | with_reducible apply State.sendAll_good
  all_goals simp (maxDischargeDepth := 60) +contextual [*]

@[simp] theorem State.boundaryTick_good (s : State) (hs : State.Good FZ PQ s) : State.Good FZ PQ (State.boundaryTick s) := by
  unfold State.boundaryTick
  repeat' first | with_reducible assumption | with_reducible apply State.sendTick_good | with_reducible apply State.sendTick_good | with_reducible apply State.sendTick_good | split

@[simp] theorem State.setPeriod_good (s : State) (n : Nat) (hs : State.Good FZ PQ s) : State.Good FZ PQ (State.setPeriod s n) := by
  unfold State.setPeriod
  simp [hs]

@[simp] theorem State.joinTick_good (s : State) (m : TickMsg) (hup : Rises PQ) (hs : State.Good FZ PQ s) :
    State.Good FZ PQ (s.joinTick m) := by
  have h := State.setPeriod_good s m.tickN hs
  exact ⟨h.1, hup _ _ _ (Nat.le_max_left _ _) h.2.1, h.2.2⟩

@[simp] theorem State.takeTick_good (s : State) (p : Fin 18) (m : TickMsg) (hs : State.Good FZ PQ s) : State.Good FZ PQ (State.takeTick s p m) := by
  unfold State.takeTick
  repeat' first | with_reducible assumption | with_reducible apply State.jump_good | simp only [good_keep, good_time] | split | dsimp only
  all_goals simp (maxDischargeDepth := 60) +contextual [*]

@[simp] theorem State.follow_good (s : State) (p : Fin 18) (m : TickMsg) (hup : Rises PQ) (hs : State.Good FZ PQ s) :
    State.Good FZ PQ (s.follow p m) := by
  unfold State.follow
  dsimp only
  split
  · simpa using hs
  · apply State.sendTick_good
    have h : State.Good FZ PQ ((if s.outOfStep m = true then s.joinTick m else s).takeTick p m) := by
      apply State.takeTick_good
      split
      · exact State.joinTick_good _ _ hup hs
      · exact hs
    generalize (if s.outOfStep m = true then s.joinTick m else s).takeTick p m = u at h ⊢
    split
    · exact State.sendControl_good _ _ _ h
    · exact h

@[simp] theorem State.offerTick_good (s : State) (p : Fin 18) (m : TickMsg) (hs : State.Good FZ PQ s) : State.Good FZ PQ (State.offerTick s p m) := by
  unfold State.offerTick
  simp (maxDischargeDepth := 60) [hs]

@[simp] theorem State.recvTick_good (s : State) (p : Fin 18) (m : TickMsg) (hup : Rises PQ) (hs : State.Good FZ PQ s) : State.Good FZ PQ (State.recvTick s p m) := by
  unfold State.recvTick
  simp (maxDischargeDepth := 60) [hs, hup]

@[simp] theorem State.recvOffer_good (s : State) (p : Fin 18) (masterId distance port : Nat) (hs : State.Good FZ PQ s) : State.Good FZ PQ (State.recvOffer s p masterId distance port) := by
  unfold State.recvOffer
  repeat' split
  all_goals simp [hs]

@[simp] theorem State.leadTicks_good (s : State) (hs : State.Good FZ PQ s) : State.Good FZ PQ (State.leadTicks s) := by
  unfold State.leadTicks
  repeat' first | with_reducible assumption | simp only [good_keep, good_time]
  all_goals simp (maxDischargeDepth := 60) +contextual [*]

theorem execTickLoss_good (s : State) {s' : State} (h : execTickLoss s = .next s') (hs : State.Good FZ PQ s) : State.Good FZ PQ s' := by
  unfold execTickLoss at h
  unfold noted at h
  obtain rfl := Host.Outcome.next.inj h
  clear h
  apply State.noteChanges_good
  refine good_ite (fun _ => ?_) (fun _ => hs)
  dsimp only
  split
  · exact hs
  · exact State.leadTicks_good _ hs

@[simp] theorem State.recvCredit_good (s : State) (p : Fin 18) (g n : Nat) (hs : State.Good FZ PQ s) : State.Good FZ PQ (State.recvCredit s p g n) := by
  unfold State.recvCredit
  repeat' first | with_reducible assumption | with_reducible apply State.flush_good | with_reducible apply State.sendAll_good | with_reducible refine good_each ?_ (fun _ _ _ => ?_) | simp only [good_keep, good_time] | intro _ | split | dsimp only

@[simp] theorem State.recvCountUp_good (s : State) (p : Fin 18) (n : Nat) (hs : State.Good FZ PQ s) : State.Good FZ PQ (State.recvCountUp s p n) := by
  unfold State.recvCountUp
  repeat' split
  all_goals simp [hs]

@[simp] theorem State.recvDelayReq_good (s : State) (p : Fin 18) (t1 nowNs : Nat) (hs : State.Good FZ PQ s) : State.Good FZ PQ (State.recvDelayReq s p t1 nowNs) := by
  unfold State.recvDelayReq
  simp [hs]

@[simp] theorem State.recvDelayResp_good (s : State) (p : Fin 18) (t1 t2 t3 t4 : Nat) (hs : State.Good FZ PQ s) : State.Good FZ PQ (State.recvDelayResp s p t1 t2 t3 t4) := by
  unfold State.recvDelayResp
  repeat' first | with_reducible assumption | with_reducible apply State.modL_good | with_reducible apply State.settleNet_good | with_reducible apply State.hold_good | with_reducible apply State.settleNet_good | with_reducible apply State.hold_good | intro _ | split | dsimp only
  all_goals simp (maxDischargeDepth := 60) +contextual [*]

@[simp] theorem State.recvControl_good (s : State) (p : Fin 18) (b : List Byte) (hup : Rises PQ) (hs : State.Good FZ PQ s) : State.Good FZ PQ (State.recvControl s p b) := by
  unfold State.recvControl
  repeat' first | with_reducible assumption | with_reducible apply State.recvHello_good | with_reducible apply State.recvNeighbours_good | with_reducible apply State.recvView_good | with_reducible apply State.recvTick_good | with_reducible apply State.recvOffer_good | with_reducible apply State.recvCredit_good | with_reducible apply State.recvCountUp_good | with_reducible apply State.recvDelayReq_good | with_reducible apply State.recvDelayResp_good | simp only [good_keep, good_time] | intro _ | split | dsimp only

@[simp] theorem State.takeData_good (s : State) (p : Fin 18) (h : FlitHead) (payload : List Byte) (hs : State.Good FZ PQ s) : State.Good FZ PQ (State.takeData s p h payload) := by
  unfold State.takeData
  repeat' first | with_reducible assumption | with_reducible apply State.modL_good | with_reducible apply State.enqueue_good | with_reducible apply State.sendControl_good | with_reducible apply State.deliver_good | intro _ | split | dsimp only
  all_goals simp (maxDischargeDepth := 60) +contextual [*]

@[simp] theorem State.onFlit_good (s : State) (p : Fin 18) (type : Nat) (bs : List Byte)
    (f : State → FlitHead → List Byte → State) (hs : State.Good FZ PQ s)
    (hf : ∀ s h b, State.Good FZ PQ s → State.Good FZ PQ (f s h b)) : State.Good FZ PQ (s.onFlit p type bs f) := by
  unfold State.onFlit
  repeat' first
    | with_reducible assumption
    | with_reducible apply State.retrainBad_good
    | with_reducible apply State.askRetry_good
    | with_reducible refine State.takeSeq_some (by with_reducible assumption) ?_
    | with_reducible apply hf
    | with_reducible apply State.takeHead_good
    | split

theorem execData_good (p : Fin 18) (flit : List Byte) (s : State) {s' : State} (h : execData p flit s = .next s') (hs : State.Good FZ PQ s) : State.Good FZ PQ s' := by
  unfold execData at h
  unfold noted at h
  obtain rfl := Host.Outcome.next.inj h
  clear h
  repeat' first | with_reducible assumption | with_reducible apply State.onFlit_good | with_reducible apply State.takeSeq_good | with_reducible apply State.noteChanges_good | with_reducible apply State.takeData_good | with_reducible refine State.takeSeq_some (by with_reducible assumption) ?_ | intro _ | split

theorem execControl_good (p : Fin 18) (flit : List Byte) (s : State) (hup : Rises PQ) {s' : State} (h : execControl p flit s = .next s') (hs : State.Good FZ PQ s) : State.Good FZ PQ s' := by
  unfold execControl at h
  unfold noted at h
  obtain rfl := Host.Outcome.next.inj h
  clear h
  repeat' first | with_reducible assumption | with_reducible apply State.onFlit_good | with_reducible apply State.takeSeq_good | with_reducible apply State.noteChanges_good | with_reducible apply State.recvControl_good | with_reducible refine State.takeSeq_some (by with_reducible assumption) ?_ | intro _ | split

theorem execRetry_good (p : Fin 18) (flit : List Byte) (s : State) {s' : State} (h : execRetry p flit s = .next s') (hs : State.Good FZ PQ s) : State.Good FZ PQ s' := by
  unfold execRetry at h
  unfold noted at h
  obtain rfl := Host.Outcome.next.inj h
  clear h
  repeat' first | with_reducible assumption | with_reducible apply State.onFlit_good | with_reducible apply State.resendFrom_good | with_reducible apply State.noteChanges_good | intro _

theorem execIdle_good (p : Fin 18) (flit : List Byte) (s : State) {s' : State} (h : execIdle p flit s = .next s') (hs : State.Good FZ PQ s) : State.Good FZ PQ s' := by
  unfold execIdle at h
  unfold noted at h
  obtain rfl := Host.Outcome.next.inj h
  clear h
  simp [hs]

theorem execRetryRepeatTimer_good (p : Fin 18) (s : State) {s' : State} (h : execRetryRepeatTimer p s = .next s') (hs : State.Good FZ PQ s) : State.Good FZ PQ s' := by
  unfold execRetryRepeatTimer at h
  unfold noted at h
  obtain rfl := Host.Outcome.next.inj h
  clear h
  repeat' split
  all_goals simp [hs]

theorem execIdleTimer_good (p : Fin 18) (s : State) {s' : State} (h : execIdleTimer p s = .next s') (hs : State.Good FZ PQ s) : State.Good FZ PQ s' := by
  unfold execIdleTimer at h
  unfold noted at h
  obtain rfl := Host.Outcome.next.inj h
  clear h
  repeat' split
  all_goals simp [hs]

theorem execAckTimeout_good (p : Fin 18) (s : State) {s' : State} (h : execAckTimeout p s = .next s') (hs : State.Good FZ PQ s) : State.Good FZ PQ s' := by
  unfold execAckTimeout at h
  unfold noted at h
  obtain rfl := Host.Outcome.next.inj h
  clear h
  simp (maxDischargeDepth := 60) [hs]

theorem execHello_good (p : Fin 18) (m : HelloMsg) (s : State) {s' : State} (h : execHello p m s = .next s') (hs : State.Good FZ PQ s) : State.Good FZ PQ s' := by
  unfold execHello at h
  unfold noted at h
  obtain rfl := Host.Outcome.next.inj h
  clear h
  simp [hs]

theorem execHelloTimer_good (s : State) {s' : State} (h : execHelloTimer s = .next s') (hs : State.Good FZ PQ s) : State.Good FZ PQ s' := by
  unfold execHelloTimer at h
  unfold noted at h
  obtain rfl := Host.Outcome.next.inj h
  clear h
  repeat' first | with_reducible assumption | with_reducible apply State.sendControl_good | with_reducible apply State.noteChanges_good | with_reducible refine good_each ?_ (fun _ _ _ => ?_) | intro _

theorem execNeighbours_good (p : Fin 18) (entries : List NeighbourEntry) (s : State) {s' : State} (h : execNeighbours p entries s = .next s') (hs : State.Good FZ PQ s) : State.Good FZ PQ s' := by
  unfold execNeighbours at h
  unfold noted at h
  obtain rfl := Host.Outcome.next.inj h
  clear h
  simp [hs]

theorem execNeighboursTimer_good (s : State) {s' : State} (h : execNeighboursTimer s = .next s') (hs : State.Good FZ PQ s) : State.Good FZ PQ s' := by
  unfold execNeighboursTimer at h
  unfold noted at h
  obtain rfl := Host.Outcome.next.inj h
  clear h
  simp [hs]

theorem execView_good (p : Fin 18) (_viewSeq : Nat) (members : List Nat) (s : State) {s' : State} (h : execView p _viewSeq members s = .next s') (hs : State.Good FZ PQ s) : State.Good FZ PQ s' := by
  unfold execView at h
  unfold noted at h
  obtain rfl := Host.Outcome.next.inj h
  clear h
  simp [hs]

@[simp] theorem State.formPond_good (s : State) (hs : State.Good FZ PQ s) : State.Good FZ PQ (State.formPond s) := by
  unfold State.formPond
  repeat' first | with_reducible assumption | with_reducible apply State.settleNet_good | with_reducible apply State.hold_good | with_reducible apply State.chooseParent_good | with_reducible apply State.leadTicks_good | with_reducible apply State.settleNet_good | with_reducible apply State.hold_good | with_reducible apply State.chooseParent_good | with_reducible apply State.leadTicks_good | with_reducible refine good_each ?_ (fun _ _ _ => ?_) | simp only [good_keep, good_time] | intro _ | split | dsimp only
  all_goals simp (maxDischargeDepth := 60) +contextual [*]

theorem execPondFormation_good (s : State) {s' : State} (h : execPondFormation s = .next s') (hs : State.Good FZ PQ s) : State.Good FZ PQ s' := by
  unfold execPondFormation at h
  unfold noted at h
  obtain rfl := Host.Outcome.next.inj h
  clear h
  repeat' split
  all_goals simp [hs]

theorem execTick_good (p : Fin 18) (m : TickMsg) (s : State) (hup : Rises PQ) {s' : State} (h : execTick p m s = .next s') (hs : State.Good FZ PQ s) : State.Good FZ PQ s' := by
  unfold execTick at h
  unfold noted at h
  obtain rfl := Host.Outcome.next.inj h
  clear h
  simp [hs, hup]

theorem execOffer_good (p : Fin 18) (masterId distance port : Nat) (s : State) {s' : State} (h : execOffer p masterId distance port s = .next s') (hs : State.Good FZ PQ s) : State.Good FZ PQ s' := by
  unfold execOffer at h
  unfold noted at h
  obtain rfl := Host.Outcome.next.inj h
  clear h
  simp [hs]

theorem execDelayReq_good (p : Fin 18) (t1 nowNs : Nat) (s : State) {s' : State} (h : execDelayReq p t1 nowNs s = .next s') (hs : State.Good FZ PQ s) : State.Good FZ PQ s' := by
  unfold execDelayReq at h
  unfold noted at h
  obtain rfl := Host.Outcome.next.inj h
  clear h
  simp [hs]

theorem execDelayReqTimer_good (nowNs : Nat) (s : State) {s' : State} (h : execDelayReqTimer nowNs s = .next s') (hs : State.Good FZ PQ s) : State.Good FZ PQ s' := by
  unfold execDelayReqTimer at h
  unfold noted at h
  obtain rfl := Host.Outcome.next.inj h
  clear h
  simp [hs]

theorem execDelayResp_good (p : Fin 18) (t1 t2 t3 t4 : Nat) (s : State) {s' : State} (h : execDelayResp p t1 t2 t3 t4 s = .next s') (hs : State.Good FZ PQ s) : State.Good FZ PQ s' := by
  unfold execDelayResp at h
  unfold noted at h
  obtain rfl := Host.Outcome.next.inj h
  clear h
  repeat' split
  all_goals simp [hs]

theorem execCredit_good (p : Fin 18) (group count : Nat) (s : State) {s' : State} (h : execCredit p group count s = .next s') (hs : State.Good FZ PQ s) : State.Good FZ PQ s' := by
  unfold execCredit at h
  unfold noted at h
  obtain rfl := Host.Outcome.next.inj h
  clear h
  simp [hs]

theorem execCountUp_good (p : Fin 18) (tickCount : Nat) (s : State) {s' : State} (h : execCountUp p tickCount s = .next s') (hs : State.Good FZ PQ s) : State.Good FZ PQ s' := by
  unfold execCountUp at h
  unfold noted at h
  obtain rfl := Host.Outcome.next.inj h
  clear h
  simp [hs]

@[simp] theorem State.changePeriod_good (s : State) (hs : State.Good FZ PQ s) : State.Good FZ PQ (State.changePeriod s) := by
  unfold State.changePeriod
  simp [hs]

theorem execTickPeriodChange_good (s : State) {s' : State} (h : execTickPeriodChange s = .next s') (hs : State.Good FZ PQ s) : State.Good FZ PQ s' := by
  unfold execTickPeriodChange at h
  unfold noted at h
  obtain rfl := Host.Outcome.next.inj h
  clear h
  repeat' first | with_reducible assumption | with_reducible apply State.noteChanges_good | simp only [good_keep, good_time] | split

@[simp] theorem State.jump_good (s : State) (hup : Rises PQ) (hs : State.Good FZ PQ s) : State.Good FZ PQ s.jump :=
  ⟨hs.1, hup _ _ _ (Nat.le_max_left _ _) hs.2.1, hs.2.2⟩

theorem execTickJump_good (s : State) (hup : Rises PQ) {s' : State} (h : execTickJump s = .next s') (hs : State.Good FZ PQ s) : State.Good FZ PQ s' := by
  unfold execTickJump at h
  unfold noted at h
  obtain rfl := Host.Outcome.next.inj h
  clear h
  repeat' split
  all_goals simp [hs, hup]

end Sys2Proof.Machine
end

