-- ==== Sys2Proof/Laws/GoodLatch.lean ====
section
/-! SUPPORT. What Machine/Latch.lean keeps: the fuses, the queue, the tick count and the canonical form of memory (State.Good). -/
set_option linter.unusedSimpArgs false

namespace Sys2Proof.Machine

open Sys2Proof

variable {FZ : FuseSt} {PQ : List Instr → Nat → Prop}

theorem State.latchTick_good (s : State) (env : SluiceEnv) (hs : State.Good FZ (fun p _ => PQ p s.nextBoundary) s) :
    State.Good FZ PQ (s.latchTick env) := by
  obtain ⟨h1, h2, h3⟩ := hs
  unfold State.latchTick
  unfold State.nextBoundary at h2
  have key : ∀ u : State, State.Good FZ PQ u →
      State.Good FZ PQ (if u.net.pondAt ≠ 0 && u.net.pondAt = u.tick.count then u.formPond else u) := by
    intro u hu
    split
    · exact State.formPond_good _ hu
    · exact hu
  apply key
  apply State.bump_good
  split
  · rename_i h
    simp only [h, if_true] at h2
    exact ⟨h1, h2, h3⟩
  · rename_i h
    simp only [h] at h2
    exact ⟨h1, h2, h3⟩

@[simp] theorem State.renewAnchor_good (s : State) (hs : State.Good FZ PQ s) : State.Good FZ PQ (State.renewAnchor s) := by
  unfold State.renewAnchor
  repeat' split
  all_goals simp [hs]

@[simp] theorem State.latchPorts_good (s : State) (hs : State.Good FZ PQ s) : State.Good FZ PQ (State.latchPorts s) := by
  unfold State.latchPorts
  repeat' first | with_reducible assumption | with_reducible apply State.modPort_good | with_reducible apply State.modSecure_good | with_reducible refine good_each ?_ (fun _ _ _ => ?_) | intro _

@[simp] theorem State.latchQuiesce_good (s : State) (hs : State.Good FZ PQ s) : State.Good FZ PQ (State.latchQuiesce s) := by
  unfold State.latchQuiesce
  repeat' first | with_reducible assumption | with_reducible apply State.noteChanges_good | with_reducible apply State.setCause_good | with_reducible refine good_each ?_ (fun _ _ _ => ?_) | simp only [good_keep, good_time] | intro _ | split | dsimp only
  all_goals simp (maxDischargeDepth := 60) +contextual [*]

@[simp] theorem State.finishOps_good (s : State) (hs : State.Good FZ PQ s) : State.Good FZ PQ (State.finishOps s) := by
  unfold State.finishOps
  repeat' first | with_reducible assumption | with_reducible apply State.modRun_good | with_reducible refine good_each ?_ (fun _ _ _ => ?_) | simp only [good_keep, good_time] | intro _ | split

@[simp] theorem State.latchFaults_good (s : State) (hs : State.Good FZ PQ s) : State.Good FZ PQ (State.latchFaults s) := by
  unfold State.latchFaults
  repeat' first | with_reducible assumption | with_reducible apply State.failCmd_good | with_reducible refine good_each ?_ (fun _ _ _ => ?_) | intro _ | split

@[simp] theorem State.latchAborts_good (s : State) (hs : State.Good FZ PQ s) : State.Good FZ PQ (State.latchAborts s) := by
  unfold State.latchAborts
  repeat' first | with_reducible assumption | with_reducible apply State.failOpen_good | with_reducible refine good_each ?_ (fun _ _ _ => ?_) | intro _ | split

@[simp] theorem State.dieFaults_good (s : State) (hs : State.Good FZ PQ s) : State.Good FZ PQ (State.dieFaults s) := by
  unfold State.dieFaults
  repeat' first | with_reducible assumption | with_reducible apply State.faultCmd_good | with_reducible refine good_each ?_ (fun _ _ _ => ?_) | intro _ | split

@[simp] theorem State.mergeTick_good (s : State) (hs : State.Good FZ PQ s) : State.Good FZ PQ (State.mergeTick s) := by
  unfold State.mergeTick
  repeat' first | with_reducible assumption | with_reducible apply State.mergeSlice_good | with_reducible refine good_each ?_ (fun _ _ _ => ?_) | intro _
  all_goals simp (maxDischargeDepth := 60) +contextual [*]

@[simp] theorem State.remnantFaults_good (s : State) (hs : State.Good FZ PQ s) : State.Good FZ PQ (State.remnantFaults s) := by
  unfold State.remnantFaults
  repeat' first | with_reducible assumption | with_reducible apply State.modRun_good | with_reducible refine good_each ?_ (fun _ _ _ => ?_) | simp only [good_keep, good_time] | intro _ | split
  all_goals simp (maxDischargeDepth := 60) +contextual [*]

theorem State.latch_good (s : State) (env : SluiceEnv) (hs : State.Good FZ (fun p _ => PQ p s.nextBoundary) s) :
    State.Good FZ PQ (s.latch env) := by
  have h := State.latchTick_good s env hs
  unfold State.latch
  dsimp only
  refine good_each (good_each ?_ (fun s g h => State.ringVerdict_good s g h)) (fun s g h => State.waveTimeout_good s g h)
  simp (maxDischargeDepth := 60) [h]

@[simp] theorem State.stopArrays_good (s : State) (hs : State.Good FZ PQ s) : State.Good FZ PQ (State.stopArrays s) := by
  unfold State.stopArrays
  simp [hs]

@[simp] theorem State.requeue_good (s : State) (ref : SliceRef) (f : Slice → Slice) (hs : State.Good FZ PQ s) : State.Good FZ PQ (State.requeue s ref f) := by
  unfold State.requeue
  repeat' first | with_reducible assumption | with_reducible apply State.modSlice_good | simp only [good_keep, good_time] | intro _ | dsimp only

@[simp] theorem State.restoreShadow_good (s : State) (x : Nat × List WideBlock) (hs : State.Good FZ PQ s) : State.Good FZ PQ (State.restoreShadow s x) := by
  unfold State.restoreShadow
  repeat' first | with_reducible assumption | with_reducible apply State.freeFrame_good | with_reducible apply State.dropShadow_good | with_reducible refine good_each ?_ (fun _ _ _ => ?_) | simp only [good_keep, good_time, good_tables] | intro _ | split | dsimp only

@[simp] theorem State.restoreBytes_good (s : State) (x : Nat × Nat × List Host.Cell) (hs : State.Good FZ PQ s) :
    State.Good FZ PQ (s.restoreBytes x) :=
  good_mem hs (foldl_memWrite_wf _ _ _ (memZero_wf _ _ (good_wf hs)))

@[simp] theorem State.restoreSegment_good (s : State) (ref : SliceRef) (sl : Slice) (st : SegStart) (hs : State.Good FZ PQ s) : State.Good FZ PQ (State.restoreSegment s ref sl st) := by
  unfold State.restoreSegment
  repeat' first | with_reducible assumption | with_reducible apply State.restoreBytes_good | with_reducible apply State.modRun_good | with_reducible apply State.modSlice_good | with_reducible apply State.dropStrands_good | with_reducible apply State.releaseKv_good | with_reducible apply State.restoreShadow_good | with_reducible refine good_each ?_ (fun _ _ _ => ?_) | simp only [good_keep, good_time] | intro _ | dsimp only

@[simp] theorem State.discard_good (s : State) (ref : SliceRef) (sl : Slice) (hs : State.Good FZ PQ s) : State.Good FZ PQ (State.discard s ref sl) := by
  unfold State.discard
  repeat' split
  all_goals simp [hs]

@[simp] theorem State.overrun_good (s : State) (ref : SliceRef) (sl : Slice) (hs : State.Good FZ PQ s) : State.Good FZ PQ (State.overrun s ref sl) := by
  unfold State.overrun
  simp (maxDischargeDepth := 60) [hs]

@[simp] theorem State.segmentDone_good (s : State) (ref : SliceRef) (j : Nat) (hs : State.Good FZ PQ s) : State.Good FZ PQ (State.segmentDone s ref j) := by
  unfold State.segmentDone
  simp [hs]

@[simp] theorem State.settleSlice_good (s : State) (x : SliceRef × Slice) (hs : State.Good FZ PQ s) : State.Good FZ PQ (State.settleSlice s x) := by
  unfold State.settleSlice
  simp (maxDischargeDepth := 60) [hs]

@[simp] theorem State.dropEffects_good (s : State) (t : Fin 4) (q : Fin 64) (hs : State.Good FZ PQ s) : State.Good FZ PQ (State.dropEffects s t q) := by
  unfold State.dropEffects
  repeat' first | with_reducible assumption | with_reducible apply State.modTen_good | with_reducible apply State.setDir_good | with_reducible apply State.closeStream_good | with_reducible apply State.dropBatch_good | with_reducible refine good_each ?_ (fun _ _ _ => ?_) | simp only [good_keep, good_time, good_tables] | intro _ | split | dsimp only

@[simp] theorem State.dropFailed_good (s : State) (t : Fin 4) (q : Fin 64) (hs : State.Good FZ PQ s) : State.Good FZ PQ (State.dropFailed s t q) := by
  unfold State.dropFailed
  simp [hs]

@[simp] theorem State.rerun_good (s : State) (t : Fin 4) (q : Fin 64) (width : Nat) (hs : State.Good FZ PQ s) : State.Good FZ PQ (State.rerun s t q width) := by
  unfold State.rerun
  repeat' first | with_reducible assumption | with_reducible apply State.bump_good | with_reducible apply State.modRun_good | with_reducible apply State.freeFrame_good | with_reducible apply State.dropShadow_good | with_reducible apply State.releaseFresh_good | with_reducible apply State.releaseSlice_good | with_reducible apply State.requeue_good | with_reducible refine good_each ?_ (fun _ _ _ => ?_) | simp only [good_keep, good_time] | intro _ | split | dsimp only

@[simp] theorem State.dropTenancy_good (s : State) (t : Fin 4) (hs : State.Good FZ PQ s) : State.Good FZ PQ (State.dropTenancy s t) := by
  unfold State.dropTenancy
  repeat' first | with_reducible assumption | with_reducible apply State.modQueue_good | with_reducible apply State.endColl_good | with_reducible apply State.modSecure_good | with_reducible apply State.dropFailed_good | with_reducible refine good_each ?_ (fun _ _ _ => ?_) | intro _ | dsimp only

@[simp] theorem State.settleRings_good (s : State) (hs : State.Good FZ PQ s) : State.Good FZ PQ (State.settleRings s) := by
  unfold State.settleRings
  repeat' first | with_reducible assumption | with_reducible apply State.failAt_good | with_reducible apply State.ringStep2_good | with_reducible apply State.useSettled_good | with_reducible refine good_each ?_ (fun _ _ _ => ?_) | intro _ | split | dsimp only

@[simp] theorem State.discardStep_good (s : State) (hs : State.Good FZ PQ s) : State.Good FZ PQ (State.discardStep s) := by
  unfold State.discardStep
  repeat' first | with_reducible assumption | with_reducible apply State.stopArrays_good | with_reducible apply State.settleSlice_good | with_reducible apply State.dropFailed_good | with_reducible apply State.rerun_good | with_reducible apply State.dropTenancy_good | with_reducible apply State.settleRings_good | with_reducible refine good_each ?_ (fun _ _ _ => ?_) | simp only [good_keep, good_time] | intro _ | split | dsimp only

end Sys2Proof.Machine
end

