-- ==== Sys2Proof/Laws/GoodPort.lean ====
section
/-! SUPPORT. What Machine/Port.lean keeps: the fuses, the queue, the tick count and the canonical form of memory (State.Good). -/
set_option linter.unusedSimpArgs false

namespace Sys2Proof.Machine

open Sys2Proof

variable {FZ : FuseSt} {PQ : List Instr → Nat → Prop}

theorem State.onPort_next {s s' : State} {t : Fin 4} {f : State → State} (h : s.onPort t f = .next s')
    (hf : State.Good FZ PQ (f s)) (hs : State.Good FZ PQ s) : State.Good FZ PQ s' := by
  unfold State.onPort noted at h
  obtain rfl := Host.Outcome.next.inj h
  apply State.noteChanges_good
  split
  · exact hf
  · exact hs

@[simp] theorem State.createQueue_good (s : State) (t : Fin 4) (q : Fin 64) (hs : State.Good FZ PQ s) : State.Good FZ PQ (State.createQueue s t q) := by
  unfold State.createQueue
  simp [hs]

@[simp] theorem State.deleteQueue_good (s : State) (t : Fin 4) (q : Fin 64) (hs : State.Good FZ PQ s) : State.Good FZ PQ (State.deleteQueue s t q) := by
  unfold State.deleteQueue
  simp [hs]

@[simp] theorem State.resumeQueue_good (s : State) (t : Fin 4) (q : Fin 64) (hs : State.Good FZ PQ s) : State.Good FZ PQ (State.resumeQueue s t q) := by
  unfold State.resumeQueue
  simp [hs]

theorem execCreate_good (t : Fin 4) (q : Fin 64) (s : State) {s' : State} (h : execCreate t q s = .next s') (hs : State.Good FZ PQ s) : State.Good FZ PQ s' := by
  unfold execCreate at h
  refine State.onPort_next h ?_ hs
  clear h
  simp [hs]

theorem execDelete_good (t : Fin 4) (q : Fin 64) (s : State) {s' : State} (h : execDelete t q s = .next s') (hs : State.Good FZ PQ s) : State.Good FZ PQ s' := by
  unfold execDelete at h
  refine State.onPort_next h ?_ hs
  clear h
  simp [hs]

theorem execResume_good (t : Fin 4) (q : Fin 64) (s : State) {s' : State} (h : execResume t q s = .next s') (hs : State.Good FZ PQ s) : State.Good FZ PQ s' := by
  unfold execResume at h
  refine State.onPort_next h ?_ hs
  clear h
  simp [hs]

@[simp] theorem State.writeQueueBlock_good (s : State) (t : Fin 4) (q : Fin 64) (off : Nat) (v : W64) (hs : State.Good FZ PQ s) : State.Good FZ PQ (State.writeQueueBlock s t q off v) := by
  unfold State.writeQueueBlock
  repeat' first | with_reducible assumption | with_reducible apply State.modQueue_good | with_reducible apply State.logQueue_good | with_reducible apply State.createQueue_good | with_reducible apply State.deleteQueue_good | with_reducible apply State.resumeQueue_good | intro _ | split | dsimp only

@[simp] theorem State.completionHead_good (s : State) (t : Fin 4) (q : Fin 64) (head : Nat) (hs : State.Good FZ PQ s) : State.Good FZ PQ (State.completionHead s t q head) := by
  unfold State.completionHead
  simp [hs]

theorem execCplHead_good (t : Fin 4) (q : Fin 64) (head : Nat) (s : State) {s' : State} (h : execCplHead t q head s = .next s') (hs : State.Good FZ PQ s) : State.Good FZ PQ s' := by
  unfold execCplHead at h
  refine State.onPort_next h ?_ hs
  clear h
  simp [hs]

@[simp] theorem State.clearCause_good (s : State) (t : Fin 4) (v : W32) (hs : State.Good FZ PQ s) : State.Good FZ PQ (State.clearCause s t v) := by
  unfold State.clearCause
  simp [hs]

theorem execEventCause_good (t : Fin 4) (v : W32) (s : State) {s' : State} (h : execEventCause t v s = .next s') (hs : State.Good FZ PQ s) : State.Good FZ PQ s' := by
  unfold execEventCause at h
  refine State.onPort_next h ?_ hs
  clear h
  simp [hs]

@[simp] theorem State.refuseBar0_good (s : State) (t : Fin 4) (offset : Nat) (hs : State.Good FZ PQ s) : State.Good FZ PQ (State.refuseBar0 s t offset) := by
  unfold State.refuseBar0
  simp [hs]

@[simp] theorem State.startMailbox_good (s : State) (t : Fin 4) (v : W32) (hs : State.Good FZ PQ s) : State.Good FZ PQ (State.startMailbox s t v) := by
  unfold State.startMailbox
  simp [hs]

theorem execMbxCtrl_good (t : Fin 4) (v : W32) (s : State) {s' : State} (h : execMbxCtrl t v s = .next s') (hs : State.Good FZ PQ s) : State.Good FZ PQ s' := by
  unfold execMbxCtrl at h
  refine State.onPort_next h ?_ hs
  clear h
  simp [hs]

@[simp] theorem State.clearReady_good (s : State) (t : Fin 4) (v : W32) (hs : State.Good FZ PQ s) : State.Good FZ PQ (State.clearReady s t v) := by
  unfold State.clearReady
  simp [hs]

theorem execMbxStatus_good (t : Fin 4) (v : W32) (s : State) {s' : State} (h : execMbxStatus t v s = .next s') (hs : State.Good FZ PQ s) : State.Good FZ PQ s' := by
  unfold execMbxStatus at h
  refine State.onPort_next h ?_ hs
  clear h
  simp [hs]

@[simp] theorem State.writeMsix_good (s : State) (t : Fin 4) (i : Nat) (v : W32) (hs : State.Good FZ PQ s) : State.Good FZ PQ (State.writeMsix s t i v) := by
  unfold State.writeMsix
  simp (maxDischargeDepth := 60) [hs]

@[simp] theorem State.writeBar0_good (s : State) (t : Fin 4) (off width : Nat) (v : W64) (hs : State.Good FZ PQ s) : State.Good FZ PQ (State.writeBar0 s t off width v) := by
  unfold State.writeBar0
  repeat' split
  all_goals simp [hs]

theorem execRegisterWrite_good (t : Fin 4) (offset width : Nat) (value : W64) (s : State) {s' : State} (h : execRegisterWrite t offset width value s = .next s') (hs : State.Good FZ PQ s) : State.Good FZ PQ s' := by
  unfold execRegisterWrite at h
  refine State.onPort_next h ?_ hs
  clear h
  repeat' first | with_reducible assumption | with_reducible apply State.refuseBar0_good | with_reducible apply State.writeBar0_good | with_reducible apply State.logQueue_good | with_reducible apply State.refuseBar0_good | with_reducible apply State.writeBar0_good | intro _ | split
  all_goals simp (maxDischargeDepth := 60) +contextual [*]

theorem execBar0Read_good (t : Fin 4) (offset width : Nat) (s : State) {s' : State} (h : execBar0Read t offset width s = .next s') (hs : State.Good FZ PQ s) : State.Good FZ PQ s' := by
  unfold execBar0Read at h
  refine State.onPort_next h ?_ hs
  clear h
  repeat' first | with_reducible assumption | with_reducible apply State.emit_good | with_reducible apply State.refuseBar0_good | intro _ | split | dsimp only

@[simp] theorem State.refuseBar2_good (s : State) (t : Fin 4) (kind code a : Nat) (hs : State.Good FZ PQ s) : State.Good FZ PQ (State.refuseBar2 s t kind code a) := by
  unfold State.refuseBar2
  simp (maxDischargeDepth := 60) [hs]

theorem State.bar2Load_some {s s' : State} {t : Fin 4} {a n : Nat} (h : s.bar2Load t a n = .ok s')
    (hs : State.Good FZ PQ s) : State.Good FZ PQ s' := by
  unfold State.bar2Load at h
  repeat' split at h
  all_goals cases h
  all_goals simp (maxDischargeDepth := 60) [hs]

theorem State.bar2Store_some {s s' : State} {t : Fin 4} {a : Nat} {bs : List Byte} (h : s.bar2Store t a bs = .ok s')
    (hs : State.Good FZ PQ s) : State.Good FZ PQ s' := by
  unfold State.bar2Store at h
  dsimp only at h
  repeat' split at h
  all_goals cases h
  all_goals simp (maxDischargeDepth := 60) [hs]

theorem State.bar2Do_some {s s' : State} {t : Fin 4} {x : HeldAccess} (h : s.bar2Do t x = .ok s')
    (hs : State.Good FZ PQ s) : State.Good FZ PQ s' := by
  unfold State.bar2Do at h
  split at h
  · exact State.bar2Load_some h hs
  · exact State.bar2Store_some h hs

theorem State.bar2All_some {s s' : State} {t : Fin 4} {l : List HeldAccess} (h : s.bar2All t l = .ok s')
    (hs : State.Good FZ PQ s) : State.Good FZ PQ s' := by
  induction l generalizing s with
  | nil => cases h; exact hs
  | cons x r ih =>
    unfold State.bar2All at h
    cases hx : s.bar2Do t x with
    | error e => rw [hx] at h; cases h
    | ok u =>
      rw [hx] at h
      exact ih h (State.bar2Do_some hx hs)

theorem State.bar2Release_some {s s' : State} {t : Fin 4} {more : List HeldAccess} (h : s.bar2Release t more = .ok s')
    (hs : State.Good FZ PQ s) : State.Good FZ PQ s' :=
  State.bar2All_some h (State.modPort_good _ _ _ hs)

theorem State.bar2Access_some {s s' : State} {t : Fin 4} {atNs : Nat} {x : HeldAccess}
    (h : s.bar2Access t atNs x = .ok s') (hs : State.Good FZ PQ s) : State.Good FZ PQ s' := by
  unfold State.bar2Access at h
  repeat' split at h
  · cases h; exact hs
  · cases h; simp [hs]
  · exact State.bar2Release_some h hs

@[simp] theorem State.bar2Flush_good (s : State) (t : Fin 4) (hs : State.Good FZ PQ s) : State.Good FZ PQ (State.bar2Flush s t) := by
  unfold State.bar2Flush
  repeat' first | with_reducible assumption | with_reducible apply State.modPort_good | with_reducible refine State.bar2Release_some (by with_reducible assumption) ?_ | intro _ | split
  all_goals simp (maxDischargeDepth := 60) +contextual [*]

theorem accessed_next {x : Except Fault State} {s' : State} (h : accessed x = .next s') : ∃ u, x = .ok u ∧ s' = u.noteChanges := by
  unfold accessed noted at h
  split at h
  · exact ⟨_, rfl, (Host.Outcome.next.inj h).symm⟩
  · cases h

theorem execBar2Read_good (t : Fin 4) (offset count atNs : Nat) (s : State) {s' : State}
    (h : execBar2Read t offset count atNs s = .next s') (hs : State.Good FZ PQ s) : State.Good FZ PQ s' := by
  obtain ⟨u, hu, rfl⟩ := accessed_next h
  exact State.noteChanges_good _ (State.bar2Access_some hu hs)

theorem execBar2Write_good (t : Fin 4) (offset : Nat) (bytes : List Byte) (atNs : Nat) (s : State) {s' : State}
    (h : execBar2Write t offset bytes atNs s = .next s') (hs : State.Good FZ PQ s) : State.Good FZ PQ s' := by
  obtain ⟨u, hu, rfl⟩ := accessed_next h
  exact State.noteChanges_good _ (State.bar2Access_some hu hs)

theorem execBar2HoldRelease_good (t : Fin 4) (s : State) {s' : State}
    (h : execBar2HoldRelease t s = .next s') (hs : State.Good FZ PQ s) : State.Good FZ PQ s' := by
  obtain ⟨u, hu, rfl⟩ := accessed_next h
  apply State.noteChanges_good
  split at hu
  · exact State.bar2Release_some hu hs
  · cases hu; exact hs

@[simp] theorem State.ringTailTo_good (s : State) (t : Fin 4) (q : Fin 64) (tail atNs : Nat) (entries : List (List W64)) (hs : State.Good FZ PQ s) : State.Good FZ PQ (State.ringTailTo s t q tail atNs entries) := by
  unfold State.ringTailTo
  repeat' first | with_reducible assumption | with_reducible apply State.logQueue_good | with_reducible apply State.bump_good | with_reducible apply State.modQueue_good | intro _ | split | dsimp only
  all_goals simp (maxDischargeDepth := 60) +contextual [*]

theorem execCmdTail_good (t : Fin 4) (q : Fin 64) (tail atNs : Nat) (entries : List (List W64)) (s : State) {s' : State} (h : execCmdTail t q tail atNs entries s = .next s') (hs : State.Good FZ PQ s) : State.Good FZ PQ s' := by
  unfold execCmdTail at h
  refine State.onPort_next h ?_ hs
  clear h
  exact State.ringTailTo_good _ _ _ _ _ _ (good_ite (fun _ => hs) (fun _ => State.bar2Flush_good _ _ hs))

@[simp] theorem State.killTenancy_good (s : State) (t : Fin 4) (hs : State.Good FZ PQ s) : State.Good FZ PQ (State.killTenancy s t) := by
  unfold State.killTenancy
  repeat' first | with_reducible assumption | with_reducible apply State.dropStrands_good | with_reducible apply State.kill_good | with_reducible refine good_each ?_ (fun _ _ _ => ?_) | intro _ | dsimp only

@[simp] theorem State.portReset_good (s : State) (t : Fin 4) (hs : State.Good FZ PQ s) : State.Good FZ PQ (State.portReset s t) := by
  unfold State.portReset
  repeat' split
  all_goals simp [hs]

theorem execPerstAssert_good (t : Fin 4) (s : State) {s' : State} (h : execPerstAssert t s = .next s') (hs : State.Good FZ PQ s) : State.Good FZ PQ s' := by
  unfold execPerstAssert at h
  unfold noted at h
  obtain rfl := Host.Outcome.next.inj h
  clear h
  simp (maxDischargeDepth := 60) [hs]

theorem execPerstDeassert_good (t : Fin 4) (s : State) {s' : State} (h : execPerstDeassert t s = .next s') (hs : State.Good FZ PQ s) : State.Good FZ PQ s' := by
  unfold execPerstDeassert at h
  unfold noted at h
  obtain rfl := Host.Outcome.next.inj h
  clear h
  simp [hs]

theorem execHotReset_good (t : Fin 4) (s : State) {s' : State} (h : execHotReset t s = .next s') (hs : State.Good FZ PQ s) : State.Good FZ PQ s' := by
  unfold execHotReset at h
  unfold noted at h
  obtain rfl := Host.Outcome.next.inj h
  clear h
  simp [hs]

theorem execLinkDisable_good (t : Fin 4) (s : State) {s' : State} (h : execLinkDisable t s = .next s') (hs : State.Good FZ PQ s) : State.Good FZ PQ s' := by
  unfold execLinkDisable at h
  unfold noted at h
  obtain rfl := Host.Outcome.next.inj h
  clear h
  simp [hs]

theorem execDataLinkLoss_good (t : Fin 4) (s : State) {s' : State} (h : execDataLinkLoss t s = .next s') (hs : State.Good FZ PQ s) : State.Good FZ PQ s' := by
  unfold execDataLinkLoss at h
  unfold noted at h
  obtain rfl := Host.Outcome.next.inj h
  clear h
  simp [hs]

theorem execFunctionLevelReset_good (t : Fin 4) (s : State) {s' : State} (h : execFunctionLevelReset t s = .next s') (hs : State.Good FZ PQ s) : State.Good FZ PQ s' := by
  unfold execFunctionLevelReset at h
  unfold noted at h
  obtain rfl := Host.Outcome.next.inj h
  clear h
  simp [hs]

theorem execD3hotToD0_good (t : Fin 4) (s : State) {s' : State} (h : execD3hotToD0 t s = .next s') (hs : State.Good FZ PQ s) : State.Good FZ PQ s' := by
  unfold execD3hotToD0 at h
  unfold noted at h
  obtain rfl := Host.Outcome.next.inj h
  clear h
  simp [hs]

end Sys2Proof.Machine
end

