-- ==== Sys2Proof/Laws/GoodRemap.lean ====
section
/-! SUPPORT. What Machine/Remap.lean keeps: the fuses, the queue, the tick count and the canonical form of memory (State.Good). -/
set_option linter.unusedSimpArgs false

namespace Sys2Proof.Machine

open Sys2Proof

variable {FZ : FuseSt} {PQ : List Instr → Nat → Prop}

@[simp] theorem State.remnantSlot_good (s : State) (t : Fin 4) (old : Option Remnant) (frame : Nat)
    (hs : State.Good FZ PQ s) : State.Good FZ PQ (s.remnantSlot t old frame).2 := by
  unfold State.remnantSlot
  split
  · exact hs
  · cases h : s.takeSlot t (kvStack frame) with
    | none => exact hs
    | some x => exact State.takeSlot_some (f := x.1) h hs

@[simp] theorem State.flushFrame_good (s : State) (ref : SliceRef) (sl : Slice) (k : KvTaken) (hs : State.Good FZ PQ s) : State.Good FZ PQ (State.flushFrame s ref sl k) := by
  unfold State.flushFrame
  repeat' first | with_reducible assumption | with_reducible apply State.pwrite_good | with_reducible apply State.remnantSlot_good | with_reducible apply State.modKv_good | with_reducible apply State.trimArenas_good | with_reducible apply State.writeGroups_good | with_reducible apply State.complete_good | simp only [good_keep, good_time] | intro _ | split | dsimp only

@[simp] theorem State.brineStep_good (s : State) (hs : State.Good FZ PQ s) : State.Good FZ PQ (State.brineStep s) := by
  unfold State.brineStep
  repeat' first | with_reducible assumption | with_reducible apply State.flushFrame_good | with_reducible refine good_each ?_ (fun _ _ _ => ?_) | intro _

@[simp] theorem State.moveShadow_good (s : State) (src dst : Nat) (hs : State.Good FZ PQ s) : State.Good FZ PQ (State.moveShadow s src dst) := by
  unfold State.moveShadow
  repeat' split
  all_goals simp [hs]

@[simp] theorem State.replaceHome_good (s : State) (t : Fin 4) (v f : Nat) (hs : State.Good FZ PQ s) : State.Good FZ PQ (State.replaceHome s t v f) := by
  unfold State.replaceHome
  repeat' first | with_reducible assumption | with_reducible apply State.useFrame_good | with_reducible apply State.freeFrame_good | with_reducible apply State.dropDie_good | with_reducible apply State.modPage_good | with_reducible apply State.dropShadow_good | intro _ | split | dsimp only

@[simp] theorem State.switchCopy_good (s : State) (t : Fin 4) (v f : Nat) (hs : State.Good FZ PQ s) : State.Good FZ PQ (State.switchCopy s t v f) := by
  unfold State.switchCopy
  repeat' split
  all_goals simp [hs]

@[simp] theorem State.dropUnfolded_good (s : State) (t : Fin 4) (q : Fin 64) (hs : State.Good FZ PQ s) : State.Good FZ PQ (State.dropUnfolded s t q) := by
  unfold State.dropUnfolded
  repeat' first | with_reducible assumption | with_reducible apply State.modRun_good | with_reducible apply State.releaseFresh_good | intro _ | split
  all_goals simp (maxDischargeDepth := 60) +contextual [*]

@[simp] theorem State.renewPrepared_good (s : State) (t : Fin 4) (q : Fin 64) (hs : State.Good FZ PQ s) : State.Good FZ PQ (State.renewPrepared s t q) := by
  unfold State.renewPrepared
  repeat' first | with_reducible assumption | with_reducible apply State.modRun_good | with_reducible apply State.freeFrame_good | with_reducible apply State.dropShadow_good | with_reducible refine good_each ?_ (fun _ _ _ => ?_) | intro _ | split | dsimp only

@[simp] theorem State.foldStep_good (s : State) (hs : State.Good FZ PQ s) : State.Good FZ PQ (State.foldStep s) := by
  unfold State.foldStep
  repeat' first | with_reducible assumption | with_reducible apply State.modRun_good | with_reducible apply State.switchCopy_good | with_reducible apply State.renewPrepared_good | with_reducible apply State.foldImages_good | with_reducible apply State.switchCopy_good | with_reducible apply State.dropUnfolded_good | with_reducible apply State.renewPrepared_good | with_reducible refine good_each ?_ (fun _ _ _ => ?_) | intro _ | split | dsimp only
  all_goals simp (maxDischargeDepth := 60) +contextual [*]

@[simp] theorem State.markStaged_good (s : State) (hs : State.Good FZ PQ s) : State.Good FZ PQ (State.markStaged s) := by
  unfold State.markStaged
  repeat' first | with_reducible assumption | with_reducible apply State.modRun_good | with_reducible refine good_each ?_ (fun _ _ _ => ?_) | intro _ | split | dsimp only

@[simp] theorem State.switchStaged_good (s : State) (t : Fin 4) (q : Fin 64) (c : StagedCopy) (hs : State.Good FZ PQ s) : State.Good FZ PQ (State.switchStaged s t q c) := by
  unfold State.switchStaged
  repeat' first | with_reducible assumption | with_reducible apply State.bump_good | with_reducible apply State.modRun_good | with_reducible apply State.switchCopy_good | intro _ | split | dsimp only

@[simp] theorem State.applyHeld_good (s : State) (t : Fin 4) (q : Fin 64) (hs : State.Good FZ PQ s) : State.Good FZ PQ (State.applyHeld s t q) := by
  unfold State.applyHeld
  repeat' first | with_reducible assumption | with_reducible apply State.copyFrame_good | with_reducible apply State.bump_good | with_reducible apply State.modRun_good | with_reducible apply State.makeRoom_good | with_reducible apply State.applyStaged_good | with_reducible apply State.switchCopy_good | with_reducible refine State.takeFrame_some (by with_reducible assumption) ?_ | with_reducible refine good_each ?_ (fun _ _ _ => ?_) | intro _ | split | dsimp only

@[simp] theorem State.panStep_good (s : State) (hs : State.Good FZ PQ s) : State.Good FZ PQ (State.panStep s) := by
  unfold State.panStep
  repeat' first | with_reducible assumption | with_reducible apply State.markStaged_good | with_reducible apply State.switchStaged_good | with_reducible apply State.applyHeld_good | with_reducible refine good_each ?_ (fun _ _ _ => ?_) | intro _ | dsimp only

@[simp] theorem State.showPage_good (s : State) (t : Fin 4) (sl : Slice) (p : FreshPage) (hs : State.Good FZ PQ s) : State.Good FZ PQ (State.showPage s t sl p) := by
  unfold State.showPage
  repeat' split
  all_goals simp [hs]

@[simp] theorem State.renameKv_good (s : State) (pe old new : Nat) (evictable : Bool) (hs : State.Good FZ PQ s) : State.Good FZ PQ (State.renameKv s pe old new evictable) := by
  unfold State.renameKv
  simp [hs]

@[simp] theorem State.putEntry_good (s : State) (t : Fin 4) (evictable : Bool) (pe : Nat) (e : W64) (hs : State.Good FZ PQ s) : State.Good FZ PQ (State.putEntry s t evictable pe e) := by
  unfold State.putEntry
  simp (maxDischargeDepth := 60) [hs]

@[simp] theorem State.setLength_good (s : State) (t : Fin 4) (desc n : Nat) (hs : State.Good FZ PQ s) : State.Good FZ PQ (State.setLength s t desc n) := by
  unfold State.setLength
  simp [hs]

@[simp] theorem State.showKv_good (s : State) (t : Fin 4) (k : KvTaken) (hs : State.Good FZ PQ s) : State.Good FZ PQ (State.showKv s t k) := by
  unfold State.showKv
  repeat' split
  all_goals simp [hs]

@[simp] theorem State.startMigration_good (s : State) (t : Fin 4) (v : Nat) (hs : State.Good FZ PQ s) : State.Good FZ PQ (State.startMigration s t v) := by
  unfold State.startMigration
  repeat' first | with_reducible assumption | with_reducible apply State.useFrame_good | with_reducible apply State.modPage_good | with_reducible apply State.roomFor_good | intro _ | split | dsimp only

@[simp] theorem State.startDiePin_good (s : State) (t : Fin 4) (v : Nat) (hs : State.Good FZ PQ s) : State.Good FZ PQ (State.startDiePin s t v) := by
  unfold State.startDiePin
  repeat' first | with_reducible assumption | with_reducible apply State.modPage_good | with_reducible apply State.evictDie_good | simp only [good_keep, good_time] | intro _ | split | dsimp only
  all_goals simp (maxDischargeDepth := 60) +contextual [*]

@[simp] theorem State.commitMap_good (s : State) (t : Fin 4) (v f : Nat) (ev : Bool) (kind target : Nat) (hs : State.Good FZ PQ s) : State.Good FZ PQ (State.commitMap s t v f ev kind target) := by
  unfold State.commitMap
  simp [hs]

@[simp] theorem State.commitUnmap_good (s : State) (t : Fin 4) (v : Nat) (hs : State.Good FZ PQ s) : State.Good FZ PQ (State.commitUnmap s t v) := by
  unfold State.commitUnmap
  repeat' first | with_reducible assumption | with_reducible apply State.useFrame_good | with_reducible apply State.freeFrame_good | with_reducible apply State.dropDie_good | with_reducible apply State.delPage_good | with_reducible apply State.dropShadow_good | intro _ | split | dsimp only

@[simp] theorem State.reuseDie_good (s : State) (p : Nat → DieUse → Bool) (u : DieUse) (hs : State.Good FZ PQ s) : State.Good FZ PQ (State.reuseDie s p u) := by
  unfold State.reuseDie
  simp [hs]

@[simp] theorem State.commitPin_good (s : State) (t : Fin 4) (v kind target : Nat) (hs : State.Good FZ PQ s) : State.Good FZ PQ (State.commitPin s t v kind target) := by
  unfold State.commitPin
  repeat' first | with_reducible assumption | with_reducible apply State.freeFrame_good | with_reducible apply State.modPage_good | with_reducible apply State.reuseDie_good | intro _ | split | dsimp only

@[simp] theorem State.commitEffect_good (s : State) (t : Fin 4) (q : Fin 64) (e : Effect) (hs : State.Good FZ PQ s) : State.Good FZ PQ (State.commitEffect s t q e) := by
  unfold State.commitEffect
  repeat' split
  all_goals simp [hs]

@[simp] theorem State.commitQuery_good (s : State) (t : Fin 4) (e : Effect) (hs : State.Good FZ PQ s) : State.Good FZ PQ (State.commitQuery s t e) := by
  unfold State.commitQuery
  repeat' split
  all_goals simp [hs]

@[simp] theorem State.switchMigrated_good (s : State) (t : Fin 4) (hs : State.Good FZ PQ s) : State.Good FZ PQ (State.switchMigrated s t) := by
  unfold State.switchMigrated
  repeat' first | with_reducible assumption | with_reducible apply State.copyFrame_good | with_reducible apply State.bump_good | with_reducible apply State.useFrame_good | with_reducible apply State.modPage_good | with_reducible apply State.moveShadow_good | with_reducible refine good_each ?_ (fun _ _ _ => ?_) | intro _ | split | dsimp only

@[simp] theorem State.retryPins_good (s : State) (t : Fin 4) (hs : State.Good FZ PQ s) : State.Good FZ PQ (State.retryPins s t) := by
  unfold State.retryPins
  repeat' first | with_reducible assumption | with_reducible apply State.startMigration_good | with_reducible apply State.startDiePin_good | with_reducible refine good_each ?_ (fun _ _ _ => ?_) | intro _

@[simp] theorem State.copyKvBytes_good (s : State) (f g : Nat) (hs : State.Good FZ PQ s) :
    State.Good FZ PQ (s.copyKvBytes f g) :=
  good_mem hs (memCopy_wf _ _ _ (good_wf hs))

@[simp] theorem State.moveKv_good (s : State) (f g : Nat) (hs : State.Good FZ PQ s) : State.Good FZ PQ (State.moveKv s f g) := by
  unfold State.moveKv
  repeat' first | with_reducible assumption | with_reducible apply State.copyKvBytes_good | with_reducible apply State.bump_good | with_reducible apply State.putT_good | with_reducible apply State.reuseDie_good | with_reducible refine good_each ?_ (fun _ _ _ => ?_) | simp only [good_keep, good_time, good_tables] | intro _ | split | dsimp only

@[simp] theorem State.compactArenas_good (s : State) (t : Fin 4) (hs : State.Good FZ PQ s) : State.Good FZ PQ (State.compactArenas s t) := by
  unfold State.compactArenas
  repeat' first | with_reducible assumption | with_reducible apply State.trimArenas_good | with_reducible apply State.moveKv_good | with_reducible refine good_each ?_ (fun _ _ _ => ?_) | intro _ | split | dsimp only

@[simp] theorem State.commitTransfers_good (s : State) (hs : State.Good FZ PQ s) : State.Good FZ PQ (State.commitTransfers s) := by
  unfold State.commitTransfers
  repeat' first | with_reducible assumption | with_reducible apply State.transferDone_good | with_reducible refine good_each ?_ (fun _ _ _ => ?_) | intro _ | split

@[simp] theorem State.settleCommitted_good (s : State) (done shown : List SliceRef) (hs : State.Good FZ PQ s) : State.Good FZ PQ (State.settleCommitted s done shown) := by
  unfold State.settleCommitted
  repeat' first | with_reducible assumption | with_reducible apply State.modRun_good | with_reducible apply State.freeFrame_good | with_reducible refine good_each ?_ (fun _ _ _ => ?_) | simp only [good_keep, good_time] | intro _ | split | dsimp only

@[simp] theorem State.fenceStep_good (s : State) (short : List (Fin 4 × Fin 64 × Nat)) (hs : State.Good FZ PQ s) : State.Good FZ PQ (State.fenceStep s short) := by
  unfold State.fenceStep
  repeat' first | with_reducible assumption | with_reducible apply State.modQueue_good | with_reducible apply State.modRun_good | with_reducible refine good_each ?_ (fun _ _ _ => ?_) | intro _ | split

@[simp] theorem State.queueControl_good (s : State) (hs : State.Good FZ PQ s) : State.Good FZ PQ (State.queueControl s) := by
  unfold State.queueControl
  repeat' first | with_reducible assumption | with_reducible apply State.modQueue_good | with_reducible refine good_each ?_ (fun _ _ _ => ?_) | intro _ | split

@[simp] theorem State.remapStep_good (s : State) (hs : State.Good FZ PQ s) : State.Good FZ PQ (State.remapStep s) := by
  unfold State.remapStep
  repeat' first | with_reducible assumption | with_reducible apply State.showPage_good | with_reducible apply State.showKv_good | with_reducible apply State.commitEffect_good | with_reducible apply State.commitQuery_good | with_reducible apply State.switchMigrated_good | with_reducible apply State.retryPins_good | with_reducible apply State.compactArenas_good | with_reducible apply State.commitTransfers_good | with_reducible apply State.settleCommitted_good | with_reducible apply State.fenceStep_good | with_reducible apply State.queueControl_good | with_reducible apply State.endDigest_good | with_reducible apply State.sealModel_good | with_reducible apply State.removeModel_good | with_reducible apply State.allocStaging_good | with_reducible apply State.settleEvictions_good | with_reducible apply State.showPage_good | with_reducible apply State.showKv_good | with_reducible apply State.commitEffect_good | with_reducible apply State.commitQuery_good | with_reducible apply State.switchMigrated_good | with_reducible apply State.retryPins_good | with_reducible apply State.compactArenas_good | with_reducible apply State.commitTransfers_good | with_reducible apply State.settleCommitted_good | with_reducible apply State.fenceStep_good | with_reducible apply State.queueControl_good | with_reducible refine good_each ?_ (fun _ _ _ => ?_) | intro _ | split | dsimp only
  all_goals simp (maxDischargeDepth := 60) +contextual [*]

@[simp] theorem State.clearReads_good (s : State) (hs : State.Good FZ PQ s) : State.Good FZ PQ (State.clearReads s) := by
  unfold State.clearReads
  simp [hs]

@[simp] theorem State.releasePins_good (s : State) (hs : State.Good FZ PQ s) : State.Good FZ PQ (State.releasePins s) := by
  unfold State.releasePins
  repeat' first | with_reducible assumption | with_reducible apply State.modRun_good | with_reducible apply State.clearReads_good | with_reducible refine good_each ?_ (fun _ _ _ => ?_) | intro _ | split

@[simp] theorem State.freeOld_good (s : State) (hs : State.Good FZ PQ s) : State.Good FZ PQ (State.freeOld s) := by
  unfold State.freeOld
  repeat' first | with_reducible assumption | with_reducible apply State.freeFrame_good | with_reducible apply State.dropKv_good | with_reducible refine good_each ?_ (fun _ _ _ => ?_) | intro _ | dsimp only

@[simp] theorem State.markShared_good (s : State) (x : Nat × KvFrame) (hs : State.Good FZ PQ s) : State.Good FZ PQ (State.markShared s x) := by
  unfold State.markShared
  repeat' first | with_reducible assumption | with_reducible apply State.putT_good | with_reducible refine good_each ?_ (fun _ _ _ => ?_) | intro _ | split | dsimp only

@[simp] theorem State.releaseEntry_good (s : State) (en : SchedEntry) (hs : State.Good FZ PQ s) : State.Good FZ PQ (State.releaseEntry s en) := by
  unfold State.releaseEntry
  repeat' first | with_reducible assumption | with_reducible apply State.dropDie_good | with_reducible apply State.modKv_good | with_reducible refine good_each ?_ (fun _ _ _ => ?_) | simp only [good_keep, good_time, good_tables] | intro _ | split | dsimp only

@[simp] theorem State.releaseSchedule_good (s : State) (hs : State.Good FZ PQ s) : State.Good FZ PQ (State.releaseSchedule s) := by
  unfold State.releaseSchedule
  repeat' first | with_reducible assumption | with_reducible apply State.releaseEntry_good | with_reducible refine good_each ?_ (fun _ _ _ => ?_) | simp only [good_keep, good_time, good_tables] | intro _ | dsimp only

@[simp] theorem State.freeScrubbed_good (s : State) (hs : State.Good FZ PQ s) : State.Good FZ PQ (State.freeScrubbed s) := by
  unfold State.freeScrubbed
  repeat' first | with_reducible assumption | with_reducible apply State.freeFrame_good | with_reducible refine good_each ?_ (fun _ _ _ => ?_) | simp only [good_keep, good_time, good_tables] | intro _ | dsimp only

@[simp] theorem State.scrubTenancy_good (s : State) (t : Fin 4) (hs : State.Good FZ PQ s) : State.Good FZ PQ (State.scrubTenancy s t) := by
  unfold State.scrubTenancy
  repeat' first | with_reducible assumption | with_reducible apply State.useFrame_good | with_reducible refine good_each ?_ (fun _ _ _ => ?_) | simp only [good_keep, good_time, good_tables] | intro _ | dsimp only

@[simp] theorem State.settleStep_good (s : State) (hs : State.Good FZ PQ s) : State.Good FZ PQ (State.settleStep s) := by
  unfold State.settleStep
  repeat' first | with_reducible assumption | with_reducible apply State.releasePins_good | with_reducible apply State.freeOld_good | with_reducible apply State.markShared_good | with_reducible apply State.releaseSchedule_good | with_reducible apply State.freeScrubbed_good | with_reducible apply State.scrubTenancy_good | with_reducible refine good_each ?_ (fun _ _ _ => ?_) | intro _ | dsimp only

@[simp] theorem State.failShort_good (s : State) (l : List (Fin 4 × Fin 64 × Nat)) (hs : State.Good FZ PQ s) : State.Good FZ PQ (State.failShort s l) := by
  unfold State.failShort
  repeat' first | with_reducible assumption | with_reducible apply State.failAt_good | with_reducible refine good_each ?_ (fun _ _ _ => ?_) | intro _

@[simp] theorem State.commitSteps_good (s : State) (hs : State.Good FZ PQ s) : State.Good FZ PQ (State.commitSteps s) := by
  unfold State.commitSteps
  simp (maxDischargeDepth := 60) [hs]

end Sys2Proof.Machine
end

