-- ==== Sys2Proof/Laws/GoodSwap.lean ====
section
/-! SUPPORT. What Machine/Swap.lean keeps: the fuses, the queue, the tick count and the canonical form of memory (State.Good). -/
set_option linter.unusedSimpArgs false

namespace Sys2Proof.Machine

open Sys2Proof

variable {FZ : FuseSt} {PQ : List Instr → Nat → Prop}

@[simp] theorem State.detach_good (s : State) (hs : State.Good FZ PQ s) : State.Good FZ PQ (State.detach s).2 := by
  unfold State.detach
  repeat' first | with_reducible assumption | with_reducible apply State.modQueue_good | with_reducible refine good_each ?_ (fun _ _ _ => ?_) | intro _ | split | dsimp only

theorem State.detach_some {s : State} {x0 : List Completed} {s' : State} (he : State.detach s = (x0, s')) (hs : State.Good FZ PQ s) : State.Good FZ PQ s' := by
  have hg := State.detach_good s hs
  rw [he] at hg
  exact hg

@[simp] theorem State.takeShadow_good (s : State) (p : Nat → Bool) (hs : State.Good FZ PQ s) : State.Good FZ PQ (State.takeShadow s p) := by
  unfold State.takeShadow
  simp [hs]

@[simp] theorem State.swapGroups_good (s : State) (hs : State.Good FZ PQ s) : State.Good FZ PQ (State.swapGroups s) := by
  unfold State.swapGroups
  repeat' first | with_reducible assumption | with_reducible apply State.takeShadow_good | with_reducible refine good_each ?_ (fun _ _ _ => ?_) | simp only [good_keep, good_time] | intro _ | split | dsimp only

@[simp] theorem State.swapQuota_good (s : State) (hs : State.Good FZ PQ s) : State.Good FZ PQ (State.swapQuota s) := by
  unfold State.swapQuota
  repeat' first | with_reducible assumption | with_reducible apply State.bump_good | with_reducible apply State.takeShadow_good | simp only [good_keep, good_time] | intro _ | split | dsimp only

@[simp] theorem State.swapTenancy_good (s : State) (t : Fin 4) (hs : State.Good FZ PQ s) : State.Good FZ PQ (State.swapTenancy s t) := by
  unfold State.swapTenancy
  repeat' first | with_reducible assumption | with_reducible apply State.takeShadow_good | simp only [good_keep, good_time] | intro _ | split | dsimp only

@[simp] theorem State.swapAugmentation_good (s : State) (hs : State.Good FZ PQ s) : State.Good FZ PQ (State.swapAugmentation s) := by
  unfold State.swapAugmentation
  simp [hs]

@[simp] theorem State.swapDirectories_good (s : State) (l : List Completed) (hs : State.Good FZ PQ s) : State.Good FZ PQ (State.swapDirectories s l) := by
  unfold State.swapDirectories
  repeat' first | with_reducible assumption | with_reducible apply State.syncDirectory_good | with_reducible apply State.setDir_good | with_reducible refine good_each ?_ (fun _ _ _ => ?_) | simp only [good_keep, good_time, good_tables] | intro _ | split | dsimp only
  all_goals simp (maxDischargeDepth := 60) +contextual [*]

@[simp] theorem State.takeWritten_good (s : State) (hs : State.Good FZ PQ s) : State.Good FZ PQ (State.takeWritten s) := by
  unfold State.takeWritten
  repeat' first | with_reducible assumption | with_reducible apply State.setPeriod_good | with_reducible apply State.changePeriod_good | with_reducible refine good_each ?_ (fun _ _ _ => ?_) | simp only [good_keep, good_time] | intro _ | split | dsimp only

@[simp] theorem State.swapStep_good (s : State) (l : List Completed) (hs : State.Good FZ PQ s) : State.Good FZ PQ (State.swapStep s l) := by
  unfold State.swapStep
  repeat' first | with_reducible assumption | with_reducible apply State.swapRoutes_good | with_reducible apply State.routeCheck_good | with_reducible apply State.redigest_good | with_reducible apply State.swapGroups_good | with_reducible apply State.swapQuota_good | with_reducible apply State.swapTenancy_good | with_reducible apply State.swapAugmentation_good | with_reducible apply State.swapDirectories_good | with_reducible apply State.takeWritten_good | with_reducible refine good_each ?_ (fun _ _ _ => ?_) | split | dsimp only

@[simp] theorem State.accountTenancy_good (s : State) (t : Fin 4) (hs : State.Good FZ PQ s) : State.Good FZ PQ (State.accountTenancy s t) := by
  unfold State.accountTenancy
  repeat' first | with_reducible assumption | with_reducible apply State.bumpT_good | with_reducible apply State.modTen_good | with_reducible refine good_each ?_ (fun _ _ _ => ?_) | intro _ | dsimp only

@[simp] theorem State.measure_good (s : State) (env : SluiceEnv) (hs : State.Good FZ PQ s) : State.Good FZ PQ (State.measure s env) := by
  unfold State.measure
  refine iteInduction (motive := State.Good FZ PQ) (fun _ => ?_) (fun _ => ?_)
  · exact State.modPower_good _ _ hs
  · exact State.updateRisk_good _ (State.modHealth_good _ _ (State.modPower_good _ _ hs))

@[simp] theorem State.charge_good (s : State) (t : Fin 4) (cls cost : Nat) (hs : State.Good FZ PQ s) : State.Good FZ PQ (State.charge s t cls cost) := by
  unfold State.charge
  repeat' first | with_reducible assumption | with_reducible apply State.modTen_good | intro _ | split | dsimp only
  all_goals simp (maxDischargeDepth := 60) +contextual [*]

@[simp] theorem State.accountStep_good (s : State) (env : SluiceEnv) (due : List (Fin 4 × Nat × Nat)) (hs : State.Good FZ PQ s) : State.Good FZ PQ (State.accountStep s env due) := by
  unfold State.accountStep
  repeat' first | with_reducible assumption | with_reducible apply State.accountTenancy_good | with_reducible apply State.measure_good | with_reducible apply State.accountTenancy_good | with_reducible apply State.measure_good | with_reducible apply State.charge_good | with_reducible refine good_each ?_ (fun _ _ _ => ?_) | simp only [good_keep, good_time] | intro _ | dsimp only
  all_goals simp (maxDischargeDepth := 60) +contextual [*]

end Sys2Proof.Machine
end

