-- ==== Sys2Proof/Laws/GoodBoundary.lean ====
section
/-! SUPPORT. What Machine/Boundary.lean keeps: the fuses, the queue, the tick count and the canonical form of memory (State.Good). -/
set_option linter.unusedSimpArgs false

namespace Sys2Proof.Machine

open Sys2Proof

variable {FZ : FuseSt} {PQ : List Instr → Nat → Prop}

@[simp] theorem State.breakCycles_good (s : State) (t : Fin 4) (hs : State.Good FZ PQ s) : State.Good FZ PQ (State.breakCycles s t) := by
  unfold State.breakCycles
  repeat' first | with_reducible assumption | with_reducible apply State.bump_good | with_reducible apply State.failAt_good | with_reducible refine good_each ?_ (fun _ _ _ => ?_) | intro _ | dsimp only

@[simp] theorem State.haltChain_good (s : State) (t : Fin 4) (n : Nat) (hs : State.Good FZ PQ s) :
    State.Good FZ PQ (s.haltChain t n) := by
  induction n generalizing s with
  | zero => exact hs
  | succ n ih =>
    unfold State.haltChain
    split
    · exact hs
    · exact ih _ (State.bump_good _ _ _ _ (State.failAt_good _ _ _ _ hs))

@[simp] theorem State.fenceFailures_good (s : State) (hs : State.Good FZ PQ s) : State.Good FZ PQ (State.fenceFailures s) := by
  unfold State.fenceFailures
  repeat' first | with_reducible assumption | with_reducible apply State.haltChain_good | with_reducible apply State.breakCycles_good | with_reducible refine good_each ?_ (fun _ _ _ => ?_) | intro _

@[simp] theorem State.setClock_good (s : State) (hs : State.Good FZ PQ s) : State.Good FZ PQ (State.setClock s) := by
  unfold State.setClock
  simp [hs]

@[simp] theorem State.testCores_good (s : State) (exclusive : Bool) (hs : State.Good FZ PQ s) : State.Good FZ PQ (State.testCores s exclusive) := by
  unfold State.testCores
  repeat' first | with_reducible assumption | with_reducible apply State.startRound_good | simp only [good_keep, good_time] | intro _ | split | dsimp only

@[simp] theorem State.setCapacity_good (s : State) (exclusive : Bool) (hs : State.Good FZ PQ s) : State.Good FZ PQ (State.setCapacity s exclusive) := by
  unfold State.setCapacity
  repeat' first | with_reducible assumption | with_reducible apply State.bump_good | simp only [good_keep, good_time] | split | dsimp only

@[simp] theorem State.forceStacks_good (s : State) (hs : State.Good FZ PQ s) : State.Good FZ PQ (State.forceStacks s) := by
  unfold State.forceStacks
  repeat' first | with_reducible assumption | with_reducible apply State.forceQuiet_good | with_reducible refine good_each ?_ (fun _ _ _ => ?_) | intro _

@[simp] theorem State.admitColls_good (s : State) (exclusive : Bool) (hs : State.Good FZ PQ s) : State.Good FZ PQ (State.admitColls s exclusive) := by
  unfold State.admitColls
  repeat' first | with_reducible assumption | with_reducible apply State.offerColl_good | with_reducible apply State.giveSlots_good | with_reducible apply State.admitRings_good | with_reducible apply State.statsReady_good | with_reducible apply State.startTransfer_good | with_reducible refine good_each ?_ (fun _ _ _ => ?_) | intro _ | dsimp only

@[simp] theorem State.admitStep11_good (s : State) (hs : State.Good FZ PQ s) : State.Good FZ PQ (State.admitStep11 s) := by
  unfold State.admitStep11
  repeat' first | with_reducible assumption | with_reducible apply State.ensureHead_good | with_reducible apply State.stageActive_good | with_reducible apply State.collHeadCheck_good | with_reducible apply State.admitRings_good | with_reducible apply State.streamBoundary_good | with_reducible apply State.readSlices_good | with_reducible apply State.admitAll_good | with_reducible apply State.dieFaults_good | with_reducible apply State.startImageDigest_good | with_reducible apply State.fenceFailures_good | with_reducible apply State.setClock_good | with_reducible apply State.testCores_good | with_reducible apply State.setCapacity_good | with_reducible apply State.forceStacks_good | with_reducible apply State.admitColls_good | with_reducible refine good_each ?_ (fun _ _ _ => ?_) | intro _ | split | dsimp only
  all_goals simp (maxDischargeDepth := 60) +contextual [*]

end Sys2Proof.Machine
end

