-- ==== Sys2Proof/Laws/GoodFinish.lean ====
section
/-! SUPPORT. What Machine/Finish.lean keeps: the fuses, the queue, the tick count and the canonical form of memory (State.Good). -/
set_option linter.unusedSimpArgs false

namespace Sys2Proof.Machine

open Sys2Proof

variable {FZ : FuseSt} {PQ : List Instr → Nat → Prop}

@[simp] theorem State.modRecorded_good (s : State) (t : Fin 4) (q : Fin 64) (r : CmdRun) (f : RecEntry → RecEntry) (hs : State.Good FZ PQ s) : State.Good FZ PQ (State.modRecorded s t q r f) := by
  unfold State.modRecorded
  repeat' split
  all_goals simp [hs]

@[simp] theorem State.advancePass_good (s : State) (t : Fin 4) (ws : List W64) (hs : State.Good FZ PQ s) : State.Good FZ PQ (State.advancePass s t ws) := by
  unfold State.advancePass
  repeat' first | with_reducible assumption | with_reducible refine good_each ?_ (fun _ _ _ => ?_) | simp only [good_keep, good_time] | intro _ | split | dsimp only

@[simp] theorem State.noteStorm_good (s : State) (t : Fin 4) (r : CmdRun) (hs : State.Good FZ PQ s) : State.Good FZ PQ (State.noteStorm s t r) := by
  unfold State.noteStorm
  repeat' first | with_reducible assumption | with_reducible apply State.bump_good | simp only [good_keep, good_time] | intro _ | split | dsimp only

@[simp] theorem State.noteHistory_good (s : State) (t : Fin 4) (r : CmdRun) (hs : State.Good FZ PQ s) : State.Good FZ PQ (State.noteHistory s t r) := by
  unfold State.noteHistory
  simp (maxDischargeDepth := 60) [hs]

@[simp] theorem State.finishDone_good (s : State) (c : Completed) (hs : State.Good FZ PQ s) : State.Good FZ PQ (State.finishDone s c) := by
  unfold State.finishDone
  repeat' first | with_reducible assumption | with_reducible apply State.bumpT_good | with_reducible apply State.complete_good | with_reducible apply State.removeColl_good | with_reducible apply State.advanceSeq_good | with_reducible apply State.applyRestored_good | with_reducible apply State.modRecorded_good | with_reducible apply State.advancePass_good | with_reducible apply State.noteStorm_good | with_reducible apply State.noteHistory_good | with_reducible refine good_each ?_ (fun _ _ _ => ?_) | intro _ | split | dsimp only

@[simp] theorem State.endColls_good (s : State) (t : Fin 4) (q : Fin 64) (r : CmdRun) (hs : State.Good FZ PQ s) : State.Good FZ PQ (State.endColls s t q r) := by
  unfold State.endColls
  repeat' first | with_reducible assumption | with_reducible apply State.advanceSeq_good | with_reducible apply State.endColl_good | with_reducible refine good_each ?_ (fun _ _ _ => ?_) | intro _ | split | dsimp only

@[simp] theorem State.finishFailed_good (s : State) (t : Fin 4) (q : Fin 64) (r : CmdRun) (hs : State.Good FZ PQ s) : State.Good FZ PQ (State.finishFailed s t q r) := by
  unfold State.finishFailed
  simp (maxDischargeDepth := 60) [hs]

@[simp] theorem State.finishSecure_good (s : State) (t : Fin 4) (q : Fin 64) (r : CmdRun) (hs : State.Good FZ PQ s) : State.Good FZ PQ (State.finishSecure s t q r) := by
  unfold State.finishSecure
  simp (maxDischargeDepth := 60) [hs]

@[simp] theorem State.finishQueue_good (s : State) (l : List Completed) (x : Fin 4 × Fin 64) (hs : State.Good FZ PQ s) : State.Good FZ PQ (State.finishQueue s l x) := by
  unfold State.finishQueue
  repeat' first | with_reducible assumption | with_reducible apply State.noSnapshot_good | with_reducible apply State.finishDone_good | with_reducible apply State.finishFailed_good | with_reducible apply State.finishSecure_good | with_reducible refine good_each ?_ (fun _ _ _ => ?_) | intro _ | split | dsimp only

@[simp] theorem State.signal_good (s : State) (ended : List (Fin 4 × Fin 64 × List W64)) (hs : State.Good FZ PQ s) : State.Good FZ PQ (State.signal s ended) := by
  unfold State.signal
  repeat' first | with_reducible assumption | with_reducible apply State.msix_good | with_reducible refine good_each ?_ (fun _ _ _ => ?_) | intro _ | dsimp only

@[simp] theorem State.finishColls_good (s : State) (hs : State.Good FZ PQ s) : State.Good FZ PQ (State.finishColls s) := by
  unfold State.finishColls
  repeat' first | with_reducible assumption | with_reducible apply State.removeColl_good | with_reducible apply State.advanceSeq_good | with_reducible apply State.endColl_good | with_reducible apply State.ringTail_good | with_reducible refine good_each ?_ (fun _ _ _ => ?_) | intro _ | split | dsimp only

@[simp] theorem State.finishDeletes_good (s : State) (hs : State.Good FZ PQ s) : State.Good FZ PQ (State.finishDeletes s) := by
  unfold State.finishDeletes
  repeat' first | with_reducible assumption | with_reducible apply State.modQueue_good | with_reducible refine good_each ?_ (fun _ _ _ => ?_) | intro _ | split

@[simp] theorem State.finishQuiesce_good (s : State) (hs : State.Good FZ PQ s) : State.Good FZ PQ (State.finishQuiesce s) := by
  unfold State.finishQuiesce
  repeat' first | with_reducible assumption | with_reducible apply State.bump_good | with_reducible apply State.setCause_good | with_reducible refine good_each ?_ (fun _ _ _ => ?_) | simp only [good_keep, good_time] | intro _ | split

@[simp] theorem State.reloadRange_good (s : State) (t : Fin 4) (hs : State.Good FZ PQ s) : State.Good FZ PQ (State.reloadRange s t) := by
  unfold State.reloadRange
  repeat' first | with_reducible assumption | with_reducible apply State.loadValue_good | with_reducible refine good_each ?_ (fun _ _ _ => ?_) | simp only [good_keep, good_time] | intro _ | split | dsimp only

@[simp] theorem State.closeUnits_good (s : State) (t : Fin 4) (hs : State.Good FZ PQ s) : State.Good FZ PQ (State.closeUnits s t) := by
  unfold State.closeUnits
  repeat' first | with_reducible assumption | with_reducible apply State.modStream_good | with_reducible apply State.closeStream_good | with_reducible refine good_each ?_ (fun _ _ _ => ?_) | simp only [good_keep, good_time] | intro _ | dsimp only
  all_goals simp (maxDischargeDepth := 60) +contextual [*]

@[simp] theorem State.finishReset_good (s : State) (t : Fin 4) (hs : State.Good FZ PQ s) : State.Good FZ PQ (State.finishReset s t) := by
  unfold State.finishReset
  repeat' first | with_reducible assumption | with_reducible apply State.bump_good | with_reducible apply State.modPort_good | with_reducible apply State.modTen_good | with_reducible apply State.redigest_good | with_reducible apply State.reloadRange_good | with_reducible apply State.closeUnits_good | simp only [good_keep, good_time] | intro _ | dsimp only

@[simp] theorem State.patchImages_good (s : State) (hs : State.Good FZ PQ s) : State.Good FZ PQ (State.patchImages s) := by
  unfold State.patchImages
  repeat' first | with_reducible assumption | with_reducible apply State.modRun_good | with_reducible refine good_each ?_ (fun _ _ _ => ?_) | intro _

@[simp] theorem State.countRemnants_good (s : State) (hs : State.Good FZ PQ s) : State.Good FZ PQ (State.countRemnants s) := by
  unfold State.countRemnants
  simp [hs]

@[simp] theorem State.completeStep_good (s : State) (l : List Completed) (hs : State.Good FZ PQ s) : State.Good FZ PQ (State.completeStep s l) := by
  unfold State.completeStep
  repeat' first | with_reducible assumption | with_reducible apply State.finishQueue_good | with_reducible apply State.signal_good | with_reducible apply State.finishColls_good | with_reducible apply State.finishDeletes_good | with_reducible apply State.finishQuiesce_good | with_reducible apply State.finishReset_good | with_reducible apply State.patchImages_good | with_reducible apply State.countRemnants_good | with_reducible refine good_each ?_ (fun _ _ _ => ?_) | intro _ | dsimp only

@[simp] theorem State.startRecal_good (s : State) (hs : State.Good FZ PQ s) : State.Good FZ PQ (State.startRecal s) := by
  unfold State.startRecal
  repeat' first | with_reducible assumption | with_reducible apply State.modHealth_good | with_reducible refine good_each ?_ (fun _ _ _ => ?_) | intro _ | split

@[simp] theorem State.startStep_good (s : State) (hs : State.Good FZ PQ s) : State.Good FZ PQ (State.startStep s) := by
  unfold State.startStep
  repeat' first | with_reducible assumption | with_reducible apply State.startRecal_good | with_reducible apply State.startRings_good | with_reducible apply State.secureStep_good | with_reducible apply State.boundaryTick_good | with_reducible apply State.startRecal_good | with_reducible refine good_each ?_ (fun _ _ _ => ?_) | intro _ | dsimp only
  all_goals simp (maxDischargeDepth := 60) +contextual [*]

end Sys2Proof.Machine
end

