-- ==== Sys2Proof/Laws/GoodScalar.lean ====
section
/-! SUPPORT. What Machine/Scalar.lean keeps: the fuses, the queue, the tick count and the canonical form of memory (State.Good). -/
set_option linter.unusedSimpArgs false

namespace Sys2Proof.Machine

open Sys2Proof

variable {FZ : FuseSt} {PQ : List Instr → Nat → Prop}

@[simp] theorem scalarOp_good (c : CtxId) (op : Nat) (f : Strand → Slice → W64 → W64) (s : State) (hs : State.Good FZ PQ s) : State.Good FZ PQ (scalarOp c op f s) := by
  unfold scalarOp
  simp [hs]

theorem execNop_good (c : CtxId) (s : State) {s' : State} (h : execNop c s = .next s') (hs : State.Good FZ PQ s) : State.Good FZ PQ s' := by
  unfold execNop at h
  obtain rfl := Host.Outcome.next.inj h
  clear h
  simp [hs]

theorem execBr_good (c : CtxId) (s : State) {s' : State} (h : execBr c s = .next s') (hs : State.Good FZ PQ s) : State.Good FZ PQ s' := by
  unfold execBr at h
  obtain rfl := Host.Outcome.next.inj h
  clear h
  repeat' first | with_reducible assumption | with_reducible apply issueOp_good | with_reducible apply State.setStrand_good | simp only [good_keep, good_time] | intro _ | split

theorem execLoop_good (c : CtxId) (s : State) {s' : State} (h : execLoop c s = .next s') (hs : State.Good FZ PQ s) : State.Good FZ PQ s' := by
  unfold execLoop at h
  obtain rfl := Host.Outcome.next.inj h
  clear h
  repeat' first | with_reducible assumption | with_reducible apply issueOp_good | with_reducible apply State.setStrand_good | simp only [good_keep, good_time] | intro _ | split | dsimp only

theorem execRdsys_good (c : CtxId) (s : State) {s' : State} (h : execRdsys c s = .next s') (hs : State.Good FZ PQ s) : State.Good FZ PQ s' := by
  unfold execRdsys at h
  obtain rfl := Host.Outcome.next.inj h
  clear h
  simp [hs]

theorem execRdlen_good (c : CtxId) (s : State) {s' : State} (h : execRdlen c s = .next s') (hs : State.Good FZ PQ s) : State.Good FZ PQ s' := by
  unfold execRdlen at h
  obtain rfl := Host.Outcome.next.inj h
  clear h
  simp [hs]

theorem execLi_good (c : CtxId) (s : State) {s' : State} (h : execLi c s = .next s') (hs : State.Good FZ PQ s) : State.Good FZ PQ s' := by
  unfold execLi at h
  obtain rfl := Host.Outcome.next.inj h
  clear h
  simp [hs]

theorem execLih_good (c : CtxId) (s : State) {s' : State} (h : execLih c s = .next s') (hs : State.Good FZ PQ s) : State.Good FZ PQ s' := by
  unfold execLih at h
  obtain rfl := Host.Outcome.next.inj h
  clear h
  simp [hs]

theorem execAdd_good (c : CtxId) (s : State) {s' : State} (h : execAdd c s = .next s') (hs : State.Good FZ PQ s) : State.Good FZ PQ s' := by
  unfold execAdd at h
  obtain rfl := Host.Outcome.next.inj h
  clear h
  simp [hs]

theorem execSub_good (c : CtxId) (s : State) {s' : State} (h : execSub c s = .next s') (hs : State.Good FZ PQ s) : State.Good FZ PQ s' := by
  unfold execSub at h
  obtain rfl := Host.Outcome.next.inj h
  clear h
  simp [hs]

theorem execMul_good (c : CtxId) (s : State) {s' : State} (h : execMul c s = .next s') (hs : State.Good FZ PQ s) : State.Good FZ PQ s' := by
  unfold execMul at h
  obtain rfl := Host.Outcome.next.inj h
  clear h
  simp [hs]

theorem execMuli_good (c : CtxId) (s : State) {s' : State} (h : execMuli c s = .next s') (hs : State.Good FZ PQ s) : State.Good FZ PQ s' := by
  unfold execMuli at h
  obtain rfl := Host.Outcome.next.inj h
  clear h
  simp [hs]

theorem execAnd_good (c : CtxId) (s : State) {s' : State} (h : execAnd c s = .next s') (hs : State.Good FZ PQ s) : State.Good FZ PQ s' := by
  unfold execAnd at h
  obtain rfl := Host.Outcome.next.inj h
  clear h
  simp [hs]

theorem execOr_good (c : CtxId) (s : State) {s' : State} (h : execOr c s = .next s') (hs : State.Good FZ PQ s) : State.Good FZ PQ s' := by
  unfold execOr at h
  obtain rfl := Host.Outcome.next.inj h
  clear h
  simp [hs]

theorem execXor_good (c : CtxId) (s : State) {s' : State} (h : execXor c s = .next s') (hs : State.Good FZ PQ s) : State.Good FZ PQ s' := by
  unfold execXor at h
  obtain rfl := Host.Outcome.next.inj h
  clear h
  simp [hs]

theorem execShl_good (c : CtxId) (s : State) {s' : State} (h : execShl c s = .next s') (hs : State.Good FZ PQ s) : State.Good FZ PQ s' := by
  unfold execShl at h
  obtain rfl := Host.Outcome.next.inj h
  clear h
  simp [hs]

theorem execShr_good (c : CtxId) (s : State) {s' : State} (h : execShr c s = .next s') (hs : State.Good FZ PQ s) : State.Good FZ PQ s' := by
  unfold execShr at h
  obtain rfl := Host.Outcome.next.inj h
  clear h
  simp [hs]

theorem execSra_good (c : CtxId) (s : State) {s' : State} (h : execSra c s = .next s') (hs : State.Good FZ PQ s) : State.Good FZ PQ s' := by
  unfold execSra at h
  obtain rfl := Host.Outcome.next.inj h
  clear h
  simp [hs]

theorem execMin_good (c : CtxId) (s : State) {s' : State} (h : execMin c s = .next s') (hs : State.Good FZ PQ s) : State.Good FZ PQ s' := by
  unfold execMin at h
  obtain rfl := Host.Outcome.next.inj h
  clear h
  simp [hs]

theorem execMax_good (c : CtxId) (s : State) {s' : State} (h : execMax c s = .next s') (hs : State.Good FZ PQ s) : State.Good FZ PQ s' := by
  unfold execMax at h
  obtain rfl := Host.Outcome.next.inj h
  clear h
  simp [hs]

theorem execDivui_good (c : CtxId) (s : State) {s' : State} (h : execDivui c s = .next s') (hs : State.Good FZ PQ s) : State.Good FZ PQ s' := by
  unfold execDivui at h
  obtain rfl := Host.Outcome.next.inj h
  clear h
  simp [hs]

theorem execRemui_good (c : CtxId) (s : State) {s' : State} (h : execRemui c s = .next s') (hs : State.Good FZ PQ s) : State.Good FZ PQ s' := by
  unfold execRemui at h
  obtain rfl := Host.Outcome.next.inj h
  clear h
  simp [hs]

theorem execTdld_good (c : CtxId) (s : State) {s' : State} (h : execTdld c s = .next s') (hs : State.Good FZ PQ s) : State.Good FZ PQ s' := by
  unfold execTdld at h
  obtain rfl := Host.Outcome.next.inj h
  clear h
  repeat' first | with_reducible assumption | with_reducible apply issueOp_good | with_reducible apply withRange_good | with_reducible apply State.setStrand_good | with_reducible apply State.raisePc_good | intro _ | split | dsimp only

theorem execTdst_good (c : CtxId) (s : State) {s' : State} (h : execTdst c s = .next s') (hs : State.Good FZ PQ s) : State.Good FZ PQ s' := by
  unfold execTdst at h
  obtain rfl := Host.Outcome.next.inj h
  clear h
  repeat' first | with_reducible assumption | with_reducible apply issueOp_good | with_reducible apply withRange_good | with_reducible apply State.setStrand_good | intro _ | dsimp only

theorem execTdoff_good (c : CtxId) (s : State) {s' : State} (h : execTdoff c s = .next s') (hs : State.Good FZ PQ s) : State.Good FZ PQ s' := by
  unfold execTdoff at h
  obtain rfl := Host.Outcome.next.inj h
  clear h
  repeat' first | with_reducible assumption | with_reducible apply issueOp_good | with_reducible apply State.setStrand_good | with_reducible apply State.raisePc_good | intro _ | split | dsimp only

theorem execTdsz_good (c : CtxId) (s : State) {s' : State} (h : execTdsz c s = .next s') (hs : State.Good FZ PQ s) : State.Good FZ PQ s' := by
  unfold execTdsz at h
  obtain rfl := Host.Outcome.next.inj h
  clear h
  repeat' first | with_reducible assumption | with_reducible apply issueOp_good | with_reducible apply State.setStrand_good | with_reducible apply State.raisePc_good | intro _ | split | dsimp only

theorem execKld_good (c : CtxId) (s : State) {s' : State} (h : execKld c s = .next s') (hs : State.Good FZ PQ s) : State.Good FZ PQ s' := by
  unfold execKld at h
  obtain rfl := Host.Outcome.next.inj h
  clear h
  repeat' first | with_reducible assumption | with_reducible apply issueOp_good | with_reducible apply withRange_good | with_reducible apply State.setStrand_good | intro _ | dsimp only

theorem execKst_good (c : CtxId) (s : State) {s' : State} (h : execKst c s = .next s') (hs : State.Good FZ PQ s) : State.Good FZ PQ s' := by
  unfold execKst at h
  obtain rfl := Host.Outcome.next.inj h
  clear h
  repeat' first | with_reducible assumption | with_reducible apply issueOp_good | with_reducible apply withRange_good | with_reducible apply State.setStrand_good | intro _ | dsimp only

end Sys2Proof.Machine
end

