-- ==== Sys2Proof/Laws/Port.lean ====
section
/-! SUPPORT. What the BAR2 accesses of a port leave: the timebase and the links, and so the number of the coming boundary. -/
namespace Sys2Proof.Machine

open Sys2Proof

/-- The timebase and the links of a state. -/
def State.timing (s : State) : TickSt × NetSt := (s.tick, s.net)

theorem State.writeVia_timing (s : State) (frameOf : Nat → Option Nat) (a : Nat) (bs : List Byte) :
    (s.writeVia frameOf a bs).timing = s.timing := by
  induction bs generalizing s a with
  | nil => rfl
  | cons b r ih =>
    unfold State.writeVia
    dsimp only
    rw [ih]
    split <;> rfl

theorem State.narrow_timing (s : State) (frameOf : Nat → Option Nat) (a n : Nat) :
    (s.narrow frameOf a n).timing = s.timing := by
  refine State.each_keep State.timing _ _ (fun s v => ?_) s
  split
  · unfold State.narrowPage
    split
    · rfl
    · dsimp only
      split
      · exact State.each_keep State.timing _ State.freeFrame (fun _ _ => rfl) s
      · rfl
  · rfl

theorem State.refuseBar2_timing (s : State) (t : Fin 4) (kind code a : Nat) :
    (s.refuseBar2 t kind code a).timing = s.timing := by
  have hc : ∀ (u : State) (t : Fin 4) (b : Nat), (u.setCause t b).timing = u.timing := by
    intro u t b
    unfold State.setCause State.withCause
    dsimp only
    split
    · unfold State.msix
      repeat' (first | dsimp only | split)
      all_goals rfl
    · rfl
  unfold State.refuseBar2
  dsimp only
  split
  · rfl
  · exact hc _ _ _

theorem State.bar2Do_timing {s u : State} {t : Fin 4} {x : HeldAccess} (h : s.bar2Do t x = .ok u) : u.timing = s.timing := by
  unfold State.bar2Do at h
  split at h
  · unfold State.bar2Load at h
    repeat' split at h
    all_goals first | cases h; done | skip
    all_goals obtain rfl := Except.ok.inj h
    · exact State.refuseBar2_timing _ _ _ _ _
    · rfl
  · unfold State.bar2Store at h
    dsimp only at h
    repeat' split at h
    all_goals first | cases h; done | skip
    all_goals obtain rfl := Except.ok.inj h
    · exact State.refuseBar2_timing _ _ _ _ _
    · exact State.refuseBar2_timing _ _ _ _ _
    · exact (State.narrow_timing _ _ _ _).trans (State.writeVia_timing _ _ _ _)

theorem State.bar2All_timing {s u : State} {t : Fin 4} {l : List HeldAccess} (h : s.bar2All t l = .ok u) :
    u.timing = s.timing := by
  induction l generalizing s with
  | nil => cases h; rfl
  | cons x r ih =>
    unfold State.bar2All at h
    cases hx : s.bar2Do t x with
    | error e => rw [hx] at h; cases h
    | ok v =>
      rw [hx] at h
      exact (ih h).trans (State.bar2Do_timing hx)

theorem State.bar2Flush_timing (s : State) (t : Fin 4) : (s.bar2Flush t).timing = s.timing := by
  unfold State.bar2Flush
  cases h : s.bar2Release t [] with
  | ok u => exact (State.bar2All_timing h).trans rfl
  | error e => rfl

/-- What the ports hold does not change the number of the coming boundary. -/
theorem State.flushed_nextBoundary (s : State) : (s.each allT State.bar2Flush).nextBoundary = s.nextBoundary := by
  have h := State.each_keep State.timing allT State.bar2Flush State.bar2Flush_timing s
  generalize s.each allT State.bar2Flush = u at h ⊢
  have ht : u.tick = s.tick := congrArg Prod.fst h
  have hn : u.net = s.net := congrArg Prod.snd h
  unfold State.nextBoundary
  rw [ht, hn]

end Sys2Proof.Machine
end

