-- ==== Sys2Proof/Laws/GoodSluice.lean ====
section
/-! SUPPORT. What Machine/Sluice.lean keeps: the fuses, the queue, the tick count and the canonical form of memory (State.Good). -/
set_option linter.unusedSimpArgs false

namespace Sys2Proof.Machine

open Sys2Proof

variable {FZ : FuseSt} {PQ : List Instr → Nat → Prop}

@[simp] theorem State.boundarySteps_good (s : State) (env : SluiceEnv) (due : List (Fin 4 × Nat × Nat)) (l : List Completed) (hs : State.Good FZ PQ s) : State.Good FZ PQ (State.boundarySteps s env due l) := by
  unfold State.boundarySteps
  repeat' first | with_reducible assumption | with_reducible apply State.completeStep_good | with_reducible apply State.startStep_good | with_reducible apply State.swapStep_good | with_reducible apply State.accountStep_good | with_reducible apply State.admitStep11_good
  all_goals simp (maxDischargeDepth := 60) +contextual [*]

/-- The sluice keeps what holds of the number of the boundary that it opens. -/
theorem State.sluice_good (s : State) (env : SluiceEnv) (hs : State.Good FZ (fun p _ => PQ p s.nextBoundary) s) :
    State.Good FZ PQ (s.sluice env) := by
  rw [← State.flushed_nextBoundary s] at hs
  have h := State.latch_good _ env (good_each hs (fun _ _ h => State.bar2Flush_good _ _ h))
  unfold State.sluice
  simp (maxDischargeDepth := 60) [h]

theorem execSluice_good (env : SluiceEnv) (s : State) {s' : State} (h : execSluice env s = .next s')
    (hr : s.power.running = true) (hs : State.Good FZ (fun p _ => PQ p s.nextBoundary) s) : State.Good FZ PQ s' := by
  unfold execSluice at h
  unfold noted at h
  obtain rfl := Host.Outcome.next.inj h
  simp [hr, State.sluice_good s env hs]

/-- SLUICE of a module that does not run keeps what holds. -/
theorem execSluice_idle_good (env : SluiceEnv) (s : State) {s' : State} (h : execSluice env s = .next s')
    (hr : s.power.running = false) (hs : State.Good FZ PQ s) : State.Good FZ PQ s' := by
  unfold execSluice at h
  unfold noted at h
  obtain rfl := Host.Outcome.next.inj h
  simp [hr, hs]

end Sys2Proof.Machine
end

