-- ==== Sys2Proof/Laws/GoodStrand.lean ====
section
/-! SUPPORT. What Machine/Strand.lean keeps: the fuses, the queue, the tick count and the canonical form of memory (State.Good). -/
set_option linter.unusedSimpArgs false

namespace Sys2Proof.Machine

open Sys2Proof

variable {FZ : FuseSt} {PQ : List Instr → Nat → Prop}

@[simp] theorem State.setDeque_good (s : State) (g : Nat) (d : List Range) (hs : State.Good FZ PQ s) : State.Good FZ PQ (State.setDeque s g d) := by
  unfold State.setDeque
  repeat' split
  all_goals simp [hs]

@[simp] theorem State.steal_good (s : State) (g : Nat) (hs : State.Good FZ PQ s) : State.Good FZ PQ (State.steal s g) := by
  unfold State.steal
  repeat' first | with_reducible assumption | with_reducible apply State.bump_good | with_reducible apply State.setDeque_good | split | dsimp only

@[simp] theorem State.beginFront_good (s : State) (c : CtxId) (hs : State.Good FZ PQ s) : State.Good FZ PQ (State.beginFront s c) := by
  unfold State.beginFront
  repeat' first | with_reducible assumption | with_reducible apply State.cleared_good | with_reducible apply State.setStrand_good | with_reducible apply State.begin_good | with_reducible apply State.setDeque_good | simp only [good_keep, good_time] | split | dsimp only

theorem execStrandTake_good (c : CtxId) (s : State) {s' : State} (h : execStrandTake c s = .next s') (hs : State.Good FZ PQ s) : State.Good FZ PQ s' := by
  unfold execStrandTake at h
  obtain rfl := Host.Outcome.next.inj h
  clear h
  simp (maxDischargeDepth := 60) [hs]

@[simp] theorem State.retire_good (s : State) (c : CtxId) (ref : SliceRef) (hs : State.Good FZ PQ s) : State.Good FZ PQ (State.retire s c ref) := by
  unfold State.retire
  simp [hs]

@[simp] theorem State.endImage_good (s : State) (c : CtxId) (st : Strand) (sl : Slice) (hs : State.Good FZ PQ s) : State.Good FZ PQ (State.endImage s c st sl) := by
  unfold State.endImage
  repeat' first | with_reducible assumption | with_reducible apply State.bump_good | with_reducible apply State.modSlice_good | with_reducible apply State.raise_good | with_reducible apply State.retire_good | with_reducible refine State.imgStrand_some (by with_reducible assumption) ?_ | simp only [good_keep, good_time] | intro _ | split | dsimp only

@[simp] theorem State.endRing_good (s : State) (c : CtxId) (st : Strand) (sl : Slice) (hs : State.Good FZ PQ s) : State.Good FZ PQ (State.endRing s c st sl) := by
  unfold State.endRing
  simp (maxDischargeDepth := 60) [hs]

theorem execEndStrand_good (c : CtxId) (s : State) {s' : State} (h : execEndStrand c s = .next s') (hs : State.Good FZ PQ s) : State.Good FZ PQ s' := by
  unfold execEndStrand at h
  obtain rfl := Host.Outcome.next.inj h
  clear h
  repeat' first | with_reducible assumption | with_reducible apply issueOp_good | with_reducible apply State.bump_good | with_reducible apply State.raisePc_good | with_reducible apply State.retire_good | with_reducible apply State.endImage_good | with_reducible apply State.endRing_good | intro _ | split

theorem execMark_good (c : CtxId) (s : State) {s' : State} (h : execMark c s = .next s') (hs : State.Good FZ PQ s) : State.Good FZ PQ s' := by
  unfold execMark at h
  obtain rfl := Host.Outcome.next.inj h
  clear h
  repeat' first | with_reducible assumption | with_reducible apply issueOp_good | with_reducible apply State.bump_good | with_reducible apply State.modSlice_good | with_reducible apply State.setStrand_good | with_reducible apply State.raisePc_good | with_reducible apply State.retire_good | simp only [good_keep, good_time] | intro _ | split | dsimp only

end Sys2Proof.Machine
end

