-- ==== Sys2Proof/Laws/Issue.lean ====
section
/-! SUPPORT. What the shared issue of an instruction answers when its context issues it (R52, R65, R67): the proofs about
single instructions cite these lemmas and do not unfold the issue. -/
namespace Sys2Proof.Machine

open Sys2Proof

/-- An instruction that its context issues has the effect of its body. -/
theorem issueOp_of_issues {s : State} {c : CtxId} {op : Nat} {st : Strand} {sl : Slice} {w : W64} (h : s.Issues c op st sl w)
    (f : Strand → Slice → W64 → State → State) : issueOp c op f s = f st sl w { s with free := s.free + 1 } := by
  simp only [issueOp, h.1, h.2, if_true]

/-- An instruction whose whole effect is on its strand. -/
theorem pureOp_of_issues {s : State} {c : CtxId} {op : Nat} {st : Strand} {sl : Slice} {w : W64} (h : s.Issues c op st sl w)
    (f : Strand → Slice → W64 → Strand) : pureOp c op f s = s.after c (f st sl w).next := by
  simp only [pureOp, issueOp, h.1, h.2, if_true, State.after]

/-- A Format V instruction. -/
theorem vectorOp_of_issues {s : State} {c : CtxId} {op : Nat} {st : Strand} {sl : Slice} {w : W64} (h : s.Issues c op st sl w)
    (f : Strand → W64 → Vector W32 64) : vectorOp c op f s = s.after c (st.setV (fSD w) (f st w)).next := by
  rw [vectorOp, pureOp_of_issues h]

/-- A context that issues nothing leaves the state as it is. -/
theorem issueOp_of_nothing {s : State} {c : CtxId} {op : Nat} (h : s.issue c = .nothing)
    (f : Strand → Slice → W64 → State → State) : issueOp c op f s = s := by
  simp only [issueOp, h]

/-- A range that fits raises nothing. -/
theorem rangeError_of_fits {sl : Slice} {a n al : Nat} (h : sl.Fits a n al) : rangeError sl.storeBytes a n al = none := by
  simp [rangeError, h.1, h.2]

/-- An instruction whose window range fits runs. -/
theorem withRange_of_fits {sl : Slice} {a n al : Nat} (h : sl.Fits a n al) (c : CtxId) (st : Strand) (body : State → State)
    (s : State) : withRange c st sl a n al body s = body s := by
  simp only [withRange, rangeError_of_fits h]

/-- What a replaced strand leaves alone. -/
theorem sameBut_setStrand {s u : State} {c : CtxId} (st : Strand) (hc : u.cores = s.cores) (h1 : u.mem = s.mem)
    (h2 : u.tens = s.tens) (h3 : u.ports = s.ports) (h4 : u.tick = s.tick) (h5 : u.coll = s.coll) (h6 : u.net = s.net)
    (h7 : u.codec = s.codec) (h8 : u.ingest = s.ingest) (h9 : u.out = s.out) : s.SameBut (u.setStrand c st) c st := by
  refine ⟨State.strand_setStrand _ _ _, fun d hd => ?_, h1, h2, h3, h4, h5, h6, h7, h8, h9⟩
  rw [State.strand_setStrand_ne _ _ hd, State.strand, State.strand, hc]

end Sys2Proof.Machine
end

