-- ==== Sys2Proof/WellFormed.lean ====
section
/-! DEFINITION. Which terms of Instr are commands that can arrive: the sizes that the spec gives frames, flits,
registers, entries and lists. -/
namespace Sys2Proof

/-- A list of n 64-bit words. -/
def entryWf (n : Nat) (ws : List W64) : Bool := ws.length == n

/-- A flit has 256 bytes (R324). -/
def flitWf (f : List Byte) : Bool := f.length == 256

/-- A frame of the Jeril Dictionary Protocol has at most 16,384 bytes (R301). -/
def frameWf (f : List Byte) : Bool := f.length ≤ 16384

/-- A datagram fits a UDP datagram. -/
def datagramWf (d : List Byte) : Bool := d.length ≤ 65507

/-- A register access of BAR0: 4 or 8 bytes, aligned, within 64 KiB (R279). -/
def regWf (offset width : Nat) : Bool := (width == 4 || width == 8) && offset % width == 0 && offset + width ≤ 65536

/-- An address fits its family's width. -/
def addrWf : IpAddr → Bool
  | .v4 a => a < 2 ^ 32
  | .v6 a => a < 2 ^ 128

/-- Both ends are of one family, and the UDP port has 16 bits. -/
def endpointWf (e : UdpAddrs) : Bool :=
  addrWf e.dest && addrWf e.addr && e.udp < 65536 &&
    match e.dest, e.addr with
    | .v4 _, .v4 _ => true
    | .v6 _, .v6 _ => true
    | _, _ => false

/-- A transport's own limits. -/
def transportWf : Transport → Bool
  | .ethernet e => endpointWf e.toUdpAddrs
  | .mailbox _ => true

/-- The environment of a sluice: 29 sensors (R403), a sluice of at most 4 µs (R26), nanoseconds below a
second. -/
def sluiceWf (e : SluiceEnv) : Bool := e.sensors.length == 29 && e.lengthNs ≤ 4000 && e.ptpNs < 1000000000

/-- A message header's fields fit their widths (R358). -/
def msgWf (m : CollMsg) : Bool :=
  m.epoch < 256 && m.seq < 65536 && m.step < 2 ^ 32 && m.attempt < 256 && m.origin < 65536 && m.piece < 2 ^ 32

/-- A command that can arrive. -/
def Instr.wf : Instr → Bool
  | .sluice e => sluiceWf e
  | .cmdTail _ _ tail _ entries => tail < 2 ^ 32 && entries.all (entryWf 16)
  | .cplHead _ _ head => head < 2 ^ 32
  | .ingestBatch _ _ l => l.all (entryWf 4)
  | .storageAck _ d => datagramWf d
  | .ready _ m => msgWf m
  | .start _ m => msgWf m
  | .piece _ m => msgWf m
  | .counts _ m => msgWf m
  | .verdict _ m => msgWf m
  | .decide _ m => msgWf m
  | .data _ f => flitWf f
  | .control _ f => flitWf f
  | .retry _ f => flitWf f
  | .idle _ f => flitWf f
  | .registerWrite _ o w _ => regWf o w
  | .bar0Read _ o w => regWf o w
  | .bar2Read _ _ n _ => 1 ≤ n && n ≤ 4096
  | .bar2Write _ _ bs _ => 1 ≤ bs.length && bs.length ≤ 4096
  | .request src f _ => transportWf src && frameWf f
  | .jdpOpen src f _ => transportWf src && frameWf f
  | .close src f _ => transportWf src && frameWf f
  | .poll src f _ => transportWf src && frameWf f
  | .installOpen _ a d => endpointWf a && datagramWf d
  | .installData _ a d => endpointWf a && datagramWf d
  | .installStatus _ a d => endpointWf a && datagramWf d
  | .abort _ a d => endpointWf a && datagramWf d
  | .remove _ a d => endpointWf a && datagramWf d
  | .attest _ a d => endpointWf a && datagramWf d
  | .fwOpen _ a d => endpointWf a && datagramWf d
  | .ingestDatagram _ d => datagramWf d
  | .storeDone _ => true
  | _ => true

end Sys2Proof
end

