-- ==== Sys2Proof/Tests/Slice0.lean ====
section
/-! SUPPORT. The model's own tests: ill-formed commands that WellFormed refuses, small checks of results that the
specification's tables and examples give, and for each statement states and operands that meet its hypotheses. -/
namespace Sys2Proof.Tests

set_option Elab.async false

open Sys2Proof Sys2Proof.Machine

/-! ### States for the tests -/

/-- The context that the tests use. -/
def c0 : CtxId := ⟨0, 0⟩

/-- An instruction word: an opcode and the bits below it. -/
def word (op rest : Nat) : W64 := BitVec.ofNat 64 (op * 2 ^ 56 + rest)

/-- A slice with a window, whose program's first two words are w. -/
def slice0 (w : W64) : Slice :=
  { opSlice [] with
    rom := false, prog := [w, w], instrBytes := 16, storeBytes := 65536, accCols := 1024, state := .admitted
    strandCount := 2, remaining := 2, lens := [7, 0, 0, 0, 0, 0, 0, 0] }

/-- The place of the slice. -/
def ref0 : SliceRef := opRef 0 0

/-- The first strand of a slice. -/
def strandOf (sl : Slice) : Strand := Strand.init ref0 sl (Vector.replicate 4 0) 0

/-- The machine after reset with a head command of queue 0 of T0. -/
def withRun (r : CmdRun) : State :=
  State.reset.modQueue 0 0 (fun x => { x with state := .active, config := 4, run := some r })

/-- A command entry of an opcode, no layer and operand words c8 and on. -/
def entry (op : Nat) (l : List W64) : List W64 :=
  BitVec.ofNat 64 (op * 2 ^ 56 + 0xFF * 2 ^ 48) :: 0 :: 0 :: 0 :: 0 :: 0 :: 0 :: 0 :: l ++ List.replicate (8 - l.length) 0

/-- The machine with a running command of one slice and a strand in context 0. -/
def running (sl : Slice) (st : Strand) : State :=
  (withRun { CmdRun.new 1 (entry 1 []) with begun := true, slices := [sl] }).setStrand c0 st

/-- The machine that is about to issue the word w in a strand. -/
def issuing (w : W64) (f : Strand → Strand) : State := running (slice0 w) (f (strandOf (slice0 w)))

/-- A tensor descriptor of two dimensions. -/
def desc (fmt base s0 s1 stride : Nat) : BitVec 512 :=
  BitVec.ofNat 512 (fmt * 2 ^ 60 + 2 ^ 58 + base + (s0 + s1 * 2 ^ 32) * 2 ^ 128 + (1 + 2 ^ 32) * 2 ^ 192 + stride * 2 ^ 256 +
    0x3F800000 * 2 ^ 480)

/-- The strand of context 0 in a next state. -/
def left (x : Host.Outcome State Fault Refusal) : Option Strand :=
  match x with
  | .next t => t.strand c0
  | _ => none

/-- The last fault that a command has recorded, as its code and address. -/
def faulted (x : Host.Outcome State Fault Refusal) : Option (Nat × W64) :=
  match x with
  | .next t => (t.run 0 0).bind (fun r => (r.faults.getLast?).map (fun f => (f.code, f.address)))
  | _ => none

/-! ### Ill-formed commands -/

theorem test_refused_sluice : (Instr.sluice ⟨4000, 0, [], 0, 0⟩).wf = false := by decide
theorem test_refused_sluice_length : (Instr.sluice ⟨4001, 0, List.replicate 29 0, 0, 0⟩).wf = false := by decide
theorem test_refused_entry : (Instr.cmdTail 0 0 1 0 [[0]]).wf = false := by decide
theorem test_refused_tail : (Instr.cmdTail 0 0 (2 ^ 32) 0 []).wf = false := by decide
theorem test_refused_head : (Instr.cplHead 0 0 (2 ^ 32)).wf = false := by decide
theorem test_refused_list : (Instr.ingestBatch 0 0 [[1, 2]]).wf = false := by decide
theorem test_refused_flit : (Instr.data 0 [1]).wf = false := by decide
theorem test_refused_register : (Instr.registerWrite 0 4 8 0).wf = false := by decide
theorem test_refused_read : (Instr.bar0Read 0 65536 4).wf = false := by decide
theorem test_refused_bar2 : (Instr.bar2Read 0 0 0 0).wf = false := by decide
theorem test_refused_bar2_write : (Instr.bar2Write 0 0 [] 0).wf = false := by decide
theorem test_refused_message : (Instr.ready 0 ⟨256, 0, 0, 0, 0, 0, []⟩).wf = false := by decide
theorem test_refused_frame (f : List Byte) (h : f.length = 16385) : (Instr.request (.mailbox 0) f 0).wf = false := by
  simp [Instr.wf, frameWf, h]
theorem test_refused_address : (Instr.request (.ethernet ⟨⟨.v4 0, .v4 (2 ^ 32), 0⟩, 0⟩) [] 0).wf = false ∧
    (Instr.request (.ethernet ⟨⟨.v6 0, .v6 0, 65536⟩, 0⟩) [] 0).wf = false := by decide
theorem test_refused_datagram (d : List Byte) (h : d.length = 65508) : (Instr.attest 0 ⟨.v4 0, .v4 0, 0⟩ d).wf = false := by
  simp [Instr.wf, datagramWf, h]
theorem test_accepted : (Instr.registerWrite 0 0x10 8 0).wf = true ∧ (Instr.add c0).wf = true := by decide

/-! ### The machine -/

theorem test_meets_step : ∃ c rest s s', (s : State).pending = c :: rest ∧ step s = .next s' :=
  ⟨.ppsEdgeMissing, [.inputApply], { State.reset with pending := [.ppsEdgeMissing, .inputApply] }, _, rfl, rfl⟩
theorem test_meets_idle : State.reset.pending = [] := rfl
theorem test_meets_memory : ∃ s s' : State, s.MemWf ∧ step s = .next s' :=
  ⟨{ State.reset with pending := [.inputApply] }, _, rfl, rfl⟩
theorem test_meets_tick : ∃ s s' : State, exec .tickJump s = .next s' ∧ s.tick.count < s'.tick.count :=
  ⟨{ State.reset with net := { State.reset.net with jumpAt := 1, jumpTo := 9 } }, _, rfl, by decide +kernel⟩

/-! ### Instructions -/

/-- The machine of the tests issues the word of its slice, whatever the word and whatever its registers hold. -/
theorem issuing_issues (w : W64) (f : Strand → Strand) (st : Strand) (op : Nat) (h : f (strandOf (slice0 w)) = st)
    (h1 : st.ref = ref0) (h2 : (st.rom || st.stopped || st.waiting != 0) = false) (h3 : st.pc = 64) (h4 : fOp w = op) :
    (issuing w f).Issues c0 op st (slice0 w) w := by
  have a : (issuing w f).strand c0 = some st := h ▸ rfl
  have b : (issuing w f).run 0 0 =
    some { CmdRun.new 1 (entry 1 []) with begun := true, slices := [slice0 w] } := by
    simp only [State.run, issuing, running, withRun, State.modQueue, State.setStrand]
    rfl
  refine ⟨?_, h4⟩
  have d : (slice0 w).word 64 = some w := rfl
  unfold State.issue
  rw [a]
  simp only [h1, h2, h3, Bool.false_eq_true, if_false, ref0, opRef, State.slice, b, Option.bind_some]
  rfl

/-- Every opcode of an instruction is issued somewhere. -/
theorem test_meets_opcodes : ∀ op < 256, ∃ s c st sl w, (s : State).Issues c op st sl w := by
  intro op h
  have e : fOp (word op 0) = op := by
    simp only [fOp, word, wbits, Nat.add_zero]
    rw [BitVec.extractLsb'_toNat, BitVec.toNat_ofNat]
    omega
  exact ⟨_, _, _, _, _, issuing_issues (word op 0) id _ op rfl rfl rfl rfl e⟩

/-- BR: a taken branch on s[0] = s[1], one not taken on s[0] ≠ s[1]; LOOP with s[0] 2 and with s[0] 1. -/
theorem test_meets_control :
    (∃ s st sl w, (s : State).Issues c0 0x02 st sl w ∧ fCond w = 1 ∧ st.s[fBSA w] = st.s[fBSB w]) ∧
    (∃ s st sl w, (s : State).Issues c0 0x02 st sl w ∧ fCond w = 2 ∧ ¬ st.s[fBSA w] ≠ st.s[fBSB w]) ∧
    (∃ s st sl w, (s : State).Issues c0 0x03 st sl w ∧ st.s[fBSA w] ≠ 1) ∧
    (∃ s st sl w, (s : State).Issues c0 0x03 st sl w ∧ st.s[fBSA w] = 1) :=
  ⟨⟨_, _, _, word 0x02 (2 ^ 52), issuing_issues _ id _ _ rfl rfl rfl rfl (by decide), by decide +kernel⟩,
   ⟨_, _, _, word 0x02 (2 ^ 53), issuing_issues _ id _ _ rfl rfl rfl rfl (by decide), by decide +kernel⟩,
   ⟨_, _, _, word 0x03 0, issuing_issues _ id _ _ rfl rfl rfl rfl (by decide), by decide +kernel⟩,
   ⟨_, _, _, word 0x03 0, issuing_issues _ (fun st => st.setS 0 1) _ _ rfl rfl rfl rfl (by decide), by decide +kernel⟩⟩

/-- add: s[1] = s[0] + s[0] + 5 with sign-extended IMM. -/
theorem test_add : (left (exec (.add c0) (issuing (word 0x12 (2 ^ 51 + 5)) id))).map (fun st => (st.s[1], st.pc)) = some (5, 72) := by
  decide +kernel

/-- Descriptors: the lowest and the highest window range, a descriptor that passes, one moved by 64 bytes, one resized; a key
at the last 16 bytes. -/
theorem test_meets_descriptor :
    (∃ s st sl w, (s : State).Issues c0 0x20 st sl w ∧ sl.Fits ((st.s[fTSA w]).toNat + fTImm w) 64 64 ∧
      descValid (BitVec.ofNat 512 (ofLe (winRead (s.free + 1) st.win ((st.s[fTSA w]).toNat + fTImm w) 64))) = true) ∧
    (∃ s st sl w, (s : State).Issues c0 0x21 st sl w ∧ sl.Fits ((st.s[fTSA w]).toNat + fTImm w) 64 64 ∧
      (st.s[fTSA w]).toNat + fTImm w + 64 = sl.storeBytes) ∧
    (∃ s st sl w, (s : State).Issues c0 0x22 st sl w ∧
      (BitVec.ofNat 64 (dBase st.t[fTB w]) + st.s[fTSA w]).toNat < 2 ^ 52 ∧
      descValid (setBase st.t[fTB w] (BitVec.ofNat 64 (dBase st.t[fTB w]) + st.s[fTSA w]).toNat) = true) ∧
    (∃ s st sl w, (s : State).Issues c0 0x23 st sl w ∧
      descValid (setSize st.t[fTA w] (fTImm w % 4) ((st.s[fTSA w]).toNat % 2 ^ 32)) = true) ∧
    (∃ s st sl w, (s : State).Issues c0 0x2B st sl w ∧ sl.Fits ((st.s[fTSA w]).toNat + fTImm w) 16 16) ∧
    (∃ s st sl w, (s : State).Issues c0 0x2C st sl w ∧ sl.Fits ((st.s[fTSA w]).toNat + fTImm w) 16 16 ∧
      (st.s[fTSA w]).toNat + fTImm w + 16 = sl.storeBytes) :=
  ⟨⟨_, _, _, word 0x20 0, issuing_issues _ (fun st => st.store 0 (leBytes 64 (desc 0 0 4 1 16).toNat)) _ _ rfl rfl rfl rfl (by decide),
      by unfold Slice.Fits; decide +kernel, by decide +kernel⟩,
   ⟨_, _, _, word 0x21 0, issuing_issues _ (fun st => st.setS 0 65472) _ _ rfl rfl rfl rfl (by decide),
      by unfold Slice.Fits; decide +kernel, by decide +kernel⟩,
   ⟨_, _, _, word 0x22 0, issuing_issues _ (fun st => (st.setT 0 (desc 0 0 4 1 16)).setS 0 64) _ _ rfl rfl rfl rfl (by decide),
      by decide +kernel, by decide +kernel⟩,
   ⟨_, _, _, word 0x23 0, issuing_issues _ (fun st => (st.setT 0 (desc 0 0 4 1 16)).setS 0 8) _ _ rfl rfl rfl rfl (by decide),
      by decide +kernel⟩,
   ⟨_, _, _, word 0x2B 0, issuing_issues _ id _ _ rfl rfl rfl rfl (by decide), by unfold Slice.Fits; decide +kernel⟩,
   ⟨_, _, _, word 0x2C 0, issuing_issues _ (fun st => st.setS 0 65520) _ _ rfl rfl rfl rfl (by decide),
      by unfold Slice.Fits; decide +kernel, by decide +kernel⟩⟩

/-- A range that begins one byte off, and one that begins 64 bytes before the end of the window but for one alignment. -/
theorem test_meets_window_faults :
    (∃ s st sl w, (s : State).Issues c0 0x20 st sl w ∧ ¬ sl.Fits ((st.s[fTSA w]).toNat + fTImm w) 64 64 ∧
      ((st.s[fTSA w]).toNat + fTImm w) % 64 ≠ 0) ∧
    (∃ s st sl w, (s : State).Issues c0 0x2C st sl w ∧ ¬ sl.Fits ((st.s[fTSA w]).toNat + fTImm w) 16 16 ∧
      ((st.s[fTSA w]).toNat + fTImm w) % 16 = 0) :=
  ⟨⟨_, _, _, word 0x20 1, issuing_issues _ id _ _ rfl rfl rfl rfl (by decide),
      by unfold Slice.Fits; decide +kernel, by decide +kernel⟩,
   ⟨_, _, _, word 0x2C 0, issuing_issues _ (fun st => st.setS 0 65536) _ _ rfl rfl rfl rfl (by decide),
      by unfold Slice.Fits; decide +kernel, by decide +kernel⟩⟩

/-- TDST stores at the last place of the window; one place further faults with ERR_STORE_OVERFLOW at its locator. -/
theorem test_tdst_edge : faulted (exec (.tdst c0) (issuing (word 0x21 0) (fun st => st.setS 0 65472))) = none ∧
    faulted (exec (.tdst c0) (issuing (word 0x21 0) (fun st => st.setS 0 65536))) =
      some (Config.errStoreOverflow, locPc 0 64) := by decide +kernel

/-- A context without a strand. -/
theorem test_meets_idle_context : ∀ st, State.reset.strand c0 = some st → st.waiting ≠ 0 ∨ st.stopped = true := by
  intro st h; simp [State.strand, State.reset, CoreSt.reset, kget] at h

/-- VLD and VST of FP32 at the edges of the window, VST also at an odd address; VCVT needs nothing. -/
theorem test_meets_conversion :
    (∃ s st sl w, (s : State).Issues c0 0x40 st sl w ∧ fFN w = 0 ∧
      sl.Fits ((st.s[fTSA w]).toNat + fOff w) (64 * (fmtBits (fFN w) / 8)) (fmtBits (fFN w) / 8)) ∧
    (∃ s st sl w, (s : State).Issues c0 0x41 st sl w ∧ fFN w = 0 ∧
      sl.Fits ((st.s[fTSA w]).toNat + fOff w) (64 * (fmtBits (fFN w) / 8)) 1 ∧
      (st.s[fTSA w]).toNat + fOff w + 256 = sl.storeBytes) ∧
    (∃ s st sl w, (s : State).Issues c0 0x41 st sl w ∧ fFN w = 0 ∧
      sl.Fits ((st.s[fTSA w]).toNat + fOff w) (64 * (fmtBits (fFN w) / 8)) 1 ∧ (st.s[fTSA w]).toNat + fOff w = 65277) :=
  ⟨⟨_, _, _, word 0x40 0, issuing_issues _ id _ _ rfl rfl rfl rfl (by decide), by decide +kernel,
      by unfold Slice.Fits; decide +kernel⟩,
   ⟨_, _, _, word 0x41 0, issuing_issues _ (fun st => st.setS 0 65280) _ _ rfl rfl rfl rfl (by decide), by decide +kernel,
      by unfold Slice.Fits; decide +kernel, by decide +kernel⟩,
   ⟨_, _, _, word 0x41 0, issuing_issues _ (fun st => st.setS 0 65277) _ _ rfl rfl rfl rfl (by decide), by decide +kernel,
      by unfold Slice.Fits; decide +kernel, by decide +kernel⟩⟩

/-- VADD of 1.0 and 2.0 in every lane; VRED adds 64 ones. -/
theorem test_vadd : (left (exec (.vadd c0) (issuing (word 0x48 (2 ^ 41)) (fun st =>
    (st.setV 0 (Vector.replicate 64 0x3F800000)).setV 1 (Vector.replicate 64 0x40000000))))).map (fun st => (st.v[0])[63]) =
    some 0x40400000 := by decide +kernel
theorem test_vred : (left (exec (.vred c0) (issuing (word 0x52 0) (fun st =>
    st.setV 0 (Vector.replicate 64 0x3F800000))))).map (fun st => ((st.v[0])[0], (st.v[0])[1])) = some (0x42800000, 0) := by
  decide +kernel

/-- log2 of 8.0 is 3.0; exp2 of −infinity is +0.0, of 2^7 +infinity (R117, R119). -/
theorem test_log2 : log2F 0x41000000 = 0x40400000 := by decide +kernel
theorem test_exp2 : exp2F 0xFF800000 = 0 ∧ exp2F 0x43000000 = 0x7F800000 := by decide +kernel


/-! The matrix engine. -/

theorem nth_const {α : Type} (l : List α) (x d : α) (n i : Nat) (h : l = List.replicate n x) (hi : i < n) : nth l i d = x := by
  subst h; simp [nth, hi]

/-- A window that begins with 8,192 zero bytes. -/
def zeroWin (st : Strand) : Strand := { st with win := (List.range' 0 8192).map (fun a => (a, 0)) }

theorem winFill_zero (free n : Nat) : ∀ a, winFill free ((List.range' a n).map (fun a => (a, (0 : Byte)))) a n = List.replicate n 0 := by
  induction n with
  | zero => intro a; rfl
  | succ n ih =>
    intro a
    have := ih (a + 1)
    simp only [List.range'_succ, List.map_cons, winFill, if_true, List.replicate_succ] at this ⊢
    rw [this]

theorem winRead_zero (free : Nat) (st : Strand) : winRead free (zeroWin st).win 0 8192 = List.replicate 8192 0 := by
  have : ((List.range' 0 8192).map (fun a => (a, (0 : Byte)))).dropWhile (fun x => decide (x.1 < 0)) =
      (List.range' 0 8192).map (fun a => (a, 0)) := by
    rw [show (8192 : Nat) = 8191 + 1 from rfl, List.range'_succ]; simp
  unfold winRead zeroWin
  rw [this]
  exact winFill_zero free 8192 0

theorem ofLe_zero (n : Nat) : ofLe (List.replicate n 0) = 0 := by
  induction n with
  | zero => rfl
  | succ n ih => rw [List.replicate_succ]; unfold ofLe; rw [ih]; rfl

theorem unpack_zero (bytes : List Byte) (h : ofLe bytes = 0) (b n : Nat) : unpackN b bytes n = List.replicate n 0 := by
  simp only [unpackN, h, bits, Nat.zero_div, Nat.zero_mod, List.map_const', List.length_range]

theorem code_zero (bytes : List Byte) (h : ofLe bytes = 0) (b n i : Nat) : nth (unpackN b bytes n) i 0 = 0 := by
  rw [unpack_zero bytes h]
  simp only [nth, List.getD_eq_getElem?_getD, List.getElem?_replicate]
  split <;> rfl

/-- An MMA of two BF16 tiles of 64 × 64, from zero. -/
def mmaWord : W64 := word 0x30 (2 ^ 40 + 2 ^ 36 + 2 ^ 35)

/-- A tag whose load was empty; two tiles of BF16 zeros, all sums of which stay finite. -/
theorem test_meets_mma :
    (∃ s st sl w, (s : State).Issues c0 0x30 st sl w ∧
      ((fTC w).val ≠ 0 && st.tagEmpty.getLsbD (fTC w).val) = true) ∧
    (∃ s st sl w, (s : State).Issues c0 0x30 st sl w ∧ fFA w = 1 ∧ wbits w 36 4 = 1 ∧ st.links = [] ∧
      ((fTC w).val = 0 ∨ st.tagEmpty.getLsbD (fTC w).val = false) ∧
      sl.Fits (st.s[fTSA w]).toNat (matBytes 1 64 (fK w)) 64 ∧ sl.Fits (st.s[fTSB w]).toNat (matBytes 1 (fN w) (fK w)) 64 ∧
      let n := fN w
      let k := fK w
      let offA := (st.s[fTSA w]).toNat
      let offB := (st.s[fTSB w]).toNat
      let elem := fun (off rows i j : Nat) =>
        decodeElem 1 (nth (unpackN 16 (winRead (s.free + 1) st.win off (2 * rows * k)) (rows * k)) (i * k + j) 0)
      let product := fun (i j m : Nat) => (elem offA 64 i m).mul (elem offB n j m)
      let start := fun (i j : Nat) =>
        if fFlag w 35 then 0 else nth (rowRead (nth (st.bank true).toList i []) (fCB w) n) j 0
      let acc := fun (i j m : Nat) =>
        (List.range m).foldl (fun x m => round32 ((f32v x).add (product i j m))) (start i j)
      ∀ i < 64, ∀ j < n, ∀ m < k, (f32v (acc i j m)).isFin = true → (product i j m).isFin = true →
        (f32v (acc i j (m + 1))).isFin = true) := by
  refine ⟨⟨_, _, _, word 0x30 (2 ^ 44), issuing_issues _ (fun st => { st with tagEmpty := 2 }) _ _ rfl rfl rfl rfl (by decide),
      by decide +kernel⟩, ⟨_, _, _, mmaWord, issuing_issues _ zeroWin _ _ rfl rfl rfl rfl (by decide),
      by decide, by decide, rfl, Or.inl (by decide), by unfold Slice.Fits; decide +kernel, by unfold Slice.Fits; decide +kernel, ?_⟩⟩
  intro n k offA offB elem product start acc i hi j hj m hm _ _
  have hp : ∀ a b c, product a b c = (decodeElem 1 0).mul (decodeElem 1 0) := by
    intro a b c
    have hA : offA = 0 := by decide +kernel
    have hB : offB = 0 := by decide +kernel
    have hk : k = 64 := by decide
    have hn : n = 64 := by decide
    have he : ∀ a c, elem 0 64 a c = decodeElem 1 0 := by
      intro a c
      show decodeElem 1 (nth (unpackN 16 (winRead _ _ 0 (2 * 64 * k)) (64 * k)) (a * k + c) 0) = _
      rw [code_zero]
      rw [hk]
      exact (congrArg ofLe (winRead_zero _ _)).trans (ofLe_zero _)
    show (elem offA 64 a c).mul (elem offB n b c) = _
    rw [hA, hB, hn, he, he]
  have hs : start i j = 0 := by
    have : fFlag mmaWord 35 = true := by decide
    simp only [start, this, if_true]
  have ha : ∀ l : List Nat, l.foldl (fun x m => round32 ((f32v x).add (product i j m))) (0 : W32) = 0 := by
    intro l
    induction l with
    | nil => rfl
    | cons a l ih =>
      have : round32 ((f32v 0).add ((decodeElem 1 0).mul (decodeElem 1 0))) = (0 : W32) := by decide +kernel
      rw [List.foldl_cons, hp, this]
      exact ih
  show (f32v ((List.range (m + 1)).foldl _ (start i j))).isFin = true
  rw [hs, ha]
  decide +kernel


theorem mma_offsets : ((strandOf (slice0 mmaWord)).s[fTSA mmaWord]).toNat = 0 ∧ ((strandOf (slice0 mmaWord)).s[fTSB mmaWord]).toNat = 0 := by
  decide +kernel

/-- The same tiles meet the hypotheses of every MMA: no sum of a block leaves the range. -/
theorem test_meets_mma_cells : ∃ s st sl w, (s : State).Issues c0 0x30 st sl w ∧
    let n := fN w
    let k := fK w
    let a0 := readOperand (s.free + 1) st (fFA w) 64 k (st.s[fTSA w]).toNat
    let b0 := readOperand (s.free + 1) st (wbits w 36 4) n k (st.s[fTSB w]).toNat
    let a := (promote a0 (max a0.width b0.width)).1
    let b := (promote b0 (max a0.width b0.width)).1
    let cell := fun (i j : Nat) => accElem (decide (a.fmt = 1)) (a.e5m2 || b.e5m2)
      (if fFlag w 35 then 0 else nth (rowRead (nth (st.bank true).toList i []) (fCB w) n) j 0)
      (nth (operandRows a) i []) (nth (operandRows b) j [])
    ∀ i < 64, ∀ j < n, (cell i j).ovf = false := by
  refine ⟨_, _, _, mmaWord, issuing_issues _ zeroWin _ _ rfl rfl rfl rfl (by decide), ?_⟩
  intro n k a0 b0 a b cell i hi j hj
  have hn : n = 64 := by decide
  have op : ∀ free, readOperand free (zeroWin (strandOf (slice0 mmaWord))) 1 64 64 0 =
      { width := 0, fmt := 1, codes := chunks 64 64 (List.replicate 4096 0), scales := chunks 2 64 (List.replicate 128 127), fmts := List.replicate 64 (List.replicate 2 1), outl := [] } := by
    intro free
    unfold readOperand
    have : linkAt (zeroWin (strandOf (slice0 mmaWord))).links 0 (matBytes 1 64 64) = none := rfl
    simp only [this]
    have h2 := unpack_zero (winRead free (zeroWin (strandOf (slice0 mmaWord))).win 0 (tileBytes 1 64 64))
      ((congrArg ofLe (winRead_zero _ _)).trans (ofLe_zero _)) (fmtBits 1) (64 * 64)
    rw [h2]
    rfl
  have ha : a0 = { width := 0, fmt := 1, codes := chunks 64 64 (List.replicate 4096 0), scales := chunks 2 64 (List.replicate 128 127), fmts := List.replicate 64 (List.replicate 2 1), outl := [] } := by
    refine Eq.trans ?_ (op ((issuing mmaWord zeroWin).free + 1))
    exact congrArg (fun x => readOperand ((issuing mmaWord zeroWin).free + 1) (zeroWin (strandOf (slice0 mmaWord))) 1 64 64 x) mma_offsets.1
  have hb : b0 = { width := 0, fmt := 1, codes := chunks 64 64 (List.replicate 4096 0), scales := chunks 2 64 (List.replicate 128 127), fmts := List.replicate 64 (List.replicate 2 1), outl := [] } := by
    refine Eq.trans ?_ (op ((issuing mmaWord zeroWin).free + 1))
    exact congrArg (fun x => readOperand ((issuing mmaWord zeroWin).free + 1) (zeroWin (strandOf (slice0 mmaWord))) 1 64 64 x) mma_offsets.2
  have pr : ∀ o : MOperand, o.width = 0 → (promote o (max 0 0)).1 = o := by intro o h; simp [promote, h]
  have ea : a = a0 := by simp only [a, ha, hb]; exact pr _ rfl
  have eb : b = b0 := by simp only [b, ha, hb]; exact pr _ rfl
  have rows : operandRows { width := 0, fmt := 1, codes := chunks 64 64 (List.replicate 4096 0), scales := chunks 2 64 (List.replicate 128 127), fmts := List.replicate 64 (List.replicate 2 1), outl := [] } =
      List.replicate 64 (List.replicate 2 ⟨List.replicate 32 (decodeElem 1 0), 127, []⟩) := by decide +kernel
  have hf : fFlag mmaWord 35 = true := by decide
  show (accElem _ _ _ _ _).ovf = false
  simp only [hf, if_true, ea, eb, ha, hb, rows]
  rw [nth_const _ _ [] 64 i rfl hi, nth_const _ _ [] 64 j rfl (hn ▸ hj)]
  decide +kernel


/-! Draining, the soft maximum, marks and the end. -/

/-- DRAIN of a BF16 tile at the start of the window, outside a fallback command and, of FP8, within one. -/
theorem test_meets_drain :
    (∃ s st sl w, (s : State).Issues c0 0x33 st sl w ∧ sl.Fits (st.s[fTSA w]).toNat (matBytes (fFA w) 64 (fN w)) 1 ∧
      ∀ r, s.run st.ref.t st.ref.q = some r → r.fallback = none) ∧
    ∃ s st sl w, (s : State).Issues c0 0x33 st sl w ∧ sl.Fits (st.s[fTSA w]).toNat (matBytes (fFA w) 64 (fN w)) 1 ∧
      fFA w ∈ [2, 3, 4, 5, 8, 10] ∧ ∃ r p, s.run st.ref.t st.ref.q = some r ∧ r.fallback = some p :=
  ⟨⟨_, _, _, word 0x33 (2 ^ 40), issuing_issues _ id _ _ rfl rfl rfl rfl (by decide), by unfold Slice.Fits; decide +kernel,
    fun r h => by cases h; decide +kernel⟩,
   ⟨(withRun { CmdRun.new 1 (List.replicate 16 0) with begun := true, slices := [slice0 (word 0x33 (2 ^ 41))] }).setStrand c0
      (strandOf (slice0 (word 0x33 (2 ^ 41)))), _, _, word 0x33 (2 ^ 41), ⟨rfl, by decide⟩, by unfold Slice.Fits; decide +kernel,
    by decide, _, _, rfl, rfl⟩⟩

theorem test_meets_smx : ∃ s st sl w, (s : State).Issues c0 0x58 st sl w ∧
    sl.Fits (st.s[fTSA w]).toNat (matBytes (fFN w) 64 (fSmxN w)) 1 :=
  ⟨_, _, _, word 0x58 0, issuing_issues _ id _ _ rfl rfl rfl rfl (by decide), by unfold Slice.Fits; decide +kernel⟩

/-- A slice with one mark at its first instruction. -/
def marked (seg : Option Nat) : Slice := { slice0 (word 0x04 0) with marks := [⟨10, 64, 256⟩], segment := seg }

theorem test_meets_mark :
    (∃ s st sl w, (s : State).Issues c0 0x04 st sl w ∧ sl.segment ≠ some 0 ∧ 0 < sl.marks.length ∧
      ((sl.marks[0]?).map (·.pc)).getD 0 = st.pc ∧ st.marks = 0 ∧ fMBase w + (st.s[fMSA w]).toNat = 0) ∧
    (∃ s st sl w, (s : State).Issues c0 0x04 st sl w ∧ sl.segment = some 0 ∧ 0 < sl.marks.length ∧
      ((sl.marks[0]?).map (·.pc)).getD 0 = st.pc ∧ st.marks = 0 ∧ fMBase w + (st.s[fMSA w]).toNat = 0) ∧
    (∃ s st sl w, (s : State).Issues c0 0x04 st sl w ∧ sl.marks.length = 0) ∧
    (∃ s st sl w, (s : State).Issues c0 0x01 st sl w ∧ st.marks = sl.marks.length) ∧
    (∃ s st sl w, (s : State).Issues c0 0x01 st sl w ∧ st.marks ≠ sl.marks.length) :=
  ⟨⟨running (marked none) (strandOf (marked none)), _, _, word 0x04 0, ⟨rfl, by decide⟩, by decide +kernel⟩,
   ⟨running (marked (some 0)) (strandOf (marked (some 0))), _, _, word 0x04 0, ⟨rfl, by decide⟩, by decide +kernel⟩,
   ⟨_, _, _, word 0x04 0, issuing_issues _ id _ _ rfl rfl rfl rfl (by decide), by decide +kernel⟩,
   ⟨_, _, _, word 0x01 0, issuing_issues _ id _ _ rfl rfl rfl rfl (by decide), by decide +kernel⟩,
   ⟨_, _, _, word 0x01 0, issuing_issues _ (fun st => { st with marks := 1 }) _ _ rfl rfl rfl rfl (by decide), by decide +kernel⟩⟩

/-- END of the first of two strands leaves its context; a MARK of an empty table faults at its locator. -/
theorem test_end : left (exec (.endStrand c0) (issuing (word 0x01 0) id)) = none := by decide +kernel
theorem test_mark_fault : faulted (exec (.mark c0) (issuing (word 0x04 0) id)) =
    some (Config.errMarkMismatch, locPc 0 64) := by decide +kernel


/-! Tiles and cells. -/

/-- A slice of the word w that holds page 1 in frame 7 and one working cell. -/
def slice1 (w : W64) : Slice := { slice0 w with fresh := [⟨1, 7, true, false⟩], working := [Cell.fresh 0 0 (.crys 0)] }

/-- A strand whose t[0] is a descriptor of 32 elements at page 1. -/
def tiled (fmt stride : Nat) (w : W64) (f : Strand → Strand) : Strand :=
  f ((strandOf (slice1 w)).setT 0 (desc fmt 0x200000 32 1 stride))

/-- The machine that is about to issue w in such a strand. -/
def tiling (fmt stride : Nat) (w : W64) (f : Strand → Strand) : State := running (slice1 w) (tiled fmt stride w f)

/-- A window that begins with 128 zero bytes. -/
def zeros (st : Strand) : Strand := { st with win := (List.range 128).map (fun a => (a, 0)) }

/-- Loads: a tile beyond its tensor, one within it, one ready. -/
theorem test_meets_tload :
    (∃ s st sl w, (s : State).Issues c0 0x28 st sl w ∧ let x := tileRef st w
      descValid x.d = true ∧ (fmtScaled (dFmt x.d) = true → x.o.1 % 32 = 0) ∧ sl.Fits x.off x.bytes 64 ∧ x.beyond sl.lens = true) ∧
    (∃ s st sl w, (s : State).Issues c0 0x28 st sl w ∧ let x := tileRef st w
      descValid x.d = true ∧ (fmtScaled (dFmt x.d) = true → x.o.1 % 32 = 0) ∧ sl.Fits x.off x.bytes 64 ∧ x.beyond sl.lens = false ∧
      checkRanges (State.reachSlice { s with free := s.free + 1 } st.ref) (x.ranges sl.lens) = none) ∧
    (∃ s st a, (s : State).strand c0 = some st ∧ st.async[0]? = some a ∧ a.ready = true) :=
  ⟨⟨tiling 0 128 (word 0x28 0) (fun st => st.setS 0 64), _, _, word 0x28 0, ⟨rfl, by decide⟩,
      by unfold Slice.Fits; decide +kernel⟩,
   ⟨tiling 0 128 (word 0x28 0) id, _, _, word 0x28 0, ⟨rfl, by decide⟩, by unfold Slice.Fits; decide +kernel⟩,
   ⟨running (slice0 0) { strandOf (slice0 0) with async := [⟨1, 0, [1], true, none, none⟩] }, _, _, rfl, rfl, rfl⟩⟩

/-- Stores: a tile beyond its tensor, and one of 32 FP32 elements in page 1. -/
theorem test_meets_tstore :
    (∃ s st sl w, (s : State).Issues c0 0x29 st sl w ∧ let x := tileRef st w
      descValid x.d = true ∧ (fmtScaled (dFmt x.d) = true → x.o.1 % 32 = 0) ∧ sl.Fits x.off x.bytes 64 ∧ x.beyond sl.lens = true) ∧
    (∃ s st sl w, (s : State).Issues c0 0x29 st sl w ∧ let x := tileRef st w
      let u := { s with free := s.free + 1 }
      let n := ceilDiv (x.vcols sl.lens * x.b) 8
      descValid x.d = true ∧ fmtScaled (dFmt x.d) = false ∧ sl.Fits x.off x.bytes 64 ∧ x.beyond sl.lens = false ∧
      u.foreignAddr sl (x.ranges sl.lens) = none ∧ x.vrows sl.lens = 1 ∧ sl.outFrame (pageOf (x.rowAddr 0)) = some 7 ∧
      pageOf (x.rowAddr 0) = pageOf (x.rowAddr 0 + n - 1) ∧
      st.links.find? (fun l => l.start == x.off && l.len == x.bytes) = none ∧
      (u.storeShadow st.ref sl x (st.links.find? (fun l => l.start == x.off && l.len == x.bytes))).isOk = true) ∧
    (∀ v f, (slice1 (word 0x29 0)).outFrame v = some f → kget State.reset.mem.shadows f = none) :=
  ⟨⟨tiling 0 128 (word 0x29 0) (fun st => st.setS 0 64), _, _, word 0x29 0, ⟨rfl, by decide⟩,
      by unfold Slice.Fits; decide +kernel⟩,
   ⟨tiling 0 128 (word 0x29 0) zeros, _, _, word 0x29 0, ⟨rfl, by decide⟩, by unfold Slice.Fits; decide +kernel⟩,
   fun _ _ _ => rfl⟩

/-- Contributions: one wholly beyond, one without a conflict, and one to a page that another queue has staged to. -/
theorem test_meets_tacc :
    (∃ s st sl w, (s : State).Issues c0 0x2A st sl w ∧ let x := tileRef st w
      descValid x.d = true ∧ dFmt x.d < 2 ∧ sl.Fits x.off x.bytes 64 ∧ x.beyond sl.lens = true) ∧
    (∃ s st sl w, (s : State).Issues c0 0x2A st sl w ∧ let x := tileRef st w
      descValid x.d = true ∧ dFmt x.d < 2 ∧ sl.Fits x.off x.bytes 64 ∧ x.beyond sl.lens = false ∧
      State.foreignAddr { s with free := s.free + 1 } sl (x.ranges sl.lens) = none ∧
      ∀ v ∈ rangePages (x.ranges sl.lens),
        (s.otherRun st.ref.t st.ref.q (·.stages v) || s.anyRun st.ref.t (·.binds v)) = false) ∧
    (∃ s st sl w, (s : State).Issues c0 0x2A st sl w ∧ let x := tileRef st w
      descValid x.d = true ∧ dFmt x.d < 2 ∧ sl.Fits x.off x.bytes 64 ∧ x.beyond sl.lens = false ∧
      State.foreignAddr { s with free := s.free + 1 } sl (x.ranges sl.lens) = none ∧
      (rangePages (x.ranges sl.lens)).find?
        (fun v => s.otherRun st.ref.t st.ref.q (·.stages v) || s.anyRun st.ref.t (·.binds v)) = some 1) :=
  ⟨⟨tiling 0 128 (word 0x2A 0) (fun st => st.setS 0 64), _, _, word 0x2A 0, ⟨rfl, by decide⟩,
      by unfold Slice.Fits; decide +kernel⟩,
   ⟨tiling 0 128 (word 0x2A 0) zeros, _, _, word 0x2A 0, ⟨rfl, by decide⟩, by unfold Slice.Fits; decide +kernel⟩,
   ⟨(tiling 0 128 (word 0x2A 0) zeros).modQueue 0 1 (fun x => { x with
      run := some { CmdRun.new 1 (entry 1 []) with staged := [⟨0, 1, 0, [], false⟩] } }), _, _, word 0x2A 0, ⟨rfl, by decide⟩,
      by unfold Slice.Fits; decide +kernel⟩⟩

/-- A mapped page whose home is frame 8. -/
def page8 : PageEntry := ⟨false, false, false, false, 0, 0, 0, false, none, false, 8, 0, false⟩

/-- Cells: an XADD of no lane and of lane 0 to cell 0, one to cell 1 of 1, an XBIND of cell 0 to a mapped page. -/
theorem test_meets_cells :
    (∃ s st sl w, (s : State).Issues c0 0x60 st sl w ∧
      ∀ a ∈ (List.finRange 64).filterMap (fun i => xaddLane (fFN w) (st.s[fTSA w]).toNat (wbits w 0 16) i.val
        (st.v[fSA w])[i] (st.v[fSB w])[i]), a.1 < sl.working.length) ∧
    (∃ s st sl w, (s : State).Issues c0 0x60 st sl w ∧
      ∃ a ∈ (List.finRange 64).filterMap (fun i => xaddLane (fFN w) (st.s[fTSA w]).toNat (wbits w 0 16) i.val
        (st.v[fSA w])[i] (st.v[fSB w])[i]), sl.working.length ≤ a.1) ∧
    (∃ s st sl w, (s : State).Issues c0 0x61 st sl w ∧
      let width := cellWidth (fFA w)
      let dests := (List.range (fTImm w)).map (fun m => (st.s[fTSB w]).toNat + m * width)
      (st.s[fTSA w]).toNat + fTImm w ≤ sl.working.length ∧
      (∀ k ∈ (sl.working.drop (st.s[fTSA w]).toNat).take (fTImm w), k.bound = false) ∧ (st.s[fTSB w]).toNat % width = 0 ∧
      s.statsError st.ref.t st.ref.q (fFlag w 39) (fFA w) dests = none ∧ s.bindError st.ref.t st.ref.q dests = none) :=
  ⟨⟨tiling 0 128 (word 0x60 (2 ^ 32)) (fun st => (st.setV 0 (Vector.replicate 64 one32))), _, _, word 0x60 (2 ^ 32),
      ⟨rfl, by decide⟩, by decide +kernel⟩,
   ⟨tiling 0 128 (word 0x60 0) (fun st => (st.setV 0 (Vector.replicate 64 one32))), _, _, word 0x60 0,
      ⟨rfl, by decide⟩, by decide +kernel⟩,
   ⟨(tiling 0 128 (word 0x61 (2 ^ 44 + 2 * 2 ^ 22 + 1)) (fun st => st.setS 2 0x400000)).setPage 0 2
      page8, _, _,
      word 0x61 (2 ^ 44 + 2 * 2 ^ 22 + 1), ⟨rfl, by decide⟩, by decide +kernel⟩⟩

/-- A TSTORE of 32 FP32 ones writes the last byte of its row in frame 7 and no byte beyond it. -/
theorem test_tstore : (match exec (.tstore c0) (tiling 0 128 (word 0x29 0) (fun st =>
    { st with win := (List.range 128).map (fun a => (a, if a % 4 = 3 then 0x3F else if a % 4 = 2 then 0x80 else 0)) })) with
    | .next t => [t.pbyte (7 * 0x200000 + 127), t.pbyte (7 * 0x200000 + 128)]
    | _ => []) = [0x3F, 0] := by decide +kernel


/-! KV sequences: page 2 of T0 lies in frame 8 and holds two sequences of one head and one slot, A at 0x400000 with five tokens
and B at 0x4000C0 with none. -/

/-- 64-bit words as bytes. -/
def bytesOf (l : List Nat) : List Byte := l.flatMap (leBytes 8)

/-- The bytes of frame 8. -/
def kvCells : List Host.Cell :=
  let at_ := fun (off : Nat) (l : List Nat) (m : List Host.Cell) => memWriteN m (8 * 0x200000 + off) (bytesOf l)
  at_ 0 [2 * 2 ^ 60 + 2 * 2 ^ 58 + 0x400040, 0x400080, 5, 2 ^ 48 + 2 ^ 32] (at_ 0x40 [2 ^ 63 + 0x401000]
    (at_ 0x80 [2 ^ 63 + 0x401000] (at_ 0xC0 [2 * 2 ^ 60 + 2 * 2 ^ 58 + 0x400100, 0x400140, 0, 2 ^ 48 + 2 ^ 32]
      (at_ 0x100 [2 ^ 63 + 0x402000] (at_ 0x1000 [(mkPe false 5 0 64 false).toNat] [])))))

/-- A machine with the sequences. -/
def withKv (s : State) : State :=
  let s := s.setPage 0 2 page8
  { s with mem := { s.mem with mem := kvCells, frameUse := [(2, .arena 0), (8, .page 0 2)],
                               kv := [(64, ⟨0, [], false, 0, [], none, none⟩)] } }

/-- A slice with a larger window and KV pages. -/
def kvSlice (w : W64) : Slice := { slice0 w with storeBytes := 131072, kvPages := 4, kvAppend := true }

/-- The machine that is about to issue w with s[2] = the sequence, s[3] = head 0, s[4] = a position. -/
def walking (w : W64) (pos : W64) : State :=
  withKv (running (kvSlice w) (((strandOf (kvSlice w)).setS 2 0x400000).setS 4 pos))

/-- KVWALK of the page of token 4; KVSKIP without skipping. -/
theorem test_meets_kvwalk : ∃ s st sl w, (s : State).Issues c0 0x69 st sl w ∧
    (match State.walk { s with free := s.free + 1 } 0 st.ref.t (st.s[fTSA w]).toNat (st.s[(fTSA w + 1 : Fin 32)]).toNat
        (st.s[(fTSA w + 2 : Fin 32)]).toNat with
      | .ok (q, pe, e0, v) =>
        let e := v.heldEntry st.ref pe e0
        decide ((st.s[fTSB w]).toNat + Config.kvFrameBytes + 4 * q.dim ≤ sl.storeBytes) && peValid e && !peEvicted e &&
          !s.frameFailed (peFrame e / 32)
      | .error _ => false) = true :=
  ⟨walking (word 0x69 (2 * 2 ^ 27)) 4, _, _, word 0x69 (2 * 2 ^ 27), ⟨rfl, by decide⟩, by decide +kernel⟩

theorem test_meets_kvskip : ∃ s st sl w q, (s : State).Issues c0 0x6A st sl w ∧
    (s.seqAt 0 (st.s[fTSA w]).toNat).toOption = some q ∧
    sl.Fits (st.s[fTSB w]).toNat (320 + 64 * (headGroup q (st.s[fTSA w]).toNat 0).1 * q.dim * 4) 64 :=
  ⟨walking (word 0x6A (2 * 2 ^ 27)) 4, _, _, word 0x6A (2 * 2 ^ 27),
    ⟨2, 2, false, 0x400040, 0, false, 0x400080, 0, 5, 1, 1, 0⟩, ⟨rfl, by decide⟩, by decide +kernel, by unfold Slice.Fits; decide +kernel⟩

/-- KVAPP of one token at position 5, the first free one, with two free slots in the arena. -/
theorem test_meets_kvapp : ∃ s st sl w, (s : State).Issues c0 0x68 st sl w ∧ wbits w 0 7 = 1 ∧
    let u : State := { s with free := s.free + 1 }
    (match u.resolve st.ref.t (st.s[fTSA w]).toNat 0 5 with
      | .ok (q, _, _) => decide ((st.s[fTSB w]).toNat + 1 * q.dim * 8 ≤ sl.storeBytes) && q.tpp == 256 &&
          (u.appendFault st.ref sl 0x400000 0 5 sl.kvUsed (u.walkPages 0 st.ref.t 0x400000 0 q.tpp [0]).1).isNone
      | .error _ => false) = true ∧
    ∀ f ∈ [65, 66], u.kvSlotUsed f = false ∧ f % 32 < 30 ∧ ∃ k ∈ u.stacks, f / 32 ∈ u.arenas 0 k :=
  ⟨walking (word 0x68 (2 * 2 ^ 27 + 1)) 5, _, _, word 0x68 (2 * 2 ^ 27 + 1), ⟨rfl, by decide⟩, by decide, by decide +kernel⟩

/-- A KVSKIP without skipping answers 0 in s[TA]. -/
theorem test_kvskip : (left (exec (.kvskip c0) (walking (word 0x6A (2 * 2 ^ 27)) 4))).map (fun st => (st.s[0], st.pc)) =
    some (0, 72) := by decide +kernel

/-- The same with skipping enabled, a record at position p. -/
def skipping (p : Nat) : State :=
  let w := word 0x6A (2 * 2 ^ 27)
  withKv ((withRun { CmdRun.new 1 (entry 1 []) with begun := true, slices := [kvSlice w], skip := [(1, 0)] }).setStrand c0
    { (((strandOf (kvSlice w)).setS 2 0x400000).setS 4 4) with win := (leBytes 4 p).mapIdx (fun i b => (260 + i, b)) })

theorem test_meets_kvskip_enabled : ∀ p ∈ [0, 256], ∃ st sl w, (skipping p).Issues c0 0x6A st sl w ∧
    (((skipping p).run 0 0).map (fun r => nth r.skip 0 (0, 0))).getD (0, 0) = (1, 0) ∧
    leAt (winRead 1 st.win 0 (320 + 64 * 1 * 128 * 4)) 260 4 = p ∧ (st.s[(fTSA w + 2 : Fin 32)]).toNat / 256 = 0 ∧
    (match State.walk { skipping p with free := 1 } 0 0 0x400000 0 4 with
      | .ok (_, pe, e0, v) => peValid (v.heldEntry ref0 pe e0)
      | .error _ => false) = true := by
  intro p h
  have hp : p = 0 ∨ p = 256 := by simpa using h
  rcases hp with rfl | rfl
  · exact ⟨_, _, word 0x6A (2 * 2 ^ 27), ⟨rfl, by decide⟩, by decide +kernel⟩
  · exact ⟨_, _, word 0x6A (2 * 2 ^ 27), ⟨rfl, by decide⟩, by decide +kernel⟩


/-! Ring steps, and how strands begin and slices finish. -/

/-- A machine whose dictionary holds a live number. -/
def setOd (index sub n : Nat) (s : State) : State :=
  { s with od := { s.od with live := kset s.od.live (odKey index sub) (.num n) } }

/-- A running ring step. -/
def ringRun0 : RingRun := ⟨0, 0, 0, 0, true, 0, false, none, [], 0, [], none, none, false, none, 0⟩

/-- A collective of queue 0 of T0 between modules 0 and 5, whose ring step 0 runs. -/
def coll0 : Coll := { Coll.blank 0 0 0 .command 0 ⟨0, 0, [0, 5]⟩ 0 with cur := some ringRun0, counts := [64, 64], count := 64 }

/-- A strand of its ring step. -/
def ringing : State :=
  let sl := { slice0 0 with rom := true, ringStep := true }
  ((withRun { CmdRun.new 1 (entry 2 []) with begun := true, slices := [sl], coll := some 3 }).setStrand c0 (strandOf sl)).setColl 3 coll0

theorem test_meets_ring : ∃ st sl r, ringing.strand c0 = some st ∧ st.rom = true ∧ st.stopped = false ∧
    ringing.ringGroup st.ref = some (3, coll0, r) ∧ ringing.collOf 3 = some coll0 ∧ st.marks = 0 ∧ st.ordinal = 0 ∧
    ringing.slice st.ref = some sl := ⟨_, _, ringRun0, rfl, rfl, rfl, by decide +kernel, rfl, rfl, rfl, rfl⟩

/-- A machine whose slice of the word w belongs to the ring step, and one whose slice belongs to none. -/
def sending (w : W64) (f : Strand → Strand) : State :=
  let sl := { slice0 w with ringStep := true }
  ((withRun { CmdRun.new 1 (entry 2 []) with begun := true, slices := [sl], coll := some 3 }).setStrand c0 (f (strandOf sl))).setColl 3 coll0

/-- LSEND of 256 bytes at the end of the window; LRECV of the piece that the step does not await; both outside a ring step. -/
theorem test_meets_ring_words :
    (∃ st sl w, (sending w (fun st => st.setS 0 65280)).Issues c0 0x70 st sl w ∧ wbits w 0 16 = 1 ∧
      sl.Fits (st.s[fTSA w]).toNat 256 1 ∧ (sending w (fun st => st.setS 0 65280)).ringGroup st.ref = some (3, coll0, ringRun0)) ∧
    (∃ st sl w, (sending w (fun st => st.setS 2 1)).Issues c0 0x71 st sl w ∧ (coll0.plan 0).recv = 0 ∧
      (st.s[fTSB w]).toNat = 1 ∧ sl.Fits (st.s[fTSA w]).toNat (coll0.recvLen 0) 1 ∧
      (sending w (fun st => st.setS 2 1)).ringGroup st.ref = some (3, coll0, ringRun0)) ∧
    (∀ op ∈ [0x70, 0x71], ∃ s st sl w, (s : State).Issues c0 op st sl w ∧ s.ringGroup st.ref = none ∧ wbits w 0 16 = 0 ∧
      sl.Fits (st.s[fTSA w]).toNat 0 1) := by
  refine ⟨⟨_, _, word 0x70 1, ⟨rfl, by decide⟩, by decide, by unfold Slice.Fits; decide +kernel, by decide +kernel⟩,
    ⟨_, _, word 0x71 (2 * 2 ^ 22), ⟨rfl, by decide⟩, by decide +kernel, by decide +kernel, by unfold Slice.Fits; decide +kernel,
      by decide +kernel⟩, ?_⟩
  intro op h
  have e : op = 0x70 ∨ op = 0x71 := by simpa using h
  rcases e with rfl | rfl
  · exact ⟨_, _, _, word 0x70 0, issuing_issues _ id _ _ rfl rfl rfl rfl (by decide), by decide +kernel, by decide,
      by unfold Slice.Fits; decide +kernel⟩
  · exact ⟨_, _, _, word 0x71 0, issuing_issues _ id _ _ rfl rfl rfl rfl (by decide), by decide +kernel, by decide,
      by unfold Slice.Fits; decide +kernel⟩

/-- A machine with strands of one slice in the deques of two clusters, none running. -/
def dealt (g : Fin 32) (n : Nat) : State :=
  let s := withRun { CmdRun.new 1 (entry 1 []) with begun := true, slices := [{ slice0 0 with strandCount := n, remaining := n }] }
  s.setDeque g.val [⟨ref0, 0, n⟩]

theorem test_meets_take :
    (∃ sl r, let s := dealt 0 2
      s.strand c0 = none ∧ s.coreUp 0 = true ∧ s.slice ref0 = some sl ∧ s.run 0 0 = some r ∧ s.mayBegin c0 ref0 sl = true ∧
      frontStrand (s.deque (clusterOf 0)) = some (ref0, 0, [⟨ref0, 1, 2⟩])) ∧
    (∃ sl r, let s := dealt 1 2
      s.strand c0 = none ∧ s.coreUp 0 = true ∧ s.slice ref0 = some sl ∧ s.run 0 0 = some r ∧ s.mayBegin c0 ref0 sl = true ∧
      frontStrand (s.deque (clusterOf 0)) = none ∧ s.victim (clusterOf 0) = some 1 ∧
      backHalf (s.deque 1) = some (⟨ref0, 1, 2⟩, [⟨ref0, 0, 1⟩]) ∧ s.busy 0 = []) :=
  ⟨⟨_, _, rfl, by decide +kernel, rfl, rfl, by decide +kernel, by decide +kernel⟩,
   ⟨_, _, rfl, by decide +kernel, rfl, rfl, by decide +kernel, by decide +kernel⟩⟩

/-- A slice whose strands have all retired: one without cells, one before its last segment, one with a cell bound to page 2. -/
theorem test_meets_prepare :
    (∃ s sl, (s : State).slice ref0 = some sl ∧ sl.state = .admitted ∧ sl.remaining = 0 ∧ sl.killed = false ∧
      (sl.lastSegment = true ∧ sl.working = []) ∧ (s.takePrepared 0 0 (s.foldPages 0 0 sl)).isSome = true) ∧
    (∃ s sl, (s : State).slice ref0 = some sl ∧ sl.state = .admitted ∧ sl.remaining = 0 ∧ sl.killed = false ∧
      sl.lastSegment = false) ∧
    (∃ s sl, (s : State).slice ref0 = some sl ∧ sl.state = .admitted ∧ sl.remaining = 0 ∧ sl.killed = false ∧
      s.foldPages 0 0 sl = [2] ∧ (s.takePrepared 0 0 [2]).isSome = true) :=
  ⟨⟨running { slice0 0 with remaining := 0 } (strandOf (slice0 0)), _, rfl, rfl, rfl, rfl, by decide +kernel, by decide +kernel⟩,
   ⟨running { slice0 0 with remaining := 0, segment := some 0, marks := [⟨10, 64, 256⟩] } (strandOf (slice0 0)), _, rfl, rfl, rfl, rfl,
    by decide +kernel⟩,
   ⟨(running { slice0 0 with remaining := 0, working := [{ Cell.fresh 0 0 (.crys 0) with bound := true, dest := 0x400000 }] }
      (strandOf (slice0 0))).setPage 0 2 page8, _, rfl, rfl, rfl, rfl, by decide +kernel, by decide +kernel⟩⟩

/-- Two commands: one of class 1 that runs and costs the whole tick, one of class 3 that waits. -/
def breaking : State :=
  let low := { slice0 0 with cost := 512000000, effClass := 1 }
  let high := { slice0 0 with cost := 1000000, state := .waiting, checked := true }
  setOd 0xA0B0 2 3 (((withRun { CmdRun.new 1 (entry 1 []) with begun := true, slices := [low] }).modQueue 0 1 (fun x =>
    { x with state := .active, config := 4, run := some { CmdRun.new 1 (entry 1 []) with slices := [high] } })).modTen 0 (fun x => { x with classLimit := 3 }))

/-- The parts of SliceReady that can be computed. -/
theorem sliceReady_of {s : State} {ref : SliceRef} {sl : Slice} {r : CmdRun} (h : s.run ref.t ref.q = some r)
    (d : ((decide (sl.fresh ≠ []) || (decide (sl.outs.findSome? (s.outError ref.t) = none) &&
      decide (s.shadowShort ref sl.pageDemand 0 sl.outs = none))) &&
      s.outsFree ref.t ref.q ref.idx false (sl.outs.map (·.1)) && s.demandsMet ref.t sl &&
      (r.begun || decide (s.recordError ref.t ref.q r = none))) = true) : s.SliceReady ref sl := by
  simp only [Bool.and_eq_true, Bool.or_eq_true, decide_eq_true_eq] at d
  obtain ⟨⟨⟨a, b⟩, c⟩, e⟩ := d
  exact ⟨a, b, c, fun x hx => by rw [h] at hx; cases hx; exact e⟩

set_option maxRecDepth 100000 in
/-- A class-3 slice that a break-in admits over a class-1 slice. -/
theorem test_meets_break_in :
    let s := breaking
    let it : Item := ⟨opRef 0 1, false, 0, 0, none, 3, false⟩
    let u := (s.atBreakIn 1).noteFirst [it]
    let rem := (u.tick.periodN * 125000 - 1 * 125000) * u.tick.coresN * u.power.clockMHz / 2000
    1 < s.tick.periodN ∧ s.tick.exclusiveTick = false ∧ s.barred = false ∧ (s.atBreakIn 1).items.filter (fun x => x.cls == 3) = [it] ∧
    ∃ r sl, u.run 0 1 = some r ∧ r.fail = none ∧ u.slice (opRef 0 1) = some sl ∧ sl.state = .waiting ∧ sl.exclusive = false ∧
      sl.checked = true ∧ u.SliceReady (opRef 0 1) sl ∧
      ((victimsFor u.victims ((u.unfinished.map (fun x => x.2.offerCost)).sum + sl.offerCost - rem)).map List.length) = some 1 ∧
      (u.takeFrames (opRef 0 1) sl).isSome = true := by
  refine ⟨by decide +kernel, by decide +kernel, by decide +kernel, by decide +kernel, _, _, rfl, by decide +kernel, rfl,
    by decide +kernel, by decide +kernel, by decide +kernel, sliceReady_of rfl (by decide +kernel), by decide +kernel, by decide +kernel⟩

/-- An imaging strand of a command without inputs runs; one whose input page is mapped nowhere stops with the page's address. -/
theorem test_meets_image :
    (∃ s st sl, (s : State).strand c0 = some st ∧ st.rom = true ∧ st.stopped = false ∧
      s.slice st.ref = some sl ∧ sl.ringStep = false ∧ (s.imgStrand st.ref st.strand sl.programOffset).isOk = true) ∧
    (∃ s st sl, (s : State).strand c0 = some st ∧ st.rom = true ∧ st.stopped = false ∧
      s.slice st.ref = some sl ∧ sl.ringStep = false ∧
      (match s.imgStrand st.ref st.strand sl.programOffset with | .error e => e.2 | .ok _ => 0) = 0xA00000) :=
  let sl := { slice0 0 with rom := true }
  let m := fun (op : Nat) (ps : List W64) =>
    (withRun { CmdRun.new 1 (entry op []) with slices := [sl], pdescs := [desc 0 0 0 0 0, desc 0 0 0 0 0], params := ps }).setStrand
      c0 (strandOf sl)
  ⟨⟨m 0x29 (List.replicate 8 0), strandOf sl, sl, rfl, rfl, rfl, rfl, rfl, by decide +kernel⟩,
   ⟨m 0x2B [0xA00000, 0, 0, 2 ^ 32], strandOf sl, sl, rfl, rfl, rfl, rfl, rfl, by decide +kernel⟩⟩

/-- A wait of command 1 on its own queue for 1, and for 0. -/
theorem test_meets_own_wait : ∀ v ∈ [1, 0], ∃ a : Avail, cWaitEn a.words 0 = true ∧ cWaitQ a.words 0 = 0 ∧ cWaitV a.words 0 = v ∧
    let s := State.modQueue { State.reset with tick := { State.reset.tick with count := 5 } } 0 0
      (fun x => { x with state := .active, config := 4, avail := [a] })
    s.doorbellOk a 0 = true ∧ (s.queue 0 0).commandOk 1 a.words = true ∧ cOp a.words = 0 := by
  intro v h
  have hv : v = 1 ∨ v = 0 := by simpa using h
  rcases hv with rfl | rfl
  · exact ⟨⟨[BitVec.ofNat 64 (0xFF * 2 ^ 48 + 2 ^ 32), 0, 1] ++ List.replicate 13 0, 0, 0⟩, by decide +kernel⟩
  · exact ⟨⟨[BitVec.ofNat 64 (0xFF * 2 ^ 48 + 2 ^ 32), 0, 0] ++ List.replicate 13 0, 0, 0⟩, by decide +kernel⟩

/-- Padding: below, inside and above an input of 4 columns (R214). -/
theorem test_padding : padAt 0 4 (-1) = none ∧ padAt 1 4 (-1) = some 0 ∧ padAt 0 4 3 = some 3 ∧ padAt 1 4 4 = some 3 := by
  decide

/-- The parameters of a 1 × 1 × 3 convolution, one column of padding, with a PAD_MODE. -/
def convWords (mode : Nat) : List W64 :=
  [0, 0, 0, 0, BitVec.ofNat 64 (2 ^ 60 + 2 ^ 56 + 3 * 2 ^ 52 + 2 ^ 48 + 2 ^ 44 + 2 ^ 40 + 2 ^ 36 + 2 ^ 32 + 2 ^ 28 + mode * 2 ^ 8), 1, 0, 0]

/-- Taps in range, at a place inside the input, below it and above it, in both modes. -/
theorem test_meets_padding : ∀ mode ∈ [0, 1], let f := pf (convWords mode); let d := desc 0 0 4 1 16
    0 < f 4 60 4 ∧ 0 < f 4 56 4 ∧ 2 < f 4 52 4 ∧ 0 < dSize d 3 ∧ 1 ≤ dSize d 2 ∧ 1 ≤ dSize d 1 ∧ dSize d 0 = 4 ∧ f 4 8 2 = mode ∧
    ((0 * f 4 40 4 + 1 * f 4 28 4 : Nat) : Int) - f 5 0 8 = 0 ∧ ((0 * f 4 40 4 + 0 * f 4 28 4 : Nat) : Int) - f 5 0 8 = -1 ∧
    ((3 * f 4 40 4 + 2 * f 4 28 4 : Nat) : Int) - f 5 0 8 = 4 ∧ ((0 * f 4 44 4 + 0 * f 4 32 4 : Nat) : Int) - f 5 8 8 = 0 := by
  decide +kernel


/-! Queue commands: each meets the hypotheses of its admission with small operands. -/

/-- A machine whose queue 0 of T0 holds a command as its head. -/
def heading (op : Nat) (l : List W64) : State := withRun (CmdRun.new 1 (entry op l))

/-- A head command that passes the common checks is offered. -/
theorem offers {s : State} {r : CmdRun} {op : Nat} (h1 : s.run 0 0 = some r) (h2 : (cOp r.words == op &&
    s.isCandidate 0 0 && !s.barred && !s.unitDown 0 0 r && decide (s.recordError 0 0 r = none) && decide (s.absentOperand r.words = none)) = true) :
    s.Offered 0 0 op s r := by
  simp only [Bool.and_eq_true, beq_iff_eq, Bool.not_eq_true', decide_eq_true_eq] at h2
  refine ⟨?_, h1, h2.1.1.1.1.1, h2.1.1.1.1.2, h2.1.1.1.2, h2.1.1.2, h2.1.2, h2.2⟩
  unfold State.ensureHead
  have : (s.queue 0 0).run = some r := h1
  simp [this]

theorem test_meets_offered : ∀ x ∈ offeredCommands 0 0, ∃ s r, (s : State).Offered 0 0 x.1 s r := by
  have key : ∀ op < 256, (cOp (CmdRun.new 1 (entry op [])).words == op) = true := by decide +kernel
  have h0 : ∀ op ∈ (offeredCommands 0 0).map (·.1), ((heading op []).isCandidate 0 0 && !(heading op []).barred &&
      !(heading op []).unitDown 0 0 (CmdRun.new 1 (entry op [])) &&
      decide ((heading op []).recordError 0 0 (CmdRun.new 1 (entry op [])) = none) &&
      decide ((heading op []).absentOperand (CmdRun.new 1 (entry op [])).words = none)) = true := by decide +kernel
  intro x hx
  have hm : x.1 ∈ (offeredCommands 0 0).map (·.1) := List.mem_map_of_mem hx
  have hlt : x.1 < 256 := (by decide : ∀ op ∈ (offeredCommands 0 0).map (·.1), op < 256) x.1 hm
  refine ⟨heading x.1 [], _, offers rfl ?_⟩
  have := h0 x.1 hm
  rw [key x.1 hlt]
  simpa only [Bool.true_and] using this

/-- Two answers of a check: a MEM_MAP of no page fails, NOP is admitted. -/
theorem test_check_answers :
    (match memMapCheck (heading 0x10 [0, 0, 0]) 0 0 (CmdRun.new 1 (entry 0x10 [0, 0, 0])) with | .fail .. => true | _ => false) = true ∧
    (match nopCheck (heading 0 []) 0 0 (CmdRun.new 1 (entry 0 [])) with | .admitted .. => true | _ => false) = true := by
  decide +kernel

/-- Mapping: page 2 unmapped and mapped. -/
theorem test_meets_mapping :
    (∃ s r, (s : State).Offered 0 0 0x10 s r ∧ let pages := [2]
      cwn r.words 8 = 0x400000 ∧ cwn r.words 9 = 1 ∧ (∀ p ∈ pages, s.page 0 p = none) ∧ s.pinOk 0 0 = true ∧
      1 ≤ s.quota 0 2 - s.stackedFixed 0 ∧ s.stackPossible 0 1 = true ∧ s.outsFree 0 0 0 true pages = true ∧
      s.stackAllowed 0 1 = true ∧
      (((s.putOpSlice 0 0 (pages.map (fun v => (v, true)))).roomFor 0 1).takeHomes 0 0 0 pages).isSome = true) ∧
    (∃ s r, (s : State).Offered 0 0 0x11 s r ∧ cwn r.words 8 = 0x400000 ∧ cwn r.words 9 = 1 ∧
      (∀ p ∈ [2], (s.page 0 p).isSome = true) ∧ s.outsFree 0 0 0 true [2] = true) ∧
    (∃ s r, (s : State).Offered 0 0 0x12 s r ∧ cwn r.words 8 = 0x400000 ∧ cwn r.words 9 = 1 ∧ s.page 0 2 = some page8 ∧
      page8.gone = false ∧ s.pinOk 0 0 = true ∧ s.outsFree 0 0 0 true [2] = true) ∧
    (∃ s r, (s : State).Offered 0 0 0x13 s r ∧ cwn r.words 8 = 0 ∧ cwn r.words 9 = 1 ∧ cwn r.words 10 = 0x400000 ∧
      (partOuts 0x400000 8).findSome? (s.outError 0) = none ∧ s.ClaimOk 0 0 (partOuts 0x400000 8)) :=
  ⟨⟨heading 0x10 [0x400000, 1, 0], _, offers rfl (by decide +kernel), by decide +kernel⟩,
   ⟨(heading 0x11 [0x400000, 1]).setPage 0 2 page8, _, offers rfl (by decide +kernel), by decide +kernel⟩,
   ⟨(heading 0x12 [0x400000, 1, 0]).setPage 0 2 page8, _, offers rfl (by decide +kernel), by decide +kernel⟩,
   ⟨(heading 0x13 [0, 1, 0x400000]).setPage 0 2 page8, _, offers rfl (by decide +kernel), by unfold State.ClaimOk; decide +kernel⟩⟩

/-- KV: five tokens of A shared with B, a release of A's first page, a commit of A's directory. -/
theorem test_meets_kv :
    (∃ s r, (s : State).Offered 0 0 0x18 s r ∧
      (match s.seqAt 0 (cwn r.words 8), s.seqAt 0 (cwn r.words 9) with
        | .ok a, .ok b =>
          !inModelWindow (pageOf 0x4000C0) && a.fmt == 2 && a.fmt == b.fmt && a.dcode == b.dcode && a.heads == b.heads && decide (cwn r.words 10 = a.length) &&
          decide (a.length = 5) &&
          (match s.peAt 0 0x400000 a (0, 0), s.peAt 0 0x4000C0 b (0, 0) with
            | some x, some y => peValid x.2 && !peEvicted x.2 && !peValid y.2 &&
              s.outsFree 0 0 0 true [pageOf 0x4000C0, pageOf y.1].eraseDups
            | _, _ => false)
        | _, _ => false) = true) ∧
    (∃ s r, (s : State).Offered 0 0 0x19 s r ∧
      (match s.seqAt 0 (cwn r.words 8) with
        | .ok q => decide (cwn r.words 9 + cwn r.words 10 ≤ q.slots * 512) && decide (cwn r.words 10 = 1) &&
            s.outsFree 0 0 0 true [2]
        | .error _ => false) = true) ∧
    (∃ s r, (s : State).Offered 0 0 0x1A s r ∧
      (match s.seqAt 0 (cwn r.words 8) with
        | .ok q => q.dirState == 0 && !s.mem.dirBusy.contains (0, 0x400000) && (s.badShadow 0 q).isNone &&
            !inModelWindow (pageOf 0x400000) && s.outsFree 0 0 0 true [2]
        | .error _ => false) = true) :=
  ⟨⟨withKv (heading 0x18 [0x400000, 0x4000C0, 5]), _, offers rfl (by decide +kernel), by decide +kernel⟩,
   ⟨withKv (heading 0x19 [0x400000, 0, 1]), _, offers rfl (by decide +kernel), by decide +kernel⟩,
   ⟨withKv (heading 0x1A [0x400000]), _, offers rfl (by decide +kernel), by decide +kernel⟩⟩


/-- A second mapped page. -/
def page9 : PageEntry := { page8 with home := 9 }

/-- Two mapped pages; page 2 holds an FP32 and a BF16 descriptor of 32 elements of pages 2 and 3, and a page directory entry. -/
def withPages (s : State) : State :=
  let s := (s.setPage 0 2 page8).setPage 0 3 page9
  let at_ := fun (off : Nat) (d : BitVec 512) (m : List Host.Cell) => memWriteN m (8 * 0x200000 + off) (leBytes 64 d.toNat)
  { s with mem := { s.mem with mem := at_ 0 (desc 4 0x401000 32 1 128) (at_ 64 (desc 1 0x600000 32 1 64) []) } }

/-- Pan commands: a fill of page 3, a copy of page 2 to page 3, a conversion of E5M2 to BF16, a gather of one empty page, a
digest of 64 bytes, a fill that the pans run, and one that scrubs and finds a byte that is not zero. -/
theorem test_meets_pan :
    (∃ s r, (s : State).Offered 0 0 0x20 s r ∧ cwn r.words 8 = 0x600000 ∧ cwn r.words 9 = 1 ∧
      s.panDest 0 false (pagesFrom 0x600000 1) = .ok ∧ cwn r.words 10 = 0 ∧
      s.ClaimOk 0 0 ((pagesFrom 0x600000 1).map (fun v => (v, true)))) ∧
    (∃ s r, (s : State).Offered 0 0 0x21 s r ∧ cwn r.words 8 = 0x400000 ∧ cwn r.words 9 = 0x600000 ∧ cwn r.words 10 = 1 ∧
      s.panSource 0 (pagesFrom 0x400000 1) = .ok ∧ s.panDest 0 true (pagesFrom 0x600000 1) = .ok ∧
      (s.pinReads 0 0 (pagesFrom 0x400000 1)).ClaimOk 0 0 ((pagesFrom 0x600000 1).map (fun v => (v, true)))) ∧
    (∃ s r, (s : State).Offered 0 0 0x22 s r ∧
      (∀ p ∈ [cwn r.words 8, cwn r.words 9], (pagesOf p 64).any s.modelGone = false ∧ p % 64 = 0 ∧ s.checkT 0 p 64 = none) ∧
      let x := BitVec.ofNat 512 (s.numT 0 (cwn r.words 8) 64)
      let y := BitVec.ofNat 512 (s.numT 0 (cwn r.words 9) 64)
      descValid x = true ∧ descValid y = true ∧ dLenEn x = false ∧ dLenEn y = false ∧ dRank x = dRank y ∧
      (∀ i < 4, dSize x i = dSize y i) ∧ convertPair (dFmt x) (dFmt y) = true ∧
      s.panSource 0 (pagesOfRanges (tensorRanges x)) = .ok ∧ s.panDest 0 false (pagesOfRanges (tensorRanges y)) = .ok ∧
      (s.pinReads 0 0 (pagesOfRanges (tensorRanges x))).ClaimOk 0 0 ((pagesOfRanges (tensorRanges y)).map (fun v => (v, false)))) ∧
    (∃ s r, (s : State).Offered 0 0 0x23 s r ∧ ∃ z, (s.seqAt 0 (cwn r.words 8)).toOption = some z ∧
      let pes := [((0, 0), s.peAt 0 (cwn r.words 8) z (0, 0))]
      let g := s.gather z (cwn r.words 12) 0 0 pes
      let outs := partOuts (cwn r.words 11) g.bytes.length
      wbits (cw r.words 9) 48 16 = 0 ∧ wbits (cw r.words 9) 32 16 = 1 ∧ wbits (cw r.words 9) 0 32 = 0 ∧ cwn r.words 10 = 1 ∧
      1 ≤ z.heads ∧ 1 ≤ z.slots ∧ cwn r.words 11 % 64 = 0 ∧ ((pes.map (·.2)).map (Option.map (fun y => peValid y.2))) = [some false] ∧
      s.panDest 0 false (outs.map (·.1)) = .ok ∧ (s.pinFrames 0 0 (kvPins pes)).ClaimOk 0 0 outs) ∧
    (∃ s r, (s : State).Offered 0 0 0x24 s r ∧ cwn r.words 9 = 64 ∧ s.checkT 0 (cwn r.words 8) 64 = none ∧
      cwn r.words 11 = 0x600000 ∧ cwn r.words 12 = 0 ∧ s.panDest 0 false ((partOuts 0x600000 32).map (·.1)) = .ok ∧
      (s.pinReads 0 0 (pagesOf (cwn r.words 8) 64)).ClaimOk 0 0 (partOuts 0x600000 32 ++ []).eraseDups) ∧
    (∃ s r, (s : State).run 0 0 = some r ∧ r.begun = true ∧ r.isOp = true ∧ r.onPans = true ∧ r.scrubs = false) ∧
    (∃ s r, (s : State).run 0 0 = some r ∧ r.begun = true ∧ r.isOp = true ∧ r.onPans = true ∧ r.scrubs = true ∧ r.fail = none ∧
      s.dirtyByte (r.slices.flatMap (·.fresh)) = some 0x600007) :=
  ⟨⟨withPages (heading 0x20 [0x600000, 1, 0]), _, offers rfl (by decide +kernel), by unfold State.ClaimOk; decide +kernel⟩,
   ⟨withPages (heading 0x21 [0x400000, 0x600000, 1]), _, offers rfl (by decide +kernel), by unfold State.ClaimOk; decide +kernel⟩,
   ⟨withPages (heading 0x22 [0x400000, 0x400040]), _, offers rfl (by decide +kernel), by unfold State.ClaimOk; decide +kernel⟩,
   ⟨withKv (heading 0x23 [0x4000C0, 2 ^ 32, 1, 0x400000, 0]), _, offers rfl (by decide +kernel),
      ⟨2, 2, false, 0x400100, 0, false, 0x400140, 0, 0, 1, 1, 0⟩, by decide +kernel, by unfold State.ClaimOk; decide +kernel⟩,
   ⟨withPages (heading 0x24 [0x400000, 64, 0, 0x600000, 0]), _, offers rfl (by decide +kernel), by unfold State.ClaimOk; decide +kernel⟩,
   ⟨withRun { CmdRun.new 1 (entry 0x20 []) with begun := true, isOp := true }, _, rfl, by decide +kernel⟩,
   ⟨let s := withRun { CmdRun.new 1 (entry 0x20 [0x600000, 1, 1]) with
      begun := true, isOp := true, slices := [{ slice0 0 with fresh := [⟨3, 9, true, false⟩] }] }
    { s with mem := { s.mem with mem := memWriteN [] (9 * 0x200000 + 7) [1] } }, _, rfl, by decide +kernel⟩⟩

/-- Pages 2 and 3, with words at the beginning of page 2. -/
def withWords (l : List Nat) (s : State) : State :=
  let s := withPages s
  { s with mem := { s.mem with mem := memWriteN [] (8 * 0x200000) (bytesOf l) } }

/-- CODEC_OPEN of an AV1 decoder of 16 × 16 with one buffer at 0x401000, named by the pool at 0x400040. -/
def openBlock : List Nat :=
  [8 * 2 ^ 52, 16 * 2 ^ 48 + 16 * 2 ^ 32 + 256, 30 * 2 ^ 32 + 1, 0x400040, 0, 0, 0, 0, 0x401000]

/-- An open context of T0. -/
def ctxOf (encode : Bool) : CodecCtx :=
  { newCtx 0 none { openOf (openBlock.map (BitVec.ofNat 64)) with encode := encode } [] 0 [] with visible := true }

/-- A machine with an open decode context 0 and an open encode context 32 of T0. -/
def withCtx (s : State) : State := { s with codec := [(0, ctxOf false), (32, ctxOf true)] }

/-- INGEST_OPEN of raw samples from the host, one slot of 1 × 1 × 1. -/
def streamBlock : List Nat := [2 * 2 ^ 56 + 2 ^ 28, 2 ^ 48 + 2 ^ 32 + 2 ^ 16, 16 * 2 ^ 48 + 16 * 2 ^ 32 + 256, 0, 0x400080, 0x400080, 0, 0]

/-- A machine with the stream 0 of T0 open. -/
def withStream (s : State) : State :=
  { s with ingest := [(0, { newStream 0 (streamBlock.map (BitVec.ofNat 64)) none [] with visible := true })] }

/-- CODEC_DECODE of 64 bytes at 0x400000, one status record at 0x600000. -/
def decodeBlock : List Nat := [0x400000, 64 * 2 ^ 32 + 2 ^ 16 + 1, 0, 0x600000, 0, 0, 0, 0]

/-- CODEC_ENCODE of one frame of the FP32 tensor at 0x401000 that the descriptor at 0x400040 gives. -/
def encodeBlock : List Nat :=
  [32 * 2 ^ 58 + 0x400040, 2 ^ 16, 0x600000, 4096 * 2 ^ 32, 0x602000, 0, 0, 0,
   3 * 2 ^ 58 + 0x401000, 0, 16 * 2 ^ 32 + 16, 3 * 2 ^ 32 + 1, 64, 1024, 1024, 0x3F800000 * 2 ^ 32]

/-- INGEST_BATCH of the stream 0: the slot at 0x600000, the manifest at 0x600100, the records of the block at 0x400080. -/
def batchBlock : List Nat :=
  [0x600000, 64, 0x600100, 0, 0, 0, 0, 0] ++ List.replicate 8 0 ++ [0, 0x3F800000 * 2 ^ 32 + 0x3F800000, 0x3F800000, 2 ^ 24]

/-- Codec commands: an open, a close, a decode and an encode with their blocks. -/
theorem test_meets_codec :
    (∃ s r ps, (s : State).Offered 0 0 0x30 s r ∧ (s.paramBlock 0 Config.errCodecInvalid (cwn r.words 8)).toOption = some ps ∧
      openWords ps = none ∧ (s.readPool 0 Config.errCodecInvalid (openOf ps)).isOk = true ∧
      (s.codecEngine (openOf ps)).isSome = true ∧ (s.codecNumber (openOf ps).encode).isSome = true) ∧
    (∃ s r c, (s : State).Offered 0 0 0x33 s r ∧ s.ownCtx 0 (cwn r.words 8) none = some c ∧
      s.ctxBusy 0 (cwn r.words 8) c = false) ∧
    (∃ s r ps, (s : State).Offered 0 0 0x31 s r ∧ (s.paramBlock 0 Config.errCodecInvalid (cwn r.words 8)).toOption = some ps ∧
      decodeWords ps = none ∧ s.ownCtx 0 (pf ps 0 58 6) (some false) = some (ctxOf false) ∧
      s.ctxBusy 0 (pf ps 0 58 6) (ctxOf false) = false ∧ s.checkT 0 (pf ps 0 0 52) (pf ps 1 32 32) = none ∧ pf ps 4 0 52 = 0 ∧
      s.LazyOk 0 0 ((ctxOf false).pages ++ pagesOf (pf ps 3 0 52) (32 * pf ps 1 0 16) ++ [])) ∧
    (∃ s r ps, (s : State).Offered 0 0 0x32 s r ∧ (s.paramBlock 0 Config.errCodecInvalid (cwn r.words 8)).toOption = some ps ∧
      encodeWords ps = none ∧ s.ownCtx 0 (pf ps 0 58 6) (some true) = some (ctxOf true) ∧
      s.ctxBusy 0 (pf ps 0 58 6) (ctxOf true) = false ∧
      let da := pf ps 0 0 52
      let d := BitVec.ofNat 512 (s.numT 0 da 64)
      s.checkT 0 da 64 = none ∧ da % 64 = 0 ∧ planarOk d = true ∧ dSize d 3 = 3 ∧ dFmt d ≤ 3 ∧ dSize d 0 = (ctxOf true).maxW ∧
      dSize d 1 = (ctxOf true).maxH ∧ pf ps 1 32 32 + pf ps 1 16 16 ≤ dSize d 2 ∧
      (∀ p ∈ tensorPages d, s.checkT 0 (p * Config.pageBytes) 1 = none) ∧
      s.LazyOk 0 0 ((ctxOf true).pages ++ pagesOf (pf ps 2 0 52) (pf ps 3 32 32) ++ pagesOf (pf ps 4 0 52) (16 * pf ps 1 16 16))) :=
  ⟨⟨withWords openBlock (heading 0x30 [0x400000]), _, openBlock.take 8 |>.map (BitVec.ofNat 64), offers rfl (by decide +kernel),
      by decide +kernel⟩,
   ⟨withCtx (heading 0x33 [32]), _, ctxOf true, offers rfl (by decide +kernel), by decide +kernel⟩,
   ⟨withCtx (withWords decodeBlock (heading 0x31 [0x400000])), _, decodeBlock.map (BitVec.ofNat 64), offers rfl (by decide +kernel),
      by unfold State.LazyOk; decide +kernel⟩,
   ⟨withCtx (withWords encodeBlock (heading 0x32 [0x400000])), _, (encodeBlock.take 8).map (BitVec.ofNat 64),
      offers rfl (by decide +kernel), by unfold State.LazyOk; decide +kernel⟩⟩

/-- Ingest commands: an open, a batch of one slot and a close. -/
theorem test_meets_ingest :
    (∃ s r ps, (s : State).Offered 0 0 0x38 s r ∧ (s.paramBlock 0 Config.errIngestInvalid (cwn r.words 8)).toOption = some ps ∧
      ingestWords ps = none ∧ pf ps 0 56 4 = 2 ∧ (List.range 16).find? (fun n => (kget s.ingest n).isNone) = some 0 ∧
      ∃ y, s.streamCtx 0 0 false [] ps = some (none, y) ∧ y.stackPossible 0 (pf ps 3 52 12) = true ∧
        y.stackAllowed 0 (pf ps 3 52 12) = true ∧
        ((y.roomFor 0 (pf ps 3 52 12)).takeSave 0 y.stack0 (pf ps 3 52 12)).isSome = true) ∧
    (∃ s r ps x, (s : State).Offered 0 0 0x39 s r ∧ (s.paramBlock 0 Config.errIngestInvalid (cwn r.words 8)).toOption = some ps ∧
      s.ownStream 0 (pf ps 0 60 4) = some x ∧ batchWords x ps = none ∧ s.streamBusy 0 (pf ps 0 60 4) x = false ∧
      (s.batchInputs 0 x (pf ps 0 60 4) ps).isOk = true ∧
      s.LazyOk 0 0 ((List.range x.slotN).flatMap (fun j => pagesOf (pf ps 0 0 52 + j * pf ps 1 0 48) x.imageSize) ++
        pagesOf (pf ps 2 0 52) (64 + 64 * x.slotN) ++ (((x.codecCtx.bind (kget s.codec)).map (·.pages)).getD []))) ∧
    (∃ s r x, (s : State).Offered 0 0 0x3A s r ∧ s.ownStream 0 (cwn r.words 8) = some x ∧
      s.streamBusy 0 (cwn r.words 8) x = false) :=
  ⟨⟨withWords streamBlock (heading 0x38 [0x400000]), _, streamBlock.map (BitVec.ofNat 64), offers rfl (by decide +kernel),
      by decide +kernel, by decide +kernel, by decide +kernel, by decide +kernel, _, rfl, by decide +kernel⟩,
   ⟨withStream (withWords batchBlock (heading 0x39 [0x400000])), _, (batchBlock.take 8).map (BitVec.ofNat 64),
      { newStream 0 (streamBlock.map (BitVec.ofNat 64)) none [] with visible := true }, offers rfl (by decide +kernel),
      by unfold State.LazyOk; decide +kernel⟩,
   ⟨withStream (heading 0x3A [0]), _, { newStream 0 (streamBlock.map (BitVec.ofNat 64)) none [] with visible := true },
      offers rfl (by decide +kernel), by decide +kernel⟩⟩

/-- A machine in which group 0 is T0's, with the members 0 and 5. -/
def withGroup (s : State) : State :=
  { s with od := { s.od with live := kset s.od.live (odKey 0x5100 1) (.bytes [0, 0, 2, 0, 0, 0, 5, 0]) } }

/-- Records and securing: an open without and with a record, a close; a STATE_SECURE that is not due and one with MODE 1; a
STATE_RESTORE from the transfer of group 0. The state list at 0x400040 names 256 bytes. -/
def recordOf : GenRecord := ⟨0x600000, 1, 0, false, [], [], [], [], [], [], [], []⟩

/-- Four more pages, and a state list at 0x400040. -/
def withAreas (s : State) : State :=
  let s := withWords [0, 0, 0, 0, 0, 0, 0, 0, 0x400100, 256] s
  [4, 5, 6, 7].foldl (fun s v => s.setPage 0 v { page8 with home := 6 + v }) s

/-- Operands c8 and on of the securing commands. -/
def secure (op c8 : Nat) : State :=
  withGroup (withAreas (heading op [BitVec.ofNat 64 c8, 0x400040, 1, 0x800000, 0x200000, if op = 0x49 then 0xC00000 else 0, 0, 7]))

/-- A machine with a sealed model. -/
def sealing (s : State) : State := { s with mem := { s.mem with model := { s.mem.model with sealedNow := true } } }

theorem test_meets_record :
    (∃ s r, (s : State).Offered 0 0 0x40 s r ∧ cwn r.words 8 = 0 ∧ cwn r.words 12 = 0 ∧ cwn r.words 14 = 0 ∧ s.ClaimOk 0 0 []) ∧
    (∃ s r, (s : State).Offered 0 0 0x40 s r ∧ cwn r.words 8 ≠ 0 ∧ cwn r.words 12 = 0 ∧ cwn r.words 14 = 0 ∧
      s.recordOpenError 0 r.words = none ∧ s.mem.model.sealedNow = true ∧ s.ClaimOk 0 0 []) ∧
    (∃ s r, (s : State).Offered 0 0 0x41 s r ∧ s.tens[(0 : Fin 4)].record = some recordOf ∧
      recordOf.closing = false ∧ recordOf.cmds = [] ∧ cwn r.words 9 = 0 ∧ s.listError 0 (cwn r.words 8) 0 1 = none ∧
      let n := (s.recordBytes 0 recordOf (s.rangeTable 0 0x100 (s.rangeList 0 (cwn r.words 8) 0))).length + 3312
      (partOuts recordOf.area n).findSome? (s.outError 0) = none ∧
      (s.pinReads 0 0 (pagesOfRanges (s.rangeList 0 (cwn r.words 8) 0))).ClaimOk 0 0 (partOuts recordOf.area n)) :=
  ⟨⟨heading 0x40 [], _, offers rfl (by decide +kernel), by unfold State.ClaimOk; decide +kernel⟩,
   ⟨sealing (withPages (heading 0x40 [0x600000, 20000, 0x400000, 0, 0, 1])), _,
      offers rfl (by decide +kernel), by unfold State.ClaimOk; decide +kernel⟩,
   ⟨(withPages (heading 0x41 [])).modTen 0 (fun y => { y with record := some recordOf }), _, offers rfl (by decide +kernel),
      by decide +kernel, rfl, rfl, by decide +kernel, by decide +kernel, by decide +kernel, by unfold State.ClaimOk; decide +kernel⟩⟩

theorem test_meets_secure :
    (∃ s r, (s : State).Offered 0 0 0x48 s r ∧ s.tens[(0 : Fin 4)].secure.transferState = 0 ∧ s.secureError 0 r.words = none ∧
      (s.tens[(0 : Fin 4)].secure.admitted 7 s.tick.localNs (s.odt 0 0xA0E0 1) s.health.risk).due false 7 (s.odt 0 0xA0E0 1)
        s.health.risk = false ∧ (cw r.words 8).getLsbD 58 = false ∧ wbits (cw r.words 8) 60 4 = 0) ∧
    (∃ s r, (s : State).Offered 0 0 0x48 s r ∧ s.tens[(0 : Fin 4)].secure.transferState = 0 ∧ s.secureError 0 r.words = none ∧
      secMode r.words = 1 ∧ s.tens[(0 : Fin 4)].secure.lastFailed = false ∧ let o := secOps r.words
      let pages := pagesOf (o.area + s.freeImageSlot 0 o * o.slotBytes) (imageSize (s.stateList 0 o))
      s.stackPossible 0 pages.length = true ∧ s.LazyOk 0 0 pages) ∧
    (∃ s r, (s : State).Offered 0 0 0x49 s r ∧ s.restoreControlOk 0 r.words = true ∧ secMode r.words = 1 ∧ let o := secOps r.words
      s.secOpsError 0 o (restoreMoves r.words || o.partner ≠ 0) = none ∧
      s.stackPossible 0 (pagesOfRanges (s.stateList 0 o)).length = true ∧ s.LazyOk 0 0 (pagesOfRanges (s.stateList 0 o))) :=
  ⟨⟨secure 0x48 0, _, offers rfl (by decide +kernel), by decide +kernel⟩,
   ⟨secure 0x48 (2 ^ 60), _, offers rfl (by decide +kernel), by unfold State.LazyOk; decide +kernel⟩,
   ⟨secure 0x49 (2 ^ 60), _, offers rfl (by decide +kernel), by unfold State.LazyOk; decide +kernel⟩⟩

/-! An image that a restore finds, whatever its digests are: they are named, not computed. -/

/-- Listed cells of bytes from an address on. -/
def cellsAt : Nat → List Byte → List Host.Cell
  | _, [] => []
  | a, b :: r => (a, b) :: cellsAt (a + 1) r

theorem memRead_cellsAt (l : List Byte) : ∀ a i, i < l.length → memRead (cellsAt a l) (a + i) = l.getD i 0 := by
  induction l with
  | nil => intro a i h; simp at h
  | cons b r ih =>
    intro a i h
    cases i with
    | zero => simp [cellsAt, memRead, kget]
    | succ i =>
      have := ih (a + 1) i (by simpa using h)
      simp only [memRead, cellsAt, kget] at this ⊢
      rw [if_neg (by omega), show a + (i + 1) = a + 1 + i by omega, this]
      simp

theorem memRead_after (m n : List Host.Cell) (a : Nat) (h : ∀ x ∈ m, x.1 ≠ a) : memRead (m ++ n) a = memRead n a := by
  induction m with
  | nil => rfl
  | cons x r ih =>
    obtain ⟨k, b⟩ := x
    have hk : k ≠ a := h (k, b) (by simp)
    have := ih (fun x hx => h x (by simp [hx]))
    simp only [memRead, List.cons_append, kget, hk, if_false] at this ⊢
    exact this

theorem leBytes_length (n v : Nat) : (leBytes n v).length = n := by
  induction n generalizing v with
  | zero => rfl
  | succ n ih => simp [leBytes, ih]

theorem moveLanes_length (a : List W64) : (moveLanes a).length = a.length := by
  have : ∀ (l : List (Nat × Nat × Nat)) (b : List W64),
      (l.foldl (fun b m => b.set m.2.1 ((a.getD m.1 0).rotateLeft m.2.2)) b).length = b.length := by
    intro l
    induction l with
    | nil => intro b; rfl
    | cons x r ih => intro b; rw [List.foldl_cons, ih, List.length_set]
  exact this _ _

theorem keccakF_length (a : List W64) : (keccakF a).length = a.length := by
  have : ∀ (l : List W64) (b : List W64), (l.foldl keccakRound b).length = b.length := by
    intro l
    induction l with
    | nil => intro b; rfl
    | cons x r ih => intro b; rw [List.foldl_cons, ih]; simp [keccakRound, chiStep, moveLanes_length, thetaStep]
  exact this _ _

theorem absorb_length (n : Nat) : ∀ (bs : List Byte) (a : List W64), (absorb n bs a).length = a.length := by
  induction n with
  | zero => intro bs a; rfl
  | succ n ih => intro bs a; simp only [absorb]; rw [ih, keccakF_length]; simp

theorem shake256_length (m : List Byte) : (shake256 m).length = 32 := by
  have h : (absorb ((shakePad m).length / 136) (shakePad m) (List.replicate 25 0)).length = 25 := absorb_length _ _ _
  simp only [shake256, List.length_flatMap, leBytes_length, List.map_const', List.sum_replicate_nat, List.length_take, h]
  rfl

theorem slice_mid (a b c : List Byte) : Machine.slice (a ++ (b ++ c)) a.length b.length = b := by simp [Machine.slice]

theorem slice_front (a b : List Byte) (i n : Nat) (h : i + n ≤ a.length) : Machine.slice (a ++ b) i n = Machine.slice a i n := by
  have h1 : i ≤ a.length := by omega
  have h2 : n ≤ (a.drop i).length := by simp; omega
  simp [Machine.slice, List.drop_append_of_le_length h1, List.take_append_of_le_length h2]

/-- n zero bytes. -/
def blank (n : Nat) : List Byte := List.replicate n 0

theorem blank_length (n : Nat) : (blank n).length = n := List.length_replicate

/-- An image's header of step 7 with one range, secured, without its digest. -/
def imageHead : List Byte :=
  [1, 0, 0, 0, 0, 0, 1, 0] ++ u64b 7 ++ u64b 0 ++ [0, 0, 0, 1, 0, 0, 0, 0] ++ u64b 0 ++ u64b 1048832 ++ blank 4016

/-- The range table's entry: 256 bytes at 0x400100 and their digest. -/
def imageEntry : List Byte := u64b 0x400100 ++ u64b 256 ++ treeDigest (blank 256) 0

/-- The header's digest. -/
def imageSeal : List Byte := shake256 (splice imageHead 27 [0] ++ imageEntry)

/-- The whole image. -/
def image7 : List Byte := imageHead ++ (imageSeal ++ (imageEntry ++ (blank 1044432 ++ blank 256)))

theorem imageHead_length : imageHead.length = 4064 := by decide +kernel
theorem imageSeal_length : imageSeal.length = 32 := shake256_length _
theorem imageEntry_length : imageEntry.length = 48 := by
  simp only [imageEntry, u64b, treeDigest, List.length_append, leBytes_length, shake256_length]
theorem image7_length : image7.length = 1048832 := by
  simp only [image7, List.length_append, imageHead_length, imageSeal_length, imageEntry_length, blank_length]

theorem image7_le (i n : Nat) (h : i + n ≤ 4064) : leAt image7 i n = leAt imageHead i n := by
  simp only [leAt, image7]
  rw [slice_front _ _ _ _ (by rw [imageHead_length]; exact h)]

theorem image7_entry : Machine.slice image7 4096 48 = imageEntry := by
  have := slice_mid (imageHead ++ imageSeal) imageEntry (blank 1044432 ++ blank 256)
  simpa only [image7, List.length_append, imageHead_length, imageSeal_length, imageEntry_length, List.append_assoc,
    Nat.reduceAdd] using this

theorem image7_good : headerGood image7 = true := by
  have t : image7.take 4064 = imageHead := by
    rw [image7, List.take_append_of_le_length (Nat.le_of_eq imageHead_length.symm),
      List.take_of_length_le (Nat.le_of_eq imageHead_length)]
  have d : Machine.slice image7 4064 32 = imageSeal := by
    have := slice_mid imageHead imageSeal (imageEntry ++ (blank 1044432 ++ blank 256))
    rwa [imageHead_length, imageSeal_length] at this
  have z : imageZeros.all (fun x => leAt image7 x.1 x.2 == 0) = true := by
    simp only [imageZeros, List.all_cons, List.all_nil]
    rw [image7_le _ _ (by decide), image7_le _ _ (by decide), image7_le _ _ (by decide)]
    decide +kernel
  have n : leAt image7 6 2 = 1 := by rw [image7_le _ _ (by decide)]; decide +kernel
  have k : (shake256 (splice imageHead 27 [0] ++ imageEntry)).take 32 = imageSeal :=
    List.take_of_length_le (Nat.le_of_eq (shake256_length _))
  have p1 : (leAt image7 0 1 == 1) = true := by rw [image7_le _ _ (by decide)]; decide +kernel
  have p2 : decide (leAt image7 1 1 ≤ 1) = true := by rw [image7_le _ _ (by decide)]; decide +kernel
  simp only [headerGood, t, d, z, n, Nat.mul_one, image7_entry, p1, p2, Bool.and_true, Bool.true_and]
  rw [k]; simp

theorem image7_table : imageTable image7 = [(0x400100, 256, treeDigest (blank 256) 0)] := by
  have n : leAt image7 6 2 = 1 := by rw [image7_le _ _ (by decide)]; decide +kernel
  have cut : image7 = (imageHead ++ imageSeal) ++ (u64b 0x400100 ++ (u64b 256 ++ (treeDigest (blank 256) 0 ++
      (blank 1044432 ++ blank 256)))) := by
    simp only [image7, imageEntry, List.append_assoc]
  have l1 : (imageHead ++ imageSeal).length = 4096 := by rw [List.length_append, imageHead_length, imageSeal_length]
  have a1 : leAt image7 4096 8 = 0x400100 := by
    have := slice_mid (imageHead ++ imageSeal) (u64b 0x400100) (u64b 256 ++ (treeDigest (blank 256) 0 ++
      (blank 1044432 ++ blank 256)))
    rw [← cut, l1] at this
    rw [leAt, show (8 : Nat) = (u64b 0x400100).length from rfl, this]
    decide
  have a2 : leAt image7 4104 8 = 256 := by
    have := slice_mid (imageHead ++ imageSeal ++ u64b 0x400100) (u64b 256) (treeDigest (blank 256) 0 ++
      (blank 1044432 ++ blank 256))
    rw [List.append_assoc (imageHead ++ imageSeal), ← cut, List.length_append, l1] at this
    rw [leAt, show (4104 : Nat) = 4096 + (u64b 0x400100).length from rfl, show (8 : Nat) = (u64b 256).length from rfl, this]
    decide
  have a3 : Machine.slice image7 4112 32 = treeDigest (blank 256) 0 := by
    have := slice_mid (imageHead ++ imageSeal ++ u64b 0x400100 ++ u64b 256) (treeDigest (blank 256) 0)
      (blank 1044432 ++ blank 256)
    rw [List.append_assoc (imageHead ++ imageSeal ++ u64b 0x400100), List.append_assoc (imageHead ++ imageSeal), ← cut,
      List.length_append, List.length_append, l1] at this
    rw [show (4112 : Nat) = 4096 + (u64b 0x400100).length + (u64b 256).length from rfl,
      show (32 : Nat) = (treeDigest (blank 256) 0).length from (shake256_length _).symm, this]
  rw [imageTable, n]
  simp only [List.range_one, List.map_cons, List.map_nil, Nat.mul_zero, Nat.add_zero, a1, a2, a3]

theorem image7_data : badDigest image7 = none := by
  have d : Machine.slice image7 1048576 256 = blank 256 := by
    have := slice_mid (imageHead ++ (imageSeal ++ (imageEntry ++ blank 1044432))) (blank 256) []
    simp only [List.length_append, imageHead_length, imageSeal_length, imageEntry_length, blank_length, List.append_nil,
      List.append_assoc, Nat.reduceAdd] at this
    exact this
  have k : imageRanges image7 = [(0x400100, 256, treeDigest (blank 256) 0, blank 256)] := by
    rw [imageRanges, image7_table]
    simp only [List.foldl_cons, List.foldl_nil, List.nil_append, List.length_singleton]
    rw [show imageData 1 = 1048576 by decide, d]
  rw [badDigest, k]
  simp only [List.mapIdx_cons, List.mapIdx_nil, beq_self_eq_true, Bool.not_true, List.find?_cons, List.find?_nil, Option.map_none]

/-- The operands of a STATE_RESTORE of step 7 from its area, or from the image at 0x800000. -/
def restoring (named : Bool) : List W64 :=
  [if named then BitVec.ofNat 64 (2 ^ 61) else 0, 0x400040, 1, 0x800000, 0x200000, 0, if named then 0x800000 else 0, 7]

/-- A machine whose page 4 holds the image, and page 2 the state list; the head is the STATE_RESTORE. -/
def imaged (named : Bool) : State :=
  let s := heading 0x49 (restoring named)
  let s := [4, 5, 6, 7].foldl (fun s v => s.setPage 0 v { page8 with home := 6 + v }) ((s.setPage 0 2 page8).setPage 0 3 page9)
  { s with
    od := { s.od with configDigest := Vector.replicate 4 (List.replicate 32 0) }
    mem := { s.mem with mem := cellsAt (8 * 0x200000) (bytesOf [0, 0, 0, 0, 0, 0, 0, 0, 0x400100, 256]) ++ cellsAt (10 * 0x200000) image7 } }

theorem imaged_byte (b : Bool) (i : Nat) (h : i < 1048832) : (imaged b).pbyte (10 * 0x200000 + i) = image7.getD i 0 := by
  have k : ∀ x ∈ cellsAt (8 * 0x200000) (bytesOf [0, 0, 0, 0, 0, 0, 0, 0, 0x400100, 256]), x.1 < 9 * 0x200000 := by decide +kernel
  show memRead _ _ = _
  rw [show (imaged b).mem.mem = cellsAt (8 * 0x200000) (bytesOf [0, 0, 0, 0, 0, 0, 0, 0, 0x400100, 256]) ++
    cellsAt (10 * 0x200000) image7 from rfl, memRead_after _ _ _ (fun x hx => by have := k x hx; omega),
    memRead_cellsAt _ _ _ (by rw [image7_length]; exact h)]

theorem imaged_reads (b : Bool) : ∀ n i, i + n ≤ 1048832 →
    (imaged b).readT 0 (0x800000 + i) n = (image7.drop i).take n := by
  have r : (imaged b).reachCommitted 0 4 = .frame 10 := by cases b <;> decide +kernel
  intro n
  induction n with
  | zero => intro i h; simp [State.readT, State.readVia]
  | succ n ih =>
    intro i h
    have p : pageOf (0x800000 + i) = 4 := by simp only [pageOf, Config.pageBytes]; omega
    have q : phys 10 (0x800000 + i) = 10 * 0x200000 + i := by simp only [phys, Config.pageBytes]; omega
    have l : i < image7.length := by rw [image7_length]; omega
    have t := ih (i + 1) (by omega)
    simp only [State.readT, State.readVia] at t ⊢
    rw [p, r]
    simp only [q]
    rw [imaged_byte b i (by omega), show 0x800000 + i + 1 = 0x800000 + (i + 1) by omega, t,
      List.drop_eq_getElem_cons l, List.take_succ_cons, show image7.getD i 0 = image7[i] by simp [l]]

/-- A number in the image's header. -/
theorem imaged_num (b : Bool) (i n : Nat) (h : i + n ≤ 4064) : (imaged b).numT 0 (0x800000 + i) n = leAt imageHead i n := by
  rw [State.numT, imaged_reads _ _ _ (by omega), ← image7_le i n h, leAt, Machine.slice]
  have : (List.take n (List.drop i image7)).length = n := by simp only [List.length_take, List.length_drop, image7_length]; omega
  simp only [this, Nat.sub_self, List.replicate_zero, List.append_nil]

theorem imaged_image (b : Bool) (limit : Nat) (h : 0x200000 ≤ limit) : (imaged b).readImage 0 0x800000 limit = image7 := by
  have n : (imaged b).numT 0 (0x800000 + 40) 8 = 1048832 := by
    rw [imaged_num _ _ _ (by decide)]; decide +kernel
  have m : max 4096 (min limit 1048832) = 1048832 := by omega
  have t := imaged_reads b 1048832 0 (by decide)
  rw [State.readImage, n, m]
  simpa only [Nat.add_zero, List.drop_zero, List.take_of_length_le (Nat.le_of_eq image7_length)] using t

/-- The image passes the checks of a restore that reads it. -/
theorem imaged_sound (b : Bool) : (imaged b).imageError 0 (secOps (entry 0x49 (restoring b))) image7 0x800000 none = none := by
  have l : (imaged b).stateList 0 (secOps (entry 0x49 (restoring b))) = [(0x400100, 256)] := by
    cases b <;> decide +kernel
  have a : leAt image7 0 1 = 1 := by rw [image7_le _ _ (by decide)]; decide +kernel
  have d : leAt image7 8 8 = 7 := by rw [image7_le _ _ (by decide)]; decide +kernel
  have c : leAt image7 40 8 = 1048832 := by rw [image7_le _ _ (by decide)]; decide +kernel
  have g : Machine.slice image7 64 32 = List.replicate 32 0 := by
    rw [image7, slice_front _ _ _ _ (by rw [imageHead_length]; decide)]; decide +kernel
  have z : (imaged b).od.configDigest[(0 : Fin 4)] = List.replicate 32 0 := by cases b <;> rfl
  have o : (secOps (entry 0x49 (restoring b))).step = 7 := by cases b <;> rfl
  unfold State.imageError
  simp only [l, a, d, c, o, image7_good, image7_length, image7_table, g, z]
  rfl

theorem test_meets_restore :
    (∃ s r, (s : State).Offered 0 0 0x49 s r ∧ s.restoreControlOk 0 r.words = true ∧ let o := secOps r.words
      s.secOpsError 0 o (restoreMoves r.words || o.partner ≠ 0) = none ∧
      s.stackPossible 0 (pagesOfRanges (s.stateList 0 o)).length = true ∧ s.LazyOk 0 0 (pagesOfRanges (s.stateList 0 o)) ∧
      secMode r.words = 0 ∧ s.imageIn 0 o.area o.slotBytes o.step true = some 0x800000 ∧
      s.imageError 0 o (s.readImage 0 0x800000 o.slotBytes) 0x800000 none = none ∧ badDigest (s.readImage 0 0x800000 o.slotBytes) = none) ∧
    (∃ s r, (s : State).Offered 0 0 0x49 s r ∧ s.restoreControlOk 0 r.words = true ∧ let o := secOps r.words
      s.secOpsError 0 o (restoreMoves r.words || o.partner ≠ 0) = none ∧
      s.stackPossible 0 (pagesOfRanges (s.stateList 0 o)).length = true ∧ s.LazyOk 0 0 (pagesOfRanges (s.stateList 0 o)) ∧
      secMode r.words = 2 ∧ s.checkT 0 o.image (max 4096 (min (2 ^ 40 + 2 ^ 21) (s.numT 0 (o.image + 40) 8))) = none ∧
      s.imageError 0 o (s.readImage 0 o.image (2 ^ 40 + 2 ^ 21)) o.image none = none ∧
      badDigest (s.readImage 0 o.image (2 ^ 40 + 2 ^ 21)) = none) := by
  refine ⟨⟨imaged false, _, offers rfl (by decide +kernel), by decide +kernel, by decide +kernel, by decide +kernel,
      by unfold State.LazyOk; decide +kernel, by decide +kernel, by decide +kernel, ?_, ?_⟩,
    ⟨imaged true, _, offers rfl (by decide +kernel), by decide +kernel, by decide +kernel, by decide +kernel,
      by unfold State.LazyOk; decide +kernel, by decide +kernel, by decide +kernel, ?_, ?_⟩⟩
  · exact (congrArg (fun x => (imaged false).imageError 0 _ x 0x800000 none) (imaged_image false _ (by decide))).trans (imaged_sound false)
  · exact (congrArg badDigest (imaged_image false _ (by decide))).trans image7_data
  · exact (congrArg (fun x => (imaged true).imageError 0 _ x 0x800000 none)
      (imaged_image true _ (by decide))).trans (imaged_sound true)
  · exact (congrArg badDigest (imaged_image true _ (by decide))).trans image7_data


/-- A command of one waiting slice without output pages. -/
def slicing (op : Nat) : State :=
  withRun { CmdRun.new 1 (entry op []) with
    begun := true, slices := [{ slice0 0 with state := .waiting, checked := true }] }

/-- A queue with a running head keeps it. -/
theorem head_kept {s : State} {r : CmdRun} (h : s.run 0 0 = some r) : s.ensureHead 0 0 0 = s := by
  have : (s.queue 0 0).run = some r := h
  simp [State.ensureHead, this]

/-- The slice of the commands, and what its reading and its frames leave. -/
theorem test_meets_sliced :
    (∀ op ∈ [0x01, 0x28, 0x29, 0x2A, 0x2B], ∃ r sl sl' m x', let s := slicing op; let v := s.readSlices 0 0
      let n := v.noteFirst (v.queueItems 0 0)
      s.ensureHead 0 0 0 = s ∧ s.barred = false ∧ s.run 0 0 = some r ∧ cOp r.words = op ∧ v.run 0 0 = some r ∧ r.slices = [sl] ∧
      r.fail = none ∧ r.ended = false ∧ r.begun = true ∧ sl.state = .waiting ∧ sl.deps = [] ∧ sl.ringStep = false ∧
      sl.exclusive = false ∧ sl.segment = none ∧ sl.cost ≤ v.tick.capacity ∧ n.slice ref0 = some sl' ∧ sl'.checked = true ∧
      sl'.offerCost ≤ n.left ∧ n.demandsMet 0 sl' = true ∧ n.ensureRead ref0 sl' = .ok (m, x') ∧ m.SliceReady ref0 x' ∧
      (m.takeFrames ref0 x').isSome = true) ∧
    (∃ s r, (s : State).ensureHead 0 0 0 = s ∧ s.barred = false ∧ s.run 0 0 = some r ∧ cOp r.words = 0x01 ∧ r.slices = [] ∧
      r.begun = false ∧ s.isCandidate 0 0 = true ∧
      (match s.slicesOf 0 (cwn r.words 8) (cwn r.words 9) with | .error _ => true | .ok _ => false) = true) := by
  refine ⟨?_, ⟨heading 0x01 [1, 1], _, head_kept (r := CmdRun.new 1 (entry 0x01 [1, 1])) rfl, by decide +kernel, rfl, by decide +kernel⟩⟩
  intro op h
  have e : op = 0x01 ∨ op = 0x28 ∨ op = 0x29 ∨ op = 0x2A ∨ op = 0x2B := by simpa using h
  rcases e with rfl | rfl | rfl | rfl | rfl
  all_goals
    refine ⟨_, _, _, _, _, head_kept rfl, by decide +kernel, rfl, by decide +kernel, rfl, rfl, rfl, rfl, rfl, rfl, rfl, rfl, rfl, rfl,
      by decide +kernel, rfl, rfl, by decide +kernel, by decide +kernel, rfl, sliceReady_of rfl (by decide +kernel), by decide +kernel⟩

/-- COLLECTIVE: a head of group 0 with a SEQ, a KIND, DYNAMIC, and the operands c9 and on. -/
def joining (seq kind : Nat) (dyn : Bool) (l : List W64) : State :=
  withGroup (withPages (heading 0x02 (BitVec.ofNat 64 (kind * 2 ^ 56 + (if dyn then 2 ^ 39 else 0) + seq) :: l)))

/-- A direct reduction of 64 numbers, one whose count is read, a gathering of 256 bytes a member, a STATS command. -/
theorem test_meets_collective :
    (∀ x ∈ [(1, false, [0x400000, 0x600000, 64]), (1, true, [0x400000, 0x600000, 0, 0x400010]),
        (3, false, [0x400000, 0x600000, 256, 0, 512])],
      let s := joining 0 x.1 x.2.1 (x.2.2.map (BitVec.ofNat 64));
      s.isCandidate 0 0 = true ∧ s.nextSeq 0 = 0 ∧ s.collOf 0 = none ∧
      (match s.run 0 0, s.group 0 with
        | some r, some e =>
          let c := cwn r.words
          let v := s.modRun 0 0 (fun r => { r with coll := some 0 })
          let n := if x.2.1 then v.numT 0 (c 12) 4 else c 11
          let w := if x.1 = 3 then 1 else 4
          let len := if x.1 = 3 then e.members.length * n else n * w
          e.tenancy == 0 && (s.recordError 0 0 r).isNone && collControlOk x.1 0 0 x.2.1 && c 10 % 256 == 0 && c 9 % 256 == 0 &&
            (!x.2.1 || (c 12 % 4 == 0 && (v.sourceCheck 0 (c 12) 4).isOk)) &&
            (if x.1 = 3 then n % 256 == 0 && decide (e.members.length * n ≤ c 13) else decide (1 ≤ n)) &&
            decide (c 9 + n * w ≤ c 10) && (v.sourceCheck 0 (c 9) (n * w)).isOk && (v.destCheck 0 (c 10) len).isOk
        | _, _ => false) = true) ∧
    (let s := withWords [0x400040] (joining 0 4 false [0x400000, 0x600000, 1, 0, 1]);
      s.isCandidate 0 0 = true ∧ s.nextSeq 0 = 0 ∧ s.collOf 0 = none ∧
      (match s.run 0 0, s.group 0 with
        | some r, some e =>
          let v := s.modRun 0 0 (fun r => { r with coll := some 0 })
          e.tenancy == 0 && (s.recordError 0 0 r).isNone && collControlOk 4 0 0 false && (v.destCheck 0 0x600000 4).isOk &&
            (v.slicesOf 0 0x400000 1).isOk
        | _, _ => false) = true) ∧
    (∀ x ∈ [1, 32767, 32768, 65535], let s := joining x 1 false [0x400000, 0x600000, 64];
      s.isCandidate 0 0 = true ∧ (x + 65536 - s.nextSeq 0) % 65536 = x ∧ (s.group 0).isSome = true ∧
      (match s.run 0 0 with | some r => (s.recordError 0 0 r).isNone && cOp r.words == 2 | none => false) = true) := by
  decide +kernel

/-! The tick, the input, the sidebands and the health rows. -/

/-- The digest of the empty string, as the standard's test values give it. -/
def empty : List Byte :=
  leBytes 32 0x2F76D56E64270CB5821BB862EA52CD3F24EB3E74EB3F3B23138DA80B2BDDB946
theorem test_shake256 : shake256 [] = empty := by decide +kernel

theorem test_meets_running : State.reset.power.running = true ∧ State.reset.power.input54 = true ∧
    State.reset.power.pwrGood = true ∧ State.reset.install.fwActive = false ∧ State.reset.od.storeState = 0 := by decide +kernel

/-- A firmware image of security version 1 without a body. -/
def image1 : List Byte := List.replicate 8 0 ++ [1, 0] ++ List.replicate 14 0 ++ empty

/-- The digest of its key. -/
def root1 : List Byte := (shake256 (Machine.slice image1 56 1952)).take 32

/-- A held module with two images, whose rollback counter is 1. -/
def held (a b : List Byte) : State :=
  { State.reset with
    fuses := { State.reset.fuses with rootDigest := root1, rollback := 1 },
    flash := { State.reset.flash with imageA := a, imageB := b }, power := { State.reset.power with running := false } }

/-- No image is valid in an empty slot. -/
theorem test_no_image (a b : List Byte) : (held a b).firmwareOk [] = false := by
  have n : decide ((held a b).rollbackCount ≤ leAt ([] : List Byte) 8 2) = false :=
    (by decide +kernel : decide ((held [] []).rollbackCount ≤ leAt ([] : List Byte) 8 2) = false)
  simp only [State.firmwareOk, n, Bool.and_false]

/-- Start-up: an image is valid where its signature verifies. -/
theorem test_image (a b : List Byte) (h : Config.mldsaVerify (Machine.slice image1 56 1952) (Machine.slice image1 0 56)
      (Machine.slice image1 2008 3309) = true) : (held a b).firmwareOk image1 = true := by
  have d : ((shake256 ((image1.drop 8192).take (leAt image1 16 8))).take 32 == Machine.slice image1 24 32) = true := by
    have b : (image1.drop 8192).take (leAt image1 16 8) = [] := by decide +kernel
    rw [b, test_shake256]
    decide +kernel
  have r : decide ((held a b).rollbackCount ≤ leAt image1 8 2) = true :=
    (by decide +kernel : decide ((held [] []).rollbackCount ≤ leAt image1 8 2) = true)
  have e : (held a b).fuses.rootDigest = root1 := by simp only [held]
  have k : ∀ m, m = root1 → (m == root1) = true := fun m h => by rw [h]; simp
  have k := k _ root1.eq_1.symm
  simp only [State.firmwareOk, h, d, r, e, k, Bool.and_true]

/-- A module that a trip holds, one whose input is off, and one that is held with its input on. -/
theorem test_meets_held : (∃ s : State, s.power.tripHold = true) ∧ (∃ s : State, s.power.input54 = false) ∧
    (∃ s : State, s.power.pwrGood = false) ∧ (held [] []).power.running = false ∧ (held [] []).power.input54 = true ∧
    (held [] []).power.pwrGood = true ∧ (held [] []).power.tripHold = false :=
  ⟨⟨{ State.reset with power := { State.reset.power with tripHold := true } }, rfl⟩,
   ⟨{ State.reset with power := { State.reset.power with input54 := false } }, rfl⟩,
   ⟨{ State.reset with power := { State.reset.power with pwrGood := false } }, rfl⟩, rfl, rfl, rfl, rfl⟩

/-- PTP sources present and absent, and edges on both sides of the limit. -/
theorem test_meets_pps : (∃ s : State, s.power.ptp ≠ 0 ∧ s.power.running = true ∧ s.tick.sync ≠ 2) ∧ State.reset.power.ptp = 0 ∧
    (1000 : Int) < 1001 ∧ (-1001 : Int) < -1000 :=
  ⟨⟨{ State.reset with power := { State.reset.power with ptp := 1 } }, by decide +kernel⟩, by decide +kernel⟩

/-- pps: the third bad edge in a row ends the use. -/
theorem test_pps : (match exec (.ppsIn 1001) { State.reset with power := { State.reset.power with ptp := 1, ppsUse := true, ppsBad := 2 } } with
    | .next t => t.power.ppsUse | _ => true) = false := by decide +kernel

/-- A throttle that kills nothing; a self-test that is due; a core under test; a stack that may be recalibrated, one that waits. -/
theorem test_meets_throttle : (State.reset.unfinished.map (fun x => x.2.offerCost)).sum ≤
    (State.reset.tick.periodN * 125000 - 1) * State.reset.tick.coresN * 800 / 2000 := by decide +kernel
theorem test_meets_health :
    (∃ s : State, s.power.running = true ∧ s.odn 0x8000 4 = 1 ∧ s.health.roundTick = none ∧ s.health.roundDue ≤ s.tick.localNs) ∧
    (∃ s : State, 3 ∈ s.cores.testing) ∧
    (0 ∈ State.reset.stacks ∧ kget State.reset.health.recalRequest 0 = none ∧ 0 ∉ State.reset.health.recalRunning) ∧
    (∃ (s : State) (k : Nat), kget s.health.recalRequest 0 = some k ∧ k + s.odn 0x8000 1 ≤ s.tick.count) :=
  ⟨⟨setOd 0x8000 4 1 { State.reset with health := { State.reset.health with roundDue := 0 } }, by decide +kernel⟩,
   ⟨{ State.reset with cores := { State.reset.cores with testing := [3] } }, by decide⟩, by decide +kernel,
   ⟨{ State.reset with health := { State.reset.health with recalRequest := [(0, 0)] },
                       tick := { State.reset.tick with count := 1000000 } }, 0, by decide +kernel⟩⟩

/-- RISK after reset is 0. -/
theorem test_risk : (match exec .riskUpdate State.reset with | .next t => t.health.risk | _ => 1) = 0 := by decide +kernel

/-- Faults: the units at the ends of each class's range. -/
theorem test_meets_fault : (match exec (.hardwareFault 1 511) State.reset with | .next t => t.health.failing | _ => []) = [511] ∧
    (match exec (.hardwareFault 3 3) State.reset with | .next t => t.health.failedDies.toNat | _ => 0) = 8 ∧
    (match exec (.hardwareFault 9 5) State.reset with | .next t => t.health.failedUnits | _ => []) = [5] := by decide +kernel

/-- Errors: a core with a strand, one whose brine buffer holds tokens, a page, one of the model, a command, a cell of a pan. -/
def cell8 : Cell := { Cell.fresh 0 0 (.pan 0) with dest := 64, bound := true }

theorem test_meets_error :
    (running (slice0 0) (strandOf (slice0 0))).strandOwners 0 = [ref0] ∧
    (running { slice0 0 with brine := [⟨0, 0, 0, 0, [], 0, false⟩] } (strandOf (slice0 0))).brineOwners 0 = [ref0] ∧
    inModelWindow Config.modelPage0 = true ∧ inModelWindow 2 = false ∧ (State.reset.setPage 0 2 page8).page 0 2 = some page8 ∧
    (∃ s r, (s : State).run 0 0 = some r ∧ r.fail = none ∧ s.panCellAt 0 0 64 ≠ none) :=
  ⟨by decide +kernel, by decide +kernel, by decide +kernel, by decide +kernel, by decide +kernel,
   ⟨withRun { CmdRun.new 1 (entry 1 []) with held := [cell8] }, _, rfl, by decide +kernel⟩⟩

/-- A command that has staged two contributions to page 2. -/
def staging (copies : List StagedCopy) : State :=
  (withRun { CmdRun.new 1 (entry 1 []) with
    begun := true, copies := copies, staged := [⟨0, 2, 0, [(0x400000, 0x3F800000)], true⟩, ⟨1, 2, 0, [(0x400000, 0x3F800000)], true⟩] }).setPage 0 2 page8

theorem test_meets_copies :
    (∃ (s : State) (e : PageEntry), s.page 0 2 = some e ∧ e.migrateTo ≠ none) ∧
    (∃ s : State, (0 : Fin 4).val ∈ s.diesOf (.model 5)) ∧
    (∃ (s : State) (k : KvFrame), (0 : Fin 4).val ∈ s.diesOf (.kv 0 64) ∧ kget s.mem.kv 64 = some k) ∧
    (∃ q r x, (staging [⟨2, 9, 1⟩]).stagedNext 0 2 = some (q, r, x) ∧ r.copies.find? (fun c => c.vpage == 2) = some ⟨2, 9, 1⟩) ∧
    (∃ q r x, (staging []).stagedNext 0 2 = some (q, r, x) ∧ r.copies.find? (fun c => c.vpage == 2) = none) ∧
    ((staging []).freeOn (stackOfFrame 8)).isSome = true :=
  ⟨⟨State.reset.setPage 0 2 { page8 with migrateTo := some 9 }, { page8 with migrateTo := some 9 }, by decide +kernel⟩,
   ⟨{ State.reset with mem := { State.reset.mem with dieUse := [(0, .model 5)] } }, by decide⟩,
   ⟨{ State.reset with mem := { State.reset.mem with dieUse := [(0, .kv 0 64)], kv := [(64, ⟨0, [], false, 0, [], none, none⟩)] } },
      ⟨0, [], false, 0, [], none, none⟩, by decide +kernel⟩,
   ⟨0, _, ⟨1, 2, 0, [(0x400000, 0x3F800000)], true⟩, rfl, rfl⟩, ⟨0, _, ⟨0, 2, 0, [(0x400000, 0x3F800000)], true⟩, rfl, rfl⟩,
   by decide +kernel⟩

/-- A directory whose copy is due and not yet made, one whose copy has been made, and a stream whose records' copy is due. -/
theorem test_meets_syncs :
    (let s := withKv State.reset;
      let s : State := { s with mem := { s.mem with dirBusy := [(0, 0x400000)] } };
      (0, 0x400000) ∈ s.mem.dirBusy ∧ (0, 0x400000) ∉ s.mem.dirSynced) ∧
    (match ((withKv State.reset).setDir 0 0x400000 2 none).seqAt 0 0x400000 with
      | .ok q => q.dirState == 2 | .error _ => false) = true ∧
    (∃ (s : State) (x : Stream), kget s.ingest 0 = some x ∧ x.augCommit = .syncing) :=
  ⟨by decide +kernel, by decide +kernel, ⟨{ State.reset with ingest := [(0, { newStream 0 [] none [] with augCommit := .syncing })] }, _, rfl, rfl⟩⟩

/-- A tenancy whose snapshot waits for its transfer, and one whose storage has acknowledged 64 of 128 bytes. -/
def securing (f : SecureSt → SecureSt) : State := (withGroup State.reset).modSecure 0 f

/-- An acknowledgement of n bytes. -/
def ack (n : Nat) : List Byte := [1, 2] ++ u16b 7 ++ u16b State.reset.moduleId ++ u16b 0 ++ u64b 9 ++ u64b n ++ u64b 0

/-- A transfer to storage. -/
def storing : State := securing (fun x => { x with storage := ⟨true, 0, .v4 0, 0, 7, 9, 0, 0, 128, 64, 128⟩ })

theorem test_meets_transfer :
    (let s := securing (fun x => { x with waiting := true, group := 0, imageBytes := 4096 });
      s.tens[(0 : Fin 4)].secure.waiting = true ∧ s.ownGroup 0 0 = true ∧ s.collOf 0 = none ∧ (s.group 0).isSome = true) ∧
    (let s := securing (fun x => { x with waiting := true, group := 1 }); s.ownGroup 0 1 = false) ∧
    storing.ackOk 0 (ack 128) = true ∧ storing.ackOk 0 (ack 96) = true ∧ leAt (ack 96) 16 8 = 96 ∧
    storing.tens[(0 : Fin 4)].secure.storage.active = true := by
  decide +kernel

/-! Collectives: group 3 between modules 0 and 5, a message of its epoch and SEQ, and what exec leaves of the collective. -/

/-- A collective of two members at a position. -/
def ringAt (pos : Nat) : Coll :=
  { Coll.blank 0 0 0 .command 0 ⟨0, 0, [0, 5]⟩ pos with kind := 1, count := 64, counts := [64, 64] }

/-- A machine with the collective. -/
def within (c : Coll) : State := State.reset.setColl 3 c

/-- A message of step 0 from the predecessor. -/
def msg (piece : Nat) (body : List Byte) : CollMsg := ⟨0, 0, 0, 0, 0, piece, body⟩

/-- The collective after a command. -/
def collAfter (i : Instr) (c : Coll) : Option Coll :=
  match exec i (within c) with
  | .next w => w.collOf 3
  | _ => none

/-- READY at the leader, whose descriptor agrees, and START at another member, with and without a mismatch. -/
theorem test_meets_start :
    (within (ringAt 0)).groupEpoch 3 = 0 ∧
    (let c := { ringAt 0 with slot := true };
      c.startAt = none ∧ c.ended = false ∧
      collAfter (.ready 3 (msg 0 (c.descriptor ++ u16b noPos))) c =
        some { c with startAt := some 2, due := some 2 }) ∧
    collAfter (.start 3 (msg 0 (u64b 9 ++ u16b noPos))) (ringAt 1) =
      some { ringAt 1 with startAt := some 9, due := some 9 } ∧
    collAfter (.start 3 (msg 0 (u64b 9 ++ u16b 0))) (ringAt 1) =
      some { ringAt 1 with failed := some (Config.errCollSequence, 0) } := by
  decide +kernel

/-- PIECE of the wrong length, and of the right one; COUNTS at a member and back at the leader. -/
theorem test_meets_piece :
    (let c := { ringAt 1 with cur := some ringRun0 };
      (c.plan 0).exchange = false ∧ (c.plan 0).recv < 2 ∧ (1 + c.size - 1) % max 1 c.size = 0 ∧
      (List.replicate (c.recvLen 0) (0 : Byte)).length = c.recvLen 0 ∧
      collAfter (.piece 3 ⟨0, 0, 0, 0, 0, (c.plan 0).recv, [1]⟩) c =
        some { c with fail := some (Config.errGroupInvalid, c.member 0) }) ∧
    (let c := { ringAt 1 with cur := some ringRun0, dynamic := true };
      (c.plan 0).exchange = true ∧ 1 < c.size ∧ (u32b 64).length = c.entryLen * c.pos) ∧
    (let c := { ringAt 0 with cur := some ringRun0, dynamic := true };
      (c.plan 0).exchange = true ∧ ringRun0.laps = 0 ∧ ringRun0.vector = [] ∧ (u32b 64 ++ u32b 64).length = c.entryLen * c.size) := by
  decide +kernel

/-- VERDICT at the leader and at another member, DECIDE, a later step that runs, a wave that has not come back, a step in doubt, a message of another
epoch, a collective that has waited too long. -/
theorem test_meets_verdict :
    (let c := { ringAt 0 with prev := some ringRun0 };
      collAfter (.verdict 3 (msg 0 (u16b noPos ++ u16b 0 ++ u16b 0))) c =
        some { c with prev := some { ringRun0 with decision := some (0, noPos, 0, 0) } }) ∧
    (let c := { ringAt 1 with prev := some ringRun0 };
      collAfter (.verdict 3 (msg 0 (u16b 1 ++ u16b 0 ++ u16b 0))) c =
        some { c with prev := some { ringRun0 with waveIn := some (1, 0, 0), waveOut := true } } ∧
      collAfter (.decide 3 (msg 0 (leBytes 1 2 ++ u16b 1 ++ u16b 7 ++ u16b 5))) c =
        some { c with prev := some { ringRun0 with decision := some (2, 1, 7, 5) } } ∧
      collAfter (.decide 3 { msg 0 [] with epoch := 1 }) c = some { c with dropped := 1 }) ∧
    (let s := ringing; coll0.slices = true ∧ coll0.cur = some ringRun0 ∧
      ((s.slice (s.ringRef coll0 ringRun0.step)).map (·.state)) = some .admitted) ∧
    (let c := { ringAt 1 with prev := some { ringRun0 with doubt := 4 } };
      collAfter (.inDoubtExpiry 3) c =
        some { c with failed := some (Config.errLinkDown, BitVec.ofNat 64 ((within c).lostNeighbour c)) }) ∧
    (∃ s r c, (s : State).collOf 3 = some c ∧ c.prev = some r ∧ r.decision = none ∧ c.pos = 0 ∧ r.boundary + 1 ≤ s.tick.count) ∧
    (∃ s c k, (s : State).collOf 3 = some c ∧ c.eligible = some k ∧ k + s.odn 0x5000 2 ≤ s.tick.count ∧ c.started = false ∧
      c.ended = false ∧ c.failed = none ∧ ∀ x ∈ s.coll.colls, x.1 = 3 → x.2 = c) :=
  ⟨by decide +kernel, by decide +kernel, by decide +kernel, by decide +kernel,
   ⟨{ within { ringAt 0 with prev := some ringRun0 } with tick := { State.reset.tick with count := 9 } }, ringRun0, _, rfl, rfl, rfl, rfl, by decide⟩,
   ⟨{ within { ringAt 0 with eligible := some 0 } with tick := { State.reset.tick with count := 1000000 } },
      { ringAt 0 with eligible := some 0 }, 0, by decide +kernel⟩⟩

/-! Laniak: port 0 of a pond, and port 14, an outer one. -/

/-- A machine whose port p is trained on four lanes. -/
def linked (p : Fin 18) (f : LPort → LPort) : State :=
  State.reset.modL p (fun x => f { x with state := .trained, lanes := 0x0F })

/-- A flit of a type and SEQ, and what an IDLE flit with a reserved type reads as. -/
def flitOf (type seq : Nat) : List Byte := flitBytes ⟨type, seq, 4095, 0, false, false, false, 0, false, 0, 0⟩ []

theorem test_meets_training :
    (let s := linked 0 id;
      (s.lport 0).state = .trained ∧ (s.lport 0).lanes.getLsbD 3 = true ∧ s.linkEnabled 0 = true ∧
      pickLanes (0xFF ||| (s.lport 0).lanes) = some 0xFF ∧ popcount 0x0F 0 8 < popcount 0xFF 0 8 ∧ (s.lport 0).lastWiden = none) ∧
    (let s := State.reset.modL 0 (fun x => { x with state := .down });
      (s.lport 0).state = .down ∧ s.linkEnabled 0 = true ∧ s.power.running = true ∧ pickLanes 0 = none ∧
      pickLanes 0x82 = some 0x02) ∧
    (let s := State.reset.modL 0 (fun x => { x with retryBuf := [⟨0, [], 0⟩] });
      ({ s with tick := { s.tick with count := 2 } } : State).tick.count = 2 ∧ ∃ f ∈ (s.lport 0).retryBuf, f.tick + 2 ≤ 2) := by
  decide +kernel

set_option maxRecDepth 1000000 in
/-- Flits: bad, expected, out of order, RETRY and IDLE, on a trained port with and without a gap; an acknowledgement. -/
theorem test_meets_flits :
    (let s := linked 0 id; (s.lport 0).state = .trained ∧ (s.lport 0).gap = false ∧ parseFlit [] = none ∧
      (parseFlit (flitOf 1 0)).map (fun x => (x.1.type, x.1.seq)) = some (1, 0) ∧
      (parseFlit (flitOf 2 1)).map (fun x => (x.1.type, x.1.seq)) = some (2, 1) ∧
      (parseFlit (flitOf 3 0)).map (fun x => x.1.type) = some 3 ∧ (parseFlit (flitOf 0 0)).map (fun x => x.1.type) = some 0 ∧
      (s.lport 0).queue = []) ∧
    (let s := linked 0 (fun x => { x with gap := true, uncorrectable := 16, retries := 64 });
      (s.lport 0).state = .trained ∧ (s.lport 0).gap = true ∧ (s.lport 0).uncorrectable ≤ 16 ∧ (s.lport 0).retries ≤ 64) ∧
    (let s := linked 0 (fun x => { x with retryBuf := [⟨4095, [], 0⟩] });
      (s.lport 0).retryBuf = [] ++ ⟨4095, [], 0⟩ :: [] ∧ (parseFlit (flitOf 0 0)).map (fun x => x.1.ack) = some 4095) := by
  decide +kernel

/-- The neighbour 5. -/
def peer5 : Peer := ⟨5, 1, 0, false, 0⟩

/-- A machine with the neighbour 5 on a confirmed port 0. -/
def meeting (f : State → State) : State := f (linked 0 (fun x => { x with peer := some peer5 }))

/-- HELLO of a pond neighbour, confirmed ports, and ponds that are due. -/
theorem test_meets_discovery :
    (linked 0 id).moduleId = 0 ∧ (meeting id).confirmed 0 = true ∧ ((meeting id).lport 0).peer = some peer5 ∧
    outerPort 0 = false ∧ outerPort 14 = true ∧ rising [0, 5] = true ∧
    (let s := meeting (fun s => { s with net := { s.net with pondAt := 1, nextPond := [0, 5] } });
      s.net.pondAt ≠ 0 ∧ s.net.pondAt = s.tick.count + 1 ∧ s.net.nextPond = 0 :: [5] ∧ s.pondView = 0 :: [5]) ∧
    (let s := meeting (fun s => { s with net := { s.net with pondAt := 1, nextPond := [5, 7] } });
      s.net.nextPond = 5 :: [7] ∧ 5 ≠ s.moduleId) ∧
    (match exec (.hello 0 ⟨0, 7, 3, false, 1, 0, 8⟩) (linked 0 id) with
      | .next w => (w.lport 0).held | _ => false) = true := by
  decide +kernel

/-- A TICK of module 5 with a count and an announced jump. -/
def tick5 (count jump : Nat) : TickMsg := ⟨count, 0, 8, 8, 0, jump, jump + 9, 1, 2, 3, 1, 5, 0, 0⟩

/-- A module of the pond of module 5, with the tick count 3 and a synchronisation state. -/
def following (sync : Nat) : State :=
  meeting (fun s => { s with net := { s.net with tickMaster := 5 }, tick := { s.tick with sync := sync, count := 3 } })

/-- Ticks: the tick master is the neighbour, in step with it, waiting for a jump, joining from below and from above. -/
theorem test_meets_ticks :
    (∀ x ∈ [2, 0], (following x).confirmed 0 = true ∧ ((following x).lport 0).peer = some peer5 ∧ (following x).fromParent 0 = true ∧
      (following x).tick.sync = x ∧ (following x).tick.count = 3) ∧ outerPort 0 = false ∧
    (tick5 3 0).boundary + (following 2).net.ahead = 3 ∧ (tick5 4 0).boundary + (following 2).net.ahead = 3 + 1 ∧
    (tick5 7 20).jumpAt ≠ 0 ∧ 3 < (tick5 7 20).boundary ∧ (tick5 7 0).jumpAt = 0 ∧ (tick5 2 20).boundary ≤ 3 ∧
    (∀ x ∈ [(7, 0, (7, 8, 2, 0)), (2, 20, (3, 8, 2, 1)), (7, 20, (3, 8, 0, 0))],
      (match exec (.tick 0 (tick5 x.1 x.2.1)) (following 0) with
        | .next w => (w.tick.count, w.tick.periodN, w.tick.sync, w.net.ahead) | _ => (0, 0, 0, 0)) = x.2.2) := by
  decide +kernel

/-- The pond's master itself, a relayed route, counts from below, a loss, announced changes, a delay of a port that is not held. -/
theorem test_meets_tick_rows :
    (meeting id).isPondMaster = true ∧
    (let s := (meeting (fun s => { s with net := { s.net with routes := [⟨5, [0], some 9⟩] } })).setColl 3 (ringAt 0);
      s.collOf 3 = some (ringAt 0) ∧ s.route (ringAt 0).succ = some ⟨5, [0], some 9⟩) ∧
    (following 2).tick.sync = 2 ∧ (following 0).tick.sync ≠ 2 ∧ (meeting id).tick.count < 1 ∧
    (let s := meeting (fun s => { s with net := { s.net with parent := some 0, noTick := 16 }, tick := { s.tick with sync := 2 } });
      s.tick.sync = 2 ∧ 16 ≤ s.net.noTick ∧ s.isPondMaster = true ∧ s.net.offers = []) ∧
    ((meeting id).lport 0).state = .trained ∧ (meeting id).heldPort 0 = false ∧
    (let s := meeting (fun s => { s with net := { s.net with changeAt := 1, jumpAt := 1 } });
      s.net.changeAt = s.tick.count + 1 ∧ s.net.jumpAt = s.tick.count + 1) := by
  decide +kernel

/-! Host ports. -/

/-- A machine whose queue 0 of T0 has a state and a size. -/
def queued (st : QState) (config : W32) : State := State.reset.modQueue 0 0 (fun x => { x with state := st, config := config })

theorem test_meets_queues : State.reset.portOpen 0 = true ∧ (State.reset.queue 0 0).state = .absent ∧
    (∀ c ∈ [4, 16], ((queued .absent (BitVec.ofNat 32 c)).queue 0 0).state = .absent ∧ 4 ≤ bits c 0 5 ∧ bits c 0 5 ≤ 16) ∧
    bits 3 0 5 < 4 ∧ 16 < bits 17 0 5 ∧
    (∀ q ∈ [QState.active, .halted, .deleting, .absent], (queued q 4).portOpen 0 = true ∧ ((queued q 4).queue 0 0).state = q) ∧
    ((queued .active 4).queue 0 0).tail = 0 ∧ ((queued .active 4).queue 0 0).ended = 0 ∧ 15 < 2 ^ ((4 : W32).toNat % 32) := by
  decide +kernel

/-- A doorbell past the ring's end, and one within it, of a ring of 16; the port holds nothing. -/
theorem test_doorbell : (queued .active 4).ports[(0 : Fin 4)].held = [] ∧ (queued .active 4).tick.sluiceLen ≤ 0 ∧
    (match exec (.cmdTail 0 0 16 0 []) (queued .active 4) with
      | .next w => w.ports[(0 : Fin 4)].errlogSeq.toNat | _ => 0) = 1 ∧
    (match exec (.cmdTail 0 0 1 0 [entry 0 []]) (queued .active 4) with
      | .next w => (w.queue 0 0).avail.length | _ => 0) = 1 := by decide +kernel

/-- Registers: a request of the largest length, READY written and not, an absent queue's base, both ends of the areas. -/
theorem test_meets_registers : State.reset.ports[(0 : Fin 4)].mbxBusy = false ∧ (16384 : W32).toNat ≤ 16384 ∧
    (0x40000000 : W32).getLsbD 30 = true ∧ (0 : W32).getLsbD 30 = false ∧ (0x1000 : W64).toNat % 4096 = 0 ∧
    8 * 2047 + 8 ≤ 16384 ∧ State.reset.readBar0 0 0x40 4 = none ∧ State.reset.readBar0 0 0x5000 4 = none ∧ 2 % 4 ≠ 0 ∧
    65536 < 65532 + 8 ∧ 0x4000 ≤ 0x4018 ∧ 0x4018 < 0x5000 ∧ queueRegWidth (0x4018 % 64) ≠ some 8 ∧ 0xC000 < 65536 := by
  decide +kernel

/-- BAR2: an access during a sluice, a page that may be read and written, one that is not mapped, a read that waits. -/
theorem test_meets_bar2 :
    (∃ s : State, s.portOpen 0 = true ∧ 0 < s.tick.sluiceLen) ∧
    (let s := (withPages State.reset).modPort 0 (fun p => { p with windowBase := 0x400000 });
      s.portOpen 0 = true ∧ s.tick.sluiceLen ≤ 0 ∧ s.ports[(0 : Fin 4)].held = [] ∧
      (∀ v ∈ pagesOf (0x400000 + 0) 8, s.bar2Error 0 false v = none ∧ s.bar2Error 0 true v = none) ∧
      s.shadowLocked 0 0x400000 8 = false ∧ (match s.reachCommitted 0 2 with
        | .frame f => decide (f * Config.pageBytes < Config.stacksEnd) | .error _ => false) = true) ∧
    (pagesOf 0 8).findSome? (State.reset.bar2Error 0 false) ≠ none ∧
    ((withPages State.reset).modPort 0 (fun p => { p with windowBase := 0x400000, held := [.read 0x400000 8] })).ports[(0 : Fin 4)].held =
      [.read 0x400000 8] :=
  ⟨⟨{ State.reset with tick := { State.reset.tick with sluiceLen := 1 } }, by decide +kernel⟩, by decide +kernel⟩

/-- A slice of T0 that a port reset kills; the port is then closed. -/
theorem test_port_reset :
    (match exec (.hotReset 0) (running (slice0 0) (strandOf (slice0 0))) with
      | .next w => (w.portOpen 0, (w.strand c0).isNone, (w.slice ref0).map (·.killed)) | _ => (true, false, none)) =
      (false, true, some true) := by decide +kernel

/-! Dictionary frames and services. -/

/-- A client that reaches the IPv4 address 2 of port M0. -/
def client0 : Endpoint := { dest := .v4 2, addr := .v4 1, udp := 7, port := 2 }
def client : Transport := .ethernet client0

/-- A session of the client. -/
def session1 : Session := ⟨1, .v4 1, client0, 0, [], 0, [], [], 0, [], [], [], [], 0⟩

/-- A machine whose port M0 has the address. -/
def addressed : State := setOd 0x1012 7 1 (setOd 0x1012 2 2 State.reset)

/-- A machine with the session. -/
def talking : State := { addressed with od := { addressed.od with sessions := [session1] } }

/-- A machine whose mailbox 0 holds a frame. -/
def mailing (f : List Byte) : State :=
  State.reset.modPort 0 (fun p => { p with mbxBusy := true, mbxLen := f.length, mbxReq := splice p.mbxReq 0 f })

theorem test_meets_frames :
    addressed.carries client [] = true ∧ State.reset.od.deferred = [] ∧ ¬ 32 ≤ ([] : List Byte).length ∧
    (∀ type ∈ [1, 4], let f := jdpFrame type 0 1 0 0 0 (if type = 4 then List.replicate 32 0 else []);
      leAt f 0 1 = 1 ∧ addressed.jdpOn client = true ∧ jType f = type ∧ jHeadOk f = true ∧ jTypeOk client type = true ∧
      jSession f = 0 ∧ jSigned f = false ∧ jRecs f = some []) ∧
    (let f := jdpFrame 4 0 1 0 0 0 []; jHeadOk f = true ∧ jRecs f = none) ∧
    (let f := jdpFrame 6 1 1 0 0 0 []; jHeadOk f = true ∧ jRecs f = some [] ∧ talking.sessionOf client f = some session1 ∧
      session1.lastFrame ≠ f ∧ session1.lastSeq < jSeq f ∧ talking.install.session ≠ jSession f ∧
      (match exec (.close client f 0) talking with | .next w => w.od.sessions.length | _ => 9) = 0) := by
  decide +kernel

/-- A POLL in a mailbox, frames and sessions that wait, a store that ends. -/
theorem test_meets_services :
    (let f := jdpFrame 7 0 1 0 0 0 []; let s := mailing f;
      s.carries (.mailbox 0) f = true ∧ jHeadOk f = true ∧ jTypeOk (.mailbox 0) 7 = true ∧ jRecs f = some [] ∧
      s.od.mbxPend[(0 : Fin 4)] = []) ∧
    (∃ s : State, s.od.deferred = [⟨client, []⟩]) ∧ session1 ∈ talking.od.sessions ∧
    (let s : State := { talking with tick := { talking.tick with localNs := 10 ^ 15 } };
      s.sessionIdle session1 = true ∧ s.install.session ≠ session1.number) ∧
    (∃ s : State, s.od.storeState = 1) :=
  ⟨by decide +kernel, ⟨{ State.reset with od := { State.reset.od with deferred := [⟨client, []⟩] } }, rfl⟩, by decide +kernel,
   by decide +kernel, ⟨{ State.reset with od := { State.reset.od with storeState := 1 } }, rfl⟩⟩

/-! Installation, ingest and the codec units. -/

/-- A signed control datagram of a kind and a body, from session 1 of the client, with SEQ 1. -/
def control1 (kind : Nat) (body : List Byte) : List Byte :=
  [1, BitVec.ofNat 8 kind, 1, 0] ++ u32b 1 ++ u64b 1 ++ u64b 0 ++ u32b body.length ++ List.replicate 20 0 ++ body ++
    List.replicate 3320 0

/-- A datagram without a signature: kind, session, offset, body. -/
def plain1 (kind session off : Nat) (body : List Byte) : List Byte :=
  [1, BitVec.ofNat 8 kind, 0, 0] ++ u32b session ++ u64b 0 ++ u64b off ++ u32b body.length ++ List.replicate 20 0 ++ body

/-- The body of OPEN for an image of 4,096 bytes. -/
def openBody (apn : Nat) : List Byte := u64b 4096 ++ u16b apn ++ List.replicate 5302 0

/-- A machine with the session, whose key 0 has the INSTALL right. -/
def enrolled (f : InstallSt → InstallSt) : State :=
  { talking with
    od := { talking.od with live := kset talking.od.live (odKey 0x7010 1) (.bytes (1 :: List.replicate 1959 0)) },
    install := f talking.install }

set_option maxRecDepth 100000 in
/-- Control datagrams: their layout, session and right; whether a signature verifies is a free value. -/
theorem test_meets_installer :
    (∀ x ∈ [(1, 0), (5, 0), (6, 0), (9, 0)], let d := control1 x.1 [];
      (enrolled id).sessionOf (client) d = some session1 ∧ session1.instFrame ≠ d ∧ jSigned d = true ∧
      session1.instSeq < jSeq d ∧ (((enrolled id).rightsOf d).getD 0).testBit 0 = true ∧ (enrolled id).instArrives client0 d x.1 = true ∧
      iLength d = 0) ∧
    (enrolled id).mem.model.sealedNow = false ∧ (enrolled id).install.busy = false ∧
    (enrolled (fun x => { x with state := 1 })).install.state = 1 ∧
    (enrolled id).instArrives client0 (plain1 4 1 0 []) 4 = true ∧ (enrolled id).instArrives client0 (plain1 7 0 0 (List.replicate 32 0)) 7 = true ∧
    jSigned (plain1 4 1 0 []) = false ∧ iLength (plain1 7 0 0 (List.replicate 32 0)) = 32 := by
  decide +kernel

set_option maxRecDepth 100000 in
/-- OPEN of this APN and of another. -/
theorem test_meets_open : ∀ apn ∈ [3, 2], let d := control1 1 (openBody apn);
    (enrolled id).instArrives client0 d 1 = true ∧ openBodyOk (iBody d) = true ∧ leAt (iBody d) 8 2 = apn := by
  decide +kernel

/-- An installation whose image is 4,096 bytes, in a phase. -/
def installing (phase : Nat) : State :=
  enrolled (fun x => { x with state := 1, phase := phase, session := 1, src := client0, imageBytes := 4096, frames := [9], digestRun := phase == 2 })

set_option maxRecDepth 100000 in
theorem test_meets_install :
    (let d := plain1 2 1 0 (List.replicate 4096 7); let s := installing 1;
      s.instArrives client0 d 2 = true ∧ jSession d = s.install.session ∧ client0.addr = s.install.src.addr ∧ (s.sessionOf client d).isSome = true ∧
      dataShape d s.install.imageBytes = true ∧ hasRange s.install.received (iOffset d) (iOffset d + iLength d) = false) ∧
    (installing 2).install.digestRun = true ∧
    (enrolled (fun x => { x with digestEnd := true })).install.digestEnd = true ∧ (installing 3).install.state = 1 ∧ (installing 3).install.phase = 3 := by
  decide +kernel

set_option maxRecDepth 100000 in
theorem test_meets_update :
    fwHeaderOk (u32b 0x5746424B ++ u32b 0 ++ u64b 0 ++ u64b 1 ++ List.replicate 8168 0) = true := by decide +kernel

/-- A batch of one slot on stream 0. -/
def batch0 : Batch :=
  { t := 0, q := 0, params := [], admitted := 0, stale := 0, budget := 0, policy := 0, augCopy := 0, aug := [], fill := [],
    replay := false, newPos := 1, slots := [⟨0, 0, none, none, 0, false, false, 0⟩], dropped := 0,
    hostList := [[0, 5, BitVec.ofNat 64 (64 * 2 ^ 32 + 2 ^ 16), 0]], written := false }

/-- A machine with stream 0 from a source, of AV1 samples, with a batch or none. -/
def streaming (source : Nat) (b : Option Batch) (samples : List Sample) : State :=
  { State.reset with ingest := [(0, { newStream 0 [BitVec.ofNat 64 (source * 2 ^ 60 + 2 ^ 28 + 1), 0, 0, 2 ^ 52] none [] with
      visible := true, batch := b, samples := samples })] }

/-- A complete sample. -/
def sample0 : Sample := ⟨0, 5, 1, 1, false, 0, 0, [(0, 7)], false, some 0, 0, 0, 0, 0, [], false, none⟩

/-- A datagram of stream n with 4 bytes of a sample of 8 at position 0. -/
def fragment (n : Nat) : List Byte :=
  [1, BitVec.ofNat 8 n, 0, 0, 0, 0] ++ u16b 1 ++ u64b 0 ++ u64b 5 ++ u32b 8 ++ u32b 4 ++ List.replicate 16 0 ++ [1, 2, 3, 4]

theorem test_meets_datagram :
    kget (streaming 1 none []).ingest (leAt (fragment 3) 1 1) = none ∧ 4 ∉ (streaming 1 none []).health.failedUnits ∧
    (match kget (streaming 1 none []).ingest (leAt (fragment 0) 1 1) with
      | some x =>
        let f := leAt (fragment 0)
        x.batch.isNone && x.visible && x.source == 1 && f 2 2 == pf x.words 4 52 12 && decide (x.position ≤ f 8 8) &&
          decide (f 8 8 < x.position + 4 * x.slotN) && decide (f 28 4 + ((fragment 0).length - 48) ≤ f 24 4) && decide (1 ≤ f 24 4) &&
          decide ((x.samples.map (·.total)).sum + f 24 4 ≤ x.rxBytes) && (x.sample (f 8 8)).isNone
      | none => false) = true := by decide +kernel

/-- A slot whose sample the host has not given, one that is being decoded, one whose wait is over. -/
theorem test_meets_batch :
    (∃ sl desc, batch0.slots[(0 : Nat)]? = some sl ∧ batch0.hostList[(0 : Nat)]? = some desc ∧ sl.reason = none ∧ sl.expect = none) ∧
    (match kget (streaming 0 (some batch0) [sample0]).ingest 0 with | some x => x.decodePos 0 | none => none) = some 0 ∧
    batch0.replay = false ∧
    (match kget (streaming 1 (some batch0) []).ingest 0 with
      | some x => x.source == 1 && decide (batch0.admitted + x.wait ≤ 1) && x.samples.isEmpty | none => false) = true :=
  ⟨⟨_, _, rfl, rfl, rfl, rfl⟩, by decide +kernel, rfl, by decide +kernel⟩

/-- A job of a command on a context. -/
def job0 (encode : Bool) : CodecJob :=
  { (ctxOf encode).newJob 0 0 (decodeBlock.map (BitVec.ofNat 64)) [([1], 0)] with sizes := [2 ^ 60] }

/-- A machine that runs the job. -/
def coding (encode : Bool) : State :=
  let s := withPages (withRun { CmdRun.new 1 (entry 0x31 []) with begun := true, isOp := true, slices := [{ opSlice [(3, false)] with state := .admitted }] })
  { s with codec := [(if encode then 32 else 0, { ctxOf encode with job := some (job0 encode), maxKbps := 1, window := 2 })] }

/-- A decode unit's next context, and room for the record that the frame leaves; what the frame is, is a free value. -/
theorem test_meets_decode : (coding false).nextCtx false 0 0 = some (0, { ctxOf false with job := some (job0 false), maxKbps := 1, window := 2 }) ∧
    ((coding false).opWrites 0 0 [(pf (job0 false).params 3 0 52, List.replicate 32 0)]).isSome = true := by
  decide +kernel

/-- An attempt that is too large, whatever the encoder makes: the window's budget is spent. -/
theorem test_meets_encode :
    (coding true).nextCtx true 0 4 = some (32, { ctxOf true with job := some (job0 true), maxKbps := 1, window := 2 }) ∧
    (job0 true).allowed { ctxOf true with maxKbps := 1, window := 2 } < 0 ∧ (job0 true).attempt ≠ 3 := by decide +kernel

end Sys2Proof.Tests
end

