-- ==== Sys2Proof/Proofs/Bf16Mma.lean ====
section
/-! SUPPORT. MMA of two BF16 tiles (R94): the operands as lists over their indices, an accumulator element as one fold over
k, and the completed instruction; with them the proof of O15. -/
namespace Sys2Proof.Machine

open Sys2Proof

/-! ### Banks -/

@[simp] theorem Strand.bank_setBank_same (st : Strand) (x : Bool) (b : Vector (KMap W32) 64) : (st.setBank x b).bank x = b := by
  by_cases h : (st.bankB == x) = true <;> simp [Strand.bank, Strand.setBank, h]

@[simp] theorem Strand.bank_setBank_other (st : Strand) (x : Bool) (b : Vector (KMap W32) 64) :
    (st.setBank x b).bank (!x) = st.bank (!x) := by
  cases hb : st.bankB <;> cases x <;> simp [Strand.bank, Strand.setBank, hb]

@[simp] theorem Strand.bank_next (st : Strand) (x : Bool) : st.next.bank x = st.bank x := rfl

@[simp] theorem Strand.pc_setBank (st : Strand) (x : Bool) (b : Vector (KMap W32) 64) : (st.setBank x b).pc = st.pc := by
  unfold Strand.setBank; split <;> rfl

theorem length_rowFill (n : Nat) : ∀ (row : KMap W32) (a : Nat), (rowFill row a n).length = n := by
  induction n with
  | zero => intro row a; rfl
  | succ n ih =>
    intro row a
    cases row with
    | nil => simp [rowFill, ih]
    | cons x r => unfold rowFill; split <;> simp [ih]

/-! ### Lists over their indices -/

theorem map_nth_range {α : Type} (l : List α) (d : α) {n : Nat} (h : l.length = n) : (List.range n).map (nth l · d) = l := by
  subst h
  exact List.ext_getElem (by simp) (fun i _ h2 => by simp [nth, h2])

theorem nth_map_range {α : Type} (f : Nat → α) (d : α) {n i : Nat} (h : i < n) : nth ((List.range n).map f) i d = f i := by
  simp [nth, h]

theorem mapIdx_map_range {α β : Type} (n : Nat) (f : Nat → α) (g : Nat → α → β) :
    ((List.range n).map f).mapIdx g = (List.range n).map (fun i => g i (f i)) :=
  List.ext_getElem (by simp) (fun i _ _ => by simp)

theorem chunks_map_range {α : Type} (n k : Nat) : ∀ f : Nat → α,
    chunks n k ((List.range (k * n)).map f) = (List.range k).map (fun i => (List.range n).map (fun j => f (i * n + j))) := by
  induction k with
  | zero => intro f; rfl
  | succ k ih =>
    intro f
    have hsplit : (List.range ((k + 1) * n)).map f =
        (List.range n).map f ++ (List.range (k * n)).map (fun x => f (n + x)) := by
      rw [Nat.succ_mul, Nat.add_comm, List.range_add, List.map_append, List.map_map]; rfl
    have hlen : ((List.range n).map f).length = n := by simp
    rw [chunks, hsplit, List.take_left' hlen, List.drop_left' hlen, ih, List.range_succ_eq_map]
    simp only [List.map_cons, List.map_map, Function.comp_def, Nat.succ_mul, Nat.zero_mul, Nat.zero_add]
    congr 1
    refine List.map_congr_left fun i _ => List.map_congr_left fun j _ => congrArg f ?_
    omega

theorem chunks_eq_nth {α : Type} {n k : Nat} (l : List α) (d : α) (h : l.length = k * n) :
    chunks n k l = (List.range k).map (fun i => (List.range n).map (fun j => nth l (i * n + j) d)) := by
  rw [← chunks_map_range n k (nth l · d), map_nth_range l d h]

theorem chunks_replicate {α : Type} (n k : Nat) (x : α) :
    chunks n k (List.replicate (k * n) x) = (List.range k).map (fun _ => (List.range n).map (fun _ => x)) := by
  have := chunks_map_range n k (fun _ => x)
  simpa [List.map_const'] using this

theorem blocksOf_eq_chunks {α : Type} (n : Nat) : ∀ l : List α, blocksOf n l = chunks 32 n l := by
  induction n with
  | zero => intro l; rfl
  | succ n ih => intro l; rw [blocksOf, chunks, ih]

/-! ### BF16 operands -/

/-- Element j of row i of a BF16 tile of `rows` rows of k elements at an offset of the window. -/
def tileElem (free : Nat) (st : Strand) (off rows k i j : Nat) : FVal :=
  decodeElem 1 (nth (unpackN 16 (winRead free st.win off (2 * rows * k)) (rows * k)) (i * k + j) 0)

/-- Block b of a row of BF16 elements: no scale and no outliers. -/
def elemBlock (elem : Nat → FVal) (b : Nat) : MBlock :=
  { vals := (List.range 32).map (fun m => elem (b * 32 + m)), scale := 127, outl := [] }

theorem tileBytes_bf16 (rows k : Nat) : tileBytes 1 rows k = 2 * rows * k := by
  simp only [tileBytes, fmtBits, Nat.mul_assoc 2]; omega

theorem length_unpackN (b n : Nat) (bytes : List Byte) : (unpackN b bytes n).length = n := by simp [unpackN]

/-- A BF16 tile as MMA reads it without links. -/
theorem readOperand_bf16 (free : Nat) (st : Strand) (rows k off : Nat) (hl : st.links = []) :
    readOperand free st 1 rows k off =
      { width := 0, fmt := 1, outl := [],
        codes := (List.range rows).map (fun i => (List.range k).map (fun j =>
          nth (unpackN 16 (winRead free st.win off (2 * rows * k)) (rows * k)) (i * k + j) 0)),
        scales := (List.range rows).map (fun _ => (List.range (k / 32)).map (fun _ => 127)),
        fmts := (List.range rows).map (fun _ => (List.range (k / 32)).map (fun _ => 1)) } := by
  rw [← chunks_eq_nth _ 0 (length_unpackN _ _ _), ← chunks_replicate]
  simp [readOperand, linkAt, hl, fmtScaled, tileBytes_bf16, fmtBits, List.map_const']

theorem promote_of_width_le (o : MOperand) {width : Nat} (h : width ≤ o.width) : promote o width = (o, 0) := by
  simp only [promote, h, if_true]

/-- The blocks of a row of BF16 codes. -/
theorem rowBlocks_bf16 (o : MOperand) (ho : o.outl = []) (i nb : Nat) (code : Nat → Nat) :
    rowBlocks o i ((List.range (nb * 32)).map code) ((List.range nb).map (fun _ => 127)) ((List.range nb).map (fun _ => 1)) =
      (List.range nb).map (elemBlock (fun j => decodeElem 1 (code j))) := by
  simp only [rowBlocks, List.length_map, List.length_range, blocksOf_eq_chunks, chunks_map_range, List.zip_map',
    mapIdx_map_range, ho, List.filter_nil, List.map_nil, List.map_map]
  rfl

/-- The rows of a BF16 tile are the blocks of its elements. -/
theorem operandRows_bf16 (free : Nat) (st : Strand) (rows k off : Nat) (hl : st.links = []) (hk : k / 32 * 32 = k) :
    operandRows (readOperand free st 1 rows k off) =
      (List.range rows).map (fun i => (List.range (k / 32)).map (elemBlock (tileElem free st off rows k i))) := by
  rw [readOperand_bf16 free st rows k off hl]
  simp only [operandRows, List.zip_map', mapIdx_map_range]
  refine List.map_congr_left fun i _ => ?_
  have h := rowBlocks_bf16 ⟨0, 1, [], [], [], []⟩ rfl i (k / 32) (fun j =>
    nth (unpackN 16 (winRead free st.win off (2 * rows * k)) (rows * k)) (i * k + j) 0)
  rw [hk] at h
  exact h

/-! ### One accumulator element -/

/-- The sums of R94 after m steps: one product at a time, one rounding per step. -/
def macSum (product : Nat → FVal) (init : W32) (m : Nat) : W32 :=
  (List.range m).foldl (fun x i => round32 ((f32v x).add (product i))) init

/-- One step of R94, with whether a rounding so far has overflowed (R96). -/
def macStep (acc : W32 × Bool) (x : FVal) : W32 × Bool :=
  ((accAdd acc.1 x).1, acc.2 || (accAdd acc.1 x).2)

theorem macSum_succ (product : Nat → FVal) (init : W32) (m : Nat) :
    macSum product init (m + 1) = round32 ((f32v (macSum product init m)).add (product m)) := by
  simp [macSum, List.range_succ]

/-- A block without outliers adds its products in order. -/
theorem accBlockBf16_elemBlock (r : AccRes) (x y : Nat → FVal) (b : Nat) :
    accBlockBf16 r (elemBlock x b) (elemBlock y b) =
      let z := (List.range 32).foldl (fun acc m => macStep acc ((x (b * 32 + m)).mul (y (b * 32 + m)))) (r.val, r.ovf)
      { r with val := z.1, ovf := z.2 } := by
  simp only [accBlockBf16, elemBlock, List.zip_map', mapIdx_map_range, List.filter_nil, List.foldl_nil, List.foldl_map]
  rfl

/-- The blocks of a row together add all products of the row in order. -/
theorem foldl_accBlockBf16 (x y : Nat → FVal) (init : W32) (nb : Nat) :
    (List.range nb).foldl (fun r b => accBlockBf16 r (elemBlock x b) (elemBlock y b)) ⟨init, false, 0⟩ =
      let z := (List.range (nb * 32)).foldl (fun acc m => macStep acc ((x m).mul (y m))) (init, false)
      ⟨z.1, z.2, 0⟩ := by
  induction nb with
  | zero => rfl
  | succ nb ih =>
    rw [List.range_succ, List.foldl_append, ih, Nat.succ_mul, List.range_add, List.foldl_append, List.foldl_map]
    simp only [List.foldl_cons, List.foldl_nil, accBlockBf16_elemBlock]

/-- Where no rounding of finite operands leaves the range, the steps give the sums of R94 and no overflow. -/
theorem foldl_macStep_of_finite (product : Nat → FVal) (init : W32) (k : Nat)
    (hfin : ∀ m < k, (f32v (macSum product init m)).isFin = true → (product m).isFin = true →
      (f32v (macSum product init (m + 1))).isFin = true) :
    (List.range k).foldl (fun acc m => macStep acc (product m)) (init, false) = (macSum product init k, false) := by
  induction k with
  | zero => rfl
  | succ k ih =>
    have hk := hfin k (Nat.lt_succ_self k)
    rw [List.range_succ, List.foldl_append, ih fun m hm => hfin m (Nat.lt_succ_of_lt hm)]
    simp only [List.foldl_cons, List.foldl_nil, macStep, accAdd, Bool.false_or, ← macSum_succ]
    refine Prod.ext rfl ?_
    simpa using hk

/-- An accumulator element of two BF16 rows of k elements. -/
theorem accElem_bf16 (aligned : Bool) (x y : Nat → FVal) (init : W32) (k : Nat) (hk : k / 32 * 32 = k)
    (hfin : ∀ m < k, (f32v (macSum (fun i => (x i).mul (y i)) init m)).isFin = true → ((x m).mul (y m)).isFin = true →
      (f32v (macSum (fun i => (x i).mul (y i)) init (m + 1))).isFin = true) :
    accElem true aligned init ((List.range (k / 32)).map (elemBlock x)) ((List.range (k / 32)).map (elemBlock y)) =
      ⟨macSum (fun i => (x i).mul (y i)) init k, false, 0⟩ := by
  simp only [accElem, List.zip_map', List.foldl_map, if_true, foldl_accBlockBf16, hk]
  rw [foldl_macStep_of_finite (fun i => (x i).mul (y i)) init k hfin]

/-! ### The instruction -/

/-- Row i of the accumulators from which an MMA starts. -/
def mmaStart (st : Strand) (w : W64) (i : Nat) : List W32 :=
  if fFlag w 35 then List.replicate (fN w) 0 else rowRead (nth (st.bank true).toList i []) (fCB w) (fN w)

/-- The operands of an MMA, promoted to one width. -/
def mmaOperands (free : Nat) (st : Strand) (w : W64) : MOperand × MOperand :=
  let a := readOperand free st (fFA w) 64 (fK w) (st.s[fTSA w]).toNat
  let b := readOperand free st (wbits w 36 4) (fN w) (fK w) (st.s[fTSB w]).toNat
  ((promote a (max a.width b.width)).1, (promote b (max a.width b.width)).1)

/-- What the accumulator elements of an MMA gather. -/
def mmaSums (free : Nat) (st : Strand) (w : W64) : List (List AccRes) :=
  let o := mmaOperands free st w
  (operandRows o.1).mapIdx (fun i ar => ((mmaStart st w i).zip (operandRows o.2)).map (fun p =>
    accElem (decide (o.1.fmt = 1)) (o.1.e5m2 || o.2.e5m2) p.1 ar p.2))

theorem length_mmaStart (st : Strand) (w : W64) (i : Nat) : (mmaStart st w i).length = fN w := by
  unfold mmaStart
  split
  · exact List.length_replicate
  · exact length_rowFill _ _ _

/-- The accumulator element from which an MMA starts. -/
def mmaInit (st : Strand) (w : W64) (i j : Nat) : W32 :=
  if fFlag w 35 then 0 else nth (rowRead (nth (st.bank true).toList i []) (fCB w) (fN w)) j 0

theorem nth_mmaStart (st : Strand) (w : W64) (i j : Nat) : nth (mmaStart st w i) j 0 = mmaInit st w i j := by
  unfold mmaStart mmaInit
  split
  · simp only [nth, List.getD_eq_getElem?_getD, List.getElem?_replicate]; split <;> rfl
  · rfl

/-- The strand that an MMA leaves, when it writes row i of the sums into row i of the active bank. -/
def Strand.afterMma (st : Strand) (w : W64) (row : Fin 64 → List W32) : Strand :=
  (st.setBank true (Vector.ofFn (fun i => rowWrite (st.bank true)[i] (fCB w) (row i)))).next

/-- An MMA of loaded tiles whose ranges fit and whose sums do not overflow completes with the sums. -/
theorem exec_mma_of_sums {s : State} {c : CtxId} {st : Strand} {sl : Slice} {w : W64} (h : s.Issues c 0x30 st sl w)
    (htag : (fTC w).val = 0 ∨ st.tagEmpty.getLsbD (fTC w).val = false)
    (hA : sl.Fits (st.s[fTSA w]).toNat (matBytes (fFA w) 64 (fK w)) 64)
    (hB : sl.Fits (st.s[fTSB w]).toNat (matBytes (wbits w 36 4) (fN w) (fK w)) 64)
    (hovf : (mmaSums (s.free + 1) st w).any (fun r => r.any (·.ovf)) = false) :
    ∃ t, exec (.mma c) s = .next t ∧
      s.SameBut t c (st.afterMma w (fun i => (nth (mmaSums (s.free + 1) st w) i []).map (·.val))) := by
  have hempty : (decide ((fTC w).val ≠ 0) && st.tagEmpty.getLsbD (fTC w).val) = false := by
    rcases htag with h0 | h0 <;> simp only [h0, ne_eq, not_true_eq_false, decide_false, Bool.false_and, Bool.and_false]
  have hrun : exec (.mma c) s = .next _ := congrArg Host.Outcome.next (issueOp_of_issues h _)
  simp only [hempty, Bool.false_eq_true, if_false, withRange_of_fits hA, withRange_of_fits hB] at hrun
  rw [if_neg (by rw [Bool.not_eq_true]; exact hovf)] at hrun
  exact ⟨_, hrun, sameBut_setStrand _ rfl rfl rfl rfl rfl rfl rfl rfl rfl rfl⟩

@[simp] theorem Strand.pc_afterMma (st : Strand) (w : W64) (row : Fin 64 → List W32) : (st.afterMma w row).pc = st.pc + 8 := by
  simp [Strand.afterMma, Strand.next]

@[simp] theorem Strand.bank_false_afterMma (st : Strand) (w : W64) (row : Fin 64 → List W32) :
    (st.afterMma w row).bank false = st.bank false := by
  rw [Strand.afterMma, Strand.bank_next]
  exact Strand.bank_setBank_other st true _

theorem Strand.bank_true_afterMma (st : Strand) (w : W64) (row : Fin 64 → List W32) (i : Fin 64) :
    ((st.afterMma w row).bank true)[i] = rowWrite (st.bank true)[i] (fCB w) (row i) := by
  simp [Strand.afterMma]

/-- The exact product of k = m for row i of A and row j of B, both of BF16. -/
def mmaProduct (free : Nat) (st : Strand) (w : W64) (i j m : Nat) : FVal :=
  (tileElem free st (st.s[fTSA w]).toNat 64 (fK w) i m).mul (tileElem free st (st.s[fTSB w]).toNat (fN w) (fK w) j m)

/-- The sum of R94 for element i, j after m steps. -/
def mmaAcc (free : Nat) (st : Strand) (w : W64) (i j m : Nat) : W32 :=
  macSum (mmaProduct free st w i j) (mmaInit st w i j) m

/-- Two BF16 tiles without links are not promoted. -/
theorem mmaOperands_bf16 (free : Nat) (st : Strand) (w : W64) (hfa : fFA w = 1) (hfb : wbits w 36 4 = 1) (hl : st.links = []) :
    mmaOperands free st w = (readOperand free st 1 64 (fK w) (st.s[fTSA w]).toNat,
      readOperand free st 1 (fN w) (fK w) (st.s[fTSB w]).toNat) := by
  simp only [mmaOperands, hfa, hfb]
  rw [promote_of_width_le, promote_of_width_le] <;> simp [readOperand_bf16 _ _ _ _ _ hl]

/-- The sums of an MMA of two BF16 tiles without links are those of R94, and none overflows. -/
theorem mmaSums_bf16 (free : Nat) (st : Strand) (w : W64) (hfa : fFA w = 1) (hfb : wbits w 36 4 = 1) (hl : st.links = [])
    (hfin : ∀ i < 64, ∀ j < fN w, ∀ m < fK w, (f32v (mmaAcc free st w i j m)).isFin = true →
      (mmaProduct free st w i j m).isFin = true → (f32v (mmaAcc free st w i j (m + 1))).isFin = true) :
    mmaSums free st w =
      (List.range 64).map (fun i => (List.range (fN w)).map (fun j => ⟨mmaAcc free st w i j (fK w), false, 0⟩)) := by
  have hk : fK w / 32 * 32 = fK w := by unfold fK; omega
  have hfmt : (readOperand free st 1 64 (fK w) (st.s[fTSA w]).toNat).fmt = 1 := by rw [readOperand_bf16 _ _ _ _ _ hl]
  simp only [mmaSums, mmaOperands_bf16 free st w hfa hfb hl, hfmt, operandRows_bf16 _ _ _ _ _ hl hk, mapIdx_map_range, decide_true]
  refine List.map_congr_left fun i hi => ?_
  rw [← map_nth_range (mmaStart st w i) 0 (length_mmaStart st w i), List.zip_map', List.map_map]
  refine List.map_congr_left fun j hj => ?_
  simp only [Function.comp_apply, nth_mmaStart]
  exact accElem_bf16 _ _ _ _ (fK w) hk (hfin i (List.mem_range.mp hi) j (List.mem_range.mp hj))

/-- Settles O15: the blocks of 32 in which the model sums a BF16 row are one fold over k. -/
theorem bf16MmaSumsInOrder : Obligations.Bf16MmaSumsInOrder := by
  unfold Obligations.Bf16MmaSumsInOrder
  intro s c st sl w h n k offA offB elem product start acc hfa hfb hl htag hA hB hfin
  have hsums := mmaSums_bf16 (s.free + 1) st w hfa hfb hl hfin
  have hovf : (mmaSums (s.free + 1) st w).any (fun r => r.any (·.ovf)) = false := by simp [hsums]
  obtain ⟨t, ht, hsame⟩ := exec_mma_of_sums h htag (hfa ▸ hA) (hfb ▸ hB) hovf
  refine ⟨t, _, ht, hsame, Strand.pc_afterMma .., Strand.bank_false_afterMma .., fun i => ?_⟩
  have hrow : nth (mmaSums (s.free + 1) st w) i [] = (List.range n).map (fun j => ⟨acc i j k, false, 0⟩) := by
    rw [hsums]
    exact nth_map_range _ _ i.isLt
  rw [Strand.bank_true_afterMma, hrow, List.map_map]
  rfl

end Sys2Proof.Machine
end

