-- ==== Sys2Proof/Proofs/SoftMaximum.lean ====
section
/-! SUPPORT. SMX (R128, R129): one row as the admissible terms give it, the strand that the instruction leaves, and the
completed instruction; with them the proof of O17. -/
namespace Sys2Proof.Machine

open Sys2Proof

/-! ### One row -/

/-- The scaled elements of a row that its limit admits. -/
def smxTerms (accs : List W32) (lim sigma : W32) : List W32 :=
  (accs.mapIdx (fun j a => if (FVal.ofInt j 0).lt (f32v lim) then some (f32mul a sigma) else none)).filterMap id

/-- Whether R128 makes a row NaN. -/
def smxBad (terms : List W32) (mOld : W32) : Bool := (terms ++ [mOld]).any (fun x => isNan32 x || x == inf32)

/-- The running maximum after a row. -/
def smxMax (terms : List W32) (mOld : W32) : W32 := if smxBad terms mOld then nan32 else terms.foldl f32max mOld

/-- The correction factor of a row. -/
def smxCorr (terms : List W32) (mOld : W32) : W32 :=
  if smxBad terms mOld then nan32
  else if smxMax terms mOld = ninf32 then one32
  else exp2F (f32sub mOld (smxMax terms mOld))

/-- The running sum over the converted terms of a row. -/
def smxSum (f n : Nat) (blocks : List BlockConv) (lOld corr : W32) : W32 :=
  f32fma lOld corr ((chunks 64 (n / 64) (blocks.flatMap (blockValues f))).foldl (fun acc g => f32add acc (tree64 f32add g)) 0)

theorem smxBad_eq (terms : List W32) (mOld : W32) :
    smxBad terms mOld = (terms.any (fun x => isNan32 x || x == inf32) || (isNan32 mOld || mOld == inf32)) := by
  simp only [smxBad, List.any_append, List.any_cons, List.any_nil, Bool.or_false]

theorem smxMax_of_bad {terms : List W32} {mOld : W32} (h : smxBad terms mOld = true) : smxMax terms mOld = nan32 :=
  if_pos h

theorem smxMax_of_good {terms : List W32} {mOld : W32} (h : smxBad terms mOld = false) :
    smxMax terms mOld = terms.foldl f32max mOld :=
  if_neg (Bool.eq_false_iff.mp h)

section Row
variable {f : Nat} {accs : List W32} {lim sigma mOld lOld : W32}

/-- A row with a NaN or +infinity. -/
theorem smxRow_of_bad (h : smxBad (smxTerms accs lim sigma) mOld = true) :
    smxRow f accs lim sigma mOld lOld =
      { m := nan32, l := nan32, corr := nan32, blocks := convertRow f (List.replicate accs.length nan32) (fun _ => none),
        empty := (smxTerms accs lim sigma).isEmpty, bad := true } := by
  rw [smxBad_eq] at h
  exact if_pos h

/-- A row that has admitted nothing above −infinity so far (R129). -/
theorem smxRow_of_ninf (h : smxBad (smxTerms accs lim sigma) mOld = false)
    (hm : smxMax (smxTerms accs lim sigma) mOld = ninf32) :
    smxRow f accs lim sigma mOld lOld =
      { m := smxMax (smxTerms accs lim sigma) mOld, l := lOld, corr := one32,
        blocks := convertRow f (List.replicate accs.length 0) (fun _ => none),
        empty := (smxTerms accs lim sigma).isEmpty, bad := false } := by
  rw [smxMax_of_good h] at hm ⊢
  rw [smxBad_eq] at h
  exact (if_neg (Bool.eq_false_iff.mp h)).trans (if_pos hm)

/-- A row with a maximum above −infinity: the correction factor is taken at the new maximum, the sum over the blocks. -/
theorem smxRow_of_ne_ninf (h : smxBad (smxTerms accs lim sigma) mOld = false)
    (hm : smxMax (smxTerms accs lim sigma) mOld ≠ ninf32) :
    let r := smxRow f accs lim sigma mOld lOld
    let m := smxMax (smxTerms accs lim sigma) mOld
    r.m = m ∧ r.corr = exp2F (f32sub mOld m) ∧ r.l = smxSum f accs.length r.blocks lOld r.corr := by
  rw [smxMax_of_good h] at hm ⊢
  rw [smxBad_eq] at h
  have heq : smxRow f accs lim sigma mOld lOld = _ := (if_neg (Bool.eq_false_iff.mp h)).trans (if_neg hm)
  rw [heq]
  exact ⟨rfl, rfl, rfl⟩

theorem smxRow_m : (smxRow f accs lim sigma mOld lOld).m = smxMax (smxTerms accs lim sigma) mOld := by
  cases h : smxBad (smxTerms accs lim sigma) mOld with
  | true => rw [smxRow_of_bad h, smxMax_of_bad h]
  | false =>
    by_cases hm : smxMax (smxTerms accs lim sigma) mOld = ninf32
    · rw [smxRow_of_ninf h hm]
    · obtain ⟨hmax, -, -⟩ := smxRow_of_ne_ninf (f := f) (lOld := lOld) h hm
      exact hmax

theorem smxRow_corr : (smxRow f accs lim sigma mOld lOld).corr = smxCorr (smxTerms accs lim sigma) mOld := by
  unfold smxCorr
  cases h : smxBad (smxTerms accs lim sigma) mOld with
  | true => rw [if_pos rfl, smxRow_of_bad h]
  | false =>
    rw [if_neg Bool.false_ne_true]
    by_cases hm : smxMax (smxTerms accs lim sigma) mOld = ninf32
    · rw [if_pos hm, smxRow_of_ninf h hm]
    · obtain ⟨-, hcorr, -⟩ := smxRow_of_ne_ninf (f := f) (lOld := lOld) h hm
      rw [if_neg hm, hcorr]

theorem smxRow_l_of_ne_ninf (h : smxBad (smxTerms accs lim sigma) mOld = false)
    (hm : smxMax (smxTerms accs lim sigma) mOld ≠ ninf32) :
    (smxRow f accs lim sigma mOld lOld).l =
      smxSum f accs.length (smxRow f accs lim sigma mOld lOld).blocks lOld (smxCorr (smxTerms accs lim sigma) mOld) := by
  obtain ⟨-, -, hsum⟩ := smxRow_of_ne_ninf (f := f) (lOld := lOld) h hm
  rw [hsum, smxRow_corr]

end Row

/-! ### The strand -/

theorem Strand.v_setV_same (st : Strand) (d : Fin 32) (x : Vector W32 64) : (st.setV d x).v[d] = x :=
  Vector.getElem_set_self d.isLt

theorem Strand.v_setV_other (st : Strand) (x : Vector W32 64) {d r : Fin 32} (h : r ≠ d) : (st.setV d x).v[r] = st.v[r] :=
  Vector.getElem_set_ne d.isLt r.isLt (fun hv => h (Fin.ext hv.symm))

/-- What an SMX makes of row i of the inactive bank. -/
def smxRowAt (st : Strand) (w : W64) (i : Fin 64) : SmxRow :=
  smxRow (fFN w) (rowRead (st.bank false)[i] (fSmxCB w) (fSmxN w)) (st.v[fSA w])[i] ((st.s[fSmxSigma w]).setWidth 32)
    (st.v[fSD w])[i] (st.v[fSB w])[i]

/-- The strand that an SMX of these rows leaves: the tile in the window, then the maxima, the sums and the correction
factors in their registers. -/
def Strand.afterSmx (st : Strand) (w : W64) (row : Fin 64 → SmxRow) : Strand :=
  let rows := Vector.ofFn row
  ((((st.store (st.s[fTSA w]).toNat (tileBytesOf (fFN w) (rows.toList.flatMap (·.blocks)))).setV (fSD w)
    (rows.map (·.m))).setV (fSB w) (rows.map (·.l))).setV (fVC w) (rows.map (·.corr))).next

section Writes
variable (st : Strand) {w : W64} (row : Fin 64 → SmxRow)

theorem Strand.v_corr_afterSmx : (st.afterSmx w row).v[fVC w] = Vector.ofFn (fun i => (row i).corr) :=
  (Strand.v_setV_same _ _ _).trans Vector.map_ofFn

theorem Strand.v_sum_afterSmx (h : fSB w ≠ fVC w) : (st.afterSmx w row).v[fSB w] = Vector.ofFn (fun i => (row i).l) :=
  (Strand.v_setV_other _ _ h).trans ((Strand.v_setV_same _ _ _).trans Vector.map_ofFn)

theorem Strand.v_max_afterSmx (hb : fSD w ≠ fSB w) (hc : fSD w ≠ fVC w) :
    (st.afterSmx w row).v[fSD w] = Vector.ofFn (fun i => (row i).m) :=
  (Strand.v_setV_other _ _ hc).trans ((Strand.v_setV_other _ _ hb).trans
    ((Strand.v_setV_same _ _ _).trans Vector.map_ofFn))

theorem Strand.v_other_afterSmx {r : Fin 32} (hd : r ≠ fSD w) (hb : r ≠ fSB w) (hc : r ≠ fVC w) :
    (st.afterSmx w row).v[r] = st.v[r] :=
  (Strand.v_setV_other _ _ hc).trans ((Strand.v_setV_other _ _ hb).trans (Strand.v_setV_other _ _ hd))

theorem Strand.win_afterSmx : (st.afterSmx w row).win = winWrite st.win (st.s[fTSA w]).toNat
    (tileBytesOf (fFN w) ((List.finRange 64).flatMap (fun i => (row i).blocks))) := by
  have hlist : (Vector.ofFn row).toList = (List.finRange 64).map row := Vector.toList_ofFn.trans List.map_ofFn.symm
  simp only [Strand.afterSmx, hlist, List.flatMap_map]
  rfl

end Writes

/-! ### The instruction -/

/-- An SMX whose tile fits the window completes. -/
theorem exec_smx_of_fits {s : State} {c : CtxId} {st : Strand} {sl : Slice} {w : W64} (h : s.Issues c 0x58 st sl w)
    (hfits : sl.Fits (st.s[fTSA w]).toNat (matBytes (fFN w) 64 (fSmxN w)) 1) :
    ∃ t, exec (.smx c) s = .next t ∧ s.SameBut t c (st.afterSmx w (smxRowAt st w)) := by
  have hrun : exec (.smx c) s = .next _ := congrArg Host.Outcome.next (issueOp_of_issues h _)
  simp only [withRange_of_fits hfits] at hrun
  exact ⟨_, hrun, sameBut_setStrand _ rfl rfl rfl rfl rfl rfl rfl rfl rfl rfl⟩

/-- Settles O17: each row by the cases of R128, each register by the order of the three writes. -/
theorem smxResults : Obligations.SmxResults := by
  unfold Obligations.SmxResults
  intro s c st sl w h f n off sigma mOld lOld accs terms bad mNew corr row hfits
  have hcorr : ∀ i, (row i).corr = corr i := fun _ => smxRow_corr
  have hmax : ∀ i, (row i).m = mNew i := fun _ => smxRow_m
  have hlen : ∀ i, (accs i).length = n := fun _ => length_rowFill _ _ _
  obtain ⟨t, ht, hsame⟩ := exec_smx_of_fits h hfits
  refine ⟨t, _, ht, hsame, rfl, rfl, rfl, rfl, rfl, rfl, rfl, ?_, fun hb => Strand.v_sum_afterSmx st row hb, fun hb hc => ?_,
    fun r hd hb hc => Strand.v_other_afterSmx st row hd hb hc, fun i hbad hm => ?_, Strand.win_afterSmx st row⟩
  · exact (Strand.v_corr_afterSmx st row).trans (congrArg Vector.ofFn (funext hcorr))
  · exact (Strand.v_max_afterSmx st row hb hc).trans (congrArg Vector.ofFn (funext hmax))
  · have hsum := smxRow_l_of_ne_ninf (f := f) (lOld := lOld i) hbad hm
    rw [hlen i] at hsum
    exact hsum

end Sys2Proof.Machine
end

