-- ==== Sys2Proof/Proofs/MemoryCanonical.lean ====
section
/-! SUPPORT. What every command keeps (State.Good of the next state), from the Good lemma of its meaning; with it the proof of
O3. -/
namespace Sys2Proof.Machine

open Sys2Proof

variable {FZ : FuseSt} {PQ : List Instr → Nat → Prop}

/-- The commands that reset the module and so begin the tick count again (R398, R401). -/
def restartsCount : Instr → Bool
  | .modResetN | .pwrGoodLoss | .inputRemove | .trip _ => true
  | _ => false

theorem State.count_le_nextBoundary (s : State) : s.tick.count ≤ s.nextBoundary := by
  unfold State.nextBoundary
  split <;> omega

/-- What holds of the tick count holds of the number of the coming boundary. -/
theorem State.Good.at_nextBoundary {s : State} (hup : Rises PQ) (hs : State.Good FZ PQ s) :
    State.Good FZ (fun p _ => PQ p s.nextBoundary) s := by
  obtain ⟨hfuses, hqueue, hmem⟩ := hs
  exact ⟨hfuses, hup _ _ _ s.count_le_nextBoundary hqueue, hmem⟩

/-- SLUICE keeps what a higher tick count still meets, whether the module runs or not. -/
theorem execSluice_good_of_rises {s s' : State} (env : SluiceEnv) (hup : Rises PQ) (h : execSluice env s = .next s')
    (hs : State.Good FZ PQ s) : State.Good FZ PQ s' := by
  cases hr : s.power.running with
  | true => exact execSluice_good env s h hr (hs.at_nextBoundary hup)
  | false => exact execSluice_idle_good env s h hr hs

/-- The fuses have grown from themselves. -/
theorem FuseSt.Grew.refl (f : FuseSt) : f.Grew f := ⟨rfl, rfl, rfl, rfl, rfl, BitVec.and_self⟩

/-- Every command keeps what a higher tick count still meets; one that resets the module, what a count begun again meets
too. -/
theorem exec_good {i : Instr} {s s' : State} (hup : Rises PQ) (hre : restartsCount i = true → Restarts PQ)
    (h : exec i s = .next s') (hs : State.Good FZ PQ s) : State.Good FZ PQ s' := by
  cases i with
  | sluice env => exact execSluice_good_of_rises env hup h hs
  | nop c => exact execNop_good c s h hs
  | endStrand c => exact execEndStrand_good c s h hs
  | br c => exact execBr_good c s h hs
  | loop c => exact execLoop_good c s h hs
  | mark c => exact execMark_good c s h hs
  | twait c => exact execTwait_good c s h hs
  | rdsys c => exact execRdsys_good c s h hs
  | rdlen c => exact execRdlen_good c s h hs
  | li c => exact execLi_good c s h hs
  | lih c => exact execLih_good c s h hs
  | add c => exact execAdd_good c s h hs
  | sub c => exact execSub_good c s h hs
  | mul c => exact execMul_good c s h hs
  | muli c => exact execMuli_good c s h hs
  | and c => exact execAnd_good c s h hs
  | or c => exact execOr_good c s h hs
  | xor c => exact execXor_good c s h hs
  | shl c => exact execShl_good c s h hs
  | shr c => exact execShr_good c s h hs
  | sra c => exact execSra_good c s h hs
  | min c => exact execMin_good c s h hs
  | max c => exact execMax_good c s h hs
  | divui c => exact execDivui_good c s h hs
  | remui c => exact execRemui_good c s h hs
  | tdld c => exact execTdld_good c s h hs
  | tdst c => exact execTdst_good c s h hs
  | tdoff c => exact execTdoff_good c s h hs
  | tdsz c => exact execTdsz_good c s h hs
  | tload c => exact execTload_good c s h hs
  | tloadDone c which => exact execTloadDone_good c which s h hs
  | tstore c => exact execTstore_good c s h hs
  | tacc c => exact execTacc_good c s h hs
  | kld c => exact execKld_good c s h hs
  | kst c => exact execKst_good c s h hs
  | mma c => exact execMma_good c s h hs
  | aclr c => exact execAclr_good c s h hs
  | aswap c => exact execAswap_good c s h hs
  | drain c => exact execDrain_good c s h hs
  | vld c => exact execVld_good c s h hs
  | vst c => exact execVst_good c s h hs
  | vbc c => exact execVbc_good c s h hs
  | vidx c => exact execVidx_good c s h hs
  | vext c => exact execVext_good c s h hs
  | vadd c => exact execVadd_good c s h hs
  | vsub c => exact execVsub_good c s h hs
  | vmul c => exact execVmul_good c s h hs
  | vfma c => exact execVfma_good c s h hs
  | vmax c => exact execVmax_good c s h hs
  | vmin c => exact execVmin_good c s h hs
  | vun c => exact execVun_good c s h hs
  | vcmp c => exact execVcmp_good c s h hs
  | vsel c => exact execVsel_good c s h hs
  | vred c => exact execVred_good c s h hs
  | vexp2 c => exact execVexp2_good c s h hs
  | vlog2 c => exact execVlog2_good c s h hs
  | vcvt c => exact execVcvt_good c s h hs
  | smx c => exact execSmx_good c s h hs
  | xadd c => exact execXadd_good c s h hs
  | xbind c => exact execXbind_good c s h hs
  | kvapp c => exact execKvapp_good c s h hs
  | kvwalk c => exact execKvwalk_good c s h hs
  | kvskip c => exact execKvskip_good c s h hs
  | lsend c => exact execLsend_good c s h hs
  | lrecv c => exact execLrecv_good c s h hs
  | strandTake c => exact execStrandTake_good c s h hs
  | slicePrepare t q idx => exact execSlicePrepare_good t q idx s h hs
  | breakIn j => exact execBreakIn_good j s h hs
  | emergencyThrottle tauNs => exact execEmergencyThrottle_good tauNs s h hs
  | trip cause => exact execTrip_good cause s (hre rfl) h hs
  | selftestRound => exact execSelftestRound_good s h hs
  | selftestResult core pass => exact execSelftestResult_good core pass s h hs
  | hbmRecalibrationRequest stack => exact execHbmRecalibrationRequest_good stack s h hs
  | quietWaitExpiry stack => exact execQuietWaitExpiry_good stack s h hs
  | hbmRecalibrationDone stack => exact execHbmRecalibrationDone_good stack s h hs
  | riskUpdate => exact execRiskUpdate_good s h hs
  | sramUncorrectableError site => exact execSramUncorrectableError_good site s h hs
  | hardwareFault cls unit => exact execHardwareFault_good cls unit s h hs
  | pinMigrationCopyDone t vpage => exact execPinMigrationCopyDone_good t vpage s h hs
  | stagedAccumulationDone t vpage => exact execStagedAccumulationDone_good t vpage s h hs
  | stagingCopyDone die ref => exact execStagingCopyDone_good die ref s h hs
  | panWorkDone t q => exact execPanWorkDone_good t q s h hs
  | tableSyncDone table => exact execTableSyncDone_good table s h hs
  | commandNop t q => exact execCommandNop_good t q s h hs
  | compute t q => exact execCompute_good t q s h hs
  | collective t q => exact execCollective_good t q s h hs
  | memMap t q => exact execMemMap_good t q s h hs
  | memUnmap t q => exact execMemUnmap_good t q s h hs
  | memPin t q => exact execMemPin_good t q s h hs
  | memQuery t q => exact execMemQuery_good t q s h hs
  | kvShare t q => exact execKvShare_good t q s h hs
  | kvRelease t q => exact execKvRelease_good t q s h hs
  | kvCommitDir t q => exact execKvCommitDir_good t q s h hs
  | panFill t q => exact execPanFill_good t q s h hs
  | panCopy t q => exact execPanCopy_good t q s h hs
  | panConvert t q => exact execPanConvert_good t q s h hs
  | panGather t q => exact execPanGather_good t q s h hs
  | panDigest t q => exact execPanDigest_good t q s h hs
  | imgConv t q => exact execImgConv_good t q s h hs
  | imgResize t q => exact execImgResize_good t q s h hs
  | imgPyramid t q => exact execImgPyramid_good t q s h hs
  | imgDetect t q => exact execImgDetect_good t q s h hs
  | codecOpen t q => exact execCodecOpen_good t q s h hs
  | codecDecode t q => exact execCodecDecode_good t q s h hs
  | codecEncode t q => exact execCodecEncode_good t q s h hs
  | codecClose t q => exact execCodecClose_good t q s h hs
  | codecFrameDone unit engine => exact execCodecFrameDone_good unit engine s h hs
  | ingestOpen t q => exact execIngestOpen_good t q s h hs
  | ingestBatch t q hostList => exact execIngestBatch_good t q hostList s h hs
  | ingestClose t q => exact execIngestClose_good t q s h hs
  | recordOpen t q => exact execRecordOpen_good t q s h hs
  | recordClose t q => exact execRecordClose_good t q s h hs
  | stateSecure t q => exact execStateSecure_good t q s h hs
  | stateRestore t q => exact execStateRestore_good t q s h hs
  | secureTransfer t => exact execSecureTransfer_good t s h hs
  | storageAck t datagram => exact execStorageAck_good t datagram s h hs
  | storageResendTimeout t => exact execStorageResendTimeout_good t s h hs
  | storageFailTimeout t => exact execStorageFailTimeout_good t s h hs
  | ready g m => exact execReady_good g m s h hs
  | start g m => exact execStart_good g m s h hs
  | piece g m => exact execPiece_good g m s h hs
  | counts g m => exact execCounts_good g m s h hs
  | verdict g m => exact execVerdict_good g m s h hs
  | decide g m => exact execDecide_good g m s h hs
  | verdictWaveTimeout g => exact execVerdictWaveTimeout_good g s h hs
  | collWaitExpiry t q => exact execCollWaitExpiry_good t q s h hs
  | inDoubtExpiry g => exact execInDoubtExpiry_good g s h hs
  | laneLockLoss p lane => exact execLaneLockLoss_good p lane s h hs
  | errorCountRetrain p => exact execErrorCountRetrain_good p s h hs
  | linkTrained p lanes nextSeq => exact execLinkTrained_good p lanes nextSeq s h hs
  | signalLoss p => exact execSignalLoss_good p s h hs
  | retrainTimer p => exact execRetrainTimer_good p s h hs
  | laneTestPass p lanes => exact execLaneTestPass_good p lanes s h hs
  | data p flit => exact execData_good p flit s h hs
  | control p flit => exact execControl_good p flit s hup h hs
  | retry p flit => exact execRetry_good p flit s h hs
  | idle p flit => exact execIdle_good p flit s h hs
  | retryRepeatTimer p => exact execRetryRepeatTimer_good p s h hs
  | idleTimer p => exact execIdleTimer_good p s h hs
  | ackTimeout p => exact execAckTimeout_good p s h hs
  | hello p m => exact execHello_good p m s h hs
  | helloTimer => exact execHelloTimer_good s h hs
  | neighbours p entries => exact execNeighbours_good p entries s h hs
  | neighboursTimer => exact execNeighboursTimer_good s h hs
  | view p viewSeq members => exact execView_good p viewSeq members s h hs
  | pondFormation => exact execPondFormation_good s h hs
  | tick p m => exact execTick_good p m s hup h hs
  | tickLoss => exact execTickLoss_good s h hs
  | offer p masterId distance port => exact execOffer_good p masterId distance port s h hs
  | delayReq p t1 nowNs => exact execDelayReq_good p t1 nowNs s h hs
  | delayReqTimer nowNs => exact execDelayReqTimer_good nowNs s h hs
  | delayResp p t1 t2 t3 t4 => exact execDelayResp_good p t1 t2 t3 t4 s h hs
  | credit p group count => exact execCredit_good p group count s h hs
  | countUp p tickCount => exact execCountUp_good p tickCount s h hs
  | tickPeriodChange => exact execTickPeriodChange_good s h hs
  | tickJump => exact execTickJump_good s hup h hs
  | cmdTail t q tail atNs entries => exact execCmdTail_good t q tail atNs entries s h hs
  | cplHead t q head => exact execCplHead_good t q head s h hs
  | create t q => exact execCreate_good t q s h hs
  | delete t q => exact execDelete_good t q s h hs
  | resume t q => exact execResume_good t q s h hs
  | eventCause t value => exact execEventCause_good t value s h hs
  | mbxCtrl t value => exact execMbxCtrl_good t value s h hs
  | mbxStatus t value => exact execMbxStatus_good t value s h hs
  | registerWrite t offset width value => exact execRegisterWrite_good t offset width value s h hs
  | bar2Read t offset count atNs => exact execBar2Read_good t offset count atNs s h hs
  | bar2Write t offset bytes atNs => exact execBar2Write_good t offset bytes atNs s h hs
  | bar2HoldRelease t => exact execBar2HoldRelease_good t s h hs
  | perstAssert t => exact execPerstAssert_good t s h hs
  | hotReset t => exact execHotReset_good t s h hs
  | linkDisable t => exact execLinkDisable_good t s h hs
  | dataLinkLoss t => exact execDataLinkLoss_good t s h hs
  | functionLevelReset t => exact execFunctionLevelReset_good t s h hs
  | d3hotToD0 t => exact execD3hotToD0_good t s h hs
  | request src frame atNs => exact execRequest_good src frame atNs s h hs
  | storeDone ok => exact execStoreDone_good ok s h hs
  | jdpOpen src frame atNs => exact execJdpOpen_good src frame atNs s h hs
  | close src frame atNs => exact execClose_good src frame atNs s h hs
  | poll src frame atNs => exact execPoll_good src frame atNs s h hs
  | sessionIdleExpiry session => exact execSessionIdleExpiry_good session s h hs
  | frameDeferredApply => exact execFrameDeferredApply_good s h hs
  | notify => exact execNotify_good s h hs
  | installOpen port addr datagram => exact execInstallOpen_good port addr datagram s h hs
  | installData port addr datagram => exact execInstallData_good port addr datagram s h hs
  | installAckTimer => exact execInstallAckTimer_good s h hs
  | installDigestDone => exact execInstallDigestDone_good s h hs
  | installSignatureDone => exact execInstallSignatureDone_good s h hs
  | installStatus port addr datagram => exact execInstallStatus_good port addr datagram s h hs
  | abort port addr datagram => exact execAbort_good port addr datagram s h hs
  | remove port addr datagram => exact execRemove_good port addr datagram s h hs
  | attest port addr datagram => exact execAttest_good port addr datagram s h hs
  | fwOpen port addr datagram => exact execFwOpen_good port addr datagram s h hs
  | ingestDatagram port datagram => exact execIngestDatagram_good port datagram s h hs
  | hostSampleReadDone stream slot bytes => exact execHostSampleReadDone_good stream slot bytes s h hs
  | decodeBudgetExpiry stream => exact execDecodeBudgetExpiry_good stream s h hs
  | arrivalWaitExpiry stream => exact execArrivalWaitExpiry_good stream s h hs
  | modResetN => exact execModResetN_good s (hre rfl) h hs
  | pwrGoodLoss => exact execPwrGoodLoss_good s (hre rfl) h hs
  | inputApply => exact execInputApply_good s h hs
  | inputRemove => exact execInputRemove_good s (hre rfl) h hs
  | resetRelease => exact execResetRelease_good s h hs
  | ppsIn offsetNs => exact execPpsIn_good offsetNs s h hs
  | flashSelN => exact execFlashSelN_good s h hs
  | smbStatus => exact execSmbStatus_good s h hs
  | smbStepping => exact execSmbStepping_good s h hs
  | smbSerial => exact execSmbSerial_good s h hs
  | smbModuleId => exact execSmbModuleId_good s h hs
  | smbHottest => exact execSmbHottest_good s h hs
  | smbHwFault => exact execSmbHwFault_good s h hs
  | smbSensors => exact execSmbSensors_good s h hs
  | perstDeassert t => exact execPerstDeassert_good t s h hs
  | bar0Read t offset width => exact execBar0Read_good t offset width s h hs
  | ptpSourceChange sources => exact execPtpSourceChange_good sources s h hs
  | ppsEdgeMissing => exact execPpsEdgeMissing_good s h hs
  | scrubDone => exact execScrubDone_good s h hs
  | diePinCopyDone t vpage => exact execDiePinCopyDone_good t vpage s h hs
  | correctedError site => exact execCorrectedError_good site s h hs
  | inputExcursion => exact execInputExcursion_good s h hs
  | thermalAlert sensor milliC => exact execThermalAlert_good sensor milliC s h hs
  | flashSelNRelease => exact execFlashSelNRelease_good s h hs

/-- A command keeps the canonical form of memory. -/
theorem exec_memWf {i : Instr} {s s' : State} (h : exec i s = .next s') (hs : s.MemWf) : s'.MemWf := by
  have hgood : State.Good s.fuses (fun _ _ => True) s := ⟨FuseSt.Grew.refl s.fuses, trivial, hs⟩
  obtain ⟨-, -, hmem⟩ := exec_good (fun _ _ _ _ _ => trivial) (fun _ _ _ _ => trivial) h hgood
  exact hmem

/-- Settles O3: an idle step changes nothing, and the front command keeps the canonical form. -/
theorem stepKeepsMemoryCanonical : Obligations.StepKeepsMemoryCanonical := by
  unfold Obligations.StepKeepsMemoryCanonical
  intro s s' hs h
  unfold step at h
  split at h
  · obtain rfl := Host.Outcome.next.inj h
    exact hs
  · exact exec_memWf h hs

end Sys2Proof.Machine
end

