-- ==== Sys2Proof/Proofs/AdmittedEffects.lean ====
section
/-! SUPPORT. What the checks of the queue commands leave alone while they make room and take frames (the queues and the
timebase), what the start of a command leaves alone (the bytes of memory and the cores), and the effects that a check has
staged. -/
namespace Sys2Proof.Machine

open Sys2Proof

/-! ### Making room and taking frames leaves the queues alone -/

/-- The host ports with their queues, and the timebase. -/
def State.queues (s : State) : Vector HostPort 4 × TickSt := (s.ports, s.tick)

theorem State.run_of_queues {s u : State} (h : u.queues = s.queues) (t : Fin 4) (q : Fin 64) : u.run t q = s.run t q := by
  have hports : u.ports = s.ports := congrArg Prod.fst h
  simp only [State.run, State.queue, hports]

theorem State.tick_of_queues {s u : State} (h : u.queues = s.queues) : u.tick = s.tick := congrArg Prod.snd h

@[simp] theorem State.queues_bump (s : State) (index sub n : Nat) : (s.bump index sub n).queues = s.queues := rfl

@[simp] theorem State.queues_freeFrame (s : State) (f : Nat) : (s.freeFrame f).queues = s.queues := rfl

@[simp] theorem State.queues_dropDie (s : State) (p : Nat → DieUse → Bool) : (s.dropDie p).queues = s.queues := rfl

@[simp] theorem State.queues_modPage (s : State) (t : Fin 4) (v : Nat) (f : PageEntry → PageEntry) :
    (s.modPage t v f).queues = s.queues := rfl

@[simp] theorem State.queues_dropShadow (s : State) (frame : Nat) : (s.dropShadow frame).queues = s.queues :=
  State.each_keep State.queues _ State.freeFrame (fun _ _ => rfl) s

@[simp] theorem State.queues_evictPage (s : State) (t : Fin 4) (v : Nat) : (s.evictPage t v).queues = s.queues := by
  unfold State.evictPage
  cases s.page t v with
  | none => rfl
  | some e =>
    simp only [State.queues_bump, State.queues_modPage, State.queues_dropDie]
    split <;> simp

@[simp] theorem State.queues_trimArenas (s : State) (t : Fin 4) : (s.trimArenas t).queues = s.queues :=
  State.each_keep State.queues _ State.freeFrame (fun _ _ => rfl) s

@[simp] theorem State.queues_dropKv (s : State) (f : Nat) : (s.dropKv f).queues = s.queues := by
  unfold State.dropKv
  cases s.kvRec f with
  | none => rfl
  | some k => exact State.queues_trimArenas _ k.t

@[simp] theorem State.queues_evictKv (s : State) (f : Nat) : (s.evictKv f).queues = s.queues := by
  unfold State.evictKv
  cases s.kvRec f with
  | none => rfl
  | some k =>
    refine (State.queues_dropKv _ f).trans (State.each_keep State.queues _ _ (fun u x => ?_) s)
    cases u.reachCommitted k.t (pageOf x.1) <;> rfl

theorem State.queues_evictOne {s u : State} (h : s.evictOne = some u) : u.queues = s.queues := by
  simp only [State.evictOne, Option.ite_none_left_eq_some, Option.map_eq_some_iff] at h
  obtain ⟨-, x, -, rfl⟩ := h
  split <;> simp

@[simp] theorem State.queues_evictFor (s : State) (n k : Nat) : (s.evictFor n k).queues = s.queues := by
  induction k generalizing s with
  | zero => rfl
  | succ k ih =>
    unfold State.evictFor
    split
    · rfl
    · cases h : s.evictOne with
      | none => rfl
      | some u => exact (ih u).trans (State.queues_evictOne h)

@[simp] theorem State.queues_evictPool (s : State) (n k : Nat) : (s.evictPool n k).queues = s.queues := by
  induction k generalizing s with
  | zero => rfl
  | succ k ih =>
    unfold State.evictPool
    split
    · rfl
    · cases h : s.evictOne with
      | none => rfl
      | some u => exact (ih u).trans (State.queues_evictOne h)

@[simp] theorem State.queues_roomFor (s : State) (t : Fin 4) (n : Nat) : (s.roomFor t n).queues = s.queues := by
  unfold State.roomFor State.makeRoom
  dsimp only
  split <;> simp

theorem State.queues_takeFrame {s u : State} {stack f : Nat} {use : FrameUse} (h : s.takeFrame stack use = some (f, u)) :
    u.queues = s.queues := by
  simp only [State.takeFrame, Option.ite_none_left_eq_some, Option.map_eq_some_iff, Prod.mk.injEq] at h
  obtain ⟨-, x, -, -, rfl⟩ := h
  rfl

theorem State.queues_growShadow_go {t : Fin 4} {frame stack k : Nat} {s u : State}
    (h : State.growShadow.go t frame stack k s = some u) : u.queues = s.queues := by
  induction k generalizing s with
  | zero => cases h; rfl
  | succ k ih =>
    unfold State.growShadow.go at h
    split at h
    · cases h
    · cases hf : s.takeFrame stack (.shadow t) with
      | none => simp [hf] at h
      | some x =>
        have htake := State.queues_takeFrame hf
        simp only [hf] at h
        exact (ih h).trans htake

theorem State.queues_copyShadow {s u : State} {t : Fin 4} {stack src dst : Nat}
    (h : s.copyShadow t stack src dst = some u) : u.queues = s.queues := by
  unfold State.copyShadow at h
  split at h
  · cases h; rfl
  · obtain ⟨x, hx, rfl⟩ := Option.map_eq_some_iff.mp h
    have hgrow : x.queues = s.queues := State.queues_growShadow_go hx
    exact hgrow

theorem State.queues_takeFresh {s u : State} {ref : SliceRef} {aux : Nat} {o : Nat × Bool} {p : FreshPage}
    (h : s.takeFresh ref aux o = some (p, u)) : u.queues = s.queues := by
  unfold State.takeFresh at h
  dsimp only at h
  split at h
  · cases h
  · rename_i f w hf
    have htake := State.queues_takeFrame hf
    split at h
    · simp only [Option.map_eq_some_iff, Prod.mk.injEq] at h
      obtain ⟨x, hx, -, rfl⟩ := h
      exact (State.queues_copyShadow hx).trans htake
    · cases h
      exact htake

theorem State.queues_takeFreshes {s u : State} {ref : SliceRef} {aux : Nat} {l : List (Nat × Bool)} {ps : List FreshPage}
    (h : s.takeFreshes ref aux l = some (ps, u)) : u.queues = s.queues := by
  induction l generalizing s ps with
  | nil => cases h; rfl
  | cons o r ih =>
    unfold State.takeFreshes at h
    split at h
    · cases h
    · rename_i p w hp
      simp only [Option.map_eq_some_iff, Prod.mk.injEq, Prod.exists] at h
      obtain ⟨ps', w', h, -, rfl⟩ := h
      exact (ih h).trans (State.queues_takeFresh hp)

@[simp] theorem State.queues_pinOuts (s : State) (t : Fin 4) (outs : List (Nat × Bool)) :
    (s.pinOuts t outs).queues = s.queues :=
  State.each_keep State.queues outs _ (fun u o => State.queues_modPage u t o.1 _) s

/-! ### The start of a command leaves memory's bytes and the cores alone -/

/-- The bytes of memory and the contexts of the cores. -/
def State.contents (s : State) : List Host.Cell × CoreSt := (s.mem.mem, s.cores)

theorem State.contents_stageModel (s : State) (die v : Nat) : (s.stageModel die v).contents = s.contents := by
  unfold State.stageModel
  dsimp only
  split
  · rfl
  · split <;> rfl

theorem State.contents_stageActive (s : State) : s.stageActive.contents = s.contents := by
  refine State.each_keep State.contents _ _ (fun u en => ?_) s
  exact State.each_keep State.contents _ _ (fun w v => State.contents_stageModel w _ v) u

theorem State.contents_schedule (s : State) (layer : Nat) : (s.schedule layer).contents = s.contents := by
  unfold State.schedule
  dsimp only
  split
  · rfl
  · exact State.contents_stageActive _

theorem State.contents_noteRecord (s : State) (t : Fin 4) (q : Fin 64) (r : CmdRun) :
    (s.noteRecord t q r).contents = s.contents := by
  unfold State.noteRecord
  dsimp only
  split <;> rfl

theorem State.contents_begin (s : State) (t : Fin 4) (q : Fin 64) : (s.begin t q).contents = s.contents := by
  unfold State.begin
  split
  · rfl
  · rename_i r _
    have hnote := State.contents_noteRecord s t q r
    dsimp only
    split
    · rfl
    · split
      · exact hnote
      · exact (State.contents_schedule _ _).trans hnote

@[simp] theorem State.contents_admitOp (s : State) (t : Fin 4) (q : Fin 64) (done : Bool) :
    (s.admitOp t q done).contents = s.contents := by
  have hput : (if (s.slice (opRef t q)).isSome then s else s.putOpSlice t q []).contents = s.contents := by split <;> rfl
  unfold State.admitOp
  generalize (if (s.slice (opRef t q)).isSome then s else s.putOpSlice t q []) = w at hput ⊢
  have hbegin := State.contents_begin w t q
  dsimp only
  generalize w.begin t q = x at hbegin ⊢
  exact hbegin.trans hput

/-! ### The effects that a check has staged -/

/-- The head command r of queue q of Tt, offered in u, as its check leaves it in v: the effects fx are staged behind those
that it had, and its start, failure and result words are as they were. -/
def State.Staged (u v : State) (t : Fin 4) (q : Fin 64) (r : CmdRun) (fx : List Effect) : Prop :=
  v.tick = u.tick ∧ ∃ rv, v.run t q = some rv ∧ rv.begun = r.begun ∧ rv.fail = r.fail ∧ rv.effects = r.effects ++ fx ∧
    rv.result0 = r.result0 ∧ rv.result1 = r.result1

section Staged

variable {s u v w : State} {t : Fin 4} {q : Fin 64} {r : CmdRun} {fx : List Effect}

theorem State.Staged.refl (h : u.run t q = some r) : u.Staged u t q r [] :=
  ⟨rfl, r, h, rfl, rfl, (List.append_nil _).symm, rfl, rfl⟩

theorem State.Staged.of_queues (h : u.Staged v t q r fx) (hw : w.queues = v.queues) : u.Staged w t q r fx := by
  obtain ⟨htick, rv, hrun, hrest⟩ := h
  exact ⟨(State.tick_of_queues hw).trans htick, rv, (State.run_of_queues hw t q).trans hrun, hrest⟩

/-- A change of the command's run that leaves its start, failure, effects and result words. -/
theorem State.Staged.modRun {f : CmdRun → CmdRun} (h : u.Staged v t q r fx)
    (hf : ∀ x, (f x).begun = x.begun ∧ (f x).fail = x.fail ∧ (f x).effects = x.effects ∧ (f x).result0 = x.result0 ∧
      (f x).result1 = x.result1) : u.Staged (v.modRun t q f) t q r fx := by
  obtain ⟨htick, rv, hrun, h1, h2, h3, h4, h5⟩ := h
  obtain ⟨f1, f2, f3, f4, f5⟩ := hf rv
  exact ⟨htick, f rv, by rw [State.run_modRun, hrun]; rfl, f1.trans h1, f2.trans h2, f3.trans h3, f4.trans h4, f5.trans h5⟩

theorem State.Staged.putOpSlice (h : u.Staged v t q r fx) (outs : List (Nat × Bool)) :
    u.Staged (v.putOpSlice t q outs) t q r fx :=
  h.modRun (fun _ => ⟨rfl, rfl, rfl, rfl, rfl⟩)

theorem State.Staged.modSlice (h : u.Staged v t q r fx) (f : Slice → Slice) :
    u.Staged (v.modSlice (opRef t q) f) t q r fx :=
  h.modRun (fun _ => ⟨rfl, rfl, rfl, rfl, rfl⟩)

theorem State.Staged.stage (h : u.Staged v t q r fx) (l : List Effect) : u.Staged (v.stage t q l) t q r (fx ++ l) := by
  obtain ⟨htick, rv, hrun, h1, h2, h3, h4, h5⟩ := h
  exact ⟨htick, { rv with effects := rv.effects ++ l }, by rw [State.stage, State.run_modRun, hrun]; rfl, h1, h2,
    by rw [← List.append_assoc, ← h3], h4, h5⟩

/-- The command that is offered is the run of its queue. -/
theorem State.Offered.run {op : Nat} (h : s.Offered t q op u r) : u.run t q = some r := by
  obtain ⟨-, hrun, -⟩ := h
  exact hrun

/-- A command whose check passes is admitted with the effects that the check has staged, and its start leaves memory's bytes
and the cores alone. -/
theorem State.Offered.admitted {op : Nat} {f : OpCheck} {done : Bool} (h : s.Offered t q op u r)
    (hf : f u t q r = .admitted v done) (hv : u.Staged v t q r fx) :
    u.Admitted t q (r.effects ++ fx) r.result0 r.result1 done (s.offerRow t q op f) ∧
      (s.offerRow t q op f).contents = v.contents := by
  obtain ⟨hbegun, hfail⟩ := h.fresh
  obtain ⟨htick, rv, hrun, h1, h2, h3, h4, h5⟩ := hv
  have hadm := State.offerRow_admitted h hf hrun (h1.trans hbegun) (h2.trans hfail) (congrArg TickSt.count htick)
  rw [h3, h4, h5] at hadm
  exact ⟨hadm, by rw [State.offerRow_of_admitted h hf, State.contents_admitOp]⟩

/-- Output pages that can be claimed are claimed: the check goes on with the command's slice and its fresh pages. -/
theorem State.ClaimOk.claim {outs : List (Nat × Bool)} (h : u.ClaimOk t q outs) (hrun : u.run t q = some r)
    (next : State → OpAnswer) : ∃ v, u.claim t q outs next = next v ∧ u.Staged v t q r [] := by
  obtain ⟨hpossible, hfree, hallowed, hshadow, htake⟩ := h
  obtain ⟨⟨fresh, w⟩, hw⟩ := Option.isSome_iff_exists.mp htake
  have hput := (State.Staged.refl hrun).putOpSlice outs
  have hqueues := (State.queues_takeFreshes hw).trans ((State.queues_roomFor _ t _).trans (State.queues_pinOuts _ t outs))
  refine ⟨w.modSlice (opRef t q) (fun sl => { sl with fresh := fresh }), ?_, (hput.of_queues hqueues).modSlice _⟩
  simp only [State.claim, hpossible, hfree, hallowed, hshadow, hw, Bool.not_true, Bool.or_self, Bool.false_eq_true, if_false]

end Staged

end Sys2Proof.Machine
end

