-- ==== Sys2Proof/Proofs/MappingCommands.lean ====
section
/-! SUPPORT. The mapping commands (R165, R166): when the checks of their ranges, pages and pins pass, and the admission of
each; with them the proof of O31. -/
namespace Sys2Proof.Machine

open Sys2Proof

/-! ### Ranges and pages -/

theorem mapRange_iff {a n : Nat} : mapRange a n = true ↔
    a % Config.pageBytes = 0 ∧ 1 ≤ n ∧ n ≤ 65536 ∧ a + n * Config.pageBytes ≤ Config.modelBase := by
  simp only [mapRange, Bool.and_eq_true, beq_iff_eq, decide_eq_true_eq, and_assoc]

theorem firstPage_eq_none {pages : List Nat} {ok : Nat → Bool} (h : ∀ p ∈ pages, ok p = true) :
    firstPage pages ok = none := by
  simpa [firstPage] using h

theorem firstBadFrom_eq_none {ok : Nat → Bool} {v n : Nat} (h : ∀ i < n, ok (i + v) = true) : firstBadFrom ok v n = none := by
  induction n generalizing v with
  | zero => rfl
  | succ n ih =>
    have h0 : ok v = true := by simpa using h 0 (Nat.succ_pos n)
    rw [firstBadFrom, if_pos h0]
    exact ih (fun i hi => by simpa [Nat.add_assoc, Nat.add_comm 1 v] using h (i + 1) (Nat.succ_lt_succ hi))

theorem firstBadFrom_pagesFrom {ok : Nat → Bool} {a n : Nat} (h : ∀ p ∈ pagesFrom a n, ok p = true) :
    firstBadFrom ok (pageOf a) n = none :=
  firstBadFrom_eq_none (fun i hi => h _ (List.mem_map.mpr ⟨i, List.mem_range.mpr hi, rfl⟩))

/-! ### Home frames -/

/-- Home frames are taken for the pages in their order, and the queues stay. -/
theorem State.takeHomes_pages {s u : State} {t : Fin 4} {kind target : Nat} {pages : List Nat} {fresh : List FreshPage}
    (h : s.takeHomes t kind target pages = some (fresh, u)) : fresh.map (·.vpage) = pages ∧ u.queues = s.queues := by
  induction pages generalizing s fresh with
  | nil => cases h; exact ⟨rfl, rfl⟩
  | cons v r ih =>
    unfold State.takeHomes at h
    split at h
    · cases h
    · rename_i f w hf
      simp only [Option.map_eq_some_iff, Prod.mk.injEq, Prod.exists] at h
      obtain ⟨fs, w', hrest, rfl, rfl⟩ := h
      obtain ⟨hpages, hqueues⟩ := ih hrest
      exact ⟨congrArg (v :: ·) hpages, hqueues.trans (State.queues_takeFrame hf)⟩

/-! ### The checks that pass -/

section Checks

variable {u : State} {t : Fin 4} {q : Fin 64} {r : CmdRun} {a n d kind target : Nat} {ev : Bool}

/-- MEM_MAP of a range that passes every check goes on with the home frames that it has taken. -/
theorem memMapCheck_admitted {fresh : List FreshPage} {w : State} (ha : cwn r.words 8 = a) (hn : cwn r.words 9 = n)
    (hev : (cw r.words 10).getLsbD 0 = ev) (hpinOf : pinOf (cw r.words 10) = (kind, target)) (hrange : mapRange a n = true)
    (hunmapped : ∀ p ∈ pagesFrom a n, u.page t p = none) (hpin : u.pinOk kind target = true) (hkind : kind = 2 → ev = false)
    (hquota : ev = false → n ≤ u.quota t 2 - u.stackedFixed t) (hpossible : u.stackPossible t n = true)
    (hdie : kind = 2 → u.diePinned t + n ≤ u.quota t 1) (hfree : u.outsFree t q 0 true (pagesFrom a n) = true)
    (hallowed : u.stackAllowed t n = true)
    (hw : ((u.putOpSlice t q ((pagesFrom a n).map (fun v => (v, true)))).roomFor t n).takeHomes t kind target
      (pagesFrom a n) = some (fresh, w)) :
    memMapCheck u t q r = .admitted ((w.modSlice (opRef t q) (fun sl => { sl with fresh := fresh })).stage t q
      (fresh.map (fun p => .map p.vpage p.frame ev kind target))) true := by
  have hpages : firstPage (pagesFrom a n) (fun v => (u.page t v).isNone) = none :=
    firstPage_eq_none (fun p hp => by rw [hunmapped p hp]; rfl)
  have hbadPin : ¬ (!u.pinOk kind target || (kind == 2 && ev)) = true := by simpa [hpin] using hkind
  have hshort : ¬ (!ev && decide (u.quota t 2 - u.stackedFixed t < n)) = true := by simpa using hquota
  have hdieShort : ¬ (decide (kind = 2) && decide (u.quota t 1 < u.diePinned t + n)) = true := by simpa using hdie
  unfold memMapCheck
  simp only [ha, hn, hev, hpinOf, hrange, hpages, hpossible, hfree, hallowed, hw, if_neg hbadPin, if_neg hshort,
    if_neg hdieShort, Bool.not_true, Bool.or_self, Bool.false_eq_true, if_false]

/-- MEM_UNMAP of a mapped range that no other work names passes. -/
theorem memUnmapCheck_admitted (hrange : mapRange (cwn r.words 8) (cwn r.words 9) = true)
    (hmapped : ∀ p ∈ pagesFrom (cwn r.words 8) (cwn r.words 9), (u.page t p).isSome = true)
    (hfree : u.outsFree t q 0 true (pagesFrom (cwn r.words 8) (cwn r.words 9)) = true) :
    memUnmapCheck u t q r = .admitted ((u.putOpSlice t q ((pagesFrom (cwn r.words 8) (cwn r.words 9)).map
      (fun v => (v, true)))).stage t q ((pagesFrom (cwn r.words 8) (cwn r.words 9)).map .unmap)) true := by
  unfold memUnmapCheck
  simp only [hrange, firstPage_eq_none hmapped, hfree, Bool.not_true, Bool.false_eq_true, if_false]

/-- MEM_PIN of pages that are mapped and not evicted passes within the die-store quota. -/
theorem memPinCheck_admitted (ha : cwn r.words 8 = a) (hn : cwn r.words 9 = n)
    (hpinOf : pinOf (cw r.words 10) = (kind, target))
    (hpage : ∀ p ∈ pagesFrom a n, ∃ e, u.page t p = some e ∧ e.gone = false ∧ (kind = 2 → e.evictable = false))
    (hpin : u.pinOk kind target = true)
    (hdie : kind = 2 → u.diePinned t +
      ((pagesFrom a n).filter (fun p => ((u.page t p).map (fun e => e.pinKind != 2)).getD true)).length ≤ u.quota t 1)
    (hfree : u.outsFree t q 0 true (pagesFrom a n) = true) :
    memPinCheck u t q r = .admitted ((u.putOpSlice t q ((pagesFrom a n).map (fun v => (v, true)))).stage t q
      ((pagesFrom a n).map (fun v => .pin v kind target))) true := by
  have hvalid : firstBadFrom (fun v => ((u.page t v).map (fun e => !e.gone)).getD false) (pageOf a) n = none := by
    refine firstBadFrom_pagesFrom (fun p hp => ?_)
    obtain ⟨e, he, hgone, -⟩ := hpage p hp
    simp [he, hgone]
  have hfixed : (if kind = 2 then
      firstPage (pagesFrom a n) (fun v => ((u.page t v).map (fun e => !e.evictable)).getD false) else none) = none := by
    split
    · rename_i hkind
      refine firstPage_eq_none (fun p hp => ?_)
      obtain ⟨e, he, -, hevictable⟩ := hpage p hp
      simp [he, hevictable hkind]
    · rfl
  have hdieShort : ¬ (decide (kind = 2) && decide (u.quota t 1 < u.diePinned t +
      ((pagesFrom a n).filter (fun p => ((u.page t p).map (fun e => e.pinKind != 2)).getD true)).length)) = true := by
    simpa using hdie
  unfold memPinCheck
  simp only [ha, hn, hpinOf, hvalid, hpin, hfixed, hfree, if_neg hdieShort, Bool.not_true, Bool.false_eq_true, if_false]

/-- MEM_QUERY of a range below 2^52 claims the pages that it writes. -/
theorem memQueryCheck_claims (ha : cwn r.words 8 = a) (hn : cwn r.words 9 = n) (hd : cwn r.words 10 = d)
    (halign : a % Config.pageBytes = 0) (hpos : 1 ≤ n) (hmost : n ≤ 262144) (hend : a + n * Config.pageBytes ≤ 2 ^ 52)
    (hdalign : d % 8 = 0) (hdend : d + 8 * n ≤ 2 ^ 52) (houts : (partOuts d (8 * n)).findSome? (u.outError t) = none) :
    memQueryCheck u t q r =
      u.claim t q (partOuts d (8 * n)) (fun s => .admitted (s.stage t q [.query a n d]) true) := by
  have hrange : ¬ (decide (a % Config.pageBytes ≠ 0) || decide (n < 1) || decide (262144 < n) ||
      decide (2 ^ 52 < a + n * Config.pageBytes)) = true := by
    simp only [Bool.or_eq_true, decide_eq_true_eq]
    omega
  have hdest : ¬ (decide (d % 8 ≠ 0) || decide (2 ^ 52 < d + 8 * n)) = true := by
    simp only [Bool.or_eq_true, decide_eq_true_eq]
    omega
  unfold memQueryCheck
  simp only [ha, hn, hd, if_neg hrange, if_neg hdest, houts]

end Checks

/-! ### The admissions -/

section Admissions

variable {s u : State} {t : Fin 4} {q : Fin 64} {r : CmdRun}

/-- A command whose pages are put in its slice and whose effects are then staged is admitted with them; the bytes of memory
stay. -/
theorem State.Offered.admitted_putOpSlice {op : Nat} {f : OpCheck} {outs : List (Nat × Bool)} {fx : List Effect}
    (h : s.Offered t q op u r) (hf : f u t q r = .admitted ((u.putOpSlice t q outs).stage t q fx) true) :
    u.Admitted t q (r.effects ++ fx) r.result0 r.result1 true (s.offerRow t q op f) ∧
      (s.offerRow t q op f).mem.mem = u.mem.mem := by
  obtain ⟨hadm, hcontents⟩ := h.admitted hf (((State.Staged.refl h.run).putOpSlice outs).stage fx)
  exact ⟨hadm, congrArg Prod.fst hcontents⟩

theorem State.Offered.admitted_nop (h : s.Offered t q 0x00 u r) :
    u.Admitted t q r.effects r.result0 r.result1 true (s.offerRow t q 0x00 nopCheck) ∧
      (s.offerRow t q 0x00 nopCheck).contents = u.contents := by
  obtain ⟨hadm, hcontents⟩ := h.admitted (f := nopCheck) rfl (State.Staged.refl h.run)
  rw [List.append_nil] at hadm
  exact ⟨hadm, hcontents⟩

/-- MEM_MAP is admitted with one mapping for each page that it has taken a home frame for. -/
theorem State.Offered.admitted_memMap {fresh : List FreshPage} {w : State} {pages : List Nat} {outs : List (Nat × Bool)}
    {n kind target : Nat} {ev : Bool} (h : s.Offered t q 0x10 u r)
    (hw : ((u.putOpSlice t q outs).roomFor t n).takeHomes t kind target pages = some (fresh, w))
    (hf : memMapCheck u t q r = .admitted ((w.modSlice (opRef t q) (fun sl => { sl with fresh := fresh })).stage t q
      (fresh.map (fun p => .map p.vpage p.frame ev kind target))) true) :
    u.Admitted t q (r.effects ++ fresh.map (fun p => .map p.vpage p.frame ev kind target)) r.result0 r.result1 true
      (s.offerRow t q 0x10 memMapCheck) := by
  obtain ⟨-, hqueues⟩ := State.takeHomes_pages hw
  have hput := (State.Staged.refl h.run).putOpSlice outs
  have htaken := hput.of_queues (hqueues.trans (State.queues_roomFor _ t n))
  exact (h.admitted hf ((htaken.modSlice _).stage _)).1

/-- A command that claims its output pages and then stages its effects is admitted with them. -/
theorem State.Offered.admitted_claim {op : Nat} {f : OpCheck} {outs : List (Nat × Bool)} {fx : List Effect}
    (h : s.Offered t q op u r) (hclaim : u.ClaimOk t q outs)
    (hf : f u t q r = u.claim t q outs (fun s => .admitted (s.stage t q fx) true)) :
    u.Admitted t q (r.effects ++ fx) r.result0 r.result1 true (s.offerRow t q op f) := by
  obtain ⟨v, hv, hstaged⟩ := hclaim.claim h.run (fun s => .admitted (s.stage t q fx) true)
  exact (h.admitted (hf.trans hv) (hstaged.stage fx)).1

end Admissions

/-- Settles O31: each command's check passes and stages its effects, and the command is admitted with them. -/
theorem mappingCommandsAreAdmitted : Obligations.MappingCommandsAreAdmitted := by
  unfold Obligations.MappingCommandsAreAdmitted
  intro s u t q op r h a n ev kind target pages valid free
  refine ⟨?nop, ?map, ?unmap, ?pin, ?query⟩
  case nop =>
    rintro rfl
    obtain ⟨hadm, hcontents⟩ := h.admitted_nop
    exact ⟨_, rfl, hadm, congrArg Prod.fst hcontents, congrArg Prod.snd hcontents⟩
  case map =>
    rintro rfl hvalid hunmapped hpin hkind hquota hpossible hdie hfree hallowed hhomes
    obtain ⟨⟨fresh, w⟩, hw⟩ := Option.isSome_iff_exists.mp hhomes
    have hcheck := memMapCheck_admitted (ev := ev) rfl rfl rfl rfl (mapRange_iff.mpr hvalid) hunmapped hpin hkind hquota
      hpossible hdie hfree hallowed hw
    obtain ⟨hpages, -⟩ := State.takeHomes_pages hw
    exact ⟨fresh, hpages, _, rfl, h.admitted_memMap hw hcheck⟩
  case unmap =>
    rintro rfl hvalid hmapped hfree
    exact ⟨_, rfl, h.admitted_putOpSlice (memUnmapCheck_admitted (mapRange_iff.mpr hvalid) hmapped hfree)⟩
  case pin =>
    rintro rfl hpage hpin hdie hfree
    exact ⟨_, rfl, h.admitted_putOpSlice (memPinCheck_admitted rfl rfl rfl hpage hpin hdie hfree)⟩
  case query =>
    rintro rfl halign hpos hmost hend hdalign hdend houts hclaim
    exact ⟨_, rfl, h.admitted_claim hclaim (memQueryCheck_claims rfl rfl rfl halign hpos hmost hend hdalign hdend houts)⟩

end Sys2Proof.Machine
end

