-- ==== Sys2Proof/Proofs/PanCommands.lean ====
section
/-! SUPPORT. The pan commands (R203 to R207): the fresh pages that a claim gives a command and that its admission keeps, the
writes of the pans into them, when each command's check passes, and the end of the pans' work; with them the proof of O33. -/
namespace Sys2Proof.Machine

open Sys2Proof

/-! ### The fresh pages of a command's own slice -/

/-- The fresh pages of the slice that a command which is not cut into slices runs as. -/
def State.opFresh (s : State) (t : Fin 4) (q : Fin 64) : Option (List FreshPage) := (s.slice (opRef t q)).map (·.fresh)

theorem State.opFresh_of_run {s u : State} {t : Fin 4} {q : Fin 64} (h : u.run t q = s.run t q) :
    u.opFresh t q = s.opFresh t q := by
  simp only [State.opFresh, State.slice, opRef, h]

theorem State.opFresh_of_queues {s u : State} (h : u.queues = s.queues) (t : Fin 4) (q : Fin 64) :
    u.opFresh t q = s.opFresh t q :=
  State.opFresh_of_run (State.run_of_queues h t q)

theorem State.opFresh_eq_some_iff {s : State} {t : Fin 4} {q : Fin 64} {fresh : List FreshPage} :
    s.opFresh t q = some fresh ↔ ∃ sl, s.slice (opRef t q) = some sl ∧ sl.fresh = fresh :=
  Option.map_eq_some_iff

/-- A change of a command's run that leaves its slices leaves its fresh pages. -/
theorem State.opFresh_modRun (s : State) (t : Fin 4) (q : Fin 64) {f : CmdRun → CmdRun} (hf : ∀ r, (f r).slices = r.slices) :
    (s.modRun t q f).opFresh t q = s.opFresh t q := by
  simp only [State.opFresh, State.slice, opRef, State.run_modRun]
  cases s.run t q with
  | none => rfl
  | some r => simp [CmdRun.slice, hf]

/-- A change of a command's slice that leaves its index changes its fresh pages as it changes the slice's. -/
theorem State.opFresh_modSlice (s : State) (t : Fin 4) (q : Fin 64) {f : Slice → Slice} (hf : ∀ x, (f x).idx = x.idx) :
    (s.modSlice (opRef t q) f).opFresh t q = (s.slice (opRef t q)).map (fun sl => (f sl).fresh) := by
  rw [State.opFresh, State.slice_modSlice _ _ _ hf, Option.map_map]
  rfl

theorem State.opFresh_begin {s : State} {t : Fin 4} {q : Fin 64} {r : CmdRun} (hrun : s.run t q = some r)
    (hbegun : r.begun = false) : (s.begin t q).opFresh t q = s.opFresh t q := by
  obtain ⟨r', hrun', -, -, -, -, -, hslices, -⟩ := State.begin_run hrun hbegun
  simp only [State.opFresh, State.slice, opRef, hrun, hrun', Option.bind_some, CmdRun.slice, hslices]

/-- A command is admitted with the fresh pages that its slice holds. -/
theorem State.opFresh_admitOp {s : State} {t : Fin 4} {q : Fin 64} {r : CmdRun} {fresh : List FreshPage} {done : Bool}
    (hrun : s.run t q = some r) (hbegun : r.begun = false) (hfresh : s.opFresh t q = some fresh) :
    (s.admitOp t q done).opFresh t q = some fresh := by
  have hslice : (s.slice (opRef t q)).isSome = true := by
    obtain ⟨sl, hsl, -⟩ := State.opFresh_eq_some_iff.mp hfresh
    rw [hsl]; rfl
  have hbegin : (s.begin t q).opFresh t q = some fresh := (State.opFresh_begin hrun hbegun).trans hfresh
  unfold State.admitOp
  dsimp only
  rw [if_pos hslice]
  generalize s.begin t q = x at hbegin ⊢
  refine (State.opFresh_of_run (State.run_bump _ _ _ _ t q)).trans ?_
  rw [State.opFresh_modRun, State.opFresh_modSlice]
  · exact hbegin
  · exact fun _ => rfl
  · exact fun _ => rfl

/-! ### Frames that are taken read zero -/

/-- Every byte of a frame is zero. -/
def State.FrameZero (s : State) (f : Nat) : Prop := ∀ i < Config.pageBytes, s.pbyte (f * Config.pageBytes + i) = 0

/-- A frame that is taken is zero-filled, and every other byte stays. -/
theorem State.pbyte_takeFrame {s u : State} {stack f : Nat} {use : FrameUse} (h : s.takeFrame stack use = some (f, u))
    (a : Nat) : u.pbyte a = if f * Config.pageBytes ≤ a ∧ a < (f + 1) * Config.pageBytes then 0 else s.pbyte a := by
  simp only [State.takeFrame, Option.ite_none_left_eq_some, Option.map_eq_some_iff, Prod.mk.injEq] at h
  obtain ⟨-, x, -, rfl, rfl⟩ := h
  exact memRead_memZero _ _ _ a

theorem State.frameZero_takeFrame {s u : State} {stack f : Nat} {use : FrameUse} (h : s.takeFrame stack use = some (f, u)) :
    u.FrameZero f := by
  intro i hi
  rw [State.pbyte_takeFrame h, if_pos]
  rw [Nat.succ_mul]
  omega

theorem State.FrameZero.takeFrame {s u : State} {stack f g : Nat} {use : FrameUse} (hg : s.FrameZero g)
    (h : s.takeFrame stack use = some (f, u)) : u.FrameZero g := by
  intro i hi
  rw [State.pbyte_takeFrame h, hg i hi, ite_self]

/-- A fresh page lies on a frame that has been taken for it; one that is written whole is no copy of the page. -/
theorem State.takeFresh_eq_some {s u : State} {ref : SliceRef} {aux : Nat} {o : Nat × Bool} {p : FreshPage}
    (h : s.takeFresh ref aux o = some (p, u)) : p.vpage = o.1 ∧ ∃ w,
      s.takeFrame (s.freshStack ref.t o.1) (.fresh ref.t o.1) = some (p.frame, w) ∧ (o.2 = true → u = w) := by
  unfold State.takeFresh at h
  dsimp only at h
  split at h
  · cases h
  · rename_i f w hf
    split at h
    · rename_i hpart _
      simp only [Option.map_eq_some_iff, Prod.mk.injEq] at h
      obtain ⟨x, -, rfl, -⟩ := h
      exact ⟨rfl, w, hf, fun hwhole => absurd (hpart.symm.trans hwhole) Bool.false_ne_true⟩
    · cases h
      exact ⟨rfl, u, hf, fun _ => rfl⟩

theorem State.takeFreshes_pages {s u : State} {ref : SliceRef} {aux : Nat} {outs : List (Nat × Bool)}
    {fresh : List FreshPage} (h : s.takeFreshes ref aux outs = some (fresh, u)) :
    fresh.map (·.vpage) = outs.map (·.1) := by
  induction outs generalizing s fresh with
  | nil => cases h; rfl
  | cons o r ih =>
    unfold State.takeFreshes at h
    split at h
    · cases h
    · rename_i p w hp
      simp only [Option.map_eq_some_iff, Prod.mk.injEq, Prod.exists] at h
      obtain ⟨ps, x, hrest, rfl, rfl⟩ := h
      obtain ⟨hpage, -⟩ := State.takeFresh_eq_some hp
      simp only [List.map_cons, hpage, ih hrest]

/-- Pages that are all written whole are taken zero-filled, and frames that were zero stay zero. -/
theorem State.takeFreshes_zero {s u : State} {ref : SliceRef} {aux : Nat} {outs : List (Nat × Bool)}
    {fresh : List FreshPage} (h : s.takeFreshes ref aux outs = some (fresh, u)) (hwhole : ∀ o ∈ outs, o.2 = true) :
    (∀ p ∈ fresh, u.FrameZero p.frame) ∧ ∀ g, s.FrameZero g → u.FrameZero g := by
  induction outs generalizing s fresh with
  | nil => cases h; exact ⟨fun p hp => absurd hp List.not_mem_nil, fun g hg => hg⟩
  | cons o r ih =>
    obtain ⟨ho, hr⟩ := List.forall_mem_cons.mp hwhole
    unfold State.takeFreshes at h
    split at h
    · cases h
    · rename_i p w hp
      simp only [Option.map_eq_some_iff, Prod.mk.injEq, Prod.exists] at h
      obtain ⟨ps, x, hrest, rfl, rfl⟩ := h
      obtain ⟨-, w', htake, hw⟩ := State.takeFresh_eq_some hp
      obtain rfl := hw ho
      obtain ⟨hzero, hkept⟩ := ih hrest hr
      exact ⟨List.forall_mem_cons.mpr ⟨hkept _ (State.frameZero_takeFrame htake), hzero⟩,
        fun g hg => hkept g (hg.takeFrame htake)⟩

/-! ### What the claim of output pages leaves -/

/-- The pages of a list of output entries that all say the same of how much of a page is written. -/
theorem map_fst_outs (pages : List Nat) (whole : Bool) : (pages.map (fun v => (v, whole))).map (·.1) = pages := by
  simp [Function.comp_def]

/-- The head command r of queue q of Tt, offered in u, as the claim of its output pages leaves it in v: nothing is staged, and
its slice holds a fresh page for each output page; they are zero where all are written whole. -/
structure State.Claimed (u v : State) (t : Fin 4) (q : Fin 64) (r : CmdRun) (outs : List (Nat × Bool))
    (fresh : List FreshPage) : Prop where
  staged : u.Staged v t q r []
  opFresh : v.opFresh t q = some fresh
  pages : fresh.map (·.vpage) = outs.map (·.1)
  zero : (∀ o ∈ outs, o.2 = true) → ∀ p ∈ fresh, v.FrameZero p.frame

section Claims

variable {s u v w x : State} {t : Fin 4} {q : Fin 64} {r : CmdRun} {outs : List (Nat × Bool)} {fresh : List FreshPage}

theorem State.Staged.trans {fx fy : List Effect} (h : u.Staged v t q r fx)
    (h' : ∀ rv, v.run t q = some rv → v.Staged w t q rv fy) : u.Staged w t q r (fx ++ fy) := by
  obtain ⟨htick, rv, hrun, hbegun, hfail, heffects, h0, h1⟩ := h
  obtain ⟨htick', rw_, hrun', hbegun', hfail', heffects', h0', h1'⟩ := h' rv hrun
  exact ⟨htick'.trans htick, rw_, hrun', hbegun'.trans hbegun, hfail'.trans hfail,
    by rw [heffects', heffects, List.append_assoc], h0'.trans h0, h1'.trans h1⟩

/-- A claim that takes its frames goes on with them in the command's slice. -/
theorem State.claim_of_takeFreshes (h : x.ClaimOk t q outs) : ∃ (y w : State) (fresh : List FreshPage),
    y.takeFreshes (opRef t q) (y.auxStack t outs) outs = some (fresh, w) ∧ y.queues = (x.putOpSlice t q outs).queues ∧
      ∀ next, x.claim t q outs next = next (w.modSlice (opRef t q) (fun sl => { sl with fresh := fresh })) := by
  obtain ⟨hpossible, hfree, hallowed, hshadow, htake⟩ := h
  obtain ⟨⟨fresh, w⟩, hw⟩ := Option.isSome_iff_exists.mp htake
  refine ⟨_, w, fresh, hw, (State.queues_roomFor _ t _).trans (State.queues_pinOuts _ t outs), fun next => ?_⟩
  simp only [State.claim, hpossible, hfree, hallowed, hshadow, hw, Bool.not_true, Bool.or_self, Bool.false_eq_true, if_false]

/-- Output pages that can be claimed, where what the check did before has staged nothing, are claimed. -/
theorem State.ClaimOk.claimed (h : x.ClaimOk t q outs) (hx : u.Staged x t q r []) :
    ∃ v fresh, u.Claimed v t q r outs fresh ∧ ∀ next, x.claim t q outs next = next v := by
  obtain ⟨-, rx, hrun, -⟩ := id hx
  obtain ⟨y, w, fresh, htake, hqueues, hnext⟩ := State.claim_of_takeFreshes h
  obtain ⟨v, hv, hstaged⟩ := h.claim hrun (fun y => .admitted y false)
  obtain rfl : _ = v := (OpAnswer.admitted.inj ((hnext _).symm.trans hv)).1
  refine ⟨_, fresh, ⟨hx.trans (fun rv hrv => ?_), ?_, State.takeFreshes_pages htake, fun hwhole p hp => ?_⟩, hnext⟩
  · obtain rfl := Option.some.inj (hrun.symm.trans hrv)
    exact hstaged
  · have hslice : (w.slice (opRef t q)).isSome = true := by
      simp only [State.slice, State.run_of_queues ((State.queues_takeFreshes htake).trans hqueues)]
      exact State.putOpSlice_slice hrun outs
    obtain ⟨sl, hsl⟩ := Option.isSome_iff_exists.mp hslice
    rw [State.opFresh_modSlice, hsl, Option.map_some]
    exact fun _ => rfl
  · exact (State.takeFreshes_zero htake hwhole).1 p hp

/-- Work of the pans that leaves the queues alone keeps what the claim has given the command. -/
theorem State.Claimed.staged_of_queues (h : u.Claimed v t q r outs fresh) (hw : w.queues = v.queues) :
    u.Staged w t q r [] ∧ w.opFresh t q = some fresh :=
  ⟨h.staged.of_queues hw, (State.opFresh_of_queues hw t q).trans h.opFresh⟩

/-- A command whose check passes with fresh pages in its slice is admitted with them; its start leaves memory's bytes alone. -/
theorem State.Offered.admitted_fresh {op : Nat} {f : OpCheck} {done : Bool} (h : s.Offered t q op u r)
    (hf : f u t q r = .admitted w done) (hw : u.Staged w t q r []) (hfresh : w.opFresh t q = some fresh) :
    u.Admitted t q r.effects r.result0 r.result1 done (s.offerRow t q op f) ∧
      (s.offerRow t q op f).mem.mem = w.mem.mem ∧
      ∃ sl, (s.offerRow t q op f).slice (opRef t q) = some sl ∧ sl.fresh = fresh := by
  obtain ⟨hadm, hcontents⟩ := h.admitted hf hw
  rw [List.append_nil] at hadm
  refine ⟨hadm, congrArg Prod.fst hcontents, State.opFresh_eq_some_iff.mp ?_⟩
  obtain ⟨hbegun, -⟩ := h.fresh
  obtain ⟨-, rw_, hrun, hbegun', -⟩ := hw
  rw [State.offerRow_of_admitted h hf]
  exact State.opFresh_admitOp hrun (hbegun'.trans hbegun) hfresh

/-- A command that claims its output pages in x, and whose work then leaves the queues alone, is admitted with those pages. -/
theorem State.Offered.admitted_work {op : Nat} {f : OpCheck} {work : State → State} (h : s.Offered t q op u r)
    (hx : u.Staged x t q r []) (hclaim : x.ClaimOk t q outs)
    (hf : f u t q r = x.claim t q outs (fun y => .admitted (work y) false)) (hwork : ∀ y, (work y).queues = y.queues) :
    ∃ v sl, s.offerRow t q op f = v ∧ u.Admitted t q r.effects r.result0 r.result1 false v ∧
      v.slice (opRef t q) = some sl ∧ sl.fresh.map (·.vpage) = outs.map (·.1) := by
  obtain ⟨y, fresh, hy, hnext⟩ := hclaim.claimed hx
  obtain ⟨hstaged, hfresh⟩ := hy.staged_of_queues (hwork y)
  obtain ⟨hadm, -, sl, hsl, rfl⟩ := h.admitted_fresh (hf.trans (hnext _)) hstaged hfresh
  exact ⟨_, sl, rfl, hadm, hsl, hy.pages⟩

theorem State.Staged.pinFrames (h : u.Staged v t q r []) (frames : List Nat) : u.Staged (v.pinFrames t q frames) t q r [] :=
  h.modRun (fun _ => ⟨rfl, rfl, rfl, rfl, rfl⟩)

theorem State.Staged.pinReads (h : u.Staged v t q r []) (pages : List Nat) : u.Staged (v.pinReads t q pages) t q r [] :=
  (h.of_queues (State.each_keep State.queues pages (fun y => y.touch t) (fun _ _ => rfl) v)).pinFrames _

end Claims

/-! ### Writing into fresh pages leaves the queues alone -/

@[simp] theorem State.queues_writeVia (s : State) (frameOf : Nat → Option Nat) (a : Nat) (bs : List Byte) :
    (s.writeVia frameOf a bs).queues = s.queues := by
  induction bs generalizing s a with
  | nil => rfl
  | cons b bs ih =>
    unfold State.writeVia
    rw [ih]
    split <;> rfl

@[simp] theorem State.queues_narrowPage (s : State) (f v a n : Nat) : (s.narrowPage f v a n).queues = s.queues := by
  unfold State.narrowPage
  cases kget s.mem.shadows f with
  | none => rfl
  | some l =>
    dsimp only
    split
    · exact State.queues_dropShadow s f
    · rfl

@[simp] theorem State.queues_narrow (s : State) (frameOf : Nat → Option Nat) (a n : Nat) :
    (s.narrow frameOf a n).queues = s.queues := by
  refine State.each_keep State.queues _ _ (fun u v => ?_) s
  cases frameOf v with
  | none => rfl
  | some f => exact State.queues_narrowPage u f v a n

@[simp] theorem State.queues_writeFresh (s : State) (t : Fin 4) (q : Fin 64) (a : Nat) (bs : List Byte) :
    (s.writeFresh t q a bs).queues = s.queues := by
  unfold State.writeFresh
  split <;> simp

@[simp] theorem State.queues_copyIn (s : State) (t : Fin 4) (q : Fin 64) (src dst : List Nat) :
    (s.copyIn t q src dst).queues = s.queues := by
  unfold State.copyIn
  split
  · rfl
  · refine State.each_keep State.queues _ _ (fun u x => ?_) s
    split <;> rfl

@[simp] theorem State.queues_countBlocks (s : State) (f : Nat) (bs : List BlockConv) :
    (s.countBlocks f bs).queues = s.queues := rfl

@[simp] theorem State.queues_countT2 (s : State) (t : Fin 4) (a : BitVec 512) (x : Nat × Nat × Nat) :
    (s.countT2 t a x).queues = s.queues := by
  unfold State.countT2
  split <;> rfl

@[simp] theorem State.queues_convertRowTo (s : State) (t : Fin 4) (q : Fin 64) (a d : BitVec 512) (x : Nat × Nat × Nat) :
    (s.convertRowTo t q a d x).queues = s.queues := by
  unfold State.convertRowTo
  dsimp only
  split <;> simp

/-! ### What a gather writes -/

/-- A gather stops before a record that does not fit its limit. -/
theorem State.length_gather_le (s : State) (z : Seq) (limit h0 p0 : Nat) (pes : List ((Nat × Nat) × Option (Nat × W64))) :
    (s.gather z limit h0 p0 pes).bytes.length ≤ limit := by
  unfold State.gather
  refine List.foldlRecOn (motive := fun g : Gathered => g.bytes.length ≤ limit) pes _ (Nat.zero_le limit)
    (fun g hg x _ => ?_)
  split
  · exact hg
  · split
    · split
      · dsimp only
        split
        · exact hg
        · simp only [List.length_append]
          omega
      · exact hg
    · exact hg

/-! ### The checks that pass -/

@[simp] theorem RangeCheck.then_ok (operand : Nat) (next : OpAnswer) : RangeCheck.ok.then operand next = next := rfl

section Checks

variable {u : State} {t : Fin 4} {q : Fin 64} {r : CmdRun} {a d n : Nat}

/-- PAN_FILL of writable pages claims them. -/
theorem panFillCheck_claims (ha : cwn r.words 8 = a) (hd : cwn r.words 9 = d) (halign : a % Config.pageBytes = 0)
    (hpos : 1 ≤ d) (hmost : d ≤ 65536) (hdest : u.panDest t false (pagesFrom a d) = .ok) (hscrub : cwn r.words 10 ≤ 1) :
    panFillCheck u t q r = u.claim t q ((pagesFrom a d).map (fun v => (v, true))) (fun s => .admitted s false) := by
  have hcount : ¬ (decide (d < 1) || decide (65536 < d)) = true := by
    simp only [Bool.or_eq_true, decide_eq_true_eq]
    omega
  unfold panFillCheck
  simp only [ha, hd, hdest, RangeCheck.then_ok, if_neg hcount, if_neg (not_not_intro halign), if_neg (Nat.not_lt.mpr hscrub)]

/-- PAN_COPY between ranges that do not overlap pins its source and claims its destination. -/
theorem panCopyCheck_claims (ha : cwn r.words 8 = a) (hd : cwn r.words 9 = d) (hn : cwn r.words 10 = n)
    (halign : a % Config.pageBytes = 0) (hdalign : d % Config.pageBytes = 0) (hpos : 1 ≤ n) (hmost : n ≤ 65536)
    (hsource : u.panSource t (pagesFrom a n) = .ok) (hapart : a + n * Config.pageBytes ≤ d ∨ d + n * Config.pageBytes ≤ a)
    (hdest : u.panDest t true (pagesFrom d n) = .ok) :
    panCopyCheck u t q r = (u.pinReads t q (pagesFrom a n)).claim t q ((pagesFrom d n).map (fun v => (v, true)))
      (fun s => .admitted (s.copyIn t q (pagesFrom a n) (pagesFrom d n)) false) := by
  have hcount : decide (1 ≤ n ∧ n ≤ 65536) = true := decide_eq_true ⟨hpos, hmost⟩
  have hoverlap : ¬ (decide (a < d + n * Config.pageBytes) && decide (d < a + n * Config.pageBytes)) = true := by
    simp only [Bool.and_eq_true, decide_eq_true_eq]
    omega
  unfold panCopyCheck
  simp only [ha, hd, hn, hcount, hsource, hdest, RangeCheck.then_ok, if_neg (not_not_intro halign),
    if_neg (not_not_intro hdalign), if_neg hoverlap, Bool.not_true, Bool.false_eq_true, if_true, if_false]

/-- PAN_CONVERT between tensors of one shape, of formats that it converts, pins its source and claims its destination. -/
theorem panConvertCheck_claims {x y : BitVec 512} (ha : cwn r.words 8 = a) (hd : cwn r.words 9 = d)
    (hx : BitVec.ofNat 512 (u.numT t a 64) = x) (hy : BitVec.ofNat 512 (u.numT t d 64) = y)
    (hread : ∀ p ∈ [a, d], (pagesOf p 64).any u.modelGone = false ∧ p % 64 = 0 ∧ u.checkT t p 64 = none)
    (hxvalid : descValid x = true) (hyvalid : descValid y = true) (hxlen : dLenEn x = false) (hylen : dLenEn y = false)
    (hrank : dRank x = dRank y) (hsize : ∀ i < 4, dSize x i = dSize y i) (hpair : convertPair (dFmt x) (dFmt y) = true)
    (hsource : u.panSource t (pagesOfRanges (tensorRanges x)) = .ok)
    (hdest : u.panDest t false (pagesOfRanges (tensorRanges y)) = .ok) :
    panConvertCheck u t q r = (u.pinReads t q (pagesOfRanges (tensorRanges x))).claim t q
      ((pagesOfRanges (tensorRanges y)).map (fun v => (v, false)))
      (fun s => .admitted (s.each (tensorRows x) (fun s i => s.convertRowTo t q x y i)) false) := by
  obtain ⟨⟨hapresent, haalign, hacheck⟩, hdpresent, hdalign, hdcheck⟩ :=
    (List.forall_mem_cons.mp hread).imp_right List.forall_mem_singleton.mp
  have hshape : (dRank x == dRank y && (List.range 4).all (fun i => dSize x i == dSize y i)) = true := by
    simpa [hrank] using hsize
  unfold panConvertCheck
  simp only [ha, hd, hx, hy, List.find?_cons, List.find?_nil, hapresent, hdpresent, haalign, hdalign, hacheck, hdcheck,
    hxvalid, hyvalid, hxlen, hylen, hshape, hpair, hsource, hdest, RangeCheck.then_ok, Option.isNone_none, decide_true,
    Bool.and_self, Bool.not_true, Bool.or_self, Bool.false_eq_true, if_false]

/-- The search of page entries for a fault finds none where every valid entry is free of it. -/
theorem findSome_valid_eq_none {pes : List ((Nat × Nat) × Option (Nat × W64))} {bad : W64 → Bool}
    (h : ∀ x ∈ pes, ∀ y, x.2 = some y → peValid y.2 = true → bad y.2 = false) :
    pes.findSome? (fun x => x.2.bind (fun y => if peValid y.2 && bad y.2 then some y.1 else none)) = none := by
  refine List.findSome?_eq_none_iff.mpr (fun x hx => Option.bind_eq_none_iff.mpr (fun y hy => if_neg ?_))
  intro hbad
  obtain ⟨hvalid, hfault⟩ := Bool.and_eq_true_iff.mp hbad
  exact Bool.false_ne_true ((h x hx y hy hvalid).symm.trans hfault)

/-- PAN_GATHER of heads and pages of a sequence, no frame of them evicted or failed, pins the frames and claims its
destination. -/
theorem panGatherCheck_claims {z : Seq} {h0 nh p0 : Nat} {pes : List ((Nat × Nat) × Option (Nat × W64))} {g : Gathered}
    (hz : u.seqAt t (cwn r.words 8) = .ok z) (hh0 : wbits (cw r.words 9) 48 16 = h0) (hnh : wbits (cw r.words 9) 32 16 = nh)
    (hp0 : wbits (cw r.words 9) 0 32 = p0) (hn : cwn r.words 10 = n)
    (hpes : ((List.range nh).flatMap (fun i => (List.range n).map (fun j => (h0 + i, p0 + j)))).map
      (fun hp => (hp, u.peAt t (cwn r.words 8) z hp)) = pes)
    (hg : u.gather z (cwn r.words 12) h0 p0 pes = g) (hheads : h0 + nh ≤ z.heads) (hfirst : p0 < z.slots * 512)
    (hlast : p0 + n ≤ z.slots * 512) (halign : cwn r.words 11 % 64 = 0)
    (hsound : ∀ x ∈ pes, ∀ y, x.2 = some y → peValid y.2 = true →
      peEvicted y.2 = false ∧ u.frameFailed (peFrame y.2 / 32) = false)
    (hdest : u.panDest t false ((partOuts (cwn r.words 11) g.bytes.length).map (·.1)) = .ok) :
    panGatherCheck u t q r = (u.pinFrames t q (kvPins pes)).claim t q (partOuts (cwn r.words 11) g.bytes.length)
      (fun s => .admitted ((s.writeFresh t q (cwn r.words 11) g.bytes).results t q g.bytes.length
        (g.head * 2 ^ 48 + g.page)) false) := by
  have hrange : ¬ (decide (z.heads < h0 + nh) || decide (z.slots * 512 ≤ p0)) = true := by
    simp only [Bool.or_eq_true, decide_eq_true_eq]
    omega
  have hheld := findSome_valid_eq_none (bad := peEvicted) (fun x hx y hy hvalid => (hsound x hx y hy hvalid).1)
  have hwhole := findSome_valid_eq_none (bad := fun e => u.frameFailed (peFrame e / 32))
    (fun x hx y hy hvalid => (hsound x hx y hy hvalid).2)
  unfold panGatherCheck
  simp only [hz, hh0, hnh, hp0, hn, hpes, hg, hheld, hwhole, hdest, RangeCheck.then_ok, if_neg hrange,
    if_neg (Nat.not_lt.mpr hlast), if_neg (not_not_intro halign)]

/-- The pages that PAN_DIGEST writes with the digests of n bytes' leaves: none where it writes no leaves. -/
def leafOuts (leafD n : Nat) : List (Nat × Bool) := if leafD = 0 then [] else partOuts leafD (32 * ceilDiv n 1048576)

/-- The digests that PAN_DIGEST writes: the root at d, and the leaves where it writes them (R206). -/
def State.writeDigests (s : State) (t : Fin 4) (q : Fin 64) (a n key d leafD : Nat) : State :=
  let m := s.readT t a n
  let w := s.writeFresh t q d (treeDigest m key)
  if leafD = 0 then w else w.writeFresh t q leafD (treeLeaves (ceilDiv n 1048576) 0 m).flatten

@[simp] theorem State.queues_writeDigests (s : State) (t : Fin 4) (q : Fin 64) (a n key d leafD : Nat) :
    (s.writeDigests t q a n key d leafD).queues = s.queues := by
  unfold State.writeDigests
  dsimp only
  split <;> simp

/-- PAN_DIGEST of a range that can be read pins it and claims the pages of the digest and of the leaves. -/
theorem panDigestCheck_claims {leafD : Nat} (ha : cwn r.words 8 = a) (hn : cwn r.words 9 = n) (hd : cwn r.words 11 = d)
    (hl : cwn r.words 12 = leafD) (hmost : n ≤ 2 ^ 40) (hread : n ≠ 0 → u.checkT t a n = none) (halign : d % 32 = 0)
    (hlalign : leafD % 32 = 0) (hdest : u.panDest t false ((partOuts d 32).map (·.1)) = .ok)
    (hldest : u.panDest t false ((leafOuts leafD n).map (·.1)) = .ok) :
    panDigestCheck u t q r = (u.pinReads t q (pagesOf a n)).claim t q (partOuts d 32 ++ leafOuts leafD n).eraseDups
      (fun s => .admitted (s.writeDigests t q a n (cwn r.words 10) d leafD) false) := by
  have hcheck : (if n = 0 then none else u.checkT t a n) = none := by
    split
    · rfl
    · exact hread ‹_›
  unfold leafOuts at hldest ⊢
  unfold panDigestCheck
  simp only [ha, hn, hd, hl, hcheck, hdest, hldest, RangeCheck.then_ok, if_neg (Nat.not_lt.mpr hmost),
    if_neg (not_not_intro halign), if_neg (not_not_intro hlalign), State.writeDigests]

end Checks

/-! ### The admissions -/

section Admissions

variable {s u x : State} {t : Fin 4} {q : Fin 64} {r : CmdRun}

/-- PAN_FILL is admitted with zero pages. -/
theorem State.Offered.admitted_panFill {pages : List Nat} (h : s.Offered t q 0x20 u r)
    (hclaim : u.ClaimOk t q (pages.map (fun v => (v, true))))
    (hf : panFillCheck u t q r = u.claim t q (pages.map (fun v => (v, true))) (fun s => .admitted s false)) :
    ∃ v sl, exec (.panFill t q) s = .next v ∧ u.Admitted t q r.effects r.result0 r.result1 false v ∧
      v.slice (opRef t q) = some sl ∧ sl.fresh.map (·.vpage) = pages ∧ ∀ p ∈ sl.fresh, v.FrameZero p.frame := by
  obtain ⟨y, fresh, hy, hnext⟩ := hclaim.claimed (State.Staged.refl h.run)
  obtain ⟨hadm, hmem, sl, hsl, rfl⟩ := h.admitted_fresh (hf.trans (hnext _)) hy.staged hy.opFresh
  have hwhole : ∀ o ∈ pages.map (fun v => (v, true)), o.2 = true := by simp
  refine ⟨_, sl, rfl, hadm, hsl, hy.pages.trans (map_fst_outs _ _), fun p hp i hi => ?_⟩
  rw [State.pbyte, hmem]
  exact hy.zero hwhole p hp i hi

/-- PAN_GATHER is admitted with the bytes that it has written and the place that it has reached in its result words. -/
theorem State.Offered.admitted_panGather {outs : List (Nat × Bool)} {d a b : Nat} {bs : List Byte}
    (h : s.Offered t q 0x23 u r) (hx : u.Staged x t q r []) (hclaim : x.ClaimOk t q outs)
    (hf : panGatherCheck u t q r =
      x.claim t q outs (fun y => .admitted ((y.writeFresh t q d bs).results t q a b) false)) :
    ∃ v, exec (.panGather t q) s = .next v ∧
      u.Admitted t q r.effects (BitVec.ofNat 64 a) (BitVec.ofNat 64 b) false v := by
  obtain ⟨y, fresh, hy, hnext⟩ := hclaim.claimed hx
  obtain ⟨⟨htick, rw_, hrun, hbegun', hfail', heffects, -⟩, -⟩ := hy.staged_of_queues (y.queues_writeFresh t q d bs)
  obtain ⟨hbegun, hfail⟩ := h.fresh
  have hresults : ((y.writeFresh t q d bs).results t q a b).run t q =
      some { rw_ with result0 := BitVec.ofNat 64 a, result1 := BitVec.ofNat 64 b } := by
    rw [State.results, State.run_modRun, hrun]
    rfl
  have hadm := State.offerRow_admitted h (hf.trans (hnext _)) hresults (hbegun'.trans hbegun) (hfail'.trans hfail)
    (congrArg TickSt.count htick)
  rw [List.append_nil] at heffects
  exact ⟨_, rfl, heffects ▸ hadm⟩

end Admissions

/-! ### The end of the pans' work -/

section WorkDone

variable {s : State} {t : Fin 4} {q : Fin 64} {r : CmdRun}

/-- The pans' report marks a running command as done where no read-back finds a byte that is not zero. -/
theorem exec_panWorkDone_of_clean (hrun : s.run t q = some r) (hbegun : r.begun = true) (hop : r.isOp = true)
    (hpans : r.onPans = true) (hclean : r.scrubs = false ∨ s.dirtyByte (r.slices.flatMap (·.fresh)) = none) :
    exec (.panWorkDone t q) s = .next (s.modRun t q (fun r => { r with opDone := true })) := by
  have hfound : (if r.scrubs then (s.modRun t q (fun r => { r with opDone := true })).dirtyByte
      (r.slices.flatMap (·.fresh)) else none) = none := by
    rcases hclean with hplain | hzero
    · rw [hplain]; rfl
    · exact (congrArg (fun o => if r.scrubs then o else none) hzero).trans (ite_self none)
  refine congrArg Host.Outcome.next ?_
  simp only [hrun, hbegun, hop, hpans, hfound, Bool.and_self, if_true]

/-- The pans' report fails a scrub whose read-back finds a byte that is not zero. -/
theorem exec_panWorkDone_of_dirty {a : Nat} (hrun : s.run t q = some r) (hbegun : r.begun = true) (hop : r.isOp = true)
    (hpans : r.onPans = true) (hscrubs : r.scrubs = true) (hdirty : s.dirtyByte (r.slices.flatMap (·.fresh)) = some a) :
    exec (.panWorkDone t q) s = .next (((s.modRun t q (fun r => { r with opDone := true })).failAt t q
      (Config.errMemoryFailed, a)).bump 0x9026 0xB 1) := by
  have hfound : (s.modRun t q (fun r => { r with opDone := true })).dirtyByte (r.slices.flatMap (·.fresh)) = some a := hdirty
  refine congrArg Host.Outcome.next ?_
  simp only [hrun, hbegun, hop, hpans, hscrubs, hfound, Bool.and_self, if_true]

/-- A command that has not failed takes the error as its failure. -/
theorem State.run_failAt (hrun : s.run t q = some r) (hfail : r.fail = none) (e : Bad) :
    (s.failAt t q e).run t q = some { r with fail := some ⟨e.1, BitVec.ofNat 64 e.2, Config.noStrand, 0⟩ } := by
  rw [State.failAt, State.failCmd, State.run_modRun, hrun, Option.map_some, hfail]
  rfl

end WorkDone

/-- Settles O33: each check passes and claims its output pages, the pans' writes leave the queues alone, and so the command is
admitted with those pages; the pans' report then finds it running. -/
theorem panCommandsAreAdmitted : Obligations.PanCommandsAreAdmitted := by
  unfold Obligations.PanCommandsAreAdmitted
  refine ⟨?admissions, ?reports⟩
  case admissions =>
    intro s u t q op r h a d n whole
    have hrefl := State.Staged.refl h.run
    refine ⟨?fill, ?copy, ?convert, ?gather, ?digest⟩
    case fill =>
      rintro rfl halign hpos hmost hdest hscrub hclaim
      exact h.admitted_panFill hclaim (panFillCheck_claims rfl rfl halign hpos hmost hdest hscrub)
    case copy =>
      rintro rfl halign hdalign hpos hmost hsource hapart hdest hclaim
      have hcheck := panCopyCheck_claims (q := q) rfl rfl rfl halign hdalign hpos hmost hsource hapart hdest
      obtain ⟨v, sl, rfl, hadm, hsl, hpages⟩ := h.admitted_work (hrefl.pinReads _) hclaim hcheck
        (fun y => y.queues_copyIn t q _ _)
      exact ⟨_, sl, rfl, hadm, hsl, hpages.trans (map_fst_outs _ _)⟩
    case convert =>
      rintro rfl hread x y hxvalid hyvalid hxlen hylen hrank hsize hpair hsource hdest hclaim
      have hcheck := panConvertCheck_claims (q := q) rfl rfl rfl rfl hread hxvalid hyvalid hxlen hylen hrank hsize hpair
        hsource hdest
      obtain ⟨v, sl, rfl, hadm, hsl, hpages⟩ := h.admitted_work (hrefl.pinReads _) hclaim hcheck
        (fun y => State.each_keep State.queues _ _ (fun w i => w.queues_convertRowTo t q _ _ i) y)
      exact ⟨_, sl, rfl, hadm, hsl, hpages.trans (map_fst_outs _ _)⟩
    case gather =>
      rintro rfl z hz h0 p0 hps pes g outs hheads hfirst hlast halign hsound hdest hclaim
      have hcheck := panGatherCheck_claims (q := q) hz rfl rfl rfl rfl rfl rfl hheads hfirst hlast halign hsound hdest
      exact ⟨u.length_gather_le z _ h0 p0 pes, h.admitted_panGather (hrefl.pinFrames _) hclaim hcheck⟩
    case digest =>
      rintro rfl hmost hread halign hlalign leaves hdest hldest hclaim
      have hcheck := panDigestCheck_claims (q := q) rfl rfl rfl rfl hmost hread halign hlalign hdest hldest
      obtain ⟨v, sl, rfl, hadm, -⟩ := h.admitted_work (hrefl.pinReads _) hclaim hcheck
        (fun y => y.queues_writeDigests t q _ _ _ _ _)
      exact ⟨_, rfl, hadm⟩
  case reports =>
    intro s t q r hrun hbegun hop hpans
    have hdone : (s.modRun t q (fun r => { r with opDone := true })).run t q = some { r with opDone := true } := by
      rw [State.run_modRun, hrun]; rfl
    refine ⟨fun hclean => ?clean, fun a hscrubs hfail hdirty => ?dirty⟩
    case clean => exact ⟨_, exec_panWorkDone_of_clean hrun hbegun hop hpans hclean, hdone, rfl, rfl, rfl⟩
    case dirty =>
      exact ⟨_, exec_panWorkDone_of_dirty hrun hbegun hop hpans hscrubs hdirty, rfl,
        (State.run_bump _ _ _ _ t q).trans (State.run_failAt hdone hfail _)⟩

end Sys2Proof.Machine
end

