-- ==== Sys2Proof/Proofs/ConvolutionPadding.lean ====
section
/-! SUPPORT. The input vector of a convolution (R214, R215): what a padded coordinate is, which element stands at an index of
the vector, and what that element reads; with them the proof of O28. -/
namespace Sys2Proof.Machine

open Sys2Proof

/-! ### Padded coordinates (R214) -/

section Padding
variable {mode i : Nat} {x : Int}

theorem padAt_of_inside (h : 0 ≤ x ∧ x < i) : padAt mode i x = some x.toNat :=
  if_pos h

theorem padAt_zero_of_outside (h : ¬ (0 ≤ x ∧ x < i)) : padAt 0 i x = none := by
  rw [padAt, if_neg h, if_neg Nat.zero_ne_one]

/-- Replication clamps every coordinate to its dimension; one inside it is its own clamp. -/
theorem padAt_replicate (hi : 1 ≤ i) : padAt 1 i x = some (max 0 (min x ((i : Int) - 1))).toNat := by
  by_cases h : 0 ≤ x ∧ x < i
  · have hclamp : max 0 (min x ((i : Int) - 1)) = x := by omega
    rw [padAt_of_inside h, hclamp]
  · have hclamp : min (max x 0) ((i : Int) - 1) = max 0 (min x ((i : Int) - 1)) := by omega
    rw [padAt, if_neg h, if_pos rfl, hclamp]

end Padding

/-! ### Concatenations of ranges -/

/-- In a concatenation of rows of one length m, index i × m + j is index j of row i. -/
theorem getElem?_flatMap_of_length_eq {α β : Type} {g : α → List β} {m : Nat} (hlen : ∀ a, (g a).length = m) (l : List α)
    (i : Nat) {j : Nat} (hj : j < m) : (l.flatMap g)[i * m + j]? = l[i]?.bind (fun a => (g a)[j]?) := by
  induction l generalizing i with
  | nil => rfl
  | cons a l ih =>
    rw [List.flatMap_cons]
    cases i with
    | zero =>
      rw [Nat.zero_mul, Nat.zero_add, List.getElem?_append_left (by rwa [hlen])]
      rfl
    | succ i =>
      have hskip : (i + 1) * m + j - (g a).length = i * m + j := by rw [hlen, Nat.succ_mul]; omega
      rw [List.getElem?_append_right (by rw [hlen, Nat.succ_mul]; omega), hskip, ih]
      rfl

theorem getElem?_flatMap_range {β : Type} {g : Nat → List β} {m n i j : Nat} (hlen : ∀ a, (g a).length = m) (hi : i < n)
    (hj : j < m) : ((List.range n).flatMap g)[i * m + j]? = (g i)[j]? := by
  rw [getElem?_flatMap_of_length_eq hlen _ _ hj, List.getElem?_range hi, Option.bind_some]

theorem length_flatMap_range {β : Type} {g : Nat → List β} {m : Nat} (hlen : ∀ a, (g a).length = m) (n : Nat) :
    ((List.range n).flatMap g).length = n * m := by
  simp only [List.length_flatMap, hlen, List.map_const', List.length_range, List.sum_replicate_nat]

theorem flatMap_congr_rows {α β : Type} {f g : α → List β} {l : List α} (h : ∀ a, f a = g a) : l.flatMap f = l.flatMap g :=
  congrArg (l.flatMap ·) (funext h)

theorem mul_add_lt_mul {n m i j : Nat} (hi : i < n) (hj : j < m) : i * m + j < n * m :=
  calc i * m + j < i * m + m := Nat.add_lt_add_left hj _
    _ = (i + 1) * m := (Nat.succ_mul i m).symm
    _ ≤ n * m := Nat.mul_le_mul_right m hi

/-- The row-major index of four nested ranges. -/
theorem getElem?_nested_range {β : Type} {n₁ n₂ n₃ n₄ a b c e : Nat} (ha : a < n₁) (hb : b < n₂) (hc : c < n₃) (he : e < n₄)
    (g : Nat → Nat → Nat → Nat → β) :
    ((List.range n₁).flatMap (fun a => (List.range n₂).flatMap (fun b => (List.range n₃).flatMap (fun c =>
      (List.range n₄).map (g a b c)))))[((a * n₂ + b) * n₃ + c) * n₄ + e]? = some (g a b c e) := by
  have hrow (a b c : Nat) : ((List.range n₄).map (g a b c)).length = n₄ := by rw [List.length_map, List.length_range]
  have hplane (a b : Nat) := length_flatMap_range (hrow a b) n₃
  have hcube (a : Nat) := length_flatMap_range (hplane a) n₂
  have hindex : ((a * n₂ + b) * n₃ + c) * n₄ + e = a * (n₂ * (n₃ * n₄)) + (b * (n₃ * n₄) + (c * n₄ + e)) := by
    simp only [Nat.add_mul, Nat.mul_assoc, Nat.add_assoc]
  rw [hindex, getElem?_flatMap_range hcube ha (mul_add_lt_mul hb (mul_add_lt_mul hc he)),
    getElem?_flatMap_range (hplane a) hb (mul_add_lt_mul hc he), getElem?_flatMap_range (hrow a b) hc he,
    List.getElem?_map, List.getElem?_range he, Option.map_some]

/-! ### The elements of the vector (R215) -/

/-- What the vector of a convolution holds for channel ci at a padded position: the element there, at the width of the wide
block that holds it if one does, or +0.0 outside the input. -/
def State.convElem (s : State) (ref : SliceRef) (d : BitVec 512) (ci : Nat) (ti hi wi : Option Nat) : FVal × Nat :=
  match ti, hi, wi with
  | some ti, some hi, some wi =>
    match s.elemWide ref d wi hi ti ci with
    | some b => (applyScale (decodeElem b.fmt (nth b.codes (wi % 32) 0)) (if b.width = 1 then b.scale else 127), b.width)
    | none => (s.elemVal (s.reachSlice ref) d wi hi ti ci, 0)
  | _, _, _ => (FVal.zero, 0)

section Elements
variable {s : State} {ref : SliceRef} {d : BitVec 512} {ci : Nat}

theorem State.convElem_narrow {a b e : Nat} (h : s.elemWide ref d e b a ci = none) :
    s.convElem ref d ci (some a) (some b) (some e) = (s.elemVal (s.reachSlice ref) d e b a ci, 0) := by
  simp only [State.convElem, h]

theorem State.convElem_outside {ti hi wi : Option Nat} (h : ti = none ∨ hi = none ∨ wi = none) :
    s.convElem ref d ci ti hi wi = (FVal.zero, 0) := by
  rcases h with rfl | rfl | rfl
  · rfl
  · cases ti <;> rfl
  · cases ti <;> cases hi <;> rfl

/-- The element that tap (kt, kh, kw) of the kernel reads in channel ci for output position (t, h, w) (R215). -/
def State.convTap (s : State) (ref : SliceRef) (ps : List W64) (d : BitVec 512) (t h w kt kh kw ci : Nat) : FVal × Nat :=
  s.convElem ref d ci
    (padAt (pf ps 4 8 2) (dSize d 2) ((t * pf ps 4 48 4 + kt * pf ps 4 36 4 : Nat) - (pf ps 5 24 8 : Int)))
    (padAt (pf ps 4 8 2) (dSize d 1) ((h * pf ps 4 44 4 + kh * pf ps 4 32 4 : Nat) - (pf ps 5 8 8 : Int)))
    (padAt (pf ps 4 8 2) (dSize d 0) ((w * pf ps 4 40 4 + kw * pf ps 4 28 4 : Nat) - (pf ps 5 0 8 : Int)))

theorem State.convVector_eq_taps (ps : List W64) (t h w : Nat) : s.convVector ref ps d t h w =
    (List.range (pf ps 4 60 4)).flatMap (fun kt => (List.range (pf ps 4 56 4)).flatMap (fun kh =>
      (List.range (pf ps 4 52 4)).flatMap (fun kw =>
        (List.range (dSize d 3)).map (s.convTap ref ps d t h w kt kh kw)))) := by
  refine flatMap_congr_rows fun kt => flatMap_congr_rows fun kh => flatMap_congr_rows fun kw =>
    List.map_congr_left fun ci _ => ?_
  unfold State.convTap
  generalize padAt _ (dSize d 2) _ = ti, padAt _ (dSize d 1) _ = hi, padAt _ (dSize d 0) _ = wi
  cases ti <;> cases hi <;> cases wi <;> rfl

/-- R215: index ((kt × KH + kh) × KW + kw) × Cin + ci of the vector holds what tap (kt, kh, kw) reads in channel ci. -/
theorem State.getElem?_convVector {ps : List W64} (t h w : Nat) {kt kh kw : Nat} (hkt : kt < pf ps 4 60 4)
    (hkh : kh < pf ps 4 56 4) (hkw : kw < pf ps 4 52 4) (hci : ci < dSize d 3) :
    (s.convVector ref ps d t h w)[((kt * pf ps 4 56 4 + kh) * pf ps 4 52 4 + kw) * dSize d 3 + ci]? =
      some (s.convTap ref ps d t h w kt kh kw ci) := by
  rw [State.convVector_eq_taps, getElem?_nested_range hkt hkh hkw hci]

end Elements

/-- Settles O28: the index picks out one tap and channel, and the three branches of `padAt` are the three clauses. -/
theorem convolutionPadding : Obligations.ConvolutionPadding := by
  unfold Obligations.ConvolutionPadding
  intro s ref ps d t h w kt kh kw ci f posT posH posW clamp inside value element hkt hkh hkw hci
  have hvalue : value = some (s.convElem ref d ci (padAt (f 4 8 2) (dSize d 2) posT) (padAt (f 4 8 2) (dSize d 1) posH)
      (padAt (f 4 8 2) (dSize d 0) posW)) := State.getElem?_convVector t h w hkt hkh hkw hci
  refine ⟨?inside, ?zero, ?replicate⟩
  case inside =>
    rintro ⟨hT, hH, hW⟩ hnarrow
    rw [hvalue, padAt_of_inside hT, padAt_of_inside hH, padAt_of_inside hW, State.convElem_narrow hnarrow]
  case zero =>
    intro hmode houtside
    have hnone : padAt 0 (dSize d 2) posT = none ∨ padAt 0 (dSize d 1) posH = none ∨ padAt 0 (dSize d 0) posW = none :=
      (Classical.not_and_iff_not_or_not.mp houtside).imp padAt_zero_of_outside fun hHW =>
        (Classical.not_and_iff_not_or_not.mp hHW).imp padAt_zero_of_outside padAt_zero_of_outside
    rw [hvalue, hmode, State.convElem_outside hnone]
  case replicate =>
    intro hmode hT hH hW hnarrow
    rw [hvalue, hmode, padAt_replicate hT, padAt_replicate hH, padAt_replicate hW, State.convElem_narrow hnarrow]

end Sys2Proof.Machine
end

