-- ==== Sys2Proof/Proofs/MediaFrames.lean ====
section
/-! SUPPORT. What the work of the codec and ingest commands leaves alone: taking fresh pages and writing into them changes
memory and the counters only, and the start of a command leaves the contexts and the streams. -/
namespace Sys2Proof.Machine

open Sys2Proof

/-! ### Maps and lists -/

/-- What a key reads after a change under a key. -/
theorem kget_kmod {β : Type} (m : KMap β) (k j : Nat) (f : β → β) :
    kget (kmod m k f) j = if j = k then (kget m j).map f else kget m j := by
  induction m with
  | nil => simp [kmod, kget]
  | cons x r ih =>
    obtain ⟨a, b⟩ := x
    unfold kmod at ih ⊢
    by_cases ha : a = j
    · subst ha
      by_cases hk : a = k <;> simp [kget, hk]
    · by_cases hk : a = k
      · subst hk; simp [kget, ha, ih]
      · simp [kget, hk, ha, ih]

theorem State.kget_modCodec {s : State} {n : Nat} {c : CodecCtx} (hc : kget s.codec n = some c)
    (f : CodecCtx → CodecCtx) : kget (s.modCodec n f).codec n = some (f c) := by
  rw [State.modCodec, kget_kmod, if_pos rfl, hc, Option.map_some]

theorem State.kget_modStream {s : State} {n : Nat} {x : Stream} (hx : kget s.ingest n = some x) (f : Stream → Stream) :
    kget (s.modStream n f).ingest n = some (f x) := by
  rw [State.modStream, kget_kmod, if_pos rfl, hx, Option.map_some]

/-! ### Taking fresh pages and writing into them -/

/-- The state without its memory and its dictionary: states that agree in it differ at most in these. -/
def State.besideMem (s : State) : State := { s with mem := State.reset.mem, od := State.reset.od }

theorem State.besideMem_dropShadow (s : State) (frame : Nat) : (s.dropShadow frame).besideMem = s.besideMem :=
  State.each_keep State.besideMem _ State.freeFrame (fun _ _ => rfl) s

theorem State.besideMem_takeFrame {s u : State} {stack f : Nat} {use : FrameUse}
    (h : s.takeFrame stack use = some (f, u)) : u.besideMem = s.besideMem := by
  simp only [State.takeFrame, Option.ite_none_left_eq_some, Option.map_eq_some_iff, Prod.mk.injEq] at h
  obtain ⟨-, x, -, -, rfl⟩ := h
  rfl

theorem State.besideMem_growShadow_go {t : Fin 4} {frame stack k : Nat} {s u : State}
    (h : State.growShadow.go t frame stack k s = some u) : u.besideMem = s.besideMem := by
  induction k generalizing s with
  | zero => cases h; rfl
  | succ k ih =>
    simp only [State.growShadow.go, Option.ite_none_left_eq_some] at h
    obtain ⟨-, h⟩ := h
    cases hf : s.takeFrame stack (.shadow t) with
    | none => simp [hf] at h
    | some x =>
      have htake : x.2.besideMem = s.besideMem := State.besideMem_takeFrame hf
      rw [hf] at h
      exact (ih h).trans htake

theorem State.besideMem_copyShadow {s u : State} {t : Fin 4} {stack src dst : Nat}
    (h : s.copyShadow t stack src dst = some u) : u.besideMem = s.besideMem := by
  unfold State.copyShadow at h
  split at h
  · cases h; rfl
  · obtain ⟨x, hx, rfl⟩ := Option.map_eq_some_iff.mp h
    have hgrow : x.besideMem = s.besideMem := State.besideMem_growShadow_go hx
    exact hgrow

theorem State.besideMem_takeFresh {s u : State} {ref : SliceRef} {aux : Nat} {o : Nat × Bool} {p : FreshPage}
    (h : s.takeFresh ref aux o = some (p, u)) : u.besideMem = s.besideMem := by
  unfold State.takeFresh at h
  dsimp only at h
  split at h
  · cases h
  · rename_i f w hf
    have htake := State.besideMem_takeFrame hf
    split at h
    · simp only [Option.map_eq_some_iff, Prod.mk.injEq] at h
      obtain ⟨x, hx, -, rfl⟩ := h
      exact (State.besideMem_copyShadow hx).trans htake
    · cases h
      exact htake

theorem State.besideMem_takeFreshes {s u : State} {ref : SliceRef} {aux : Nat} {l : List (Nat × Bool)}
    {ps : List FreshPage} (h : s.takeFreshes ref aux l = some (ps, u)) : u.besideMem = s.besideMem := by
  induction l generalizing s ps with
  | nil => cases h; rfl
  | cons o r ih =>
    unfold State.takeFreshes at h
    split at h
    · cases h
    · rename_i p w hp
      simp only [Option.map_eq_some_iff, Prod.mk.injEq, Prod.exists] at h
      obtain ⟨ps', w', h, -, rfl⟩ := h
      exact (ih h).trans (State.besideMem_takeFresh hp)

theorem State.besideMem_writeVia (s : State) (frameOf : Nat → Option Nat) (a : Nat) (bs : List Byte) :
    (s.writeVia frameOf a bs).besideMem = s.besideMem := by
  induction bs generalizing s a with
  | nil => rfl
  | cons b bs ih =>
    unfold State.writeVia
    rw [ih]
    split <;> rfl

theorem State.besideMem_narrowPage (s : State) (f v a n : Nat) : (s.narrowPage f v a n).besideMem = s.besideMem := by
  unfold State.narrowPage
  cases kget s.mem.shadows f with
  | none => rfl
  | some l =>
    dsimp only
    split
    · exact State.besideMem_dropShadow s f
    · rfl

theorem State.besideMem_narrow (s : State) (frameOf : Nat → Option Nat) (a n : Nat) :
    (s.narrow frameOf a n).besideMem = s.besideMem := by
  refine State.each_keep State.besideMem _ _ (fun u v => ?_) s
  cases frameOf v with
  | none => rfl
  | some f => exact State.besideMem_narrowPage u f v a n

theorem State.besideMem_writeFresh (s : State) (t : Fin 4) (q : Fin 64) (a : Nat) (bs : List Byte) :
    (s.writeFresh t q a bs).besideMem = s.besideMem := by
  unfold State.writeFresh
  split
  · rfl
  · exact (State.besideMem_narrow _ _ _ _).trans (State.besideMem_writeVia _ _ _ _)

/-! ### The contexts, the streams and what the commands have staged -/

/-- Whether the head command of a queue has begun, and the effects that it has staged. -/
def State.opCourse (s : State) (t : Fin 4) (q : Fin 64) : Option (Bool × List Effect) :=
  (s.run t q).map (fun r => (r.begun, r.effects))

/-- The codec contexts, the ingest streams, and the course of every head command. -/
def State.works (s : State) : KMap CodecCtx × KMap Stream × (Fin 4 → Fin 64 → Option (Bool × List Effect)) :=
  (s.codec, s.ingest, s.opCourse)

theorem State.works_of_besideMem {s u : State} (h : u.besideMem = s.besideMem) : u.works = s.works := by
  have hworks := congrArg State.works h
  exact hworks

theorem State.codec_of_works {s u : State} (h : u.works = s.works) : u.codec = s.codec := congrArg (·.1) h

theorem State.ingest_of_works {s u : State} (h : u.works = s.works) : u.ingest = s.ingest := congrArg (·.2.1) h

theorem State.opCourse_of_works {s u : State} (h : u.works = s.works) : u.opCourse = s.opCourse := congrArg (·.2.2) h

/-- A change of a command's run that leaves its start and its effects leaves every command's course. -/
theorem State.opCourse_modRun (s : State) (t : Fin 4) (q : Fin 64) {f : CmdRun → CmdRun}
    (hf : ∀ r, (f r).begun = r.begun ∧ (f r).effects = r.effects) : (s.modRun t q f).opCourse = s.opCourse := by
  funext t' q'
  by_cases hq : t' = t ∧ q' = q
  · obtain ⟨rfl, rfl⟩ := hq
    simp [State.opCourse, State.run_modRun, Function.comp_def, hf]
  · simp only [State.opCourse, State.run_modRun_ne s f hq]

theorem State.works_modRun (s : State) (t : Fin 4) (q : Fin 64) {f : CmdRun → CmdRun}
    (hf : ∀ r, (f r).begun = r.begun ∧ (f r).effects = r.effects) : (s.modRun t q f).works = s.works :=
  congrArg (fun c => (s.codec, s.ingest, c)) (s.opCourse_modRun t q hf)

@[simp] theorem State.works_bump (s : State) (index sub n : Nat) : (s.bump index sub n).works = s.works := rfl

@[simp] theorem State.works_modSlice (s : State) (ref : SliceRef) (f : Slice → Slice) :
    (s.modSlice ref f).works = s.works :=
  s.works_modRun _ _ (fun _ => ⟨rfl, rfl⟩)

@[simp] theorem State.works_failAt (s : State) (t : Fin 4) (q : Fin 64) (e : Bad) : (s.failAt t q e).works = s.works :=
  s.works_modRun _ _ (fun _ => ⟨rfl, rfl⟩)

@[simp] theorem State.works_results (s : State) (t : Fin 4) (q : Fin 64) (a b : Nat) : (s.results t q a b).works = s.works :=
  s.works_modRun _ _ (fun _ => ⟨rfl, rfl⟩)

@[simp] theorem State.works_opDone (s : State) (t : Fin 4) (q : Fin 64) (done : Bool) :
    (s.modRun t q (fun r => { r with opDone := done })).works = s.works :=
  s.works_modRun _ _ (fun _ => ⟨rfl, rfl⟩)

/-- The write of a running command leaves the contexts, the streams and every command's course. -/
theorem State.works_opWrite {s u : State} {t : Fin 4} {q : Fin 64} {a : Nat} {bs : List Byte}
    (h : s.opWrite t q a bs = some u) : u.works = s.works := by
  unfold State.opWrite at h
  dsimp only at h
  split at h
  · cases h; rfl
  · split at h
    · cases h; exact s.works_failAt t q _
    · split at h
      · cases h
      · obtain ⟨x, hx, rfl⟩ := Option.map_eq_some_iff.mp h
        calc _ = (x.2.modSlice (opRef t q) _).works := State.works_of_besideMem (State.besideMem_writeFresh _ t q a bs)
          _ = x.2.works := State.works_modSlice _ _ _
          _ = s.works := State.works_of_besideMem (State.besideMem_takeFreshes hx)

theorem State.works_opWrites {s u : State} {t : Fin 4} {q : Fin 64} {l : List (Nat × List Byte)}
    (h : s.opWrites t q l = some u) : u.works = s.works := by
  induction l generalizing s with
  | nil => cases h; rfl
  | cons x r ih =>
    obtain ⟨v, hv, h⟩ := Option.bind_eq_some_iff.mp h
    exact (ih h).trans (State.works_opWrite hv)

/-! ### The start of a command -/

/-- The state without the timebase, the ports, the tenancies, memory and the dictionary, which the admission of a command
changes: states that agree in it differ at most in these. -/
def State.besideStart (s : State) : State :=
  { s with tick := State.reset.tick, ports := State.reset.ports, tens := State.reset.tens, mem := State.reset.mem,
           od := State.reset.od }

theorem State.besideStart_stageModel (s : State) (die v : Nat) : (s.stageModel die v).besideStart = s.besideStart := by
  unfold State.stageModel
  dsimp only
  split
  · rfl
  · split <;> rfl

theorem State.besideStart_schedule (s : State) (layer : Nat) : (s.schedule layer).besideStart = s.besideStart := by
  unfold State.schedule
  dsimp only
  split
  · rfl
  · refine (State.each_keep State.besideStart _ _ (fun u en => ?_) _ : State.besideStart _ = _)
    exact State.each_keep State.besideStart _ _ (fun w v => State.besideStart_stageModel w _ v) u

theorem State.besideStart_noteRecord (s : State) (t : Fin 4) (q : Fin 64) (r : CmdRun) :
    (s.noteRecord t q r).besideStart = s.besideStart := by
  unfold State.noteRecord
  dsimp only
  split <;> rfl

theorem State.besideStart_begin (s : State) (t : Fin 4) (q : Fin 64) : (s.begin t q).besideStart = s.besideStart := by
  unfold State.begin
  split
  · rfl
  · rename_i r _
    have hnote := State.besideStart_noteRecord s t q r
    dsimp only
    split
    · rfl
    · split
      · exact hnote
      · exact (State.besideStart_schedule _ _).trans hnote

/-- The admission of a command changes the timebase, the ports, the tenancies, memory and the counters only. -/
theorem State.besideStart_admitOp (s : State) (t : Fin 4) (q : Fin 64) (done : Bool) :
    (s.admitOp t q done).besideStart = s.besideStart := by
  have hput : (if (s.slice (opRef t q)).isSome then s else s.putOpSlice t q []).besideStart = s.besideStart := by
    split <;> rfl
  unfold State.admitOp
  generalize (if (s.slice (opRef t q)).isSome then s else s.putOpSlice t q []) = w at hput ⊢
  have hbegin := State.besideStart_begin w t q
  dsimp only
  generalize w.begin t q = x at hbegin ⊢
  exact hbegin.trans hput

/-! ### A command that is offered -/

section Offered

variable {s u v : State} {t : Fin 4} {q : Fin 64} {r : CmdRun} {op : Nat} {f : OpCheck} {done : Bool}

/-- A command whose check passes leaves the contexts and the streams as the check has left them. -/
theorem State.Offered.media (h : s.Offered t q op u r) (hf : f u t q r = .admitted v done) :
    (s.offerRow t q op f).codec = v.codec ∧ (s.offerRow t q op f).ingest = v.ingest := by
  have hbeside : (s.offerRow t q op f).besideStart = v.besideStart := by
    rw [State.offerRow_of_admitted h hf, State.besideStart_admitOp]
  have hcodec := congrArg State.codec hbeside
  have hingest := congrArg State.ingest hbeside
  exact ⟨hcodec, hingest⟩

/-- A command whose check passes and has staged the effects fx has begun with them. -/
theorem State.Offered.begun {fx : List Effect} (h : s.Offered t q op u r) (hf : f u t q r = .admitted v done)
    (hv : v.opCourse t q = some (false, fx)) : (s.offerRow t q op f).opCourse t q = some (true, fx) := by
  obtain ⟨rv, hrun, hcourse⟩ := Option.map_eq_some_iff.mp hv
  obtain ⟨hbegun, heffects⟩ := Prod.mk.inj hcourse
  obtain ⟨r', -, hrun', hbegun', -, heffects', -⟩ := State.admitOp_run (done := done) hrun hbegun
  rw [State.offerRow_of_admitted h hf, State.opCourse, hrun', Option.map_some, hbegun', heffects', heffects]

theorem State.opCourse_eq_some_iff {w : State} {begun : Bool} {fx : List Effect} :
    w.opCourse t q = some (begun, fx) ↔ ∃ k, w.run t q = some k ∧ k.begun = begun ∧ k.effects = fx := by
  simp only [State.opCourse, Option.map_eq_some_iff, Prod.mk.injEq]

end Offered

end Sys2Proof.Machine
end

