-- ==== Sys2Proof/Proofs/CodecCommands.lean ====
section
/-! SUPPORT. The codec and ingest commands (R226 to R232, R237, R240 to R252): when the checks of their parameter blocks,
contexts, streams and pages pass, what a batch keeps while its slots are decided, and the admission of each; with them the
proof of O34. -/
namespace Sys2Proof.Machine

open Sys2Proof

/-! ### Parameter blocks, contexts and streams -/

section Blocks

variable {s u : State} {t : Fin 4} {q : Fin 64} {r : CmdRun} {ps : List W64}

theorem State.withBlock_of_ok {code : Nat} {words : List W64 → Option Nat} (next : List W64 → OpAnswer)
    (hps : u.paramBlock t code (cwn r.words 8) = .ok ps) (hwords : words ps = none) :
    u.withBlock t r code words next = next ps := by
  unfold State.withBlock
  simp only [hps, hwords]

theorem State.kget_of_ownCtx {n : Nat} {encode : Option Bool} {c : CodecCtx} (h : u.ownCtx t n encode = some c) :
    kget u.codec n = some c := by
  obtain ⟨c', hget, hc⟩ := Option.bind_eq_some_iff.mp h
  obtain ⟨-, hc⟩ := Option.ite_none_right_eq_some.mp hc
  exact hget.trans hc

theorem State.kget_of_ownStream {n : Nat} {x : Stream} (h : u.ownStream t n = some x) : kget u.ingest n = some x := by
  obtain ⟨x', hget, hx⟩ := Option.bind_eq_some_iff.mp h
  obtain ⟨-, hx⟩ := Option.ite_none_right_eq_some.mp hx
  exact hget.trans hx

/-- The first number that a search of a map finds is not in use. -/
theorem kget_of_find_isNone {β : Type} {m : KMap β} {l : List Nat} {k : Nat}
    (h : l.find? (fun n => (kget m n).isNone) = some k) : kget m k = none :=
  Option.isNone_iff_eq_none.mp (List.find?_some (p := fun n => (kget m n).isNone) h)

/-! ### Pages that a command may write -/

@[simp] theorem State.works_pinFrames (s : State) (t : Fin 4) (q : Fin 64) (frames : List Nat) :
    (s.pinFrames t q frames).works = s.works :=
  s.works_modRun _ _ (fun _ => ⟨rfl, rfl⟩)

@[simp] theorem State.works_putOpSlice (s : State) (t : Fin 4) (q : Fin 64) (outs : List (Nat × Bool)) :
    (s.putOpSlice t q outs).works = s.works :=
  s.works_modRun _ _ (fun _ => ⟨rfl, rfl⟩)

@[simp] theorem State.works_pinReads (s : State) (t : Fin 4) (q : Fin 64) (pages : List Nat) :
    (s.pinReads t q pages).works = s.works :=
  (State.works_pinFrames _ t q _).trans
    (State.works_of_besideMem (State.each_keep State.besideMem pages (fun y => y.touch t) (fun _ _ => rfl) s))

@[simp] theorem State.works_lazyClaimed (s : State) (t : Fin 4) (q : Fin 64) (pages : List Nat) :
    (s.lazyClaimed t q pages).works = s.works :=
  (State.works_pinReads _ t q _).trans (State.works_putOpSlice s t q _)

/-- The admission's claims, on the pages that the command may write and on those that it reads, leave the contexts, the streams
and every command's course. -/
theorem State.works_claims (s : State) (t : Fin 4) (q : Fin 64) (pages reads : List Nat) :
    ((s.lazyClaimed t q pages).pinReads t q reads).works = s.works :=
  (State.works_pinReads _ t q reads).trans (s.works_lazyClaimed t q pages)

@[simp] theorem State.tick_lazyClaimed (s : State) (t : Fin 4) (q : Fin 64) (pages : List Nat) :
    (s.lazyClaimed t q pages).tick = s.tick :=
  State.each_keep State.tick _ (fun y => y.touch t) (fun _ _ => rfl) _

theorem State.LazyOk.claimLazy {pages : List Nat} (h : u.LazyOk t q pages) (next : State → OpAnswer) :
    u.claimLazy t q pages next = next (u.lazyClaimed t q pages) := by
  obtain ⟨herror, hfree⟩ := h
  unfold State.claimLazy
  simp only [herror, map_fst_outs, hfree, Bool.not_true, Bool.false_eq_true, if_false]

/-- The course of the head command that is offered: it has not begun. -/
theorem State.Offered.opCourse {op : Nat} (h : s.Offered t q op u r) : u.opCourse t q = some (false, r.effects) := by
  obtain ⟨hbegun, -⟩ := h.fresh
  rw [State.opCourse, h.run, Option.map_some, hbegun]

theorem State.opCourse_stage {begun : Bool} {fx : List Effect} (h : u.opCourse t q = some (begun, fx)) (l : List Effect) :
    (u.stage t q l).opCourse t q = some (begun, fx ++ l) := by
  obtain ⟨k, hrun, rfl, rfl⟩ := State.opCourse_eq_some_iff.mp h
  rw [State.opCourse, State.stage, State.run_modRun, hrun]
  rfl

theorem State.results_stage_run {rv : CmdRun} (h : u.run t q = some rv) (l : List Effect) (a b : Nat) :
    ((u.stage t q l).results t q a b).run t q = some { rv with
      effects := rv.effects ++ l, result0 := BitVec.ofNat 64 a, result1 := BitVec.ofNat 64 b } := by
  rw [State.results, State.run_modRun, State.stage, State.run_modRun, h]
  rfl

end Blocks

/-! ### CODEC_OPEN and CODEC_CLOSE -/

section Codec

variable {s u v w : State} {t : Fin 4} {q : Fin 64} {r : CmdRun} {ps : List W64}

theorem State.openCtx_of_free {stream : Option Nat} {o : CtxOpen} {bufs : List Buffer} {e k : Nat}
    (he : u.codecEngine o = some e) (hk : u.codecNumber o.encode = some k) :
    u.openCtx t stream o bufs ps = some (k, { u with codec := kset u.codec k (newCtx t stream o bufs e ps) }) := by
  unfold State.openCtx
  simp only [he, hk]

theorem codecOpenCheck_admitted {bufs : List Buffer} {k : Nat}
    (hps : u.paramBlock t Config.errCodecInvalid (cwn r.words 8) = .ok ps) (hwords : openWords ps = none)
    (hpool : u.readPool t Config.errCodecInvalid (openOf ps) = .ok bufs)
    (hopen : u.openCtx t none (openOf ps) bufs ps = some (k, v)) :
    codecOpenCheck u t q r = .admitted ((v.stage t q [.codecOpen k]).results t q k 0) true := by
  unfold codecOpenCheck
  rw [State.withBlock_of_ok _ hps hwords]
  simp only [hpool, hopen]

theorem codecCloseCheck_admitted {n : Nat} {c : CodecCtx} (hn : cwn r.words 8 = n) (hc : u.ownCtx t n none = some c)
    (hidle : u.ctxBusy t n c = false) : codecCloseCheck u t q r = .admitted (u.stage t q [.codecClose n]) true := by
  unfold codecCloseCheck
  simp only [hn, hc, hidle, Bool.false_eq_true, if_false]

/-! ### CODEC_DECODE and CODEC_ENCODE -/

theorem State.codec_modCodec (s : State) (n : Nat) (g : CodecCtx → CodecCtx) :
    (s.modCodec n g).codec = kmod s.codec n g := rfl

theorem State.opCourse_modCodec (s : State) (n : Nat) (g : CodecCtx → CodecCtx) :
    (s.modCodec n g).opCourse = s.opCourse := rfl

/-- The job of CODEC_DECODE: its input, and the buffers without the marks that the command releases (R230, R233). -/
def CodecCtx.decodeJob (c : CodecCtx) (t : Fin 4) (q : Fin 64) (ps : List W64) (input : List Byte) : CodecJob :=
  let j := c.newJob t q ps [(input, 0)]
  { j with buffers := j.buffers.mapIdx (fun i b =>
      if (pw ps 2).getLsbD i then { b with mark := b.mark &&& 0x7FFF } else b) }

/-- A decode command without a marks array ends at once, its job with the stop. -/
theorem State.endDecode_of_no_marks {n stop : Nat} {j : CodecJob} (hmarks : pf j.params 4 0 52 = 0) :
    ∃ w, u.endDecode n j stop = some w ∧
      w.codec = kmod u.codec n (fun x => { x with job := some { j with stop := some stop } }) ∧
      w.opCourse = u.opCourse := by
  unfold State.endDecode
  dsimp only
  rw [if_pos hmarks]
  refine ⟨_, rfl, rfl, ?_⟩
  exact (State.opCourse_of_works ((State.works_opDone _ _ _ _).trans (State.works_results _ _ _ _ _))).trans rfl

/-- A job is kept with the stop that holds, where the marks need not be written at once. -/
theorem State.putDecode_of_stop {n : Nat} {c : CodecCtx} {j : CodecJob} (hj : j.stop = none)
    (hmarks : pf j.params 4 0 52 = 0 ∨ u.decodeStop c j = none) : ∃ w, u.putDecode n c j = some w ∧
      w.codec = kmod u.codec n (fun x => { x with job := some { j with stop := u.decodeStop c j } }) ∧
      w.opCourse = u.opCourse := by
  unfold State.putDecode
  cases hstop : u.decodeStop c j with
  | none =>
    refine ⟨_, rfl, ?_, rfl⟩
    rw [← hj]
    rfl
  | some k => exact State.endDecode_of_no_marks (hmarks.resolve_right (by simp [hstop]))

/-- CODEC_DECODE on an idle context of its tenancy passes with the job that it keeps. -/
theorem codecDecodeCheck_admitted {n marks : Nat} {c : CodecCtx} {pages : List Nat}
    (hps : u.paramBlock t Config.errCodecInvalid (cwn r.words 8) = .ok ps) (hwords : decodeWords ps = none)
    (hn : pf ps 0 58 6 = n) (hc : u.ownCtx t n (some false) = some c) (hidle : u.ctxBusy t n c = false)
    (hread : u.checkT t (pf ps 0 0 52) (pf ps 1 32 32) = none) (hmarks : pf ps 4 0 52 = marks)
    (hpages : c.pages ++ pagesOf (pf ps 3 0 52) (32 * pf ps 1 0 16) ++ (if marks = 0 then [] else pagesOf marks 128) = pages)
    (hlazy : u.LazyOk t q pages)
    (hv : (u.lazyClaimed t q pages).pinReads t q (pagesOf (pf ps 0 0 52) (pf ps 1 32 32)) = v)
    (hw : v.putDecode n c (c.decodeJob t q ps (v.readT t (pf ps 0 0 52) (pf ps 1 32 32))) = some w) :
    codecDecodeCheck u t q r = .admitted (w.stage t q [.codecCommit n])
      (((kget w.codec n).bind (·.job)).bind (·.stop)).isSome := by
  unfold CodecCtx.decodeJob at hw
  unfold codecDecodeCheck
  rw [State.withBlock_of_ok _ hps hwords]
  simp only [hn, hc, hidle, hread, hmarks, hpages, hlazy.claimLazy, hv, hw, Bool.false_eq_true, if_false]

/-- CODEC_ENCODE of a planar tensor of three channels whose frames fit its idle context passes with its job. -/
theorem codecEncodeCheck_admitted {n a : Nat} {c : CodecCtx} {d : BitVec 512} {pages : List Nat}
    (hps : u.paramBlock t Config.errCodecInvalid (cwn r.words 8) = .ok ps) (hwords : encodeWords ps = none)
    (hn : pf ps 0 58 6 = n) (hc : u.ownCtx t n (some true) = some c) (hidle : u.ctxBusy t n c = false)
    (ha : pf ps 0 0 52 = a) (hd : BitVec.ofNat 512 (u.numT t a 64) = d) (hread : u.checkT t a 64 = none)
    (halign : a % 64 = 0) (hplanar : planarOk d = true) (hchannels : dSize d 3 = 3) (hfmt : dFmt d ≤ 3)
    (hwidth : dSize d 0 = c.maxW) (hheight : dSize d 1 = c.maxH) (hframes : pf ps 1 32 32 + pf ps 1 16 16 ≤ dSize d 2)
    (hsource : ∀ p ∈ tensorPages d, u.checkT t (p * Config.pageBytes) 1 = none)
    (hpages : c.pages ++ pagesOf (pf ps 2 0 52) (pf ps 3 32 32) ++ pagesOf (pf ps 4 0 52) (16 * pf ps 1 16 16) = pages)
    (hlazy : u.LazyOk t q pages) (hv : (u.lazyClaimed t q pages).pinReads t q (tensorPages d) = v) :
    codecEncodeCheck u t q r = .admitted ((v.modCodec n (fun x => { x with job := some (c.newJob t q ps
      ((List.range (pf ps 1 16 16)).map (fun i => v.inputFrame t c d (pf ps 1 32 32 + i)))) })).stage t q
        [.codecCommit n]) false := by
  have hshape : ¬ (decide (a % 64 ≠ 0) || !planarOk d || decide (dSize d 3 ≠ 3) || decide (3 < dFmt d) ||
      decide (dSize d 0 ≠ c.maxW) || decide (dSize d 1 ≠ c.maxH) ||
      decide (dSize d 2 < pf ps 1 32 32 + pf ps 1 16 16)) = true := by
    simp [halign, hplanar, hchannels, hfmt, hwidth, hheight, hframes]
  have hreadable : (tensorPages d).findSome? (fun v => u.checkT t (v * Config.pageBytes) 1) = none :=
    List.findSome?_eq_none_iff.mpr hsource
  unfold codecEncodeCheck
  rw [State.withBlock_of_ok _ hps hwords]
  simp only [hn, hc, hidle, ha, hd, hread, hreadable, hpages, hlazy.claimLazy, hv, if_neg hshape, Bool.false_eq_true,
    if_false]

end Codec

/-! ### INGEST_OPEN and INGEST_CLOSE -/

section Ingest

variable {s u v w : State} {t : Fin 4} {q : Fin 64} {r : CmdRun} {ps : List W64}

theorem ingestOpenCheck_admitted {i rx : Nat} {bufs : List Buffer} {ctx : Option Nat} {frames : List Nat} {coded : Bool}
    (hps : u.paramBlock t Config.errIngestInvalid (cwn r.words 8) = .ok ps) (hwords : ingestWords ps = none)
    (hcoded : decide (pf ps 0 56 4 ≠ 2) = coded)
    (hi : (List.range 16).find? (fun n => (kget u.ingest n).isNone) = some i)
    (hpool : coded = true → u.readPool t Config.errIngestInvalid (streamOpen ps) = .ok bufs)
    (hraw : coded = false → bufs = []) (hctx : u.streamCtx t i coded bufs ps = some (ctx, v)) (hrx : pf ps 3 52 12 = rx)
    (hpossible : v.stackPossible t rx = true) (hallowed : v.stackAllowed t rx = true)
    (htake : (v.roomFor t rx).takeSave t v.stack0 rx = some (frames, w)) :
    ingestOpenCheck u t q r = .admitted ((({ w with ingest := kset w.ingest i (newStream t ps ctx frames) } : State).stage
      t q [.ingestOpen i]).results t q i 0) true := by
  have hbuffers : (if coded = true then u.readPool t Config.errIngestInvalid (streamOpen ps) else .ok []) = .ok bufs := by
    cases coded with
    | true => exact hpool rfl
    | false => rw [hraw rfl]; rfl
  unfold ingestOpenCheck
  rw [State.withBlock_of_ok _ hps hwords]
  subst hcoded hrx
  simp only [decide_eq_true_eq] at hbuffers
  simp only [hi, hbuffers, hctx, hpossible, hallowed, htake, Bool.not_true, Bool.false_eq_true, if_false]

theorem ingestCloseCheck_admitted {n : Nat} {x : Stream} (hn : cwn r.words 8 = n) (hx : u.ownStream t n = some x)
    (hidle : u.streamBusy t n x = false) : ingestCloseCheck u t q r = .admitted (u.stage t q [.ingestClose n]) true := by
  unfold ingestCloseCheck
  simp only [hn, hx, hidle, Bool.false_eq_true, if_false]

/-- The opening of a decode context leaves the queues alone. -/
theorem State.queues_streamCtx {n : Nat} {coded : Bool} {bufs : List Buffer} {ctx : Option Nat}
    (h : u.streamCtx t n coded bufs ps = some (ctx, v)) : v.queues = u.queues := by
  unfold State.streamCtx at h
  split at h
  · obtain ⟨⟨k, v'⟩, hopen, heq⟩ := Option.map_eq_some_iff.mp h
    cases heq
    unfold State.openCtx at hopen
    split at hopen
    · cases hopen; rfl
    · cases hopen
  · cases h; rfl

theorem State.queues_takeSave {stack n : Nat} {frames : List Nat} (h : u.takeSave t stack n = some (frames, v)) :
    v.queues = u.queues := by
  induction n generalizing u frames with
  | zero => cases h; rfl
  | succ n ih =>
    unfold State.takeSave at h
    split at h
    · cases h
    · rename_i f w hf
      obtain ⟨⟨fs, v'⟩, hrest, heq⟩ := Option.map_eq_some_iff.mp h
      cases heq
      exact (ih hrest).trans (State.queues_takeFrame hf)

/-! ### INGEST_BATCH -/

/-- What a batch keeps while its slots are decided: its command and parameters, and the tick of its admission. -/
def Batch.origin (b : Batch) : Fin 4 × Fin 64 × List W64 × Nat := (b.t, b.q, b.params, b.admitted)

/-- The origin of the batch of stream n, and the course of every head command. -/
def State.batchCourse (s : State) (n : Nat) :
    Option (Option (Fin 4 × Fin 64 × List W64 × Nat)) × (Fin 4 → Fin 64 → Option (Bool × List Effect)) :=
  ((kget s.ingest n).map (fun x => x.batch.map Batch.origin), s.opCourse)

theorem State.opCourse_of_batchCourse {n : Nat} (h : v.batchCourse n = u.batchCourse n) : v.opCourse = u.opCourse :=
  congrArg Prod.snd h

theorem State.batchCourse_of_works (h : v.works = u.works) (n : Nat) : v.batchCourse n = u.batchCourse n := by
  rw [State.batchCourse, State.ingest_of_works h, State.opCourse_of_works h, State.batchCourse]

theorem State.works_modBatch_congr (h : v.works = u.works) (m : Nat) (f : Batch → Batch) :
    (v.modBatch m f).works = (u.modBatch m f).works := by
  have hcodec := State.codec_of_works h
  have hingest := State.ingest_of_works h
  have hcourse := State.opCourse_of_works h
  refine Prod.ext hcodec (Prod.ext ?_ hcourse)
  exact congrArg (fun i => kmod i m (fun x : Stream => { x with batch := x.batch.map f })) hingest

/-- A change of a stream that leaves the origin of its batch leaves every stream's. -/
theorem State.batchCourse_modStream (s : State) (m n : Nat) {f : Stream → Stream}
    (hf : ∀ x, (f x).batch.map Batch.origin = x.batch.map Batch.origin) :
    (s.modStream m f).batchCourse n = s.batchCourse n := by
  refine Prod.ext ?_ rfl
  simp only [State.batchCourse, State.modStream, kget_kmod]
  split
  · rw [Option.map_map]
    exact congrArg (Option.map · _) (funext hf)
  · rfl

theorem State.batchCourse_modSample (s : State) (m pos n : Nat) (f : Sample → Sample) :
    (s.modSample m pos f).batchCourse n = s.batchCourse n :=
  s.batchCourse_modStream m n (fun _ => rfl)

theorem State.batchCourse_modBatch (s : State) (m n : Nat) {f : Batch → Batch} (hf : ∀ b, (f b).origin = b.origin) :
    (s.modBatch m f).batchCourse n = s.batchCourse n := by
  refine s.batchCourse_modStream m n (fun x => ?_)
  rw [Option.map_map]
  exact congrArg (Option.map · _) (funext hf)

theorem State.batchCourse_failBatch (s : State) (b : Batch) (code address n : Nat) :
    (s.failBatch b code address).batchCourse n = s.batchCourse n :=
  State.batchCourse_of_works (s.works_failAt b.t b.q _) n

theorem State.batchCourse_decideSlot (s : State) (m : Nat) (b : Batch) (j reason n : Nat) (f : SlotSt → SlotSt) :
    (s.decideSlot m b j reason f).batchCourse n = s.batchCourse n := by
  unfold State.decideSlot
  dsimp only
  split
  · exact s.batchCourse_failBatch b _ _ n
  · exact s.batchCourse_modBatch m n (fun _ => rfl)

theorem State.batchCourse_precheck (s : State) (m : Nat) (x : Stream) (y : Sample) (n : Nat) :
    (s.precheck m x y).batchCourse n = s.batchCourse n := by
  have hbump : ∀ u : State, ∀ k, (u.bump 0x9029 k 1).batchCourse n = u.batchCourse n := fun _ _ => rfl
  unfold State.precheck
  repeat' split
  all_goals simp only [hbump, State.batchCourse_modSample]

/-- The decision of slots keeps the batch's origin and what its command has staged. -/
theorem State.batchCourse_settle (s : State) (m n : Nat) : (s.settle m).batchCourse n = s.batchCourse n := by
  unfold State.settle
  split
  · rfl
  · split
    · rfl
    · refine (State.each_keep (·.batchCourse n) _ _ (fun u j => ?_) _).trans
        (State.each_keep (·.batchCourse n) _ _ (fun u y => u.batchCourse_precheck m _ y n) s)
      split
      · rfl
      · split
        · rfl
        · split
          · rfl
          · split
            · rfl
            · split
              · rfl
              · exact State.batchCourse_decideSlot _ _ _ _ _ _ _

/-- What the writing of a batch changes of the contexts and streams: at most that its stream's batch is written. -/
theorem State.works_writeBatch (s : State) (m : Nat) : (s.writeBatch m).works = s.works ∨
    (s.writeBatch m).works = (s.modBatch m (fun b => { b with written := true })).works := by
  unfold State.writeBatch
  split
  · exact .inl rfl
  · split
    · exact .inl rfl
    · split
      · exact .inl rfl
      · dsimp only
        split
        · exact .inl rfl
        · rename_i u hu
          refine .inr (((State.works_opDone _ _ _ _).trans (State.works_results _ _ _ _ _)).trans ?_)
          refine State.works_modBatch_congr (.trans ?_ (State.works_opWrites hu)) m _
          exact State.each_keep State.works _ _
            (fun w (sl : SlotSt) => w.works_bump 0x9029 (reasonCounter (sl.reason.getD 0)) 1) u

theorem State.batchCourse_writeBatch (s : State) (m n : Nat) : (s.writeBatch m).batchCourse n = s.batchCourse n := by
  rcases s.works_writeBatch m with hsame | hwritten
  · exact State.batchCourse_of_works hsame n
  · exact (State.batchCourse_of_works hwritten n).trans (s.batchCourse_modBatch m n (fun _ => rfl))

theorem State.batchCourse_advanceBatch (s : State) (m n : Nat) : (s.advanceBatch m).batchCourse n = s.batchCourse n :=
  (State.batchCourse_writeBatch _ m n).trans (s.batchCourse_settle m n)

/-- The host's list of samples keeps every batch's origin. -/
theorem State.batchCourse_giveList (s : State) (t : Fin 4) (q : Fin 64) (l : List (List W64)) (n : Nat) :
    (s.giveList t q l).batchCourse n = s.batchCourse n := by
  unfold State.giveList
  split
  · rfl
  · split
    · rfl
    · split
      · rfl
      · dsimp only
        split
        · exact s.batchCourse_failBatch _ _ _ n
        · exact s.batchCourse_modBatch _ n (fun _ => rfl)

/-- The batch b put in its stream x, whose decode context gets the batch's job. -/
def State.putBatch (s : State) (n : Nat) (x : Stream) (b : Batch) : State :=
  let s := s.modStream n (fun x => { x with batch := some b })
  match x.codecCtx with
  | some c => s.modCodec c (fun c => { c with job := some (c.newJob b.t b.q b.params []) })
  | none => s

theorem State.batchCourse_putBatch {n : Nat} {x : Stream} {b : Batch} (hx : kget u.ingest n = some x) :
    (u.putBatch n x b).batchCourse n = (some (some b.origin), u.opCourse) := by
  have hput : (u.modStream n (fun x => { x with batch := some b })).batchCourse n =
      (some (some b.origin), u.opCourse) := by
    refine Prod.ext ?_ rfl
    simp only [State.batchCourse, State.modStream, kget_kmod, if_pos, hx, Option.map_some]
  unfold State.putBatch
  dsimp only
  split
  · exact hput
  · exact hput

/-- INGEST_BATCH on an idle stream whose inputs can be read puts a batch of its command in the stream and goes on with it. -/
theorem ingestBatchCheck_admitted {n : Nat} {x : Stream} {z : List Byte × List (List Byte) × List Byte} {pages : List Nat}
    (hps : u.paramBlock t Config.errIngestInvalid (cwn r.words 8) = .ok ps) (hn : pf ps 0 60 4 = n)
    (hx : u.ownStream t n = some x) (hwords : batchWords x ps = none) (hidle : u.streamBusy t n x = false)
    (hz : u.batchInputs t x n ps = .ok z)
    (hpages : (List.range x.slotN).flatMap (fun j => pagesOf (pf ps 0 0 52 + j * pf ps 1 0 48) x.imageSize) ++
      pagesOf (pf ps 2 0 52) (64 + 64 * x.slotN) ++ (((x.codecCtx.bind (kget u.codec)).map (·.pages)).getD []) = pages)
    (hlazy : u.LazyOk t q pages) : ∃ b done, b.origin = (t, q, ps, u.tick.count) ∧ ingestBatchCheck u t q r =
      .admitted (((((u.lazyClaimed t q pages).pinReads t q (x.batchPages ps)).putBatch n x b).stage t q
        [.ingestCommit n]).advanceBatch n) done := by
  obtain ⟨m, aug, fill⟩ := z
  have htick : (u.lazyClaimed t q pages).tick.count = u.tick.count := by rw [State.tick_lazyClaimed]
  cases hbuffers : x.codecCtx.bind (kget u.codec)
  all_goals
    simp only [hbuffers, Option.map_none, Option.map_some, Option.getD_none, Option.getD_some] at hpages
    apply Exists.intro
    apply Exists.intro
    refine ⟨?origin, ?check⟩
    case check =>
      unfold ingestBatchCheck
      rw [State.withBlock_of_ok _ hps rfl]
      simp only [hn, hx, hwords, hidle, hz, hbuffers, hpages, hlazy.claimLazy, htick, Bool.false_eq_true, if_false]
      rfl
    case origin => rfl

end Ingest

/-! ### The admissions -/

section Admissions

variable {s u v : State} {t : Fin 4} {q : Fin 64} {r : CmdRun} {ps : List W64}

/-- A command whose check leaves the queues, stages its effects and sets its result words is admitted with them. -/
theorem State.Offered.admitted_results {op a b : Nat} {f : OpCheck} {fx : List Effect} (h : s.Offered t q op u r)
    (hf : f u t q r = .admitted ((v.stage t q fx).results t q a b) true) (hqueues : v.queues = u.queues) :
    u.Admitted t q (r.effects ++ fx) (BitVec.ofNat 64 a) (BitVec.ofNat 64 b) true (s.offerRow t q op f) ∧
      (s.offerRow t q op f).mem.mem = v.mem.mem := by
  obtain ⟨hbegun, hfail⟩ := h.fresh
  have hrun := State.results_stage_run ((State.run_of_queues hqueues t q).trans h.run) fx a b
  have htick : v.tick.count = u.tick.count := congrArg TickSt.count (State.tick_of_queues hqueues)
  have hcontents : (s.offerRow t q op f).contents = v.contents := by
    rw [State.offerRow_of_admitted h hf, State.contents_admitOp]
    rfl
  exact ⟨State.offerRow_admitted h hf hrun hbegun hfail htick, congrArg Prod.fst hcontents⟩

/-- A command whose check stages its effects and does nothing else is admitted with them. -/
theorem State.Offered.admitted_stage {op : Nat} {f : OpCheck} {fx : List Effect} (h : s.Offered t q op u r)
    (hf : f u t q r = .admitted (u.stage t q fx) true) :
    u.Admitted t q (r.effects ++ fx) r.result0 r.result1 true (s.offerRow t q op f) :=
  (h.admitted hf ((State.Staged.refl h.run).stage fx)).1

/-- A command whose check claims its pages (in y), changes its context n and stages its commit has begun, and its context is
as the check has left it. -/
theorem State.Offered.begun_codec {op n : Nat} {f : OpCheck} {fx : List Effect} {done : Bool} {c : CodecCtx}
    {g : CodecCtx → CodecCtx} {y : State} (h : s.Offered t q op u r) (hf : f u t q r = .admitted (v.stage t q fx) done)
    (hy : y.works = u.works) (hcodec : v.codec = kmod y.codec n g) (hcourse : v.opCourse = y.opCourse)
    (hc : kget u.codec n = some c) :
    (∃ k, (s.offerRow t q op f).run t q = some k ∧ k.begun = true ∧ k.effects = r.effects ++ fx) ∧
      kget (s.offerRow t q op f).codec n = some (g c) := by
  have hstaged := State.opCourse_stage
    ((congrFun (congrFun (hcourse.trans (State.opCourse_of_works hy)) t) q).trans h.opCourse) fx
  refine ⟨State.opCourse_eq_some_iff.mp (h.begun hf hstaged), ?_⟩
  have hkept : (v.stage t q fx).codec = v.codec := rfl
  rw [(h.media hf).1, hkept, hcodec, kget_kmod, State.codec_of_works hy, if_pos rfl, hc, Option.map_some]

/-- INGEST_BATCH whose check passes has begun, and its stream holds its batch, whatever list the host gives. -/
theorem State.Offered.begun_batch {n : Nat} {x : Stream} {b : Batch} {done : Bool} (h : s.Offered t q 0x39 u r)
    (hworks : v.works = u.works) (hx : kget u.ingest n = some x)
    (hf : ingestBatchCheck u t q r = .admitted (((v.putBatch n x b).stage t q [.ingestCommit n]).advanceBatch n) done)
    (l : List (List W64)) :
    (kget ((s.offerRow t q 0x39 ingestBatchCheck).giveList t q l).ingest n).map (fun x => x.batch.map Batch.origin) =
        some (some b.origin) ∧
      ((s.offerRow t q 0x39 ingestBatchCheck).giveList t q l).opCourse t q =
        some (true, r.effects ++ [.ingestCommit n]) := by
  have hput := State.batchCourse_putBatch (b := b) ((congrArg (kget · n) (State.ingest_of_works hworks)).trans hx)
  obtain ⟨horigin, hcourse⟩ := Prod.mk.inj hput
  have hfresh : (v.putBatch n x b).opCourse t q = some (false, r.effects) :=
    (congrFun (congrFun (hcourse.trans (State.opCourse_of_works hworks)) t) q).trans h.opCourse
  have hstaged := State.opCourse_stage hfresh [.ingestCommit n]
  have hadvance := State.batchCourse_advanceBatch ((v.putBatch n x b).stage t q [.ingestCommit n]) n n
  have hbegun := h.begun hf ((congrFun (congrFun (State.opCourse_of_batchCourse hadvance) t) q).trans hstaged)
  have hgive := (s.offerRow t q 0x39 ingestBatchCheck).batchCourse_giveList t q l n
  refine ⟨?_, (congrFun (congrFun (State.opCourse_of_batchCourse hgive) t) q).trans hbegun⟩
  obtain ⟨hkept, -⟩ := Prod.mk.inj hgive
  obtain ⟨hdecided, -⟩ := Prod.mk.inj hadvance
  rw [(h.media hf).2] at hkept
  exact hkept.trans (hdecided.trans horigin)

end Admissions

/-- Settles O34: each check passes; it leaves the queues alone but for what it stages, and the start of the command keeps the
contexts and streams that it has left. -/
theorem codecAndIngestCommandsAreAdmitted : Obligations.CodecAndIngestCommandsAreAdmitted := by
  unfold Obligations.CodecAndIngestCommandsAreAdmitted
  intro s u t q op r h n begun
  refine ⟨fun ps hps => ⟨?codecOpen, ?decode, ?encode, ?ingestOpen, ?batch⟩, ?close, ?ingestClose⟩
  case codecOpen =>
    rintro rfl hwords bufs k e hpool he hk
    have hcheck := codecOpenCheck_admitted (q := q) (r := r) hps hwords hpool (State.openCtx_of_free he hk)
    have hcodec : kget (s.offerRow t q 0x30 codecOpenCheck).codec k = some (newCtx t none (openOf ps) bufs e ps) := by
      rw [(h.media hcheck).1]
      exact (kget_kset _ _ _ _).trans (if_pos rfl)
    obtain ⟨hadm, hmem⟩ := h.admitted_results hcheck rfl
    exact ⟨_, rfl, hmem, hadm, kget_of_find_isNone hk, hcodec⟩
  case decode =>
    rintro rfl hwords c hc hidle hread marks pages v j job hlazy hmarks
    obtain ⟨w, hw, hcodec, hcourse⟩ := State.putDecode_of_stop (n := pf ps 0 58 6) (c := c) (j := job) rfl hmarks
    have hcheck := codecDecodeCheck_admitted hps hwords rfl hc hidle hread rfl rfl hlazy rfl hw
    obtain ⟨hbegun, hctx⟩ := h.begun_codec hcheck (u.works_claims t q _ _) hcodec hcourse (State.kget_of_ownCtx hc)
    exact ⟨_, _, rfl, hbegun, hctx, rfl⟩
  case encode =>
    rintro rfl hwords c hc hidle da d hread halign hplanar hchannels hfmt hwidth hheight hframes hsource hlazy
    have hcheck := codecEncodeCheck_admitted hps hwords rfl hc hidle rfl rfl hread halign hplanar hchannels hfmt hwidth hheight
      hframes hsource rfl hlazy rfl
    obtain ⟨hbegun, hctx⟩ := h.begun_codec hcheck (u.works_claims t q _ _) (State.codec_modCodec _ _ _)
      (State.opCourse_modCodec _ _ _) (State.kget_of_ownCtx hc)
    exact ⟨_, _, _, rfl, hbegun, hctx, rfl, rfl, rfl, rfl, by simp [CodecCtx.newJob]⟩
  case ingestOpen =>
    rintro rfl hwords i bufs ctx y coded hi hpool hraw hctx hpossible hallowed htake
    obtain ⟨⟨frames, w⟩, hw⟩ := Option.isSome_iff_exists.mp htake
    have hcheck := ingestOpenCheck_admitted (q := q) (r := r) hps hwords rfl hi hpool hraw hctx rfl hpossible hallowed hw
    have hqueues := (State.queues_takeSave hw).trans ((State.queues_roomFor y t _).trans (State.queues_streamCtx hctx))
    have hingest : kget (s.offerRow t q 0x38 ingestOpenCheck).ingest i = some (newStream t ps ctx frames) := by
      rw [(h.media hcheck).2]
      exact (kget_kset _ _ _ _).trans (if_pos rfl)
    exact ⟨_, _, rfl, (h.admitted_results hcheck hqueues).1, kget_of_find_isNone hi, hingest, rfl, rfl, rfl, rfl, rfl, rfl⟩
  case batch =>
    rintro rfl l x hx hwords hidle z hz hlazy
    obtain ⟨b, done, horigin, hcheck⟩ := ingestBatchCheck_admitted hps rfl hx hwords hidle hz rfl hlazy
    obtain ⟨hbatch, hcourse⟩ := h.begun_batch (u.works_claims t q _ _) (State.kget_of_ownStream hx) hcheck l
    obtain ⟨y, hy, hbatch⟩ := Option.map_eq_some_iff.mp hbatch
    obtain ⟨c, hc, hc'⟩ := Option.map_eq_some_iff.mp hbatch
    simp only [Batch.origin] at horigin hc'
    obtain ⟨ht, hq, hparams, hadmitted⟩ : c.t = t ∧ c.q = q ∧ c.params = ps ∧ c.admitted = u.tick.count := by
      simpa only [Prod.mk.injEq] using hc'.trans horigin
    exact ⟨_, y, c, rfl, State.opCourse_eq_some_iff.mp hcourse, hy, hc, ht, hq, hparams, hadmitted⟩
  case close =>
    rintro rfl c hc hidle
    have hcheck := codecCloseCheck_admitted (q := q) (r := r) rfl hc hidle
    exact ⟨_, rfl, h.admitted_stage hcheck, (h.media hcheck).1⟩
  case ingestClose =>
    rintro rfl x hx hidle
    have hcheck := ingestCloseCheck_admitted (q := q) (r := r) rfl hx hidle
    exact ⟨_, rfl, h.admitted_stage hcheck, (h.media hcheck).2⟩

end Sys2Proof.Machine
end

