-- ==== Sys2Proof/Proofs/IngestResults.lean ====
section
/-! SUPPORT. The results of ingest and of the codec units (R228, R233, R234, R240, R245 to R247, R252, R253): the first
datagram of a sample, host reads, the timers of a batch, and the frames of the decode and encode units; with them the proof of
O59. -/
namespace Sys2Proof.Machine

open Sys2Proof

/-! ### Lists and maps -/

theorem mem_insertBy {α : Type} {lt : α → α → Bool} {x z : α} {l : List α} :
    z ∈ insertBy lt x l ↔ z = x ∨ z ∈ l := by
  induction l with
  | nil => simp [insertBy]
  | cons y r ih =>
    unfold insertBy
    split
    · exact List.mem_cons
    · rw [List.mem_cons, ih, List.mem_cons, or_left_comm]

theorem mem_sortBy {α : Type} {lt : α → α → Bool} {z : α} {l : List α} : z ∈ sortBy lt l ↔ z ∈ l := by
  have hfold : ∀ acc : List α, z ∈ l.foldl (fun acc x => insertBy lt x acc) acc ↔ z ∈ acc ∨ z ∈ l := by
    induction l with
    | nil => simp
    | cons x r ih =>
      intro acc
      rw [List.foldl_cons, ih, mem_insertBy, List.mem_cons, or_assoc, or_left_comm]
  exact (hfold []).trans (by simp)

theorem kset_of_lt {β : Type} {m : KMap β} {k : Nat} {v : β} (h : ∀ x ∈ m, x.1 < k) : kset m k v = m ++ [(k, v)] := by
  induction m with
  | nil => rfl
  | cons y r ih =>
    obtain ⟨hy, hr⟩ := List.forall_mem_cons.mp h
    rw [kset, if_neg (Nat.not_lt.mpr (Nat.le_of_lt hy)), if_neg (Nat.ne_of_gt hy), ih hr, List.cons_append]

/-- Keys set in rising order are appended. -/
theorem foldl_kset_of_rising {β : Type} {l m : KMap β} (h : kRising (m ++ l)) :
    l.foldl (fun m p => kset m p.1 p.2) m = m ++ l := by
  induction l generalizing m with
  | nil => simp
  | cons x r ih =>
    obtain ⟨-, -, hlt⟩ := List.pairwise_append.mp h
    rw [List.foldl_cons, kset_of_lt (fun y hy => hlt y hy x List.mem_cons_self), ih (by simpa using h), List.append_assoc, List.singleton_append]

/-- Bytes under the keys from an offset on. -/
def bytesFrom (off : Nat) (bs : List Byte) : KMap Byte := bs.mapIdx (fun i v => (off + i, v))

theorem kRising_bytesFrom (off : Nat) (bs : List Byte) : kRising (bytesFrom off bs) := by
  refine List.pairwise_iff_getElem.mpr (fun i j hi hj hij => ?_)
  simpa [bytesFrom] using hij

theorem kget_bytesFrom (off : Nat) (bs : List Byte) (i : Nat) : kget (bytesFrom off bs) (off + i) = bs[i]? := by
  induction bs generalizing off i with
  | nil => rfl
  | cons b r ih =>
    have htail : bytesFrom off (b :: r) = (off, b) :: bytesFrom (off + 1) r := by
      simp [bytesFrom, List.mapIdx_cons, Nat.add_assoc, Nat.add_comm 1]
    cases i with
    | zero => simp [htail, kget]
    | succ i => rw [htail, kget, if_neg (by omega), ← Nat.add_assoc, Nat.add_right_comm, ih, List.getElem?_cons_succ]

/-! ### The first datagram of a sample -/

/-- The bytes of a sample's first fragment are the fragment's, and it conflicts with none. -/
theorem Sample.addBytes_of_empty {y : Sample} (hy : y.bytes = []) (off : Nat) (bs : List Byte) :
    y.addBytes off bs = ({ y with bytes := bytesFrom off bs }, false) := by
  have hkeys : bs.mapIdx (fun i v => (off + i, v)) = bytesFrom off bs := rfl
  have hset : (bytesFrom off bs).foldl (fun m p => kset m p.1 p.2) [] = bytesFrom off bs :=
    foldl_kset_of_rising (m := []) (kRising_bytesFrom off bs)
  have hclash : (bytesFrom off bs).any (fun _ => false) = false := List.any_eq_false.mpr (fun _ _ => Bool.false_ne_true)
  have hall : (bytesFrom off bs).filter (fun _ => true) = bytesFrom off bs := List.filter_eq_self.mpr (fun _ _ => rfl)
  unfold Sample.addBytes
  simp only [hkeys, hy, kget, Option.isNone_none, hall, hset, hclash, Bool.or_false]

/-- What some of the members add up to is at most what all do. -/
theorem sum_map_filter_le {α : Type} (l : List α) (p : α → Bool) (f : α → Nat) :
    ((l.filter p).map f).sum ≤ (l.map f).sum := by
  induction l with
  | nil => exact Nat.le_refl _
  | cons a l ih =>
    rw [List.filter_cons, List.map_cons, List.sum_cons]
    split
    · rw [List.map_cons, List.sum_cons]
      exact Nat.add_le_add_left ih _
    · exact Nat.le_trans ih (Nat.le_add_left _ _)

/-- A batch that is not in progress goes on with nothing. -/
theorem State.advanceBatch_of_idle {s : State} {n : Nat} (h : ∀ x, kget s.ingest n = some x → x.batch = none) :
    s.advanceBatch n = s := by
  have hsettle : s.settle n = s := by
    unfold State.settle
    cases hx : kget s.ingest n with
    | none => rfl
    | some x => simp only [h x hx]
  unfold State.advanceBatch State.writeBatch
  rw [hsettle]
  cases hx : kget s.ingest n with
  | none => rfl
  | some x => simp only [h x hx]

/-- The sample that its first datagram begins (R246, R247). -/
def firstSample (d : List Byte) : Sample :=
  { position := leAt d 8 8, sampleId := BitVec.ofNat 64 (leAt d 16 8), total := leAt d 24 4, frames := leAt d 6 2
    digest := leAt d 4 2 % 2 = 1, captureS := leAt d 32 8, captureNs := leAt d 40 4, bytes := [], corrupt := false
    completeTick := none, arrivedNs := 0, spent := 0, shownN := 0, seqs := 0, shown := [], range := false, result := none }

/-- A sample is complete from the arrival of its last byte on. -/
def Sample.arrive (y : Sample) (tick : TickSt) : Sample :=
  if y.complete && y.completeTick.isNone then { y with completeTick := some tick.count, arrivedNs := tick.localNs } else y

theorem Sample.arrive_keeps (y : Sample) (tick : TickSt) : (y.arrive tick).position = y.position ∧
    (y.arrive tick).sampleId = y.sampleId ∧ (y.arrive tick).total = y.total ∧ (y.arrive tick).frames = y.frames ∧
    (y.arrive tick).bytes = y.bytes := by
  unfold Sample.arrive
  split
  · exact ⟨rfl, rfl, rfl, rfl, rfl⟩
  · exact ⟨rfl, rfl, rfl, rfl, rfl⟩

/-- The stream with a sample in the place of those at a position. -/
def Stream.receive (x : Stream) (pos : Nat) (y : Sample) : Stream :=
  { x with
    samples := sortBy (fun (a b : Sample) => decide (a.position < b.position))
      ((x.samples.filter (fun z => z.position != pos)) ++ [y]) }

theorem Stream.mem_receive {x : Stream} {pos : Nat} {y z : Sample} :
    z ∈ (x.receive pos y).samples ↔ (z ∈ x.samples ∧ z.position ≠ pos) ∨ z = y := by
  simp [Stream.receive, mem_sortBy]

theorem Stream.sample_eq_none_iff {x : Stream} {pos : Nat} : x.sample pos = none ↔ ∀ y ∈ x.samples, y.position ≠ pos := by
  simp [Stream.sample]

section Datagram

variable {s : State} {port : Fin 3} {d : List Byte} {x : Stream}

theorem execIngestDatagram_of_no_stream (hport : port.val ≠ 2) (hup : 4 ∉ s.health.failedUnits)
    (hx : kget s.ingest (leAt d 1 1) = none) : execIngestDatagram port d s = .next (s.bump 0x9029 9 1) := by
  unfold execIngestDatagram
  simp [hport, hup, hx]

/-- The first datagram of a sample begins it with the datagram's bytes. -/
theorem execIngestDatagram_of_first (hport : port.val ≠ 2) (hup : 4 ∉ s.health.failedUnits)
    (hx : kget s.ingest (leAt d 1 1) = some x) (hidle : x.batch = none) (hlen : 48 ≤ d.length) (hversion : leAt d 0 1 = 1)
    (hnumber : leAt d 1 1 ≤ 15) (hvisible : x.visible = true) (hsource : x.source ≠ 0)
    (hkey : leAt d 2 2 = pf x.words 4 52 12) (hfrom : x.position ≤ leAt d 8 8) (hto : leAt d 8 8 < x.position + 4 * x.slotN)
    (hfits : leAt d 28 4 + (d.length - 48) ≤ leAt d 24 4) (hpos : 1 ≤ leAt d 24 4)
    (hroom : (x.samples.map (·.total)).sum + leAt d 24 4 ≤ x.rxBytes) (hnew : x.sample (leAt d 8 8) = none) :
    execIngestDatagram port d s = .next ((s.bump 0x9029 0xB 0).modStream (leAt d 1 1) (fun x => x.receive
      (leAt d 8 8) (({ firstSample d with bytes := bytesFrom (leAt d 28 4) (d.drop 48) } : Sample).arrive s.tick))) := by
  have hrun : ¬ (decide (port.val = 2) || s.health.failedUnits.contains 4) = true := by simp [hport, hup]
  have hsum : ((x.samples.filter (fun y => y.position != leAt d 8 8)).map (·.total)).sum + leAt d 24 4 ≤ x.rxBytes :=
    Nat.le_trans (Nat.add_le_add_right (sum_map_filter_le x.samples _ _) _) hroom
  have hbody : leAt d 28 4 + (d.drop 48).length ≤ leAt d 24 4 := by rwa [List.length_drop]
  have hheader : ¬ (decide (d.length < 48) || decide (leAt d 0 1 ≠ 1) || decide (15 < leAt d 1 1) || !x.visible ||
      decide (x.source = 0) || decide (leAt d 2 2 ≠ pf x.words 4 52 12) || decide (leAt d 8 8 < x.position) ||
      decide (x.position + 4 * x.slotN ≤ leAt d 8 8) || decide (leAt d 24 4 < leAt d 28 4 + (d.drop 48).length) ||
      ((none : Option Sample).map (fun y => y.total != leAt d 24 4 || y.sampleId != BitVec.ofNat 64 (leAt d 16 8))).getD false ||
      decide (leAt d 24 4 = 0) || decide (x.rxBytes <
        ((x.samples.filter (fun y => y.position != leAt d 8 8)).map (·.total)).sum + leAt d 24 4)) = true := by
    simp only [hversion, hvisible, hkey, Option.map_none, Option.getD_none, Bool.not_true, ne_eq, not_true_eq_false,
      decide_false, Bool.or_false, Bool.or_eq_true, decide_eq_true_eq]
    omega
  have htaken : x.taken (leAt d 8 8) = false := by simp [Stream.taken, hidle]
  have hadd := Sample.addBytes_of_empty (y := firstSample d) rfl (leAt d 28 4) (d.drop 48)
  unfold execIngestDatagram
  simp only [if_neg hrun, hx, hnew, if_neg hheader, htaken, Bool.false_eq_true, if_false, Option.getD_none]
  change Host.Outcome.next (((s.bump 0x9029 0xB (if ((firstSample d).addBytes (leAt d 28 4) (d.drop 48)).2 then 1 else
    0)).modStream (leAt d 1 1) (fun x => x.receive (leAt d 8 8)
      (((firstSample d).addBytes (leAt d 28 4) (d.drop 48)).1.arrive s.tick))).advanceBatch (leAt d 1 1)) = _
  rw [hadd]
  refine congrArg Host.Outcome.next (State.advanceBatch_of_idle (fun z hz => ?_))
  obtain rfl := Option.some.inj ((State.kget_modStream hx _).symm.trans hz)
  exact hidle

end Datagram

/-! ### Host reads and the decode budget -/

section HostRead

variable {s : State} {n : Fin 16} {x : Stream} {b : Batch}

theorem length_slice (bs : List Byte) (off n : Nat) : (Machine.slice bs off n).length = n := by
  have htake : ((bs.drop off).take n).length ≤ n := List.length_take_le _ _
  unfold Machine.slice
  rw [List.length_append, List.length_replicate]
  omega

/-- The sample of a slot that the module has read from the host with its descriptor (R245). -/
def hostSample (pos : Nat) (desc : List W64) (bs : List Byte) (tick : TickSt) : Sample :=
  { position := pos, sampleId := nth desc 1 0, total := wbits (nth desc 2 0) 32 32, frames := wbits (nth desc 2 0) 16 16
    digest := (nth desc 2 0).getLsbD 0, captureS := 0, captureNs := 0
    bytes := (Machine.slice bs 0 (wbits (nth desc 2 0) 32 32)).mapIdx (fun i v => (i, v)), corrupt := false
    completeTick := some tick.count, arrivedNs := tick.localNs, spent := 0, shownN := 0, seqs := 0
    shown := [], range := false, result := none }

theorem length_hostSample_bytes (pos : Nat) (desc : List W64) (bs : List Byte) (tick : TickSt) :
    (hostSample pos desc bs tick).bytes.length = (hostSample pos desc bs tick).total := by
  rw [hostSample, List.length_mapIdx, length_slice]

/-- A host read that fails decides its slot as UNREADABLE. -/
theorem execHostSampleReadDone_of_error {slot : Nat} {sl : SlotSt} (hx : kget s.ingest n.val = some x)
    (hb : x.batch = some b) (hsource : x.source = 0) (hsl : b.slots[slot]? = some sl) (hopen : sl.reason = none)
    (hsample : x.sample sl.position = none) : execHostSampleReadDone n slot none s =
      .next ((s.decideSlot n.val b slot 4 (fun sl =>
        { sl with sampleId := nth ((b.hostList[slot]?).getD []) 1 0 })).writeBatch n.val) := by
  unfold execHostSampleReadDone
  simp [hx, hb, hsl, hsource, hopen, hsample]

/-- A host read that succeeds completes the sample of its slot. -/
theorem execHostSampleReadDone_of_bytes {slot : Nat} {sl : SlotSt} {desc : List W64} (hx : kget s.ingest n.val = some x)
    (hb : x.batch = some b) (hsource : x.source = 0) (hsl : b.slots[slot]? = some sl) (hopen : sl.reason = none)
    (hsample : x.sample sl.position = none) (hdesc : b.hostList[slot]? = some desc) (bs : List Byte) :
    execHostSampleReadDone n slot (some bs) s = .next ((s.modStream n.val (fun x =>
      { x with samples := x.samples ++ [hostSample sl.position desc bs s.tick] })).advanceBatch n.val) := by
  unfold execHostSampleReadDone
  simp [hx, hb, hsl, hsource, hopen, hsample, hdesc, hostSample]

/-- A spent budget abandons the sample that is being decoded. -/
theorem execDecodeBudgetExpiry_of_pos {pos : Nat} (hx : kget s.ingest n.val = some x) (hb : x.batch = some b)
    (hpos : x.decodePos s.tick.count = some pos) (hreplay : b.replay = false) : execDecodeBudgetExpiry n s =
      .next ((s.modSample n.val pos (fun y => { y with result := some 2 })).advanceBatch n.val) := by
  unfold execDecodeBudgetExpiry
  simp [hx, hb, hpos, hreplay]

end HostRead

/-! ### The wait for samples -/

/-- The batch of stream n, which holds no sample: it has `len` slots, none of them of a replay, and those of `done` are decided
as ABSENT; the codec contexts are those of s. -/
structure State.Absent (s w : State) (n len : Nat) (done : Nat → Prop) : Prop where
  codec : w.codec = s.codec
  stream : ∃ z c, kget w.ingest n = some z ∧ z.samples = [] ∧ z.batch = some c ∧ c.slots.length = len ∧
    (∀ sl ∈ c.slots, sl.expect = none) ∧ ∀ i sl, done i → c.slots[i]? = some sl → sl.reason = some 3

/-- The slot is decided as ABSENT, with the number of its sample where it has one (R253). -/
def State.decideAbsent (s : State) (n j : Nat) : State :=
  match (kget s.ingest n).bind (fun x => x.batch.map (fun b => (x, b))) with
  | some (x, b) => s.decideSlot n b j 3 (fun sl => { sl with sampleId := ((x.sample sl.position).map (·.sampleId)).getD 0 })
  | none => s

section Absent

variable {s w : State} {n len : Nat} {done : Nat → Prop}

theorem State.kget_modBatch {z : Stream} {c : Batch} (hz : kget w.ingest n = some z) (hc : z.batch = some c)
    (f : Batch → Batch) : kget (w.modBatch n f).ingest n = some { z with batch := some (f c) } := by
  rw [State.modBatch, State.kget_modStream hz, hc, Option.map_some]

theorem State.Absent.decideAbsent (h : s.Absent w n len done) (j : Nat) :
    s.Absent (w.decideAbsent n j) n len (fun i => i = j ∨ done i) := by
  obtain ⟨hcodec, z, c, hz, hsamples, hc, hlen, hexpect, hdone⟩ := h
  have hplain : (c.slots[j]?).bind (·.expect) = none := by
    cases hsl : c.slots[j]? with
    | none => rfl
    | some sl => exact hexpect sl (List.mem_of_getElem? hsl)
  unfold State.decideAbsent
  simp only [hz, hc, Option.bind_some, Option.map_some, State.decideSlot, hplain, Option.isSome_none, Bool.false_and,
    Bool.false_eq_true, if_false]
  refine ⟨hcodec, _, _, State.kget_modBatch hz hc _, hsamples, rfl, ?_, ?_, ?_⟩
  · simpa [modNth] using hlen
  · intro sl hsl
    obtain ⟨i, hi, rfl⟩ := List.mem_mapIdx.mp hsl
    split
    · exact hexpect c.slots[i] (List.getElem_mem hi)
    · exact hexpect c.slots[i] (List.getElem_mem hi)
  · intro i sl hi hsl
    obtain ⟨a, ha, rfl⟩ := Option.map_eq_some_iff.mp ((List.getElem?_mapIdx ..).symm.trans hsl)
    split
    · rfl
    · exact hdone i a (hi.resolve_left ‹_›) ha

theorem State.Absent.each (h : s.Absent w n len done) (l : List Nat) :
    s.Absent (w.each l (fun w j => w.decideAbsent n j)) n len (fun i => i ∈ l ∨ done i) := by
  unfold State.each
  induction l generalizing w done with
  | nil => simpa using h
  | cons j l ih =>
    have hrest := ih (h.decideAbsent j)
    simp only [List.mem_cons, or_assoc, or_left_comm, List.foldl_cons] at hrest ⊢
    exact hrest

theorem State.Absent.writeBatch (h : s.Absent w n len done) : s.Absent (w.writeBatch n) n len done := by
  obtain ⟨hcodec, z, c, hz, hsamples, hc, hrest⟩ := h
  rcases w.works_writeBatch n with hsame | hwritten
  · exact ⟨(State.codec_of_works hsame).trans hcodec, z, c,
      (congrArg (kget · n) (State.ingest_of_works hsame)).trans hz, hsamples, hc, hrest⟩
  · exact ⟨(State.codec_of_works hwritten).trans hcodec, _, _,
      (congrArg (kget · n) (State.ingest_of_works hwritten)).trans (State.kget_modBatch hz hc _), hsamples, rfl, hrest⟩

theorem State.each_of_id {α : Type} {l : List α} {f : State → α → State} (h : ∀ a ∈ l, f s a = s) : s.each l f = s := by
  unfold State.each
  induction l with
  | nil => rfl
  | cons a l ih =>
    obtain ⟨ha, hl⟩ := List.forall_mem_cons.mp h
    rw [List.foldl_cons, ha, ih hl]

/-- Without samples no slot is decided. -/
theorem State.settle_of_no_samples {z : Stream} (hz : kget w.ingest n = some z) (hsamples : z.samples = []) :
    w.settle n = w := by
  unfold State.settle
  simp only [hz, hsamples]
  cases hc : z.batch with
  | none => rfl
  | some c =>
    refine State.each_of_id (fun j _ => ?_)
    simp only [State.each, List.foldl_nil, hz, hc, Option.bind_some, Option.map_some, Stream.sample, hsamples,
      List.find?_nil]
    cases c.slots[j]? with
    | none => rfl
    | some sl => simp

theorem State.Absent.advanceBatch (h : s.Absent w n len done) : s.Absent (w.advanceBatch n) n len done := by
  obtain ⟨-, z, -, hz, hsamples, -⟩ := id h
  rw [State.advanceBatch, State.settle_of_no_samples hz hsamples]
  exact h.writeBatch

end Absent

/-- The expired wait of a stream that holds no sample decides every slot of its batch as ABSENT. -/
theorem State.arrivalWait_of_no_samples {s : State} {n : Nat} {x : Stream} {b : Batch} (hx : kget s.ingest n = some x)
    (hb : x.batch = some b) (hsource : x.source = 1) (hreplay : b.replay = false)
    (hwait : b.admitted + x.wait ≤ s.tick.count) (hsamples : x.samples = []) (hopen : ∀ sl ∈ b.slots, sl.reason = none) :
    s.arrivalWait n = (s.each (List.range b.slots.length) (fun w j => w.decideAbsent n j)).writeBatch n := by
  have hdue : ¬ (decide (x.source = 0) || decide (s.tick.count < b.admitted + x.wait) ||
      decide (x.source = 2) && !false) = true := by
    simpa [hsource] using hwait
  unfold State.arrivalWait
  simp only [hx, hb, if_neg hdue, hreplay]
  refine congrArg (fun l => (s.each l (fun w j => w.decideAbsent n j)).writeBatch n)
    (List.filter_eq_self.mpr (fun j hj => ?_))
  have hget := List.getElem?_eq_getElem (List.mem_range.mp hj)
  simp only [hget, hopen _ (List.getElem_mem _), Stream.sample, hsamples, List.find?_nil]
  rfl

/-- The expiry of the wait of a stream of sent samples that holds none (R253): every slot is ABSENT. -/
theorem State.absent_streamBoundary {s : State} {n : Nat} {x : Stream} {b : Batch} (hx : kget s.ingest n = some x)
    (hb : x.batch = some b) (hsource : x.source = 1) (hreplay : b.replay = false)
    (hwait : b.admitted + x.wait ≤ s.tick.count) (hsamples : x.samples = [])
    (hopen : ∀ sl ∈ b.slots, sl.reason = none ∧ sl.expect = none) :
    s.Absent (s.streamBoundary n) n b.slots.length (fun i => i < b.slots.length) := by
  have hstart : s.Absent s n b.slots.length (fun _ => False) :=
    ⟨rfl, x, b, hx, hsamples, hb, rfl, fun sl hsl => (hopen sl hsl).2, fun _ _ hfalse => hfalse.elim⟩
  have htaken : ∀ k, s.liveTakes n k = s := by
    have hnone : s.liveTake n = none := by
      unfold State.liveTake
      simp [hx, hb, hsource]
    intro k
    cases k with
    | zero => rfl
    | succ k => rw [State.liveTakes, hnone]
  have hboundary : s.streamBoundary n = (s.arrivalWait n).advanceBatch n := by
    unfold State.streamBoundary
    simp only [hx, hb, Option.isSome_some, if_true, hsamples, State.each, List.foldl_nil, htaken]
  rw [hboundary, State.arrivalWait_of_no_samples hx hb hsource hreplay hwait hsamples (fun sl hsl => (hopen sl hsl).1)]
  have hdecided := ((hstart.each (List.range b.slots.length)).writeBatch).advanceBatch
  simpa only [List.mem_range, or_false] using hdecided

/-! ### The codec units -/

section Units

variable {s u v : State} {n : Nat} {c : CodecCtx} {j : CodecJob}

/-- CODEC_FRAME_DONE of a unit that works serves the next context in its round (R228). -/
theorem execCodecFrameDone_of_next {unit : UnitKind} {engine : Fin 4} {key : Nat}
    (hkey : (if (unit == .encode) = true then 4 else 0) + engine.val = key) (hup : engine.val ∉ s.health.failedUnits)
    (hnext : s.nextCtx (unit == .encode) engine.val key = some (n, c)) (hserve : s.serve n c = some v) :
    execCodecFrameDone unit engine s = .next { v with lastServed := kset v.lastServed key n } := by
  have hworks : ¬ s.health.failedUnits.contains engine.val = true := by simpa using hup
  unfold execCodecFrameDone
  simp only [hkey, if_neg hworks, hnext, hserve]

theorem State.serve_of_command (hjob : c.job = some j) (hstream : c.stream = none) :
    s.serve n c = if c.encode then s.encodeNext n c j else s.decodeNext n c j := by
  unfold State.serve
  simp only [hjob, hstream]

@[simp] theorem State.codec_countFrame (s : State) (o : DecOut) : (s.countFrame o).codec = s.codec := by
  unfold State.countFrame
  simp only [State.bump_codec]

@[simp] theorem State.mem_countFrame (s : State) (o : DecOut) : (s.countFrame o).mem = s.mem := by
  unfold State.countFrame
  simp only [State.bump_mem]

/-- The job of a decode command after a frame (R234): the counts, the stream and the buffers go on. -/
def CodecJob.decoded (j : CodecJob) (o : DecOut) : CodecJob :=
  { j with
    consumed := j.consumed + o.bytes
    frames := j.frames + (if o.decoded then 1 else 0)
    written := j.written + 1
    input := [((((j.input.head?).map (·.1)).getD []).drop o.bytes, 0)]
    buffers := o.buffers
    decodeIndex := j.decodeIndex + 1
    history := j.history ++ (((j.input.head?).map (·.1)).getD []).take o.bytes }

/-- A decode unit ends a frame: what it writes is stored, and the job goes on where no stop holds. -/
theorem State.decodeNext_of_written {o : DecOut}
    (ho : s.decodeFrame (s.reachSlice (opRef j.t j.q)) (c.decIn j) = o)
    (hu : s.opWrites j.t j.q (o.writes ++ [(pf j.params 3 0 52 + 32 * j.written, o.record)]) = some u)
    (hstop : (u.countFrame o).decodeStop c (j.decoded o) = none) : s.decodeNext n c j =
      some ((u.countFrame o).modCodec n (fun c => { c with job := some (j.decoded o) })) := by
  unfold CodecJob.decoded at hstop ⊢
  unfold State.decodeNext State.putDecode
  simp only [ho, hu, Option.bind_some, hstop]

/-- An attempt that is too large for the rate is tried again with a higher quantiser, at most 3 times (R240). -/
theorem State.encodeNext_of_excess {quant : Nat × Nat × Nat} {qp : Nat} {key : Bool} {samples unit : List Byte}
    (hkey : j.key c = key) (hquant : quantOf (((s.run j.t j.q).map (·.quant)).getD []) c.quality = quant)
    (hqp : (if j.attempt = 0 then (if key then quant.2.1 else quant.1) else j.qp) = qp)
    (hsamples : (nth j.input j.frames ([], 0)).1 = samples)
    (hunit : c.temporalUnit j.history (bufferBytesOf s (s.reachSlice (opRef j.t j.q)) (c.encIn j [])) samples qp key = unit)
    (hrate : c.maxKbps ≠ 0) (hexcess : j.allowed c < ((8 * unit.length : Nat) : Int)) (hmore : qp ≠ 255)
    (hattempt : j.attempt ≠ 3) : s.encodeNext n c j = some ((s.bump 0x9028 8 1).modCodec n (fun c => { c with
      job := some { j with attempt := j.attempt + 1, qp := min 255 (qp + quant.2.2 * 2 ^ j.attempt) } })) := by
  have hagain : (decide (c.maxKbps ≠ 0) && decide (j.allowed c < ((8 * unit.length : Nat) : Int)) &&
      decide (qp ≠ 255) && decide (j.attempt ≠ 3)) = true := by
    simp only [hrate, hexcess, hmore, hattempt, ne_eq, not_false_eq_true, decide_true, Bool.and_self]
  unfold State.encodeNext
  simp only [hkey, hquant, hqp, hsamples, hunit, if_pos hagain]

end Units

/-- Settles O59: each row is taken apart once, in the lemmas above; the statement picks out what they leave. -/
theorem ingestAndCodecUnitResults : Obligations.IngestAndCodecUnitResults := by
  unfold Obligations.IngestAndCodecUnitResults
  refine ⟨fun s => ⟨fun port d hport hup => ⟨?noStream, ?first⟩, fun n x b hx hb => ⟨?reads, ?budget, ?wait⟩⟩, ?units⟩
  case noStream => exact fun hx => execIngestDatagram_of_no_stream hport hup hx
  case first =>
    intro x hx hidle hlen hversion hnumber hvisible hsource hkey hfrom hto hfits hpos hroom hnew
    have hexec := execIngestDatagram_of_first hport hup hx hidle hlen hversion hnumber hvisible hsource hkey hfrom hto hfits
      hpos hroom hnew
    obtain ⟨hposition, hid, htotal, hframes, hbytes⟩ := Sample.arrive_keeps
      { firstSample d with bytes := bytesFrom (leAt d 28 4) (d.drop 48) } s.tick
    refine ⟨_, _, _, hexec, State.kget_modStream hx _, rfl,
      Stream.mem_receive.mpr (.inr rfl), hposition, hid, htotal, hframes, fun i _ => ?_, ?_, fun y hy => ?_, rfl⟩
    · rw [hbytes]
      exact kget_bytesFrom _ _ i
    · rw [hbytes]
      exact List.length_mapIdx.trans List.length_drop
    · exact Stream.mem_receive.mpr (.inl ⟨hy, Stream.sample_eq_none_iff.mp hnew y hy⟩)
  case reads =>
    intro slot sl hsource hsl hopen hsample
    refine ⟨execHostSampleReadDone_of_error hx hb hsource hsl hopen hsample, fun desc hdesc bs => ?_⟩
    exact ⟨hostSample sl.position desc bs s.tick, rfl, rfl, rfl, rfl, rfl, rfl, length_hostSample_bytes _ _ _ _,
      execHostSampleReadDone_of_bytes hx hb hsource hsl hopen hsample hdesc bs⟩
  case budget => exact fun pos hpos hreplay => execDecodeBudgetExpiry_of_pos hx hb hpos hreplay
  case wait =>
    intro hsource hreplay hwait hsamples hopen
    obtain ⟨hcodec, z, c, hz, -, hc, hlen, -, hdone⟩ :=
      State.absent_streamBoundary hx hb hsource hreplay hwait hsamples hopen
    refine ⟨_, z, c, rfl, hz, hc, hlen, fun sl hsl => ?_, hcodec⟩
    obtain ⟨i, hi, rfl⟩ := List.getElem_of_mem hsl
    exact hdone i _ (hlen ▸ hi) (List.getElem?_eq_getElem hi)
  case units =>
    intro s engine n c j hup hc hstream hjob
    refine ⟨?decode, ?encode⟩
    case decode =>
      intro hnext hencode o record k
      obtain ⟨w, hw⟩ : ∃ w, exec (.codecFrameDone .decode engine) s = .next w := ⟨_, rfl⟩
      refine ⟨w, hw, fun u hu hstop => ?_⟩
      have hserve := (State.serve_of_command (s := s) (n := n) hjob hstream).trans
        ((if_neg (by simp [hencode])).trans (State.decodeNext_of_written rfl hu hstop))
      have hctx : kget (u.countFrame o).codec n = some c := by
        rw [State.codec_countFrame, State.codec_of_works (State.works_opWrites hu), hc]
      have hmem := State.mem_countFrame u o
      generalize u.countFrame o = y at hserve hctx hmem
      have hexec := execCodecFrameDone_of_next (unit := .decode) (Nat.zero_add _) hup hnext hserve
      obtain rfl := Host.Outcome.next.inj (hw.symm.trans hexec)
      have hjob' := State.kget_modCodec hctx (fun c => { c with job := some (j.decoded o) })
      exact ⟨hjob', (kget_kset _ _ _ _).trans (if_pos rfl), congrArg MemSt.mem hmem⟩
    case encode =>
      intro hnext hencode key e qp frame unit hrate hexcess hmore hattempt
      have hserve := (State.serve_of_command (s := s) (n := n) hjob hstream).trans
        ((if_pos hencode).trans (State.encodeNext_of_excess rfl rfl rfl rfl rfl hrate hexcess hmore hattempt))
      exact execCodecFrameDone_of_next (unit := .encode) rfl hup hnext hserve

end Sys2Proof.Machine
end

