-- ==== Sys2Proof/Proofs/OwnQueueWaits.lean ====
section
/-! SUPPORT. Waits of a command on its own queue (R263): the failure of the command that has such a wait for its own number or
more when it becomes the head, and that no other wait on the own queue is open; with them the proof of O29. -/
namespace Sys2Proof.Machine

open Sys2Proof

/-- Wait i of a command of queue q is in use and names queue q itself (R262). -/
def OwnWait (q : Fin 64) (ws : List W64) (i : Nat) : Prop := i < 4 ∧ cWaitEn ws i = true ∧ cWaitQ ws i = q.val

/-- The failure that R263 gives the commands of queue q. -/
def ownWaitFailure (q : Fin 64) : Failure := ⟨Config.errFenceInvalid, BitVec.ofNat 64 q.val, Config.noStrand, 0⟩

section Head

variable {s : State} {t : Fin 4} {q : Fin 64}

/-! ### The head command -/

/-- What becomes the head of a queue when its entry passes the checks of R290: the command, failed exactly when it waits on its
own queue for its own number or more. -/
theorem State.run_ensureHead {a : Avail} {rest : List Avail} {tau : Nat} (hactive : (s.queue t q).state = .active)
    (hrun : (s.queue t q).run = none) (havail : (s.queue t q).avail = a :: rest) (hdoorbell : s.doorbellOk a tau = true)
    (hok : (s.queue t q).commandOk ((s.queue t q).ended + 1) a.words = true) :
    ∃ fail, (s.ensureHead t q tau).run t q = some { CmdRun.new ((s.queue t q).ended + 1) a.words with fail := fail } ∧
      ((∃ i, OwnWait q a.words i ∧ (s.queue t q).ended + 1 ≤ cWaitV a.words i) → fail = some (ownWaitFailure q)) ∧
      ((∀ i, OwnWait q a.words i → cWaitV a.words i < (s.queue t q).ended + 1) → fail = none) := by
  simp only [State.ensureHead, State.run, hactive, hrun, havail, hdoorbell, hok, List.head?_cons, Option.isNone_none,
    beq_self_eq_true, Bool.and_self, Bool.not_true, Bool.false_eq_true, if_true, if_false, State.queue_modQueue]
  refine ⟨_, rfl, fun hwait => if_pos ?_, fun hbelow => if_neg ?_⟩
  · obtain ⟨i, ⟨hi, hen, hq⟩, hv⟩ := hwait
    exact List.any_eq_true.mpr ⟨i, List.mem_range.mpr hi, by simp [hen, hq, hv]⟩
  · intro hany
    obtain ⟨i, hi, hwait⟩ := List.any_eq_true.mp hany
    simp only [Bool.and_eq_true, beq_iff_eq, decide_eq_true_eq] at hwait
    obtain ⟨⟨hen, hq⟩, hv⟩ := hwait
    exact absurd hv (Nat.not_le.mpr (hbelow i ⟨List.mem_range.mp hi, hen, hq⟩))

/-! ### A failed head is not offered -/

/-- A head command that has failed is no candidate for admission. -/
theorem State.isCandidate_of_fail {r : CmdRun} {b : Failure} (hrun : s.run t q = some r) (hfail : r.fail = some b) :
    s.isCandidate t q = false := by
  simp [State.isCandidate, hrun, hfail]

/-- The row of a queue command does no more than make the next command the head, when that is no candidate. -/
theorem State.offerRow_of_not_candidate {op : Nat} {f : OpCheck} (h : (s.ensureHead t q 0).isCandidate t q = false) :
    s.offerRow t q op f = s.ensureHead t q 0 := by
  unfold State.offerRow
  dsimp only
  split
  · rfl
  · simp [h]

/-- The rows of the commands that are offered whole are offers with their opcodes and checks. -/
theorem exec_of_mem_offeredCommands {y : Nat × Instr × OpCheck} (hy : y ∈ offeredCommands t q) (s : State) :
    exec y.2.1 s = .next (s.offerRow t q y.1 y.2.2) := by
  revert y
  simp only [offeredCommands, List.forall_mem_append, List.forall_mem_cons, List.not_mem_nil, false_implies, implies_true,
    and_true]
  and_intros <;> rfl

/-! ### Open waits -/

/-- An open wait on the own queue is for the command's own number or more. -/
theorem State.exists_ownWait_of_mem_openWaits {n v : Nat} {ws : List W64} (hq : ∀ i < 4, cWaitQ ws i < 64)
    (hv : (q, v) ∈ s.openWaits t q n ws) : ∃ i, OwnWait q ws i ∧ n ≤ cWaitV ws i := by
  obtain ⟨i, hi, hopen⟩ := List.mem_filterMap.mp hv
  have hi := List.mem_range.mp hi
  obtain ⟨hcond, hsome⟩ := Option.ite_some_none_eq_some.mp hopen
  have hown : Fin.ofNat 64 (cWaitQ ws i) = q := congrArg Prod.fst hsome
  simp only [hown, Bool.and_eq_true, beq_self_eq_true, Bool.true_and, Bool.not_eq_true', decide_eq_false_iff_not,
    Nat.not_lt] at hcond
  obtain ⟨⟨hen, hn⟩, -⟩ := hcond
  refine ⟨i, ⟨hi, hen, ?_⟩, hn⟩
  rw [← hown, Fin.val_ofNat, Nat.mod_eq_of_lt (hq i hi)]

/-- The waits of an entry that passes the checks of R290 name queues that there are. -/
theorem Queue.cWaitQ_lt_of_commandOk {x : Queue} {n : Nat} {ws : List W64} (h : x.commandOk n ws = true) :
    ∀ i < 4, cWaitQ ws i < 64 := by
  intro i hi
  simp only [Queue.commandOk, Bool.and_eq_true, List.all_eq_true] at h
  obtain ⟨⟨-, hwaits⟩, -⟩ := h
  obtain ⟨⟨hq, -⟩, -⟩ := hwaits i (List.mem_range.mpr hi)
  exact of_decide_eq_true hq

end Head

/-- Settles O29: the head is known from `State.run_ensureHead`; failed, it is no candidate and its row leaves it so; not failed,
an open wait on the own queue would be a wait for its own number or more. -/
theorem ownQueueWaits : Obligations.OwnQueueWaits := by
  unfold Obligations.OwnQueueWaits
  intro s t q a rest x n own hactive hrun havail hdoorbell hok
  obtain ⟨fail, hhead, hfails, hpasses⟩ := State.run_ensureHead hactive hrun havail hdoorbell hok
  refine ⟨fun hwait y hy _ => ?_, fun hbelow => ?_⟩
  · have hfail := hfails hwait
    have hexec := exec_of_mem_offeredCommands hy s
    rw [State.offerRow_of_not_candidate (State.isCandidate_of_fail hhead hfail)] at hexec
    exact ⟨_, _, hexec, hhead, rfl, rfl, hfail⟩
  · refine ⟨_, hhead, rfl, hpasses hbelow, rfl, fun v hv => ?_⟩
    obtain ⟨i, hown, hn⟩ := State.exists_ownWait_of_mem_openWaits (Queue.cWaitQ_lt_of_commandOk hok) hv
    exact absurd hn (Nat.not_le.mpr (hbelow i hown))

end Sys2Proof.Machine
end

