-- ==== Sys2Proof/Proofs/PortSignals.lean ====
section
/-! SUPPORT. What a port's signals and the notes of changed entries do (R292, R315): they send, count, set cause bits and pending
vectors, and leave everything else of a state as it stands. -/
namespace Sys2Proof.Machine

open Sys2Proof

/-! ### A port after an update -/

theorem State.port_modPort (s : State) (t : Fin 4) (f : HostPort → HostPort) :
    (s.modPort t f).ports[t] = f s.ports[t] := by
  simp [State.modPort]

theorem State.port_modPort_ne (s : State) {t u : Fin 4} (f : HostPort → HostPort) (h : u ≠ t) :
    (s.modPort t f).ports[u] = s.ports[u] := by
  have hval : t.val ≠ u.val := fun e => h (Fin.ext e.symm)
  simp [State.modPort, hval]

/-- What a change of a port does not change in the port, it does not change in any. -/
theorem State.map_ports_modPort {β : Type} {s : State} {t : Fin 4} {f : HostPort → HostPort} (g : HostPort → β)
    (h : g (f s.ports[t]) = g s.ports[t]) : (s.modPort t f).ports.map g = s.ports.map g := by
  rw [State.modPort, Vector.map_set, h, ← Vector.set_getElem_self (xs := s.ports.map g) t.isLt, Vector.getElem_map]
  simp

theorem State.modPort_congr {s : State} {t : Fin 4} {f g : HostPort → HostPort} (h : f s.ports[t] = g s.ports[t]) :
    s.modPort t f = s.modPort t g := by
  simp only [State.modPort, h]

theorem State.modPort_of_id {s : State} {t : Fin 4} {f : HostPort → HostPort} (h : f s.ports[t] = s.ports[t]) :
    s.modPort t f = s := by
  simp only [State.modPort, h]
  simp

/-- A change of a port that leaves its queues alone leaves every queue alone. -/
theorem State.queue_modPort (s : State) (t u : Fin 4) (q : Fin 64) {f : HostPort → HostPort}
    (hf : ∀ p, (f p).queues = p.queues) :
    (s.modPort t f).queue u q = s.queue u q := by
  by_cases hu : u = t
  · subst hu
    rw [State.queue, State.port_modPort, hf]
    rfl
  · rw [State.queue, State.port_modPort_ne s f hu]
    rfl

theorem State.modQueue_congr {s : State} {t : Fin 4} {q : Fin 64} {f g : Queue → Queue}
    (h : f (s.queue t q) = g (s.queue t q)) : s.modQueue t q f = s.modQueue t q g :=
  State.modPort_congr (congrArg (fun x => { s.ports[t] with queues := s.ports[t].queues.set q x }) h)

/-! ### States that differ by signals only -/

/-- A port without its cause register and its pending vectors. -/
def HostPort.quiet (p : HostPort) : HostPort := { p with eventCause := 0, msixPending := 0 }

/-- A state without its dictionary, what it has sent, and the signals of its ports. -/
def State.quiet (s : State) : State :=
  { s with out := [], od := State.reset.od, ports := s.ports.map HostPort.quiet }

/-- The second state is the first with more sent and more causes set; dictionary and pending vectors may differ too. -/
structure State.Signals (s u : State) : Prop where
  quiet : u.quiet = s.quiet
  cause : ∀ (t : Fin 4) (i : Nat), s.ports[t].eventCause.getLsbD i = true → u.ports[t].eventCause.getLsbD i = true
  out : s.out ⊆ u.out

theorem State.quiet_modPort {s : State} {t : Fin 4} {f : HostPort → HostPort} (h : (f s.ports[t]).quiet = s.ports[t].quiet) :
    (s.modPort t f).quiet = s.quiet :=
  congrArg (fun ps => { s with out := [], od := State.reset.od, ports := ps }) (State.map_ports_modPort HostPort.quiet h)

namespace State.Signals

theorem refl (s : State) : s.Signals s := ⟨rfl, fun _ _ h => h, fun _ h => h⟩

theorem trans {s u w : State} (h : s.Signals u) (h' : u.Signals w) : s.Signals w :=
  ⟨h'.quiet.trans h.quiet, fun t i hi => h'.cause t i (h.cause t i hi), fun _ ho => h'.out (h.out ho)⟩

theorem each {α : Type} {l : List α} {f : State → α → State} (h : ∀ (s : State) (a : α), s.Signals (f s a)) (s : State) :
    s.Signals (s.each l f) := by
  induction l generalizing s with
  | nil => exact refl s
  | cons a l ih => exact (h s a).trans (ih _)

theorem emit (s : State) (o : Out) : s.Signals (s.emit o) := ⟨rfl, fun _ _ h => h, List.subset_append_left _ _⟩

theorem withOd (s : State) (o : OdSt) : s.Signals { s with od := o } := ⟨rfl, fun _ _ h => h, fun _ h => h⟩

theorem bump (s : State) (index sub n : Nat) : s.Signals (s.bump index sub n) := withOd s _

/-- A change of a port's cause register and pending vectors that clears no cause is a signal. -/
theorem modPort {s : State} {t : Fin 4} {f : HostPort → HostPort} (hquiet : (f s.ports[t]).quiet = s.ports[t].quiet)
    (hcause : ∀ i, s.ports[t].eventCause.getLsbD i = true → (f s.ports[t]).eventCause.getLsbD i = true) :
    s.Signals (s.modPort t f) := by
  refine ⟨State.quiet_modPort hquiet, fun u i hi => ?_, fun _ h => h⟩
  by_cases hu : u = t
  · subst hu
    rw [State.port_modPort]
    exact hcause i hi
  · rwa [State.port_modPort_ne s f hu]

theorem sendMsix (s : State) (t : Fin 4) (v : Nat) : s.Signals (s.sendMsix t v) := (emit s _).trans (bump _ _ _ _)

theorem msix (s : State) (t : Fin 4) (v : Nat) : s.Signals (s.msix t v) := by
  unfold State.msix
  split
  · exact refl s
  · split
    · exact modPort rfl (fun _ h => h)
    · exact sendMsix s t v

/-- Beside the change of the registers, a change of causes only signals. -/
theorem withCause (s : State) (t : Fin 4) (f : HostPort → HostPort) : (s.modPort t f).Signals (s.withCause t f) := by
  unfold State.withCause
  dsimp only
  split
  · exact msix _ t 63
  · exact refl _

theorem setCause (s : State) (t : Fin 4) (bit : Nat) : s.Signals (s.setCause t bit) :=
  (modPort rfl (fun i hi => by rw [BitVec.getLsbD_or, hi, Bool.true_or])).trans (withCause s t _)

theorem noteKey (s : State) (key : Nat) : s.Signals (s.noteKey key) := by
  unfold State.noteKey
  dsimp only
  split
  · exact refl s
  · exact (withOd s _).trans (each (fun u v => setCause u v 3) _)

theorem noteChanges (s : State) : s.Signals s.noteChanges := each noteKey s

section Kept

variable {s u : State}

theorem mem (h : s.Signals u) : u.mem = s.mem := by
  have hmem := congrArg State.mem h.quiet
  exact hmem

theorem cores (h : s.Signals u) : u.cores = s.cores := by
  have hcores := congrArg State.cores h.quiet
  exact hcores

theorem tick (h : s.Signals u) : u.tick = s.tick := by
  have htick := congrArg State.tick h.quiet
  exact htick

theorem power (h : s.Signals u) : u.power = s.power := by
  have hpower := congrArg State.power h.quiet
  exact hpower

/-- Every other register of a port stands as before. -/
theorem port (h : s.Signals u) (t : Fin 4) : u.ports[t].quiet = s.ports[t].quiet := by
  have hports : u.ports.map HostPort.quiet = s.ports.map HostPort.quiet := congrArg State.ports h.quiet
  have hport := congrArg (fun ps : Vector HostPort 4 => ps[t]) hports
  simpa using hport

theorem queue (h : s.Signals u) (t : Fin 4) (q : Fin 64) : u.queue t q = s.queue t q := by
  have hqueue := congrArg (fun p : HostPort => p.queues[q]) (h.port t)
  exact hqueue

theorem run (h : s.Signals u) (t : Fin 4) (q : Fin 64) : u.run t q = s.run t q := congrArg Queue.run (h.queue t q)

theorem slice (h : s.Signals u) (ref : SliceRef) : u.slice ref = s.slice ref := by
  simp only [State.slice, h.run]

theorem strand (h : s.Signals u) (c : CtxId) : u.strand c = s.strand c := by
  simp only [State.strand, h.cores]

theorem portOpen (h : s.Signals u) (t : Fin 4) : u.portOpen t = s.portOpen t := by
  have hreset := congrArg HostPort.inReset (h.port t)
  have hperst := congrArg HostPort.perst (h.port t)
  simp only [HostPort.quiet] at hreset hperst
  simp only [State.portOpen, State.hostOpen, hreset, hperst, h.power]

end Kept

end State.Signals

end Sys2Proof.Machine
end

