-- ==== Sys2Proof/Proofs/KilledSlices.lean ====
section
/-! SUPPORT. What is left of a state when slices of this tick are killed or discarded (R42, R410): the slices stay, marked, their
strands leave their contexts, and nothing else of a command, of a port or of memory changes. -/
namespace Sys2Proof.Machine

open Sys2Proof

/-! ### Maps, slices and strands after an update -/

theorem mem_of_kget {β : Type} {m : KMap β} {k : Nat} {v : β} (h : kget m k = some v) : (k, v) ∈ m := by
  induction m with
  | nil => cases h
  | cons x r ih =>
    obtain ⟨a, b⟩ := x
    by_cases ha : a = k
    · subst ha
      rw [kget_cons_eq] at h
      cases h
      exact List.mem_cons_self
    · simp only [kget, ha, if_false] at h
      exact List.mem_cons_of_mem _ (ih h)

theorem of_kget_filter {β : Type} {m : KMap β} {p : Nat × β → Bool} {k : Nat} {v : β}
    (h : kget (m.filter p) k = some v) : p (k, v) = true :=
  (List.mem_filter.mp (mem_of_kget h)).2

/-- A filter that keeps what a key reads keeps what it reads, also where the key is listed again. -/
theorem kget_filter_of_kept {β : Type} {m : KMap β} {p : Nat × β → Bool} {k : Nat} {v : β} (h : kget m k = some v)
    (hp : p (k, v) = true) : kget (m.filter p) k = some v := by
  induction m with
  | nil => cases h
  | cons x r ih =>
    obtain ⟨a, b⟩ := x
    by_cases ha : a = k
    · subst ha
      rw [kget_cons_eq] at h
      cases h
      rw [List.filter_cons_of_pos hp, kget_cons_eq]
    · simp only [kget, ha, if_false] at h
      rw [List.filter_cons]
      split
      · simpa only [kget, ha, if_false] using ih h
      · exact ih h

theorem State.strand_dropStrands_iff {s : State} {p : SliceRef → Bool} {c : CtxId} {st : Strand} (h : s.strand c = some st) :
    (s.dropStrands p).strand c = some st ↔ p st.ref = false :=
  ⟨fun h' => by simpa using of_kget_filter h', fun hp => kget_filter_of_kept h (by simp [hp])⟩

theorem State.ref_of_strand_dropStrands {s : State} {p : SliceRef → Bool} {c : CtxId} {st : Strand}
    (h : (s.dropStrands p).strand c = some st) : p st.ref = false := by
  simpa using of_kget_filter h

theorem CmdRun.slice_modSlice_ne (r : CmdRun) {i j : Nat} (f : Slice → Slice) (hf : ∀ x, (f x).idx = x.idx) (h : j ≠ i) :
    (r.modSlice i f).slice j = r.slice j := by
  simp only [CmdRun.slice, CmdRun.modSlice]
  induction r.slices with
  | nil => rfl
  | cons x l ih =>
    rw [List.map_cons, List.find?_cons, List.find?_cons, ih]
    by_cases hx : x.idx = i
    · have hne : (i == j) = false := by simpa using Ne.symm h
      simp [hx, hf, hne]
    · simp [hx]

theorem State.slice_modSlice_ne (s : State) {ref other : SliceRef} (f : Slice → Slice) (hf : ∀ x, (f x).idx = x.idx)
    (h : other ≠ ref) : (s.modSlice ref f).slice other = s.slice other := by
  obtain ⟨t, q, i⟩ := ref
  obtain ⟨u, p, j⟩ := other
  by_cases hq : u = t ∧ p = q
  · obtain ⟨rfl, rfl⟩ := hq
    have hj : j ≠ i := fun e => h (by rw [e])
    simp only [State.slice, State.modSlice, State.run_modRun]
    cases s.run u p with
    | none => rfl
    | some r => exact r.slice_modSlice_ne f hf hj
  · simp only [State.slice, State.modSlice, State.run_modRun_ne s _ hq]

/-! ### A list of slices that are killed -/

/-- A slice that is killed. -/
def Slice.asKilled (sl : Slice) : Slice := { sl with killed := true }

@[simp] theorem Slice.asKilled_asKilled (sl : Slice) : sl.asKilled.asKilled = sl.asKilled := rfl

/-- A command without its slices. -/
def CmdRun.sliceless (r : CmdRun) : CmdRun := { r with slices := [] }

/-- In the second state the slices of the list are killed and have no strand; beside that, commands, ports and memory stand. -/
structure State.Killed (s : State) (refs : List SliceRef) (u : State) : Prop where
  slice : ∀ ref, u.slice ref = if ref ∈ refs then (s.slice ref).map Slice.asKilled else s.slice ref
  ctxs : u.cores.ctxs = s.cores.ctxs.filter (fun x => !refs.contains x.2.ref)
  run : ∀ t q, (u.run t q).map CmdRun.sliceless = (s.run t q).map CmdRun.sliceless
  queue : ∀ t q, (∀ ref ∈ refs, ref.t ≠ t) → u.queue t q = s.queue t q
  port : ∀ t : Fin 4, { u.ports[t] with queues := s.ports[t].queues } = s.ports[t]
  mem : u.mem = s.mem

namespace State.Killed

variable {s u w : State} {refs refs' : List SliceRef}

theorem nil (s : State) : s.Killed [] s :=
  ⟨fun _ => rfl, (List.filter_eq_self.mpr (fun _ _ => rfl)).symm, fun _ _ => rfl, fun _ _ _ => rfl, fun _ => rfl, rfl⟩

theorem append (h : s.Killed refs u) (h' : u.Killed refs' w) : s.Killed (refs ++ refs') w where
  slice ref := by
    rw [h'.slice, h.slice]
    by_cases hr : ref ∈ refs <;> by_cases hr' : ref ∈ refs' <;>
      simp [hr, hr', Function.comp_def]
  ctxs := by
    rw [h'.ctxs, h.ctxs, List.filter_filter]
    simp only [List.contains_append, Bool.not_or, Bool.and_comm]
  run t q := (h'.run t q).trans (h.run t q)
  queue t q hne := by
    rw [h'.queue t q (fun ref hr => hne ref (List.mem_append_right _ hr)),
      h.queue t q (fun ref hr => hne ref (List.mem_append_left _ hr))]
  port t := by
    have hp := congrArg (fun p : HostPort => { p with queues := s.ports[t].queues }) (h'.port t)
    exact hp.trans (h.port t)
  mem := h'.mem.trans h.mem

theorem each {f : State → SliceRef → State} (h : ∀ (s : State) (ref : SliceRef), s.Killed [ref] (f s ref)) (s : State)
    (l : List SliceRef) :
    s.Killed l (s.each l f) := by
  induction l generalizing s with
  | nil => exact nil s
  | cons ref l ih => exact (h s ref).append (ih (f s ref))

/-- A slice that is discarded is killed, whatever its state. -/
theorem discardSlice (s : State) (ref : SliceRef) : s.Killed [ref] (s.discardSlice ref) where
  slice other := by
    have hidx : ∀ x : Slice, x.asKilled.idx = x.idx := fun _ => rfl
    by_cases hr : other = ref
    · subst hr
      rw [if_pos List.mem_cons_self]
      exact (s.dropStrands (· == other)).slice_modSlice other Slice.asKilled hidx
    · rw [if_neg (by simpa using hr)]
      exact (s.dropStrands (· == ref)).slice_modSlice_ne Slice.asKilled hidx hr
  ctxs := by
    refine List.filter_congr (fun x _ => ?_)
    simp [Bool.beq_eq_decide_eq]
  run t q := by
    by_cases hq : t = ref.t ∧ q = ref.q
    · obtain ⟨rfl, rfl⟩ := hq
      simp only [State.discardSlice, State.modSlice, State.run_modRun, Option.map_map]
      rfl
    · simp only [State.discardSlice, State.modSlice, State.run_modRun_ne _ _ hq]
      rfl
  queue t q hne := by
    have ht : t ≠ ref.t := fun e => hne ref List.mem_cons_self e.symm
    exact State.queue_modQueue_ne _ _ (fun h => ht h.1)
  port t := by
    by_cases ht : t = ref.t
    · subst ht
      simp only [State.discardSlice, State.modSlice, State.modRun, State.modQueue, State.port_modPort, State.dropStrands_ports]
    · simp only [State.discardSlice, State.modSlice, State.modRun, State.modQueue, State.port_modPort_ne _ _ ht,
        State.dropStrands_ports]
  mem := rfl

/-- Killing a slice discards it, and is counted. -/
theorem kill (s : State) (ref : SliceRef) : s.Killed [ref] (s.kill ref) := by
  obtain ⟨hslice, hctxs, hrun, hqueue, hport, hmem⟩ := discardSlice s ref
  exact ⟨hslice, hctxs, hrun, hqueue, hport, hmem⟩

theorem withHealth (h : s.Killed refs u) (x : HealthSt) : s.Killed refs { u with health := x } := by
  obtain ⟨hslice, hctxs, hrun, hqueue, hport, hmem⟩ := h
  exact ⟨hslice, hctxs, hrun, hqueue, hport, hmem⟩

theorem slice_of_mem (h : s.Killed refs u) {ref : SliceRef} {sl : Slice} (hr : ref ∈ refs) (hsl : s.slice ref = some sl) :
    u.slice ref = some { sl with killed := true } := by
  rw [h.slice, if_pos hr, hsl]
  rfl

theorem ref_not_mem (h : s.Killed refs u) {c : CtxId} {st : Strand} (hst : u.strand c = some st) : st.ref ∉ refs := by
  rw [State.strand, h.ctxs] at hst
  simpa using of_kget_filter hst

theorem strand (h : s.Killed refs u) {c : CtxId} {st : Strand} (hst : s.strand c = some st) (hr : st.ref ∉ refs) :
    u.strand c = some st := by
  rw [State.strand, h.ctxs]
  exact kget_filter_of_kept hst (by simpa using hr)

theorem run_of_run (h : s.Killed refs u) {t : Fin 4} {q : Fin 64} {r : CmdRun} (hr : s.run t q = some r) :
    ∃ r', u.run t q = some r' ∧ r'.sliceless = r.sliceless := by
  have hrun := h.run t q
  rw [hr, Option.map_some, Option.map_eq_some_iff] at hrun
  exact hrun

end State.Killed

end Sys2Proof.Machine
end

