-- ==== Sys2Proof/Proofs/UncorrectableErrors.lean ====
section
/-! SUPPORT. Uncorrectable errors by their place (R298, R410): slices that a core or a brine buffer takes with it, copies that
are dropped, and commands that end; with them the proof of O45. -/
namespace Sys2Proof.Machine

open Sys2Proof

section Errors

variable {s u : State}

/-! ### What an error leaves beside the health values -/

theorem State.coreError_eq (s : State) (core : Nat) (owners : List SliceRef) :
    ∃ h, s.coreError core owners = { s.each owners State.discardSlice with health := h } := by
  unfold State.coreError
  dsimp only
  split <;> exact ⟨_, rfl⟩

theorem State.stackError_eq (s : State) (stack : Nat) : ∃ h, s.stackError stack = { s with health := h } := by
  unfold State.stackError
  dsimp only
  split <;> exact ⟨_, rfl⟩

/-- What a page's entry reads after a change of the page. -/
theorem State.page_modPage (s : State) (t : Fin 4) (v : Nat) (f : PageEntry → PageEntry) :
    (s.modPage t v f).page t v = (s.page t v).map f := by
  simp [State.page, State.modPage, kget_kmod]

/-- Dropping a copy of a tenancy's page takes the die out of the page's entry. -/
theorem State.dropCopy_of_page {t : Fin 4} {v die : Nat} (hv : inModelWindow v = false) :
    (s.dropCopy t v die).mem.mem = s.mem.mem ∧ (s.dropCopy t v die).ports = s.ports ∧
      (s.dropCopy t v die).page t v = (s.page t v).map (fun e => { e with staged := e.staged &&& ~~~(1#4 <<< die) }) := by
  unfold State.dropCopy
  rw [if_neg (by simp [hv])]
  exact ⟨rfl, rfl, State.page_modPage _ t v _⟩

/-- Dropping a copy of a page of the model takes the die out of the model's copies. -/
theorem State.dropCopy_of_model {t : Fin 4} {v die : Nat} (hv : inModelWindow v = true) :
    (s.dropCopy t v die).mem.mem = s.mem.mem ∧ (s.dropCopy t v die).ports = s.ports ∧
      kget (s.dropCopy t v die).mem.model.staged (v - Config.modelPage0) =
        (kget s.mem.model.staged (v - Config.modelPage0)).map (fun m => m &&& ~~~(1#4 <<< die)) := by
  unfold State.dropCopy
  rw [if_pos hv]
  have hcopies := kget_kmod s.mem.model.staged (v - Config.modelPage0) (v - Config.modelPage0)
    (fun m => m &&& ~~~(1#4 <<< die))
  rw [if_pos rfl] at hcopies
  exact ⟨rfl, rfl, hcopies⟩

/-- A signal changes no queue. -/
theorem State.Signals.portQueues (h : s.Signals u) : u.ports.map (·.queues) = s.ports.map (·.queues) := by
  have hports := congrArg (fun w : State => w.ports.map (·.queues)) h.quiet
  simpa [State.quiet, Function.comp_def, HostPort.quiet] using hports

/-! ### Slices that are discarded -/

/-- The slices of the list stay of this tick, are killed, and have no strand left. -/
def State.Discards (s : State) (refs : List SliceRef) (u : State) : Prop :=
  ∀ ref ∈ refs, ∀ sl, s.slice ref = some sl →
    (u.slice ref = some { sl with killed := true }) ∧ ∀ c st, u.strand c = some st → st.ref ≠ ref

/-- Every command goes on: none fails or ends. -/
def State.Spares (s u : State) : Prop :=
  ∀ t q r, s.run t q = some r → ∃ r', u.run t q = some r' ∧ r'.fail = r.fail ∧ r'.ended = r.ended ∧ r'.words = r.words

theorem State.Killed.discards {refs : List SliceRef} (h : s.Killed refs u) : s.Discards refs u :=
  fun _ hr _ hsl => ⟨h.slice_of_mem hr hsl, fun _ _ hst he => h.ref_not_mem hst (he ▸ hr)⟩

theorem State.Killed.spares {refs : List SliceRef} (h : s.Killed refs u) : s.Spares u := by
  intro t q r hr
  obtain ⟨r', hr', hrest⟩ := h.run_of_run hr
  have hfail := congrArg CmdRun.fail hrest
  have hended := congrArg CmdRun.ended hrest
  have hwords := congrArg CmdRun.words hrest
  exact ⟨r', hr', hfail, hended, hwords⟩

/-- An error in a core discards the slices that own the data, and nothing else. -/
theorem State.noted_coreError (s : State) (core : Nat) (owners : List SliceRef) :
    ∃ w, noted (s.coreError core owners) = .next w ∧ s.Discards owners w ∧ s.Spares w ∧ w.mem = s.mem := by
  obtain ⟨x, hx⟩ := s.coreError_eq core owners
  have hkill : s.Killed owners (s.coreError core owners) := by
    rw [hx]
    exact (State.Killed.each State.Killed.discardSlice s owners).withHealth x
  have hsig := State.Signals.noteChanges (s.coreError core owners)
  refine ⟨_, rfl, fun ref hr sl hsl => ?_, fun t q r hr => ?_, hsig.mem.trans hkill.mem⟩
  · rw [hsig.slice]
    simp only [hsig.strand]
    exact hkill.discards ref hr sl hsl
  · rw [hsig.run]
    exact hkill.spares t q r hr

/-! ### Commands that end -/

variable {t : Fin 4} {q : Fin 64}

theorem exec_homeFrame_error (s : State) (t : Fin 4) (q : Fin 64) (a : Nat) :
    ∃ x, exec (.sramUncorrectableError (.homeFrame t q a)) s =
      noted { s.failAt t q (Config.errMemoryFailed, a) with health := x } := by
  rw [exec, execSramUncorrectableError]
  cases s.stackAt t a with
  | none => exact ⟨_, rfl⟩
  | some k =>
    obtain ⟨x, hx⟩ := (s.failAt t q (Config.errMemoryFailed, a)).stackError_eq k
    exact ⟨x, congrArg noted hx⟩

theorem exec_panCell_error {a : Nat} (hcell : s.panCellAt t q a ≠ none) :
    ∃ x, exec (.sramUncorrectableError (.panCell t q a)) s =
      noted { s.failAt t q (Config.errMemoryFailed, a) with health := x } := by
  obtain ⟨k, hk⟩ := Option.ne_none_iff_exists'.mp hcell
  obtain ⟨x, hx⟩ := (s.failAt t q (Config.errMemoryFailed, a)).stackError_eq k
  rw [exec, execSramUncorrectableError, hk]
  exact ⟨x, congrArg noted hx⟩

/-- A command that an error ends has the error's code and address, and no byte of memory is written. -/
theorem State.noted_failAt {r : CmdRun} (hrun : s.run t q = some r) (hfail : r.fail = none) (e : Bad) (x : HealthSt) :
    ∃ w, noted { s.failAt t q e with health := x } = .next w ∧ w.mem = s.mem ∧
      ∃ r' b, w.run t q = some r' ∧ r'.fail = some b ∧ b.code = e.1 ∧ b.address = BitVec.ofNat 64 e.2 := by
  have hsig := State.Signals.noteChanges { s.failAt t q e with health := x }
  exact ⟨_, rfl, hsig.mem, _, _, (hsig.run t q).trans (State.run_failAt hrun hfail e), rfl, rfl, rfl⟩

end Errors

/-- Settles O45: the errors in a core are `State.noted_coreError`, those that end a command `State.noted_failAt`; a copy that is
dropped changes the page's entry, or the model's, and the use of die-store frames. -/
theorem uncorrectableErrorResults : Obligations.UncorrectableErrorResults := by
  unfold Obligations.UncorrectableErrorResults
  intro s fails killed spared
  refine ⟨fun c => s.noted_coreError c.val _, fun c => s.noted_coreError c.val _, fun c => s.noted_coreError c.val _,
    fun u v die e hv he => ?_, fun u v die hv => ?_, fun u q a r hrun hfail => ⟨?_, fun hcell => ?_, ?_⟩⟩
  · obtain ⟨hbytes, hports, hpage⟩ := State.dropCopy_of_page (s := s) (t := u) (die := die.val) hv
    have hsig := State.Signals.noteChanges (s.dropCopy u v die.val).noteUncorrected
    refine ⟨_, rfl, (congrArg MemSt.mem hsig.mem).trans hbytes, ?_, hsig.portQueues.trans (congrArg _ hports)⟩
    rw [State.page, hsig.mem]
    exact hpage.trans (by rw [he, Option.map_some])
  · obtain ⟨hbytes, hports, hcopies⟩ := State.dropCopy_of_model (s := s) (t := u) (die := die.val) hv
    have hsig := State.Signals.noteChanges (s.dropCopy u v die.val).noteUncorrected
    refine ⟨_, rfl, (congrArg MemSt.mem hsig.mem).trans hbytes, ?_, hsig.portQueues.trans (congrArg _ hports)⟩
    rw [hsig.mem]
    exact hcopies
  · obtain ⟨x, hx⟩ := exec_homeFrame_error s u q a
    rw [hx]
    exact State.noted_failAt hrun hfail _ x
  · obtain ⟨x, hx⟩ := exec_panCell_error hcell
    rw [hx]
    exact State.noted_failAt hrun hfail _ x
  · obtain ⟨w, hw, hmem, r', b, hr', hb, hcode, -⟩ := State.noted_failAt hrun hfail
      (Config.errInternal, Config.openAddress s.tick.count u q (((s.run u q).map (·.n)).getD 0)) s.health
    exact ⟨w, hw, hmem, r', b, hr', hb, hcode⟩

end Sys2Proof.Machine
end

