-- ==== Sys2Proof/Proofs/PortReset.lean ====
section
/-! SUPPORT. The reset events of a host port (R297): every one kills what the port's tenancy runs and closes the port; with them
the proof of O56. -/
namespace Sys2Proof.Machine

open Sys2Proof

section Reset

variable {s : State} {t : Fin 4}

/-! ### The tenancy's slices -/

/-- Killing a tenancy kills slices of its own, among them every slice of this tick, and drops all its strands. -/
theorem State.killTenancy_eq (s : State) (t : Fin 4) : ∃ refs, (∀ ref ∈ refs, ref.t = t) ∧
    (∀ q idx sl, s.slice ⟨t, q, idx⟩ = some sl → sl.inTick = true → ⟨t, q, idx⟩ ∈ refs) ∧
    s.killTenancy t = (s.each refs State.kill).dropStrands (fun r => r.t == t) := by
  refine ⟨_, fun ref hr => ?_, fun q idx sl hsl htick => ?_, rfl⟩
  · obtain ⟨q, -, hr⟩ := List.mem_flatMap.mp hr
    obtain ⟨sl, -, rfl⟩ := List.mem_map.mp hr
    rfl
  · obtain ⟨r, hrun, hfind⟩ := Option.bind_eq_some_iff.mp hsl
    have hidx : sl.idx = idx := by simpa using List.find?_some hfind
    refine List.mem_flatMap.mpr ⟨q, List.mem_finRange q, List.mem_map.mpr ⟨sl, List.mem_filter.mpr ⟨?_, htick⟩, ?_⟩⟩
    · rw [hrun]
      exact List.mem_of_find?_eq_some hfind
    · rw [hidx]

/-! ### The port -/

/-- A port that is being reset: it holds nothing, and its mailbox stands still. -/
def HostPort.closed (p : HostPort) : HostPort :=
  { p with inReset := true, held := [], mbxBusy := false, mbxReady := false, mbxLen := 0 }

/-- A port whose PERSTt_N is asserted, if `b` says so. -/
def HostPort.orPerst (b : Bool) (p : HostPort) : HostPort := { p with perst := p.perst || b }

theorem State.portReset_of_running (hrun : s.power.running = true) :
    ∃ o, s.portReset t = { (s.killTenancy t).modPort t HostPort.closed with od := o } := by
  unfold State.portReset
  rw [if_neg (by simp [hrun])]
  exact ⟨_, rfl⟩

/-- What a reset event of port Ht leaves; `b`: it asserts PERSTt_N. -/
structure State.ResetsPort (s : State) (t : Fin 4) (b : Bool) (w : State) : Prop where
  mem : w.mem = s.mem
  closed : ∃ p : HostPort, w.ports[t].quiet = p.closed.quiet
  perst : w.ports[t].perst = (s.ports[t].perst || b)
  gone : ∀ c st, w.strand c = some st → st.ref.t ≠ t
  strand : ∀ c st, s.strand c = some st → st.ref.t ≠ t → w.strand c = some st
  killed : ∀ q idx sl, s.slice ⟨t, q, idx⟩ = some sl → sl.inTick = true →
    w.slice ⟨t, q, idx⟩ = some { sl with killed := true }
  others : ∀ u, u ≠ t → ∀ q, w.queue u q = s.queue u q

/-- A tenancy is reset by killing its slices, which changes no other tenancy, and by closing its port. -/
theorem State.resetsPort_portReset (hrun : s.power.running = true) (t : Fin 4) (b : Bool) :
    s.ResetsPort t b ((s.portReset t).modPort t (HostPort.orPerst b)).noteChanges := by
  obtain ⟨o, ho⟩ := State.portReset_of_running (t := t) hrun
  obtain ⟨refs, hown, hall, hkill⟩ := s.killTenancy_eq t
  have hk : s.Killed refs (s.each refs State.kill) := State.Killed.each State.Killed.kill s refs
  rw [ho, hkill]
  generalize s.each refs State.kill = k at hk
  generalize hu : State.modPort { (k.dropStrands (fun r => r.t == t)).modPort t HostPort.closed with od := o } t
    (HostPort.orPerst b) = u
  have hport : u.ports[t] = k.ports[t].closed.orPerst b := by
    rw [← hu, State.port_modPort]
    exact congrArg (HostPort.orPerst b) (State.port_modPort _ t HostPort.closed)
  have hqueue : ∀ v q, u.queue v q = k.queue v q := by
    intro v q
    rw [← hu, State.queue_modPort (f := HostPort.orPerst b) _ t v q (fun _ => rfl)]
    exact State.queue_modPort (f := HostPort.closed) (k.dropStrands _) t v q (fun _ => rfl)
  have hcores : u.cores = (k.dropStrands (fun r => r.t == t)).cores := by rw [← hu]; rfl
  have hmem : u.mem = s.mem := by rw [← hu]; exact hk.mem
  have hsig := State.Signals.noteChanges u
  refine ⟨hsig.mem.trans hmem, ⟨k.ports[t].orPerst b, ?_⟩, ?_, fun c st hst => ?_,
    fun c st hst ht => ?_, fun q idx sl hsl htick => ?_, fun v hv q => ?_⟩
  · rw [hsig.port, hport]
    rfl
  · have hperst := congrArg HostPort.perst (hsig.port t)
    have hkept := congrArg HostPort.perst (hk.port t)
    rw [hport] at hperst
    exact hperst.trans (congrArg (· || b) hkept)
  · rw [hsig.strand, State.strand, hcores] at hst
    simpa using State.ref_of_strand_dropStrands hst
  · rw [hsig.strand, State.strand, hcores]
    have hkept := hk.strand hst (fun hr => ht (hown _ hr))
    exact (State.strand_dropStrands_iff hkept).mpr (by simpa using ht)
  · rw [hsig.slice, State.slice, State.run, hqueue]
    exact hk.slice_of_mem (hall q idx sl hsl htick) hsl
  · rw [hsig.queue, hqueue]
    exact hk.queue v q (fun ref hr => hown ref hr ▸ hv.symm)

/-! ### The six events -/

/-- The reset events of a port differ in PERSTt_N only. -/
theorem exec_portEvent {i : Instr}
    (hi : i ∈ [Instr.hotReset t, .linkDisable t, .dataLinkLoss t, .functionLevelReset t, .d3hotToD0 t, .perstAssert t]) :
    exec i s = noted ((s.portReset t).modPort t (HostPort.orPerst (i == .perstAssert t))) := by
  have hplain : noted (s.portReset t) = noted ((s.portReset t).modPort t (HostPort.orPerst false)) := by
    rw [State.modPort_of_id (by rw [HostPort.orPerst, Bool.or_false])]
  have hasserted : noted ((s.portReset t).modPort t (fun p => { p with perst := true })) =
      noted ((s.portReset t).modPort t (HostPort.orPerst (Instr.perstAssert t == .perstAssert t))) := by
    rw [beq_self_eq_true, State.modPort_congr (g := HostPort.orPerst true) (by rw [HostPort.orPerst, Bool.or_true])]
  revert i
  simp only [List.forall_mem_cons, List.not_mem_nil, false_implies, implies_true, and_true]
  exact ⟨hplain, hplain, hplain, hplain, hplain, hasserted⟩

end Reset

/-- Settles O56: the events leave what `State.resetsPort_portReset` says; deasserting PERSTt_N clears its bit. -/
theorem portResetKillsTheTenancy : Obligations.PortResetKillsTheTenancy := by
  unfold Obligations.PortResetKillsTheTenancy
  intro s t hrun
  refine ⟨fun i hi => ?_, rfl⟩
  have hreset := State.resetsPort_portReset hrun t (i == .perstAssert t)
  obtain ⟨p, hp⟩ := hreset.closed
  have hinReset := congrArg HostPort.inReset hp
  have hheld := congrArg HostPort.held hp
  have hbusy := congrArg HostPort.mbxBusy hp
  have hready := congrArg HostPort.mbxReady hp
  have hlen := congrArg HostPort.mbxLen hp
  exact ⟨_, exec_portEvent hi, hreset.mem, hinReset, hheld, hbusy, hready, hlen, hreset.perst, hreset.gone, hreset.strand,
    hreset.killed, hreset.others⟩

end Sys2Proof.Machine
end

