-- ==== Sys2Proof/Proofs/ErrorLog.lean ====
section
/-! SUPPORT. The error log of a host port (R293, R294): what logging a refusal leaves, and what BAR0 then reads of the entry; with
them the proof of O54. -/
namespace Sys2Proof.Machine

open Sys2Proof

/-! ### Numbers spelled by bytes (R4) -/

theorem length_leBytes (n v : Nat) : (leBytes n v).length = n := by
  induction n generalizing v with
  | zero => rfl
  | succ n ih => rw [leBytes, List.length_cons, ih]

theorem ofLe_leBytes (n v : Nat) : ofLe (leBytes n v) = v % 256 ^ n := by
  induction n generalizing v with
  | zero => simp [leBytes, ofLe, Nat.mod_one]
  | succ n ih =>
    rw [leBytes, ofLe, ih, Nat.pow_succ', Nat.mod_mul]
    simp

theorem ofLe_append (a b : List Byte) : ofLe (a ++ b) = ofLe a + 256 ^ a.length * ofLe b := by
  induction a with
  | nil => simp [ofLe]
  | cons x a ih =>
    rw [List.cons_append, ofLe, ofLe, ih, List.length_cons, Nat.pow_succ', Nat.mul_add, Nat.mul_assoc, Nat.add_assoc]

/-- The number of the bytes at the front of a list. -/
theorem leAt_front (a b : List Byte) : leAt (a ++ b) 0 a.length = ofLe a := by
  simp [leAt, Machine.slice]

/-- The number of bytes behind the front of a list. -/
theorem leAt_behind (a b : List Byte) (k n : Nat) : leAt (a ++ b) (a.length + k) n = leAt b k n := by
  simp [leAt, Machine.slice, List.drop_append, List.drop_of_length_le]

theorem leAt_leBytes_front (n v : Nat) (b : List Byte) : leAt (leBytes n v ++ b) 0 n = v % 256 ^ n := by
  have h := leAt_front (leBytes n v) b
  rwa [length_leBytes, ofLe_leBytes] at h

theorem leAt_leBytes_behind (m v : Nat) (b : List Byte) (k n : Nat) : leAt (leBytes m v ++ b) (m + k) n = leAt b k n := by
  have h := leAt_behind (leBytes m v) b k n
  rwa [length_leBytes] at h

/-! ### The bytes of an entry (R293) -/

/-- The last 8 bytes of an entry as a number: INDEX, GEN, QUEUE, QEPOCH, KIND and CODE. -/
def ErrEntry.detail (e : ErrEntry) : Nat :=
  e.index % 2 ^ 16 + e.gen % 2 ^ 8 * 2 ^ 16 + e.queue % 2 ^ 8 * 2 ^ 24 + e.qepoch % 2 ^ 8 * 2 ^ 32 +
    e.kind % 2 ^ 8 * 2 ^ 40 + e.code % 2 ^ 16 * 2 ^ 48

theorem leAt_errBytes (e : ErrEntry) :
    leAt (errBytes (some e)) 0 4 = e.strand % 2 ^ 32 ∧ leAt (errBytes (some e)) 4 4 = e.seq % 2 ^ 32 ∧
      leAt (errBytes (some e)) 8 8 = e.tick % 2 ^ 64 ∧ leAt (errBytes (some e)) 16 8 = e.address.toNat ∧
      leAt (errBytes (some e)) 24 8 = e.detail := by
  have hbytes : errBytes (some e) = leBytes 4 e.strand ++ (leBytes 4 e.seq ++ (leBytes 8 e.tick ++
      (leBytes 8 e.address.toNat ++ ((leBytes 2 e.index ++ (leBytes 1 e.gen ++ (leBytes 1 e.queue ++ (leBytes 1 e.qepoch ++
        (leBytes 1 e.kind ++ leBytes 2 e.code))))) ++ [])))) := by
    simp only [errBytes, List.append_assoc, List.append_nil]
  have htail : ∀ b : List Byte, b.length = 8 → leAt (b ++ []) 0 8 = ofLe b := by
    intro b hb
    rw [← hb, leAt_front]
  rw [hbytes]
  refine ⟨leAt_leBytes_front 4 _ _, ?_, ?_, ?_, ?_⟩
  · exact (leAt_leBytes_behind 4 _ _ 0 4).trans (leAt_leBytes_front 4 _ _)
  · exact ((leAt_leBytes_behind 4 _ _ 4 8).trans (leAt_leBytes_behind 4 _ _ 0 8)).trans (leAt_leBytes_front 8 _ _)
  · rw [leAt_leBytes_behind 4 _ _ 12, leAt_leBytes_behind 4 _ _ 8, leAt_leBytes_behind 8 _ _ 0, leAt_leBytes_front]
    exact Nat.mod_eq_of_lt e.address.isLt
  · rw [leAt_leBytes_behind 4 _ _ 20, leAt_leBytes_behind 4 _ _ 16, leAt_leBytes_behind 8 _ _ 8, leAt_leBytes_behind 8 _ _ 0,
      htail _ (by simp only [List.length_append, length_leBytes])]
    simp only [ofLe_append, ofLe_leBytes, length_leBytes, ErrEntry.detail]
    omega

/-! ### Logging a refusal -/

section Log

variable {s u w : State} {t : Fin 4} {e : ErrEntry}

/-- The second state has logged the entry, with the SEQ and the tick that stood, and beside that the first state's memory,
queues and older entries. -/
structure State.Logged (s : State) (t : Fin 4) (e : ErrEntry) (w : State) : Prop where
  seq : w.ports[t].errlogSeq = s.ports[t].errlogSeq + 1
  cause : w.ports[t].eventCause.getLsbD 0 = true
  mem : w.mem = s.mem
  queue : ∀ u q, w.queue u q = s.queue u q
  log : w.ports[t].errlog = kset s.ports[t].errlog (s.ports[t].errlogSeq.toNat % 256)
    { e with seq := s.ports[t].errlogSeq.toNat, tick := s.tick.count }

theorem State.Logged.signals (h : s.Logged t e u) (hsig : u.Signals w) : s.Logged t e w where
  seq := by
    have hseq := congrArg HostPort.errlogSeq (hsig.port t)
    exact hseq.trans h.seq
  cause := hsig.cause t 0 h.cause
  mem := hsig.mem.trans h.mem
  queue v q := (hsig.queue v q).trans (h.queue v q)
  log := by
    have hlog := congrArg HostPort.errlog (hsig.port t)
    exact hlog.trans h.log

theorem State.logged_logError (s : State) (t : Fin 4) (e : ErrEntry) : s.Logged t e (s.logError t e) := by
  refine State.Logged.signals ?_ (State.Signals.withCause _ t _)
  refine ⟨?_, ?_, rfl, fun v q => ?_, ?_⟩
  · simp only [State.port_modPort]
  · simp only [State.port_modPort]
    rw [BitVec.getLsbD_or]
    simp
  · rw [State.queue_modPort, State.queue_modPort] <;> exact fun _ => rfl
  · simp only [State.port_modPort]

/-- What BAR0 reads of an entry of the log. -/
theorem State.readBar0_errlog (s : State) (t : Fin 4) {m k : Nat} (width : Nat) (hm : m < 256) (hk : k < 32) :
    s.readBar0 t (0x6000 + k + 32 * m) width = some (leAt (errBytes (kget s.ports[t].errlog m)) k width) := by
  have hentry : (0x6000 + k + 32 * m - 0x6000) / 32 = m := by omega
  have hoffset : (0x6000 + k + 32 * m) % 32 = k := by omega
  unfold State.readBar0
  rw [if_neg (by omega), if_neg (by omega), if_neg (by omega), if_neg (by omega), if_pos (by omega), hentry, hoffset]

/-- A refusal that belongs to no strand is logged with an address and a detail, as software reads them. -/
def State.Refuses (s : State) (t : Fin 4) (address detail : Nat) (w : State) : Prop :=
  let n := s.ports[t].errlogSeq.toNat
  w.ports[t].errlogSeq = s.ports[t].errlogSeq + 1 ∧
    w.ports[t].eventCause.getLsbD 0 = true ∧ w.mem = s.mem ∧ (∀ q, w.queue t q = s.queue t q) ∧
    w.readBar0 t (0x6000 + 32 * (n % 256)) 4 = some 0xFFFFFFFF ∧
    w.readBar0 t (0x6004 + 32 * (n % 256)) 4 = some n ∧
    w.readBar0 t (0x6008 + 32 * (n % 256)) 8 = some (s.tick.count % 2 ^ 64) ∧
    w.readBar0 t (0x6010 + 32 * (n % 256)) 8 = some (address % 2 ^ 64) ∧
    w.readBar0 t (0x6018 + 32 * (n % 256)) 8 = some detail ∧
    ∀ i, i < 256 → i ≠ n % 256 → kget w.ports[t].errlog i = kget s.ports[t].errlog i

theorem State.Logged.refuses (h : s.Logged t e w) {address detail : Nat} (hstrand : e.strand = Config.noStrand)
    (haddress : e.address = BitVec.ofNat 64 address) (hdetail : e.detail = detail) : s.Refuses t address detail w := by
  have hm : s.ports[t].errlogSeq.toNat % 256 < 256 := Nat.mod_lt _ (by decide)
  have hentry : kget w.ports[t].errlog (s.ports[t].errlogSeq.toNat % 256) =
      some { e with seq := s.ports[t].errlogSeq.toNat, tick := s.tick.count } := by
    rw [h.log, kget_kset, if_pos rfl]
  have hread := fun k width (hk : k < 32) => (w.readBar0_errlog t width hm hk).trans (by rw [hentry])
  obtain ⟨hword, hseq, htick, haddr, hrest⟩ :=
    leAt_errBytes { e with seq := s.ports[t].errlogSeq.toNat, tick := s.tick.count }
  refine ⟨h.seq, h.cause, h.mem, h.queue t, ?_, ?_, ?_, ?_, ?_, fun i _ hi => ?_⟩
  · exact (hread 0 4 (by decide)).trans (congrArg some (hword.trans (congrArg (· % 2 ^ 32) hstrand)))
  · exact (hread 4 4 (by decide)).trans (congrArg some (hseq.trans (Nat.mod_eq_of_lt s.ports[t].errlogSeq.isLt)))
  · exact (hread 8 8 (by decide)).trans (congrArg some htick)
  · exact (hread 16 8 (by decide)).trans (congrArg some (haddr.trans (by rw [haddress, BitVec.toNat_ofNat])))
  · exact (hread 24 8 (by decide)).trans (congrArg some (hrest.trans hdetail))
  · rw [h.log, kget_kset, if_neg hi]

/-- The refusals of the host port: entries without a generation and an index, whose other fields fit their bytes. -/
theorem State.Logged.refuses_of_fits {address code kind qepoch queue detail : Nat}
    (h : s.Logged t { seq := 0, strand := Config.noStrand, tick := 0, address := BitVec.ofNat 64 address, code := code,
                      kind := kind, qepoch := qepoch, queue := queue, gen := 0, index := 0 } w)
    (hcode : code < 65536) (hkind : kind < 256) (hqepoch : qepoch < 256) (hqueue : queue < 256)
    (hdetail : queue * 2 ^ 24 + qepoch * 2 ^ 32 + kind * 2 ^ 40 + code * 2 ^ 48 = detail) : s.Refuses t address detail w := by
  have hfields : 0 % 2 ^ 16 + 0 % 2 ^ 8 * 2 ^ 16 + queue % 2 ^ 8 * 2 ^ 24 + qepoch % 2 ^ 8 * 2 ^ 32 + kind % 2 ^ 8 * 2 ^ 40 +
      code % 2 ^ 16 * 2 ^ 48 = detail := by omega
  exact h.refuses rfl rfl hfields

theorem State.refuses_refuseBar0 (s : State) (t : Fin 4) (offset : Nat) {w : State} (hsig : (s.refuseBar0 t offset).Signals w) :
    s.Refuses t offset (3 * 2 ^ 40 + Config.errBarAccess * 2 ^ 48) w :=
  ((s.logged_logError t _).signals hsig).refuses_of_fits (by decide) (by decide) (by decide) (by decide) (by omega)

theorem State.refuses_logQueue (s : State) (t : Fin 4) (q : Fin 64) {w : State} (hsig : (s.logQueue t q).Signals w) :
    s.Refuses t q.val (q.val * 2 ^ 24 + (s.queue t q).qepoch.toNat * 2 ^ 32 + 4 * 2 ^ 40 + Config.errQueueInvalid * 2 ^ 48)
      w :=
  ((s.logged_logError t _).signals hsig).refuses_of_fits (by decide) (by decide) (s.queue t q).qepoch.isLt
    (Nat.lt_trans q.isLt (by decide)) rfl

/-! ### Accesses to BAR0 -/

/-- An access of a width that BAR0 takes, aligned, and within it. -/
abbrev Bar0Ok (offset width : Nat) : Prop := (width = 4 ∨ width = 8) ∧ offset % width = 0 ∧ offset + width ≤ 65536

theorem State.onPort_of_open (h : s.portOpen t = true) (f : State → State) : s.onPort t f = noted (f s) := by
  rw [State.onPort, if_pos h]

theorem exec_bar0Read_of_some {offset width n : Nat} (h : s.portOpen t = true) (hok : Bar0Ok offset width)
    (hread : s.readBar0 t offset width = some n) :
    exec (.bar0Read t offset width) s = .next (s.emit (.bar0 t (BitVec.ofNat 64 n))).noteChanges := by
  rw [exec, execBar0Read, State.onPort_of_open h]
  simp only [hok, hread]
  rfl

theorem exec_bar0Read_of_refused {offset width : Nat} (h : s.portOpen t = true)
    (hbad : ¬ Bar0Ok offset width ∨ s.readBar0 t offset width = none) :
    exec (.bar0Read t offset width) s =
      noted ((s.refuseBar0 t offset).emit (.bar0 t (BitVec.ofNat 64 (2 ^ (8 * width) - 1)))) := by
  have hnone : (if decide (Bar0Ok offset width) = true then s.readBar0 t offset width else none) = none := by
    rcases hbad with hbad | hnone
    · rw [if_neg (by simpa using hbad)]
    · rw [hnone, ite_self]
  rw [exec, execBar0Read, State.onPort_of_open h]
  simp only [hnone]

theorem exec_registerWrite_of_ok {offset width : Nat} {v : W64} (h : s.portOpen t = true) (hok : Bar0Ok offset width) :
    exec (.registerWrite t offset width v) s = noted (s.writeBar0 t offset width v) := by
  rw [exec, execRegisterWrite, State.onPort_of_open h, if_pos hok]

theorem exec_registerWrite_of_bad {offset width : Nat} {v : W64} (h : s.portOpen t = true) (hbad : ¬ Bar0Ok offset width) :
    exec (.registerWrite t offset width v) s =
      noted (if 0x4000 ≤ offset ∧ offset < 0x5000 then s.logQueue t (queueOf offset) else s.refuseBar0 t offset) := by
  rw [exec, execRegisterWrite, State.onPort_of_open h, if_neg hbad]

theorem exec_registerWrite_outside {offset width : Nat} {v : W64} (h : s.portOpen t = true)
    (hout : (¬ Bar0Ok offset width ∧ (offset < 0x4000 ∨ 0x5000 ≤ offset)) ∨ 0xC000 ≤ offset) :
    exec (.registerWrite t offset width v) s = noted (s.refuseBar0 t offset) := by
  by_cases hok : Bar0Ok offset width
  · have hhigh : 0xC000 ≤ offset := hout.resolve_left (fun hbad => hbad.1 hok)
    rw [exec_registerWrite_of_ok h hok]
    unfold State.writeBar0
    rw [if_neg (by omega), if_neg (by omega), if_neg (by omega), if_neg (by omega), if_neg (by omega)]
  · rw [exec_registerWrite_of_bad h hok, if_neg (by omega)]

theorem exec_registerWrite_block {offset width : Nat} {v : W64} (h : s.portOpen t = true) (hlo : 0x4000 ≤ offset)
    (hhi : offset < 0x5000) (hbad : ¬ Bar0Ok offset width ∨ queueRegWidth (offset % 64) ≠ some width) :
    exec (.registerWrite t offset width v) s = noted (s.logQueue t (queueOf offset)) := by
  by_cases hok : Bar0Ok offset width
  · have hwidth := hbad.resolve_left (fun hbad => hbad hok)
    rw [exec_registerWrite_of_ok h hok]
    unfold State.writeBar0
    rw [if_neg (by omega), if_neg (by omega), if_neg (by omega), if_pos ⟨hlo, hhi⟩, if_neg hwidth]
  · rw [exec_registerWrite_of_bad h hok, if_pos ⟨hlo, hhi⟩]

end Log

/-- Settles O54: the accesses answer with a state that has logged the refusal, and what BAR0 reads of it is `State.Refuses`. -/
theorem refusedBar0AccessIsLogged : Obligations.RefusedBar0AccessIsLogged := by
  unfold Obligations.RefusedBar0AccessIsLogged
  intro s t offset width v hopen n logged access bad q
  have hbad : bad → ¬ Bar0Ok offset width := by
    rintro h ⟨hwidth, halign, hend⟩
    rcases h with h | h | h
    · exact h hwidth
    · exact h halign
    · omega
  refine ⟨fun h => ?_, fun h => ?_, fun hlo hhi h => ?_⟩
  · have hexec := exec_bar0Read_of_refused hopen (h.imp_left hbad)
    have hsig := State.Signals.noteChanges ((s.refuseBar0 t offset).emit (.bar0 t (BitVec.ofNat 64 (2 ^ (8 * width) - 1))))
    exact ⟨_, hexec, s.refuses_refuseBar0 t offset ((State.Signals.emit _ _).trans hsig),
      hsig.out (List.mem_append_right _ List.mem_cons_self)⟩
  · have hexec := exec_registerWrite_outside (v := v) hopen (h.imp (And.imp_left hbad) And.left)
    exact ⟨_, hexec, s.refuses_refuseBar0 t offset (State.Signals.noteChanges _)⟩
  · have hexec := exec_registerWrite_block (v := v) hopen hlo hhi (h.imp_left hbad)
    exact ⟨_, hexec, s.refuses_logQueue t q (State.Signals.noteChanges _)⟩

end Sys2Proof.Machine
end

