-- ==== Sys2Proof/Proofs/HeldAccesses.lean ====
section
/-! SUPPORT. The BAR2 accesses that a port holds (R37, R280, R282): doing them leaves the port as open as it was and with none
held, so that doing them once more does nothing. -/
namespace Sys2Proof.Machine

open Sys2Proof

/-- What decides whether a port accepts accesses, and the accesses that it holds. -/
def HostPort.gate (p : HostPort) : Bool × Bool × List HeldAccess := (p.perst, p.inReset, p.held)

@[simp] theorem HostPort.gate_quiet (p : HostPort) : p.quiet.gate = p.gate := rfl

/-- The gates of the ports, and the power that they depend on. -/
def State.gates (s : State) : PowerSt × Vector (Bool × Bool × List HeldAccess) 4 := (s.power, s.ports.map HostPort.gate)

section Held

variable {s u : State} {t : Fin 4}

theorem State.gate_of_gates (h : u.gates = s.gates) (t : Fin 4) : u.ports[t].gate = s.ports[t].gate := by
  have hgate := congrArg (fun g : PowerSt × Vector (Bool × Bool × List HeldAccess) 4 => g.2[t]) h
  simpa [State.gates] using hgate

theorem State.held_of_gates (h : u.gates = s.gates) (t : Fin 4) : u.ports[t].held = s.ports[t].held :=
  congrArg (·.2.2) (State.gate_of_gates h t)

theorem State.portOpen_of_gates (h : u.gates = s.gates) (t : Fin 4) : u.portOpen t = s.portOpen t := by
  have hpower : u.power = s.power := congrArg Prod.fst h
  have hperst : u.ports[t].perst = s.ports[t].perst := congrArg (·.1) (State.gate_of_gates h t)
  have hreset : u.ports[t].inReset = s.ports[t].inReset := congrArg (·.2.1) (State.gate_of_gates h t)
  simp only [State.portOpen, State.hostOpen, hpower, hperst, hreset]

theorem State.gates_modPort {f : HostPort → HostPort} (h : (f s.ports[t]).gate = s.ports[t].gate) :
    (s.modPort t f).gates = s.gates :=
  congrArg (fun gs => (s.power, gs)) (State.map_ports_modPort HostPort.gate h)

theorem State.gates_of_besideMem (h : u.besideMem = s.besideMem) : u.gates = s.gates := by
  have hgates := congrArg State.gates h
  exact hgates

theorem State.Signals.gates (h : s.Signals u) : u.gates = s.gates := by
  have hgates := congrArg State.gates h.quiet
  simpa [State.gates, State.quiet, Function.comp_def] using hgates

theorem State.gates_logError (s : State) (t : Fin 4) (e : ErrEntry) : (s.logError t e).gates = s.gates :=
  (State.Signals.setCause _ t 0).gates.trans (State.gates_modPort rfl)

theorem State.gates_refuseBar2 (s : State) (t : Fin 4) (kind code a : Nat) : (s.refuseBar2 t kind code a).gates = s.gates := by
  unfold State.refuseBar2
  dsimp only
  split
  · rfl
  · exact (State.gates_logError _ t _).trans (State.gates_modPort rfl)

/-! ### Doing the accesses -/

theorem State.gates_bar2Load {a n : Nat} (h : s.bar2Load t a n = .ok u) : u.gates = s.gates := by
  unfold State.bar2Load at h
  cases he : (pagesOf a n).findSome? (s.bar2Error t false) with
  | some e =>
    simp only [he, Except.ok.injEq] at h
    rw [← h]
    exact (State.Signals.emit _ _).gates.trans (s.gates_refuseBar2 t 1 e a)
  | none =>
    simp only [he] at h
    split at h
    · cases h
    · cases h
      exact (State.Signals.emit _ _).gates

theorem State.gates_bar2Store {a : Nat} {bs : List Byte} (h : s.bar2Store t a bs = .ok u) : u.gates = s.gates := by
  unfold State.bar2Store at h
  cases he : (pagesOf a bs.length).findSome? (s.bar2Error t true) with
  | some e =>
    simp only [he, Except.ok.injEq] at h
    rw [← h]
    exact s.gates_refuseBar2 t 2 e a
  | none =>
    simp only [he] at h
    split at h
    · cases h
      exact s.gates_refuseBar2 t 2 _ a
    · split at h
      · cases h
      · cases h
        exact State.gates_of_besideMem ((State.besideMem_narrow _ _ _ _).trans (State.besideMem_writeVia _ _ _ _))

theorem State.gates_bar2All {l : List HeldAccess} (h : s.bar2All t l = .ok u) : u.gates = s.gates := by
  induction l generalizing s with
  | nil => cases h; rfl
  | cons x l ih =>
    unfold State.bar2All at h
    cases hx : s.bar2Do t x with
    | error e => rw [hx] at h; cases h
    | ok v =>
      rw [hx] at h
      refine (ih h).trans ?_
      cases x with
      | read a n => exact State.gates_bar2Load hx
      | write a bs => exact State.gates_bar2Store hx

/-- The accesses that a port holds are taken off it before they are done, whatever they answer. -/
theorem State.gates_bar2Flush (s : State) (t : Fin 4) :
    (s.bar2Flush t).gates = (s.modPort t (fun p => { p with held := [] })).gates := by
  unfold State.bar2Flush
  cases h : s.bar2Release t [] with
  | ok u => exact State.gates_bar2All h
  | error e => rfl

theorem State.held_bar2Flush (s : State) (t : Fin 4) : (s.bar2Flush t).ports[t].held = [] :=
  (State.held_of_gates (s.gates_bar2Flush t) t).trans (congrArg HostPort.held (s.port_modPort t _))

theorem State.portOpen_bar2Flush (s : State) (t : Fin 4) : (s.bar2Flush t).portOpen t = s.portOpen t := by
  rw [State.portOpen_of_gates (s.gates_bar2Flush t), State.portOpen, State.hostOpen, State.port_modPort]
  rfl

theorem State.tick_bar2Flush (s : State) (t : Fin 4) : (s.bar2Flush t).tick = s.tick :=
  congrArg Prod.fst (s.bar2Flush_timing t)

/-- A port that holds nothing has nothing to do. -/
theorem State.bar2Flush_of_idle (h : s.ports[t].held = []) : s.bar2Flush t = s := by
  have hsame : s.modPort t (fun p => { p with held := [] }) = s := State.modPort_of_id (by rw [← h])
  simp only [State.bar2Flush, State.bar2Release, h, List.append_nil, State.bar2All]
  exact hsame

end Held

end Sys2Proof.Machine
end

