-- ==== Sys2Proof/Proofs/QueueControl.lean ====
section
/-! SUPPORT. Queue control and doorbells of an open host port (R284, R286): when each command of the host takes effect, and that
every other is logged and changes nothing else. -/
namespace Sys2Proof.Machine

open Sys2Proof

section Control

variable {s w : State} {t : Fin 4} {q : Fin 64}

/-- A command of a queue's block or doorbell that is refused: it is logged with ERR_QUEUE_INVALID and the queue's index. -/
def State.RefusesQueue (s : State) (t : Fin 4) (q : Fin 64) (w : State) : Prop :=
  w.ports[t].errlogSeq = s.ports[t].errlogSeq + 1 ∧ w.queue t q = s.queue t q ∧ w.mem = s.mem ∧
    ∃ e, kget w.ports[t].errlog (s.ports[t].errlogSeq.toNat % 256) = some e ∧ e.code = Config.errQueueInvalid ∧
      e.address = BitVec.ofNat 64 q.val ∧ e.queue = q.val ∧ e.tick = s.tick.count

theorem State.refusesQueue_noted (s : State) (t : Fin 4) (q : Fin 64) {o : Host.Outcome State Fault Refusal}
    (ho : o = noted (s.logQueue t q)) : ∃ w, o = .next w ∧ s.RefusesQueue t q w := by
  have hlog := (s.logged_logError t _).signals (State.Signals.noteChanges (s.logQueue t q))
  refine ⟨_, ho, hlog.seq, hlog.queue t q, hlog.mem, ⟨_, by rw [hlog.log, kget_kset, if_pos rfl], rfl, rfl, rfl, rfl⟩⟩

/-! ### Queue control (R284) -/

theorem exec_create_of_absent (hopen : s.portOpen t = true) (hstate : (s.queue t q).state = .absent)
    (hlo : 4 ≤ bits (s.queue t q).config.toNat 0 5) (hhi : bits (s.queue t q).config.toNat 0 5 ≤ 16) :
    exec (.create t q) s = noted (s.modQueue t q (fun x => { x with createPending := true })) := by
  rw [exec, execCreate, State.onPort_of_open hopen, State.createQueue]
  simp only [hstate, hlo, hhi, beq_self_eq_true, decide_true, Bool.and_self, if_true]

theorem exec_create_of_refused (hopen : s.portOpen t = true) (h : (s.queue t q).state ≠ .absent ∨
    bits (s.queue t q).config.toNat 0 5 < 4 ∨ 16 < bits (s.queue t q).config.toNat 0 5) :
    exec (.create t q) s = noted (s.logQueue t q) := by
  rw [exec, execCreate, State.onPort_of_open hopen, State.createQueue, if_neg]
  simp only [Bool.and_eq_true, beq_iff_eq, decide_eq_true_eq]
  rintro ⟨⟨hstate, hlo⟩, hhi⟩
  rcases h with h | h | h
  · exact h hstate
  · omega
  · omega

theorem exec_delete_of_live (hopen : s.portOpen t = true)
    (hstate : (s.queue t q).state = .active ∨ (s.queue t q).state = .halted) {begun : Bool}
    (hbegun : ((s.queue t q).run.map (·.begun)).getD false = begun) :
    exec (.delete t q) s = noted (s.modQueue t q (fun x => { x with
      state := .deleting, resumePending := false, avail := if begun then x.avail.take 1 else []
      run := if begun then x.run else none })) := by
  rw [exec, execDelete, State.onPort_of_open hopen, State.deleteQueue, if_pos (by simpa using hstate)]
  refine congrArg noted (State.modQueue_congr ?_)
  rw [← hbegun]

theorem exec_delete_of_refused (hopen : s.portOpen t = true)
    (hstate : (s.queue t q).state = .absent ∨ (s.queue t q).state = .deleting) :
    exec (.delete t q) s = noted (s.logQueue t q) := by
  rw [exec, execDelete, State.onPort_of_open hopen, State.deleteQueue, if_neg]
  rcases hstate with h | h <;> simp [h]

theorem exec_resume_of_halted (hopen : s.portOpen t = true) (hstate : (s.queue t q).state = .halted) :
    exec (.resume t q) s = noted (s.modQueue t q (fun x => { x with resumePending := true })) := by
  rw [exec, execResume, State.onPort_of_open hopen, State.resumeQueue, if_pos (by simpa using hstate)]

theorem exec_resume_of_refused (hopen : s.portOpen t = true) (hstate : (s.queue t q).state ≠ .halted) :
    exec (.resume t q) s = noted (s.logQueue t q) := by
  rw [exec, execResume, State.onPort_of_open hopen, State.resumeQueue, if_neg (by simpa using hstate)]

/-! ### Doorbells (R286) -/

theorem exec_cmdTail_bar2Flush {tail atNs : Nat} {entries : List (List W64)} (hopen : s.portOpen t = true)
    (hat : s.tick.sluiceLen ≤ atNs) :
    exec (.cmdTail t q tail atNs entries) s = exec (.cmdTail t q tail atNs entries) (s.bar2Flush t) := by
  have hopen' : (s.bar2Flush t).portOpen t = true := (s.portOpen_bar2Flush t).trans hopen
  have hlate : ¬ atNs < s.tick.sluiceLen := Nat.not_lt.mpr hat
  rw [exec, exec, execCmdTail, execCmdTail, State.onPort_of_open hopen, State.onPort_of_open hopen', s.tick_bar2Flush t,
    if_neg hlate, if_neg hlate, State.bar2Flush_of_idle (s.held_bar2Flush t)]

/-- A doorbell during the sluice, or of a port that holds nothing, is answered at once. -/
theorem exec_cmdTail_of_idle {tail atNs : Nat} {entries : List (List W64)} (hopen : s.portOpen t = true)
    (hnow : s.tick.sluiceLen ≤ atNs → s.ports[t].held = []) :
    exec (.cmdTail t q tail atNs entries) s = noted (s.ringTailTo t q tail atNs entries) := by
  rw [exec, execCmdTail, State.onPort_of_open hopen]
  split
  · rfl
  · next hlate => rw [State.bar2Flush_of_idle (hnow (Nat.not_lt.mp hlate))]

theorem Queue.tailOk_iff {x : Queue} {tail : Nat} : x.tailOk tail = true ↔ (x.state = .active ∨ x.state = .halted) ∧
    tail < x.entries ∧ (x.tail + x.entries - x.head) % x.entries ≤ (tail + x.entries - x.head) % x.entries := by
  simp only [Queue.tailOk, Bool.and_eq_true, Bool.or_eq_true, beq_iff_eq, decide_eq_true_eq, and_assoc]

theorem State.ringTailTo_of_ok {tail : Nat} (hok : (s.queue t q).tailOk tail = true) (atNs : Nat) (entries : List (List W64)) :
    s.ringTailTo t q tail atNs entries =
      let x := s.queue t q
      let n := (tail + x.entries - x.tail) % x.entries
      let new := (List.range n).map (fun i => (⟨nth entries i (List.replicate 16 0), s.tick.count, atNs⟩ : Avail))
      (s.modQueue t q (fun x => { x with tail := tail, avail := x.avail ++ new })).bump 0x902B (2 + 16 * t.val) n := by
  rw [State.ringTailTo, hok]
  rfl

theorem State.ringTailTo_of_refused {tail : Nat} (hbad : (s.queue t q).tailOk tail = false) (atNs : Nat)
    (entries : List (List W64)) : s.ringTailTo t q tail atNs entries = s.logQueue t q := by
  rw [State.ringTailTo, hbad]
  rfl

theorem Queue.tailOk_of_refused {x : Queue} {tail : Nat} (h : x.state = .absent ∨ x.state = .deleting ∨ x.entries ≤ tail ∨
    (tail + x.entries - x.head) % x.entries < (x.tail + x.entries - x.head) % x.entries) : x.tailOk tail = false := by
  rw [Bool.eq_false_iff, ne_eq, Queue.tailOk_iff]
  rintro ⟨hstate, hlt, hle⟩
  rcases h with h | h | h | h
  · simp [h] at hstate
  · simp [h] at hstate
  · omega
  · omega

theorem exec_cplHead_of_ok {head : Nat} (hopen : s.portOpen t = true) (hstate : (s.queue t q).state ≠ .absent)
    (hlt : head < (s.queue t q).entries) :
    exec (.cplHead t q head) s = noted (s.modQueue t q (fun x => { x with
      cplFreed := x.cplFreed + (head + (s.queue t q).entries - x.cplFreed % (s.queue t q).entries) % (s.queue t q).entries })) := by
  rw [exec, execCplHead, State.onPort_of_open hopen, State.completionHead]
  rw [if_neg (by simpa [hstate] using hlt)]

theorem exec_cplHead_of_refused {head : Nat} (hopen : s.portOpen t = true)
    (h : (s.queue t q).state = .absent ∨ (s.queue t q).entries ≤ head) :
    exec (.cplHead t q head) s = noted (s.logQueue t q) := by
  rw [exec, execCplHead, State.onPort_of_open hopen, State.completionHead]
  rw [if_pos (by simpa using h)]

end Control

end Sys2Proof.Machine
end

