-- ==== Sys2Proof/Proofs/PortRegisters.lean ====
section
/-! SUPPORT. The registers of an open host port in BAR0 (R279, R283, R292, R299): the queue blocks and the request area; with them
the proof of O53. -/
namespace Sys2Proof.Machine

open Sys2Proof

section Registers

variable {s : State} {t : Fin 4} {q : Fin 64}

/-- A register of a queue block has 4 or 8 bytes, is aligned, and lies within the block. -/
theorem queueRegWidth_spec {k width : Nat} (h : queueRegWidth k = some width) :
    (width = 4 ∨ width = 8) ∧ k % width = 0 ∧ k + width ≤ 64 := by
  unfold queueRegWidth at h
  split at h <;> cases h <;> decide

/-- The registers of the queue blocks are such as BAR0 takes. -/
theorem queueReg_ok (q : Fin 64) {k width : Nat} (h : queueRegWidth k = some width) :
    Bar0Ok (0x4000 + 64 * q.val + k) width := by
  obtain ⟨hwidth, halign, hend⟩ := queueRegWidth_spec h
  refine ⟨hwidth, ?_, by omega⟩
  rcases hwidth with rfl | rfl <;> omega

theorem queueOf_block (q : Fin 64) {k : Nat} (hk : k < 64) : queueOf (0x4000 + 64 * q.val + k) = q := by
  have hq : (0x4000 + 64 * q.val + k - 0x4000) / 64 = q.val := by omega
  rw [queueOf, hq]
  exact Fin.ext (Nat.mod_eq_of_lt q.isLt)

theorem State.readBar0_block {k width : Nat} (h : queueRegWidth k = some width) :
    s.readBar0 t (0x4000 + 64 * q.val + k) width = (s.queue t q).readReg k := by
  obtain ⟨hwidth, -, hend⟩ := queueRegWidth_spec h
  have hk : (0x4000 + 64 * q.val + k) % 64 = k := by omega
  have hq : Fin.ofNat 64 ((0x4000 + 64 * q.val + k - 0x4000) / 64) = q := queueOf_block q (by omega)
  unfold State.readBar0
  rw [if_neg (by omega), if_neg (by omega), if_neg (by omega), if_pos (by omega), hk, if_pos h, hq]

theorem exec_bar0Read_block (hopen : s.portOpen t = true) {k width n : Nat} (h : queueRegWidth k = some width)
    (hn : (s.queue t q).readReg k = some n) :
    exec (.bar0Read t (0x4000 + 64 * q.val + k) width) s = .next (s.emit (.bar0 t (BitVec.ofNat 64 n))).noteChanges :=
  exec_bar0Read_of_some hopen (queueReg_ok q h) ((State.readBar0_block h).trans hn)

theorem exec_registerWrite_base (hopen : s.portOpen t = true) {k : Nat} (h : queueRegWidth k = some 8) (v : W64) :
    exec (.registerWrite t (0x4000 + 64 * q.val + k) 8 v) s = noted (s.writeQueueBlock t q k v) := by
  obtain ⟨hwidth, -, hend⟩ := queueRegWidth_spec h
  have hk : (0x4000 + 64 * q.val + k) % 64 = k := by omega
  rw [exec_registerWrite_of_ok hopen (queueReg_ok q h)]
  unfold State.writeBar0
  rw [if_neg (by omega), if_neg (by omega), if_neg (by omega), if_pos (by omega), hk, if_pos h, queueOf_block q (by omega)]
  rfl

theorem exec_registerWrite_request (hopen : s.portOpen t = true) {i : Nat} (hi : 8 * i + 8 ≤ 16384) (v : W64) :
    exec (.registerWrite t (0x8000 + 8 * i) 8 v) s =
      noted (s.modPort t (fun p => { p with mbxReq := splice p.mbxReq (8 * i) (leBytes 8 v.toNat) })) := by
  rw [exec_registerWrite_of_ok hopen ⟨Or.inr rfl, by omega, by omega⟩]
  unfold State.writeBar0
  rw [if_neg (by omega), if_neg (by omega), if_neg (by omega), if_neg (by omega), if_pos (by omega), Nat.add_sub_cancel_left]

theorem exec_mbxCtrl_of_idle {v : W32} (hopen : s.portOpen t = true) (hbusy : s.ports[t].mbxBusy = false) (hlo : 1 ≤ v.toNat)
    (hhi : v.toNat ≤ 16384) :
    exec (.mbxCtrl t v) s = noted (s.modPort t (fun p => { p with mbxBusy := true, mbxLen := v.toNat })) := by
  rw [exec, execMbxCtrl, State.onPort_of_open hopen, State.startMailbox, if_neg]
  simp only [Bool.or_eq_true, decide_eq_true_eq]
  rintro ((h | h) | h)
  · exact Bool.false_ne_true (hbusy.symm.trans h)
  · omega
  · omega

theorem exec_mbxStatus_of_ready (hopen : s.portOpen t = true) {v : W32} (hv : v.getLsbD 30 = true) :
    exec (.mbxStatus t v) s = noted (s.modPort t (fun p => { p with mbxReady := false })) := by
  rw [exec, execMbxStatus, State.onPort_of_open hopen, State.clearReady, if_pos hv]

theorem exec_mbxStatus_of_not_ready (hopen : s.portOpen t = true) {v : W32} (hv : v.getLsbD 30 = false) :
    exec (.mbxStatus t v) s = noted s := by
  rw [exec, execMbxStatus, State.onPort_of_open hopen, State.clearReady, hv]
  rfl

/-- The bases of a queue's rings are written while the queue is absent, to whole 4 KiB. -/
theorem exec_registerWrite_rings {v : W64} (hopen : s.portOpen t = true) (hstate : (s.queue t q).state = .absent)
    (hv : v.toNat % 4096 = 0) :
    exec (.registerWrite t (0x4000 + 64 * q.val) 8 v) s = noted (s.modQueue t q (fun x => { x with cmdBase := v })) ∧
      exec (.registerWrite t (0x4008 + 64 * q.val) 8 v) s = noted (s.modQueue t q (fun x => { x with cplBase := v })) := by
  have hoffset : 0x4008 + 64 * q.val = 0x4000 + 64 * q.val + 8 := by omega
  constructor
  · refine (exec_registerWrite_base (k := 0) hopen rfl v).trans ?_
    rw [State.writeQueueBlock, if_pos (by simp [hstate, hv])]
  · rw [hoffset, exec_registerWrite_base hopen rfl, State.writeQueueBlock, if_pos (by simp [hstate, hv])]

end Registers

/-- Settles O53: queue control and doorbells by the lemmas of QueueControl.lean, whose refusals are `State.refusesQueue_noted`; the
registers of a port answer at their own offsets, those of the queue blocks by `exec_bar0Read_block`. -/
theorem queueControlAndPortRegisterResults : Obligations.QueueControlAndPortRegisterResults := by
  unfold Obligations.QueueControlAndPortRegisterResults
  refine ⟨fun s t q hopen => ?_, fun s t hopen => ?_⟩
  · intro x log2 puts begun refused
    have hrefused : ∀ i, exec i s = noted (s.logQueue t q) → refused i := fun i hi => s.refusesQueue_noted t q hi
    refine ⟨exec_create_of_absent hopen, fun h => hrefused _ (exec_create_of_refused hopen h),
      fun h => exec_delete_of_live hopen h rfl, fun h => hrefused _ (exec_delete_of_refused hopen h),
      exec_resume_of_halted hopen, fun h => hrefused _ (exec_resume_of_refused hopen h),
      fun tail atNs entries => ⟨exec_cmdTail_bar2Flush hopen, fun hnow hstate hlt hle => ?_, fun hnow h => ?_⟩,
      fun head => ⟨exec_cplHead_of_ok hopen, fun h => hrefused _ (exec_cplHead_of_refused hopen h)⟩⟩
    · rw [exec_cmdTail_of_idle hopen hnow, State.ringTailTo_of_ok (Queue.tailOk_iff.mpr ⟨hstate, hlt, hle⟩)]
      rfl
    · refine hrefused _ ?_
      rw [exec_cmdTail_of_idle hopen hnow, State.ringTailTo_of_refused (Queue.tailOk_of_refused h)]
  · intro p puts reads
    have hread : ∀ offset width n, Bar0Ok offset width →
        s.readBar0 t offset width = some n → reads offset width n := fun _ _ _ hok hn => exec_bar0Read_of_some hopen hok hn
    have hlow : ∀ v : W32, (v.setWidth 64).setWidth 32 = v := fun v => by simp
    refine ⟨fun v => ⟨?_, ?_, ?_, exec_mbxCtrl_of_idle hopen, exec_mbxStatus_of_ready hopen,
        exec_mbxStatus_of_not_ready hopen⟩,
      fun v => ⟨exec_registerWrite_of_ok hopen (by decide), fun i hi => exec_registerWrite_request hopen hi v,
        fun q => exec_registerWrite_rings hopen⟩,
      hread _ _ _ (by decide) rfl, hread _ _ _ (by decide) rfl, hread _ _ _ (by decide) rfl, hread _ _ _ (by decide) rfl,
      hread _ _ _ (by decide) rfl, hread _ _ _ (by decide) rfl, hread _ _ _ (by decide) rfl, hread _ _ _ (by decide) rfl,
      fun q => ⟨exec_bar0Read_block (k := 0) hopen rfl rfl, exec_bar0Read_block (k := 8) hopen rfl rfl,
        exec_bar0Read_block (k := 0x10) hopen rfl rfl, exec_bar0Read_block (k := 0x18) hopen rfl rfl,
        exec_bar0Read_block (k := 0x1C) hopen rfl rfl, exec_bar0Read_block (k := 0x20) hopen rfl rfl⟩⟩
    · exact State.onPort_of_open hopen (fun s => s.clearCause t v)
    · exact (exec_registerWrite_of_ok hopen (by decide)).trans (congrArg (fun x => noted (s.clearCause t x)) (hlow v))
    · exact (exec_registerWrite_of_ok hopen (by decide)).trans
        (congrArg (fun x => noted (s.withCause t (fun p => { p with eventMask := x &&& 0x1F }))) (hlow v))

end Sys2Proof.Machine
end
